-- ==== Sys2Proof/Word.lean ====
section
/-! DEFINITION. The word types of the device and their plainest arithmetic. -/

namespace Sys2Proof

/-- A 32-bit register word (R558). -/
abbrev W32 := BitVec 32
/-- An op-list entry or an operand descriptor: 32 bytes (R110, R116). -/
abbrev Entry := BitVec 256
/-- The data of one line, 64 bytes (R195). -/
abbrev LineData := BitVec 512
/-- A device physical address, 44 bits (R399). -/
abbrev Dpa := BitVec 44
/-- A device virtual address, 52 bits (R399). -/
abbrev Dva := BitVec 52
/-- A Cleat's value, 48 bits (R254). -/
abbrev CleatVal := BitVec 48

/-- Bits [hi:lo] of a number. -/
def bitsOf (x hi lo : Nat) : Nat := (x >>> lo) % 2 ^ (hi - lo + 1)

/-- Bit i of a number. -/
def bitOf (x i : Nat) : Bool := x.testBit i

/-- The low bit as a number. -/
def b2n (b : Bool) : Nat := if b then 1 else 0

end Sys2Proof
end

