-- ==== Sys2Proof/Syntax.lean ====
section
/-! DEFINITION. The commands of the block: one constructor of Instr per row of spec/opcode_table.json, and the
operand types they carry. The table gives no operand fields; each constructor carries what its rule says the step
depends on (log 1). -/

namespace Sys2Proof

/-- The two halves of the hub (R21, R41). -/
inductive Half where
  | west | east
  deriving DecidableEq, Repr

/-- The two host ports (R28, R487). -/
inductive Port where
  | w | e
  deriving DecidableEq, Repr

/-- The reading and writing paths of the register space (R562). -/
inductive Path where
  | portW | portE | west | east
  deriving DecidableEq, Repr

/-- A function of a port: 0 the physical function, n virtual function n (R363, R491). -/
structure Win where
  port : Port
  fn   : Fin 9
  deriving DecidableEq, Repr

/-- The kinds of agent that requests name (R196 AGENT), with the destinations of the fabric and the Splice's router of a row,
which answers for a closed Splice (R37): rows 0 to 7 at column 9, then rows 0 to 7 at column 10. -/
inductive AgentKind where
  | site | tile | port | pseq | lanyard | mgmt | proxy | home | channel | cleatBank | splice
  deriving DecidableEq, Repr

/-- An agent of the mesh: a kind and its number. -/
structure Agent where
  kind : AgentKind
  num  : Nat
  deriving DecidableEq, Repr

/-- The message ops (R201); `rsv` is a request of class REQ whose OP the table does not list (R197). -/
inductive Op where
  | rdShared | rdUnique | upgrade | rdOnce | wrThrough | wrBack | evict | atomH
  | memRd | memWr | atomM
  | snpShared | snpInv | snpRdNA
  | mFill | mWb | mPoison
  | comp | compData | snpResp | snpRespData | mData | mAck | grantAck
  | rsv (code : BitVec 7)
  deriving DecidableEq, Repr

/-- A packet of the fabric (R195, R196). `status` holds STATUS, `grant` the GRANT or WMODE field, `mask` the byte
mask of a masked write. The requester of a relayed or forwarded request stays in `src`, and `hop` is the agent that sends the
present leg where that is not `src` (R176, R231); `via` is the proxy slice to which the response goes, `who` the requester that
a response or a snoop names in AGENT where its source and destination do not; `ap` is the attach point that a site sends from
or receives at (R275, R288); `fwd` puts a request in class FWD (R198); `old` marks an MAck with the old value of an atomic. -/
structure Pkt where
  op     : Op
  src    : Agent
  dst    : Agent
  tag    : Nat
  ctx    : BitVec 12
  svc    : BitVec 3
  addr   : Dpa
  sect   : BitVec 2
  poison : BitVec 2
  status : BitVec 3
  grant  : BitVec 2
  starve : Bool
  aop    : BitVec 4
  mask   : BitVec 32
  data   : LineData
  hop    : Option Agent := none
  via    : Option Agent := none
  who    : Option Agent := none
  ap     : Nat := 0
  fwd    : Bool := false
  old    : Bool := false
  deriving DecidableEq, Repr

/-- One sector read: what its decoding comes to, or the bits that the burst differs in from what is stored, which the decoder then
judges: bit 16 p + t for pin p in beat t (R154, R155, R170, R171). -/
inductive Dec where
  | clean | fix1 | fix2 | fail
  | raw (flips : BitVec 288)
  deriving DecidableEq, Repr

/-- The link-up fields of CHIP_HELLO (R301). -/
structure Hello where
  identity : W32
  minor    : Nat
  major    : Nat
  caching  : Bool
  tags     : Nat
  slots    : Nat
  cacheKib : Nat
  scrubUs  : Nat
  peakW    : Nat
  idleW    : Nat
  snpCr    : Nat
  ctlCr    : Nat
  deriving DecidableEq, Repr

/-- What a frame received at a site's attach point says: whether its check held (tspCheck), its link word (R282) with the REQ, SNP
and CTL frames credited back, and whether its messages are of class REQ or CTL, for which the hub owes a credit (R285). LINK
names the attach point of a module's pair on the AP face (R280). -/
structure Frame where
  crcOk : Bool
  seq   : BitVec 12
  ack   : BitVec 12
  nak   : Bool
  kind  : BitVec 2
  nhdr  : BitVec 3 := 0
  link  : Bool := false
  crReq : BitVec 4 := 0
  crSnp : BitVec 4
  crCtl : BitVec 4
  isReq : Bool := false
  isCtl : Bool := false
  deriving DecidableEq, Repr

/-- The TAG and SVC of a chiplet's Cleat op (R289, R291, R318). -/
structure SiteTag where
  tag : BitVec 12
  svc : BitVec 3 := 0
  deriving DecidableEq, Repr

/-- The header fields of a site's LeaveReq, or of a CTL message whose op R294 does not list: OP, slot and TAG (R289, R294). -/
structure CtlTag where
  tag  : BitVec 12
  slot : Fin 16 := 0
  op   : BitVec 8 := 0x54
  deriving DecidableEq, Repr

/-- A MEASURE_RSP (R301): the N digests, the L / 8 words of the certificate chain, and the 64 words of the signature. -/
structure MeasRsp where
  digests : List (BitVec 512)
  chain   : List (BitVec 64) := []
  sign    : List (BitVec 64) := List.replicate 64 0
  deriving DecidableEq, Repr

/-- What a frame received on a Lanyard link says (State.readLnk): whether its check, its GCM tag (R332) and the TYPE of its message
(R347) held, its link word (R324) with the DATA and GET frames credited back, and whether its message is of class DATA or GET, for
which the device owes a credit (R326); and what its reception showed of the wavelengths: those on which a codeword was
uncorrectable, and those whose corrected symbols of the window now exceed the limit (R335). -/
structure LnkFrame where
  crcOk  : Bool
  tagOk  : Bool
  typeOk : Bool
  seq    : BitVec 12
  ack    : BitVec 12
  nak    : Bool
  kind   : BitVec 2
  crData : BitVec 8
  crGet  : BitVec 4
  uncorr : BitVec 4
  noisy  : BitVec 4
  epoch  : BitVec 2 := 0
  isData : Bool := false
  isGet  : Bool := false
  deriving DecidableEq, Repr

/-- The message types of a Lanyard link (R347). -/
inductive LType where
  | put | putRed | get | done | refuse | route | halfDown
  deriving DecidableEq, Repr

/-- A Lanyard message: the fields of R347, with the data of a fragment as its 32-byte sectors. Two fields stand beside the header:
the link that it arrived on or is to leave by, and whether a PUT brings the data of a GET (log 16). -/
structure LMsg where
  type    : LType
  srcDev  : Nat
  dstDev  : Nat
  msn     : BitVec 32
  handle  : Nat
  offset  : Nat
  poison  : List Bool
  dtag    : BitVec 16
  red     : BitVec 2
  putid   : BitVec 15
  rhandle : Nat
  roffset : Nat
  glen    : Nat
  tgen    : BitVec 8
  bytes   : Nat
  reason  : BitVec 4
  reach   : BitVec 26
  data    : List (BitVec 256)
  link    : Nat := 0
  ofGet   : Bool := false
  deriving DecidableEq, Repr

/-- A peer's attestation report as the West management core reads it (R328, R468): whether its signatures verify over the nonce that
this end supplied, FW_WEST, FW_EAST, FLAGS, the life-cycle state, the domain identity and the device number; and the device number
that the peer expects at its own end of the link. -/
structure PeerFacts where
  sigOk   : Bool
  fwWest  : Nat
  fwEast  : Nat
  flags   : BitVec 8
  life    : BitVec 8
  ident   : BitVec 64
  devNum  : BitVec 5
  expects : BitVec 5
  deriving DecidableEq, Repr

/-- The domain table of a Halyard DOMAIN message (R339). -/
structure DomainTable where
  ident     : BitVec 64
  self      : BitVec 5
  size      : BitVec 5
  expect    : List (BitVec 5)
  fwSet     : List Nat
  allowTest : Bool
  deriving DecidableEq, Repr

/-- Who asks the governor for leave (R437, R439, R440): a site, a DISPATCH, or a march or margin run on a stack. -/
inductive LeaveWho where
  | site (k : Fin 8)
  | cmd (id : Nat)
  | run (k : Fin 8)
  deriving DecidableEq, Repr

/-- A client's certificate as the Halyard handshake judges it (R477, R478). -/
structure Client where
  digest     : Nat
  selfSigned : Bool
  keyOk      : Bool
  chainOk    : Bool
  suiteOk    : Bool
  deriving DecidableEq, Repr

/-- A debug token of a Halyard DEBUG message (R484). -/
structure DebugToken where
  sigOk  : Bool
  dikOk  : Bool
  nonce  : List W32
  bits   : BitVec 3
  deriving DecidableEq, Repr

/-- A Halyard REG message (R479): a register address and, for a write, its value. -/
structure RegMsg where
  addr  : Nat
  value : Option W32
  deriving DecidableEq, Repr

/-- An access to the configuration space of a function (R498, R510): the registers the manual gives an effect. -/
inductive CfgReg where
  | busMaster | vfEnable | pmeEn | aerMask (i : Fin 19) | aerSeverity (i : Fin 19) | aerStatus (i : Fin 19)
  | msixMask (v : Fin 8) | msixEnable
  deriving DecidableEq, Repr

/-- The SPDM requests of R473; `other` stands for any request outside its table. -/
inductive SpdmReq where
  | getVersion | getCapabilities | negotiateAlgorithms | getDigests | getCertificate | challenge
  | keyExchange | finish | heartbeat | keyUpdate | endSession | ideKm | tdispLock | tdispStart | tdispStop
  | pskExchange | mutualAuth | provisioning | other
  deriving DecidableEq, Repr

/-- How a port is reset alone (R508). -/
inductive PortResetKind where
  | hot | linkDown | perst
  deriving DecidableEq, Repr

/-- What a half's stage work found (R521 to R531): the outcomes of the tests, trainings and checks of that stage. -/
structure StageFacts where
  ok        : Bool
  rowsOk    : BitVec 8
  pairsOk   : BitVec 16
  groups    : BitVec 24
  failedCh  : List Nat
  failedSl  : List Nat
  repairs   : Nat
  recordOk  : Bool
  eastImage : Bool
  ms        : Nat
  deriving DecidableEq, Repr

/-- What the first stage of a cold boot meets (R521, R522, R478, R604). -/
structure BootEnv where
  aValid     : Bool
  aSvn       : Nat
  bValid     : Bool
  bSvn       : Nat
  coolAirN   : Bool
  anchorClrN : Bool
  fullMarch  : Bool
  domain     : Option DomainTable
  deriving DecidableEq, Repr

/-- The rails R608 gives an outcome, beside those the security engine watches (R480). -/
inductive Rail where
  | hank (k : Fin 8) | vpp (h : Half) | hphy (h : Half) | ser (h : Half) | opt (h : Half) | site (k : Fin 8) | io
  deriving DecidableEq, Repr

/-- The commands of the block. -/
inductive Instr where
  | hubRateWindow (west east : BitVec 16)
  -- tiles
  | dispatchRecord (t : Fin 96)
  | nop (t : Fin 96)
  | load (t : Fin 96)
  | store (t : Fin 96) (ecc : Bool)
  | gather (t : Fin 96)
  | mma (t : Fin 96) (ecc : Bool)
  | vec (t : Fin 96) (ecc : Bool)
  | quant (t : Fin 96) (ecc : Bool)
  | reduce (t : Fin 96)
  | atom (t : Fin 96)
  | wait (t : Fin 96)
  | signal (t : Fin 96)
  | fence (t : Fin 96)
  | put (t : Fin 96)
  | loop (t : Fin 96)
  | skip (t : Fin 96)
  | endOp (t : Fin 96)
  | opComplete (t : Fin 96) (op waits : Nat)
  | reduceSourceArrive (t : Fin 96)
  | waitTimeout (t : Fin 96)
  | dispatchStop (t : Fin 96)
  -- Hank memory
  | memRd (p : Pkt) (phys : List Dec)
  | memWr (p : Pkt) (phys : List Dec)
  | atomM (p : Pkt) (phys : List Dec)
  | mfill (p : Pkt) (phys : List Dec)
  | mwb (p : Pkt) (phys : List Dec)
  | mpoison (p : Pkt)
  | retireChunkDone (reads : List (Nat × List Dec))
  | bucketDecay
  | patrolRead (ch : Fin 1024) (sec : Nat) (phys : List Dec)
  | zfillGranuleDone
  | thermalRegimeChange (k : Fin 8) (temp : BitVec 8)
  | phyRecalibrate (ch : Fin 1024)
  | marginStart (k : Fin 8) (path : Path) (w : W32)
  | marginDone (k : Fin 8) (errs : BitVec 24) (worst : BitVec 3)
  | memScopeWrite (n : Fin 24) (path : Path) (w : W32)
  -- fabric and coherence
  | rdShared (p : Pkt) (ecc : BitVec 2)
  | rdUnique (p : Pkt)
  | upgrade (p : Pkt)
  | rdOnce (p : Pkt) (ecc : BitVec 2)
  | wrThrough (p : Pkt)
  | wrBack (p : Pkt)
  | evict (p : Pkt)
  | atomH (p : Pkt)
  | snpShared (p : Pkt)
  | snpInv (p : Pkt)
  | snpRdNA (p : Pkt)
  | comp (p : Pkt)
  | compData (p : Pkt)
  | snpResp (p : Pkt)
  | snpRespData (p : Pkt)
  | mdata (p : Pkt)
  | mack (p : Pkt)
  | grantAck (p : Pkt)
  | nackRetry (half : Half) (tag : Nat)
  | hitchExpire (line : Nat)
  | snoopTimeout (line : Nat) (a : Agent)
  | fillTimeout (line : Nat)
  | cohFlush (path : Path) (w : W32)
  | cohFlushDone
  | cohWaymaskWrite (n : Fin 9) (path : Path) (w : W32)
  | cohConfWrite (path : Path) (w : W32)
  -- Cleats
  | cleatIncrement (c : BitVec 16) (inc : CleatVal) (a : Agent)
  | cleatSig (k : Fin 8) (slot : Fin 16) (tag : SiteTag) (c : BitVec 16) (inc : CleatVal) (scope : BitVec 2)
  | cleatRd (k : Fin 8) (slot : Fin 16) (tag : SiteTag) (c : BitVec 16)
  | cleatWatch (k : Fin 8) (slot : Fin 16) (tag : SiteTag) (c : BitVec 16) (target : CleatVal)
      (scope : BitVec 2) (tmo : BitVec 16)
  | cleatWatchTimeout (k : Fin 8) (tag : BitVec 12)
  -- sites
  | siteLinkupStart (k : Fin 8)
  | sidebandTrained (k : Fin 8) (refusedPart : Bool)
  | mainbandTrained (k : Fin 8) (live : BitVec 16) (gts : BitVec 6)
  | linkupTimeout (k : Fin 8)
  | chipHello (k : Fin 8) (h : Hello)
  | chipAccept (k : Fin 8) (accept : Bool)
  | measureRsp (k : Fin 8) (digests : MeasRsp) (leaf : BitVec 512)
  | measureVerified (k : Fin 8) (chainOk identOk sigOk : Bool)
  | measureChanged (k : Fin 8)
  | tspFrame (k : Fin 8) (ap : Fin 16) (f : Frame) (vcOk : Bool)
  | tspReplayTimeout (k : Fin 8) (ap : Fin 16)
  | attachRetrainDone (k : Fin 8) (ap : Fin 16) (ok : Bool)
  | siteRequest (k : Fin 8) (ap : Fin 16) (slot : Fin 16) (tag : BitVec 12) (p : Pkt)
  | xlate (k : Fin 8) (slot : Fin 16) (tag : BitVec 12) (dva : Dva)
  | invAck (k : Fin 8)
  | invTimeout (k : Fin 8)
  | workDone (k : Fin 8) (wtag : BitVec 4) (status result : BitVec 8)
  | putReq (k : Fin 8) (slot : Fin 16) (tag : BitVec 12) (dev : BitVec 5) (handle : BitVec 16) (offset : BitVec 40)
      (len : BitVec 24) (src : Dpa) (red : BitVec 2) (cached : Bool)
  | leaveReq (who : LeaveWho) (tag : CtlTag) (watts : BitVec 16) (durUs : BitVec 32)
  | scrubDone (k : Fin 8)
  | scrubTimeout (k : Fin 8)
  | sitePowerSample (k : Fin 8) (draw : BitVec 12)
  | siteCtlReset (k : Fin 8) (path : Path)
  | siteCtlRemeasure (k : Fin 8) (path : Path)
  | sitePwrWrite (k : Fin 8) (path : Path) (w : W32)
  -- Lanyard links and domains
  | lnkFrameReceive (l : Fin 24) (f : LnkFrame)
  | lnkReplayTimeout (l : Fin 24)
  | fragmentSend (l : Fin 24)
  | lnkPut (m : LMsg)
  | lnkPutred (m : LMsg)
  | collIdleTimeout (e : Fin 12) (handle pos : Nat)
  | lnkGet (m : LMsg)
  | lnkDone (m : LMsg)
  | lnkRefuse (m : LMsg)
  | lnkRoute (m : LMsg)
  | lnkHalfDown (l : Fin 24)
  | trackerTimeout (e : Fin 12) (t : BitVec 11)
  | trackerQuarantineEnd (e : Fin 12) (t : BitVec 11)
  | linkAutoTrain
  | linkTrained (l : Fin 24) (lanes : BitVec 4) (nonce : Option (BitVec 256))
  | linkNoLightTimeout (l : Fin 24)
  | peerReport (l : Fin 24) (f : PeerFacts)
  | linkKeysInstalled (l : Fin 24)
  | wavelengthLockLost (l : Fin 24) (lane : Fin 4)
  | linkRecoveryDone (l : Fin 24) (lanes : BitVec 4)
  | linkLightLost (l : Fin 24)
  | lnkLctlRetrain (l : Fin 24) (path : Path)
  | lnkLctlRetire (l : Fin 24) (path : Path)
  | lnkDom2Start (path : Path)
  | lnkDom2Stop (path : Path)
  | domainStopResume
  | fauRemoved (u : Fin 6)
  | fauFitted (u : Fin 6)
  -- command windows
  | laneWrite (win : Win) (lane : Fin 4) (off : BitVec 14) (data : List (BitVec 8)) (poisoned : Bool)
  | packetRead (win : Win) (lane : Fin 4)
  | laneFlushEffect (win : Win) (lane : Fin 4)
  | overflowGuard (win : Win) (lane : Fin 4)
  | commandStart (win : Win) (lane : Fin 4)
  | dispatch (id : Nat)
  | siteWork (id : Nat)
  | copy (id : Nat)
  | fill (id : Nat)
  | putCmd (id : Nat)
  | getCmd (id : Nat)
  | handleSet (id : Nat)
  | handleClear (id : Nat)
  | xltInval (id : Nat)
  | nopCmd (id : Nat)
  | cleatSet (id : Nat)
  | cleatAdd (id : Nat)
  | cleatWait (id : Nat)
  | cleatWaitTimeout (id : Nat)
  | seqdir (id : Nat)
  | partCreate (id : Nat)
  | partGrantGroups (id : Nat)
  | partGrantGranules (id : Nat)
  | partGrantCleats (id : Nat)
  | partGrantSharedNew (id : Nat)
  | partGrantShareAdd (id : Nat)
  | partGrantSeal (id : Nat)
  | partGrantRelease (id : Nat)
  | partGrantSharedRetire (id : Nat)
  | partDestroy (id : Nat)
  | whippingComplete (p : Fin 8) (us : BitVec 16)
  | ctxSet (id : Nat)
  | ctxClear (id : Nat)
  | siteBind (id : Nat)
  | siteUnbind (id : Nat)
  | attest (id : Nat)
  | query (id : Nat)
  | marginCmd (id : Nat)
  | linkCtl (id : Nat)
  | commandEnd (id : Nat)
  | commandTimeout (id : Nat)
  | laneFlush (win : Win) (w : W32)
  | laneReset (win : Win) (w : W32)
  | cmdXflush (path : Path) (w : W32)
  -- translation
  | rangeWalk (m : Agent) (ctx : BitVec 12) (dva : Dva) (acc : BitVec 3) (hold : Bool)
  | xltRetry (win : Win) (w : W32)
  | xltCancel (win : Win) (w : W32)
  | hostApertureAccess (win : Win) (n : Fin 4) (off : BitVec 34) (write : Option (List (BitVec 8))) (len : Nat)
      (poisoned : Bool)
  -- power
  | leaveQueueTimeout
  | leaveExpire (k : Fin 8)
  | packageDrawSample (watts : BitVec 12)
  | junctionTempChange (h : Half) (temp : Int)
  | throttleReleaseStep
  | pwrLimitWrite (path : Path) (w : W32)
  | pwrPbaseWrite (p : Fin 8) (path : Path) (w : W32)
  | pwrConfWrite (path : Path) (w : W32)
  | hubTagminWrite (n : Fin 3) (path : Path) (w : W32)
  -- security
  | tamperAssert (n : Fin 2)
  | crystalFault
  | railGlitch
  | junctionCold
  | halyardConnect (c : Client)
  | halyardIdleTimeout
  | halyardCommand (packet : List (BitVec 8))
  | halyardReport (nonce : BitVec 256) (chain : Bool)
  | halyardDomain (d : DomainTable)
  | halyardFwData (off : BitVec 32) (data : List (BitVec 8))
  | halyardFwCommit (len : BitVec 32) (raiseSvn sigOk : Bool) (svn : Nat) (digest : BitVec 512)
  | halyardLc (target : BitVec 2)
  | halyardDebug (tok : DebugToken)
  | halyardAnchor (c : Client)
  | halyardReg (m : RegMsg)
  | spdmRequest (win : Win) (r : SpdmReq)
  | getMeasurements (win : Win) (idx : BitVec 8) (nonce : BitVec 256)
  | getDeviceInterfaceReport (win : Win) (nonce : BitVec 256)
  | secLctransWrite (path : Path) (w : W32)
  | lcBurnDone
  -- host ports
  | vfFlr (win : Win)
  | pfFlr (port : Port)
  | vfEnableClear (port : Port)
  | portReset (port : Port) (kind : PortResetKind)
  | npTimeout (port : Port)
  | pmcsrWrite (win : Win) (d3 : Bool)
  | configWrite (win : Win) (r : CfgReg) (v : Bool)
  | unexpectedCompletion (port : Port)
  | attentionButton (pressed : Bool)
  | pciModuleWrite (path : Path) (w : W32)
  -- bring-up
  | coldBoot (env : BootEnv)
  | bootStageDone (h : Half) (f : StageFacts)
  | eastLateTimeout
  | clockLockTimeout (h : Half)
  | marchStart (k : Fin 8) (path : Path) (w : W32)
  | preserveRowTest (k : Fin 8) (ch : Fin 128) (ok spareFree : Bool)
  | marchDone (k : Fin 8) (failRows : BitVec 16) (failedCh : List (Fin 128))
  | watchdogExpire (h : Half)
  | mgmtSramUecc (h : Half)
  | coreRestartDone (h : Half)
  | hubHalfrstWrite (path : Path) (w : W32)
  | memclkLoss (h : Half)
  | halfUnresponsive (h : Half)
  -- registers and the Fid
  | registerWrite (path : Path) (addr : Nat) (v : W32) (wordSized : Bool)
  | registerReadClear (path : Path) (addr : Nat)
  | lowWordRead (path : Path) (addr : Nat)
  | hubSeizeTake (n : Fin 16) (path : Path)
  | hubSeizeGive (n : Fin 16) (path : Path)
  | hubSeizeBreak (n : Fin 16) (path : Path)
  | hubSnapTake (path : Path)
  | snapRegionTimeout (h : Half)
  | hubSealctlCommit (path : Path)
  | hubSealrefWrite (path : Path) (w : W32)
  | sealPassDone
  | fidSelWrite (h : Half) (n : Fin 64) (path : Path) (w : W32)
  | fidBufWrite (p : Fin 8) (word : Fin 8) (path : Path) (w : W32)
  | fidSamplePeriod
  | fidTrigArm (path : Path)
  | fidTrigFire (path : Path)
  | traceWaitThreshold
  | thermtrip (dram : Bool) (temp : Nat)
  | resetAssert
  | mainRailFault (r : Rail)
  | stackTemperatureThrottle (k : Fin 8) (temp : BitVec 8)
  | hostLinkTrained (port : Port) (speed : BitVec 3) (width : BitVec 5) (flit : Bool)
  | perstDeassert (port : Port)
  | halyardSessionClose
  | seizingWaitTimeout (id : Nat)
  | linkNarrowingDone (l : Fin 24)
  | alwaysOnRailUp
  | unsupportedRequest (win : Win) (posted : Bool)
  deriving DecidableEq, Repr

end Sys2Proof
end

