-- ==== Sys2Proof/WellFormed.lean ====
section
/-! DEFINITION. Which commands are well formed: every operand lies in the range its rule gives it. -/

namespace Sys2Proof

/-- How many agents of a kind the larger part has (R2, R41); homes 32 and 33 are the walkers of the halves (R406), and
management core 2 is the West core issuing an attestation's writes (R471). -/
def AgentKind.count (k : AgentKind) : Nat :=
  match k with
  | .site => 8 | .tile => 96 | .port => 2 | .pseq => 2 | .lanyard => 12 | .mgmt => 3 | .proxy => 32 | .home => 34
  | .channel => 1024 | .cleatBank => 16 | .splice => 16

/-- The agent exists on the larger part. -/
def Agent.wf (a : Agent) : Bool := a.num < a.kind.count

/-- A packet of the named op: agents that exist, a tag of 16 bits (R196). -/
def Pkt.wf (p : Pkt) (op : Op) : Bool := p.op == op && p.src.wf && p.dst.wf && p.tag < 65536

/-- A link-up message: fields within the widths of R301. -/
def Hello.wf (h : Hello) : Bool :=
  h.minor < 256 && h.major < 256 && h.tags < 8192 && h.slots < 32 && h.cacheKib ≤ 0xFFFFFF && h.scrubUs < 65536
    && h.peakW < 4096 && h.idleW < 4096 && h.snpCr < 256 && h.ctlCr < 256

/-- A Lanyard message: fields within the widths of R347 and data of whole sectors. -/
def LMsg.wf (m : LMsg) (t : LType) : Bool :=
  m.type == t && m.srcDev < 32 && m.dstDev < 32 && m.handle < 65536 && m.offset < 2 ^ 40 && m.rhandle < 65536
    && m.roffset < 2 ^ 40 && m.glen < 2 ^ 24 && m.bytes < 2 ^ 24 && m.data.length ≤ 16 && m.link < 24
    && m.poison.length == m.data.length

/-- A domain table: N from 1 to 25 and an expected peer, or none, for each link (R339). -/
def DomainTable.wf (d : DomainTable) : Bool := 1 ≤ d.size.toNat && d.size.toNat ≤ 25 && d.expect.length == 24

/-- The rows whose operands are packets, each with the op its row carries. -/
def Instr.pktWf (i : Instr) : Bool :=
  match i with
  | .memRd p ph => p.wf .memRd && ph.length ≤ 8
  | .memWr p ph => p.wf .memWr && ph.length ≤ 8
  | .atomM p ph => p.wf .atomM && ph.length ≤ 8
  | .mfill p ph => p.wf .mFill && ph.length ≤ 8
  | .mwb p ph => p.wf .mWb && ph.length ≤ 8
  | .mpoison p => p.wf .mPoison
  | .rdShared p _ => p.wf .rdShared
  | .rdUnique p => p.wf .rdUnique
  | .upgrade p => p.wf .upgrade
  | .rdOnce p _ => p.wf .rdOnce
  | .wrThrough p => p.wf .wrThrough
  | .wrBack p => p.wf .wrBack
  | .evict p => p.wf .evict
  | .atomH p => p.wf .atomH
  | .snpShared p => p.wf .snpShared
  | .snpInv p => p.wf .snpInv
  | .snpRdNA p => p.wf .snpRdNA
  | .comp p => p.wf .comp
  | .compData p => p.wf .compData
  | .snpResp p => p.wf .snpResp
  | .snpRespData p => p.wf .snpRespData
  | .mdata p => p.wf .mData
  | .mack p => p.wf .mAck
  | .grantAck p => p.wf .grantAck
  | _ => true

/-- The command's operands lie in the ranges their rules give. -/
def Instr.wf (i : Instr) : Bool :=
  i.pktWf &&
  match i with
  | .opComplete _ _ w => w < 2 ^ 32
  | .retireChunkDone reads => reads.all fun r => r.1 < 2 ^ 39 && r.2.length ≤ 4
  | .patrolRead _ sec ph => sec < 2 ^ 39 && ph.length ≤ 9
  | .nackRetry _ tag => tag < 32768
  | .hitchExpire l | .fillTimeout l => l < 2 ^ 38
  | .snoopTimeout l a => l < 2 ^ 38 && a.wf
  | .cleatIncrement _ _ a => a.wf
  | .chipHello _ h => h.wf
  | .measureRsp _ ds _ => ds.digests.length ≤ 16
  | .siteRequest k _ _ _ p => p.wf p.op && p.src == ⟨.site, k.val⟩ && isReq p.op
  | .lnkPut m => m.wf .put
  | .lnkPutred m => m.wf .putRed
  | .lnkGet m => m.wf .get
  | .lnkDone m => m.wf .done
  | .lnkRefuse m => m.wf .refuse
  | .lnkRoute m => m.wf .route
  | .collIdleTimeout _ h pos => h < 65536 && pos < 2 ^ 40
  | .laneWrite _ _ off data _ => off.toNat + data.length ≤ 16384 && 0 < data.length && data.length ≤ 4096
  | .rangeWalk m _ _ _ _ => m.wf
  | .hostApertureAccess _ _ _ w len _ =>
      len ≤ 4096 && 0 < len && (match w with | none => true | some d => d.length == len)
  | .halyardDomain d => d.wf
  | .halyardCommand p => p.length ≤ 4096
  | .halyardFwData _ d => d.length ≤ 65536
  | .halyardReg m => m.addr < 2 ^ 24
  | .marchDone _ _ _ => true
  | .registerWrite _ a _ _ | .registerReadClear _ a | .lowWordRead _ a => a < 0x1302000
  | .xlate _ _ _ _ => true
  | _ => true
where
  isReq (o : Op) : Bool :=
    match o with
    | .rdShared | .rdUnique | .upgrade | .rdOnce | .wrThrough | .wrBack | .evict | .atomH | .memRd | .memWr | .atomM | .rsv _ => true
    | _ => false

end Sys2Proof
end

