-- ==== Sys2Proof/Decode.lean ====
section
/-! DEFINITION. The opcode table gives no row any bits: a command is not spelled by a word, so no word spells one. -/

namespace Sys2Proof

/-- The command a word spells by the table's bits: none, since the table gives no row bits (log 12). -/
def decodeTableWord (_nbits _w : Nat) : Option Instr := none

end Sys2Proof
end

