-- ==== Sys2Proof/Config.lean ====
section
/-! DEFINITION. The free values of the model: constants without a body, so that nothing can be proved about what they
are. Each is applied to the counter State.freeCtr, which a step that draws one advances (log 6), and, where named, to
what the value may depend on. -/

namespace Sys2Proof.Config

/-- A 16-bit random number of a tile's generator (R78, R79). -/
opaque stochastic : Nat → BitVec 16
/-- A data word that the manual leaves open: the data a chiplet stored in a line that it holds (R217, R221). -/
opaque siteLine : Nat → BitVec 512
/-- Whether a caching site has changed E to M without notice (R217). -/
opaque siteSilent : Nat → Bool
/-- What decryption under a wrong or absent key gives, and what undefined contents read as, by counter and sector (R166,
R190, R533). -/
opaque garbage : Nat → Nat → BitVec 256
/-- A word drawn by the TRNG: a nonce (R300, R484). -/
opaque trng : Nat → BitVec 32
/-- The error, in units in the last place, of a transcendental function within its bound (R127). -/
opaque ulp : Nat → Int
/-- Which two partial sums ROWSUM adds next (R622). -/
opaque pick : Nat → Nat
/-- A number of an encoding or a digest of a document that the manual does not let one compute (R468, R473). -/
opaque digest : Nat → BitVec 512
/-- Which of the two values, the old or the new one, a sector of a refused write holds (R246). -/
opaque keptOld : Nat → Bool
/-- A length the manual leaves to the certificates: the bytes of a chain (R468). -/
opaque chainLen : Nat → BitVec 14

/-- Sixty-four bytes, by counter and place, of a signature, or of the certificates of a chain (R468). -/
opaque document : Nat → Nat → BitVec 512

/-- A number that a register shows where the manual states none (R192: the sector of a RETIRE_START). -/
opaque number : Nat → Nat

/-- The AGENT field of a packet that no requester caused, by its op (R196: the table codes requesting agents alone). -/
opaque noAgent : Nat → BitVec 4

/-- The poison bits that a chiplet's stores have left in a line that it holds (R237). -/
opaque sitePz : Nat → BitVec 2

/-- The pair of AES-256 keys of a key number: the TRNG drew them (R166, R460). -/
opaque keyPair : Nat → BitVec 512

/-- A byte of a management core's boot ROM, by half (0 West, 1 East) and place (R40: the spec does not give the code). -/
opaque coreRom : Nat → Nat → BitVec 8

/-- A byte of a management core's SRAM, by loading and place (R40, R522: the spec does not give the image). -/
opaque coreSram : Nat → Nat → BitVec 8

/-- The epoch-0 traffic secret that two link ends agreed, by agreement (R329: drawn by ML-KEM-1024 and ECDH). -/
opaque linkSecret : Nat → BitVec 512

/-- The secret that follows one, by HKDF-Expand with the label "lanyard next" (R331; log 38). -/
opaque nextSecret : BitVec 512 → BitVec 512

/-- The AES-256 key that a secret gives one direction, 0 from the lower device number (R329, R330; log 38). -/
opaque linkKey : BitVec 512 → Nat → BitVec 256

/-- Transaction entries of a slice beyond its first (R225: the spec gives no number). -/
opaque sliceMore : Nat

end Sys2Proof.Config
end

