-- ==== Sys2Proof/Machine/Cipher.lean ====
section
/-! DEFINITION. The check code of a sector and its place on the pins (R154, R155), AES-256 (FIPS 197), and the XTS mode that encrypts a
sector (R166, R167; IEEE 1619), and the GCM mode that protects a Lanyard frame (R330; NIST SP 800-38D). The spec names the three
standards without restating them: their arithmetic is taken from them (log 38). Bytes are numbers; byte 0 of a number is its lowest (R20). -/

namespace Sys2Proof.Machine

/-! ## The field of the check code (R154) -/

/-- A product in GF(2^8) modulo a polynomial with its x^8 term. -/
def gfMul (poly a b : Nat) : Nat :=
  [7, 6, 5, 4, 3, 2, 1, 0].foldl (fun r i =>
    let d := 2 * r
    (if d < 256 then d else d ^^^ poly) ^^^ (if b.testBit i then a else 0)) 0

/-- The field of the check code, x^8 + x^4 + x^3 + x^2 + 1 (R154). -/
def rsMul (a b : Nat) : Nat := gfMul 0x11D a b

/-- Powers of α = 2 (R154). -/
def alpha : Nat → Nat
  | 0 => 1
  | n + 1 => rsMul 2 (alpha n)

/-- The inverse of an element, its power 254: the product of its powers 2, 4, ... 128. -/
def rsInv (a : Nat) : Nat :=
  ((List.range 7).foldl (fun (x : Nat × Nat) _ => let q := rsMul x.1 x.1; (q, rsMul x.2 q)) (a, 1)).2

/-- g(x) = (x + 1)(x + α)(x + α^2)(x + α^3), highest coefficient first (R154). -/
def rsGen : List Nat :=
  [0, 1, 2, 3].foldl (fun g i => List.zipWith (· ^^^ ·) (g ++ [0]) (0 :: g.map (rsMul (alpha i)))) [1]

/-- One data byte enters the division by g(x). -/
def rsStep (reg : List Nat) (b : Nat) : List Nat :=
  let f := b ^^^ reg.headD 0
  List.zipWith (· ^^^ ·) (reg.drop 1 ++ [0]) ((rsGen.drop 1).map (rsMul f))

/-- The four check bytes: the remainder of D(x) x^4 divided by g(x) (R154). -/
def rsCheck (d : List Nat) : List Nat := d.foldl rsStep [0, 0, 0, 0]

/-- The value of a codeword at α^j; symbol i is the coefficient of x^(35 - i) (R154). -/
def syndrome (c : List Nat) (j : Nat) : Nat := c.foldl (fun a x => rsMul a (alpha j) ^^^ x) 0

/-- A symbol changed by an error value. -/
def putErr (cw : List Nat) (i e : Nat) : List Nat := cw.set i ((cw[i]?).getD 0 ^^^ e)

/-- The error at one symbol that four syndromes show. -/
def oneErr (s0 s1 s2 s3 : Nat) : Option (Nat × Nat) :=
  ((List.range 36).find? fun i =>
    let x := alpha (35 - i)
    s0 != 0 && s1 == rsMul s0 x && s2 == rsMul s1 x && s3 == rsMul s2 x).map fun i => (i, s0)

/-- The errors at two symbols that four syndromes show. -/
def twoErrs (s0 s1 s2 s3 : Nat) : Option ((Nat × Nat) × Nat × Nat) :=
  (List.range 36).findSome? fun i =>
    (List.range i).findSome? fun j =>
      let x := alpha (35 - i)
      let y := alpha (35 - j)
      let e := rsMul (s1 ^^^ rsMul x s0) (rsInv (x ^^^ y))
      let d := s0 ^^^ e
      let xx := rsMul x x
      let yy := rsMul y y
      if d != 0 && e != 0 && s2 == rsMul d xx ^^^ rsMul e yy && s3 == rsMul d (rsMul x xx) ^^^ rsMul e (rsMul y yy) then
        some ((i, d), j, e)
      else none

/-- Decoding of a codeword: the corrected one with the symbols corrected, at most two, or none (R154, R155). -/
def rsDecode (c : List Nat) : Option (List Nat × Nat) :=
  let s := [0, 1, 2, 3].map (syndrome c)
  match s with
  | [s0, s1, s2, s3] =>
    if s0 = 0 ∧ s1 = 0 ∧ s2 = 0 ∧ s3 = 0 then some (c, 0)
    else
      match oneErr s0 s1 s2 s3 with
      | some (i, e) => some (putErr c i e, 1)
      | none => (twoErrs s0 s1 s2 s3).map fun t => (putErr (putErr c t.1.1 t.1.2) t.2.1 t.2.2, 2)
  | _ => none

/-! ## Codewords and bursts (R154, R155, R157) -/

/-- The n bytes of a number, lowest first, and back. -/
def bytesOf (v n : Nat) : List Nat := (List.range n).map fun i => bitsOf v (8 * i + 7) (8 * i)
def ofBytes (l : List Nat) : Nat := l.foldr (fun b v => b + 256 * v) 0

/-- The codeword of a sector's ciphertext, with its check bytes inverted where the sector is poisoned (R154, R156, R157). -/
def codeword (d : BitVec 256) (poison : Bool) : List Nat :=
  let b := bytesOf d.toNat 32
  b ++ (rsCheck b).map fun c => if poison then c ^^^ 0xFF else c

/-- The pin and the first beat of a symbol of the codeword (R155). -/
def pinOf (i : Nat) : Nat := if i < 32 then i % 16 else 16 + i % 2
def beatOf (i : Nat) : Nat := if i < 32 then 8 * (i / 16) else 8 * ((i - 32) / 2)

/-- A codeword as its burst: bit 16 p + t of the number is what pin p carries in beat t (R155), and back. -/
def toBurst (cw : List Nat) : Nat :=
  (List.range 36).foldl (fun v i => v + ((cw[i]?).getD 0) * 2 ^ (16 * pinOf i + beatOf i)) 0
def ofBurst (v : Nat) : List Nat :=
  (List.range 36).map fun i => bitsOf v (16 * pinOf i + beatOf i + 7) (16 * pinOf i + beatOf i)

/-- What a controller makes of the codeword it reads: the poison test comes before any correction (R154, R157). -/
inductive RawRead where
  | poisoned
  | good (d : BitVec 256) (syms : Nat)
  | failed
  deriving DecidableEq, Repr

def readCodeword (c : List Nat) : RawRead :=
  let d := c.take 32
  if c.drop 32 = (rsCheck d).map (· ^^^ 0xFF) then .poisoned
  else
    match rsDecode c with
    | some (e, n) => .good (BitVec.ofNat 256 (ofBytes (e.take 32))) n
    | none => .failed

/-! ## AES-256 (FIPS 197) -/

/-- The substitution table and its inverse, a byte each from the lowest. -/
def sboxTable : Nat :=
  0x16BB54B00F2D99416842E6BF0D89A18CDF2855CEE9871E9B948ED9691198F8E19E1DC186B95735610EF6034866B53E708A8BBD4B1F74DDE8C6B4A61C2E2578BA08AE7A65EAF4566CA94ED58D6D37C8E779E4959162ACD3C25C2406490A3A32E0DB0B5EDE14B8EE4688902A22DC4F816073195D643D7EA7C41744975FEC130CCDD2F3FF1021DAB6BCF5389D928F40A351A89F3C507F02F94585334D43FBAAEFD0CF584C4A39BECB6A5BB1FC20ED00D153842FE329B3D63B52A05A6E1B1A2C830975B227EBE28012079A059618C323C7041531D871F1E5A534CCF73F362693FDB7C072A49CAFA2D4ADF04759FA7DC982CA76ABD7FE2B670130C56F6BF27B777C63
def sboxBack : Nat :=
  0x7D0C2155631469E126D677BA7E042B17619953833CBBEBC8B0F52AAE4D3BE0A0EF9CC9939F7AE52D0D4AB519A97F51605FEC8027591012B131C7078833A8DD1FF45ACD78FEC0DB9A2079D2C64B3E56FC1BBE18AA0E62B76F89C5291D711AF1476EDF751CE837F9E28535ADE72274AC9673E6B4F0CECFF297EADC674F4111913A6B8A130103BDAFC1020F3FCA8F1E2CD00645B3B80558E4F70AD3BC8C00ABD890849D8DA75746155EDAB9EDFD5048706C92B6655DCC5CA4D41698688664F6F87225D18B6D49A25B76B224D92866A12E084EC3FA420B954CEE3D23C2A632947B54CBE9DEC444438E3487FF2F9B8239E37CFBD7F3819EA340BF38A53630D56A0952

def sbox (x : Nat) : Nat := bitsOf sboxTable (8 * x + 7) (8 * x)
def sboxInv (x : Nat) : Nat := bitsOf sboxBack (8 * x + 7) (8 * x)

def xorBytes (a b : List Nat) : List Nat := List.zipWith (· ^^^ ·) a b

/-- Word i of the key schedule from those before it. -/
def keyWord (ws : List (List Nat)) (i : Nat) : List Nat :=
  let t := (ws[i - 1]?).getD []
  let t := if i % 8 = 0 then
      xorBytes ((t.drop 1 ++ t.take 1).map sbox) [2 ^ (i / 8 - 1), 0, 0, 0]
    else if i % 8 = 4 then t.map sbox else t
  xorBytes ((ws[i - 8]?).getD []) t

/-- The 60 words of the key schedule. -/
def keyWords (key : List Nat) : List (List Nat) :=
  ((List.range 52).map (8 + ·)).foldl (fun ws i => ws ++ [keyWord ws i])
    ((List.range 8).map fun i => (key.drop (4 * i)).take 4)

/-- The key of round r. -/
def roundKey (ws : List (List Nat)) (r : Nat) : List Nat := ((ws.drop (4 * r)).take 4).flatten

/-- Byte r + 4 c goes to row r, column c; row r turns by r columns, left or right. -/
def shiftRows (b : List Nat) : List Nat := (List.range 16).map fun i => (b[(i + 4 * (i % 4)) % 16]?).getD 0
def unshiftRows (b : List Nat) : List Nat := (List.range 16).map fun i => (b[(i + 12 * (i % 4)) % 16]?).getD 0

/-- Each column times a circulant matrix over GF(2^8) modulo x^8 + x^4 + x^3 + x + 1. -/
def mixBy (m b : List Nat) : List Nat :=
  (List.range 16).map fun i =>
    (List.range 4).foldl (fun v j => v ^^^ gfMul 0x11B ((b[4 * (i / 4) + j]?).getD 0) ((m[(4 + j - i % 4) % 4]?).getD 0)) 0
def mixColumns (b : List Nat) : List Nat := mixBy [2, 3, 1, 1] b
def unmixColumns (b : List Nat) : List Nat := mixBy [14, 11, 13, 9] b

/-- The cipher over a 16-byte block. -/
def aesEnc (ws : List (List Nat)) (b : List Nat) : List Nat :=
  let b := ((List.range 13).map (1 + ·)).foldl (fun b r => xorBytes (mixColumns (shiftRows (b.map sbox))) (roundKey ws r))
    (xorBytes b (roundKey ws 0))
  xorBytes (shiftRows (b.map sbox)) (roundKey ws 14)

/-- Its inverse. -/
def aesDec (ws : List (List Nat)) (b : List Nat) : List Nat :=
  let b := [13, 12, 11, 10, 9, 8, 7, 6, 5, 4, 3, 2, 1].foldl (fun b r =>
    unmixColumns (xorBytes ((unshiftRows b).map sboxInv) (roundKey ws r))) (xorBytes b (roundKey ws 14))
  xorBytes ((unshiftRows b).map sboxInv) (roundKey ws 0)

/-- The key schedule of a 256-bit key, its byte 0 the first. -/
def aesKey (k : BitVec 256) : List (List Nat) := keyWords (bytesOf k.toNat 32)

/-! ## XTS-AES-256 (R166, R167) -/

/-- The tweak of the sector at a DPA: a[43:5] in bits [38:0] (R167). -/
def tweakOf (dpa : Nat) : BitVec 128 := BitVec.ofNat 128 (bitsOf dpa 43 5)

/-- The next block's tweak: times α in GF(2^128). -/
def xtsNext (t : Nat) : Nat := if 2 * t < 2 ^ 128 then 2 * t else (2 * t - 2 ^ 128) ^^^ 0x87

/-- One block under a cipher, between two additions of the tweak. -/
def xtsBlock (f : List Nat → List Nat) (t : Nat) (b : List Nat) : List Nat :=
  xorBytes (f (xorBytes b (bytesOf t 16))) (bytesOf t 16)

/-- The two blocks of a sector: the low half of the key pair ciphers them, the high half the tweak. -/
def xtsWith (f : List (List Nat) → List Nat → List Nat) (k : BitVec 512) (tw : BitVec 128) (d : BitVec 256) : BitVec 256 :=
  let t := ofBytes (aesEnc (aesKey (k.extractLsb' 256 256)) (bytesOf tw.toNat 16))
  let g := f (aesKey (k.extractLsb' 0 256))
  let b := bytesOf d.toNat 32
  BitVec.ofNat 256 (ofBytes (xtsBlock g t (b.take 16) ++ xtsBlock g (xtsNext t) (b.drop 16)))

/-- A sector encrypted, and decrypted, under a key pair and a tweak (R166). -/
def xtsEnc : BitVec 512 → BitVec 128 → BitVec 256 → BitVec 256 := xtsWith aesEnc
def xtsDec : BitVec 512 → BitVec 128 → BitVec 256 → BitVec 256 := xtsWith aesDec

/-! ## AES-256-GCM (R330) -/

/-- Bytes as a number, the first the highest, and n bytes of a number so. -/
def ofBytesHi (l : List Nat) : Nat := ofBytes l.reverse
def bytesHi (v n : Nat) : List Nat := (bytesOf v n).reverse

/-- One step of a product in GCM's field: bit i of x, the first being the highest, and the running multiple of y. -/
def ghashStep (x : Nat) (zv : Nat × Nat) (i : Nat) : Nat × Nat :=
  (if x.testBit (127 - i) then zv.1 ^^^ zv.2 else zv.1, if zv.2.testBit 0 then zv.2 / 2 ^^^ 0xE1 * 2 ^ 120 else zv.2 / 2)

def ghashMul (x y : Nat) : Nat := ((List.range 128).foldl (ghashStep x) (0, y)).1

/-- The hash of whole blocks under a subkey. -/
def ghash (h : Nat) (l : List Nat) : Nat :=
  (List.range (l.length / 16)).foldl (fun y i => ghashMul (y ^^^ ofBytesHi ((l.drop (16 * i)).take 16)) h) 0

/-- Bytes filled up with zeros to whole blocks. -/
def padBlock (l : List Nat) : List Nat := l ++ List.replicate ((16 - l.length % 16) % 16) 0

/-- Bytes under the key stream of a 12-byte nonce, which starts at counter 2: encryption and decryption alike. -/
def gcmCrypt (ws : List (List Nat)) (iv d : List Nat) : List Nat :=
  ((List.range ((d.length + 15) / 16)).map fun i => xorBytes ((d.drop (16 * i)).take 16) (aesEnc ws (iv ++ bytesHi (i + 2) 4))).flatten

/-- The tag of authenticated bytes and ciphertext. -/
def gcmTag (ws : List (List Nat)) (iv aad c : List Nat) : List Nat :=
  let h := ofBytesHi (aesEnc ws (List.replicate 16 0))
  let y := ghash h (padBlock aad ++ padBlock c ++ bytesHi (8 * aad.length) 8 ++ bytesHi (8 * c.length) 8)
  xorBytes (bytesHi y 16) (aesEnc ws (iv ++ [0, 0, 0, 1]))

end Sys2Proof.Machine
end

