-- ==== Sys2Proof/Machine/Regs.lean ====
section
/-! DEFINITION. The register layouts: every field of every register table of the spec, as a row of one table (R556 to R561). A field
is named BLOCK_REGISTER_FIELD; the values of the fields stand in State.regs, one entry per field (R563, R564). -/

namespace Sys2Proof.Machine

/-- The register blocks of the directory (R556) and the window blocks of the functions (R494, R495). -/
inductive Blk where
  | hub | pwr | sec | mgt | pci | cmdDev | xltDev | coh | mem | lnk | fid | stack | site | group | fidc | cmdWin | xltWin
  deriving DecidableEq, Repr

/-- The access codes of *Conventions* (00_scope.md). -/
inductive Acc where
  | rw | ro | rc | wo | w1s
  deriving DecidableEq, Repr

/-- A register field: its block, the offset of its register, the spacing and number of the registers of its array, its bits,
its access and its reset value. -/
structure Fld where
  blk    : Blk
  off    : Nat
  stride : Nat
  count  : Nat
  hi     : Nat
  lo     : Nat
  acc    : Acc
  reset  : Nat
  deriving DecidableEq, Repr

/-- The base of a block in the register space, as the directory gives it (R556). The window blocks, which lie in the functions'
own BARs, take places above the first 16 MiB; `inst` counts 9 functions for each port. -/
def Blk.base (b : Blk) (inst : Nat) : Nat :=
  match b with
  | .hub => 0x000000 | .pwr => 0x001000 | .sec => 0x002000 | .mgt => 0x003000 | .pci => 0x004000 | .cmdDev => 0x005000
  | .xltDev => 0x006000 | .coh => 0x007000 | .mem => 0x008000 | .lnk => 0x009000 | .fid => 0x00A000
  | .stack => 0x010000 + 0x1000 * inst | .site => 0x020000 + 0x1000 * inst | .group => 0x030000 + 0x1000 * inst
  | .fidc => 0x050000 + 0x1000 * inst | .cmdWin => 0x1000000 + 0x1000 * inst | .xltWin => 0x1100000 + 0x1000 * inst

/-- The KIND code of a block (R556, R559). -/
def Blk.kindCode (b : Blk) : Nat :=
  match b with
  | .hub => 0x01 | .pwr => 0x02 | .sec => 0x03 | .mgt => 0x04 | .pci => 0x05 | .cmdDev => 0x06 | .xltDev => 0x07 | .coh => 0x08
  | .mem => 0x09 | .lnk => 0x0A | .fid => 0x0B | .stack => 0x10 | .site => 0x11 | .group => 0x12 | .fidc => 0x13
  | .cmdWin => 0x20 | .xltWin => 0x21

/-- The address of register n of the field's array in block number `inst`. -/
def Fld.addr (f : Fld) (inst n : Nat) : Nat := f.blk.base inst + f.off + f.stride * n

/-- The key of a field in State.regs: its register's address and its lowest bit. -/
def Fld.key (f : Fld) (inst n : Nat) : Nat := f.addr inst n * 32 + f.lo

/-- The number of values a field can hold. -/
def Fld.size (f : Fld) : Nat := 2 ^ (f.hi - f.lo + 1)

/-- The value of a field whose bits are all ones, at which its counts saturate. -/
def Fld.top (f : Fld) : Nat := f.size - 1

namespace R

/-- R51 -/
def HUB_ORG_PART : Fld := ⟨.hub, 0x000, 0x0, 1, 3, 0, .ro, 1⟩
/-- R51 -/
def HUB_ORG_WEST_UP : Fld := ⟨.hub, 0x000, 0x0, 1, 4, 4, .ro, 0⟩
/-- R51 -/
def HUB_ORG_EAST_UP : Fld := ⟨.hub, 0x000, 0x0, 1, 5, 5, .ro, 0⟩
/-- R51 -/
def HUB_ORG_GROUPS : Fld := ⟨.hub, 0x000, 0x0, 1, 15, 8, .ro, 0⟩
/-- R51 -/
def HUB_ORG_STACKS : Fld := ⟨.hub, 0x000, 0x0, 1, 23, 16, .ro, 0⟩
/-- R51 -/
def HUB_ORG_SITES : Fld := ⟨.hub, 0x000, 0x0, 1, 31, 24, .ro, 0⟩
/-- R51 -/
def HUB_POPCODE_CHAR0 : Fld := ⟨.hub, 0x004, 0x0, 1, 7, 0, .ro, 0⟩
/-- R51 -/
def HUB_POPCODE_CHAR1 : Fld := ⟨.hub, 0x004, 0x0, 1, 15, 8, .ro, 0⟩
/-- R51 -/
def HUB_POPCODE_CHAR2 : Fld := ⟨.hub, 0x004, 0x0, 1, 23, 16, .ro, 0⟩
/-- R51 -/
def HUB_POPCODE_CHAR3 : Fld := ⟨.hub, 0x004, 0x0, 1, 31, 24, .ro, 0⟩
/-- R51 -/
def HUB_RATE_WEST_RATE : Fld := ⟨.hub, 0x010, 0x0, 1, 15, 0, .ro, 0⟩
/-- R51 -/
def HUB_RATE_EAST_RATE : Fld := ⟨.hub, 0x010, 0x0, 1, 31, 16, .ro, 0⟩
/-- R51 -/
def HUB_SPLICE_OPEN : Fld := ⟨.hub, 0x018, 0x0, 1, 0, 0, .ro, 0⟩
/-- R51 -/
def HUB_SPLICE_ROWS_OK : Fld := ⟨.hub, 0x018, 0x0, 1, 8, 1, .ro, 0⟩
/-- R51 -/
def HUB_SPLICE_PAIRS_OK : Fld := ⟨.hub, 0x018, 0x0, 1, 24, 9, .ro, 0⟩
/-- R150 -/
def HUB_TSTAT_STATE : Fld := ⟨.group, 0x000, 0x40, 4, 1, 0, .ro, 0⟩
/-- R150 -/
def HUB_TSTAT_REPEAT : Fld := ⟨.group, 0x000, 0x40, 4, 2, 2, .ro, 0⟩
/-- R150 -/
def HUB_TSTAT_OPIDX : Fld := ⟨.group, 0x000, 0x40, 4, 19, 4, .ro, 0⟩
/-- R150 -/
def HUB_TSTAT_PART : Fld := ⟨.group, 0x000, 0x40, 4, 22, 20, .ro, 0⟩
/-- R150 -/
def HUB_TWAIT_CLEAT : Fld := ⟨.group, 0x004, 0x40, 4, 15, 0, .ro, 0⟩
/-- R150 -/
def HUB_TFAULT0_CODE : Fld := ⟨.group, 0x008, 0x40, 4, 7, 0, .rc, 0⟩
/-- R150 -/
def HUB_TFAULT0_OPIDX : Fld := ⟨.group, 0x008, 0x40, 4, 23, 8, .rc, 0⟩
/-- R150 -/
def HUB_TFAULT0_OVERRUN : Fld := ⟨.group, 0x008, 0x40, 4, 24, 24, .rc, 0⟩
/-- R150 -/
def HUB_TFAULT0_VALID : Fld := ⟨.group, 0x008, 0x40, 4, 31, 31, .rc, 0⟩
/-- R151 -/
def HUB_TFAULT1_ADDR_LO : Fld := ⟨.group, 0x00C, 0x40, 4, 31, 0, .ro, 0⟩
/-- R151 -/
def HUB_TFAULT2_ADDR_HI : Fld := ⟨.group, 0x010, 0x40, 4, 19, 0, .ro, 0⟩
/-- R151 -/
def HUB_TCONF_MAT : Fld := ⟨.group, 0x014, 0x40, 4, 31, 0, .ro, 0⟩
/-- R151 -/
def HUB_TCONF_VEC : Fld := ⟨.group, 0x018, 0x40, 4, 31, 0, .ro, 0⟩
/-- R151 -/
def HUB_TCONF_QNT : Fld := ⟨.group, 0x01C, 0x40, 4, 31, 0, .ro, 0⟩
/-- R151 -/
def HUB_TCONF_LDR : Fld := ⟨.group, 0x020, 0x40, 4, 31, 0, .ro, 0⟩
/-- R151 -/
def HUB_TCONF_GTH : Fld := ⟨.group, 0x024, 0x40, 4, 31, 0, .ro, 0⟩
/-- R151 -/
def HUB_TCONF_GRP : Fld := ⟨.group, 0x028, 0x40, 4, 31, 0, .ro, 0⟩
/-- R151 -/
def HUB_TGOWN_PART : Fld := ⟨.group, 0x100, 0x0, 1, 2, 0, .ro, 0⟩
/-- R151 -/
def HUB_TGOWN_OWNED : Fld := ⟨.group, 0x100, 0x0, 1, 3, 3, .ro, 0⟩
/-- R192 -/
def MEM_CONF_RESERVE : Fld := ⟨.mem, 0x000, 0x0, 1, 6, 0, .rw, 16⟩
/-- R192 -/
def MEM_CONF_PATROL_H : Fld := ⟨.mem, 0x000, 0x0, 1, 15, 8, .rw, 24⟩
/-- R192 -/
def MEM_CONF_ZFILL_SHARE : Fld := ⟨.mem, 0x000, 0x0, 1, 22, 16, .rw, 25⟩
/-- R192 -/
def MEM_RETIRE_THRESH : Fld := ⟨.mem, 0x004, 0x0, 1, 15, 0, .rw, 4096⟩
/-- R192 -/
def MEM_RETIRE_REMAIN : Fld := ⟨.mem, 0x004, 0x0, 1, 22, 16, .ro, 16⟩
/-- R192 -/
def MEM_RETIRE_RETIRED : Fld := ⟨.mem, 0x004, 0x0, 1, 29, 23, .ro, 0⟩
/-- R192 -/
def MEM_CAP_GRANULES : Fld := ⟨.mem, 0x008, 0x0, 1, 11, 0, .ro, 0⟩
/-- R192 -/
def MEM_CAP_BLOCKS : Fld := ⟨.mem, 0x008, 0x0, 1, 20, 12, .ro, 0⟩
/-- R192 -/
def MEM_EVENT_RETIRE_START : Fld := ⟨.mem, 0x00C, 0x0, 1, 0, 0, .rc, 0⟩
/-- R192 -/
def MEM_EVENT_RETIRE_DONE : Fld := ⟨.mem, 0x00C, 0x0, 1, 1, 1, .rc, 0⟩
/-- R192 -/
def MEM_EVENT_RESERVE_EMPTY : Fld := ⟨.mem, 0x00C, 0x0, 1, 2, 2, .rc, 0⟩
/-- R192 -/
def MEM_EVENT_LOST : Fld := ⟨.mem, 0x00C, 0x0, 1, 3, 3, .rc, 0⟩
/-- R192 -/
def MEM_EVENT_COPY_POISON : Fld := ⟨.mem, 0x00C, 0x0, 1, 4, 4, .rc, 0⟩
/-- R192 -/
def MEM_EVENT_SCOPE_REFUSED : Fld := ⟨.mem, 0x00C, 0x0, 1, 5, 5, .rc, 0⟩
/-- R192 -/
def MEM_EVENT_THERMAL : Fld := ⟨.mem, 0x00C, 0x0, 1, 6, 6, .rc, 0⟩
/-- R192 -/
def MEM_EVLOC0_CHANNEL : Fld := ⟨.mem, 0x010, 0x0, 1, 9, 0, .rc, 0⟩
/-- R192 -/
def MEM_EVLOC0_CAUSE : Fld := ⟨.mem, 0x010, 0x0, 1, 13, 10, .rc, 0⟩
/-- R192 -/
def MEM_EVLOC0_OVERRUN : Fld := ⟨.mem, 0x010, 0x0, 1, 31, 31, .rc, 0⟩
/-- R193 -/
def MEM_EVLOC1_SECTOR : Fld := ⟨.mem, 0x014, 0x0, 1, 24, 0, .ro, 0⟩
/-- R193 -/
def MEM_ZFILL_REMAIN : Fld := ⟨.mem, 0x018, 0x0, 1, 11, 0, .ro, 0⟩
/-- R193 -/
def MEM_ZFILL_ACTIVE : Fld := ⟨.mem, 0x018, 0x0, 1, 12, 12, .ro, 0⟩
/-- R193 -/
def MEM_SCOPE_0 : Fld := ⟨.mem, 0x040, 0x4, 24, 1, 0, .rw, 0⟩
/-- R193 -/
def MEM_SCOPE_1 : Fld := ⟨.mem, 0x040, 0x4, 24, 3, 2, .rw, 0⟩
/-- R193 -/
def MEM_SCOPE_2 : Fld := ⟨.mem, 0x040, 0x4, 24, 5, 4, .rw, 0⟩
/-- R193 -/
def MEM_SCOPE_3 : Fld := ⟨.mem, 0x040, 0x4, 24, 7, 6, .rw, 0⟩
/-- R193 -/
def MEM_SCOPE_4 : Fld := ⟨.mem, 0x040, 0x4, 24, 9, 8, .rw, 0⟩
/-- R193 -/
def MEM_SCOPE_5 : Fld := ⟨.mem, 0x040, 0x4, 24, 11, 10, .rw, 0⟩
/-- R193 -/
def MEM_SCOPE_6 : Fld := ⟨.mem, 0x040, 0x4, 24, 13, 12, .rw, 0⟩
/-- R193 -/
def MEM_SCOPE_7 : Fld := ⟨.mem, 0x040, 0x4, 24, 15, 14, .rw, 0⟩
/-- R193 -/
def MEM_SCOPE_8 : Fld := ⟨.mem, 0x040, 0x4, 24, 17, 16, .rw, 0⟩
/-- R193 -/
def MEM_SCOPE_9 : Fld := ⟨.mem, 0x040, 0x4, 24, 19, 18, .rw, 0⟩
/-- R193 -/
def MEM_SCOPE_10 : Fld := ⟨.mem, 0x040, 0x4, 24, 21, 20, .rw, 0⟩
/-- R193 -/
def MEM_SCOPE_11 : Fld := ⟨.mem, 0x040, 0x4, 24, 23, 22, .rw, 0⟩
/-- R193 -/
def MEM_SCOPE_12 : Fld := ⟨.mem, 0x040, 0x4, 24, 25, 24, .rw, 0⟩
/-- R193 -/
def MEM_SCOPE_13 : Fld := ⟨.mem, 0x040, 0x4, 24, 27, 26, .rw, 0⟩
/-- R193 -/
def MEM_SCOPE_14 : Fld := ⟨.mem, 0x040, 0x4, 24, 29, 28, .rw, 0⟩
/-- R193 -/
def MEM_SCOPE_15 : Fld := ⟨.mem, 0x040, 0x4, 24, 31, 30, .rw, 0⟩
/-- R194 -/
def MEM_CHST_STATE : Fld := ⟨.stack, 0x000, 0x4, 128, 1, 0, .ro, 0⟩
/-- R194 -/
def MEM_CHST_BUCKET : Fld := ⟨.stack, 0x000, 0x4, 128, 17, 2, .ro, 0⟩
/-- R194 -/
def MEM_CHST_RECOVERED : Fld := ⟨.stack, 0x000, 0x4, 128, 25, 18, .rc, 0⟩
/-- R194 -/
def MEM_CHST_LOST : Fld := ⟨.stack, 0x000, 0x4, 128, 29, 26, .rc, 0⟩
/-- R194 -/
def MEM_STKTEMP_T : Fld := ⟨.stack, 0x200, 0x0, 1, 7, 0, .ro, 0⟩
/-- R194 -/
def MEM_STKTEMP_REFRESH : Fld := ⟨.stack, 0x200, 0x0, 1, 9, 8, .ro, 0⟩
/-- R194 -/
def MEM_STKTEMP_LIMIT : Fld := ⟨.stack, 0x200, 0x0, 1, 11, 10, .ro, 0⟩
/-- R194 -/
def MEM_MARGIN_CTL_CHAN : Fld := ⟨.stack, 0x204, 0x0, 1, 6, 0, .rw, 0⟩
/-- R194 -/
def MEM_MARGIN_CTL_KIND : Fld := ⟨.stack, 0x204, 0x0, 1, 9, 7, .rw, 0⟩
/-- R194 -/
def MEM_MARGIN_CTL_OFFSET : Fld := ⟨.stack, 0x204, 0x0, 1, 17, 10, .rw, 0⟩
/-- R194 -/
def MEM_MARGIN_CTL_COUNT : Fld := ⟨.stack, 0x204, 0x0, 1, 27, 18, .rw, 0⟩
/-- R194 -/
def MEM_MARGIN_CTL_START : Fld := ⟨.stack, 0x204, 0x0, 1, 31, 31, .w1s, 0⟩
/-- R194 -/
def MEM_MARGIN_STAT_BUSY : Fld := ⟨.stack, 0x208, 0x0, 1, 0, 0, .ro, 0⟩
/-- R194 -/
def MEM_MARGIN_STAT_DONE : Fld := ⟨.stack, 0x208, 0x0, 1, 1, 1, .rc, 0⟩
/-- R194 -/
def MEM_MARGIN_STAT_REFUSED : Fld := ⟨.stack, 0x208, 0x0, 1, 2, 2, .rc, 0⟩
/-- R194 -/
def MEM_MARGIN_STAT_REASON : Fld := ⟨.stack, 0x208, 0x0, 1, 5, 3, .rc, 0⟩
/-- R194 -/
def MEM_MARGIN_RES_ERRS : Fld := ⟨.stack, 0x20C, 0x0, 1, 23, 0, .rc, 0⟩
/-- R194 -/
def MEM_MARGIN_RES_WORST : Fld := ⟨.stack, 0x20C, 0x0, 1, 26, 24, .rc, 0⟩
/-- R242 -/
def COH_CONF_HITCH : Fld := ⟨.coh, 0x000, 0x0, 1, 7, 0, .rw, 8⟩
/-- R242 -/
def COH_CONF_BACKOFF : Fld := ⟨.coh, 0x000, 0x0, 1, 11, 8, .rw, 10⟩
/-- R242 -/
def COH_CONF_STARVE_N : Fld := ⟨.coh, 0x000, 0x0, 1, 15, 12, .rw, 8⟩
/-- R242 -/
def COH_CONF_REMOTE : Fld := ⟨.coh, 0x000, 0x0, 1, 18, 16, .rw, 2⟩
/-- R242 -/
def COH_CONF_COMBINE : Fld := ⟨.coh, 0x000, 0x0, 1, 19, 19, .rw, 1⟩
/-- R242 -/
def COH_TMO_SNOOP : Fld := ⟨.coh, 0x004, 0x0, 1, 7, 0, .rw, 20⟩
/-- R242 -/
def COH_TMO_MEM : Fld := ⟨.coh, 0x004, 0x0, 1, 15, 8, .rw, 16⟩
/-- R242 -/
def COH_WAYMASK_MASK : Fld := ⟨.coh, 0x010, 0x4, 9, 15, 0, .rw, 0⟩
/-- R242 -/
def COH_EVENT_SNOOP_TMO : Fld := ⟨.coh, 0x040, 0x0, 1, 0, 0, .rc, 0⟩
/-- R242 -/
def COH_EVENT_MEM_TMO : Fld := ⟨.coh, 0x040, 0x0, 1, 1, 1, .rc, 0⟩
/-- R242 -/
def COH_EVENT_SLICE_FIXED : Fld := ⟨.coh, 0x040, 0x0, 1, 2, 2, .rc, 0⟩
/-- R242 -/
def COH_EVENT_SLICE_POISON : Fld := ⟨.coh, 0x040, 0x0, 1, 3, 3, .rc, 0⟩
/-- R242 -/
def COH_EVENT_MASK_REFUSED : Fld := ⟨.coh, 0x040, 0x0, 1, 4, 4, .rc, 0⟩
/-- R242 -/
def COH_EVENT_REMOTE_REFUSED : Fld := ⟨.coh, 0x040, 0x0, 1, 5, 5, .rc, 0⟩
/-- R242 -/
def COH_EVENT_STARVE_FULL : Fld := ⟨.coh, 0x040, 0x0, 1, 6, 6, .rc, 0⟩
/-- R242 -/
def COH_EVENT_SPLICE_DROP : Fld := ⟨.coh, 0x040, 0x0, 1, 7, 7, .rc, 0⟩
/-- R242 -/
def COH_EVLOC0_SLICE : Fld := ⟨.coh, 0x044, 0x0, 1, 4, 0, .rc, 0⟩
/-- R242 -/
def COH_EVLOC0_AGENT : Fld := ⟨.coh, 0x044, 0x0, 1, 8, 5, .rc, 0⟩
/-- R242 -/
def COH_EVLOC0_CAUSE : Fld := ⟨.coh, 0x044, 0x0, 1, 12, 9, .rc, 0⟩
/-- R242 -/
def COH_EVLOC0_ADDR_HI : Fld := ⟨.coh, 0x044, 0x0, 1, 18, 13, .rc, 0⟩
/-- R242 -/
def COH_EVLOC0_OVERRUN : Fld := ⟨.coh, 0x044, 0x0, 1, 31, 31, .rc, 0⟩
/-- R242 -/
def COH_EVLOC1_ADDR_LO : Fld := ⟨.coh, 0x048, 0x0, 1, 31, 0, .ro, 0⟩
/-- R243 -/
def COH_FLUSH_FIRST : Fld := ⟨.coh, 0x050, 0x0, 1, 11, 0, .rw, 0⟩
/-- R243 -/
def COH_FLUSH_COUNT : Fld := ⟨.coh, 0x050, 0x0, 1, 23, 12, .rw, 0⟩
/-- R243 -/
def COH_FLUSH_MASKSEL : Fld := ⟨.coh, 0x050, 0x0, 1, 27, 24, .rw, 0⟩
/-- R243 -/
def COH_FLUSH_MODE : Fld := ⟨.coh, 0x050, 0x0, 1, 28, 28, .rw, 0⟩
/-- R243 -/
def COH_FLUSH_START : Fld := ⟨.coh, 0x050, 0x0, 1, 31, 31, .w1s, 0⟩
/-- R243 -/
def COH_FLUSH_STAT_BUSY : Fld := ⟨.coh, 0x054, 0x0, 1, 0, 0, .ro, 0⟩
/-- R243 -/
def COH_FLUSH_STAT_DONE : Fld := ⟨.coh, 0x054, 0x0, 1, 1, 1, .rc, 0⟩
/-- R243 -/
def COH_FLUSH_STAT_REFUSED : Fld := ⟨.coh, 0x054, 0x0, 1, 2, 2, .rc, 0⟩
/-- R319 -/
def SITE_STAT_STATE : Fld := ⟨.site, 0x000, 0x0, 1, 2, 0, .ro, 0⟩
/-- R319 -/
def SITE_STAT_REASON : Fld := ⟨.site, 0x000, 0x0, 1, 6, 3, .ro, 0⟩
/-- R319 -/
def SITE_STAT_DEGRADED : Fld := ⟨.site, 0x000, 0x0, 1, 7, 7, .ro, 0⟩
/-- R319 -/
def SITE_STAT_LIVE : Fld := ⟨.site, 0x000, 0x0, 1, 23, 8, .ro, 0⟩
/-- R319 -/
def SITE_STAT_PART : Fld := ⟨.site, 0x000, 0x0, 1, 26, 24, .ro, 0⟩
/-- R319 -/
def SITE_STAT_CACHING : Fld := ⟨.site, 0x000, 0x0, 1, 27, 27, .ro, 0⟩
/-- R319 -/
def SITE_STAT_MINOR : Fld := ⟨.site, 0x000, 0x0, 1, 31, 28, .ro, 0⟩
/-- R319 -/
def SITE_IDENT_IDENTITY : Fld := ⟨.site, 0x004, 0x0, 1, 31, 0, .ro, 0⟩
/-- R319 -/
def SITE_TERMS_TAGS : Fld := ⟨.site, 0x008, 0x0, 1, 12, 0, .ro, 0⟩
/-- R319 -/
def SITE_TERMS_SLOTS : Fld := ⟨.site, 0x008, 0x0, 1, 17, 13, .ro, 0⟩
/-- R319 -/
def SITE_TERMS_LIMIT_W : Fld := ⟨.site, 0x008, 0x0, 1, 29, 18, .ro, 0⟩
/-- R319 -/
def SITE_TERMS_FACE : Fld := ⟨.site, 0x008, 0x0, 1, 30, 30, .ro, 0⟩
/-- R319 -/
def SITE_RATE_GTS : Fld := ⟨.site, 0x00C, 0x0, 1, 5, 0, .ro, 0⟩
/-- R319 -/
def SITE_RATE_MODULES : Fld := ⟨.site, 0x00C, 0x0, 1, 11, 8, .ro, 0⟩
/-- R319 -/
def SITE_CTL_RESET : Fld := ⟨.site, 0x010, 0x0, 1, 0, 0, .w1s, 0⟩
/-- R319 -/
def SITE_CTL_REMEASURE : Fld := ⟨.site, 0x010, 0x0, 1, 1, 1, .w1s, 0⟩
/-- R319 -/
def SITE_CTXMAP_CTX_A : Fld := ⟨.site, 0x020, 0x4, 8, 11, 0, .ro, 0⟩
/-- R319 -/
def SITE_CTXMAP_VALID_A : Fld := ⟨.site, 0x020, 0x4, 8, 12, 12, .ro, 0⟩
/-- R319 -/
def SITE_CTXMAP_CTX_B : Fld := ⟨.site, 0x020, 0x4, 8, 27, 16, .ro, 0⟩
/-- R319 -/
def SITE_CTXMAP_VALID_B : Fld := ⟨.site, 0x020, 0x4, 8, 28, 28, .ro, 0⟩
/-- R319 -/
def SITE_SVC_ALLOWED : Fld := ⟨.site, 0x040, 0x0, 1, 7, 0, .ro, 0⟩
/-- R319 -/
def SITE_SVC_DEFAULT : Fld := ⟨.site, 0x040, 0x0, 1, 10, 8, .ro, 0⟩
/-- R319 -/
def SITE_PWR_BASE_W : Fld := ⟨.site, 0x044, 0x0, 1, 11, 0, .rw, 0⟩
/-- R319 -/
def SITE_PWR_DRAW_W : Fld := ⟨.site, 0x044, 0x0, 1, 23, 12, .ro, 0⟩
/-- R319 -/
def SITE_EVENT_REPLAY : Fld := ⟨.site, 0x048, 0x0, 1, 0, 0, .rc, 0⟩
/-- R319 -/
def SITE_EVENT_RETRAIN : Fld := ⟨.site, 0x048, 0x0, 1, 1, 1, .rc, 0⟩
/-- R319 -/
def SITE_EVENT_AP_DOWN : Fld := ⟨.site, 0x048, 0x0, 1, 2, 2, .rc, 0⟩
/-- R319 -/
def SITE_EVENT_BAD_SLOT : Fld := ⟨.site, 0x048, 0x0, 1, 3, 3, .rc, 0⟩
/-- R319 -/
def SITE_EVENT_DUP_TAG : Fld := ⟨.site, 0x048, 0x0, 1, 4, 4, .rc, 0⟩
/-- R319 -/
def SITE_EVENT_SVC_REMAP : Fld := ⟨.site, 0x048, 0x0, 1, 5, 5, .rc, 0⟩
/-- R319 -/
def SITE_EVENT_POWER_WARN : Fld := ⟨.site, 0x048, 0x0, 1, 6, 6, .rc, 0⟩
/-- R319 -/
def SITE_EVENT_SEVERED : Fld := ⟨.site, 0x048, 0x0, 1, 7, 7, .rc, 0⟩
/-- R319 -/
def SITE_EVENT_POISONED_LINES : Fld := ⟨.site, 0x048, 0x0, 1, 8, 8, .rc, 0⟩
/-- R319 -/
def SITE_EVENT_CTL_REFUSED : Fld := ⟨.site, 0x048, 0x0, 1, 9, 9, .rc, 0⟩
/-- R319 -/
def SITE_EVENT_REMEASURED : Fld := ⟨.site, 0x048, 0x0, 1, 10, 10, .rc, 0⟩
/-- R319 -/
def SITE_EVENT_BAD_TAG : Fld := ⟨.site, 0x048, 0x0, 1, 11, 11, .rc, 0⟩
/-- R319 -/
def SITE_APERR_REPLAYS : Fld := ⟨.site, 0x080, 0x4, 16, 15, 0, .rc, 0⟩
/-- R319 -/
def SITE_APERR_RETRAINS : Fld := ⟨.site, 0x080, 0x4, 16, 18, 16, .ro, 0⟩
/-- R319 -/
def SITE_APERR_DOWN : Fld := ⟨.site, 0x080, 0x4, 16, 19, 19, .ro, 0⟩
/-- R319 -/
def SITE_DIGEST_BYTES : Fld := ⟨.site, 0x100, 0x4, 16, 31, 0, .ro, 0⟩
/-- R362 -/
def LNK_CONF_MINW : Fld := ⟨.lnk, 0x000, 0x0, 1, 2, 0, .rw, 1⟩
/-- R362 -/
def LNK_CONF_AUTO : Fld := ⟨.lnk, 0x000, 0x0, 1, 3, 3, .rw, 1⟩
/-- R362 -/
def LNK_CONF_RELAY : Fld := ⟨.lnk, 0x000, 0x0, 1, 4, 4, .rw, 1⟩
/-- R362 -/
def LNK_CONF_PUT_TMO : Fld := ⟨.lnk, 0x000, 0x0, 1, 12, 5, .rw, 10⟩
/-- R362 -/
def LNK_CONF_COLL_IDLE : Fld := ⟨.lnk, 0x000, 0x0, 1, 19, 13, .rw, 10⟩
/-- R362 -/
def LNK_DOM0_IDENT : Fld := ⟨.lnk, 0x004, 0x0, 1, 31, 0, .rw, 0⟩
/-- R362 -/
def LNK_DOM1_IDENT : Fld := ⟨.lnk, 0x008, 0x0, 1, 31, 0, .rw, 0⟩
/-- R362 -/
def LNK_DOM2_SELF : Fld := ⟨.lnk, 0x00C, 0x0, 1, 4, 0, .rw, 0⟩
/-- R362 -/
def LNK_DOM2_SIZE : Fld := ⟨.lnk, 0x00C, 0x0, 1, 9, 5, .rw, 0⟩
/-- R362 -/
def LNK_DOM2_FORMED : Fld := ⟨.lnk, 0x00C, 0x0, 1, 10, 10, .ro, 0⟩
/-- R362 -/
def LNK_DOM2_START : Fld := ⟨.lnk, 0x00C, 0x0, 1, 11, 11, .w1s, 0⟩
/-- R362 -/
def LNK_DOM2_STOP : Fld := ⟨.lnk, 0x00C, 0x0, 1, 12, 12, .w1s, 0⟩
/-- R362 -/
def LNK_EVENT_RETIRED : Fld := ⟨.lnk, 0x010, 0x0, 1, 0, 0, .rc, 0⟩
/-- R362 -/
def LNK_EVENT_NARROWED : Fld := ⟨.lnk, 0x010, 0x0, 1, 1, 1, .rc, 0⟩
/-- R362 -/
def LNK_EVENT_RECOVERED : Fld := ⟨.lnk, 0x010, 0x0, 1, 2, 2, .rc, 0⟩
/-- R362 -/
def LNK_EVENT_DOWN : Fld := ⟨.lnk, 0x010, 0x0, 1, 3, 3, .rc, 0⟩
/-- R362 -/
def LNK_EVENT_TAG_FAIL : Fld := ⟨.lnk, 0x010, 0x0, 1, 4, 4, .rc, 0⟩
/-- R362 -/
def LNK_EVENT_REFUSED_LINK : Fld := ⟨.lnk, 0x010, 0x0, 1, 5, 5, .rc, 0⟩
/-- R362 -/
def LNK_EVENT_RX_POISON : Fld := ⟨.lnk, 0x010, 0x0, 1, 6, 6, .rc, 0⟩
/-- R362 -/
def LNK_EVENT_PUT_REFUSED : Fld := ⟨.lnk, 0x010, 0x0, 1, 7, 7, .rc, 0⟩
/-- R362 -/
def LNK_EVENT_UNREACH : Fld := ⟨.lnk, 0x010, 0x0, 1, 8, 8, .rc, 0⟩
/-- R362 -/
def LNK_EVENT_FORMED_LOST : Fld := ⟨.lnk, 0x010, 0x0, 1, 9, 9, .rc, 0⟩
/-- R362 -/
def LNK_EVENT_LATE_REPLY : Fld := ⟨.lnk, 0x010, 0x0, 1, 10, 10, .rc, 0⟩
/-- R362 -/
def LNK_REFUSE_REASON : Fld := ⟨.lnk, 0x014, 0x0, 1, 3, 0, .rc, 0⟩
/-- R362 -/
def LNK_REFUSE_DEV : Fld := ⟨.lnk, 0x014, 0x0, 1, 8, 4, .rc, 0⟩
/-- R362 -/
def LNK_REFUSE_HANDLE : Fld := ⟨.lnk, 0x014, 0x0, 1, 24, 9, .rc, 0⟩
/-- R362 -/
def LNK_REFUSE_DIR : Fld := ⟨.lnk, 0x014, 0x0, 1, 25, 25, .rc, 0⟩
/-- R362 -/
def LNK_REFUSE_OVERRUN : Fld := ⟨.lnk, 0x014, 0x0, 1, 31, 31, .rc, 0⟩
/-- R362 -/
def LNK_ROUTE_LINKS : Fld := ⟨.lnk, 0x040, 0x4, 25, 23, 0, .ro, 0⟩
/-- R362 -/
def LNK_ROUTE_VIA : Fld := ⟨.lnk, 0x040, 0x4, 25, 28, 24, .ro, 0⟩
/-- R362 -/
def LNK_ROUTE_RELAYED : Fld := ⟨.lnk, 0x040, 0x4, 25, 29, 29, .ro, 0⟩
/-- R362 -/
def LNK_ROUTE_UNREACH : Fld := ⟨.lnk, 0x040, 0x4, 25, 30, 30, .ro, 0⟩
/-- R362 -/
def LNK_LSTAT_STATE : Fld := ⟨.lnk, 0x100, 0x10, 24, 2, 0, .ro, 0⟩
/-- R362 -/
def LNK_LSTAT_REASON : Fld := ⟨.lnk, 0x100, 0x10, 24, 6, 3, .ro, 0⟩
/-- R362 -/
def LNK_LSTAT_LANES : Fld := ⟨.lnk, 0x100, 0x10, 24, 10, 7, .ro, 0⟩
/-- R362 -/
def LNK_LSTAT_WIDTH : Fld := ⟨.lnk, 0x100, 0x10, 24, 13, 11, .ro, 0⟩
/-- R362 -/
def LNK_LSTAT_PEER : Fld := ⟨.lnk, 0x100, 0x10, 24, 18, 14, .ro, 31⟩
/-- R362 -/
def LNK_LSTAT_EPOCH : Fld := ⟨.lnk, 0x100, 0x10, 24, 31, 19, .ro, 0⟩
/-- R362 -/
def LNK_LERR_REPLAYS : Fld := ⟨.lnk, 0x104, 0x10, 24, 15, 0, .rc, 0⟩
/-- R362 -/
def LNK_LERR_RECOVERIES : Fld := ⟨.lnk, 0x104, 0x10, 24, 19, 16, .ro, 0⟩
/-- R362 -/
def LNK_LERR_TAGFAIL : Fld := ⟨.lnk, 0x104, 0x10, 24, 23, 20, .ro, 0⟩
/-- R362 -/
def LNK_LERR_UNCORR : Fld := ⟨.lnk, 0x104, 0x10, 24, 31, 24, .rc, 0⟩
/-- R362 -/
def LNK_LCONF_EXPECT : Fld := ⟨.lnk, 0x108, 0x10, 24, 4, 0, .rw, 31⟩
/-- R362 -/
def LNK_LCTL_RETRAIN : Fld := ⟨.lnk, 0x10C, 0x10, 24, 0, 0, .w1s, 0⟩
/-- R362 -/
def LNK_LCTL_RETIRE : Fld := ⟨.lnk, 0x10C, 0x10, 24, 1, 1, .w1s, 0⟩
/-- R397 -/
def CMD_ROOM_FREE : Fld := ⟨.cmdWin, 0x000, 0x4, 4, 15, 0, .ro, 0⟩
/-- R397 -/
def CMD_ROOM_XSEQ : Fld := ⟨.cmdWin, 0x000, 0x4, 4, 31, 16, .ro, 0⟩
/-- R397 -/
def CMD_LANE_STATE : Fld := ⟨.cmdWin, 0x010, 0x4, 4, 1, 0, .ro, 0⟩
/-- R397 -/
def CMD_LANE_CAUSE : Fld := ⟨.cmdWin, 0x010, 0x4, 4, 3, 2, .ro, 0⟩
/-- R397 -/
def CMD_LANE_RUNNING : Fld := ⟨.cmdWin, 0x010, 0x4, 4, 11, 4, .ro, 0⟩
/-- R397 -/
def CMD_LANE_HEAD : Fld := ⟨.cmdWin, 0x010, 0x4, 4, 25, 12, .ro, 0⟩
/-- R397 -/
def CMD_WCTL_FLUSH : Fld := ⟨.cmdWin, 0x020, 0x0, 1, 3, 0, .w1s, 0⟩
/-- R397 -/
def CMD_WCTL_ABORT : Fld := ⟨.cmdWin, 0x020, 0x0, 1, 4, 4, .rw, 0⟩
/-- R397 -/
def CMD_WCTL_LRESET : Fld := ⟨.cmdWin, 0x020, 0x0, 1, 11, 8, .w1s, 0⟩
/-- R397 -/
def CMD_WCTL_RSEQ : Fld := ⟨.cmdWin, 0x020, 0x0, 1, 31, 16, .rw, 0⟩
/-- R397 -/
def CMD_WEVENT_OVERFLOW : Fld := ⟨.cmdWin, 0x024, 0x0, 1, 0, 0, .rc, 0⟩
/-- R397 -/
def CMD_WEVENT_BAD_LEN : Fld := ⟨.cmdWin, 0x024, 0x0, 1, 1, 1, .rc, 0⟩
/-- R397 -/
def CMD_WEVENT_SEAL_MISMATCH : Fld := ⟨.cmdWin, 0x024, 0x0, 1, 2, 2, .rc, 0⟩
/-- R397 -/
def CMD_WEVENT_REPLY_LOST : Fld := ⟨.cmdWin, 0x024, 0x0, 1, 3, 3, .rc, 0⟩
/-- R397 -/
def CMD_WEVENT_FLUSH_DONE : Fld := ⟨.cmdWin, 0x024, 0x0, 1, 4, 4, .rc, 0⟩
/-- R398 -/
def CMD_CONF_OVF_US : Fld := ⟨.cmdDev, 0x000, 0x0, 1, 9, 0, .rw, 100⟩
/-- R398 -/
def CMD_EVENT_OVF_GUARD : Fld := ⟨.cmdDev, 0x004, 0x0, 1, 0, 0, .rc, 0⟩
/-- R398 -/
def CMD_EVENT_FUNC : Fld := ⟨.cmdDev, 0x004, 0x0, 1, 3, 1, .rc, 0⟩
/-- R398 -/
def CMD_EVENT_PORT : Fld := ⟨.cmdDev, 0x004, 0x0, 1, 4, 4, .rc, 0⟩
/-- R398 -/
def CMD_EVENT_CONTROL : Fld := ⟨.cmdDev, 0x004, 0x0, 1, 5, 5, .rc, 0⟩
/-- R398 -/
def CMD_XFLUSH_FUNC : Fld := ⟨.cmdDev, 0x008, 0x0, 1, 2, 0, .rw, 0⟩
/-- R398 -/
def CMD_XFLUSH_LANES : Fld := ⟨.cmdDev, 0x008, 0x0, 1, 6, 3, .rw, 0⟩
/-- R398 -/
def CMD_XFLUSH_ABORT : Fld := ⟨.cmdDev, 0x008, 0x0, 1, 7, 7, .rw, 0⟩
/-- R398 -/
def CMD_XFLUSH_PORT : Fld := ⟨.cmdDev, 0x008, 0x0, 1, 8, 8, .rw, 0⟩
/-- R398 -/
def CMD_XFLUSH_START : Fld := ⟨.cmdDev, 0x008, 0x0, 1, 31, 31, .w1s, 0⟩
/-- R422 -/
def XLT_FSTAT_PENDING : Fld := ⟨.xltWin, 0x000, 0x0, 1, 31, 0, .ro, 0⟩
/-- R422 -/
def XLT_FEVENT_NEW : Fld := ⟨.xltWin, 0x004, 0x0, 1, 0, 0, .rc, 0⟩
/-- R422 -/
def XLT_FEVENT_FULL : Fld := ⟨.xltWin, 0x004, 0x0, 1, 1, 1, .rc, 0⟩
/-- R422 -/
def XLT_FEVENT_APERTURE : Fld := ⟨.xltWin, 0x004, 0x0, 1, 2, 2, .rc, 0⟩
/-- R422 -/
def XLT_RETRY_REC : Fld := ⟨.xltWin, 0x008, 0x0, 1, 31, 0, .w1s, 0⟩
/-- R422 -/
def XLT_CANCEL_REC : Fld := ⟨.xltWin, 0x00C, 0x0, 1, 31, 0, .w1s, 0⟩
/-- R422 -/
def XLT_AP_LO_EN : Fld := ⟨.xltWin, 0x040, 0x8, 4, 0, 0, .rw, 0⟩
/-- R422 -/
def XLT_AP_LO_APBASE_LO : Fld := ⟨.xltWin, 0x040, 0x8, 4, 31, 16, .rw, 0⟩
/-- R422 -/
def XLT_AP_HI_APBASE_HI : Fld := ⟨.xltWin, 0x044, 0x8, 4, 19, 0, .rw, 0⟩
/-- R422 -/
def XLT_AP_HI_CTX : Fld := ⟨.xltWin, 0x044, 0x8, 4, 31, 20, .rw, 0⟩
/-- R422 -/
def XLT_FREC_VALID : Fld := ⟨.xltWin, 0x100, 0x10, 32, 0, 0, .ro, 0⟩
/-- R422 -/
def XLT_FREC_KIND : Fld := ⟨.xltWin, 0x100, 0x10, 32, 3, 1, .ro, 0⟩
/-- R422 -/
def XLT_FREC_INDEX : Fld := ⟨.xltWin, 0x100, 0x10, 32, 14, 4, .ro, 0⟩
/-- R422 -/
def XLT_FREC_CTX : Fld := ⟨.xltWin, 0x100, 0x10, 32, 26, 15, .ro, 0⟩
/-- R422 -/
def XLT_FREC_DVA_LO : Fld := ⟨.xltWin, 0x104, 0x10, 32, 31, 0, .ro, 0⟩
/-- R422 -/
def XLT_FREC_DVA_HI : Fld := ⟨.xltWin, 0x108, 0x10, 32, 19, 0, .ro, 0⟩
/-- R422 -/
def XLT_FREC_HOLDERS : Fld := ⟨.xltWin, 0x10C, 0x10, 32, 9, 0, .ro, 0⟩
/-- R422 -/
def XLT_FREC_AGENT : Fld := ⟨.xltWin, 0x10C, 0x10, 32, 13, 10, .ro, 0⟩
/-- R422 -/
def XLT_FREC_NUM : Fld := ⟨.xltWin, 0x10C, 0x10, 32, 20, 14, .ro, 0⟩
/-- R422 -/
def XLT_FREC_JOINED : Fld := ⟨.xltWin, 0x10C, 0x10, 32, 21, 21, .ro, 0⟩
/-- R423 -/
def XLT_DENY0_GRANULE : Fld := ⟨.xltDev, 0x000, 0x0, 1, 11, 0, .rc, 0⟩
/-- R423 -/
def XLT_DENY0_PART : Fld := ⟨.xltDev, 0x000, 0x0, 1, 14, 12, .rc, 0⟩
/-- R423 -/
def XLT_DENY0_AGENT : Fld := ⟨.xltDev, 0x000, 0x0, 1, 18, 15, .rc, 0⟩
/-- R423 -/
def XLT_DENY0_CAUSE : Fld := ⟨.xltDev, 0x000, 0x0, 1, 21, 19, .rc, 0⟩
/-- R423 -/
def XLT_DENY0_OVERRUN : Fld := ⟨.xltDev, 0x000, 0x0, 1, 31, 31, .rc, 0⟩
/-- R423 -/
def XLT_DENY1_CTX : Fld := ⟨.xltDev, 0x004, 0x0, 1, 11, 0, .ro, 0⟩
/-- R448 -/
def HUB_SVCEVENT_REMAP : Fld := ⟨.hub, 0x130, 0x0, 1, 0, 0, .rc, 0⟩
/-- R448 -/
def HUB_SVCEVENT_PART : Fld := ⟨.hub, 0x130, 0x0, 1, 3, 1, .rc, 0⟩
/-- R448 -/
def HUB_SVCEVENT_MIN_REFUSED : Fld := ⟨.hub, 0x130, 0x0, 1, 4, 4, .rc, 0⟩
/-- R448 -/
def HUB_SVC_FLOOR_0 : Fld := ⟨.hub, 0x100, 0x0, 1, 7, 0, .rw, 56⟩
/-- R448 -/
def HUB_SVC_FLOOR_1 : Fld := ⟨.hub, 0x104, 0x0, 1, 7, 0, .rw, 48⟩
/-- R448 -/
def HUB_SVC_FLOOR_2 : Fld := ⟨.hub, 0x108, 0x0, 1, 7, 0, .rw, 40⟩
/-- R448 -/
def HUB_SVC_FLOOR_3 : Fld := ⟨.hub, 0x10C, 0x0, 1, 7, 0, .rw, 32⟩
/-- R448 -/
def HUB_SVC_FLOOR_4 : Fld := ⟨.hub, 0x110, 0x0, 1, 7, 0, .rw, 24⟩
/-- R448 -/
def HUB_SVC_FLOOR_5 : Fld := ⟨.hub, 0x114, 0x0, 1, 7, 0, .rw, 16⟩
/-- R448 -/
def HUB_SVC_FLOOR_6 : Fld := ⟨.hub, 0x118, 0x0, 1, 7, 0, .rw, 8⟩
/-- R448 -/
def HUB_SVC_FLOOR_7 : Fld := ⟨.hub, 0x11C, 0x0, 1, 7, 0, .rw, 0⟩
/-- R448 -/
def HUB_SVC_CAP : Fld := ⟨.hub, 0x100, 0x4, 8, 15, 8, .rw, 128⟩
/-- R448 -/
def HUB_TAGMIN0_TILE : Fld := ⟨.hub, 0x120, 0x0, 1, 9, 0, .rw, 128⟩
/-- R448 -/
def HUB_TAGMIN0_SITE : Fld := ⟨.hub, 0x120, 0x0, 1, 22, 10, .rw, 1024⟩
/-- R448 -/
def HUB_TAGMIN1_HOST : Fld := ⟨.hub, 0x124, 0x0, 1, 11, 0, .rw, 512⟩
/-- R448 -/
def HUB_TAGMIN1_PSEQ : Fld := ⟨.hub, 0x124, 0x0, 1, 22, 12, .rw, 256⟩
/-- R448 -/
def HUB_TAGMIN2_LANYARD : Fld := ⟨.hub, 0x128, 0x0, 1, 9, 0, .rw, 128⟩
/-- R448 -/
def HUB_TAGMIN2_MGMT : Fld := ⟨.hub, 0x128, 0x0, 1, 18, 10, .rw, 64⟩
/-- R448 -/
def HUB_SVCPART_ALLOWED : Fld := ⟨.hub, 0x140, 0x4, 8, 7, 0, .rw, 1⟩
/-- R448 -/
def HUB_SVCPART_DEFAULT : Fld := ⟨.hub, 0x140, 0x4, 8, 10, 8, .rw, 0⟩
/-- R448 -/
def HUB_SVCPART_APERTURE : Fld := ⟨.hub, 0x140, 0x4, 8, 13, 11, .rw, 0⟩
/-- R448 -/
def HUB_SVCBW_W_LO : Fld := ⟨.hub, 0x180, 0x8, 8, 31, 0, .ro, 0⟩
/-- R448 -/
def HUB_SVCBW_W_HI : Fld := ⟨.hub, 0x184, 0x8, 8, 31, 0, .ro, 0⟩
/-- R448 -/
def HUB_SVCBW_E_LO : Fld := ⟨.hub, 0x1C0, 0x8, 8, 31, 0, .ro, 0⟩
/-- R448 -/
def HUB_SVCBW_E_HI : Fld := ⟨.hub, 0x1C4, 0x8, 8, 31, 0, .ro, 0⟩
/-- R449 -/
def PWR_LIMIT_PKG_W : Fld := ⟨.pwr, 0x000, 0x0, 1, 11, 0, .rw, 900⟩
/-- R449 -/
def PWR_LIMIT_FIXED_W : Fld := ⟨.pwr, 0x000, 0x0, 1, 23, 12, .ro, 670⟩
/-- R449 -/
def PWR_CONF_VTARGET : Fld := ⟨.pwr, 0x004, 0x0, 1, 2, 0, .rw, 2⟩
/-- R449 -/
def PWR_CONF_QWAIT_MS : Fld := ⟨.pwr, 0x004, 0x0, 1, 10, 3, .rw, 50⟩
/-- R449 -/
def PWR_CONF_MAXDUR_MS : Fld := ⟨.pwr, 0x004, 0x0, 1, 20, 11, .rw, 100⟩
/-- R449 -/
def PWR_PBASE_BASE_W : Fld := ⟨.pwr, 0x010, 0x4, 8, 11, 0, .rw, 0⟩
/-- R449 -/
def PWR_PBASE_LEAVE_MAX : Fld := ⟨.pwr, 0x010, 0x4, 8, 23, 12, .rw, 0⟩
/-- R449 -/
def PWR_POOL_FREE_W : Fld := ⟨.pwr, 0x030, 0x0, 1, 11, 0, .ro, 230⟩
/-- R449 -/
def PWR_POOL_GRANTED_W : Fld := ⟨.pwr, 0x030, 0x0, 1, 23, 12, .ro, 0⟩
/-- R449 -/
def PWR_POOL_QUEUED : Fld := ⟨.pwr, 0x030, 0x0, 1, 29, 24, .ro, 0⟩
/-- R449 -/
def PWR_DRAW_PKG_W : Fld := ⟨.pwr, 0x034, 0x0, 1, 11, 0, .ro, 0⟩
/-- R449 -/
def PWR_DRAW_VWEST : Fld := ⟨.pwr, 0x034, 0x0, 1, 14, 12, .ro, 2⟩
/-- R449 -/
def PWR_DRAW_VEAST : Fld := ⟨.pwr, 0x034, 0x0, 1, 17, 15, .ro, 2⟩
/-- R449 -/
def PWR_QUAD_LIMIT_W : Fld := ⟨.pwr, 0x040, 0x4, 8, 8, 0, .rw, 220⟩
/-- R449 -/
def PWR_QUAD_GATE : Fld := ⟨.pwr, 0x040, 0x4, 8, 13, 9, .ro, 16⟩
/-- R449 -/
def PWR_QUAD_CAUSE : Fld := ⟨.pwr, 0x040, 0x4, 8, 16, 14, .ro, 0⟩
/-- R449 -/
def PWR_EVENT_LIMIT_REFUSED : Fld := ⟨.pwr, 0x060, 0x0, 1, 0, 0, .rc, 0⟩
/-- R449 -/
def PWR_EVENT_BASE_REFUSED : Fld := ⟨.pwr, 0x060, 0x0, 1, 1, 1, .rc, 0⟩
/-- R449 -/
def PWR_EVENT_LEAVE_REFUSED : Fld := ⟨.pwr, 0x060, 0x0, 1, 2, 2, .rc, 0⟩
/-- R449 -/
def PWR_EVENT_QUEUE_FULL : Fld := ⟨.pwr, 0x060, 0x0, 1, 3, 3, .rc, 0⟩
/-- R449 -/
def PWR_EVENT_VDROP : Fld := ⟨.pwr, 0x060, 0x0, 1, 4, 4, .rc, 0⟩
/-- R449 -/
def PWR_EVENT_GATED : Fld := ⟨.pwr, 0x060, 0x0, 1, 5, 5, .rc, 0⟩
/-- R449 -/
def PWR_EVENT_QUAD_OVER : Fld := ⟨.pwr, 0x060, 0x0, 1, 6, 6, .rc, 0⟩
/-- R486 -/
def SEC_LC_STATE : Fld := ⟨.sec, 0x000, 0x0, 1, 1, 0, .ro, 0⟩
/-- R486 -/
def SEC_LC_BUSY : Fld := ⟨.sec, 0x000, 0x0, 1, 2, 2, .ro, 0⟩
/-- R486 -/
def SEC_LCTRANS_TARGET : Fld := ⟨.sec, 0x004, 0x0, 1, 1, 0, .wo, 0⟩
/-- R486 -/
def SEC_LCTRANS_CONFIRM : Fld := ⟨.sec, 0x004, 0x0, 1, 31, 16, .wo, 0⟩
/-- R486 -/
def SEC_ALARM_LEVEL : Fld := ⟨.sec, 0x008, 0x0, 1, 2, 0, .ro, 0⟩
/-- R486 -/
def SEC_ALARM_SOURCES : Fld := ⟨.sec, 0x008, 0x0, 1, 10, 3, .rc, 0⟩
/-- R486 -/
def SEC_ALARMCFG_TAMPER0 : Fld := ⟨.sec, 0x00C, 0x0, 1, 2, 0, .rw, 3⟩
/-- R486 -/
def SEC_ALARMCFG_TAMPER1 : Fld := ⟨.sec, 0x00C, 0x0, 1, 5, 3, .rw, 3⟩
/-- R486 -/
def SEC_EVENT_MIRROR_SERVED : Fld := ⟨.sec, 0x010, 0x0, 1, 0, 0, .rc, 0⟩
/-- R486 -/
def SEC_EVENT_MIRROR_LOST : Fld := ⟨.sec, 0x010, 0x0, 1, 1, 1, .rc, 0⟩
/-- R486 -/
def SEC_EVENT_LC_REFUSED : Fld := ⟨.sec, 0x010, 0x0, 1, 2, 2, .rc, 0⟩
/-- R486 -/
def SEC_EVENT_ANCHOR_SET : Fld := ⟨.sec, 0x010, 0x0, 1, 3, 3, .rc, 0⟩
/-- R486 -/
def SEC_EVENT_DBG_OPEN : Fld := ⟨.sec, 0x010, 0x0, 1, 4, 4, .rc, 0⟩
/-- R486 -/
def SEC_PART_EXISTS : Fld := ⟨.sec, 0x020, 0x4, 8, 0, 0, .ro, 0⟩
/-- R486 -/
def SEC_PART_WHIPPING : Fld := ⟨.sec, 0x020, 0x4, 8, 1, 1, .ro, 0⟩
/-- R486 -/
def SEC_PART_ZFILL : Fld := ⟨.sec, 0x020, 0x4, 8, 13, 2, .ro, 0⟩
/-- R486 -/
def SEC_PART_GEN : Fld := ⟨.sec, 0x020, 0x4, 8, 31, 14, .ro, 0⟩
/-- R486 -/
def SEC_WHIP_US : Fld := ⟨.sec, 0x040, 0x0, 1, 15, 0, .ro, 0⟩
/-- R486 -/
def SEC_WHIP_PART : Fld := ⟨.sec, 0x040, 0x0, 1, 18, 16, .ro, 0⟩
/-- R486 -/
def SEC_WHIP_DONE : Fld := ⟨.sec, 0x040, 0x0, 1, 19, 19, .ro, 0⟩
/-- R486 -/
def SEC_WHIP_SEVERED : Fld := ⟨.sec, 0x040, 0x0, 1, 20, 20, .ro, 0⟩
/-- R486 -/
def SEC_WHIP_KEYGONE : Fld := ⟨.sec, 0x040, 0x0, 1, 21, 21, .ro, 0⟩
/-- R486 -/
def SEC_WHIP_ALARM : Fld := ⟨.sec, 0x040, 0x0, 1, 22, 22, .ro, 0⟩
/-- R486 -/
def SEC_DBG_OPEN : Fld := ⟨.sec, 0x044, 0x0, 1, 2, 0, .ro, 0⟩
/-- R486 -/
def SEC_DBG_FAILS : Fld := ⟨.sec, 0x044, 0x0, 1, 4, 3, .ro, 0⟩
/-- R486 -/
def SEC_DBG_NONCE_NONCE : Fld := ⟨.sec, 0x050, 0x4, 8, 31, 0, .ro, 0⟩
/-- R486 -/
def SEC_KEYSLOT_LOADED : Fld := ⟨.sec, 0x070, 0x0, 1, 31, 0, .ro, 0⟩
/-- R520 -/
def PCI_SENTINEL_MAGIC : Fld := ⟨.pci, 0x000, 0x0, 1, 15, 0, .ro, 50085⟩
/-- R520 -/
def PCI_SENTINEL_PORT : Fld := ⟨.pci, 0x000, 0x0, 1, 16, 16, .ro, 0⟩
/-- R520 -/
def PCI_SENTINEL_READY : Fld := ⟨.pci, 0x000, 0x0, 1, 17, 17, .ro, 0⟩
/-- R520 -/
def PCI_SENTINEL_FLR : Fld := ⟨.pci, 0x000, 0x0, 1, 18, 18, .ro, 0⟩
/-- R520 -/
def PCI_CONF_NP_MS : Fld := ⟨.pci, 0x004, 0x0, 1, 5, 0, .rw, 10⟩
/-- R520 (0: LINKW, 1: LINKE) -/
def PCI_LINK_SPEED : Fld := ⟨.pci, 0x008, 0x4, 2, 2, 0, .ro, 0⟩
/-- R520 (0: LINKW, 1: LINKE) -/
def PCI_LINK_WIDTH : Fld := ⟨.pci, 0x008, 0x4, 2, 7, 3, .ro, 0⟩
/-- R520 (0: LINKW, 1: LINKE) -/
def PCI_LINK_FLIT : Fld := ⟨.pci, 0x008, 0x4, 2, 8, 8, .ro, 0⟩
/-- R520 (0: LINKW, 1: LINKE) -/
def PCI_LINK_SLOW : Fld := ⟨.pci, 0x008, 0x4, 2, 9, 9, .ro, 0⟩
/-- R520 (0: LINKW, 1: LINKE) -/
def PCI_LINK_D3 : Fld := ⟨.pci, 0x008, 0x4, 2, 10, 10, .ro, 0⟩
/-- R520 (0: LINKW, 1: LINKE) -/
def PCI_LINK_DOWNS : Fld := ⟨.pci, 0x008, 0x4, 2, 26, 11, .rc, 0⟩
/-- R520 -/
def PCI_FLRSTAT_VFW : Fld := ⟨.pci, 0x010, 0x0, 1, 7, 0, .ro, 0⟩
/-- R520 -/
def PCI_FLRSTAT_PFW : Fld := ⟨.pci, 0x010, 0x0, 1, 8, 8, .ro, 0⟩
/-- R520 -/
def PCI_FLRSTAT_VFE : Fld := ⟨.pci, 0x010, 0x0, 1, 16, 9, .ro, 0⟩
/-- R520 -/
def PCI_FLRSTAT_PFE : Fld := ⟨.pci, 0x010, 0x0, 1, 17, 17, .ro, 0⟩
/-- R520 -/
def PCI_EVENT_DOWN_W : Fld := ⟨.pci, 0x014, 0x0, 1, 0, 0, .rc, 0⟩
/-- R520 -/
def PCI_EVENT_DOWN_E : Fld := ⟨.pci, 0x014, 0x0, 1, 1, 1, .rc, 0⟩
/-- R520 -/
def PCI_EVENT_FLR_DONE : Fld := ⟨.pci, 0x014, 0x0, 1, 2, 2, .rc, 0⟩
/-- R520 -/
def PCI_EVENT_POISON_IN : Fld := ⟨.pci, 0x014, 0x0, 1, 3, 3, .rc, 0⟩
/-- R520 -/
def PCI_EVENT_POISON_OUT : Fld := ⟨.pci, 0x014, 0x0, 1, 4, 4, .rc, 0⟩
/-- R520 -/
def PCI_EVENT_NP_TMO : Fld := ⟨.pci, 0x014, 0x0, 1, 5, 5, .rc, 0⟩
/-- R520 -/
def PCI_EVENT_BUTTON : Fld := ⟨.pci, 0x014, 0x0, 1, 6, 6, .rc, 0⟩
/-- R520 -/
def PCI_EVENT_PWREN_REFUSED : Fld := ⟨.pci, 0x014, 0x0, 1, 7, 7, .rc, 0⟩
/-- R520 -/
def PCI_EVENT_VFEN_REFUSED : Fld := ⟨.pci, 0x014, 0x0, 1, 8, 8, .rc, 0⟩
/-- R520 -/
def PCI_MODULE_PWR_LED : Fld := ⟨.pci, 0x018, 0x0, 1, 1, 0, .rw, 3⟩
/-- R520 -/
def PCI_MODULE_ATTN_LED : Fld := ⟨.pci, 0x018, 0x0, 1, 3, 2, .rw, 3⟩
/-- R520 -/
def PCI_MODULE_PWREN : Fld := ⟨.pci, 0x018, 0x0, 1, 4, 4, .rw, 1⟩
/-- R520 -/
def PCI_MODULE_BUTTON : Fld := ⟨.pci, 0x018, 0x0, 1, 5, 5, .ro, 0⟩
/-- R520 -/
def PCI_MODULE_WAKE_EN : Fld := ⟨.pci, 0x018, 0x0, 1, 6, 6, .rw, 1⟩
/-- R553 -/
def MGT_BOOT_STAGE : Fld := ⟨.mgt, 0x000, 0x0, 1, 2, 0, .ro, 0⟩
/-- R553 -/
def MGT_BOOT_FULL : Fld := ⟨.mgt, 0x000, 0x0, 1, 3, 3, .ro, 0⟩
/-- R553 -/
def MGT_BOOT_STATUS : Fld := ⟨.mgt, 0x000, 0x0, 1, 11, 4, .ro, 0⟩
/-- R553 -/
def MGT_BOOT_SLOT : Fld := ⟨.mgt, 0x000, 0x0, 1, 12, 12, .ro, 0⟩
/-- R553 -/
def MGT_WARN_FW_FALLBACK : Fld := ⟨.mgt, 0x004, 0x0, 1, 0, 0, .ro, 0⟩
/-- R553 -/
def MGT_WARN_EAST_HELD : Fld := ⟨.mgt, 0x004, 0x0, 1, 1, 1, .ro, 0⟩
/-- R553 -/
def MGT_WARN_EAST_CAUSE : Fld := ⟨.mgt, 0x004, 0x0, 1, 4, 2, .ro, 0⟩
/-- R553 -/
def MGT_WARN_NO_DOMAIN : Fld := ⟨.mgt, 0x004, 0x0, 1, 5, 5, .ro, 0⟩
/-- R553 -/
def MGT_WARN_RECORD_REBUILT : Fld := ⟨.mgt, 0x004, 0x0, 1, 6, 6, .ro, 0⟩
/-- R553 -/
def MGT_WARN_RECORD_FULL : Fld := ⟨.mgt, 0x004, 0x0, 1, 7, 7, .rc, 0⟩
/-- R553 -/
def MGT_WARN_SOFT_REPAIR : Fld := ⟨.mgt, 0x004, 0x0, 1, 8, 8, .rc, 0⟩
/-- R553 -/
def MGT_WARN_GROUPS_WITHDRAWN : Fld := ⟨.mgt, 0x004, 0x0, 1, 9, 9, .rc, 0⟩
/-- R553 -/
def MGT_WARN_SLICE_UNCACHED : Fld := ⟨.mgt, 0x004, 0x0, 1, 10, 10, .rc, 0⟩
/-- R553 -/
def MGT_WARN_SITE_FAILED : Fld := ⟨.mgt, 0x004, 0x0, 1, 11, 11, .ro, 0⟩
/-- R553 -/
def MGT_WARN_LINKS_PARTIAL : Fld := ⟨.mgt, 0x004, 0x0, 1, 12, 12, .ro, 0⟩
/-- R553 -/
def MGT_STAGET_MS : Fld := ⟨.mgt, 0x010, 0x4, 5, 15, 0, .ro, 0⟩
/-- R553 -/
def MGT_WDOG_PERIOD_MS : Fld := ⟨.mgt, 0x024, 0x0, 1, 7, 0, .rw, 100⟩
/-- R553 -/
def MGT_WDOG_WRESTARTS : Fld := ⟨.mgt, 0x024, 0x0, 1, 15, 8, .ro, 0⟩
/-- R553 -/
def MGT_WDOG_ERESTARTS : Fld := ⟨.mgt, 0x024, 0x0, 1, 23, 16, .ro, 0⟩
/-- R554 -/
def HUB_HALFRST_WEST : Fld := ⟨.hub, 0x020, 0x0, 1, 0, 0, .w1s, 0⟩
/-- R554 -/
def HUB_HALFRST_EAST : Fld := ⟨.hub, 0x020, 0x0, 1, 1, 1, .w1s, 0⟩
/-- R554 -/
def HUB_HALFRST_REFUSED : Fld := ⟨.hub, 0x020, 0x0, 1, 2, 2, .rc, 0⟩
/-- R554 -/
def HUB_HALFRST_WSTATE : Fld := ⟨.hub, 0x020, 0x0, 1, 4, 3, .ro, 0⟩
/-- R554 -/
def HUB_HALFRST_ESTATE : Fld := ⟨.hub, 0x020, 0x0, 1, 6, 5, .ro, 0⟩
/-- R554 -/
def HUB_HALFRST_WCAUSE : Fld := ⟨.hub, 0x020, 0x0, 1, 9, 7, .ro, 0⟩
/-- R554 -/
def HUB_HALFRST_ECAUSE : Fld := ⟨.hub, 0x020, 0x0, 1, 12, 10, .ro, 0⟩
/-- R554 -/
def HUB_HALFRST_WCOUNT : Fld := ⟨.hub, 0x020, 0x0, 1, 20, 13, .ro, 0⟩
/-- R554 -/
def HUB_HALFRST_ECOUNT : Fld := ⟨.hub, 0x020, 0x0, 1, 28, 21, .ro, 0⟩
/-- R554 -/
def HUB_HALFRST_LOSTMARK : Fld := ⟨.hub, 0x020, 0x0, 1, 29, 29, .rc, 0⟩
/-- R554 -/
def HUB_HALFLOST_GRANULES : Fld := ⟨.hub, 0x024, 0x0, 1, 11, 0, .ro, 0⟩
/-- R555 -/
def MEM_MARCH_CTL_MODE : Fld := ⟨.stack, 0x210, 0x0, 1, 0, 0, .rw, 0⟩
/-- R555 -/
def MEM_MARCH_CTL_RETENTION : Fld := ⟨.stack, 0x210, 0x0, 1, 1, 1, .rw, 0⟩
/-- R555 -/
def MEM_MARCH_CTL_SHARE : Fld := ⟨.stack, 0x210, 0x0, 1, 6, 2, .rw, 10⟩
/-- R555 -/
def MEM_MARCH_CTL_START : Fld := ⟨.stack, 0x210, 0x0, 1, 31, 31, .w1s, 0⟩
/-- R555 -/
def MEM_MARCH_STAT_BUSY : Fld := ⟨.stack, 0x214, 0x0, 1, 0, 0, .ro, 0⟩
/-- R555 -/
def MEM_MARCH_STAT_DONE : Fld := ⟨.stack, 0x214, 0x0, 1, 1, 1, .rc, 0⟩
/-- R555 -/
def MEM_MARCH_STAT_REFUSED : Fld := ⟨.stack, 0x214, 0x0, 1, 2, 2, .rc, 0⟩
/-- R555 -/
def MEM_MARCH_STAT_REASON : Fld := ⟨.stack, 0x214, 0x0, 1, 6, 3, .rc, 0⟩
/-- R555 -/
def MEM_MARCH_STAT_PROGRESS : Fld := ⟨.stack, 0x214, 0x0, 1, 13, 7, .ro, 0⟩
/-- R555 -/
def MEM_MARCH_RES_FAILROWS : Fld := ⟨.stack, 0x218, 0x0, 1, 15, 0, .rc, 0⟩
/-- R555 -/
def MEM_MARCH_RES_SOFT : Fld := ⟨.stack, 0x218, 0x0, 1, 23, 16, .rc, 0⟩
/-- R555 -/
def MEM_MARCH_RES_RETIRED : Fld := ⟨.stack, 0x218, 0x0, 1, 27, 24, .rc, 0⟩
/-- R597 -/
def HUB_SNAP_TAKE : Fld := ⟨.hub, 0x040, 0x0, 1, 0, 0, .w1s, 0⟩
/-- R597 -/
def HUB_SNAP_VIEW_W : Fld := ⟨.hub, 0x040, 0x0, 1, 1, 1, .rw, 0⟩
/-- R597 -/
def HUB_SNAP_VIEW_E : Fld := ⟨.hub, 0x040, 0x0, 1, 2, 2, .rw, 0⟩
/-- R597 -/
def HUB_SNAP_VIEW_M : Fld := ⟨.hub, 0x040, 0x0, 1, 3, 3, .rw, 0⟩
/-- R597 -/
def HUB_SNAP_BUSY : Fld := ⟨.hub, 0x040, 0x0, 1, 4, 4, .ro, 0⟩
/-- R597 -/
def HUB_SNAP_MISSING : Fld := ⟨.hub, 0x040, 0x0, 1, 6, 5, .ro, 0⟩
/-- R597 -/
def HUB_SNAPT_LO : Fld := ⟨.hub, 0x044, 0x0, 1, 31, 0, .ro, 0⟩
/-- R597 -/
def HUB_SNAPT_HI : Fld := ⟨.hub, 0x048, 0x0, 1, 31, 0, .ro, 0⟩
/-- R597 -/
def HUB_SEALCTL_ARMED : Fld := ⟨.hub, 0x050, 0x0, 1, 0, 0, .ro, 0⟩
/-- R597 -/
def HUB_SEALCTL_COMMIT : Fld := ⟨.hub, 0x050, 0x0, 1, 1, 1, .w1s, 0⟩
/-- R597 -/
def HUB_SEALCTL_MISMATCH : Fld := ⟨.hub, 0x050, 0x0, 1, 2, 2, .rc, 0⟩
/-- R597 -/
def HUB_SEALCTL_DISARMED : Fld := ⟨.hub, 0x050, 0x0, 1, 3, 3, .rc, 0⟩
/-- R597 -/
def HUB_SEALCTL_PASSES : Fld := ⟨.hub, 0x050, 0x0, 1, 31, 16, .ro, 0⟩
/-- R597 -/
def HUB_SEALREF_REF : Fld := ⟨.hub, 0x054, 0x0, 1, 31, 0, .rw, 0⟩
/-- R597 -/
def HUB_SEALCRC_CRC : Fld := ⟨.hub, 0x058, 0x0, 1, 31, 0, .ro, 0⟩
/-- R597 -/
def HUB_REGEVENT_RESERVED_W : Fld := ⟨.hub, 0x05C, 0x0, 1, 0, 0, .rc, 0⟩
/-- R597 -/
def HUB_REGEVENT_UNSEIZED : Fld := ⟨.hub, 0x05C, 0x0, 1, 1, 1, .rc, 0⟩
/-- R597 -/
def HUB_REGEVENT_BADSIZE : Fld := ⟨.hub, 0x05C, 0x0, 1, 2, 2, .rc, 0⟩
/-- R597 -/
def HUB_REGEVENT_REFUSED : Fld := ⟨.hub, 0x05C, 0x0, 1, 3, 3, .rc, 0⟩
/-- R597 -/
def HUB_REGEVENT_HALF_DOWN : Fld := ⟨.hub, 0x05C, 0x0, 1, 4, 4, .rc, 0⟩
/-- R597 -/
def HUB_REGEVENT_HIDDEN : Fld := ⟨.hub, 0x05C, 0x0, 1, 5, 5, .rc, 0⟩
/-- R597 -/
def HUB_REGEVENT_SEIZE_LOST : Fld := ⟨.hub, 0x05C, 0x0, 1, 6, 6, .rc, 0⟩
/-- R597 -/
def HUB_REGEVENT_KIND : Fld := ⟨.hub, 0x05C, 0x0, 1, 14, 7, .rc, 0⟩
/-- R597 -/
def HUB_REGEVENT_INSTANCE : Fld := ⟨.hub, 0x05C, 0x0, 1, 19, 15, .rc, 0⟩
/-- R597 -/
def HUB_REGEVENT_PATH : Fld := ⟨.hub, 0x05C, 0x0, 1, 22, 20, .rc, 0⟩
/-- R597 -/
def HUB_STAGED_VTARGET : Fld := ⟨.hub, 0x060, 0x0, 1, 0, 0, .ro, 0⟩
/-- R597 -/
def HUB_STAGED_WAYMASK : Fld := ⟨.hub, 0x060, 0x0, 1, 1, 1, .ro, 0⟩
/-- R597 -/
def HUB_STAGED_SITEBASE : Fld := ⟨.hub, 0x060, 0x0, 1, 9, 2, .ro, 0⟩
/-- R597 -/
def HUB_TALLY_LO : Fld := ⟨.hub, 0x068, 0x0, 1, 31, 0, .ro, 0⟩
/-- R597 -/
def HUB_TALLY_HI : Fld := ⟨.hub, 0x06C, 0x0, 1, 31, 0, .ro, 0⟩
/-- R597 -/
def HUB_SEIZE_TAKE : Fld := ⟨.hub, 0x080, 0x4, 16, 0, 0, .w1s, 0⟩
/-- R597 -/
def HUB_SEIZE_GIVE : Fld := ⟨.hub, 0x080, 0x4, 16, 1, 1, .w1s, 0⟩
/-- R597 -/
def HUB_SEIZE_BREAK : Fld := ⟨.hub, 0x080, 0x4, 16, 2, 2, .w1s, 0⟩
/-- R597 -/
def HUB_SEIZE_HELD : Fld := ⟨.hub, 0x080, 0x4, 16, 3, 3, .ro, 0⟩
/-- R597 -/
def HUB_SEIZE_OWNER : Fld := ⟨.hub, 0x080, 0x4, 16, 6, 4, .ro, 0⟩
/-- R597 -/
def HUB_SEIZE_MINE : Fld := ⟨.hub, 0x080, 0x4, 16, 7, 7, .ro, 0⟩
/-- R598 -/
def FID_CONF_PERIOD : Fld := ⟨.fid, 0x000, 0x0, 1, 15, 0, .rw, 1000⟩
/-- R598 -/
def FID_CONF_SAMPLE_EN : Fld := ⟨.fid, 0x000, 0x0, 1, 23, 16, .rw, 0⟩
/-- R598 -/
def FID_EVENT_SAMPLE_LATE : Fld := ⟨.fid, 0x004, 0x0, 1, 0, 0, .rc, 0⟩
/-- R598 -/
def FID_EVENT_SBUF_FULL : Fld := ⟨.fid, 0x004, 0x0, 1, 1, 1, .rc, 0⟩
/-- R598 -/
def FID_EVENT_TRIGGERED : Fld := ⟨.fid, 0x004, 0x0, 1, 2, 2, .rc, 0⟩
/-- R598 -/
def FID_EVENT_TDROP : Fld := ⟨.fid, 0x004, 0x0, 1, 3, 3, .rc, 0⟩
/-- R598 -/
def FID_EVENT_SMISSING : Fld := ⟨.fid, 0x004, 0x0, 1, 4, 4, .rc, 0⟩
/-- R598 -/
def FID_EVENT_PART : Fld := ⟨.fid, 0x004, 0x0, 1, 7, 5, .rc, 0⟩
/-- R598 -/
def FID_TRCONF_EN : Fld := ⟨.fid, 0x010, 0x0, 1, 7, 0, .rw, 0⟩
/-- R598 -/
def FID_TRCONF_KINDS : Fld := ⟨.fid, 0x010, 0x0, 1, 15, 8, .rw, 255⟩
/-- R598 -/
def FID_TRCONF_MODE : Fld := ⟨.fid, 0x010, 0x0, 1, 16, 16, .rw, 0⟩
/-- R598 -/
def FID_TRCONF_POST : Fld := ⟨.fid, 0x010, 0x0, 1, 28, 17, .rw, 64⟩
/-- R598 -/
def FID_TRIG_KIND : Fld := ⟨.fid, 0x014, 0x0, 1, 2, 0, .rw, 0⟩
/-- R598 -/
def FID_TRIG_PART : Fld := ⟨.fid, 0x014, 0x0, 1, 5, 3, .rw, 0⟩
/-- R598 -/
def FID_TRIG_ARM : Fld := ⟨.fid, 0x014, 0x0, 1, 6, 6, .w1s, 0⟩
/-- R598 -/
def FID_TRIG_FIRE : Fld := ⟨.fid, 0x014, 0x0, 1, 7, 7, .w1s, 0⟩
/-- R598 -/
def FID_TRIG_THRESH : Fld := ⟨.fid, 0x014, 0x0, 1, 31, 16, .rw, 0⟩
/-- R598 -/
def FID_TRIGV_CLEAT : Fld := ⟨.fid, 0x018, 0x0, 1, 15, 0, .rw, 0⟩
/-- R598 -/
def FID_TRIGV_VALUE : Fld := ⟨.fid, 0x018, 0x0, 1, 31, 16, .rw, 0⟩
/-- R598 -/
def FID_TRSTAT_STATE : Fld := ⟨.fid, 0x01C, 0x0, 1, 1, 0, .ro, 0⟩
/-- R598 -/
def FID_TRSTAT_POSTLEFT : Fld := ⟨.fid, 0x01C, 0x0, 1, 13, 2, .ro, 0⟩
/-- R598 -/
def FID_TRSTAT_DROPS : Fld := ⟨.fid, 0x01C, 0x0, 1, 29, 14, .rc, 0⟩
/-- R598 -/
def FID_TRTIME_LO : Fld := ⟨.fid, 0x020, 0x0, 1, 31, 0, .ro, 0⟩
/-- R598 -/
def FID_TRTIME_HI : Fld := ⟨.fid, 0x024, 0x0, 1, 31, 0, .ro, 0⟩
/-- R598 -/
def FID_BUF_SBASE_LO : Fld := ⟨.fid, 0x040, 0x20, 8, 31, 0, .rw, 0⟩
/-- R598 -/
def FID_BUF_SBASE_HI : Fld := ⟨.fid, 0x044, 0x20, 8, 19, 0, .rw, 0⟩
/-- R598 -/
def FID_BUF_SCTX : Fld := ⟨.fid, 0x044, 0x20, 8, 31, 20, .rw, 0⟩
/-- R598 -/
def FID_BUF_SSIZE : Fld := ⟨.fid, 0x048, 0x20, 8, 15, 0, .rw, 0⟩
/-- R598 -/
def FID_BUF_SPTR : Fld := ⟨.fid, 0x04C, 0x20, 8, 31, 0, .ro, 0⟩
/-- R598 -/
def FID_BUF_TBASE_LO : Fld := ⟨.fid, 0x050, 0x20, 8, 31, 0, .rw, 0⟩
/-- R598 -/
def FID_BUF_TBASE_HI : Fld := ⟨.fid, 0x054, 0x20, 8, 19, 0, .rw, 0⟩
/-- R598 -/
def FID_BUF_TCTX : Fld := ⟨.fid, 0x054, 0x20, 8, 31, 20, .rw, 0⟩
/-- R598 -/
def FID_BUF_TSIZE : Fld := ⟨.fid, 0x058, 0x20, 8, 15, 0, .rw, 0⟩
/-- R598 -/
def FID_BUF_TPTR : Fld := ⟨.fid, 0x05C, 0x20, 8, 31, 0, .ro, 0⟩
/-- R599 -/
def FID_SEL_EVENT : Fld := ⟨.fidc, 0x000, 0x4, 64, 5, 0, .rw, 0⟩
/-- R599 -/
def FID_SEL_INST : Fld := ⟨.fidc, 0x000, 0x4, 64, 10, 6, .rw, 0⟩
/-- R599 -/
def FID_SEL_UNIT : Fld := ⟨.fidc, 0x000, 0x4, 64, 13, 11, .rw, 0⟩
/-- R599 -/
def FID_SEL_EN : Fld := ⟨.fidc, 0x000, 0x4, 64, 14, 14, .rw, 0⟩
/-- R599 -/
def FID_SEL_PART : Fld := ⟨.fidc, 0x000, 0x4, 64, 17, 15, .rw, 0⟩
/-- R599 -/
def FID_SEL_PFILT : Fld := ⟨.fidc, 0x000, 0x4, 64, 18, 18, .rw, 0⟩
/-- R599 -/
def FID_SEL_BUF : Fld := ⟨.fidc, 0x000, 0x4, 64, 21, 19, .rw, 0⟩
/-- R599 -/
def FID_SEL_SAMPLE : Fld := ⟨.fidc, 0x000, 0x4, 64, 22, 22, .rw, 0⟩
/-- R599 -/
def FID_VAL_LO : Fld := ⟨.fidc, 0x100, 0x8, 64, 31, 0, .ro, 0⟩
/-- R599 -/
def FID_VAL_HI : Fld := ⟨.fidc, 0x104, 0x8, 64, 15, 0, .ro, 0⟩
/-- R599 -/
def FID_VAL_WRAP : Fld := ⟨.fidc, 0x104, 0x8, 64, 16, 16, .ro, 0⟩

end R

/-- Fields of block hub, part 0. -/
def hubFields0 : List Fld :=
  [R.HUB_ORG_PART, R.HUB_ORG_WEST_UP, R.HUB_ORG_EAST_UP, R.HUB_ORG_GROUPS, R.HUB_ORG_STACKS, R.HUB_ORG_SITES, R.HUB_POPCODE_CHAR0, R.HUB_POPCODE_CHAR1, R.HUB_POPCODE_CHAR2, R.HUB_POPCODE_CHAR3, R.HUB_RATE_WEST_RATE, R.HUB_RATE_EAST_RATE]
/-- Fields of block hub, part 1. -/
def hubFields1 : List Fld :=
  [R.HUB_SPLICE_OPEN, R.HUB_SPLICE_ROWS_OK, R.HUB_SPLICE_PAIRS_OK, R.HUB_SVCEVENT_REMAP, R.HUB_SVCEVENT_PART, R.HUB_SVCEVENT_MIN_REFUSED, R.HUB_SVC_FLOOR_0, R.HUB_SVC_FLOOR_1, R.HUB_SVC_FLOOR_2, R.HUB_SVC_FLOOR_3, R.HUB_SVC_FLOOR_4, R.HUB_SVC_FLOOR_5]
/-- Fields of block hub, part 2. -/
def hubFields2 : List Fld :=
  [R.HUB_SVC_FLOOR_6, R.HUB_SVC_FLOOR_7, R.HUB_SVC_CAP, R.HUB_TAGMIN0_TILE, R.HUB_TAGMIN0_SITE, R.HUB_TAGMIN1_HOST, R.HUB_TAGMIN1_PSEQ, R.HUB_TAGMIN2_LANYARD, R.HUB_TAGMIN2_MGMT, R.HUB_SVCPART_ALLOWED, R.HUB_SVCPART_DEFAULT, R.HUB_SVCPART_APERTURE]
/-- Fields of block hub, part 3. -/
def hubFields3 : List Fld :=
  [R.HUB_SVCBW_W_LO, R.HUB_SVCBW_W_HI, R.HUB_SVCBW_E_LO, R.HUB_SVCBW_E_HI, R.HUB_HALFRST_WEST, R.HUB_HALFRST_EAST, R.HUB_HALFRST_REFUSED, R.HUB_HALFRST_WSTATE, R.HUB_HALFRST_ESTATE, R.HUB_HALFRST_WCAUSE, R.HUB_HALFRST_ECAUSE, R.HUB_HALFRST_WCOUNT]
/-- Fields of block hub, part 4. -/
def hubFields4 : List Fld :=
  [R.HUB_HALFRST_ECOUNT, R.HUB_HALFRST_LOSTMARK, R.HUB_HALFLOST_GRANULES, R.HUB_SNAP_TAKE, R.HUB_SNAP_VIEW_W, R.HUB_SNAP_VIEW_E, R.HUB_SNAP_VIEW_M, R.HUB_SNAP_BUSY, R.HUB_SNAP_MISSING, R.HUB_SNAPT_LO, R.HUB_SNAPT_HI, R.HUB_SEALCTL_ARMED]
/-- Fields of block hub, part 5. -/
def hubFields5 : List Fld :=
  [R.HUB_SEALCTL_COMMIT, R.HUB_SEALCTL_MISMATCH, R.HUB_SEALCTL_DISARMED, R.HUB_SEALCTL_PASSES, R.HUB_SEALREF_REF, R.HUB_SEALCRC_CRC, R.HUB_REGEVENT_RESERVED_W, R.HUB_REGEVENT_UNSEIZED, R.HUB_REGEVENT_BADSIZE, R.HUB_REGEVENT_REFUSED, R.HUB_REGEVENT_HALF_DOWN, R.HUB_REGEVENT_HIDDEN]
/-- Fields of block hub, part 6. -/
def hubFields6 : List Fld :=
  [R.HUB_REGEVENT_SEIZE_LOST, R.HUB_REGEVENT_KIND, R.HUB_REGEVENT_INSTANCE, R.HUB_REGEVENT_PATH, R.HUB_STAGED_VTARGET, R.HUB_STAGED_WAYMASK, R.HUB_STAGED_SITEBASE, R.HUB_TALLY_LO, R.HUB_TALLY_HI, R.HUB_SEIZE_TAKE, R.HUB_SEIZE_GIVE, R.HUB_SEIZE_BREAK]
/-- Fields of block hub, part 7. -/
def hubFields7 : List Fld :=
  [R.HUB_SEIZE_HELD, R.HUB_SEIZE_OWNER, R.HUB_SEIZE_MINE]
/-- Fields of block pwr, part 0. -/
def pwrFields0 : List Fld :=
  [R.PWR_LIMIT_PKG_W, R.PWR_LIMIT_FIXED_W, R.PWR_CONF_VTARGET, R.PWR_CONF_QWAIT_MS, R.PWR_CONF_MAXDUR_MS, R.PWR_PBASE_BASE_W, R.PWR_PBASE_LEAVE_MAX, R.PWR_POOL_FREE_W, R.PWR_POOL_GRANTED_W, R.PWR_POOL_QUEUED, R.PWR_DRAW_PKG_W, R.PWR_DRAW_VWEST]
/-- Fields of block pwr, part 1. -/
def pwrFields1 : List Fld :=
  [R.PWR_DRAW_VEAST, R.PWR_QUAD_LIMIT_W, R.PWR_QUAD_GATE, R.PWR_QUAD_CAUSE, R.PWR_EVENT_LIMIT_REFUSED, R.PWR_EVENT_BASE_REFUSED, R.PWR_EVENT_LEAVE_REFUSED, R.PWR_EVENT_QUEUE_FULL, R.PWR_EVENT_VDROP, R.PWR_EVENT_GATED, R.PWR_EVENT_QUAD_OVER]
/-- Fields of block sec, part 0. -/
def secFields0 : List Fld :=
  [R.SEC_LC_STATE, R.SEC_LC_BUSY, R.SEC_LCTRANS_TARGET, R.SEC_LCTRANS_CONFIRM, R.SEC_ALARM_LEVEL, R.SEC_ALARM_SOURCES, R.SEC_ALARMCFG_TAMPER0, R.SEC_ALARMCFG_TAMPER1, R.SEC_EVENT_MIRROR_SERVED, R.SEC_EVENT_MIRROR_LOST, R.SEC_EVENT_LC_REFUSED, R.SEC_EVENT_ANCHOR_SET]
/-- Fields of block sec, part 1. -/
def secFields1 : List Fld :=
  [R.SEC_EVENT_DBG_OPEN, R.SEC_PART_EXISTS, R.SEC_PART_WHIPPING, R.SEC_PART_ZFILL, R.SEC_PART_GEN, R.SEC_WHIP_US, R.SEC_WHIP_PART, R.SEC_WHIP_DONE, R.SEC_WHIP_SEVERED, R.SEC_WHIP_KEYGONE, R.SEC_WHIP_ALARM, R.SEC_DBG_OPEN]
/-- Fields of block sec, part 2. -/
def secFields2 : List Fld :=
  [R.SEC_DBG_FAILS, R.SEC_DBG_NONCE_NONCE, R.SEC_KEYSLOT_LOADED]
/-- Fields of block mgt, part 0. -/
def mgtFields0 : List Fld :=
  [R.MGT_BOOT_STAGE, R.MGT_BOOT_FULL, R.MGT_BOOT_STATUS, R.MGT_BOOT_SLOT, R.MGT_WARN_FW_FALLBACK, R.MGT_WARN_EAST_HELD, R.MGT_WARN_EAST_CAUSE, R.MGT_WARN_NO_DOMAIN, R.MGT_WARN_RECORD_REBUILT, R.MGT_WARN_RECORD_FULL, R.MGT_WARN_SOFT_REPAIR, R.MGT_WARN_GROUPS_WITHDRAWN]
/-- Fields of block mgt, part 1. -/
def mgtFields1 : List Fld :=
  [R.MGT_WARN_SLICE_UNCACHED, R.MGT_WARN_SITE_FAILED, R.MGT_WARN_LINKS_PARTIAL, R.MGT_STAGET_MS, R.MGT_WDOG_PERIOD_MS, R.MGT_WDOG_WRESTARTS, R.MGT_WDOG_ERESTARTS]
/-- Fields of block pci, part 0. -/
def pciFields0 : List Fld :=
  [R.PCI_SENTINEL_MAGIC, R.PCI_SENTINEL_PORT, R.PCI_SENTINEL_READY, R.PCI_SENTINEL_FLR, R.PCI_CONF_NP_MS, R.PCI_LINK_SPEED, R.PCI_LINK_WIDTH, R.PCI_LINK_FLIT, R.PCI_LINK_SLOW, R.PCI_LINK_D3, R.PCI_LINK_DOWNS, R.PCI_FLRSTAT_VFW]
/-- Fields of block pci, part 1. -/
def pciFields1 : List Fld :=
  [R.PCI_FLRSTAT_PFW, R.PCI_FLRSTAT_VFE, R.PCI_FLRSTAT_PFE, R.PCI_EVENT_DOWN_W, R.PCI_EVENT_DOWN_E, R.PCI_EVENT_FLR_DONE, R.PCI_EVENT_POISON_IN, R.PCI_EVENT_POISON_OUT, R.PCI_EVENT_NP_TMO, R.PCI_EVENT_BUTTON, R.PCI_EVENT_PWREN_REFUSED, R.PCI_EVENT_VFEN_REFUSED]
/-- Fields of block pci, part 2. -/
def pciFields2 : List Fld :=
  [R.PCI_MODULE_PWR_LED, R.PCI_MODULE_ATTN_LED, R.PCI_MODULE_PWREN, R.PCI_MODULE_BUTTON, R.PCI_MODULE_WAKE_EN]
/-- Fields of block cmdDev, part 0. -/
def cmdDevFields0 : List Fld :=
  [R.CMD_CONF_OVF_US, R.CMD_EVENT_OVF_GUARD, R.CMD_EVENT_FUNC, R.CMD_EVENT_PORT, R.CMD_EVENT_CONTROL, R.CMD_XFLUSH_FUNC, R.CMD_XFLUSH_LANES, R.CMD_XFLUSH_ABORT, R.CMD_XFLUSH_PORT, R.CMD_XFLUSH_START]
/-- Fields of block xltDev, part 0. -/
def xltDevFields0 : List Fld :=
  [R.XLT_DENY0_GRANULE, R.XLT_DENY0_PART, R.XLT_DENY0_AGENT, R.XLT_DENY0_CAUSE, R.XLT_DENY0_OVERRUN, R.XLT_DENY1_CTX]
/-- Fields of block coh, part 0. -/
def cohFields0 : List Fld :=
  [R.COH_CONF_HITCH, R.COH_CONF_BACKOFF, R.COH_CONF_STARVE_N, R.COH_CONF_REMOTE, R.COH_CONF_COMBINE, R.COH_TMO_SNOOP, R.COH_TMO_MEM, R.COH_WAYMASK_MASK, R.COH_EVENT_SNOOP_TMO, R.COH_EVENT_MEM_TMO, R.COH_EVENT_SLICE_FIXED, R.COH_EVENT_SLICE_POISON]
/-- Fields of block coh, part 1. -/
def cohFields1 : List Fld :=
  [R.COH_EVENT_MASK_REFUSED, R.COH_EVENT_REMOTE_REFUSED, R.COH_EVENT_STARVE_FULL, R.COH_EVENT_SPLICE_DROP, R.COH_EVLOC0_SLICE, R.COH_EVLOC0_AGENT, R.COH_EVLOC0_CAUSE, R.COH_EVLOC0_ADDR_HI, R.COH_EVLOC0_OVERRUN, R.COH_EVLOC1_ADDR_LO, R.COH_FLUSH_FIRST, R.COH_FLUSH_COUNT]
/-- Fields of block coh, part 2. -/
def cohFields2 : List Fld :=
  [R.COH_FLUSH_MASKSEL, R.COH_FLUSH_MODE, R.COH_FLUSH_START, R.COH_FLUSH_STAT_BUSY, R.COH_FLUSH_STAT_DONE, R.COH_FLUSH_STAT_REFUSED]
/-- Fields of block mem, part 0. -/
def memFields0 : List Fld :=
  [R.MEM_CONF_RESERVE, R.MEM_CONF_PATROL_H, R.MEM_CONF_ZFILL_SHARE, R.MEM_RETIRE_THRESH, R.MEM_RETIRE_REMAIN, R.MEM_RETIRE_RETIRED, R.MEM_CAP_GRANULES, R.MEM_CAP_BLOCKS, R.MEM_EVENT_RETIRE_START, R.MEM_EVENT_RETIRE_DONE, R.MEM_EVENT_RESERVE_EMPTY, R.MEM_EVENT_LOST]
/-- Fields of block mem, part 1. -/
def memFields1 : List Fld :=
  [R.MEM_EVENT_COPY_POISON, R.MEM_EVENT_SCOPE_REFUSED, R.MEM_EVENT_THERMAL, R.MEM_EVLOC0_CHANNEL, R.MEM_EVLOC0_CAUSE, R.MEM_EVLOC0_OVERRUN, R.MEM_EVLOC1_SECTOR, R.MEM_ZFILL_REMAIN, R.MEM_ZFILL_ACTIVE, R.MEM_SCOPE_0, R.MEM_SCOPE_1, R.MEM_SCOPE_2]
/-- Fields of block mem, part 2. -/
def memFields2 : List Fld :=
  [R.MEM_SCOPE_3, R.MEM_SCOPE_4, R.MEM_SCOPE_5, R.MEM_SCOPE_6, R.MEM_SCOPE_7, R.MEM_SCOPE_8, R.MEM_SCOPE_9, R.MEM_SCOPE_10, R.MEM_SCOPE_11, R.MEM_SCOPE_12, R.MEM_SCOPE_13, R.MEM_SCOPE_14]
/-- Fields of block mem, part 3. -/
def memFields3 : List Fld :=
  [R.MEM_SCOPE_15]
/-- Fields of block lnk, part 0. -/
def lnkFields0 : List Fld :=
  [R.LNK_CONF_MINW, R.LNK_CONF_AUTO, R.LNK_CONF_RELAY, R.LNK_CONF_PUT_TMO, R.LNK_CONF_COLL_IDLE, R.LNK_DOM0_IDENT, R.LNK_DOM1_IDENT, R.LNK_DOM2_SELF, R.LNK_DOM2_SIZE, R.LNK_DOM2_FORMED, R.LNK_DOM2_START, R.LNK_DOM2_STOP]
/-- Fields of block lnk, part 1. -/
def lnkFields1 : List Fld :=
  [R.LNK_EVENT_RETIRED, R.LNK_EVENT_NARROWED, R.LNK_EVENT_RECOVERED, R.LNK_EVENT_DOWN, R.LNK_EVENT_TAG_FAIL, R.LNK_EVENT_REFUSED_LINK, R.LNK_EVENT_RX_POISON, R.LNK_EVENT_PUT_REFUSED, R.LNK_EVENT_UNREACH, R.LNK_EVENT_FORMED_LOST, R.LNK_EVENT_LATE_REPLY, R.LNK_REFUSE_REASON]
/-- Fields of block lnk, part 2. -/
def lnkFields2 : List Fld :=
  [R.LNK_REFUSE_DEV, R.LNK_REFUSE_HANDLE, R.LNK_REFUSE_DIR, R.LNK_REFUSE_OVERRUN, R.LNK_ROUTE_LINKS, R.LNK_ROUTE_VIA, R.LNK_ROUTE_RELAYED, R.LNK_ROUTE_UNREACH, R.LNK_LSTAT_STATE, R.LNK_LSTAT_REASON, R.LNK_LSTAT_LANES, R.LNK_LSTAT_WIDTH]
/-- Fields of block lnk, part 3. -/
def lnkFields3 : List Fld :=
  [R.LNK_LSTAT_PEER, R.LNK_LSTAT_EPOCH, R.LNK_LERR_REPLAYS, R.LNK_LERR_RECOVERIES, R.LNK_LERR_TAGFAIL, R.LNK_LERR_UNCORR, R.LNK_LCONF_EXPECT, R.LNK_LCTL_RETRAIN, R.LNK_LCTL_RETIRE]
/-- Fields of block fid, part 0. -/
def fidFields0 : List Fld :=
  [R.FID_CONF_PERIOD, R.FID_CONF_SAMPLE_EN, R.FID_EVENT_SAMPLE_LATE, R.FID_EVENT_SBUF_FULL, R.FID_EVENT_TRIGGERED, R.FID_EVENT_TDROP, R.FID_EVENT_SMISSING, R.FID_EVENT_PART, R.FID_TRCONF_EN, R.FID_TRCONF_KINDS, R.FID_TRCONF_MODE, R.FID_TRCONF_POST]
/-- Fields of block fid, part 1. -/
def fidFields1 : List Fld :=
  [R.FID_TRIG_KIND, R.FID_TRIG_PART, R.FID_TRIG_ARM, R.FID_TRIG_FIRE, R.FID_TRIG_THRESH, R.FID_TRIGV_CLEAT, R.FID_TRIGV_VALUE, R.FID_TRSTAT_STATE, R.FID_TRSTAT_POSTLEFT, R.FID_TRSTAT_DROPS, R.FID_TRTIME_LO, R.FID_TRTIME_HI]
/-- Fields of block fid, part 2. -/
def fidFields2 : List Fld :=
  [R.FID_BUF_SBASE_LO, R.FID_BUF_SBASE_HI, R.FID_BUF_SCTX, R.FID_BUF_SSIZE, R.FID_BUF_SPTR, R.FID_BUF_TBASE_LO, R.FID_BUF_TBASE_HI, R.FID_BUF_TCTX, R.FID_BUF_TSIZE, R.FID_BUF_TPTR]
/-- Fields of block stack, part 0. -/
def stackFields0 : List Fld :=
  [R.MEM_CHST_STATE, R.MEM_CHST_BUCKET, R.MEM_CHST_RECOVERED, R.MEM_CHST_LOST, R.MEM_STKTEMP_T, R.MEM_STKTEMP_REFRESH, R.MEM_STKTEMP_LIMIT, R.MEM_MARGIN_CTL_CHAN, R.MEM_MARGIN_CTL_KIND, R.MEM_MARGIN_CTL_OFFSET, R.MEM_MARGIN_CTL_COUNT, R.MEM_MARGIN_CTL_START]
/-- Fields of block stack, part 1. -/
def stackFields1 : List Fld :=
  [R.MEM_MARGIN_STAT_BUSY, R.MEM_MARGIN_STAT_DONE, R.MEM_MARGIN_STAT_REFUSED, R.MEM_MARGIN_STAT_REASON, R.MEM_MARGIN_RES_ERRS, R.MEM_MARGIN_RES_WORST, R.MEM_MARCH_CTL_MODE, R.MEM_MARCH_CTL_RETENTION, R.MEM_MARCH_CTL_SHARE, R.MEM_MARCH_CTL_START, R.MEM_MARCH_STAT_BUSY, R.MEM_MARCH_STAT_DONE]
/-- Fields of block stack, part 2. -/
def stackFields2 : List Fld :=
  [R.MEM_MARCH_STAT_REFUSED, R.MEM_MARCH_STAT_REASON, R.MEM_MARCH_STAT_PROGRESS, R.MEM_MARCH_RES_FAILROWS, R.MEM_MARCH_RES_SOFT, R.MEM_MARCH_RES_RETIRED]
/-- Fields of block site, part 0. -/
def siteFields0 : List Fld :=
  [R.SITE_STAT_STATE, R.SITE_STAT_REASON, R.SITE_STAT_DEGRADED, R.SITE_STAT_LIVE, R.SITE_STAT_PART, R.SITE_STAT_CACHING, R.SITE_STAT_MINOR, R.SITE_IDENT_IDENTITY, R.SITE_TERMS_TAGS, R.SITE_TERMS_SLOTS, R.SITE_TERMS_LIMIT_W, R.SITE_TERMS_FACE]
/-- Fields of block site, part 1. -/
def siteFields1 : List Fld :=
  [R.SITE_RATE_GTS, R.SITE_RATE_MODULES, R.SITE_CTL_RESET, R.SITE_CTL_REMEASURE, R.SITE_CTXMAP_CTX_A, R.SITE_CTXMAP_VALID_A, R.SITE_CTXMAP_CTX_B, R.SITE_CTXMAP_VALID_B, R.SITE_SVC_ALLOWED, R.SITE_SVC_DEFAULT, R.SITE_PWR_BASE_W, R.SITE_PWR_DRAW_W]
/-- Fields of block site, part 2. -/
def siteFields2 : List Fld :=
  [R.SITE_EVENT_REPLAY, R.SITE_EVENT_RETRAIN, R.SITE_EVENT_AP_DOWN, R.SITE_EVENT_BAD_SLOT, R.SITE_EVENT_DUP_TAG, R.SITE_EVENT_SVC_REMAP, R.SITE_EVENT_POWER_WARN, R.SITE_EVENT_SEVERED, R.SITE_EVENT_POISONED_LINES, R.SITE_EVENT_CTL_REFUSED, R.SITE_EVENT_REMEASURED, R.SITE_EVENT_BAD_TAG]
/-- Fields of block site, part 3. -/
def siteFields3 : List Fld :=
  [R.SITE_APERR_REPLAYS, R.SITE_APERR_RETRAINS, R.SITE_APERR_DOWN, R.SITE_DIGEST_BYTES]
/-- Fields of block group, part 0. -/
def groupFields0 : List Fld :=
  [R.HUB_TSTAT_STATE, R.HUB_TSTAT_REPEAT, R.HUB_TSTAT_OPIDX, R.HUB_TSTAT_PART, R.HUB_TWAIT_CLEAT, R.HUB_TFAULT0_CODE, R.HUB_TFAULT0_OPIDX, R.HUB_TFAULT0_OVERRUN, R.HUB_TFAULT0_VALID, R.HUB_TFAULT1_ADDR_LO, R.HUB_TFAULT2_ADDR_HI, R.HUB_TCONF_MAT]
/-- Fields of block group, part 1. -/
def groupFields1 : List Fld :=
  [R.HUB_TCONF_VEC, R.HUB_TCONF_QNT, R.HUB_TCONF_LDR, R.HUB_TCONF_GTH, R.HUB_TCONF_GRP, R.HUB_TGOWN_PART, R.HUB_TGOWN_OWNED]
/-- Fields of block fidc, part 0. -/
def fidcFields0 : List Fld :=
  [R.FID_SEL_EVENT, R.FID_SEL_INST, R.FID_SEL_UNIT, R.FID_SEL_EN, R.FID_SEL_PART, R.FID_SEL_PFILT, R.FID_SEL_BUF, R.FID_SEL_SAMPLE, R.FID_VAL_LO, R.FID_VAL_HI, R.FID_VAL_WRAP]
/-- Fields of block cmdWin, part 0. -/
def cmdWinFields0 : List Fld :=
  [R.CMD_ROOM_FREE, R.CMD_ROOM_XSEQ, R.CMD_LANE_STATE, R.CMD_LANE_CAUSE, R.CMD_LANE_RUNNING, R.CMD_LANE_HEAD, R.CMD_WCTL_FLUSH, R.CMD_WCTL_ABORT, R.CMD_WCTL_LRESET, R.CMD_WCTL_RSEQ, R.CMD_WEVENT_OVERFLOW, R.CMD_WEVENT_BAD_LEN]
/-- Fields of block cmdWin, part 1. -/
def cmdWinFields1 : List Fld :=
  [R.CMD_WEVENT_SEAL_MISMATCH, R.CMD_WEVENT_REPLY_LOST, R.CMD_WEVENT_FLUSH_DONE]
/-- Fields of block xltWin, part 0. -/
def xltWinFields0 : List Fld :=
  [R.XLT_FSTAT_PENDING, R.XLT_FEVENT_NEW, R.XLT_FEVENT_FULL, R.XLT_FEVENT_APERTURE, R.XLT_RETRY_REC, R.XLT_CANCEL_REC, R.XLT_AP_LO_EN, R.XLT_AP_LO_APBASE_LO, R.XLT_AP_HI_APBASE_HI, R.XLT_AP_HI_CTX, R.XLT_FREC_VALID, R.XLT_FREC_KIND]
/-- Fields of block xltWin, part 1. -/
def xltWinFields1 : List Fld :=
  [R.XLT_FREC_INDEX, R.XLT_FREC_CTX, R.XLT_FREC_DVA_LO, R.XLT_FREC_DVA_HI, R.XLT_FREC_HOLDERS, R.XLT_FREC_AGENT, R.XLT_FREC_NUM, R.XLT_FREC_JOINED]

/-- The fields of a block, in the order of the register tables. -/
def Blk.fields (b : Blk) : List Fld :=
  match b with
  | .hub => hubFields0 ++ hubFields1 ++ hubFields2 ++ hubFields3 ++ hubFields4 ++ hubFields5 ++ hubFields6 ++ hubFields7
  | .pwr => pwrFields0 ++ pwrFields1
  | .sec => secFields0 ++ secFields1 ++ secFields2
  | .mgt => mgtFields0 ++ mgtFields1
  | .pci => pciFields0 ++ pciFields1 ++ pciFields2
  | .cmdDev => cmdDevFields0
  | .xltDev => xltDevFields0
  | .coh => cohFields0 ++ cohFields1 ++ cohFields2
  | .mem => memFields0 ++ memFields1 ++ memFields2 ++ memFields3
  | .lnk => lnkFields0 ++ lnkFields1 ++ lnkFields2 ++ lnkFields3
  | .fid => fidFields0 ++ fidFields1 ++ fidFields2
  | .stack => stackFields0 ++ stackFields1 ++ stackFields2
  | .site => siteFields0 ++ siteFields1 ++ siteFields2 ++ siteFields3
  | .group => groupFields0 ++ groupFields1
  | .fidc => fidcFields0
  | .cmdWin => cmdWinFields0 ++ cmdWinFields1
  | .xltWin => xltWinFields0 ++ xltWinFields1

end Sys2Proof.Machine
end

