-- ==== Sys2Proof/Machine/State.lean ====
section
/-! DEFINITION. The state of the device as plain data, and the state after reset. A list of pairs (key, value) stands
for a table in one canonical form: keys strictly rising and no value equal to the table's default (Machine/Ops.lean).
Where the spec gives no reset value the default here is the model's choice (log 7). -/

namespace Sys2Proof.Machine

/-- Attach kinds of a site (R9). -/
inductive Attach where
  | cover | d3 | ap
  deriving DecidableEq, Repr

/-- One site entry of the fused population record (R9, R11). -/
structure FuseSite where
  /-- attach kind (R9), reset fused, DESIGN CHOICE Cover (log 3) -/
  kind  : Attach := .cover
  /-- expected chiplet identity (R9), reset fused, DESIGN CHOICE 0 (log 3) -/
  ident : W32 := 0
  /-- declared power limit in watts (R9), reset fused, DESIGN CHOICE 0 (log 3) -/
  limit : Nat := 0
  deriving DecidableEq, Repr

/-- What the fuses and the board fix (R2, R3, R11, R460, R522). -/
structure Fuse where
  /-- the part is a TVH1204 (R2), DESIGN CHOICE false (log 3) -/
  small  : Bool := false
  /-- population code, four characters (R6), DESIGN CHOICE "0000" (log 3) -/
  pop    : List (BitVec 8) := [0x30, 0x30, 0x30, 0x30]
  /-- the population record (R8, R9), DESIGN CHOICE eight covers (log 3) -/
  sites  : List FuseSite := []
  /-- fused minimum firmware security version SVN_MIN (R468, R522), DESIGN CHOICE 0 (log 3) -/
  svnMin : Nat := 0
  /-- die stepping: the Revision ID (R489), DESIGN CHOICE 0 (log 3) -/
  step   : BitVec 8 := 0
  deriving DecidableEq, Repr

/-- Why a master made a request: what its final response does. -/
inductive Purpose where
  | load (tile idx seq dst off len dva : Nat)
  | store (tile idx seq dva : Nat)
  | fetch (tile : Nat)
  | site (k : Nat) (tag : BitVec 12) (slot : Nat)
  | apRd (id off : Nat)
  | apWr (win mark : Nat)
  | copyRd (id : Nat) (dst : Dva) (cached : Bool)
  | cmdWr (id : Nat)
  | reply (id : Nat)
  | frag (id : Nat)
  | getRd (id off : Nat)
  | putRd (eng trk off : Nat)
  | report (id : Nat)
  | sample (p : Nat)
  | traceW (p : Nat)
  | quiet
  deriving DecidableEq, Repr

/-- A request with its tag (R205), from its injection to its final response; its number in order of making, and the page of
the DVA it was translated from, none for one made by DPA (R420); `waits` after a NACK, until it is sent again (R226). -/
structure Tx where
  half   : Half
  tag    : Nat
  pkt    : Pkt
  purp   : Purpose
  nacks  : Nat
  shared : Bool
  ser    : Nat
  page   : Option Nat
  waits  : Bool
  deriving DecidableEq, Repr

/-- A request held at its master's regulator (R429). -/
structure HeldTx where
  half : Half
  pkt  : Pkt
  purp : Purpose
  ser  : Nat
  page : Option Nat
  deriving DecidableEq, Repr

/-- An access of a master by DVA, not yet translated. -/
structure DvaAcc where
  master : Agent
  ctx    : BitVec 12
  svc    : BitVec 3
  dva    : Dva
  op     : Op
  mask   : BitVec 32
  masked : Bool
  poison : Bool
  data   : BitVec 256
  purp   : Purpose
  deriving DecidableEq, Repr

/-- Stable directory states (R218); no entry is state I. -/
inductive DirSt where
  | i | c | d | h
  deriving DecidableEq, Repr

/-- What a busy line's home is doing (R219, R220): collecting snoop answers and fills, waiting for the GrantAck, or in
the hitch time; `evict` is a victim's row, `flush` a read served without allocating, `scan` an unbinding's SnpInv to one
site (R311). -/
inductive TxnKind where
  | request | evict | flush | scan
  deriving DecidableEq, Repr

inductive TxnPhase where
  | collect | ack | hitch
  deriving DecidableEq, Repr

/-- A row of R219 in progress on a busy line (R220): its number, which snoops and fills carry as their tag; the request; the
agents whose answers and the sectors whose data are awaited; whether the line was allocated for the request; the data a holder
returned and whether the holder keeps S; the STATUS of a timeout with the sectors lost, and whether the holder's copy was given
up; the state granted. -/
structure Txn where
  kind     : TxnKind
  phase    : TxnPhase
  id       : Nat
  req      : Pkt
  snoops   : List Agent
  fills    : BitVec 2
  freshLn  : Bool
  gotData  : Bool
  data     : LineData
  dpoison  : BitVec 2
  kept     : Bool
  status   : BitVec 3
  lost     : BitVec 2
  dead     : Bool
  grant    : BitVec 2
  deriving DecidableEq, Repr

/-- A line at its home: directory entry and data array (R210, R218). -/
structure Line where
  /-- stable state (R218), reset I -/
  st      : DirSt := .i
  /-- HOLDER, a site (R218), reset 0 with no holder in I -/
  holder  : Nat := 0
  /-- sharer bits of the eight sites (R218), reset 0 -/
  sites   : BitVec 8 := 0
  /-- sharer bits of the twelve tile groups of the home's half (R218), reset 0 -/
  groups  : BitVec 12 := 0
  /-- the proxy bit (R218), reset 0 -/
  proxy   : Bool := false
  /-- line data in the array (R210), reset DESIGN CHOICE 0 (log 7) -/
  data    : LineData := 0
  /-- valid bit of each sector (R210), reset 0 -/
  valid   : BitVec 2 := 0
  /-- dirty bit of each sector (R211, R219), reset 0 -/
  dirty   : BitVec 2 := 0
  /-- poison bit of each sector (R210, R237), reset 0 -/
  poison  : BitVec 2 := 0
  /-- sectors whose words in the array hold an uncorrectable error that no read has met yet (R216), reset 0 -/
  bad     : BitVec 2 := 0
  /-- the way the line lies in (R210), reset 0 -/
  way     : Nat := 0
  /-- last use, for replacement (R211), reset 0 -/
  used    : Nat := 0
  /-- the row in progress while the line is busy (R220), reset none -/
  txn     : Option Txn := none
  /-- WrBack and Evict held for the busy line (R220), reset empty -/
  held    : List Pkt := []
  /-- the line's entries of the starvation queue (R227), reset empty -/
  starve  : List Pkt := []
  deriving DecidableEq, Repr

/-- A remote line in a proxy slice, always in state S (R229, R230). -/
structure PLine where
  /-- the proxy holds the line (R229), reset 0 -/
  present : Bool := false
  /-- data of the line (R229), reset DESIGN CHOICE 0 (log 7) -/
  data    : LineData := 0
  /-- poison bits (R210), reset 0 -/
  poison  : BitVec 2 := 0
  /-- sectors whose words in the array hold an uncorrectable error that no read has met yet (R216), reset 0 -/
  bad     : BitVec 2 := 0
  /-- sharers among the four sites of the proxy's half (R229), reset 0 -/
  sites   : BitVec 8 := 0
  /-- sharers among the twelve tile groups of the proxy's half (R229), reset 0 -/
  groups  : BitVec 12 := 0
  /-- the way, among ways 0 to REMOTE - 1 (R210), reset 0 -/
  way     : Nat := 0
  /-- last use (R211), reset 0 -/
  used    : Nat := 0
  /-- requests waiting for the home's data (R230), reset empty -/
  waiting : List Pkt := []
  /-- members whose answers a SnpInv of the home or an eviction awaits (R232), reset empty -/
  snoops  : List Agent := []
  /-- the home's SnpInv being answered (R232), reset none -/
  inv     : Option Pkt := none
  /-- the proxy evicts the line (R232), reset false -/
  leaving : Bool := false
  /-- SnpInv has gone to every member (R232), reset false -/
  dropping : Bool := false
  /-- members granted S whose GrantAck has not arrived (R223), reset none -/
  acks    : List Agent := []
  deriving DecidableEq, Repr

/-- The mesh, tags, homes and proxies (05_fabric_and_coherence.md). -/
structure Fabric where
  /-- packets in flight (R195, R200), reset empty -/
  net    : List Pkt := []
  /-- requests holding a tag (R205), reset empty -/
  txs    : List Tx := []
  /-- requests held at the regulators, in order of arrival (R429, R430), reset empty -/
  regq   : List HeldTx := []
  /-- lines of the homes, by line number a[43:6] (R210, R218), reset all in I -/
  lines  : List (Nat × Line) := []
  /-- lines of the proxy slices, by line number (R229), reset none present -/
  plines : List (Nat × PLine) := []
  /-- use counter for least-recent use (R211), reset 0 -/
  useCtr : Nat := 0
  /-- number of the next request made, reset 0 -/
  serial : Nat := 0
  /-- slices uncached under R539, reset none -/
  uncached : List Nat := []
  /-- slices to be uncached once the running flush completes (R552), reset none -/
  uncLate  : List Nat := []
  /-- tallies of the uncorrectable errors of each slice (R538), reset none -/
  sliceErrs : List (Nat × List (BitVec 64)) := []
  /-- granules or ways of the running flush (R244): the COH_FLUSH word, reset none -/
  flush  : Option W32 := none
  /-- way-mask values staged behind a flush (R242, R566): mask number and new value, reset none -/
  wayStaged : List (Nat × Nat) := []
  deriving DecidableEq, Repr

/-- The stored form of one sector (R154, R157, R166): the key and tweak granule it was written under, and poison. -/
structure Mark where
  key    : Nat
  tw     : Nat
  poison : Bool
  deriving DecidableEq, Repr

/-- An ownership record (R416). -/
structure OwnRec where
  /-- OWNER, 4 bits (R416), reset DESIGN CHOICE 15 free (log 7) -/
  owner   : BitVec 4 := 15
  /-- RO (R416), reset 0 -/
  ro      : Bool := false
  /-- WRITER, 3 bits (R416), reset 0 -/
  writer  : BitVec 3 := 0
  /-- SHARE, 8 bits (R416), reset 0 -/
  share   : BitVec 8 := 0
  /-- KEYSLOT, 5 bits (R416), reset DESIGN CHOICE 31 (log 7) -/
  slot    : BitVec 5 := 31
  /-- MIRROR (R416), reset 0 -/
  mirror  : Bool := false
  /-- MIRROR_G, 12 bits (R416), reset 0 -/
  mirrorG : BitVec 12 := 0
  deriving DecidableEq, Repr

/-- A zero-fill or copy job of a granule (R169, R455). -/
structure ZJob where
  granule : Nat
  owner   : Nat
  cmd     : Option Nat
  deriving DecidableEq, Repr

/-- A margin run (R187 to R190): its kind, its channel of the stack, its signed offset in steps as an 8-bit word, the shadow reads or
sectors still to go, and the mismatches and the most symbols corrected so far. -/
structure MarginRun where
  kind   : Nat
  chan   : Nat
  offset : BitVec 8
  left   : Nat
  errs   : Nat
  worst  : Nat
  deriving DecidableEq, Repr

/-- Contents that a destructive run has left undefined (R190, R533): those of a slot's chunks, or of one block of the slot, but for the
granules filled since. -/
structure Scr where
  slot  : Nat
  block : Option Nat
  since : List Nat
  deriving DecidableEq, Repr

/-- A march or margin run on a stack (R187, R533). -/
structure StackRun where
  /-- a destructive march waits for its leave (R536), reset none -/
  marchWait : Bool := false
  /-- a march proceeds (R533), reset none -/
  march     : Bool := false
  /-- the march is a destructive one (R533), reset false -/
  destr     : Bool := false
  /-- a margin run of kind 4 waits for its leave (R437), reset none -/
  marginWait : Bool := false
  /-- the margin run, whose offset is in force once it does not wait (R187, R191), reset none: the trained settings -/
  margin    : Option MarginRun := none
  /-- the command that started the margin run (R388), reset none -/
  marginCmd : Option Nat := none
  deriving DecidableEq, Repr

/-- The Hank stacks behind the homes (04_hank_memory.md). -/
structure Hank where
  /-- device memory: bytes by DPA, an unlisted byte is 0 under the granule's fill (R159, R399), reset nothing listed (log 5) -/
  mem      : List Host.Cell := []
  /-- marks of sectors written since their granule's fill, by a[43:5] (R157, R166), reset none -/
  marks    : List (Nat × Option Mark) := []
  /-- key and tweak granule of each granule's last whole fill or copy (R169, R458), reset key 0: nobody's (log 5) -/
  fills    : List (Nat × Mark) := []
  /-- what destructive runs left undefined (R190, R533), reset none -/
  scr      : List Scr := []
  /-- corrected symbols of each channel: the Fid's count (R192), reset 0 -/
  symbols  : List (Nat × Nat) := []
  /-- ownership records by granule (R416), reset free -/
  own      : List (Nat × OwnRec) := []
  /-- key loaded in each key slot, 0 for none (R461), reset none -/
  slots    : List (Nat × Nat) := []
  /-- the next key of the TRNG: keys are distinct numbers (R460), reset 1 (log 4) -/
  nextKey  : Nat := 1
  /-- zero-fill jobs in order (R169), reset empty -/
  zfill    : List ZJob := []
  /-- retired channels, in order (R178), reset empty -/
  retired  : List Nat := []
  /-- channels waiting to retire, in order (R181), reset empty -/
  retireQ  : List Nat := []
  /-- the retiring channel and its chunks still to switch, as (channel, block) of their present place (R179), reset none -/
  moving   : Option (Nat × List Nat) := none
  /-- the spread table: channel * 384 + block of a chunk to the place where it now lies (R176), reset every chunk in its own place -/
  spread   : List (Nat × Option Nat) := []
  /-- the reserve R taken at the memories stage (R175), reset 16 -/
  reserve  : Nat := 16
  /-- the memories stage of the latest cold boot has begun (R567), reset false -/
  memStage : Bool := false
  /-- next sector of each channel's patrol (R174), reset 0 -/
  patrol   : List (Nat × Nat) := []
  /-- channels recalibrated, a count (R541), reset 0 -/
  recals   : Nat := 0
  /-- runs on each stack (R187, R533), reset none -/
  runs     : List (Nat × StackRun) := []
  /-- granules poisoned after an unplanned reset, with the slots whose sectors are poisoned unless written since (R548), reset none -/
  pois     : List (Nat × List Nat) := []
  /-- requests held by a stack in self-refresh (R183), reset empty -/
  cold     : List Pkt := []
  /-- granules marked at an unplanned reset, by half (R545), reset none -/
  lostW    : List Nat := []
  /-- as lostW, East (R545), reset none -/
  lostE    : List Nat := []
  deriving DecidableEq, Repr

/-- A dispatch record (R109). -/
structure DispRec where
  ol     : Dva
  dt     : Dva
  ndesc  : Nat
  ctx    : BitVec 12
  svc    : BitVec 3
  policy : BitVec 3
  thresh : BitVec 4
  place  : Nat
  cmd    : Nat
  deriving DecidableEq, Repr

/-- An active loop (R132): its op's index, passes, body, level, PING_OFF and current pass. -/
structure LoopSt where
  start   : Nat
  count   : Nat
  body    : Nat
  level   : Nat
  pingOff : Nat
  pass    : Nat
  deriving DecidableEq, Repr

/-- A widened quantise op of a repeat, or one that could be widened (R100, R101). -/
structure WidenRec where
  idx   : Nat
  dst   : Nat
  n     : Nat
  ofmt  : Nat
  esc   : Bool
  widen : Nat
  deriving DecidableEq, Repr

/-- An issued op that has not completed (R111): its number in issue order, whether it has started, the loop passes and
offset it was issued under (R117, R130), its segment, and whether accesses of it are still to be made or awaited. -/
structure IssuedOp where
  idx     : Nat
  seq     : Nat
  entry   : Entry
  started : Bool
  i0      : Nat
  i1      : Nat
  inner   : Option Nat
  ping    : Nat
  seg     : Nat
  rep     : Bool
  quants  : List WidenRec
  deriving DecidableEq, Repr

/-- Guard counts of one command on a tile, or of a command (R95). -/
structure Guard where
  /-- SAT (R95), reset 0 -/
  sat      : Nat := 0
  /-- SCALE_SAT (R95), reset 0 -/
  scaleSat : Nat := 0
  /-- NAN (R95), reset 0 -/
  nan      : Nat := 0
  /-- ESC_OVF (R95), reset 0 -/
  escOvf   : Nat := 0
  /-- UNDER (R95), reset 0 -/
  under    : Nat := 0
  /-- INF_SEEN (R95), reset 0 -/
  inf      : Bool := false
  /-- TRIPPED (R95), reset 0 -/
  tripped  : Bool := false
  /-- WIDENED (R95), reset 0 -/
  widened  : Bool := false
  /-- WIDEN_TRIPPED (R95), reset 0 -/
  wtripped : Bool := false
  deriving DecidableEq, Repr

/-- The segment being executed (R97 to R105). -/
structure Seg where
  /-- number of this execution (R97), reset 0 -/
  no     : Nat := 0
  /-- index of its first op (R97), reset 0 -/
  start  : Nat := 0
  /-- the active loops at its start (R100), reset none -/
  loops  : List LoopSt := []
  /-- it has executed a store, put, signal or bank atomic (R102), reset false -/
  sealed : Bool := false
  /-- quantise ops issued that can be widened, in op order (R101), reset none -/
  quants : List WidenRec := []
  /-- this execution is a widened repeat (R100), reset false -/
  rep    : Bool := false
  /-- a repeat is due once the ops that run have completed (R100), reset false -/
  again  : Bool := false
  /-- its trip condition has been met and acted on (R97), reset false -/
  acted  : Bool := false
  /-- the ops that its repeat widens: the first eight in op order that can be (R101), reset none -/
  plan   : List Nat := []
  deriving DecidableEq, Repr

/-- A tile that waits in WAIT (R134). -/
structure TWait where
  idx    : Nat
  cleat  : BitVec 16
  target : CleatVal
  scope  : BitVec 2
  tmo    : BitVec 16
  since  : BitVec 64
  deriving DecidableEq, Repr

/-- A tile (R108). -/
structure Tile where
  /-- dispatch record received and not yet taken (R109), reset none -/
  inbox   : Option DispRec := none
  /-- dispatch record of the running command (R109, R110), reset none -/
  disp    : Option DispRec := none
  /-- operand descriptors held (R110), reset none -/
  descs   : List Entry := []
  /-- index of the next op-list entry to issue (R110), reset 0 -/
  idx     : Nat := 0
  /-- active loops, innermost first (R132), reset none -/
  loops   : List LoopSt := []
  /-- the op buffer: loop-body entries held, by index (R132), reset none -/
  opbuf   : List (Nat × Entry) := []
  /-- issued ops not completed, in issue order, at most 16 (R111), reset none -/
  issued  : List IssuedOp := []
  /-- the WAIT in progress (R134), reset none -/
  waiting : Option TWait := none
  /-- scope of a FENCE whose events have not all occurred (R250), reset none -/
  fence   : Option (BitVec 2) := none
  /-- the entry read and not yet issued, with its index (R110), reset none -/
  cur     : Option (Nat × Entry) := none
  /-- number of the next op issued, reset 0 -/
  nextSeq : Nat := 0
  /-- 3 MiB scratchpad, bytes (R108, R120), reset DESIGN CHOICE 0 (log 7) -/
  spad    : List Host.Cell := []
  /-- 131,072 FP32 accumulators (R108), reset DESIGN CHOICE 0 (log 7) -/
  acc     : List (Nat × BitVec 32) := []
  /-- guard counts for the command (R94), reset 0 -/
  guard   : Guard := {}
  /-- the current segment (R97), reset empty -/
  seg     : Seg := {}
  /-- the 64 KiB read cache: lines held in S (R217), reset empty -/
  rcache  : List (Nat × Option LineData) := []
  /-- PUTs of the tile not performed at domain scope: tracker (engine * 2048 + number) and op number (R250), reset none -/
  puts    : List (Nat × Nat) := []
  /-- PUT ops waiting at the loader for a tracker, by op number (R348), reset none -/
  putWait : List Nat := []
  /-- guard counts of the segments with ops not completed, by segment number (R97), reset none -/
  sums    : List (Nat × Guard) := []
  /-- a segment has ended and its trip condition is not yet evaluated (R98), reset false -/
  segEnd  : Bool := false
  /-- completed END or stopped (R113), reset false -/
  done    : Bool := false
  /-- stopped on an op fault (R149), reset false -/
  stopped : Bool := false
  /-- a stop takes effect at the next op boundary (R149, R355), reset false -/
  stopReq : Bool := false
  /-- the PUT whose remote refusal stops the tile there (R355), reset none -/
  badPut  : Option Nat := none
  /-- the tile's REDUCE source has arrived at the group port (R129), reset false -/
  redHere : Bool := false
  /-- the tile's REDUCE has its result (R129), reset false -/
  redDone : Bool := false
  /-- tallies of the tile's SP_ECC faults (R538), reset none -/
  eccs    : List (BitVec 64) := []
  /-- scratchpad units that hold an uncorrectable error and have not been written since (R138), reset none -/
  bad     : List Nat := []
  deriving DecidableEq, Repr

/-- Cleats with the agent whose increment was applied last (R254, R591). -/
structure Cleat where
  /-- 48-bit value (R254), reset 0 (R454: reads zero when granted) -/
  val   : CleatVal := 0
  /-- agent of the last increment (R591), reset none -/
  waker : Option Agent := none
  deriving DecidableEq, Repr

/-- A waiter of a site on a Cleat (R291). -/
structure Watch where
  site   : Nat
  slot   : Nat
  tag    : BitVec 12
  cleat  : BitVec 16
  target : CleatVal
  scope  : BitVec 2
  tmo    : BitVec 16
  deriving DecidableEq, Repr

/-- What an attach point gives back of a chiplet's request in its response: slot, tag, address and sectors (R289, R290). -/
structure RspTo where
  slot : Nat
  tag  : BitVec 12
  addr : Nat
  sect : Nat
  deriving DecidableEq, Repr

/-- An increment on its way to a Cleat bank (R250, R254), with the CleatSig that it answers (R291). -/
structure IncMsg where
  cleat : BitVec 16
  inc   : CleatVal
  agent : Agent
  rsp   : Option RspTo
  deriving DecidableEq, Repr

/-- A CleatSig waiting for the site's writes that were made before request number `mark` (R252, R292). -/
structure SigWait where
  site   : Nat
  slot   : Nat
  tag    : BitVec 12
  cleat  : BitVec 16
  inc    : CleatVal
  scope  : BitVec 2
  mark   : Nat
  deriving DecidableEq, Repr

/-- The Cleat banks (R27). -/
structure Cleats where
  /-- the Cleats by number (R27), reset 0 -/
  vals    : List (Nat × Cleat) := []
  /-- owner of each block of 1,024 Cleats, none when free (R450), reset free -/
  blocks  : List (Nat × Option Nat) := []
  /-- increments on their way (R250), reset empty -/
  flying  : List IncMsg := []
  /-- CleatWatches waiting (R291), reset empty -/
  watches : List Watch := []
  /-- CleatSigs waiting for earlier writes (R252), reset empty -/
  sigs    : List SigWait := []
  deriving DecidableEq, Repr

/-- A site's coherence state for a line (R221): S, E or M, or kept in the writeback buffer; with the POISON that came with the
data of a copy (R237). -/
inductive CSt where
  | i | s (pz : BitVec 2) | e | m (pz : BitVec 2) | wb (d : LineData) (pz : BitVec 2)
  deriving DecidableEq, Repr

/-- What the device sends out of the fabric, appended in order. -/
inductive Out where
  | msix (win vec : Nat)
  | tsp (site ap : Nat) (frame : BitVec 768)
  | tspNak (site ap : Nat) (ack : BitVec 12)
  | tspReplay (site ap : Nat) (seq : BitVec 12)
  | sideband (site : Nat) (words : List (BitVec 64))
  | siteRsp (site : Nat) (rt : RspTo) (status : BitVec 3) (grant : BitVec 2) (poison : BitVec 2) (data : Option LineData)
  | siteSnoop (site : Nat) (p : Pkt)
  | ctl (site : Nat) (op : BitVec 8) (tag : BitVec 12) (data : LineData)
  | lframe (link : Nat) (seq : BitVec 12) (msg : LMsg)
  | lreplay (link : Nat) (seq : BitVec 12)
  | lnak (link : Nat) (ack : BitVec 12)
  | lbytes (link len bytes : Nat)
  | lnonce (link : Nat) (nonce : BitVec 256)
  | report (link : Nat) (body : List (BitVec 8))
  | keyEx (link body : Nat)
  | cplData (win : Nat) (data : List (BitVec 8)) (ep : Bool)
  | cplAbort (win : Nat)
  | regData (path : Path) (v : W32)
  | cplUr (win : Nat)
  | winZero (win : Nat)
  | aer (win : Nat) (err : Nat)
  | pme (port : Nat)
  | halyard (type : Nat) (status : Nat) (body : List (BitVec 8))
  | tcpRefused
  | spdm (win : Nat) (code : Nat) (body : List (BitVec 8))
  deriving DecidableEq, Repr

/-- An attach point's link layer (R281 to R286). -/
structure Attp where
  /-- next SEQ expected (R283), reset 0 -/
  rx      : BitVec 12 := 0
  /-- SEQ of the next frame sent (R282), reset 0 -/
  tx      : BitVec 12 := 0
  /-- oldest unacknowledged SEQ (R284), reset 0 -/
  acked   : BitVec 12 := 0
  /-- discarding until the expected frame arrives, a NAK sent (R283), reset false -/
  nakd    : Bool := false
  /-- replays of the oldest frame (R286), reset 0 -/
  resent  : Nat := 0
  /-- retraining (R286), reset false -/
  retrain : Bool := false
  /-- tallies of its retrains (R286), reset none -/
  rts     : List (BitVec 64) := []
  /-- messages waiting for room or credit, in order, each with its sender (R284, R285), reset none -/
  queue   : List (Agent × Out) := []
  /-- the replay buffer: unacknowledged frames by SEQ, each a message with its sender, or idle (R284), reset empty -/
  buf     : List (BitVec 12 × Option (Agent × Out)) := []
  /-- REQ frames to be credited back (R282, R285), reset 0 -/
  reqOwed : Nat := 0
  /-- CTL frames to be credited back (R282, R285), reset 0 -/
  ctlOwed : Nat := 0
  /-- SNP credits of the chiplet (R285), reset 0 -/
  snpCr   : Nat := 0
  /-- CTL credits of the chiplet (R285), reset 0 -/
  ctlCr   : Nat := 0
  deriving DecidableEq, Repr

/-- A request held at the attach points (R311, R316): a REQ, a Cleat op, or a CTL request, of which the answer alone
matters. -/
inductive SiteMsg where
  | req (slot : Nat) (tag : BitVec 12) (pkt : Pkt)
  | sig (slot : Nat) (tag : SiteTag) (c : BitVec 16) (inc : CleatVal) (scope : BitVec 2)
  | rd (slot : Nat) (tag : SiteTag) (c : BitVec 16)
  | watch (slot : Nat) (tag : SiteTag) (c : BitVec 16) (target : CleatVal) (scope : BitVec 2) (tmo : BitVec 16)
  | ctl (slot : Nat) (op : BitVec 8) (tag : BitVec 12)
  deriving DecidableEq, Repr

/-- Where a site's link-up stands (R300). -/
inductive LinkStep where
  | idle | sideband | mainband | hello | accept | measure | verify | up
  deriving DecidableEq, Repr

/-- A chiplet site beyond its registers (07_bights.md). -/
structure Site where
  /-- the step of R300 awaited, reset idle -/
  step     : LinkStep := .idle
  /-- the face is powered: SITEk_EN (R607), reset low -/
  powered  : Bool := false
  /-- what CHIP_HELLO declared (R301), reset none -/
  hello    : Option Hello := none
  /-- base allowance in force, watts (R303), reset 0 -/
  baseNow  : Nat := 0
  /-- the BASE_W before a staged write, none when nothing is staged (R434, R566), reset none -/
  baseOld  : Option Nat := none
  /-- nonce of the MEASURE_REQ (R300), reset none -/
  nonce    : List W32 := []
  /-- digests of the MEASURE_RSP under verification and accepted (R305), reset none -/
  pendDig  : List (BitVec 512) := []
  /-- accepted digests (R305, R470), reset none -/
  digests  : List (BitVec 512) := []
  /-- certificate chain of the MEASURE_RSP under verification, its words (R301, R305), reset none -/
  pendChain : List (BitVec 64) := []
  /-- signature of the MEASURE_RSP under verification, its words (R301, R305), reset none -/
  pendSign : List (BitVec 64) := []
  /-- leaf certificate digest, pending (R305), reset 0 -/
  pendLeaf : BitVec 512 := 0
  /-- leaf certificate digest of the accepted response (R470), reset 0 -/
  leaf     : BitVec 512 := 0
  /-- link layer of the 16 attach points (R280), reset all zero -/
  aps      : List (Nat × Attp) := []
  /-- requests held at the attach points (R311), reset empty -/
  held     : List SiteMsg := []
  /-- outstanding Work: tag and command (R380), reset none -/
  works    : List (BitVec 4 × Option Nat) := []
  /-- the command of the unbinding, while one runs (R311), reset none -/
  unbind   : Option (Option Nat) := none
  /-- measure again after the unbinding (R307, R315), reset false -/
  remeas   : Bool := false
  /-- Scrub sent, ScrubDone awaited (R311), reset false -/
  scrub    : Bool := false
  /-- XlateInv sent, InvAck awaited: the commands, in order (R296, R420), reset none -/
  invals   : List Nat := []
  /-- TAG of the site's queued LeaveReq (R294, R441), reset 0 -/
  leaveTag : BitVec 12 := 0
  /-- evaluations in a row above the allowance (R316), reset 0 -/
  overA    : Nat := 0
  /-- evaluations in a row above LIMIT_W (R316), reset 0 -/
  overL    : Nat := 0
  /-- the site's REQ are held for power (R316), reset false -/
  hold     : Bool := false
  /-- severed since its latest link-up began (R314, R470), reset false -/
  severed  : Bool := false
  /-- remeasured (R470), reset false -/
  remd     : Bool := false
  /-- the chiplet's coherence states by line (R221), reset I -/
  cache    : List (Nat × CSt) := []
  /-- a site reset waits 100 ms without power (R319), reset false -/
  coolOff  : Bool := false
  deriving DecidableEq, Repr

/-- A frame in a Lanyard replay buffer (R325): its message, none of an idle frame; its replays; and its bytes as first sent. -/
structure LFrame where
  seq    : BitVec 12
  msg    : Option LMsg
  resent : Nat
  len    : Nat
  bytes  : Nat
  deriving DecidableEq, Repr

/-- A Lanyard link beyond its registers (R320 to R337). -/
structure Link where
  /-- next SEQ expected (R325), reset 0 -/
  rx       : BitVec 12 := 0
  /-- SEQ of the next frame sent (R324), reset 0 -/
  tx       : BitVec 12 := 0
  /-- the replay buffer (R325), reset empty -/
  unacked  : List LFrame := []
  /-- discarding until the expected frame arrives (R283, R325), reset false -/
  nakd     : Bool := false
  /-- fragments and messages staged for sending (R343), reset empty -/
  staged   : List LMsg := []
  /-- DATA credits (R326), reset DESIGN CHOICE 256 (log 7) -/
  dataCr   : Nat := 256
  /-- GET credits (R326), reset DESIGN CHOICE 16 (log 7) -/
  getCr    : Nat := 16
  /-- DATA frames to be credited back (R324, R326), reset 0 -/
  dataOwed : Nat := 0
  /-- GET frames to be credited back (R324, R326), reset 0 -/
  getOwed  : Nat := 0
  /-- the nonce supplied to the peer (R328), reset 0 -/
  nonce    : BitVec 256 := 0
  /-- the latest nonce that the peer supplied (R328), reset 0 -/
  peerNonce : BitVec 256 := 0
  /-- a report over it is to be sent (R328), reset false -/
  owes     : Bool := false
  /-- link keys are installed (R327, R332), reset false -/
  keys     : Bool := false
  /-- traffic secret of the transmit epoch (R329, R331), reset 0, erased -/
  txSecret : BitVec 512 := 0
  /-- traffic secret of the receive epoch (R331), reset 0, erased -/
  rxSecret : BitVec 512 := 0
  /-- traffic secret of the previous receive epoch, while frames of it may be unacknowledged (R331), reset none -/
  rxOld    : Option (BitVec 512) := none
  /-- receive key epoch (R331), reset 0 -/
  rxEpoch  : Nat := 0
  /-- message frames accepted under the receive epoch (R330, R331), reset 0 -/
  rxFrames : Nat := 0
  /-- transmit key epoch (R331), reset 0 -/
  epoch    : Nat := 0
  /-- frames first sent under the epoch (R330, R331), reset 0 -/
  frames   : Nat := 0
  /-- full trainings failed in succession (R335), reset 0 -/
  fails    : Nat := 0
  /-- narrowing holds the traffic (R335), reset false -/
  narrow   : Bool := false
  /-- tallies of its recoveries (R335), reset none -/
  recs     : List (BitVec 64) := []
  /-- tallies of its tag failures (R335), reset none -/
  tags     : List (BitVec 64) := []
  /-- tallies of the uncorrectable codewords of each wavelength (R335), reset none -/
  uncorrs  : List (Nat × List (BitVec 64)) := []
  /-- lasers emit (R630, R619), reset dark -/
  lasers   : Bool := false
  deriving DecidableEq, Repr

/-- Who made a PUT or a GET (R348, R355). -/
inductive PutOwner where
  | tile (t idx : Nat) | cmd (id : Nat) | site (k : Nat) (tag : BitVec 12)
  deriving DecidableEq, Repr

/-- A tracker of a transport engine (R348, R350, R351). -/
structure Tracker where
  /-- in use (R348), reset free -/
  busy    : Bool := false
  /-- not yet available after a LOST completion (R351), reset false -/
  quar    : Bool := false
  /-- generation TGEN (R351), reset 0 -/
  gen     : BitVec 8 := 0
  /-- bytes to cover (R350), reset 0 -/
  len     : Nat := 0
  /-- bytes covered (R350), reset 0 -/
  covered : Nat := 0
  /-- destination device (R355), reset 0 -/
  dev     : Nat := 0
  /-- handle named (R355), reset 0 -/
  handle  : Nat := 0
  /-- the tracker of a GET (R352), reset false -/
  isGet   : Bool := false
  /-- refusal reason, 0 for none (R355), reset 0 -/
  refused : Nat := 0
  /-- a source read was refused: LEN is cut to what was read before it (R298, R381), reset false -/
  denied  : Bool := false
  /-- a source read returned poison (R358, R381), reset false -/
  poison  : Bool := false
  /-- who made it (R355), reset none -/
  owner   : Option PutOwner := none
  /-- source sectors read and waiting to be sent, by offset (R298, R381), reset none -/
  srcs    : List (Nat × (BitVec 256 × Bool)) := []
  /-- source bytes read so far (R298), reset 0 -/
  got     : Nat := 0
  /-- bytes given to fragments so far (R348), reset 0 -/
  sent    : Nat := 0
  /-- first scratchpad byte of a tile's source (R131), reset 0 -/
  src     : Nat := 0
  /-- local Cleat incremented once the source is read, none for none (R131, R269), reset none -/
  lcleat  : Option (BitVec 16) := none
  /-- the reducing code of the PUT (R131), reset 0 -/
  red     : BitVec 2 := 0
  /-- offset of the region addressed (R348), reset 0 -/
  off     : Nat := 0
  /-- domain tag of the source partition (R347), reset 0 -/
  dtag    : BitVec 16 := 0
  /-- source address in memory: a DVA of a PUT command (R381), a DPA of a PutReq (R298), reset 0 -/
  srcAt   : Nat := 0
  /-- context of the source reads (R298, R381), reset 0 -/
  ctx     : BitVec 12 := 0
  /-- service class of the source reads (R318, R367), reset 0 -/
  svc     : BitVec 3 := 0
  /-- class of the source reads (R298, R381), reset bypass -/
  cached  : Bool := false
  /-- the STATUS that stopped the source reads (R298, R381), reset 0 -/
  srcSt   : BitVec 3 := 0
  /-- RHANDLE of a GET (R352), reset 0 -/
  rhandle : Nat := 0
  /-- ROFFSET of a GET (R352), reset 0 -/
  roff    : Nat := 0
  /-- the site that sent the PutReq, and the number of the next request made then (R252, R298), reset none -/
  site    : Option (Nat × Nat) := none
  /-- the link of the first fragment, of whose engine the tracker is (R348), reset none -/
  link    : Option Nat := none
  deriving DecidableEq, Repr

/-- Fragments being written at their destination (R354), those of a write-out together (R360), or a GET being read
(R352): the entry they were accepted under, the writes or reads still awaited, the refusal found, 0 for none, and the
sectors read and not yet sent. -/
structure FragRx where
  id     : Nat
  msgs   : List LMsg
  entry  : BitVec 256
  left   : Nat
  bad    : Nat
  srcs   : List (Nat × (BitVec 256 × Bool))
  sent   : Nat
  deriving DecidableEq, Repr

/-- A slot of a collective engine (R359, R360): its sums by element of the window, the sectors poisoned, and the
fragments it holds. -/
structure CollSlot where
  id     : Nat
  eng    : Nat
  handle : Nat
  pos    : Nat
  entry  : BitVec 256
  red    : BitVec 2
  sums   : List (Nat × BitVec 32)
  poison : List Nat
  msgs   : List LMsg
  deriving DecidableEq, Repr

/-- Lanyard state of the device (08_lanyards_and_domains.md). -/
structure Lanyard where
  /-- the links by number (R320), reset dark and OFF -/
  links    : List (Nat × Link) := []
  /-- trackers, by engine * 2048 + number (R348), reset free -/
  trackers : List (Nat × Tracker) := []
  /-- PUTs and GETs of commands and sites that wait for a tracker, in order (R348), reset empty -/
  waitPut  : List Tracker := []
  /-- fragments that a link gave back or that are relayed, waiting for room at an engine, in order (R343, R346, R357), reset empty -/
  waitMsg  : List LMsg := []
  /-- next MSN to each device (R347, R348), reset 0 -/
  msnTx    : List (Nat × BitVec 32) := []
  /-- MSNs received of each device, the last 4,096 (R349), reset none -/
  msnRx    : List (Nat × List (BitVec 32)) := []
  /-- the handle table: raw 32-byte entries (R353), reset VALID 0 -/
  handles  : List (Nat × BitVec 256) := []
  /-- fragments being written (R354), reset none -/
  frags    : List FragRx := []
  /-- the next fragment number, reset 0 -/
  fragCtr  : Nat := 0
  /-- collective slots, oldest first (R359), reset none -/
  slots    : List CollSlot := []
  /-- latest ROUTE of each device reached: REACH with bit 25 RELAY (R344, R345), reset none -/
  reach    : List (Nat × BitVec 26) := []
  /-- fibre attach units present (R619), reset DESIGN CHOICE all (log 3) -/
  fau      : BitVec 6 := 0x3F
  /-- the applied domain table (R339), reset none -/
  table    : Option DomainTable := none
  /-- a table waiting for the domain to be taken down (R340), reset none -/
  pending  : Option DomainTable := none
  /-- the domain has been started: LNK_DOM2.START (R355), reset false -/
  started  : Bool := false
  /-- the domain is being taken down (R340), reset false -/
  stopping : Bool := false
  /-- links whose rotating turn is next, by device (R343), reset 0 -/
  turn     : List (Nat × Nat) := []
  deriving DecidableEq, Repr

/-- A packet read whole and not yet started (R372): its number in the order of sealing, the number of the next request at
its sealing (R263), and the tally when it was read. -/
structure Packet where
  bytes  : List (BitVec 8)
  order  : Nat
  mark   : Nat
  since  : BitVec 64
  deriving DecidableEq, Repr

/-- A command lane (R364, R369, R372). -/
structure Lane where
  /-- the ring's bytes (R364), reset DESIGN CHOICE 0 (log 7) -/
  ring    : List Host.Cell := []
  /-- head H (R372), reset 0 -/
  h       : Nat := 0
  /-- sealed end E (R369), reset 0 -/
  e       : Nat := 0
  /-- sealed bytes from H to E (R372), reset 0 -/
  full    : Nat := 0
  /-- expected sequence number X (R369), reset 0 -/
  x       : BitVec 16 := 0
  /-- the sealed packets from H: length in bytes, order of sealing, number of the next request then (R263, R372), reset none -/
  sealed  : List (Nat × Nat × Nat) := []
  /-- the packet read and not started, the lane's head (R385), reset none -/
  heads   : List Packet := []
  /-- FAULTED cause, 0 for none (R376, R370), reset 0 -/
  fault   : Nat := 0
  /-- a flush waits for the packet boundary: ABORT, the cause coded as R392, packets sealed before it (R394), reset none -/
  flush   : Option (Bool × Nat × Nat) := none
  /-- a lane reset waits for running commands: X after it (R395), reset none -/
  rst     : Option (BitVec 16) := none
  deriving DecidableEq, Repr

/-- A write to a lane or an access of an aperture that a port holds behind a write to a full lane (R373, R374). -/
inductive HeldAcc where
  | lane (win : Win) (lane off : Nat) (data : List (BitVec 8))
  | aper (win : Win) (n off : Nat) (write : Option (List (BitVec 8))) (len : Nat) (poisoned : Bool)
  deriving DecidableEq, Repr

/-- A started command until its end (R385 to R393): `left` counts what its body still awaits, `poison` tells that a source
read met poison, `tEnd` is the tally at step 1 of R390, and `mute` a command that writes no reply record (R395, R396). -/
structure Run where
  id      : Nat
  win     : Win
  lane    : Nat
  bytes   : List (BitVec 8)
  order   : Nat
  halyard : Bool
  tStart  : BitVec 64
  body    : Bool
  status  : Option (BitVec 8)
  detail  : BitVec 24
  left    : Nat
  guard   : Guard
  res     : List (BitVec 64)
  groups  : List Nat
  leave   : Bool
  stopped : Bool
  replied : Bool
  poison  : Bool
  mark    : Nat
  mute    : Bool
  tEnd    : Option (BitVec 64)
  /-- pages, first and end, whose requests an invalidation awaits (R420) -/
  pages   : List (Nat × Nat) := []
  deriving DecidableEq, Repr

/-- Command windows and running commands (09_commands.md). -/
structure Cmds where
  /-- lanes, by window (port * 9 + function) * 4 + lane (R364), reset empty -/
  lanes   : List (Nat × Lane) := []
  /-- started commands (R385), reset none -/
  runs    : List Run := []
  /-- next command number, reset 1 -/
  nextId  : Nat := 1
  /-- order of sealing, a count (R385), reset 0 -/
  seals   : Nat := 0
  /-- transactions held at port W, oldest first (R373, R374), reset none -/
  heldW   : List HeldAcc := []
  /-- as heldW, port E (R373), reset none -/
  heldE   : List HeldAcc := []
  /-- reply records in the control windows, by port * 64 + slot (R364, R365), reset zero -/
  slots   : List (Nat × BitVec 512) := []
  /-- sequence slots: raw 16-byte entries (R143), reset VALID 0 -/
  seqdir  : List (Nat × BitVec 128) := []
  /-- the window of the latest start of each half's packet sequencer, by half (R386), reset none, DESIGN CHOICE (log 7) -/
  turn    : List (Nat × Option Nat) := []
  /-- the half of the sequencer of the latest control command (R389), reset none, DESIGN CHOICE (log 7) -/
  ctlTurn : Option Half := none
  deriving DecidableEq, Repr

/-- A copy of a range entry in a range cache (R404, R407). -/
structure RangeEnt where
  owner : Agent
  ctx   : BitVec 12
  start : Nat
  len   : Nat
  base  : Nat
  r     : Bool
  w     : Bool
  a     : Bool
  raw   : BitVec 128
  deriving DecidableEq, Repr

/-- What a translation fault holds (R411). -/
inductive HeldWhat where
  | accs (l : List DvaAcc)
  | xlate (k : Nat) (tag : BitVec 12) (slot : Nat)
  | tileRead (t : Nat)
  deriving DecidableEq, Repr

/-- A request held by a translation fault (R411, R412); `rec` is its record, none while none is free. -/
structure XHeld where
  part  : Nat
  rcd   : Option Nat
  ctx   : BitVec 12
  kind  : Nat
  index : Nat
  dva   : Dva
  agent : Agent
  cmd   : Option Nat
  what  : HeldWhat
  deriving DecidableEq, Repr

/-- Translation (10_ranges_and_contexts.md). -/
structure Xlt where
  /-- table header of each valid context (R401, R402), reset not valid -/
  tables : List (Nat × Option Dpa) := []
  /-- the range caches and walker caches, most recent first (R407), reset empty -/
  caches : List RangeEnt := []
  /-- requests held by translation faults, in the order they faulted (R412), reset none -/
  held   : List XHeld := []
  deriving DecidableEq, Repr

/-- A queued leave request (R439, R440). -/
structure LeaveQ where
  who   : LeaveWho
  part  : Option Nat
  watts : Nat
  durUs : Nat
  half  : Half
  tally : BitVec 64
  deriving DecidableEq, Repr

/-- The power governor beyond its registers (11_sharing.md). -/
structure Power where
  /-- queued leave requests, head first (R440), reset empty -/
  queue    : List LeaveQ := []
  /-- leave granted and not returned (R434), reset none -/
  grants   : List (LeaveWho × Nat) := []
  /-- staged VTARGET (R436), reset none -/
  vStaged  : Option Nat := none
  /-- VTARGET in force (R435), reset 2: 0.75 V -/
  vNow     : Nat := 2
  /-- the package-draw throttle holds: steps of rail lowered (R445), reset 0 -/
  pkgSteps : Nat := 0
  /-- gate cap of the package-draw throttle (R445), reset 16 -/
  pkgGate  : Nat := 16
  /-- samples in a row below 0.95 * PKG_W (R445), reset 0 -/
  calm     : Nat := 0
  /-- the package-draw throttle is in force (R445), reset false -/
  pkgOn    : Bool := false
  /-- rail steps lowered by a half's junction, West (R445), reset 0 -/
  junW     : Nat := 0
  /-- as junW, East (R445), reset 0 -/
  junE     : Nat := 0
  /-- junction gate caps: West, East (R445), reset 16 -/
  jgateW   : Nat := 16
  /-- as jgateW, East (R445), reset 16 -/
  jgateE   : Nat := 16
  /-- the junction throttles are in force: above 100 °C, West and East (R445), reset false -/
  jOnW     : Bool := false
  /-- as jOnW, East (R445), reset false -/
  jOnE     : Bool := false
  /-- above 105 °C, West (R445), reset false -/
  jHotW    : Bool := false
  /-- above 105 °C, East (R445), reset false -/
  jHotE    : Bool := false
  /-- gate cap of each stack's temperature (R445), reset 16 -/
  stkGate  : List (Nat × Nat) := []
  /-- the stack-temperature caps still in force, as the cap that releases toward (R445), reset 16 -/
  stkWant  : List (Nat × Nat) := []
  deriving DecidableEq, Repr

/-- What a whipping answers to (R462, R467, R505). -/
inductive WhipFor where
  | destroy (id : Nat) | flr | alarm
  deriving DecidableEq, Repr

/-- A partition beyond its registers (R450, R469). -/
structure Part where
  /-- the partition's function (R450), reset none -/
  win      : Option Win := none
  /-- domain tag (R450), reset 0 -/
  dtag     : BitVec 16 := 0
  /-- tally at the latest creation (R469), reset 0 -/
  created  : BitVec 64 := 0
  /-- tally at the end of the latest whipping (R469), reset 0 -/
  whipAt   : BitVec 64 := 0
  /-- its duration in µs (R469), reset 0 -/
  whipUs   : Nat := 0
  /-- its flags (R469), reset 0 -/
  whipFl   : Nat := 0
  /-- tally at which its zero-fill emptied (R469), reset 0 -/
  zfillAt  : BitVec 64 := 0
  /-- the whipping in progress (R464), reset none -/
  whip     : Option WhipFor := none
  /-- a second reason that waits for the whipping (R485, R509), reset none -/
  also     : Option WhipFor := none
  /-- a site was severed during the whipping (R486), reset false -/
  sev      : Bool := false
  deriving DecidableEq, Repr

/-- A shared set (R454, R457). -/
structure SSet where
  /-- the set exists: slot 8 + s is loaded (R454), reset false -/
  live     : Bool := false
  /-- RO 1 (R454), reset false -/
  sealed   : Bool := false
  /-- WRITER (R454), reset 0 -/
  writer   : Nat := 0
  /-- its granule ranges in order: FIRST and COUNT (R454, R458), reset none -/
  ranges   : List (Nat × Nat) := []
  /-- its mirrors exist (R458), reset false -/
  mirrors  : Bool := false
  deriving DecidableEq, Repr

/-- TDISP states of a virtual function (R475). -/
inductive Tdi where
  | unlocked | locked | run | error
  deriving DecidableEq, Repr

/-- Security beyond its registers (12_security.md). -/
structure Security where
  /-- partitions by number (R450), reset none exist -/
  parts    : List (Nat × Part) := []
  /-- shared sets by number (R454), reset none -/
  sets     : List (Nat × SSet) := []
  /-- the life-cycle word belongs to no state (R483), reset false -/
  torn     : Bool := false
  /-- DIK, AK and sealing key exist (R460), reset absent until stage 0 -/
  idKeys   : Bool := false
  /-- management cores halted by an alarm of level 3 (R481), reset false -/
  halted   : Bool := false
  /-- a Halyard session is open (R477), reset closed -/
  session  : Bool := false
  /-- tallies of the failed handshakes (R480), reset none -/
  hsFails  : List (BitVec 64) := []
  /-- tally at which the port began to refuse connections (R480), reset none -/
  hsShut   : Option (BitVec 64) := none
  /-- a REG message that waits for a Seizing (R571), reset none -/
  regWait  : Option RegMsg := none
  /-- digest of the enrolled anchor (R478), reset none -/
  anchor   : Option Nat := none
  /-- image transfer in progress (R476, R479), reset false -/
  fwBusy   : Bool := false
  /-- bytes transferred, as (offset, length) (R479), reset none -/
  fwData   : List (Nat × Nat) := []
  /-- verified image awaiting activation: digest, SVN, RAISE_SVN (R476, R479), reset none -/
  fwPend   : Option (BitVec 512 × Nat × Bool) := none
  /-- running image digest and SVN (R468), reset 0 -/
  fwRun    : BitVec 512 × Nat := (0, 0)
  /-- digest of the image in slot A, none for one that no commit has brought (R476, R522), reset none -/
  fwA      : Option (BitVec 512) := none
  /-- as fwA, slot B, reset none -/
  fwB      : Option (BitVec 512) := none
  /-- the SVN that becomes SVN_MIN when the boot completes (R476, R479), reset none -/
  raise    : Option Nat := none
  /-- target of the transition that burns (R483), reset none -/
  burning  : Option Nat := none
  /-- alarms deferred by the burn: source row and level (R483), reset none -/
  deferred : List (Nat × Nat) := []
  /-- an alarm has acted at level 2 or above since cold boot (R468), reset false -/
  alarm2   : Bool := false
  /-- authorised debug has been opened since cold boot (R468), reset false -/
  dbgEver  : Bool := false
  /-- TDISP state of each virtual function, by window (R475), reset CONFIG_UNLOCKED -/
  tdis     : List (Nat × Tdi) := []
  /-- functions whose IDE stream holds keys (R460), reset none -/
  ide      : List Nat := []
  /-- functions whose key exchange awaits FINISH (R473), reset none -/
  keyEx    : List Nat := []
  /-- functions with an SPDM session (R473), reset none -/
  spdm     : List Nat := []
  deriving DecidableEq, Repr

/-- An aperture read on its way (R251, R421, R504): its window, the writes that it follows are those before request number
`mark`, its first byte within the first sector and its length, sectors awaited and received by number, poison met, refused. -/
structure HostRead where
  id     : Nat
  win    : Nat
  mark   : Nat
  off    : Nat
  len    : Nat
  left   : Nat
  got    : List (Nat × BitVec 256)
  poison : Bool
  failed : Bool
  deriving DecidableEq, Repr

/-- A posted write that waits for the earlier ones of its port (R251): its window, its number among the requests made, its sector
writes with their DPAs where it is of an aperture, and its value where it is of XLT_RETRY (true) or XLT_CANCEL (R414). -/
structure Posted where
  win  : Nat
  mark : Nat
  accs : List (DvaAcc × Nat)
  recs : Option (Bool × BitVec 32)
  deriving DecidableEq, Repr

/-- Host ports beyond their registers (13_host_ports.md). -/
structure Ports where
  /-- configuration bits of the functions, by window * 128 + number (R490, R498, R502), reset 0 -/
  cfg      : List (Nat × Bool) := []
  /-- errors whose headers the functions' logs hold, oldest first, by window (R503), reset none -/
  aerLog   : List (Nat × List Nat) := []
  /-- functions in D3hot, by window (R510), reset D0 -/
  d3       : List Nat := []
  /-- MSI-X pending bits: window * 8 + vector (R498), reset none -/
  pending  : List Nat := []
  /-- aperture reads not completed, oldest first (R251, R499), reset none -/
  reads    : List HostRead := []
  /-- posted writes not yet performed nor sent, in order of arrival (R251), reset none -/
  posted   : List Posted := []
  /-- number of the next aperture read, reset 0 -/
  readCtr  : Nat := 0
  /-- a physical-function reset waits for lanes and virtual functions, by port (R507), reset none -/
  pfWait   : List Nat := []
  /-- D3cold: the main rails are off (R511), reset false -/
  railsOff : Bool := false
  /-- a port answers configuration requests with Request Retry Status (R513), reset true -/
  crsW     : Bool := true
  /-- as crsW, port E (R513), reset true -/
  crsE     : Bool := true
  /-- PERSTW_N is asserted (R508), reset DESIGN CHOICE asserted (log 7) -/
  perstW   : Bool := true
  /-- as perstW, PERSTE_N (R508), reset DESIGN CHOICE asserted (log 7) -/
  perstE   : Bool := true
  /-- tally at which WAKEW_N and WAKEE_N were last driven low, for 100 ms (R512), reset none -/
  wakeAt   : Option (BitVec 64) := none
  deriving DecidableEq, Repr

/-- Kinds of a half's reset (R544). -/
structure HalfSt where
  /-- stage being worked, 5 when complete (R521), reset DESIGN CHOICE 0 (log 7) -/
  stage    : Nat := 0
  /-- the core rail runs and the half has been released from reset (R521), reset false -/
  live     : Bool := false
  /-- leaving a warm reset, with its kind unplanned (R547, R548), reset none -/
  warm     : Option Bool := none
  /-- the cause of a held request to reset this half (R550), reset none -/
  heldReq  : Option Nat := none
  /-- tallies of the latest warm resets (R544), reset none -/
  resets   : List (BitVec 64) := []
  /-- a window of the step rate began once the half had completed its clocks-and-fabric stage (R51), reset false -/
  window   : Bool := false
  /-- the management core is restarting (R542), reset false -/
  core     : Bool := false
  /-- tallies of its latest restarts (R543), reset none -/
  restarts : List (BitVec 64) := []
  deriving DecidableEq, Repr

/-- Entries of the repair record (R528). -/
inductive Repair where
  | channel (c : Nat) | soft (n : Nat) | group (g : Nat) | slice (n : Nat)
  deriving DecidableEq, Repr

/-- Bring-up and faults beyond the registers (14_bringup_and_faults.md). -/
structure Boot where
  /-- the West half (R521), reset in reset -/
  west     : HalfSt := {}
  /-- the East half (R521), reset in reset -/
  east     : HalfSt := {}
  /-- which contents the West management core's SRAM holds: its latest loading (R40, R522, R542), reset 0, not loaded (log 7) -/
  sramW    : Nat := 0
  /-- as sramW, East (R40, R522, R542), reset 0, not loaded (log 7) -/
  sramE    : Nat := 0
  /-- RESET_N deasserted (R521), reset asserted -/
  run      : Bool := false
  /-- what the latest cold boot met (R521), reset none -/
  env      : Option BootEnv := none
  /-- the repair record in the boot flash (R528, R532), reset empty -/
  record   : List Repair := []
  /-- Subsystem Vendor ID and Subsystem ID of the board record in the boot flash (R489), reset DESIGN CHOICE absent (log 3) -/
  board    : Option (BitVec 16 × BitVec 16) := none
  /-- tile groups withdrawn (R540), reset none -/
  gone     : List Nat := []
  /-- groups that passed their test and are available (R521), reset none -/
  groups   : List Nat := []
  /-- the full march runs at this boot (R526), reset false -/
  full     : Bool := false
  /-- THERMTRIP_N driven low (R615), reset released -/
  trip     : Bool := false
  /-- an attention indicator reason stands: level-3 alarm or a failing boot (R519), reset false -/
  attn     : Bool := false
  deriving DecidableEq, Repr

/-- A record of the synchronisation trace (R592). -/
structure TraceRec where
  tally   : BitVec 64
  kind    : Nat
  agent   : Agent
  cleat   : BitVec 16
  value   : CleatVal
  arg     : CleatVal
  waker   : Option Agent
  part    : Nat
  dropped : Nat
  trig    : Bool
  deriving DecidableEq, Repr

/-- The Fid beyond its registers (15_registers_and_fid.md). -/
structure Fid where
  /-- staged records, West, at most 512 (R593), reset empty -/
  queueW  : List TraceRec := []
  /-- as queueW, East (R593), reset empty -/
  queueE  : List TraceRec := []
  /-- records dropped since the last one written (R593), reset 0 -/
  dropped : Nat := 0
  /-- the trigger is armed (R595), reset false -/
  armed   : Bool := false
  /-- sample numbers of the buffers (R589), reset 0 -/
  seqs    : List (Nat × Nat) := []
  /-- a sample of the buffer has been skipped (R589), reset false -/
  late    : List Nat := []
  /-- snapshot holding copies, by field key (R572), reset 0 -/
  snap    : List (Nat × Nat) := []
  /-- halves that have not yet answered the broadcast (R572), reset none -/
  snapOut : List Half := []
  /-- high words latched, by path * 2^32 + address (R562), reset 0 -/
  latch   : List (Nat × Option Nat) := []
  /-- owners of the Seizings (R568), reset free -/
  seize   : List (Nat × Option Path) := []
  /-- commands and messages waiting for a Seizing (R571), reset none -/
  waiting : List Nat := []
  /-- a pass of the seal scanner is valid: nothing sealed has changed since it began (R578), reset true -/
  passOk  : Bool := true
  deriving DecidableEq, Repr

/-- The state of the device. -/
structure State where
  /-- the commands waiting, first in first out (the model's queue), reset empty -/
  pending : List Instr := []
  /-- fuses and fused record (R2, R11), reset as Fuse gives (log 3) -/
  fuse    : Fuse := {}
  /-- the tally, 1 GHz (R581, R583), reset 0: it starts with the always-on rail -/
  tally   : BitVec 64 := 0
  /-- the free-value counter: the MODEL's own field (log 6), reset DESIGN CHOICE 0 -/
  freeCtr : Nat := 0
  /-- the register fields, by field key, at their table's reset value where unlisted (R556 to R564), reset none listed but the fused ones (log 3) -/
  regs    : List (Nat × Nat) := []
  /-- mesh, tags, homes, proxies, reset empty -/
  fab     : Fabric := {}
  /-- Hank memory, reset as Hank gives -/
  hank    : Hank := {}
  /-- the tiles by number (R108), reset idle -/
  tiles   : List (Nat × Tile) := []
  /-- the Cleat banks (R27), reset zero -/
  cleats  : Cleats := {}
  /-- the sites by number (R275), reset unpowered -/
  sites   : List (Nat × Site) := []
  /-- Lanyard links, engines, handles, reset as Lanyard gives -/
  lan     : Lanyard := {}
  /-- command windows, reset empty -/
  cmds    : Cmds := {}
  /-- translation, reset empty -/
  xlt     : Xlt := {}
  /-- power governor, reset as Power gives -/
  pwr     : Power := {}
  /-- security, reset as Security gives -/
  sec     : Security := {}
  /-- host ports, reset as Ports gives -/
  ports   : Ports := {}
  /-- bring-up, reset as Boot gives -/
  boot    : Boot := {}
  /-- Fid, snapshot, Seizings, seal scanner, reset as Fid gives -/
  fid     : Fid := {}
  /-- location records taken and not yet read: 0 MEM_EVLOC, 1 COH_EVLOC, 2 XLT_DENY, 3 LNK_REFUSE (R192, R242, R423), reset none -/
  unread  : List Nat := []
  /-- what has been sent out, in order: the MODEL's record of outputs (log 8), reset empty -/
  out     : List Out := []
  deriving DecidableEq, Repr

/-- Why a step can stop. Raised where an event names a unit that the part does not have (R2, R560); safe: the event
cannot occur on that part. -/
inductive Fault where
  /-- raised by Ops.present checks: the named half, tile, stack, link, site or channel is not on a TVH1204; safe -/
  | absentUnit
  deriving DecidableEq, Repr

/-- Why a command has no meaning here. -/
inductive Refusal where
  /-- raised by exec for a row without a meaning; safe -/
  | notModelled (mnemonic : String)
  deriving DecidableEq, Repr

/-- The device right after reset: RESET_N has not yet been deasserted, so that COLD_BOOT is the first event (R521).
The part is an unpopulated TVH2408 in life-cycle state Production (log 3): the fused fields of SEC_LC and HUB_POPCODE
read so. -/
def State.reset : State :=
  { regs := [(R.HUB_POPCODE_CHAR0.key 0 0, 0x30), (R.HUB_POPCODE_CHAR1.key 0 0, 0x30),
             (R.HUB_POPCODE_CHAR2.key 0 0, 0x30), (R.HUB_POPCODE_CHAR3.key 0 0, 0x30),
             (R.SEC_LC_STATE.key 0 0, 2)] }

end Sys2Proof.Machine
end

