-- ==== Sys2Proof/Machine/Ops.lean ====
section
/-! DEFINITION. The named operations over tables, register fields, the address map, ownership, memory sectors, messages
to the host and the free values: what every family of commands shares. -/

namespace Sys2Proof

def Half.num : Half → Nat
  | .west => 0
  | .east => 1

def Half.other : Half → Half
  | .west => .east
  | .east => .west

def Port.num : Port → Nat
  | .w => 0
  | .e => 1

/-- The path numbers of HUB_REGEVENT.PATH (R597). -/
def Path.num : Path → Nat
  | .portW => 1
  | .portE => 2
  | .west => 3
  | .east => 4

/-- Window number: port * 9 + function (R364). -/
def Win.idx (w : Win) : Nat := w.port.num * 9 + w.fn.val

/-- Numbers of the configuration bits of a function in Ports.cfg; the bit of a vector tells that it is not masked, since its mask is 1
at reset (PRESUMED, as PCI Express has it), and the bit of a severity that it is not its reset value (R502). -/
def CfgReg.num : CfgReg → Nat
  | .busMaster => 0
  | .vfEnable => 1
  | .pmeEn => 2
  | .aerMask i => 32 + i.val
  | .aerSeverity i => 64 + i.val
  | .aerStatus i => 96 + i.val
  | .msixMask v => 16 + v.val
  | .msixEnable => 3

/-- Coding of the requesting agent kind in a header (R196). -/
def Agent.code (a : Agent) : Nat :=
  match a.kind with
  | .site => a.num
  | .tile => 8
  | .port => 9
  | .pseq => 10
  | .lanyard => 11
  | .mgmt => 12
  | .proxy => 13
  | .home | .channel | .cleatBank | .splice => 14

end Sys2Proof

namespace Sys2Proof.Machine

/-- The outcome of a command. -/
abbrev Res := Host.Outcome State Fault Refusal

/-! ## Tables in canonical form -/

/-- The value a table gives a key: the listed one, else the default. -/
def tget {α : Type} (d : Nat → α) : List (Nat × α) → Nat → α
  | [], k => d k
  | (k', v) :: r, k => if k' = k then v else tget d r k

/-- Drops the entries whose key fails the test. -/
def tkeep {α : Type} (p : Nat → Bool) (l : List (Nat × α)) : List (Nat × α) := l.filter fun e => p e.1

/-- Puts an entry before the first larger key. -/
def tput {α : Type} : List (Nat × α) → Nat → α → List (Nat × α)
  | [], k, v => [(k, v)]
  | e :: r, k, v => if k < e.1 then (k, v) :: e :: r else e :: tput r k v

/-- Writes a value, keeping keys rising and listing no default. -/
def tset {α : Type} [DecidableEq α] (d : Nat → α) (l : List (Nat × α)) (k : Nat) (v : α) : List (Nat × α) :=
  let r := tkeep (fun j => j != k) l
  if v = d k then r else tput r k v

/-- Keys are at least lo and strictly rising, and no entry equals the default. -/
def tableWf {α : Type} [DecidableEq α] (d : Nat → α) : Nat → List (Nat × α) → Bool
  | _, [] => true
  | lo, (k, v) :: r => decide (lo ≤ k) && decide (v ≠ d k) && tableWf d (k + 1) r

/-- An element appended to a list that does not yet hold it. -/
def addOnce {α : Type} [DecidableEq α] (a : α) (l : List α) : List α := if a ∈ l then l else l ++ [a]

/-- The canonical form of device memory: addresses strictly rising, no byte equal to what an unlisted address reads as. -/
def Memory.wf (m : List Host.Cell) : Bool := tableWf (fun _ => 0) 0 m

/-- A byte of memory: an address that is not listed reads as 0 (log 5). -/
def memByte (m : List Host.Cell) (a : Nat) : BitVec 8 := tget (fun _ => 0) m a

/-- Writes one byte of memory. -/
def memSet (m : List Host.Cell) (a : Nat) (b : BitVec 8) : List Host.Cell := tset (fun _ => 0) m a b

/-- n bytes from address a, little-endian (R20). -/
def memRead (m : List Host.Cell) (a : Nat) : Nat → Nat
  | 0 => 0
  | n + 1 => (memByte m a).toNat + 256 * memRead m (a + 1) n

/-- Writes the bytes of v from address a, little-endian; byte i only where the mask has bit i. -/
def memWrite (m : List Host.Cell) (a v mask : Nat) : Nat → List Host.Cell
  | 0 => m
  | n + 1 =>
    let m' := if mask % 2 = 1 then memSet m a (BitVec.ofNat 8 v) else m
    memWrite m' (a + 1) (v / 256) (mask / 2) n

/-! ## Register fields -/

/-- The stored value of a register field. -/
def State.fget (s : State) (f : Fld) (inst n : Nat) : Nat := tget (fun _ => f.reset) s.regs (f.key inst n)

/-- Stores a value into a register field; its bits above the field are dropped. -/
def State.fset (s : State) (f : Fld) (inst n v : Nat) : State :=
  { s with regs := tset (fun _ => f.reset) s.regs (f.key inst n) (v % f.size) }

/-- Adds to a counting field that saturates. -/
def State.fadd (s : State) (f : Fld) (inst n k : Nat) : State := s.fset f inst n (min (s.fget f inst n + k) f.top)

/-- Whether a one-bit field is 1. -/
def State.fbit (s : State) (f : Fld) (inst n : Nat) : Bool := s.fget f inst n == 1

/-- Bit i of a field that is a vector of bits. -/
def State.fvec (s : State) (f : Fld) (inst n i : Nat) : Bool := (s.fget f inst n).testBit i

/-- Writes bit i of a field that is a vector of bits. -/
def State.fsetBit (s : State) (f : Fld) (inst n i : Nat) (b : Bool) : State :=
  let v := s.fget f inst n
  s.fset f inst n (if b then v ||| 2 ^ i else if v.testBit i then v - 2 ^ i else v)

/-- Returns fields to their reset values. -/
def State.fresetAll (s : State) (inst n : Nat) : List Fld → State
  | [] => s
  | f :: r => State.fresetAll (s.fset f inst n f.reset) inst n r

/-! ## Halves, presence and simple accessors -/

/-- The outcome of an event at a unit: a fault where the part lacks the unit (R2). -/
def atUnit (present : Bool) (t : State) : Res := if present then .next t else .fault .absentUnit

/-- A step that acts only where its event is enabled (log 1). -/
def whenever (s : State) (enabled : Bool) (t : State) : Res := if enabled then .next t else .next s

/-- The window of an index. -/
def winOf (i : Nat) : Win := ⟨if i < 9 then .w else .e, ⟨i % 9, Nat.mod_lt _ (by decide)⟩⟩

/-- Whether the part has the half (R2). -/
def State.hasHalf (s : State) (h : Half) : Bool := h == .west || !s.fuse.small

def State.nTiles (s : State) : Nat := if s.fuse.small then 48 else 96
def State.nStacks (s : State) : Nat := if s.fuse.small then 4 else 8
def State.nLinks (s : State) : Nat := if s.fuse.small then 12 else 24
def State.nGroups (s : State) : Nat := if s.fuse.small then 12 else 24
def State.nChans (s : State) : Nat := if s.fuse.small then 512 else 1024

def tileHalf (t : Nat) : Half := if t < 48 then .west else .east
def stackHalf (k : Nat) : Half := if k < 4 then .west else .east
def linkHalf (l : Nat) : Half := if l < 12 then .west else .east
def chanHalf (c : Nat) : Half := if c < 512 then .west else .east
def groupHalf (g : Nat) : Half := if g < 12 then .west else .east

/-- Half of the router at which a port attaches (R28, R42). -/
def State.portHalf (s : State) (p : Port) : Half :=
  match p with
  | .w => .west
  | .e => if s.fuse.small then .west else .east

def State.half (s : State) (h : Half) : HalfSt :=
  match h with
  | .west => s.boot.west
  | .east => s.boot.east

def State.setHalf (s : State) (h : Half) (x : HalfSt) : State :=
  match h with
  | .west => { s with boot := { s.boot with west := x } }
  | .east => { s with boot := { s.boot with east := x } }

/-- The half is released from reset and not in warm reset. -/
def State.halfLive (s : State) (h : Half) : Bool := (s.half h).live && (s.half h).warm.isNone

/-- The half has completed its clocks-and-fabric stage (R51). -/
def State.halfUp (s : State) (h : Half) : Bool :=
  match h with
  | .west => s.fbit R.HUB_ORG_WEST_UP 0 0
  | .east => s.fbit R.HUB_ORG_EAST_UP 0 0

/-- The Splice is open (R37, R51). -/
def State.spliceOpen (s : State) : Bool := s.fbit R.HUB_SPLICE_OPEN 0 0

def State.tile (s : State) (t : Nat) : Tile := tget (fun _ => {}) s.tiles t
def State.setTile (s : State) (t : Nat) (x : Tile) : State := { s with tiles := tset (fun _ => {}) s.tiles t x }
def State.site (s : State) (k : Nat) : Site := tget (fun _ => {}) s.sites k
def State.setSite (s : State) (k : Nat) (x : Site) : State := { s with sites := tset (fun _ => {}) s.sites k x }
def State.link (s : State) (l : Nat) : Link := tget (fun _ => {}) s.lan.links l
def State.setLink (s : State) (l : Nat) (x : Link) : State :=
  { s with lan := { s.lan with links := tset (fun _ => {}) s.lan.links l x } }
def State.part (s : State) (p : Nat) : Part := tget (fun _ => {}) s.sec.parts p
def State.setPart (s : State) (p : Nat) (x : Part) : State :=
  { s with sec := { s.sec with parts := tset (fun _ => {}) s.sec.parts p x } }
def State.lane (s : State) (i : Nat) : Lane := tget (fun _ => {}) s.cmds.lanes i
def State.setLane (s : State) (i : Nat) (x : Lane) : State :=
  { s with cmds := { s.cmds with lanes := tset (fun _ => {}) s.cmds.lanes i x } }
def State.line (s : State) (l : Nat) : Line := tget (fun _ => {}) s.fab.lines l
def State.setLine (s : State) (l : Nat) (x : Line) : State :=
  { s with fab := { s.fab with lines := tset (fun _ => {}) s.fab.lines l x } }
def State.pline (s : State) (l : Nat) : PLine := tget (fun _ => {}) s.fab.plines l
def State.setPline (s : State) (l : Nat) (x : PLine) : State :=
  { s with fab := { s.fab with plines := tset (fun _ => {}) s.fab.plines l x } }
def State.cleat (s : State) (c : Nat) : Cleat := tget (fun _ => {}) s.cleats.vals c
def State.setCleat (s : State) (c : Nat) (x : Cleat) : State :=
  { s with cleats := { s.cleats with vals := tset (fun _ => {}) s.cleats.vals c x } }
def State.own (s : State) (g : Nat) : OwnRec := tget (fun _ => {}) s.hank.own g
def State.run (s : State) (id : Nat) : Option Run := s.cmds.runs.find? fun r => r.id == id

/-- Replaces the running command of the same number. -/
def State.setRun (s : State) (r : Run) : State :=
  { s with cmds := { s.cmds with runs := s.cmds.runs.map fun x => if x.id = r.id then r else x } }

/-- The partition exists (R450). -/
def State.partExists (s : State) (p : Nat) : Bool := s.fbit R.SEC_PART_EXISTS 0 p
/-- Any partition exists. -/
def State.anyPart (s : State) : Bool := (List.range 8).any s.partExists
/-- The partition whose function the window is (R450). -/
def State.partOfWin (s : State) (w : Win) : Option Nat :=
  (List.range 8).find? fun p => s.partExists p && ((s.part p).win == some w)
/-- Partition owning a tile group, from the allocation registers (R25, R150). -/
def State.groupOwner (s : State) (g : Nat) : Option Nat :=
  if s.fbit R.HUB_TGOWN_OWNED g 0 then some (s.fget R.HUB_TGOWN_PART g 0) else none
/-- The partition a site is bound to (R308): SITE_STAT.STATE 3 names it. -/
def State.sitePart (s : State) (k : Nat) : Option Nat :=
  if s.fget R.SITE_STAT_STATE k 0 == 4 then some (s.fget R.SITE_STAT_PART k 0) else none

def State.pushOut (s : State) (o : Out) : State := { s with out := s.out ++ [o] }

/-- Draws a free value's number (log 6). -/
def State.bump (s : State) : State := { s with freeCtr := s.freeCtr + 1 }

/-! ## MSI-X and events -/

def State.cfgBit (s : State) (win : Nat) (n : Nat) : Bool := tget (fun _ => false) s.ports.cfg (win * 128 + n)

def State.setCfg (s : State) (win n : Nat) (b : Bool) : State :=
  { s with ports := { s.ports with cfg := tset (fun _ => false) s.ports.cfg (win * 128 + n) b } }

/-- The function is in D3hot, or its port's physical function is (R510). -/
def State.inD3 (s : State) (win : Nat) : Bool := s.ports.d3.contains win || s.ports.d3.contains (win / 9 * 9)

/-- A virtual function without a partition, or whose partition is being whipped, sends no message and takes no access (R466, R492,
R505). -/
def State.fnSilent (s : State) (win : Nat) : Bool :=
  win % 9 != 0 && (match s.partOfWin (winOf win) with | none => true | some p => (s.part p).whip.isSome)

/-- Whether a function may send the MSI-X message of a vector now (R498, R510). -/
def State.msixOpen (s : State) (win vec : Nat) : Bool :=
  s.cfgBit win 0 && s.cfgBit win 3 && s.cfgBit win (16 + vec) && !s.inD3 win

/-- MSIX_SEND (R496, R498): sends the message, or sets the pending bit while it is held back. -/
def State.msix (s : State) (win vec : Nat) : State :=
  if s.fnSilent win then s
  else if s.msixOpen win vec then s.pushOut (.msix win vec)
  else { s with ports := { s.ports with pending := addOnce (win * 8 + vec) s.ports.pending } }

/-- The message of a physical-function vector at both ports. -/
def State.msixBoth (s : State) (vec : Nat) : State := (s.msix 0 vec).msix 9 vec

/-- Sets a device event bit; a bit newly set sends vector 4 at both ports (R496). -/
def State.ev (s : State) (f : Fld) (inst : Nat) : State :=
  if s.fbit f inst 0 then s else (s.fset f inst 0 1).msixBoth 4

/-- Sets a bit of PCI_EVENT; a bit newly set sends vector 6 at both ports (R496). -/
def State.evPci (s : State) (f : Fld) : State :=
  if s.fbit f 0 0 then s else (s.fset f 0 0 1).msixBoth 6

/-- Sets a bit of CMD_WEVENT of a window; a bit newly set sends a virtual function's vector 6 (R496). -/
def State.evWin (s : State) (f : Fld) (win : Nat) : State :=
  if s.fbit f win 0 then s
  else
    let s := s.fset f win 0 1
    if win % 9 = 0 then s else s.msix win 6

/-- HUB_REGEVENT (R597): a bit, with the block, instance and path of the latest event. -/
def State.regEvent (s : State) (f : Fld) (kind inst : Nat) (p : Nat) : State :=
  (((s.fset f 0 0 1).fset R.HUB_REGEVENT_KIND 0 0 kind).fset R.HUB_REGEVENT_INSTANCE 0 0 inst).fset R.HUB_REGEVENT_PATH 0 0 p

/-- Marks a location record taken, and tells whether one stood unread (R192, R242, R423). -/
def State.takeLoc (s : State) (n : Nat) : Bool × State :=
  (s.unread.contains n, { s with unread := addOnce n s.unread })

/-! ## The address map -/

/-- Parity of the named bits of a. -/
def xorBits (a : Nat) (l : List Nat) : Bool := l.foldl (fun b i => b != a.testBit i) false

/-- A number from its bits, the highest first. -/
def ofBits (l : List Bool) : Nat := l.foldl (fun n b => 2 * n + b2n b) 0

/-- Scope block of a granule (R159). -/
def blockOf (small : Bool) (g : Nat) : Nat := if small then g / 4 else g / 8

/-- Scope of a block: 0 device, 1 half, 2 near (R161); on the TVH1204 device is treated as half (R164). -/
def State.scope (s : State) (b : Nat) : Nat :=
  let f := { R.MEM_SCOPE_0 with hi := 2 * (b % 16) + 1, lo := 2 * (b % 16) }
  let v := s.fget f 0 (b / 16)
  if s.fuse.small && v == 0 then 1 else v

/-- Low seven bits of the slot in the three scopes (R162). -/
def slotLow (scope a : Nat) : Nat :=
  if scope = 0 then
    ofBits [xorBits a [17, 27, 37], xorBits a [16, 26, 36], xorBits a [15, 25, 35], xorBits a [14, 24, 34],
      xorBits a [13, 23, 33], xorBits a [12, 22, 32], xorBits a [11, 21, 31]]
  else if scope = 1 then
    ofBits [xorBits a [16, 25, 37], xorBits a [15, 24, 36], xorBits a [14, 23, 35], xorBits a [13, 22, 34],
      xorBits a [12, 21, 33], xorBits a [11, 20, 32, 39], xorBits a [10, 19, 31, 38]]
  else
    ofBits [xorBits a [14, 21, 37], xorBits a [13, 20, 27, 36], xorBits a [12, 19, 26, 35], xorBits a [11, 18, 25, 34],
      xorBits a [10, 17, 24, 33], xorBits a [9, 16, 23, 32, 39], xorBits a [8, 15, 22, 31, 38]]

/-- Stack bits of the slot (R162, R164). -/
def slotHigh (small : Bool) (scope a : Nat) : Nat :=
  if scope = 0 then
    ofBits [xorBits a [10, 20, 30], xorBits a [9, 19, 29, 39], xorBits a [8, 18, 28, 38]]
  else if scope = 1 then
    ofBits [!small && xorBits a [28], xorBits a [9, 18, 27, 30], xorBits a [8, 17, 26, 29]]
  else
    ofBits [!small && xorBits a [30], xorBits a [29], xorBits a [28]]

/-- The slot of a memory DPA: its global channel in place (R162, R164). -/
def slotOf (small : Bool) (scope a : Nat) : Nat := slotHigh small scope a * 128 + slotLow scope a

/-- The channel offset of a memory DPA (R163, R164). -/
def chanOffset (small : Bool) (scope a : Nat) : Nat :=
  let g := bitsOf a 39 28
  let b := blockOf small g
  let m := if small then g % 4 else g % 8
  b * 0x200000 + (if scope = 0 then m * 0x40000 + bitsOf a 27 18 * 256
    else if scope = 1 then (if small then m else m / 2) * 0x80000 + bitsOf a 27 17 * 256
    else bitsOf a 27 15 * 256) + a % 256

def granOf (a : Nat) : Nat := bitsOf a 39 28

/-- The slot of a DPA under the scope in force. -/
def State.slot (s : State) (a : Nat) : Nat := slotOf s.fuse.small (s.scope (blockOf s.fuse.small (granOf a))) a

/-- The number u of R208. -/
def homeIndex (a : Nat) : Nat :=
  bitsOf a 9 6 ^^^ bitsOf a 13 10 ^^^ bitsOf a 17 14 ^^^ bitsOf a 21 18 ^^^ bitsOf a 25 22 ^^^ bitsOf a 29 26
    ^^^ bitsOf a 33 30 ^^^ bitsOf a 37 34 ^^^ bitsOf a 39 38

/-- The home half of a DPA (R208). -/
def State.homeHalf (s : State) (a : Nat) : Half := if s.slot a < 512 then .west else .east

/-- The home slice of a DPA, 0 to 31 (R208). -/
def State.homeSlice (s : State) (a : Nat) : Nat :=
  match s.homeHalf a with
  | .west => homeIndex a
  | .east => 16 + homeIndex a

/-- The set of a line (R210). -/
def setOf (a : Nat) : Nat := bitsOf a 21 10 + 4096 * (bitsOf a 39 22 % 3)

/-- The channel where a chunk now lies: its own place, or where the spread table put it (R176). A place is
channel * 384 + block. -/
def State.placeOf (s : State) (ch block : Nat) : Nat :=
  match tget (fun _ => none) s.hank.spread (ch * 384 + block) with
  | none => ch * 384 + block
  | some p => p

/-- The global channel that serves a DPA (R162, R176). -/
def State.chanOf (s : State) (a : Nat) : Nat := s.placeOf (s.slot a) (blockOf s.fuse.small (granOf a)) / 384

/-- Granules of the part and visible granules (R159, R175). -/
def State.allGranules (s : State) : Nat := if s.fuse.small then 1536 else 3072
def State.visGranules (s : State) : Nat := s.allGranules - 3 * s.hank.reserve

/-- The DPA lies in visible memory (R399). -/
def State.visible (s : State) (a : Nat) : Bool := a / 0x10000000 < s.visGranules

/-! ## Agents -/

/-- The half of an agent (R41, R42). -/
def State.agentHalf (s : State) (a : Agent) : Half :=
  match a.kind with
  | .site => stackHalf a.num
  | .tile => tileHalf a.num
  | .port => s.portHalf (if a.num = 0 then .w else .e)
  | .pseq => if a.num = 0 then .west else .east
  | .lanyard => if a.num < 6 then .west else .east
  | .mgmt => if a.num = 1 then .east else .west
  | .proxy | .home => if a.num < 16 then .west else .east
  | .channel => chanHalf a.num
  | .cleatBank | .splice => if a.num < 8 then .west else .east

/-- The West half's router of an agent place, as column and row (R22 to R31); a site's is that of its first attach point. -/
def westPlace (a : Agent) : Nat × Nat :=
  match a.kind with
  | .tile => (2 + 2 * (a.num / 4 % 3) + a.num % 4 % 2, 2 * (a.num / 4 / 3) + a.num % 4 / 2)
  | .home | .proxy => (8 + a.num % 2, a.num / 2)
  | .cleatBank => (1, a.num)
  | .lanyard => (1, a.num)
  | .port => (0, 6)
  | .pseq => (1, 6)
  | .mgmt => (0, 7)
  | .channel =>
    let k := a.num / 128
    let j := a.num % 128 / 8
    (2 + 4 * (k % 2) + j % 4, 4 * (k / 2) + j / 4)
  | .site => (2 + 4 * (a.num % 2), 4 * (a.num / 2))
  | .splice => (9, a.num)

/-- The router number of an agent, the East half mirrored (R22, R23). -/
def State.router (s : State) (a : Agent) : Nat :=
  match s.agentHalf a with
  | .west => let (x, y) := westPlace a; y * 20 + x
  | .east =>
    let n := match a.kind with
      | .site => a.num - 4 | .tile => a.num - 48 | .lanyard => a.num - 6 | .proxy | .home => a.num - 16
      | .channel => a.num - 512 | .cleatBank | .splice => a.num - 8 | .port | .pseq | .mgmt => 0
    let (x, y) := westPlace ⟨a.kind, n⟩
    y * 20 + (19 - x)

/-- A router number from its column and row (R22), and back. -/
def routerNo (x y : Nat) : Nat := y * 20 + x
def colOf (r : Nat) : Nat := r % 20
def rowOf (r : Nat) : Nat := r / 20

/-- Column and row of an attach point's router, its quadrant position (R30, R31, R275). -/
def apPlace (k j : Nat) : Nat × Nat :=
  let x := 2 + 4 * (k % 2) + j % 4
  (if k < 4 then x else 19 - x, 4 * (k / 2 % 2) + j / 4)

/-- The router of an agent; a site's is that of the attach point (R31, R275). -/
def State.routerAt (s : State) (a : Agent) (ap : Nat) : Nat :=
  match a.kind with
  | .site => let (x, y) := apPlace a.num ap; routerNo x y
  | _ => s.router a

/-- What sits at the edge and service routers and sends no packet of R201 (R23, R28): the optical engine of a link, and the
security engine, always-on interface and power governor unit of a half. -/
inductive Seat where
  | optics (l : Nat) | security (h : Half) | alwaysOn (h : Half) | governor (h : Half)
  deriving DecidableEq, Repr

/-- Column of the West half or its mirror (R22, R23). -/
def mirrorCol (h : Half) (x : Nat) : Nat :=
  match h with
  | .west => x
  | .east => 19 - x

/-- The router of a seat (R23, R28): links 2y and 2y + 1 at (0, y), links 12 + 2y and 13 + 2y at (19, y). -/
def Seat.router : Seat → Nat
  | .optics l => routerNo (mirrorCol (linkHalf l) 0) (l % 12 / 2)
  | .security h | .alwaysOn h => routerNo (mirrorCol h 0) 7
  | .governor h => routerNo (mirrorCol h 1) 7

/-- The router port of a seat: the agents of an edge or service router in the order R23 names them (R196 DPORT). -/
def Seat.dport : Seat → Nat
  | .optics l => 10 + l % 2
  | .security _ => 11
  | .alwaysOn _ => 12
  | .governor _ => 11

/-! ## Routes -/

/-- The whole numbers from a to b, both included, in order of travel. -/
def spanFrom (a b : Nat) : List Nat :=
  if a ≤ b then (List.range (b - a + 1)).map fun i => a + i else (List.range (a - b + 1)).map fun i => a - i

/-- The routers of a packet's way by XY routing (R33): along its row to the destination column, then along that column. -/
def xyRoute (a b : Nat) : List Nat :=
  (spanFrom (colOf a) (colOf b)).map (fun x => routerNo x (rowOf a))
    ++ ((spanFrom (rowOf a) (rowOf b)).drop 1).map fun y => routerNo (colOf b) y

/-- The row crossing of the Splice that a way uses, by its row (R32, R33): it passes column 9 and column 10. -/
def crossingOf (route : List Nat) : Option Nat :=
  match route.find? fun r => colOf r == 9, route.find? fun r => colOf r == 10 with
  | some r, some q => if rowOf r = rowOf q then some (rowOf r) else none
  | _, _ => none

/-- A slice-pair channel joins the two agents: a proxy slice and the home in the other half that it pairs with (R32, R35). -/
def slicePair (a b : Agent) : Bool :=
  ((a.kind == .proxy && b.kind == .home) || (a.kind == .home && b.kind == .proxy)) && (a.num + 16) % 32 == b.num

/-- The stack whose quadrant holds a tile (R29, R165). -/
def tileStack (t : Nat) : Nat :=
  let u := t % 48
  let (x, y) := westPlace ⟨.tile, u⟩
  (if t < 48 then 0 else 4) + 2 * (y / 4) + (x - 2) / 4

def groupStack (g : Nat) : Nat := tileStack (4 * g)

/-! ## Ownership -/

/-- The ownership check (R417): 0 when it passes, else the cause of XLT_DENY0 (R423). Requests of the management cores
pass only for OWNER 14 and 15, but for the writes of an ATTEST, which a management core numbered 2 issues (R471). -/
def State.ownCheck (s : State) (src : Agent) (ctx : BitVec 12) (write : Bool) (a : Nat) : Nat :=
  let g := granOf a
  let r := s.own g
  let p := ctx.toNat / 512
  if a / 0x10000000 ≥ s.allGranules then 5
  else if g ≥ s.visGranules then 3
  else if src.kind = .mgmt ∧ src.num < 2 then (if r.owner.toNat = 14 ∨ r.owner.toNat = 15 then 0 else 1)
  else if r.owner.toNat = p then 0
  else if r.owner.toNat = 8 then
    (if write then (if !r.ro && r.writer.toNat == p then 0 else 2)
     else if r.share.toNat.testBit p then 0 else 1)
  else if r.owner.toNat ≥ 9 then 4
  else 1

/-- DENY record of a refused request (R419, R423). -/
def State.deny (s : State) (src : Agent) (ctx : BitVec 12) (a cause : Nat) : State :=
  let (o, s) := s.takeLoc 2
  let s := s.fset R.XLT_DENY0_GRANULE 0 0 (granOf a)
  let s := s.fset R.XLT_DENY0_PART 0 0 (ctx.toNat / 512)
  let s := s.fset R.XLT_DENY0_AGENT 0 0 src.code
  let s := s.fset R.XLT_DENY0_CAUSE 0 0 cause
  let s := if o then s.fset R.XLT_DENY0_OVERRUN 0 0 1 else s
  s.fset R.XLT_DENY1_CTX 0 0 ctx.toNat

/-- SEAL_DISARM (R578): a change to a sealed item. -/
def State.disarm (s : State) : State :=
  let s := if s.fbit R.HUB_SEALCTL_ARMED 0 0 then (s.fset R.HUB_SEALCTL_ARMED 0 0 0).fset R.HUB_SEALCTL_DISARMED 0 0 1 else
    s.fset R.HUB_SEALCTL_DISARMED 0 0 1
  { s with fid := { s.fid with passOk := false } }

/-- OWNERSHIP_CHANGE (R418): rewrites a granule's record, a sealed item (R575). -/
def State.setOwn (s : State) (g : Nat) (r : OwnRec) : State :=
  { s with hank := { s.hank with own := tset (fun _ => {}) s.hank.own g r } }.disarm

/-! ## Sectors -/

/-- What a sector holds: its own mark, or that of its granule's fill (R157, R166). -/
def Hank.markOf (h : Hank) (sec : Nat) : Mark :=
  match tget (fun _ => none) h.marks sec with
  | some m => m
  | none => tget (fun _ => ⟨0, 0, false⟩) h.fills (sec / 0x800000)

/-- The mark in force: poisoned where an unplanned reset has lost the sector and nothing has been written since (R548). -/
def State.markOf (s : State) (sec : Nat) : Mark :=
  let m := s.hank.markOf sec
  if (tget (fun _ => none) s.hank.marks sec).isSome then m
  else if (tget (fun _ => []) s.hank.pois (sec / 0x800000)).contains (s.slot (sec * 32)) then { m with poison := true }
  else m

/-- The key of a slot, 0 when none is loaded (R461). -/
def Hank.slotKey (h : Hank) (n : Nat) : Nat := tget (fun _ => 0) h.slots n

/-- The key under which a granule's sectors are read and written (R166). -/
def State.granKey (s : State) (g : Nat) : Nat := s.hank.slotKey (s.own g).slot.toNat

/-- A destructive run has left the sector undefined, and neither it nor its granule has been written since (R190, R533). -/
def State.undefined (s : State) (sec : Nat) : Bool :=
  if (tget (fun _ => none) s.hank.marks sec).isSome then false
  else
    let g := sec / 0x800000
    s.hank.scr.any fun e =>
      e.slot == s.slot (sec * 32) && (e.block.getD (blockOf s.fuse.small g)) == blockOf s.fuse.small g && !e.since.contains g

/-- The tweak of a sector of a granule, or of the sector that it copies (R167, R168). -/
def secTweak (tw sec : Nat) : BitVec 128 := tweakOf ((tw * 0x800000 + sec % 0x800000) * 32)

/-- The ciphertext that a sector's channel holds (R156, R166): what the state keeps is its plaintext under the key and the tweak of its
mark (log 4). A free value where no key has written it or its contents are undefined (R190, R533; log 5, log 6). -/
def State.stored (s : State) (sec : Nat) : BitVec 256 :=
  let m := s.markOf sec
  if m.key = 0 ∨ s.undefined sec then Config.garbage s.freeCtr sec
  else xtsEnc (Config.keyPair m.key) (secTweak m.tw sec) (BitVec.ofNat 256 (memRead s.hank.mem (sec * 32) 32))

/-- A sector decrypted under a key and a tweak granule (R166, R167): the plaintext where they are those it was written under; with no
key loaded, a free value (log 6). -/
def State.plain (s : State) (sec key tw : Nat) : BitVec 256 :=
  let m := s.markOf sec
  if m.key = key ∧ m.tw = tw ∧ key ≠ 0 ∧ !s.undefined sec then BitVec.ofNat 256 (memRead s.hank.mem (sec * 32) 32)
  else if key = 0 then Config.garbage s.freeCtr sec
  else xtsDec (Config.keyPair key) (secTweak tw sec) (s.stored sec)

/-- Sector as read by its granule's own key. -/
def State.readSec (s : State) (sec : Nat) : BitVec 256 × Bool :=
  (s.plain sec (s.granKey (sec / 0x800000)) (sec / 0x800000), (s.markOf sec).poison)

/-- Writes the masked bytes of a sector and its mark. -/
def Hank.putSec (h : Hank) (sec : Nat) (d : BitVec 256) (mask : Nat) (m : Mark) : Hank :=
  { h with mem := memWrite h.mem (sec * 32) d.toNat mask 32
           marks := tset (fun _ => none) h.marks sec (some m) }

/-- All 32 byte enables. -/
def fullMask : Nat := 2 ^ 32 - 1

/-- A full or masked write of a sector under its granule's key (R157, R158): a full write clears poison, a masked write
leaves it; a merge into a sector of another key merges into what decryption gives. -/
def State.writeSec (s : State) (sec : Nat) (d : BitVec 256) (mask : Nat) (poison : Bool) : State :=
  let g := sec / 0x800000
  let key := s.granKey g
  if mask = fullMask then { s with hank := s.hank.putSec sec d fullMask ⟨key, g, poison⟩ }
  else
    let (old, pz) := s.readSec sec
    let h := s.hank.putSec sec old fullMask ⟨key, g, pz⟩
    { s with hank := h.putSec sec d mask ⟨key, g, pz || poison⟩ }

/-- Marks a sector poisoned, contents kept (R157). -/
def State.poisonSec (s : State) (sec : Nat) : State :=
  { s with hank := { s.hank with
      marks := tset (fun _ => none) s.hank.marks sec (some { s.markOf sec with poison := true }) } }

/-- A whole granule filled with zero plaintext under the key of its record (R169). -/
def State.zeroGranule (s : State) (g : Nat) : State :=
  let h := s.hank
  { s with hank := { h with
      mem := tkeep (fun a => a / 0x10000000 != g) h.mem
      marks := tkeep (fun x => x / 0x800000 != g) h.marks
      scr := h.scr.map fun e => { e with since := addOnce g e.since }
      pois := tset (fun _ => []) h.pois g []
      fills := tset (fun _ => ⟨0, 0, false⟩) h.fills g ⟨s.granKey g, g, false⟩ } }

/-- The granules of a scope block (R159). -/
def blockGrans (small : Bool) (b : Nat) : List Nat :=
  (List.range (if small then 4 else 8)).map fun i => (if small then 4 else 8) * b + i

/-- What lies on a channel: the chunks of its own slot but those relocated, and single chunks of other slots (R176). -/
def State.chunksLost (s : State) (ch : Nat) : List Scr :=
  let moved := s.hank.spread.filterMap fun e =>
    match e.2 with
    | some p => if e.1 / 384 = ch ∧ p / 384 ≠ ch then some (e.1 % 384) else none
    | none => none
  ⟨ch, none, moved.flatMap (blockGrans s.fuse.small)⟩
    :: s.hank.spread.filterMap fun e =>
      match e.2 with
      | some p => if p / 384 = ch ∧ e.1 / 384 ≠ ch then some ⟨e.1 / 384, some (e.1 % 384), []⟩ else none
      | none => none

/-- A destructive run leaves the contents of the channels undefined (R190, R533). -/
def State.scramble (s : State) (chs : List Nat) : State :=
  let new := chs.flatMap s.chunksLost
  let t : State := { s with hank := { s.hank with scr := new, marks := [] } }
  { s with hank := { s.hank with
      scr := new ++ s.hank.scr.filter fun e => !new.contains e
      marks := tkeep (fun x => !t.undefined x) s.hank.marks } }

/-- Copies a granule's stored form: ciphertext and check bytes, with its tweak (R168, R458). -/
def State.copyGranule (s : State) (src dst : Nat) : State :=
  let h := s.hank
  let mv (unit k : Nat) : Nat := dst * unit + k % unit
  let mem0 := tkeep (fun a => a / 0x10000000 != dst) h.mem
  let mk0 := tkeep (fun x => x / 0x800000 != dst) h.marks
  let mem1 := (h.mem.filter fun e => e.1 / 0x10000000 == src).foldl
    (fun m e => memSet m (mv 0x10000000 e.1) e.2) mem0
  let mk1 := (h.marks.filter fun e => e.1 / 0x800000 == src).foldl
    (fun m e => tset (fun _ => none) m (mv 0x800000 e.1) e.2) mk0
  let turn := s.slot (src * 0x10000000) ^^^ s.slot (dst * 0x10000000)
  { s with hank := { h with mem := mem1, marks := mk1
                            scr := h.scr.map fun e => { e with since := addOnce dst e.since }
                            pois := tset (fun _ => []) h.pois dst ((tget (fun _ => []) h.pois src).map fun n => n ^^^ turn)
                            fills := tset (fun _ => ⟨0, 0, false⟩) h.fills dst
                              (tget (fun _ => ⟨0, 0, false⟩) h.fills src) } }

/-! ## Tally arithmetic -/

/-- Difference of two tallies in counts of 1 ns. -/
def tallyDiff (now thn : BitVec 64) : Nat := (now - thn).toNat

/-- The stamps of a sliding window of n counts that ends now (R538, R543, R544). -/
def State.window (s : State) (n : Nat) (l : List (BitVec 64)) : List (BitVec 64) := l.filter fun t => tallyDiff s.tally t < n

end Sys2Proof.Machine
end

