-- ==== Sys2Proof/Machine/Requests.lean ====
section
/-! DEFINITION. Packets of the fabric, the requests of the masters with their tags and regulators, and the counters that
count them: 05_fabric_and_coherence.md (R195 to R207), 11_sharing.md (R425 to R431), R584. -/

namespace Sys2Proof

/-- Codes of the message ops (R201). -/
def Op.code : Op → Nat
  | .rdShared => 0x01 | .rdUnique => 0x02 | .upgrade => 0x03 | .rdOnce => 0x04 | .wrThrough => 0x05 | .wrBack => 0x06
  | .evict => 0x07 | .atomH => 0x08 | .memRd => 0x10 | .memWr => 0x11 | .atomM => 0x12
  | .snpShared => 0x20 | .snpInv => 0x21 | .snpRdNA => 0x22 | .mFill => 0x30 | .mWb => 0x31 | .mPoison => 0x32
  | .comp => 0x40 | .compData => 0x41 | .snpResp => 0x42 | .snpRespData => 0x43 | .mData => 0x44 | .mAck => 0x45
  | .grantAck => 0x46 | .rsv c => c.toNat

/-- The op is one that the table of R201 does not list (R197). -/
def Op.isRsv : Op → Bool
  | .rsv _ => true
  | _ => false

/-- The virtual channel of an op (R198), but for a request that a retired channel's controller forwards. -/
def Op.vc : Op → Nat
  | .rdShared | .rdUnique | .upgrade | .rdOnce | .wrThrough | .wrBack | .evict | .atomH | .memRd | .memWr | .atomM | .rsv _ => 0
  | .snpShared | .snpInv | .snpRdNA => 1
  | .mFill | .mWb | .mPoison => 2
  | .comp | .compData | .snpResp | .snpRespData | .mData | .mAck | .grantAck => 4

/-- Whether a packet of the op carries line data (R195, R201). -/
def Op.hasData : Op → Bool
  | .wrThrough | .wrBack | .atomH | .memWr | .atomM | .mWb | .mPoison | .compData | .snpRespData | .mData => true
  | _ => false

/-- Requests of the cached class go to a home or proxy slice, those of the bypass class to a channel (R35, R214). -/
def Op.cached : Op → Bool
  | .memRd | .memWr | .atomM | .mPoison => false
  | .rsv c => decide (c.toNat < 0x10)
  | _ => true

/-- A request that writes, for the ownership check (R417). -/
def Op.writes : Op → Bool
  | .wrThrough | .wrBack | .atomH | .memWr | .atomM | .mPoison | .rdUnique | .upgrade => true
  | _ => false

/-- An empty packet of an op. -/
def Pkt.mk0 (op : Op) (src dst : Agent) (addr : Dpa) : Pkt :=
  { op, src, dst, addr, tag := 0, ctx := 0, svc := 0, sect := 0, poison := 0, status := 0, grant := 0, starve := false,
    aop := 0, mask := 0, data := 0 }

/-- The line number a[43:6] of a packet. -/
def Pkt.line (p : Pkt) : Nat := p.addr.toNat / 64

/-- The sector number a[43:5] of sector i of a packet's line. -/
def Pkt.sec (p : Pkt) (i : Nat) : Nat := p.line * 2 + i

/-- Sector i of line data. -/
def secOf (d : LineData) (i : Nat) : BitVec 256 := BitVec.ofNat 256 (d.toNat >>> (256 * i))

/-- Line data of two sectors. -/
def lineOf (lo hi : BitVec 256) : LineData := BitVec.ofNat 512 (lo.toNat + 2 ^ 256 * hi.toNat)

/-- Line data with sector i replaced. -/
def setSec (d : LineData) (i : Nat) (x : BitVec 256) : LineData :=
  if i = 0 then lineOf x (secOf d 1) else lineOf (secOf d 0) x

/-- Bit i of a two-bit sector mask. -/
def bit2 (v : BitVec 2) (i : Nat) : Bool := v.toNat.testBit i

/-- A two-bit sector mask from its bits. -/
def mk2 (b0 b1 : Bool) : BitVec 2 := BitVec.ofNat 2 (b2n b0 + 2 * b2n b1)

/-- Sectors named, counted. -/
def cnt2 (v : BitVec 2) : Nat := b2n (bit2 v 0) + b2n (bit2 v 1)

/-- Bytes of an atomic op (R234). -/
def atomSize (aop : BitVec 4) : Nat := if aop.toNat ∈ [1, 6, 8, 9, 10] then 8 else 4

/-- Fields whose reserved or disallowed values make a request bad (R196, R197, R234): a reserved op, an atomic op beyond the table
or off its alignment, a WMODE above 1 or on an op that has none, a masked write that does not name one sector, a STATUS. -/
def Pkt.badField (p : Pkt) : Bool :=
  p.status != 0 || (match p.op with
    | .rsv _ => true
    | .atomH | .atomM => decide (p.aop.toNat ≥ 0xB) || p.addr.toNat % atomSize p.aop != 0 || p.grant != 0
    | .wrThrough | .memWr => decide (p.grant.toNat ≥ 2) || (p.grant == 1 && cnt2 p.sect != 1)
    | _ => p.grant != 0)

/-- A masked write carries its sector in data bytes 0 to 31 and its byte mask in bytes 32 to 35 (R196). -/
def Pkt.masked (p : Pkt) : Bool := p.grant == 1

/-- The data of sector i of a write, and the bytes it enables. -/
def Pkt.wrData (p : Pkt) (i : Nat) : BitVec 256 := if p.masked then secOf p.data 0 else secOf p.data i
def Pkt.wrMask (p : Pkt) : Nat := if p.masked then bitsOf p.data.toNat 287 256 else 2 ^ 32 - 1

/-- The virtual channel of a packet (R198): a request that a retired channel's controller forwards travels in class FWD. -/
def Pkt.vc (p : Pkt) : Nat := if p.fwd then 3 else p.op.vc

/-- The agent that sends a packet's present leg. -/
def Pkt.sender (p : Pkt) : Agent := p.hop.getD p.src

/-- Whether a packet carries line data (R195, R201): an MAck does where it answers an atomic. -/
def Pkt.hasData (p : Pkt) : Bool := p.op.hasData || (p.op == .mAck && p.old)

/-- A reply to a request (R196): its tag, CTX, class, address and sectors. It goes to the requester, or to the proxy slice that
relayed the request, naming the requester (R205). -/
def Pkt.reply (p : Pkt) (op : Op) (src : Agent) : Pkt :=
  { Pkt.mk0 op src (p.via.getD p.src) p.addr with
    tag := p.tag, ctx := p.ctx, svc := p.svc, sect := p.sect, ap := p.ap,
    who := match p.via with | none => p.who | some _ => some p.src }

/-- MData that several tiles of a group receive (R204): its place mask. -/
def Pkt.places (p : Pkt) : Nat := if p.op = .mData then p.mask.toNat % 16 else 0

/-- The agent that AGENT names (R196): the requester, which is a request's source and a response's destination, or the one that
the packet carries. -/
def Pkt.asker (p : Pkt) : Agent := p.who.getD (if p.op.vc = 4 ∧ p.op ≠ .snpResp ∧ p.op ≠ .snpRespData ∧ p.op ≠ .grantAck then p.dst else p.src)

/-- AGENT of a header: the place mask of combined data, else the requester's kind; a packet that no requester caused has a free
value there (log 37). -/
def Pkt.agentField (p : Pkt) : Nat :=
  if p.places ≠ 0 then p.places
  else if p.asker.code < 14 then p.asker.code
  else (Config.noAgent p.op.code).toNat

/-- The bytes of a packet's one flit (R195): the header, and the 64 data bytes after it where DATA is 1. -/
def Pkt.flitLen (p : Pkt) : Nat := if p.hasData then 80 else 16

end Sys2Proof

namespace Sys2Proof.Machine

/-- Destination port of an agent's router (R196): the host ports of a TVH1204 share router (0, 6); the Splice's own answers come
from no port that R196 numbers, and 13 stands for it (log 37). -/
def State.dport (s : State) (a : Agent) : Nat :=
  match a.kind with
  | .channel => a.num % 8
  | .tile | .home | .proxy => 8
  | .site => 9
  | .port => if s.fuse.small && a.num != 0 then 11 else 10
  | .mgmt | .cleatBank => 10
  | .lanyard | .pseq => 11
  | .splice => 13

/-- A router port: the router and the port number (R196). -/
def State.portOf (s : State) (a : Agent) (ap : Nat) : Nat × Nat := (s.routerAt a ap, s.dport a)

/-- The way of a packet's present leg over the mesh (R33); none on a slice-pair channel (R35, R36). -/
def State.route (s : State) (p : Pkt) : List Nat :=
  if slicePair p.sender p.dst then [] else xyRoute (s.routerAt p.sender p.ap) (s.routerAt p.dst p.ap)

/-- The router of a group's 2 x 2 block that combined data reaches first (R24, R204). -/
def State.groupRouter (s : State) (p : Pkt) : Nat :=
  let block := (List.range 4).map fun i => s.router ⟨.tile, p.dst.num / 4 * 4 + i⟩
  ((s.route p).find? fun r => block.contains r).getD (s.router p.dst)

/-- The 16-byte header of a packet (R196). -/
def State.header (s : State) (p : Pkt) : BitVec 128 :=
  let multi := p.places != 0
  BitVec.ofNat 128 (p.vc + (if multi then s.groupRouter p else s.routerAt p.dst p.ap) <<< 3
    + (if multi then 15 else s.dport p.dst) <<< 11 + s.routerAt p.sender p.ap <<< 15
    + s.dport p.sender <<< 23 + p.op.code <<< 27 + p.tag <<< 34 + p.ctx.toNat <<< 50 + p.svc.toNat <<< 62
    + b2n p.hasData <<< 65 + p.addr.toNat <<< 66 + p.sect.toNat <<< 110 + p.poison.toNat <<< 112
    + p.status.toNat <<< 114 + p.grant.toNat <<< 117 + b2n p.starve <<< 119 + p.aop.toNat <<< 120 + p.agentField <<< 124)

/-- A packet's flit as a little-endian number: the header at bytes 0 to 15, the data at bytes 16 to 79 (R195). -/
def State.flit (s : State) (p : Pkt) : Nat := (s.header p).toNat + (if p.hasData then 2 ^ 128 * p.data.toNat else 0)

/-! ## Fid counters -/

/-- Class D events of R584 carry no partition. -/
def fidClassD (unit ev : Nat) : Bool :=
  (unit == 2 && ev ≥ 2) || (unit == 3 && ev ≤ 1) || (unit == 4 && ev ≥ 1) || unit == 6

/-- Counter n of a half counts the event (R584, R585). -/
def State.fidCounts (s : State) (h unit inst ev : Nat) (part : Option Nat) (n : Nat) : Bool :=
  s.fbit R.FID_SEL_EN h n && s.fget R.FID_SEL_UNIT h n == unit && s.fget R.FID_SEL_INST h n == inst
    && s.fget R.FID_SEL_EVENT h n == ev
    && (fidClassD unit ev || !s.fbit R.FID_SEL_PFILT h n || part == some (s.fget R.FID_SEL_PART h n))

/-- Adds to one counter's 48-bit value, which wraps and says so (R584). -/
def State.fidAdd (s : State) (h n k : Nat) : State :=
  let v := s.fget R.FID_VAL_HI h n * 2 ^ 32 + s.fget R.FID_VAL_LO h n + k
  let s := if v ≥ 2 ^ 48 then s.fset R.FID_VAL_WRAP h n 1 else s
  (s.fset R.FID_VAL_LO h n (v % 2 ^ 32)).fset R.FID_VAL_HI h n (v / 2 ^ 32)

/-- An event of a unit, counted by every counter of its half that selects it (R584). -/
def State.fidEvent (s : State) (hf : Half) (unit inst ev : Nat) (part : Option Nat) (k : Nat) : State :=
  if s.regs.all (fun e => e.1 / 0x20000 != 0x50 + hf.num) then s
  else (List.range 64).foldl (fun s n => if s.fidCounts hf.num unit inst ev part n then s.fidAdd hf.num n k else s) s

/-! ## Packets in flight -/

/-- Puts a packet into the mesh. -/
def State.sendPkt (s : State) (p : Pkt) : State := { s with fab := { s.fab with net := s.fab.net ++ [p] } }

/-- Packets that arrive in the order sent: of one class between the same two router ports (R200); and a home's write-back with the
request that the home sends on to memory after it, so that no performed write is undone (R245). -/
def State.sameWay (s : State) (p q : Pkt) : Bool :=
  (p.op.vc == 0 && (q.op == .mWb || q.op == .mPoison) && q.src == p.sender && q.line == p.line) || q.vc == p.vc && s.portOf q.sender q.ap == s.portOf p.sender p.ap && s.portOf q.dst q.ap == s.portOf p.dst p.ap

/-- The packet is in flight and no earlier one of its class, source port and destination port is (R200). -/
def State.arrives (s : State) (p : Pkt) : Bool := (s.fab.net.find? (s.sameWay p)) == some p

/-- Removes an arriving packet from the mesh. -/
def State.takePkt (s : State) (p : Pkt) : State := { s with fab := { s.fab with net := s.fab.net.erase p } }

/-- A packet must cross the Splice between two agents, by a row crossing or a slice-pair channel (R35, R36). -/
def State.crosses (s : State) (a b : Agent) : Bool := s.agentHalf a != s.agentHalf b

/-- A packet addressed across a closed Splice (R37). -/
def State.cutOff (s : State) (p : Pkt) : Bool := s.crosses p.sender p.dst && !s.spliceOpen

/-- The Splice router that a packet reaches in its own half (R33, R37): that of the row of its crossing. -/
def State.spliceRouter (s : State) (p : Pkt) : Agent :=
  ⟨.splice, (crossingOf (s.route p)).getD 0 + 8 * (s.agentHalf p.sender).num⟩

/-- The error response to a packet addressed across a closed Splice, from the Splice router of its row (R37). -/
def State.spliceError (s : State) (p : Pkt) (op : Op) : Pkt := { p.reply op (s.spliceRouter p) with status := 3 }

/-! ## Tags and regulators -/

/-- The most tags a master holds (R206). -/
def Agent.maxTags (a : Agent) : Nat :=
  match a.kind with
  | .tile => 512 | .site => 4096 | .port => 2048 | .pseq => 1024 | .lanyard => 512 | .mgmt => 256 | _ => 0

/-- The guaranteed minimum of a master (R428). -/
def State.minTags (s : State) (a : Agent) : Nat :=
  match a.kind with
  | .tile => s.fget R.HUB_TAGMIN0_TILE 0 0
  | .site => min (s.fget R.HUB_TAGMIN0_SITE 0 0) (s.fget R.SITE_TERMS_TAGS a.num 0)
  | .port => s.fget R.HUB_TAGMIN1_HOST 0 0
  | .pseq => s.fget R.HUB_TAGMIN1_PSEQ 0 0
  | .lanyard => s.fget R.HUB_TAGMIN2_LANYARD 0 0
  | .mgmt => s.fget R.HUB_TAGMIN2_MGMT 0 0
  | _ => 0

/-- Sum of the minimums of a half's masters (R428). -/
def State.sumMin (s : State) (h : Half) : Nat :=
  let sites := ((List.range 4).map fun k => s.minTags (⟨.site, 4 * h.num + k⟩ : Agent)).foldl (· + ·) 0
  48 * s.minTags (⟨.tile, 0⟩ : Agent) + sites + (if s.fuse.small then 2 else 1) * s.minTags ⟨.port, 0⟩
    + s.minTags ⟨.pseq, 0⟩ + 6 * s.minTags ⟨.lanyard, 0⟩ + s.minTags ⟨.mgmt, 0⟩

/-- Tags a master holds; the management cores' two numbers of the West half are one core. -/
def State.heldTags (s : State) (a : Agent) (sharedOnly : Option Bool) : Nat :=
  (s.fab.txs.filter fun t => t.pkt.src == a && (match sharedOnly with | none => true | some b => t.shared == b)).length

/-- Shared tags in use in a half, of one class or of all. -/
def State.sharedUsed (s : State) (h : Half) (c : Option (BitVec 3)) : Nat :=
  (s.fab.txs.filter fun t => t.half == h && t.shared && (match c with | none => true | some c => t.pkt.svc == c)).length

def floorFld (c : Nat) : Fld :=
  match c with
  | 0 => R.HUB_SVC_FLOOR_0 | 1 => R.HUB_SVC_FLOOR_1 | 2 => R.HUB_SVC_FLOOR_2 | 3 => R.HUB_SVC_FLOOR_3
  | 4 => R.HUB_SVC_FLOOR_4 | 5 => R.HUB_SVC_FLOOR_5 | 6 => R.HUB_SVC_FLOOR_6 | _ => R.HUB_SVC_FLOOR_7

/-- What the regulator answers a request: none hold it, some false a reserve tag, some true a shared tag (R206, R429). -/
def State.regulator (s : State) (h : Half) (p : Pkt) : Option Bool :=
  if s.heldTags p.src none ≥ Agent.maxTags p.src then none
  else if s.heldTags p.src (some false) < s.minTags p.src then some false
  else
    let free := 32768 - s.sumMin h - s.sharedUsed h none
    if free > 256 * s.fget (floorFld p.svc.toNat) 0 0 ∧
        s.sharedUsed h (some p.svc) < 256 * s.fget R.HUB_SVC_CAP 0 p.svc.toNat ∧ 0 < free then some true
    else none

/-- The lowest tag not in use, from n on; fuel bounds the search. -/
def freeTag (used : List Nat) (n : Nat) : Nat → Nat
  | 0 => n
  | k + 1 => if used.contains n then freeTag used (n + 1) k else n

/-- Counts data bytes of a class (R431). -/
def State.addBw (s : State) (h : Half) (c k : Nat) : State :=
  let lo := if h = .west then R.HUB_SVCBW_W_LO else R.HUB_SVCBW_E_LO
  let hi := if h = .west then R.HUB_SVCBW_W_HI else R.HUB_SVCBW_E_HI
  let v := (s.fget hi 0 c * 2 ^ 32 + s.fget lo 0 c + k) % 2 ^ 64
  (s.fset lo 0 c (v % 2 ^ 32)).fset hi 0 c (v / 2 ^ 32)

/-- Data bytes a packet carries: 32 for each sector named. -/
def Pkt.bytes (p : Pkt) : Nat := if p.hasData then 32 * cnt2 p.sect else 0

/-- Where a request goes: a channel controller, the home, or the proxy slice of the requester's half (R35, R162). -/
def State.reqDst (s : State) (p : Pkt) : Agent :=
  let a := p.addr.toNat
  if !p.op.cached then ⟨.channel, s.slot a⟩
  else
    let h := s.homeSlice a
    if s.homeHalf a = s.agentHalf p.src then ⟨.home, h⟩ else ⟨.proxy, (h + 16) % 32⟩

/-- A request enters the mesh with a tag (R205). -/
def State.inject (s : State) (x : HeldTx) (sh : Bool) : State :=
  let used := (s.fab.txs.filter fun t => t.half == x.half).map Tx.tag
  let tag := freeTag used 0 (used.length + 1)
  let p := { x.pkt with tag := x.half.num * 32768 + tag, dst := s.reqDst x.pkt }
  let s := s.sendPkt p
  let s := { s with fab := { s.fab with txs := s.fab.txs ++ [Tx.mk x.half tag p x.purp 0 sh x.ser x.page false] } }
  s.addBw x.half p.svc.toNat (Pkt.bytes p)

/-- One held request: admitted, or kept in its place. -/
def State.pump1 (s : State) (x : HeldTx) : State :=
  match s.regulator x.half x.pkt with
  | none => { s with fab := { s.fab with regq := s.fab.regq ++ [x] } }
  | some sh => s.inject x sh

/-- Held requests in the order of release: highest class first, in order of arrival within a class (R430). -/
def releaseOrder (q : List HeldTx) : List HeldTx :=
  [7, 6, 5, 4, 3, 2, 1, 0].flatMap fun c => q.filter fun x => x.pkt.svc == (BitVec.ofNat 3 c)

/-- REGULATOR_RELEASE (R430). -/
def State.pump (s : State) : State :=
  (releaseOrder s.fab.regq).foldl State.pump1 { s with fab := { s.fab with regq := [] } }

/-- A master makes a request: it is injected at once or held at its regulator (REGULATOR_HOLD, R429). -/
def State.request (s : State) (p : Pkt) (purp : Purpose) (page : Option Nat) : State :=
  let x : HeldTx := ⟨s.agentHalf p.src, p, purp, s.fab.serial, page⟩
  let s := { s with fab := { s.fab with serial := s.fab.serial + 1 } }
  match s.regulator x.half p with
  | some sh => s.inject x sh
  | none =>
    let s := { s with fab := { s.fab with regq := s.fab.regq ++ [x] } }
    s.fidEvent x.half 5 x.half.num 0 (some (p.ctx.toNat / 512)) 1

/-- The request that holds a tag of the tag field. -/
def State.txOf (s : State) (tag : Nat) : Option Tx :=
  s.fab.txs.find? fun t => t.half.num * 32768 + t.tag == tag

/-- TAG_RELEASE (R205), after which the regulators release (R430). -/
def State.releaseTag (s : State) (t : Tx) : State :=
  { s with fab := { s.fab with txs := s.fab.txs.erase t } }.pump

/-! ## Waits for writes -/

/-- The slot of a request lies in the half (R247). -/
def State.slotIn (s : State) (p : Pkt) (h : Half) : Bool := s.homeHalf p.addr.toNat == h

/-- The request is a write of memory (R245). -/
def Op.isWrite : Op → Bool
  | .wrThrough | .wrBack | .atomH | .memWr | .atomM | .mPoison => true
  | _ => false

end Sys2Proof.Machine
end

