-- ==== Sys2Proof/Machine/Frames.lean ====
section
/-! DEFINITION. The bits of frames: the CRC-64 of TSP frames (R281), the link word (R282), the frame, and the flit header as it
stands on a site's link (R289). Numbers are little-endian: bit 8 i + b of a number is bit b of its byte i (R20). -/

namespace Sys2Proof.Machine

/-! ## Checks -/

/-- The polynomial of the frames' CRC-64 (R281). -/
def crcPoly : Nat := 0x42F0E1EBA9EA3693

/-- One bit taken into the CRC register, whose top bit it meets (R281). -/
def crc64Bit (c : Nat) (b : Bool) : Nat :=
  let d := 2 * c % 2 ^ 64
  if c.testBit 63 != b then d ^^^ crcPoly else d

/-- CRC-64 of n bytes of a number: bytes in order, bit 0 of each first, from all ones, with a final XOR of all ones (R281). -/
def crc64 (v n : Nat) : Nat := ((List.range (8 * n)).foldl (fun c i => crc64Bit c (v.testBit i)) (2 ^ 64 - 1)) ^^^ (2 ^ 64 - 1)

/-! ## TSP frames -/

/-- What the hub writes in the link word of a frame (R282). -/
structure TspWord where
  seq   : BitVec 12
  ack   : BitVec 12
  nak   : Bool
  kind  : BitVec 2
  nhdr  : BitVec 3
  link  : Bool
  crReq : BitVec 4
  crSnp : BitVec 4
  crCtl : BitVec 4
  deriving DecidableEq, Repr

/-- The link word's bits (R282). -/
def TspWord.bits (w : TspWord) : BitVec 64 :=
  BitVec.ofNat 64 (w.seq.toNat + w.ack.toNat <<< 12 + b2n w.nak <<< 24 + w.kind.toNat <<< 25 + w.nhdr.toNat <<< 27
    + b2n w.link <<< 30 + w.crReq.toNat <<< 32 + w.crSnp.toNat <<< 36 + w.crCtl.toNat <<< 40)

/-- The 96 bytes of a frame: link word, 80 bytes of payload, and the CRC of bytes 0 to 87 (R281). -/
def tspBytes (w : BitVec 64) (payload : Nat) : BitVec 768 :=
  let v := w.toNat + 2 ^ 64 * (payload % 2 ^ 640)
  BitVec.ofNat 768 (v + 2 ^ 704 * crc64 v 88)

/-- A received frame of 96 bytes passes its check (R281, R283). -/
def tspCheck (f : BitVec 768) : Bool := crc64 (f.toNat % 2 ^ 704) 88 == f.toNat / 2 ^ 704

/-! ## Flits on a site's link (R289) -/

/-- The header fields that a site's link carries; routers, ports and AGENT are zero there, and CTX holds the slot (R289). -/
structure SiteHdr where
  vc     : Nat
  op     : Nat
  tag    : Nat
  slot   : Nat
  data   : Option LineData
  addr   : Nat
  sect   : Nat
  poison : Nat
  status : Nat
  grant  : Nat
  deriving DecidableEq, Repr

/-- The flit on the site's link, as a number: header, then the data where DATA is 1 (R195, R289). -/
def SiteHdr.flit (h : SiteHdr) : Nat :=
  h.vc + h.op <<< 27 + (h.tag % 4096) <<< 34 + (h.slot % 16) <<< 50 + b2n h.data.isSome <<< 65 + h.addr <<< 66 + h.sect <<< 110
    + h.poison <<< 112 + h.status <<< 114 + h.grant <<< 117 + 2 ^ 128 * (h.data.getD 0).toNat

/-- The message of class RSP, SNP or CTL that an output of the hub is on the site's link (R289, R294). -/
def Out.siteHdr (o : Out) : Option SiteHdr :=
  match o with
  | .siteRsp _ rt status grant poison data =>
    some ⟨4, if data.isSome then 0x41 else 0x40, rt.tag.toNat, rt.slot, data, rt.addr, rt.sect, poison.toNat, status.toNat, grant.toNat⟩
  | .siteSnoop _ p => some ⟨1, p.op.code, p.tag, 0, none, p.addr.toNat, p.sect.toNat, 0, 0, 0⟩
  | .ctl _ op tag d => some ⟨5, op.toNat, tag.toNat, 0, some d, 0, 0, 0, 0, 0⟩
  | _ => none

/-- KIND and NHDR of the frame that carries a message, or of an idle frame (R282). -/
def frameKind (h : Option SiteHdr) : BitVec 2 × BitVec 3 :=
  match h with
  | none => (0, 0)
  | some h => if h.data.isSome then (1, 0) else (2, 1)

end Sys2Proof.Machine
end

