-- ==== Sys2Proof/Machine/Numeric.lean ====
section
/-! DEFINITION. The number formats and their arithmetic, computed exactly and narrowed once (R52 to R93, R127, R622). -/

namespace Sys2Proof.Machine

/-- A decoded value: NaN, an infinity, or n / 2^k with its sign, zero signed too. -/
inductive Num where
  | nan
  | inf (neg : Bool)
  | fin (neg : Bool) (n k : Nat)
  deriving DecidableEq, Repr

/-- A floating-point format: exponent and mantissa widths, bias, and the code of the largest finite magnitude. -/
structure Ff where
  e    : Nat
  m    : Nat
  bias : Nat
  top  : Nat
  inf  : Bool
  deriving DecidableEq, Repr

/-- The floating-point formats of R54, and E5M3 of R58. -/
def ff32 : Ff := ⟨8, 23, 127, 0x7F7FFFFF, true⟩
def ffBf16 : Ff := ⟨8, 7, 127, 0x7F7F, true⟩
def ffFp16 : Ff := ⟨5, 10, 15, 0x7BFF, true⟩
def ffE4M3 : Ff := ⟨4, 3, 7, 0x7E, false⟩
def ffE5M2 : Ff := ⟨5, 2, 15, 0x7B, true⟩
def ffE2M3 : Ff := ⟨2, 3, 1, 0x1F, false⟩
def ffE3M2 : Ff := ⟨3, 2, 3, 0x1F, false⟩
def ffE2M1 : Ff := ⟨2, 1, 1, 0x7, false⟩
def ffE5M3 : Ff := ⟨5, 3, 15, 0xFE, false⟩

/-- Width of a code without its sign. -/
def Ff.width (f : Ff) : Nat := f.e + f.m

/-- The magnitude of a finite code, as n over 2^k (R54). -/
def Ff.mag (f : Ff) (c : Nat) : Nat × Nat :=
  let x := c / 2 ^ f.m
  let r := c % 2 ^ f.m
  ((if x = 0 then 2 * r else (2 ^ f.m + r) * 2 ^ x), f.m + f.bias)

/-- Decodes a code with its sign bit (R54). -/
def Ff.decode (f : Ff) (c : Nat) : Num :=
  let neg := c.testBit f.width
  let v := c % 2 ^ f.width
  if v ≤ f.top then let (n, k) := f.mag v; .fin neg n k
  else if f.inf ∧ v = f.top + 1 then .inf neg
  else .nan

/-- Base-two logarithm, rounded down. -/
def log2f (x : Nat) : Nat := Nat.log2 x

/-- The largest code whose magnitude is at most n / d, with what is left over in that code's spacing: (code, rest,
spacing) with rest below spacing. -/
def Ff.below (f : Ff) (n d : Nat) : Nat × Nat × Nat :=
  let x := n * 2 ^ (f.m + f.bias)
  let ef := max 1 (log2f (x / d) - f.m)
  let sp := d * 2 ^ ef
  ((ef - 1) * 2 ^ f.m + x / sp, x % sp, sp)

/-- Rounding modes of R78; the stochastic one carries its random number. -/
inductive Rnd where
  | nearest | zero | stoch (r : Nat)
  deriving DecidableEq, Repr

/-- Whether a code q with rest r of spacing sp rounds away from zero (R78). -/
def Rnd.up (mode : Rnd) (q r sp : Nat) : Bool :=
  match mode with
  | .nearest => 2 * r > sp || (2 * r == sp && q % 2 == 1)
  | .zero => false
  | .stoch w => r * 65536 / sp + w ≥ 65536

/-- Rounds a magnitude n / d to a code; the code may pass the largest finite one by rounding or by size. -/
def Ff.round (f : Ff) (mode : Rnd) (n d : Nat) : Nat :=
  let (q, r, sp) := f.below n d
  if mode.up q r sp then q + 1 else q

/-- A magnitude rounded up to the next code (R83, R85). -/
def Ff.roundUp (f : Ff) (n d : Nat) : Nat :=
  let (q, r, _) := f.below n d
  if r = 0 then q else q + 1

/-- Encodes a value by rounding to nearest even; past the largest finite magnitude lies infinity. -/
def Ff.encode (f : Ff) (x : Num) : Nat :=
  let s (b : Bool) := if b then 2 ^ f.width else 0
  match x with
  | .nan => f.top + 1 + 2 ^ (f.m - 1)
  | .inf b => s b + f.top + 1
  | .fin b n k => s b + min (f.round .nearest n (2 ^ k)) (f.top + 1)

/-- The exact sum of two values; opposite infinities make NaN, and a sum of zero is +0 unless both terms are -0. -/
def Num.add (x y : Num) : Num :=
  match x, y with
  | .nan, _ => .nan
  | _, .nan => .nan
  | .inf a, .inf b => if a = b then .inf a else .nan
  | .inf a, _ => .inf a
  | _, .inf b => .inf b
  | .fin a n k, .fin b m j =>
    let n' := n * 2 ^ (j - k)
    let m' := m * 2 ^ (k - j)
    let h := max k j
    if a = b then .fin a (n' + m') h
    else if m' < n' then .fin a (n' - m') h
    else if n' < m' then .fin b (m' - n') h
    else .fin false 0 h

/-- The exact product. -/
def Num.mul (x y : Num) : Num :=
  match x, y with
  | .nan, _ => .nan
  | _, .nan => .nan
  | .inf a, .inf b => .inf (a != b)
  | .inf a, .fin b n _ => if n = 0 then .nan else .inf (a != b)
  | .fin a n _, .inf b => if n = 0 then .nan else .inf (a != b)
  | .fin a n k, .fin b m j => .fin (a != b) (n * m) (k + j)

/-- The value with its sign reversed. -/
def Num.neg (x : Num) : Num :=
  match x with
  | .nan => .nan
  | .inf a => .inf (!a)
  | .fin a n k => .fin (!a) n k

/-- Whether x is less than y, with -0 less than +0 (R622); false where either is NaN. -/
def Num.lt (x y : Num) : Bool :=
  match x, y with
  | .nan, _ => false
  | _, .nan => false
  | .inf a, .inf b => a && !b
  | .inf a, _ => a
  | _, .inf b => !b
  | .fin a n k, .fin b m j =>
    let n' := n * 2 ^ j
    let m' := m * 2 ^ k
    match a, b with
    | true, false => true
    | false, true => false
    | false, false => n' < m'
    | true, true => m' < n'

def Num.zero : Num := .fin false 0 0
def Num.isFin (x : Num) : Bool := match x with | .fin _ _ _ => true | _ => false
def Num.isZero (x : Num) : Bool := match x with | .fin _ n _ => n == 0 | _ => false
def Num.isNan (x : Num) : Bool := match x with | .nan => true | _ => false
def Num.sign (x : Num) : Bool := match x with | .nan => false | .inf b => b | .fin b _ _ => b

/-- The magnitude n, k of a finite value; 0 for the others. -/
def Num.magOf (x : Num) : Nat × Nat := match x with | .fin _ n k => (n, k) | _ => (0, 0)

/-! ## FP32 arithmetic, every result rounded once to nearest even (R74, R77, R128, R272) -/

/-- The value of FP32 bits. -/
def f32 (b : BitVec 32) : Num := ff32.decode b.toNat

/-- FP32 bits of a value, rounded to nearest even; NaN is the canonical quiet NaN. -/
def toF32 (x : Num) : BitVec 32 := BitVec.ofNat 32 (ff32.encode x)

def f32Add (a b : BitVec 32) : BitVec 32 := toF32 ((f32 a).add (f32 b))
def f32Mul (a b : BitVec 32) : BitVec 32 := toF32 ((f32 a).mul (f32 b))
def f32Fma (a b c : BitVec 32) : BitVec 32 := toF32 (((f32 a).mul (f32 b)).add (f32 c))

/-- An FP32 result that is infinite or NaN (R77). -/
def f32Bad (b : BitVec 32) : Bool := !(f32 b).isFin

/-- The larger of two values, NaN if either is NaN (R622). -/
def f32Max (a b : BitVec 32) : BitVec 32 :=
  if (f32 a).isNan || (f32 b).isNan then 0x7FC00000#32 else if (f32 a).lt (f32 b) then b else a

/-- The smaller of two values, NaN if either is NaN (R622). -/
def f32Min (a b : BitVec 32) : BitVec 32 :=
  if (f32 a).isNan || (f32 b).isNan then 0x7FC00000#32 else if (f32 b).lt (f32 a) then b else a

/-- BF16 addition, rounded to nearest even. -/
def bf16Add (a b : BitVec 16) : BitVec 16 :=
  BitVec.ofNat 16 (ffBf16.encode ((ffBf16.decode a.toNat).add (ffBf16.decode b.toNat)))

/-- Integer square root of x by bits from b down. -/
def isqrtGo (x : Nat) (r : Nat) : Nat → Nat
  | 0 => r
  | b + 1 => if (r + 2 ^ b) * (r + 2 ^ b) ≤ x then isqrtGo x (r + 2 ^ b) b else isqrtGo x r b

/-- Integer square root. -/
def isqrt (x : Nat) : Nat := isqrtGo x 0 (Nat.log2 x / 2 + 1)

/-- ln 2 in units of 2^-128. -/
def ln2fix : Nat := 235865763225513294137944142764154484399

/-- e^r in units of 2^-128 for r in those units and below ln 2, by its series; `t` is the current term. -/
def expSeries (r t i : Nat) : Nat → Nat
  | 0 => t
  | n + 1 => t + expSeries r (t * r / 2 ^ 128 / i) (i + 1) n

/-- e^x of a finite value, as a fraction n / 2^k close to it. -/
def expFrac (x : Num) : Nat × Nat :=
  match x with
  | .fin neg n k =>
    let fx := min (n * 2 ^ 128 / 2 ^ k) (2 ^ 138)
    let q := fx / ln2fix
    if neg then
      let r := fx % ln2fix
      if r = 0 then (2 ^ 128, 128 + q)
      else (expSeries (ln2fix - r) (2 ^ 128) 1 40, 128 + q + 1)
    else (expSeries (fx % ln2fix) (2 ^ 128) 1 40 * 2 ^ q, 128)
  | _ => (0, 0)

/-- An FP32 code whose value lies within b ulp of the magnitude n / d (R127): the nearest one moved by the free error u
where that keeps the bound, else the nearest one itself; a magnitude that rounds past the largest finite value is infinite
(log 9). -/
def nudge (n d b : Nat) (u : Int) : Nat :=
  let c := ff32.round .nearest n d
  if c > ff32.top then ff32.top + 1
  else
    let t := ((c : Int) + u).toNat
    let y := (ff32.mag t).1 * d
    let x := n * 2 ^ (ff32.m + ff32.bias)
    if t ≤ ff32.top ∧ (y - x) + (x - y) ≤ b * (ff32.below n d).2.2 then t else c

/-- e^x within 2 ulp, of FP32 bits; u is the free error. -/
def f32Exp (a : BitVec 32) (u : Int) : BitVec 32 :=
  match f32 a with
  | .nan => 0x7FC00000#32
  | .inf neg => if neg then 0 else 0x7F800000#32
  | x =>
    let (n, k) := expFrac x
    BitVec.ofNat 32 (nudge n (2 ^ k) 2 u)

/-- 1 / x within 2 ulp; the reciprocal of a zero is not stated and is a free value. -/
def f32Recip (a : BitVec 32) (u : Int) (free : BitVec 32) : BitVec 32 :=
  match f32 a with
  | .nan => 0x7FC00000#32
  | .inf neg => if neg then 0x80000000#32 else 0
  | .fin neg n k =>
    if n = 0 then free
    else BitVec.ofNat 32 (b2n neg * 2 ^ 31 + nudge (2 ^ k) n 2 u)

/-- 1 / sqrt x within 2 ulp; of a zero or a negative value it is not stated and is a free value. -/
def f32Rsqrt (a : BitVec 32) (u : Int) (free : BitVec 32) : BitVec 32 :=
  match f32 a with
  | .nan => 0x7FC00000#32
  | .inf neg => if neg then free else 0
  | .fin neg n k =>
    if n = 0 ∨ neg then free
    else BitVec.ofNat 32 (nudge (isqrt (2 ^ (k + 400) / n)) (2 ^ 200) 2 u)

/-- x / (1 + e^-x) within 4 ulp. -/
def f32Silu (a : BitVec 32) (u : Int) (free : BitVec 32) : BitVec 32 :=
  match f32 a with
  | .nan => 0x7FC00000#32
  | .inf neg => if neg then free else 0x7F800000#32
  | .fin neg n k =>
    if n = 0 then a
    else
      let (en, ek) := expFrac (.fin (!neg) n k)
      BitVec.ofNat 32 (b2n neg * 2 ^ 31 + nudge (n * 2 ^ ek) (2 ^ k * (2 ^ ek + en)) 4 u)

/-! ## Format codes and groups (R52, R60) -/

/-- Element bits of a format code; 0 for a reserved code. -/
def fmtBits (f : Nat) : Nat :=
  match f with
  | 0 => 32 | 1 => 16 | 2 => 16 | 3 => 8 | 4 => 8 | 5 => 6 | 6 => 6 | 7 => 4 | 8 => 4 | 9 => 8 | 10 => 2 | 11 => 2 | _ => 0

def fmtReserved (f : Nat) : Bool := f ≥ 12

/-- A block-scaled format. -/
def fmtBlocked (f : Nat) : Bool := 3 ≤ f && f ≤ 11

/-- Elements per block (R52). -/
def blockSize (f : Nat) : Nat := if f = 8 then 16 else if f = 11 then 64 else 32

/-- Elements per group: 32 blocks (R60). -/
def groupElems (f : Nat) : Nat := 32 * blockSize f

/-- Bytes of a block's elements (R62). -/
def blockBytes (f : Nat) : Nat := blockSize f * fmtBits f / 8

/-- Units of a group: data sectors, a scale sector, and for escaped K4 an escape sector (R60). -/
def groupUnits (f : Nat) (esc : Bool) : Nat := blockBytes f + 1 + (if f = 8 ∧ esc then 1 else 0)

/-- Units that n elements occupy in a scratchpad, the last one whole. -/
def fmtUnits (f : Nat) (esc : Bool) (n : Nat) : Nat :=
  if fmtBlocked f then (n + groupElems f - 1) / groupElems f * groupUnits f esc
  else (n * (fmtBits f / 8) + 31) / 32

/-- The floating-point element format of a code. -/
def elemFf (f : Nat) : Ff :=
  match f with
  | 0 => ff32 | 1 => ffBf16 | 2 => ffFp16 | 3 => ffE4M3 | 4 => ffE5M2 | 5 => ffE2M3 | 6 => ffE3M2 | _ => ffE2M1

/-- The value of an element code (R54 to R57). -/
def elemVal (f c : Nat) : Num :=
  match f with
  | 9 => if c < 128 then .fin false c 6 else .fin true (256 - c) 6
  | 10 => match c with
    | 0 => .fin false 0 0 | 1 => .fin false 1 0 | 2 => .fin true 2 0 | _ => .fin true 1 0
  | 11 => match c with
    | 1 => .fin false 1 0 | 3 => .fin true 1 0 | _ => .fin false 0 0
  | _ => (elemFf f).decode c

/-- The value of a block's scale byte (R58). -/
def scaleVal (f c : Nat) : Num :=
  if f = 8 then (if c = 0xFF then .nan else let (n, k) := ffE5M3.mag c; .fin false n k)
  else if f = 10 ∨ f = 11 then ffE4M3.decode c
  else if c = 0xFF then .nan else .fin false (2 ^ c) 127

/-- The used escape slots of a K4 escape sector, as (index, BF16 bits), lowest first (R66, R68). -/
def escSlots (sec : Nat) : List (Nat × Nat) :=
  let cnt := min 8 (bitsOf sec 203 200)
  (List.range cnt).map fun v => (bitsOf sec (136 + 9 * v) (128 + 9 * v), bitsOf sec (16 * v + 15) (16 * v))

/-- Where the bytes of a tensor are read: byte i of it, from its start. -/
abbrev Bytes := Nat → Nat

/-- n bytes from a reader, little-endian. -/
def rdBytes (b : Bytes) (a : Nat) : Nat → Nat
  | 0 => 0
  | n + 1 => b a + 256 * rdBytes b (a + 1) n

/-- Element i of a tensor laid out as R60 to R66, without the tensor scale: scale times element, or the slot's value for
an escaped element (R69 to R72). -/
def elemAt (f : Nat) (esc : Bool) (b : Bytes) (i : Nat) : Num :=
  if fmtBlocked f then
    let g := i / groupElems f
    let j := i % groupElems f
    let base := g * groupUnits f esc * 32
    let blk := j / blockSize f
    let e := j % blockSize f
    let slot := if f = 8 ∧ esc then
        (escSlots (rdBytes b (base + (blockBytes f + 1) * 32) 32)).find? fun s => s.1 == j
      else none
    match slot with
    | some s => ffBf16.decode s.2
    | none =>
      let bits := rdBytes b (base + blk * blockBytes f) (blockBytes f)
      let c := bits / 2 ^ (fmtBits f * e) % 2 ^ fmtBits f
      (scaleVal f (b (base + blockBytes f * 32 + blk))).mul (elemVal f c)
  else
    let w := fmtBits f / 8
    (elemFf f).decode (rdBytes b (i * w) w)

/-! ## Quantisation (R78 to R93) -/

/-- Emax of an MX element format (R81). -/
def mxEmax (f : Nat) : Nat := match f with | 3 => 8 | 4 => 15 | 5 => 2 | 6 => 4 | 7 => 2 | _ => 0

/-- The largest finite magnitude of an element format as n / 2^k (R81, R86). -/
def elemMax (f : Nat) : Nat × Nat :=
  if f = 9 then (127, 6) else (elemFf f).mag (elemFf f).top

/-- Guard events of one quantise op. -/
structure QCount where
  sat      : Nat := 0
  scaleSat : Nat := 0
  nan      : Nat := 0
  escOvf   : Nat := 0
  under    : Nat := 0
  deriving DecidableEq, Repr

def QCount.add (a b : QCount) : QCount :=
  ⟨a.sat + b.sat, a.scaleSat + b.scaleSat, a.nan + b.nan, a.escOvf + b.escOvf, a.under + b.under⟩

/-- The shared exponent code X + 127 of an MX block with largest magnitude n / d, and whether it was clamped at +127
(R81, R82). The exponent is searched from the lowest code up: fit mode, or floor mode as the largest power not above. -/
def mxScale (f : Nat) (fit : Bool) (n k : Nat) : Nat × Bool :=
  -- A = n / 2^k; floor(log2 A) + 2^k bits of offset
  let lg : Int := (log2f n : Int) - k
  let (vn, vk) := elemMax f
  let x0 : Int := lg - mxEmax f
  -- A at most V * 2^X, compared in whole numbers
  let fits (x : Int) : Bool :=
    if x ≥ 0 then n * 2 ^ vk ≤ vn * 2 ^ x.toNat * 2 ^ k else n * 2 ^ vk * 2 ^ (-x).toNat ≤ vn * 2 ^ k
  let x : Int := if fit then (if fits (x0 - 1) then x0 - 1 else if fits x0 then x0 else x0 + 1) else x0
  if x > 127 then (254, true) else if x < -127 then (0, false) else ((x + 127).toNat, false)

/-- A quotient of magnitude n / d written in an element format: its code without sign, and whether it saturated
(R78, R86). -/
def quantMag (f : Nat) (mode : Rnd) (n d : Nat) : Nat × Bool :=
  let (vn, vk) := elemMax f
  if n * 2 ^ vk > vn * d then ((if f = 9 then 127 else (elemFf f).top), true)
  else if f = 9 then
    let q := n * 64 / d
    ((if mode.up q (n * 64 % d) d then q + 1 else q), false)
  else ((elemFf f).round mode n d, false)

/-- An element code with sign (R87): MXINT8 is two's complement, with no negative zero. -/
def signCode (f : Nat) (neg : Bool) (m : Nat) : Nat :=
  if f = 9 then (if neg ∧ m ≠ 0 then 256 - m else m) else (if neg then 2 ^ (elemFf f).width else 0) + m

/-- A quotient written as U2 or T2: integer code and saturation (R86). -/
def quantInt (f : Nat) (mode : Rnd) (neg : Bool) (n d : Nat) : Nat × Bool :=
  let hi := if neg ∧ f = 10 then 2 else 1
  let (m, sat) :=
    if n > hi * d then (hi, true)
    else
      ((if mode.up (n / d) (n % d) d then n / d + 1 else n / d), false)
  ((if m = 0 then 0 else if neg then 4 - m else m), sat)

/-- A block's written form: element codes in order, scale code, counts. -/
structure QBlock where
  codes : List Nat
  scale : Nat
  cnt   : QCount
  deriving DecidableEq, Repr

/-- The larger of two magnitudes n / 2^k. -/
def magMax (a b : Nat × Nat) : Nat × Nat := if a.1 * 2 ^ b.2 < b.1 * 2 ^ a.2 then b else a

/-- Whether magnitude a is below b. -/
def magLt (a b : Nat × Nat) : Bool := a.1 * 2 ^ b.2 < b.1 * 2 ^ a.2

/-- The scale of a block: its code, its magnitude as n / d, and whether it was clamped, for the largest magnitude A of
the inputs given (R81 to R85). The K4 scale is found after A is divided by 6 T. -/
def blockScale (f : Nat) (fit : Bool) (t : Nat × Nat) (xs : List Num) : Nat × Nat × Nat × Bool :=
  let a := xs.foldl (fun m x => magMax m x.magOf) (0, 0)
  if f = 8 then
    -- A / (6 T) = (an * 2^tk) / (2^ak * 6 * tn)
    let n := a.1 * 2 ^ t.2
    let d := 2 ^ a.2 * 6 * t.1
    if n = 0 then (0, 0, 1, false)
    else if n > 114688 * d then (0xFE, 114688, 1, true)
    else
      let c := max 1 (ffE5M3.roundUp n d)
      let (sn, sk) := ffE5M3.mag c
      (c, sn, 2 ^ sk, false)
  else if f = 10 ∨ f = 11 then
    let p := xs.foldl (fun m x => if x.sign then m else magMax m x.magOf) (0, 0)
    let q := xs.foldl (fun m x => if x.sign then magMax m x.magOf else m) (0, 0)
    let v := if f = 10 then magMax p (q.1, q.2 + 1) else a
    if v.1 = 0 then (0, 0, 1, false)
    else if v.1 > 448 * 2 ^ v.2 then (0x7E, 448, 1, true)
    else
      let c := max 1 (ffE4M3.roundUp v.1 (2 ^ v.2))
      let (sn, sk) := ffE4M3.mag c
      (c, sn, 2 ^ sk, false)
  else if a.1 = 0 then (0, 0, 1, false)
  else
    let (c, sat) := mxScale f fit a.1 a.2
    (c, 2 ^ c, 2 ^ 127, sat)

/-- The rounding of element i of an op: in stochastic mode it draws a fresh free number (R78, R79). -/
def rndOf (mode ctr i : Nat) : Rnd :=
  match mode with
  | 0 => .nearest
  | 1 => .zero
  | _ => .stoch (Config.stochastic (ctr + i)).toNat

/-- The code of an element of a block whose scale is zero: zero, with the input's sign in an MX format that has a negative
zero (R82, R87); K4, U2 and T2 write the code 0 (R83, R85). -/
def zeroCode (f : Nat) (x : Num) : Nat := if f < 8 then signCode f x.sign 0 else 0

/-- Quantises one block; an escaped element takes no part (R83, R86 to R88). `i0` numbers its first element for the
random draws; `t` is the tensor scale's magnitude, 1 but for K4. -/
def quantBlock (f : Nat) (fit : Bool) (mode ctr i0 : Nat) (t : Nat × Nat) (xs : List (Num × Bool)) : QBlock :=
  if xs.any fun x => !x.1.isFin then
    ⟨xs.map fun _ => 0, (if f = 10 ∨ f = 11 then 0x7F else 0xFF), { nan := 1 }⟩
  else
    let live := (xs.filter fun x => !x.2).map (·.1)
    let (sc, sn, sd, clamp) := blockScale f fit t live
    let c0 : QCount := { scaleSat := b2n clamp }
    let go := xs.zipIdx.map fun (x, i) =>
      if x.2 then (0, ({} : QCount))
      else if sn == 0 then (zeroCode f x.1, {})
      else
        let (n, k) := x.1.magOf
        -- x / (scale * T)
        let num := n * sd * 2 ^ t.2
        let den := 2 ^ k * sn * t.1
        let (c, sat) :=
          if f = 10 ∨ f = 11 then quantInt f (rndOf mode ctr (i0 + i)) x.1.sign num den
          else let (m, sat) := quantMag f (rndOf mode ctr (i0 + i)) num den; (signCode f x.1.sign m, sat)
        let z := if f = 9 ∨ f = 10 ∨ f = 11 then c == 0 else c % 2 ^ (elemFf f).width == 0
        (c, ({ sat := b2n sat, under := b2n (z && n != 0) } : QCount))
    -- where the scale is zero no element is nonzero, so nothing counts (R82, R83, R85)
    ⟨go.map (·.1), sc, go.foldl (fun c e => c.add e.2) c0⟩

/-- The escape candidate of a block: element index and magnitude (R91). -/
def escCandidate (k : Nat) (xs : List Num) : Option (Nat × (Nat × Nat)) :=
  if xs.any (fun x => !x.isFin) then none
  else
    let a1 := xs.foldl (fun m x => magMax m x.magOf) (0, 0)
    match xs.findIdx? fun x => !magLt x.magOf a1 with
    | none => none
    | some i =>
      let a2 := (xs.eraseIdx i).foldl (fun m x => magMax m x.magOf) (0, 0)
      if a2.1 ≠ 0 ∧ magLt (a2.1 * 2 ^ k, a2.2) a1 then some (i, a1) else none

/-- Splits a list into runs of n. -/
def chunks {α : Type} (n : Nat) : Nat → List α → List (List α)
  | 0, _ => []
  | fuel + 1, l => if l.isEmpty then [] else l.take n :: chunks n fuel (l.drop n)

/-- Drops the smallest candidate, the higher index first among equals, until eight stand (R92). -/
def keepEight (l : List (Nat × (Nat × Nat))) : Nat → List (Nat × (Nat × Nat))
  | 0 => l
  | fuel + 1 =>
    if l.length ≤ 8 then l
    else
      let m := l.foldl (fun (m : Option (Nat × (Nat × Nat))) e =>
        match m with
        | none => some e
        | some x => if magLt x.2 e.2 then some x else some e) none
      match m with
      | none => l
      | some x => keepEight (l.erase x) fuel

/-- A group's bytes as one little-endian number, of groupUnits * 32 bytes. -/
def packGroup (f : Nat) (bs : List QBlock) (esc : Option Nat) : Nat :=
  let blk (b : QBlock) : Nat := b.codes.foldr (fun c n => c + 2 ^ fmtBits f * n) 0
  let data := bs.foldr (fun b n => blk b + 2 ^ (8 * blockBytes f) * n) 0
  let scales := bs.foldr (fun b n => b.scale + 256 * n) 0
  data + 2 ^ (256 * blockBytes f) * (scales + 2 ^ 256 * esc.getD 0)

/-- The escape sector of the chosen escapes, with the numbers that saturated and that became zero (R66, R67, R87, R93). -/
def escSector (t : Nat × Nat) (xs : List Num) (chosen : List Nat) (tooMany : Bool) : Nat × QCount :=
  let slots := chosen.map fun i =>
    let x := (xs[i]?).getD Num.zero
    let (n, k) := x.magOf
    let num := n * 2 ^ t.2
    let den := 2 ^ k * t.1
    let (tn, tk) := ffBf16.mag ffBf16.top
    let sat := num * 2 ^ tk > tn * den
    let c := if sat then ffBf16.top else ffBf16.round .nearest num den
    ((if x.sign then 0x8000 else 0) + c, ({ sat := b2n sat, under := b2n (c == 0 && n != 0) } : QCount))
  let vals := slots.foldr (fun s n => s.1 + 65536 * n) 0
  let idxs := chosen.foldr (fun i n => i + 512 * n) 0
  (vals + 2 ^ 128 * idxs + 2 ^ 200 * chosen.length + 2 ^ 208 * b2n tooMany, slots.foldl (fun n s => n.add s.2) {})

/-- Quantises one group: its bytes and counts (R60 to R67, R78 to R93). -/
def quantGroup (f : Nat) (esc : Bool) (fit : Bool) (mode ksh ctr i0 : Nat) (t : Nat × Nat) (xs : List Num) : Nat × QCount :=
  let bs := chunks (blockSize f) 32 xs
  let cands := if f = 8 ∧ esc ∧ ksh ≠ 0 then
      bs.zipIdx.filterMap fun (b, i) => (escCandidate ksh b).map fun c => (i * blockSize f + c.1, c.2)
    else []
  let kept := (keepEight cands 32).map (·.1)
  let tooMany := cands.length > 8
  let qs := bs.zipIdx.map fun (b, i) =>
    quantBlock f fit mode ctr (i0 + i * blockSize f) t (b.zipIdx.map fun (x, j) => (x, kept.contains (i * blockSize f + j)))
  let (sec, ecnt) := if f = 8 ∧ esc then escSector t xs kept tooMany else (0, {})
  let cnt := qs.foldl (fun c q => c.add q.cnt) { ecnt with escOvf := b2n tooMany }
  (packGroup f qs (if f = 8 ∧ esc then some sec else none), cnt)

/-- Converts a value to BF16, FP16 or FP32 by the quantiser's rule (R89): the code, and its SAT or UNDER (R87). -/
def quantWide (f : Nat) (mode : Rnd) (x : Num) : Nat × QCount :=
  let g := elemFf f
  let s (b : Bool) := if b then 2 ^ g.width else 0
  match x with
  | .nan => (g.encode .nan, {})
  | .inf b => (s b + g.top + 1, {})
  | .fin b n k =>
    let (tn, tk) := g.mag g.top
    if n * 2 ^ tk > tn * 2 ^ k then (s b + g.top, { sat := 1 })
    else
      let c := g.round mode n (2 ^ k)
      (s b + c, { under := b2n (c == 0 && n != 0) })

end Sys2Proof.Machine
end

