-- ==== Sys2Proof/Machine/Access.lean ====
section
/-! DEFINITION. The functions of the host ports as far as an access needs them (R492, R502, R510), and who may write a register:
the path, presence, reserved fields and Seizings (R557, R560, R561, R569). -/

namespace Sys2Proof.Machine

/-! ## Functions -/

/-- Numbers of the errors of R502, in the order of its table, one name each. -/
def aerPoisoned : Nat := 12
def aerUr : Nat := 13
def aerCa : Nat := 14
def aerUc : Nat := 15
def aerAdvisory : Nat := 7
def aerOverflow : Nat := 6
def aerInternal : Nat := 16

/-- The reset severity of an uncorrectable error is Fatal (R502). -/
def aerFatal (e : Nat) : Bool := [8, 9, 10, 11, 16].contains e

/-- Severity in force: the reset severity, turned where the severity bit has been written (R502). -/
def State.aerIsFatal (s : State) (win e : Nat) : Bool := aerFatal e != s.cfgBit win (64 + e)

/-- A mask bit of the AER capability (R502). -/
def State.aerMasked (s : State) (win e : Nat) : Bool := s.cfgBit win (32 + e)

/-- Records an error in a function's AER capability; one that is not masked is reported, with vector 5 (R496, R502). -/
def State.aer1 (s : State) (win e : Nat) : State :=
  let s := s.setCfg win (96 + e) true
  if s.aerMasked win e then s else (s.pushOut (.aer win e)).msix win 5

/-- The errors of the function's header log, oldest first; the first is the First Error Pointer's (R503). -/
def State.aerLog (s : State) (win : Nat) : List Nat := tget (fun _ => []) s.ports.aerLog win
def State.setAerLog (s : State) (win : Nat) (l : List Nat) : State :=
  { s with ports := { s.ports with aerLog := tset (fun _ => []) s.ports.aerLog win l } }

/-- First Error Pointer: the error whose header the log shows (R503). -/
def State.firstError (s : State) (win : Nat) : Option Nat := (s.aerLog win).head?

/-- An unmasked uncorrectable error of a TLP takes one of four header records, or overflows them (R502, R503). -/
def State.logHeader (s : State) (win e : Nat) : State :=
  if !(11 ≤ e && e ≠ aerInternal) || s.aerMasked win e then s
  else if (s.aerLog win).length < 4 then s.setAerLog win (s.aerLog win ++ [e])
  else s.aer1 win aerOverflow

/-- An error (R502). One of Non-Fatal severity that a completion reports is handled under Role-Based Error Reporting: its status bit is set,
and an Advisory Non-Fatal error is reported in its place. -/
def State.aerErr (s : State) (win e : Nat) (completed : Bool) : State :=
  let t := s.logHeader win e
  if completed && !s.aerIsFatal win e then
    (let t := t.setCfg win (96 + e) true
    if s.aerMasked win e then t else t.aer1 win aerAdvisory)
  else t.aer1 win e

/-- The half of a port runs, so that TLPs reach the hub; the physical function is always there, a virtual one while VF Enable is
1 (R492). -/
def State.fnThere (s : State) (win : Nat) : Bool :=
  s.halfLive (s.portHalf (winOf win).port) && (win % 9 == 0 || s.cfgBit (win / 9 * 9) 1)

/-- The transactions that a port holds (R373, R374). -/
def State.heldAt (s : State) (p : Port) : List HeldAcc := match p with | .w => s.cmds.heldW | .e => s.cmds.heldE

/-- A BAR access of a function in D3hot is an Unsupported Request (R502, R510). -/
def State.barUr (s : State) (win : Nat) (read : Bool) : State :=
  (if read then s.pushOut (.cplUr win) else s).aerErr win aerUr read

/-- A management core runs, so that it makes accesses (R481, R542). -/
def State.coreRuns (s : State) (h : Half) : Bool := s.halfLive h && !(s.half h).core && !s.sec.halted

/-- An access of a BAR of a function of a port: none without the function; an Unsupported Request in D3hot (R510); a read is a
Completer Abort after an alarm of level 3 (R481); nothing passes what the port holds (R374; log 1). -/
def State.barAccess (s : State) (w : Win) (read : Bool) (k : State → State) : State :=
  if !s.fnThere w.idx then s
  else if s.inD3 w.idx then s.barUr w.idx read
  else if s.sec.halted then (if read then (s.pushOut (.cplAbort w.idx)).aerErr w.idx aerCa true else s)
  else if !(s.heldAt w.port).isEmpty then s
  else k s

/-- An access to a device block by a path (R562): a port's physical function, or a management core that runs. -/
def State.byPath (s : State) (p : Path) (read : Bool) (k : State → State) : State :=
  match p with
  | .portW => s.barAccess ⟨.w, 0⟩ read k
  | .portE => s.barAccess ⟨.e, 0⟩ read k
  | .west => if s.coreRuns .west then k s else s
  | .east => if s.coreRuns .east then k s else s

/-! ## Registers -/

/-- The half of a block's instance; device blocks belong to none (R556). -/
def instHalf (b : Blk) (inst : Nat) : Option Half :=
  match b with
  | .stack | .site => some (stackHalf inst)
  | .group => some (groupHalf inst)
  | .fidc => some (if inst = 0 then .west else .east)
  | _ => none

/-- The part lacks the instance (R560). -/
def State.lacks (s : State) (b : Blk) (inst : Nat) : Bool :=
  match instHalf b inst with
  | none => false
  | some h => !s.hasHalf h

/-- The instance lies in a half that is in reset (R560). -/
def State.instDown (s : State) (b : Blk) (inst : Nat) : Bool :=
  match instHalf b inst with
  | none => false
  | some h => s.hasHalf h && !s.halfLive h

/-- The Seizing that guards a register, by its block and offset (R569). -/
def guardOf (b : Blk) (off : Nat) : Option Nat :=
  match b with
  | .pwr => if off = 0 ∨ off = 4 ∨ (0x040 ≤ off ∧ off < 0x060) then some 0 else none
  | .hub => if 0x100 ≤ off ∧ off < 0x120 then some 1 else if off = 0x020 then some 8 else none
  | .coh => if off = 0 ∨ off = 4 ∨ off = 0x050 then some 2 else none
  | .mem => if off = 0 ∨ off = 4 then some 3 else none
  | .stack => if off = 0x210 then some 4 else none
  | .lnk => if off = 0 ∨ (0x100 ≤ off ∧ off < 0x280 ∧ off % 16 = 12) then some 5 else none
  | .site => if off = 0x010 ∨ off = 0x044 then some 6 else none
  | .pci => if off = 0x004 ∨ off = 0x018 then some 7 else none
  | .cmdDev => if off = 0 ∨ off = 8 then some 9 else none
  | .fid => if off = 0 ∨ (0x040 ≤ off ∧ off < 0x140) then some 10
      else if off = 0x010 ∨ off = 0x014 ∨ off = 0x018 then some 11 else none
  | .fidc => some 10
  | _ => none

/-- Registers of which the directory reserves every writable field to the West management core (R556, R557). MEM_CONF, whose
RESERVE alone is reserved, is not among them. -/
def reservedReg (b : Blk) (off : Nat) : Bool :=
  match b with
  | .hub => (0x140 ≤ off && off < 0x160) || (0x120 ≤ off && off < 0x12C) || off == 0x050 || off == 0x054
  | .pwr => 0x010 ≤ off && off < 0x030
  | .sec | .mgt => true
  | .coh => 0x010 ≤ off && off < 0x034
  | .mem => 0x040 ≤ off && off < 0x0A0
  | .lnk => off == 4 || off == 8 || off == 0xC || (0x100 ≤ off && off < 0x280 && off % 16 == 8)
  | .stack => off == 0x204
  | _ => false

/-- The owner of a Seizing (R568). -/
def State.seizer (s : State) (n : Nat) : Option Path := tget (fun _ => none) s.fid.seize n

/-- What the conventions let a write do, once its path has reached the hub: an absent or resetting instance ignores it (R560), a
register reserved to the West core ignores every other path (R557), and a guarded one all but the holder of its Seizing (R569);
else k takes it. -/
def State.regGate (s : State) (p : Path) (b : Blk) (inst off : Nat) (k : State → State) : State :=
  if s.lacks b inst then s
  else if s.instDown b inst then s.regEvent R.HUB_REGEVENT_HALF_DOWN b.kindCode inst p.num
  else if reservedReg b off && p != .west then s.regEvent R.HUB_REGEVENT_RESERVED_W b.kindCode inst p.num
  else if (match guardOf b off with | none => false | some n => s.seizer n != some p) then
    s.regEvent R.HUB_REGEVENT_UNSEIZED b.kindCode inst p.num
  else k s

/-- A path's write of a register of a device block. -/
def State.regWrite (s : State) (p : Path) (b : Blk) (inst off : Nat) (k : State → State) : State :=
  s.byPath p false fun s => s.regGate p b inst off k

/-- A write that a field refuses while its condition holds (R567). -/
def State.regRefused (s : State) (p : Path) (b : Blk) (inst : Nat) : State :=
  s.regEvent R.HUB_REGEVENT_REFUSED b.kindCode inst p.num

end Sys2Proof.Machine
end

