-- ==== Sys2Proof/Machine/SiteOut.lean ====
section
/-! DEFINITION. Messages to a chiplet through the attach points of its site (R280 to R288, R293). -/

namespace Sys2Proof.Machine

def State.modSite (s : State) (k : Nat) (f : Site → Site) : State := s.setSite k (f (s.site k))
def State.siteMinor (s : State) (k : Nat) : Nat := s.fget R.SITE_STAT_MINOR k 0
def State.ap (s : State) (k j : Nat) : Attp := tget (fun _ => {}) (s.site k).aps j
def State.setAp (s : State) (k j : Nat) (a : Attp) : State :=
  s.modSite k fun x => { x with aps := tset (fun _ => {}) x.aps j a }

def State.apLive (s : State) (k j : Nat) : Bool := s.fvec R.SITE_STAT_LIVE k 0 j

/-- Hops between an attach point and an agent's router. -/
def State.apHops (s : State) (k j : Nat) (a : Agent) : Nat :=
  let (x, y) := apPlace k j
  let r := s.router a
  (max x (r % 20) - min x (r % 20)) + (max y (r / 20) - min y (r / 20))

/-- The live attach point of a site fewest hops from an agent (R287, R288). -/
def State.nearAp (s : State) (k : Nat) (a : Agent) : Option Nat :=
  ((List.range 16).filter (s.apLive k)).foldl (fun (b : Option Nat) j =>
    match b with | none => some j | some i => if s.apHops k j a < s.apHops k i a then some j else b) none

/-- Room for one more frame in the replay buffer (R284). -/
def Attp.room (a : Attp) : Bool := !a.retrain && (a.tx - a.acked).toNat < 256

/-- Credits that one frame gives back: 15 at most (R282). -/
def owed (n : Nat) : Nat := min n 15

/-- The link word of the next frame of attach point j (R280, R282). -/
def Attp.word (a : Attp) (ap : Bool) (j : Nat) (h : Option SiteHdr) : TspWord :=
  { seq := a.tx, ack := a.rx - 1, nak := a.nakd, kind := (frameKind h).1, nhdr := (frameKind h).2, link := ap && j % 2 == 1,
    crReq := BitVec.ofNat 4 (owed a.reqOwed), crSnp := 0, crCtl := BitVec.ofNat 4 (owed a.ctlOwed) }

/-- The attach point after it has sent one frame (R284, R285). -/
def Attp.sent (a : Attp) (m : Option (Agent × Out)) : Attp :=
  { a with tx := a.tx + 1, buf := a.buf ++ [(a.tx, m)], reqOwed := a.reqOwed - owed a.reqOwed, ctlOwed := a.ctlOwed - owed a.ctlOwed }

/-- Sends one frame at an attach point: a message, or an idle frame (R281, R282). -/
def State.frameOut (s : State) (k j : Nat) (m : Option (Agent × Out)) : State :=
  let a := s.ap k j
  let h := m.bind fun x => Out.siteHdr x.2
  let w := a.word (((s.fuse.sites[k]?).getD {}).kind == .ap) j h
  let s := (s.setAp k j (a.sent m)).pushOut (.tsp k j (tspBytes w.bits ((h.map SiteHdr.flit).getD 0)))
  match m with
  | none => s
  | some x => s.pushOut x.2

/-- Sends a frame of the replay buffer again under its own SEQ (R284). -/
def State.frameAgain (s : State) (k j : Nat) (e : BitVec 12 × Option (Agent × Out)) : State :=
  let h := e.2.bind fun x => Out.siteHdr x.2
  let w := { (s.ap k j).word (((s.fuse.sites[k]?).getD {}).kind == .ap) j h with seq := e.1, crReq := 0, crCtl := 0 }
  let s := s.pushOut (.tsp k j (tspBytes w.bits ((h.map SiteHdr.flit).getD 0)))
  match e.2 with
  | none => s
  | some x => s.pushOut x.2

/-- An idle frame carries acknowledgements and credits while no message moves (R282). -/
def State.idleFrame (s : State) (k j : Nat) : State := if (s.ap k j).room then s.frameOut k j none else s

/-- Whether a message of the class of an output has credit (R285). -/
def Attp.credit (a : Attp) (o : Out) : Bool :=
  match o with
  | .siteSnoop _ _ => a.snpCr != 0
  | .ctl _ _ _ _ => a.ctlCr != 0
  | _ => true

def Attp.spend (a : Attp) (o : Out) : Attp :=
  match o with
  | .siteSnoop _ _ => { a with snpCr := a.snpCr - 1 }
  | .ctl _ _ _ _ => { a with ctlCr := a.ctlCr - 1 }
  | _ => a

/-- Sends what waits at an attach point while the replay buffer has room and the class has credit (R284, R285); fuel bounds the
messages. -/
def State.flushAp (s : State) (k j : Nat) : Nat → State
  | 0 => s
  | fuel + 1 =>
    let a := s.ap k j
    if !a.room then s
    else
      match a.queue.find? fun x => a.credit x.2 with
      | none => s
      | some x =>
        let b := a.spend x.2
        ((s.setAp k j { b with queue := a.queue.erase x }).frameOut k j (some x)).flushAp k j fuel

/-- The attach point can send a message now: no retrain, room in the replay buffer, and credit of its class (R284 to R286). -/
def State.apReady (s : State) (k j : Nat) (o : Out) : Bool :=
  let a := s.ap k j
  s.apLive k j && a.room && a.credit o

/-- Sends a message at an attach point at once. -/
def State.apEmit (s : State) (k j : Nat) (src : Agent) (o : Out) : State :=
  let a := s.ap k j
  (s.setAp k j (a.spend o)).frameOut k j (some (src, o))

/-- Queues a message at an attach point. -/
def State.apQueue (s : State) (k j : Nat) (src : Agent) (o : Out) : State :=
  let a := s.ap k j
  (s.setAp k j { a with queue := a.queue ++ [(src, o)] }).flushAp k j (a.queue.length + 1)

/-- Sends a message to a chiplet at the live attach point fewest hops from its sender (R287). -/
def State.siteOut (s : State) (k : Nat) (src : Agent) (o : Out) : State :=
  match s.nearAp k src with
  | none => s
  | some j => s.apQueue k j src o

/-- Sends a response at the attach point that took the request, or, where that is disabled, at the live one fewest hops from the
responder (R287, R290). -/
def State.siteBack (s : State) (k j : Nat) (src : Agent) (o : Out) : State :=
  if s.apLive k j then s.apQueue k j src o else s.siteOut k src o

/-- What a chiplet gets in answer to a request: one before TSP 1.2 gets STATUS 6 in place of poison (R293). -/
def State.rspMsg (s : State) (k : Nat) (rt : RspTo) (status : BitVec 3) (grant poison : BitVec 2) (data : Option LineData) : Out :=
  if poison ≠ 0 ∧ s.siteMinor k < 2 then .siteRsp k rt 6 0 0 none else .siteRsp k rt status grant poison data

/-- The answer to a site's request by an agent that stands nowhere else than at the site. -/
def State.siteRsp (s : State) (k : Nat) (src : Agent) (rt : RspTo) (status : BitVec 3) (grant poison : BitVec 2)
    (data : Option LineData) : State :=
  s.siteOut k src (s.rspMsg k rt status grant poison data)

/-- The answer to a site's request at the attach point that took it. -/
def State.siteRspAt (s : State) (k j : Nat) (src : Agent) (rt : RspTo) (status : BitVec 3) (grant poison : BitVec 2)
    (data : Option LineData) : State :=
  s.siteBack k j src (s.rspMsg k rt status grant poison data)

def siteAgent (k : Nat) : Agent := ⟨.site, k⟩

/-- What the response to a Cleat op names: ADDR holds the Cleat number (R291). -/
def cleatTo (slot : Nat) (tag : BitVec 12) (c : BitVec 16) : RspTo := ⟨slot, tag, c.toNat, 0⟩

/-- What the response to a memory request names. -/
def pktTo (slot : Nat) (tag : BitVec 12) (p : Pkt) : RspTo := ⟨slot, tag, p.addr.toNat, p.sect.toNat⟩

/-- What the answer to a CTL request names, which has no address. -/
def ctlTo (slot : Nat) (tag : BitVec 12) : RspTo := ⟨slot, tag, 0, 0⟩

/-- A held request's answer: what it names, and the attach point that took it (R290, R309). -/
def SiteMsg.rspTo : SiteMsg → RspTo
  | .req slot tag p => pktTo slot tag p
  | .sig slot tag c _ _ | .rd slot tag c | .watch slot tag c _ _ _ => cleatTo slot tag.tag c
  | .ctl slot _ tag => ctlTo slot tag

/-- The answer to a request that the hub has not let into the mesh: a memory request's at the attach point that took it. -/
def State.answerMsg (s : State) (k : Nat) (m : SiteMsg) (status : BitVec 3) : State :=
  match m with
  | .req _ _ p => s.siteRspAt k p.ap (siteAgent k) m.rspTo status 0 0 none
  | _ => s.siteRsp k (siteAgent k) m.rspTo status 0 0 none

end Sys2Proof.Machine
end

