-- ==== Sys2Proof/Machine/Shared.lean ====
section
/-! DEFINITION. What several families share above the fabric: the synchronisation trace (R591 to R595), running commands
(R390 to R393), the power governor (R432 to R447), and the increments of Cleats with the waits they complete (R254). -/

namespace Sys2Proof.Machine

/-! ## Synchronisation trace -/

/-- The bit of FID_TRCONF.KINDS that selects a record kind; kind 10 is always selected (R592). -/
def kindBit (kind : Nat) : Option Nat :=
  match kind with
  | 1 => some 0 | 2 => some 1 | 3 => some 2 | 4 => some 3 | 5 => some 4 | 6 => some 4 | 7 => some 5 | 8 => some 6
  | 9 => some 6 | 11 => some 7 | _ => none

/-- The trace takes records of the partition and kind. -/
def State.traces (s : State) (kind part : Nat) : Bool :=
  s.fvec R.FID_TRCONF_EN 0 0 part
    && (match kindBit kind with | none => true | some b => s.fvec R.FID_TRCONF_KINDS 0 0 b)
    && (s.fget R.FID_TRSTAT_STATE 0 0 == 1 || s.fget R.FID_TRSTAT_STATE 0 0 == 2)

/-- A trace buffer in mode 1 is full (R594). -/
def State.traceFull (s : State) (part : Nat) : Bool :=
  s.fbit R.FID_TRCONF_MODE 0 0 && s.fget R.FID_BUF_TSIZE 0 part != 0
    && s.fget R.FID_BUF_TSIZE 0 part * 0x10000 ≤ s.fget R.FID_BUF_TPTR 0 part

/-- A record that comes after the trace has frozen at the end of its buffer: it is counted as dropped (R594). -/
def State.traceLate (s : State) (kind part : Nat) : Bool :=
  s.fvec R.FID_TRCONF_EN 0 0 part
    && (match kindBit kind with | none => true | some b => s.fvec R.FID_TRCONF_KINDS 0 0 b)
    && s.fget R.FID_TRSTAT_STATE 0 0 == 3 && s.traceFull part

/-- A record dropped: counted, with its event (R593). -/
def State.traceDrop (s : State) (part : Nat) : State :=
  let s := s.fadd R.FID_TRSTAT_DROPS 0 0 1
  let s := (s.fset R.FID_EVENT_TDROP 0 0 1).fset R.FID_EVENT_PART 0 0 part
  { s with fid := { s.fid with dropped := min (s.fid.dropped + 1) 0xFFFF } }

/-- A sample record of a buffer is dropped (R590). -/
def State.sampleDrop (s : State) (p : Nat) : State :=
  (s.fset R.FID_EVENT_SMISSING 0 0 1).fset R.FID_EVENT_PART 0 0 p

/-- After the trigger, POSTLEFT falls at each record of the partition, and the trace freezes at zero (R595). -/
def State.postCount (s : State) (part : Nat) : State :=
  if s.fget R.FID_TRSTAT_STATE 0 0 = 2 ∧ s.fget R.FID_TRIG_PART 0 0 = part then
    let n := s.fget R.FID_TRSTAT_POSTLEFT 0 0 - 1
    let s := s.fset R.FID_TRSTAT_POSTLEFT 0 0 n
    if n = 0 then s.fset R.FID_TRSTAT_STATE 0 0 3 else s
  else s

/-- The staged records of a half. -/
def State.traceQ (s : State) (h : Half) : List TraceRec := match h with | .west => s.fid.queueW | .east => s.fid.queueE

/-- The staging queue of a half is full (R593). -/
def State.stageFull (s : State) (hf : Half) : Bool := 512 ≤ (s.traceQ hf).length

/-- Stages a record in its half's queue of 512, or drops it (R593). -/
def State.stage (s : State) (hf : Half) (r : TraceRec) : State :=
  let r := { r with tally := s.tally, dropped := s.fid.dropped }
  let q := s.traceQ hf
  if s.stageFull hf then s.traceDrop r.part
  else
    let f := match hf with
      | .west => { s.fid with queueW := q ++ [r], dropped := 0 }
      | .east => { s.fid with queueE := q ++ [r], dropped := 0 }
    { s with fid := f }

/-- The trigger fires: a kind 10 record, with the Cleat that the condition concerned and its value, the stamp, the event, and the
post-count starts (R595; log 21). -/
def State.fireTrigger (s : State) (hf : Half) (c : Option (BitVec 16)) : State :=
  let p := s.fget R.FID_TRIG_PART 0 0
  let s := { s with fid := { s.fid with armed := false } }
  let value := match c with | none => 0 | some c => (s.cleat c.toNat).val
  let s := s.stage hf ⟨s.tally, 10, ⟨.mgmt, 0⟩, c.getD 0, value, 0, none, p, 0, true⟩
  let s := (s.fset R.FID_TRTIME_LO 0 0 s.tally.toNat).fset R.FID_TRTIME_HI 0 0 (s.tally.toNat / 2 ^ 32)
  let s := (s.fset R.FID_EVENT_TRIGGERED 0 0 1).fset R.FID_EVENT_PART 0 0 p
  let post := s.fget R.FID_TRCONF_POST 0 0
  (s.fset R.FID_TRSTAT_POSTLEFT 0 0 post).fset R.FID_TRSTAT_STATE 0 0 (if post = 0 then 3 else 2)

/-- TRACE_TRIGGER (R595): fires where the armed trigger is of this kind and partition and its condition holds. -/
def State.trigger (s : State) (hf : Half) (kind part : Nat) (cond : Bool) (c : Option (BitVec 16) := none) : State :=
  if s.fid.armed && s.fget R.FID_TRSTAT_STATE 0 0 == 1 && s.fget R.FID_TRIG_KIND 0 0 == kind
      && s.fget R.FID_TRIG_PART 0 0 == part && cond then s.fireTrigger hf c
  else s

/-- TRACE_RECORD (R592). -/
def State.trace (s : State) (hf : Half) (kind : Nat) (agent : Agent) (cleat : BitVec 16) (value arg : CleatVal)
    (waker : Option Agent) (part : Nat) : State :=
  if s.traces kind part then
    let full := s.stageFull hf
    let s := s.stage hf ⟨0, kind, agent, cleat, value, arg, waker, part, 0, false⟩
    if full then s else (s.postCount part).trigger hf 5 part (kind == 3) (some cleat)
  else if s.traceLate kind part then s.traceDrop part
  else s

/-! ## Running commands -/

/-- Status codes of R392. -/
def stOk : BitVec 8 := 0x00
def stOpFault : BitVec 8 := 0x01
def stGuardTripped : BitVec 8 := 0x02
def stBadOpcode : BitVec 8 := 0x03
def stNotPermitted : BitVec 8 := 0x04
def stBadField : BitVec 8 := 0x05
def stBadFormat : BitVec 8 := 0x06
def stCtxOwner : BitVec 8 := 0x07
def stGroupOwner : BitVec 8 := 0x08
def stCleatOwner : BitVec 8 := 0x09
def stSlotOwner : BitVec 8 := 0x0A
def stHandleOwner : BitVec 8 := 0x0B
def stFlushed : BitVec 8 := 0x0C
def stTimeout : BitVec 8 := 0x0D
def stXlateCancelled : BitVec 8 := 0x0E
def stMemDenied : BitVec 8 := 0x0F
def stPoison : BitVec 8 := 0x10
def stPutRefused : BitVec 8 := 0x11
def stSiteState : BitVec 8 := 0x12
def stSiteSevered : BitVec 8 := 0x13
def stWorkFailed : BitVec 8 := 0x14
def stNoPartition : BitVec 8 := 0x15
def stDigestMismatch : BitVec 8 := 0x16
def stMarginRefused : BitVec 8 := 0x17
def stLeaveRefused : BitVec 8 := 0x18
def stHalfDown : BitVec 8 := 0x19
def stBusy : BitVec 8 := 0x1A

/-- A packet's bytes as one number, little-endian (R20). -/
def pktNum (b : List (BitVec 8)) : Nat := b.foldr (fun x n => x.toNat + 256 * n) 0

/-- Bits [hi:lo] of a packet. -/
def pktBits (b : List (BitVec 8)) (hi lo : Nat) : Nat := bitsOf (pktNum b) hi lo

/-- Field of n bytes from byte offset o of a packet. -/
def pktField (b : List (BitVec 8)) (o n : Nat) : Nat := bitsOf (pktNum b) (8 * (o + n) - 1) (8 * o)

/-- Header fields of R367. -/
def pktOpcode (b : List (BitVec 8)) : Nat := pktBits b 7 0
def pktLen (b : List (BitVec 8)) : Nat := pktBits b 16 8
def pktSeq (b : List (BitVec 8)) : Nat := pktBits b 47 32
def pktOrder (b : List (BitVec 8)) : Nat := pktBits b 49 48
def pktSvc (b : List (BitVec 8)) : Nat := pktBits b 52 50
def pktPolicy (b : List (BitVec 8)) : Nat := pktBits b 55 53
def pktThresh (b : List (BitVec 8)) : Nat := pktBits b 59 56
def pktIrq (b : List (BitVec 8)) : Bool := pktBits b 60 60 == 1
def pktReply (b : List (BitVec 8)) : Nat := pktBits b 115 64
def pktCtx (b : List (BitVec 8)) : Nat := pktBits b 139 128
def pktRcleat (b : List (BitVec 8)) : Nat := pktBits b 155 140
def pktRcen (b : List (BitVec 8)) : Bool := pktBits b 156 156 == 1
def pktTmo (b : List (BitVec 8)) : Nat := pktBits b 172 157
def pktUser (b : List (BitVec 8)) : Nat := pktBits b 255 192

/-- A command in a control window (R363). -/
def Run.control (r : Run) : Bool := r.halyard || r.win.fn.val == 0

/-- The packet sequencer that serves a window, as an agent of the fabric (R366). -/
def State.pseqOf (s : State) (w : Win) : Agent := ⟨.pseq, (s.portHalf w.port).num⟩

/-- The packet sequencer lane of a command, as the trace names it (R592). -/
def Run.laneAgent (r : Run) : Agent := ⟨.pseq, r.win.idx * 4 + r.lane⟩

/-- Sets the status of a command unless one is recorded: the first decides (R393). -/
def Run.finish (r : Run) (st : BitVec 8) (detail : Nat) : Run :=
  match r.status with
  | none => { r with status := some st, detail := BitVec.ofNat 24 detail }
  | some _ => r

/-- Records a status for the command of a number. -/
def State.finish (s : State) (id : Nat) (st : BitVec 8) (detail : Nat) : State :=
  match s.run id with
  | none => s
  | some r => s.setRun (r.finish st detail)

/-- Removes from its lane's heads the packet of an order number. -/
def State.dropHead (s : State) (lane order : Nat) : State :=
  let l := s.lane lane
  s.setLane lane { l with heads := l.heads.filter fun p => p.order != order }

/-- A run made of a packet. -/
def mkRun (w : Win) (lane : Nat) (p : Packet) : Run :=
  { id := p.order, win := w, lane := lane, bytes := p.bytes, order := p.order, halyard := false, tStart := 0, body := false,
    status := none, detail := 0, left := 0, guard := {}, res := [], groups := [], leave := false, stopped := false,
    replied := false, poison := false, mark := 0, mute := false, tEnd := none }

/-- A head packet completes without starting: its T_START stays zero (R391). -/
def State.completeHead (s : State) (w : Win) (lane : Nat) (p : Packet) (st : BitVec 8) (detail : Nat) : State :=
  let s := s.dropHead (w.idx * 4 + lane) p.order
  let r := { (mkRun w lane p).finish st detail with body := true }
  { s with cmds := { s.cmds with runs := s.cmds.runs ++ [r] } }

/-- The lane and packet of a command that waits as a lane's head. -/
def State.headOf (s : State) (id : Nat) : Option (Nat × Packet) :=
  s.cmds.lanes.findSome? fun e => (e.2.heads.head?).bind fun p => if p.order = id then some (e.1, p) else none

/-! ## Power governor -/

/-- Declared power limit of a site (R9). -/
def State.siteLimit (s : State) (k : Nat) : Nat := ((s.fuse.sites[k]?).getD {}).limit
def State.siteKind (s : State) (k : Nat) : Attach := ((s.fuse.sites[k]?).getD {}).kind

/-- The base allowance a site receives at its next link-up (R303). -/
def State.siteNext (s : State) (k : Nat) : Nat :=
  let b := s.fget R.SITE_PWR_BASE_W k 0
  if b = 0 then s.siteLimit k / 2 else b

/-- Leave granted and not returned (R434, R437). -/
def State.granted (s : State) : Nat :=
  (s.pwr.grants.map (·.2)).foldl (· + ·) 0

/-- The committed sum without the partitions' and sites' own changes (R434). -/
def State.committed (s : State) : Nat :=
  s.fget R.PWR_LIMIT_FIXED_W 0 0
    + ((List.range 8).map fun p => s.fget R.PWR_PBASE_BASE_W 0 p).foldl (· + ·) 0
    + (((List.range s.nStacks).filter fun k => s.siteKind k != .cover).map fun k =>
        max (s.site k).baseNow (s.siteNext k)).foldl (· + ·) 0
    + s.granted

/-- The leave pool (R434). -/
def State.freeW (s : State) : Nat := s.fget R.PWR_LIMIT_PKG_W 0 0 - s.committed

/-- Charge of a tile group at VTARGET, by its code (R435). -/
def chargeOf (v : Nat) : Nat := match v with | 0 => 13 | 1 => 17 | 2 => 20 | 3 => 25 | _ => 30

/-- A DISPATCH that runs (R435): started and short of step 1 of R390. -/
def Run.dispatching (r : Run) : Bool := pktOpcode r.bytes == 1 && !r.halyard && !r.groups.isEmpty && r.tEnd.isNone

/-- Tile groups that run a DISPATCH. -/
def State.runningGroups (s : State) : List Nat := (s.cmds.runs.filter Run.dispatching).flatMap Run.groups

/-- Leave a site holds. -/
def State.siteLeave (s : State) (k : Nat) : Nat :=
  ((s.pwr.grants.filter fun g => g.1 == LeaveWho.site ⟨k % 8, Nat.mod_lt _ (by decide)⟩).map (·.2)).foldl (· + ·) 0

/-- Allowance of a site in force (R316). -/
def State.allowance (s : State) (k : Nat) : Nat := (s.site k).baseNow + s.siteLeave k

/-- Tile groups that a DISPATCH packet selects (R379). -/
def cmdGroups (b : List (BitVec 8)) : List Nat := (List.range 24).filter fun g => (pktField b 32 3).testBit g

/-- Tile groups of DISPATCHes that hold leave and have not started: their gates are in force before the grant is sent (R442). -/
def State.grantedGroups (s : State) : List Nat :=
  s.pwr.grants.flatMap fun g =>
    match g.1 with
    | .cmd id => match s.headOf id with | some (_, p) => cmdGroups p.bytes | none => []
    | _ => []

/-- Sixteen times the load of a quadrant at a gate, with `extra` watts more for its site (R446). -/
def State.quadLoad (s : State) (q gate extra : Nat) : Nat :=
  let n := ((s.runningGroups ++ s.grantedGroups).filter fun g => groupStack g == q).length
  16 * (s.allowance q + extra) + n * chargeOf s.pwr.vNow * gate

/-- The highest gate from 16 down to 4 at which the load fits; 4 where none does (R446). -/
def State.loadGate (s : State) (q : Nat) : Nat :=
  if s.siteKind q = .d3 then
    ([16, 15, 14, 13, 12, 11, 10, 9, 8, 7, 6, 5].find? fun g =>
      s.quadLoad q g 0 ≤ 16 * s.fget R.PWR_QUAD_LIMIT_W 0 q).getD 4
  else 16

/-- Gate cap of a stack's temperature (R445). -/
def State.stkGate (s : State) (q : Nat) : Nat := tget (fun _ => 16) s.pwr.stkGate q
def State.jGate (s : State) (q : Nat) : Nat := if q < 4 then s.pwr.jgateW else s.pwr.jgateE

/-- QUAD_GATE_UPDATE (R445, R446): the lowest cap decides the gate, and its cause is recorded. -/
def State.updGate (s : State) (q : Nat) : State :=
  let a := s.loadGate q
  let g := min (min a (s.stkGate q)) (min (s.jGate q) s.pwr.pkgGate)
  let cause := if g = 16 then 0 else if g = a then 1 else if g = s.stkGate q then 2 else if g = s.jGate q then 3 else 4
  let old := s.fget R.PWR_QUAD_GATE 0 q
  let s := (s.fset R.PWR_QUAD_GATE 0 q g).fset R.PWR_QUAD_CAUSE 0 q cause
  if old = 16 ∧ g < 16 then s.ev R.PWR_EVENT_GATED 0 else s

def State.updGates (s : State) : State := (List.range s.nStacks).foldl State.updGate s

/-- The rail of a half, coded as VTARGET: the lowest voltage that a throttle asks for (R445). -/
def State.rail (s : State) (h : Half) : Nat :=
  s.pwr.vNow - max (min s.pwr.pkgSteps s.pwr.vNow) (match h with | .west => s.pwr.junW | .east => s.pwr.junE)

/-- VWEST and VEAST; a half in reset shows the reset value (R449, R560). -/
def State.showRails (s : State) : State :=
  let s := s.fset R.PWR_DRAW_VWEST 0 0 (if s.halfLive .west then s.rail .west else 2)
  s.fset R.PWR_DRAW_VEAST 0 0 (if s.fuse.small then 0 else if s.halfLive .east then s.rail .east else 2)

/-- A change that may bring loads above their limits even at gate 4 (R447): QUAD_OVER for a quadrant it touches. -/
def State.quadChange (s : State) (qs : List Nat) : State :=
  let tooMuch := qs.any fun q => s.siteKind q == .d3 && s.quadLoad q 4 0 > 16 * s.fget R.PWR_QUAD_LIMIT_W 0 q
  let s := if tooMuch then s.ev R.PWR_EVENT_QUAD_OVER 0 else s
  s.updGates

/-- The CTL answer LeaveRsp to a site (R294): 0 granted, 1 queued, 2 refused. -/
def leaveRsp (k : Nat) (tag : BitVec 12) (code watts : Nat) : Out := .ctl k 0x5C tag (BitVec.ofNat 512 (code + 256 * watts))

/-- The partition and half of a requester of leave. -/
def State.leavePart (s : State) (w : LeaveWho) : Option Nat :=
  match w with
  | .site k => s.sitePart k.val
  | .cmd id => (s.headOf id).bind fun x => s.partOfWin (winOf (x.1 / 4))
  | .run _ => none

def LeaveWho.agent (s : State) (w : LeaveWho) : Agent :=
  match w with
  | .site k => ⟨.site, k.val⟩
  | .cmd id => ⟨.pseq, ((s.headOf id).map (·.1)).getD 0⟩
  | .run _ => ⟨.mgmt, 0⟩

def State.traceLeave (s : State) (kind : Nat) (w : LeaveWho) (watts : Nat) : State :=
  s.trace .west kind (LeaveWho.agent s w) 0 0 (BitVec.ofNat 48 watts) none ((s.leavePart w).getD 8)

/-- Granting a site this leave would bring its quadrant's load at gate 4 above LIMIT_W (R447). -/
def State.leaveOver (s : State) (w : LeaveWho) (watts : Nat) : Bool :=
  match w with
  | .site k => s.siteKind k.val == .d3 && s.quadLoad k.val 4 watts > 16 * s.fget R.PWR_QUAD_LIMIT_W 0 k.val
  | .cmd _ | .run _ => false

def State.srun (s : State) (k : Nat) : StackRun := tget (fun _ => {}) s.hank.runs k
def State.setSrun (s : State) (k : Nat) (r : StackRun) : State :=
  { s with hank := { s.hank with runs := tset (fun _ => {}) s.hank.runs k r } }

/-- The channels of a stack. -/
def stackChans (k : Nat) : List Nat := (List.range 128).map fun c => 128 * k + c

/-- A run on a stack takes effect once its leave is granted (R437, R536); a destructive run leaves the stack's contents
undefined (R190, R533). -/
def State.startRun (s : State) (k : Nat) : State :=
  let r := s.srun k
  (s.setSrun k { r with march := r.march || r.marchWait, marchWait := false, marginWait := false }).scramble (stackChans k)

/-- A run whose leave is refused does not start (R439, R536); the manual names no reason for a margin run (log 6). -/
def State.refuseRun (s : State) (k : Nat) : State :=
  let r := s.srun k
  if r.marchWait then
    ((((s.setSrun k { r with marchWait := false }).fset R.MEM_MARCH_STAT_BUSY k 0 0).fset R.MEM_MARCH_STAT_REFUSED k 0 1).fset
      R.MEM_MARCH_STAT_REASON k 0 6)
  else if r.marginWait then
    let s := (s.setSrun k { r with margin := none, marginWait := false, marginCmd := none }).fset R.MEM_MARGIN_STAT_BUSY k 0 0
    let s := (s.fset R.MEM_MARGIN_STAT_REFUSED k 0 1).fset R.MEM_MARGIN_STAT_REASON k 0 (Config.number s.freeCtr)
    let s := s.bump
    match r.marginCmd with
    | none => s
    | some id => s.finish id stMarginRefused (s.fget R.MEM_MARGIN_STAT_REASON k 0)
  else s

/-- Grants leave: the gate is in force before the grant is sent (R442). -/
def State.grantLeave (s : State) (w : LeaveWho) (watts : Nat) : State :=
  let s := s.traceLeave 9 w watts
  let s := { s with pwr := { s.pwr with grants := s.pwr.grants ++ [(w, watts)] } }
  let s := s.updGates
  match w with
  | .site k => s.siteOut k.val (siteAgent k.val) (leaveRsp k.val (s.site k.val).leaveTag 0 watts)
  | .cmd _ => s
  | .run k => s.startRun k.val

/-- Refuses leave: a site is told, a command completes with LEAVE_REFUSED (R379, R439). -/
def State.refuseLeave (s : State) (w : LeaveWho) : State :=
  let s := s.ev R.PWR_EVENT_LEAVE_REFUSED 0
  match w with
  | .site k => s.siteOut k.val (siteAgent k.val) (leaveRsp k.val (s.site k.val).leaveTag 2 0)
  | .cmd id =>
    match s.headOf id with
    | none => s
    | some (l, p) => s.completeHead (winOf (l / 4)) (l % 4) p stLeaveRefused 0
  | .run k => s.refuseRun k.val

/-- Decides the queue's head again and again while it can be (R440); fuel bounds the queue's length. -/
def State.decideQueue (s : State) : Nat → State
  | 0 => s
  | n + 1 =>
    match s.pwr.queue with
    | [] => s
    | h :: rest =>
      if h.watts > s.freeW then s
      else
        let t := { s with pwr := { s.pwr with queue := rest } }
        (if s.leaveOver h.who h.watts then t.refuseLeave h.who else t.grantLeave h.who h.watts).decideQueue n

/-- LEAVE_RETURN (R443): leave goes back to the pool and the queue's head is decided. -/
def State.returnLeave (s : State) (w : LeaveWho) : State :=
  let s := { s with pwr := { s.pwr with grants := s.pwr.grants.filter fun g => g.1 != w } }
  (s.updGates).decideQueue 32

/-- A request leaves the queue (R443); `tell` answers a site that it is refused. -/
def State.unqueueLeave (s : State) (w : LeaveWho) (tell : Bool) : State :=
  if s.pwr.queue.any fun q => q.who == w then
    let s := { s with pwr := { s.pwr with queue := s.pwr.queue.filter fun q => q.who != w } }
    let s := match w with
      | .site k => if tell then s.siteOut k.val (siteAgent k.val) (leaveRsp k.val (s.site k.val).leaveTag 2 0) else s
      | .cmd _ | .run _ => s
    s.decideQueue 32
  else s

/-! ## Cleats -/

/-- The owner of a Cleat's block of 1,024 (R450). -/
def State.cleatOwner (s : State) (c : Nat) : Option Nat := tget (fun _ => none) s.cleats.blocks (c / 1024)

def cleatHalf (c : BitVec 16) : Half := if c.toNat < 32768 then .west else .east

/-- Completes the WAITs of tiles on a Cleat that has reached their targets, with their records (R134, R592). -/
def State.wakeTiles (s : State) (c : BitVec 16) : State :=
  s.tiles.foldl (fun s e =>
    match e.2.waiting with
    | none => s
    | some w =>
      let x := s.cleat c.toNat
      if w.cleat = c ∧ w.target.toNat ≤ x.val.toNat then
        let s := s.setTile e.1 { s.tile e.1 with waiting := none }
        let s := s.fidEvent (tileHalf e.1) 0 (e.1 / 4) 6 (s.groupOwner (e.1 / 4)) (tallyDiff s.tally w.since)
        s.trace (cleatHalf c) 2 ⟨.tile, e.1⟩ c x.val w.target x.waker ((s.groupOwner (e.1 / 4)).getD 8)
      else s) s

/-- Completes the CleatWatches of sites on a Cleat that has reached their targets (R291, R592). -/
def State.wakeWatches (s : State) (c : BitVec 16) : State :=
  s.cleats.watches.foldl (fun s w =>
    let x := s.cleat c.toNat
    if w.cleat = c ∧ w.target.toNat ≤ x.val.toNat then
      let s := { s with cleats := { s.cleats with watches := s.cleats.watches.erase w } }
      let s := s.siteRsp w.site ⟨.cleatBank, c.toNat / 4096⟩ (cleatTo w.slot w.tag c) 0 0 0 none
      s.trace (cleatHalf c) 6 ⟨.site, w.site⟩ c x.val w.target x.waker ((s.sitePart w.site).getD 8)
    else s) s

/-- Completes the CLEAT_WAITs on a Cleat that has reached their values (R383, R592). -/
def State.wakeCmds (s : State) (c : BitVec 16) : State :=
  s.cmds.runs.foldl (fun s r =>
    let x := s.cleat c.toNat
    let v := pktField r.bytes 40 6
    if pktOpcode r.bytes = 0x83 ∧ r.body ∧ r.status = none ∧ pktField r.bytes 32 2 = c.toNat ∧ v ≤ x.val.toNat then
      let s := s.finish r.id stOk 0
      s.trace (cleatHalf c) 6 r.laneAgent c x.val (BitVec.ofNat 48 v) x.waker ((s.partOfWin r.win).getD 8)
    else s) s

/-- Every wait on a Cleat that its value now satisfies completes (R254). -/
def State.wake (s : State) (c : BitVec 16) : State :=
  let s := ((s.wakeTiles c).wakeWatches c).wakeCmds c
  let part := s.fget R.FID_TRIG_PART 0 0
  s.trigger (cleatHalf c) 2 part
    (c.toNat == s.fget R.FID_TRIGV_CLEAT 0 0 && s.cleatOwner c.toNat == some part
      && s.fget R.FID_TRIGV_VALUE 0 0 ≤ (s.cleat c.toNat).val.toNat) (some c)

/-- An increment applied at its bank, modulo 2^48, with the agent it came from (R254, R591). -/
def State.applyInc (s : State) (c : BitVec 16) (inc : CleatVal) (a : Agent) : State :=
  let x := s.cleat c.toNat
  let s := s.setCleat c.toNat { val := x.val + inc, waker := some a }
  let s := s.trace (cleatHalf c) (if a.kind = .lanyard then 11 else 4) a c (x.val + inc) inc none
    ((s.cleatOwner c.toNat).getD 8)
  s.wake c

/-- An increment sent toward its bank (R254); across a closed Splice it is answered there and lost (R37). -/
def State.sendInc (s : State) (c : BitVec 16) (inc : CleatVal) (a : Agent) : State :=
  { s with cleats := { s.cleats with flying := s.cleats.flying ++ [⟨c, inc, a, none⟩] } }

end Sys2Proof.Machine
end

