-- ==== Sys2Proof/Machine/Hank.lean ====
section
/-! DEFINITION. What the memory rows share: located events, the error bucket and retirement (R171 to R182), margin runs and
marches stopped (R181, R191, R537), a sector read with its retries and its mirror (R170, R459), and zero-fill (R169). -/

namespace Sys2Proof.Machine

/-! ## Channels and places -/

/-- The organisation of a stack (R152): dies, channels of a die, banks of a channel, bytes of a row; the bytes of a channel. -/
def stackDies : Nat := 16
def dieChans : Nat := 8
def chanBanks : Nat := 32
def rowBytes : Nat := 1024
def chanBytes : Nat := 384 * 0x200000

/-- The die that carries a channel: die d carries channels 8 d to 8 d + 7 of its stack (R152). -/
def dieOf (ch : Nat) : Nat := ch % 128 / dieChans

/-- The row of a channel that holds a channel offset; each bank has rowsOfBank rows (R152; the spec gives no map of rows to banks). -/
def rowOfOffset (co : Nat) : Nat := co / rowBytes
def rowsOfBank : Nat := chanBytes / rowBytes / chanBanks

/-- The reserve blocks of every channel (R175, R176), and the visible ones. -/
def State.resBlocks (s : State) : Nat := if s.fuse.small then 3 * s.hank.reserve / 4 else 3 * s.hank.reserve / 8
def State.visBlocks (s : State) : Nat := 384 - s.resBlocks

/-- The place where the chunk of a DPA lies. -/
def State.placeAt (s : State) (a : Nat) : Nat := s.placeOf (s.slot a) (blockOf s.fuse.small (granOf a))

/-- The half of the channel that serves a DPA (R176). -/
def State.placeHalf (s : State) (a : Nat) : Half := chanHalf (s.chanOf a)

/-- Channel offset of a DPA at the place where it lies, in sectors (R163, R176, R192). -/
def State.locSector (s : State) (a : Nat) : Nat :=
  let small := s.fuse.small
  ((s.placeAt a) % 384 * 0x200000 + chanOffset small (s.scope (blockOf small (granOf a))) a % 0x200000) / 32

def State.chState (s : State) (ch : Nat) : Nat := s.fget R.MEM_CHST_STATE (ch / 128) (ch % 128)

/-- The stack's half has completed the memories stage of its bring-up (R181, R521, R547). -/
def State.memUp (s : State) (h : Half) : Bool := (s.half h).live && 2 < (s.half h).stage

/-- Records a located memory event (R192). -/
def State.memLoc (s : State) (cause ch sector : Nat) : State :=
  let (o, s) := s.takeLoc 0
  let s := (s.fset R.MEM_EVLOC0_CHANNEL 0 0 ch).fset R.MEM_EVLOC0_CAUSE 0 0 cause
  let s := if o then s.fset R.MEM_EVLOC0_OVERRUN 0 0 1 else s
  s.fset R.MEM_EVLOC1_SECTOR 0 0 sector

/-! ## Runs on a stack -/

/-- The offset of a kind that a margin run has in force on a channel, in steps; 0 for its trained setting (R188, R191). -/
def State.marginOffset (s : State) (ch kind : Nat) : Int :=
  let r := s.srun (ch / 128)
  match r.margin with
  | some m => if !r.marginWait && m.kind == kind && (kind == 4 || m.chan == ch % 128) then m.offset.toInt else 0
  | none => 0

/-- What the governor has asked of a stack's rail, in mV above its nominal voltage: 5 mV a step of a run of kind 4 (R188, R603). -/
def State.stackRail (s : State) (k : Nat) : Int := 5 * s.marginOffset (128 * k) 4

/-- The channels that a destructive margin run has touched (R190). -/
def StackRun.touched (r : StackRun) (k : Nat) : List Nat :=
  match r.margin with
  | some m => if r.marginWait || m.kind < 2 then [] else if m.kind = 4 then stackChans k else [128 * k + m.chan]
  | none => []

/-- ERRS and WORST of the run, ERRS at most what its field holds (R194). -/
def State.marginRes (s : State) (k : Nat) (m : MarginRun) : State :=
  (s.fset R.MEM_MARGIN_RES_ERRS k 0 (min m.errs (2 ^ 24 - 1))).fset R.MEM_MARGIN_RES_WORST k 0 m.worst

/-- A margin run ends (R190, R191, R181): what a destructive one touched is undefined, the trained settings are back, its counts are
shown, its leave returns, and a command that waits for it completes (R388). -/
def State.endMargin (s : State) (k : Nat) : State :=
  if s.fbit R.MEM_MARGIN_STAT_BUSY k 0 then
    let r := s.srun k
    let s := match r.margin with | some m => s.marginRes k m | none => s
    let s := if (r.touched k).isEmpty then s else s.scramble (r.touched k)
    let s := s.setSrun k { r with margin := none, marginWait := false, marginCmd := none }
    let s := (s.fset R.MEM_MARGIN_STAT_BUSY k 0 0).fset R.MEM_MARGIN_STAT_DONE k 0 1
    let w : LeaveWho := .run ⟨k % 8, Nat.mod_lt _ (by decide)⟩
    let s := (s.unqueueLeave w false).returnLeave w
    match r.marginCmd with
    | none => s
    | some id =>
      match s.run id with
      | none => s
      | some x =>
        let v := s.fget R.MEM_MARGIN_RES_ERRS k 0 + 2 ^ 24 * s.fget R.MEM_MARGIN_RES_WORST k 0
        s.setRun { x.finish stOk 0 with res := [BitVec.ofNat 64 v] }
  else s

/-- A march ends or is stopped, with REASON 0 or the reason of R537; leave returns. -/
def State.endMarch (s : State) (k reason : Nat) : State :=
  if s.fbit R.MEM_MARCH_STAT_BUSY k 0 then
    let s := s.setSrun k { s.srun k with marchWait := false, march := false }
    let s := (s.fset R.MEM_MARCH_STAT_BUSY k 0 0).fset R.MEM_MARCH_STAT_DONE k 0 1
    let s := s.fset R.MEM_MARCH_STAT_REASON k 0 reason
    let w : LeaveWho := .run ⟨k % 8, Nat.mod_lt _ (by decide)⟩
    (s.unqueueLeave w false).returnLeave w
  else s

/-! ## Retirement -/

/-- Blocks of a channel's reserve positions that hold relocated chunks. -/
def State.usedAt (s : State) (ch : Nat) : List Nat :=
  s.hank.spread.filterMap fun e =>
    match e.2 with
    | none => none
    | some p => if p / 384 = ch then some (p % 384) else none

/-- Free reserve positions of a channel (R177). -/
def State.freeAt (s : State) (ch : Nat) : List Nat :=
  ((List.range s.resBlocks).map (s.visBlocks + ·)).filter fun b => !(s.usedAt ch).contains b

/-- The tier of a destination (R177): same stack, same half, other half. -/
def tierOf (ch c : Nat) : Nat := if c / 128 = ch / 128 then 0 else if chanHalf c = chanHalf ch then 1 else 2

/-- The destination of a chunk that leaves a channel: the best tier, in it the most free positions, then the lowest channel and
block (R177). -/
def State.destFor (s : State) (ch : Nat) : Option Nat :=
  let live := (List.range s.nChans).filter fun c => c != ch && s.chState c != 1 && s.chState c != 2
  [0, 1, 2].findSome? fun t =>
    let best := (live.filter fun c => tierOf ch c == t).foldl (fun (b : Option (Nat × Nat)) c =>
      let n := (s.freeAt c).length
      match b with
      | none => if n = 0 then none else some (c, n)
      | some (_, m) => if m < n then some (c, n) else b) none
    best.bind fun x => ((s.freeAt x.1).head?).map fun b => x.1 * 384 + b

/-- The blocks of a channel that hold chunks: its own visible ones, then relocated ones (R177, R179: in block order). -/
def State.chunksOf (s : State) (ch : Nat) : List Nat :=
  List.range s.visBlocks ++ ((List.range s.resBlocks).map (s.visBlocks + ·)).filter fun b => (s.usedAt ch).contains b

/-- The spread-table key of the chunk that lies at a place. -/
def State.keyAt (s : State) (p : Nat) : Nat := ((s.hank.spread.find? fun e => e.2 == some p).map (·.1)).getD p

/-- Appends to the repair record; a full record keeps nothing (R178, R532). -/
def State.addRepair (s : State) (r : Repair) : State :=
  if s.boot.record.length ≥ 8192 then s.fset R.MGT_WARN_RECORD_FULL 0 0 1
  else { s with boot := { s.boot with record := s.boot.record ++ [r] } }

/-- GROUP_WITHDRAW (R540): the group keeps running for its owner and is not granted again. -/
def State.withdraw (s : State) (g : Nat) : State :=
  if s.boot.gone.contains g then s
  else
    let s := { s with boot := { s.boot with gone := s.boot.gone ++ [g] } }
    let s := s.fset R.HUB_ORG_GROUPS 0 0 (s.fget R.HUB_ORG_GROUPS 0 0 - 1)
    (s.addRepair (.group g)).fset R.MGT_WARN_GROUPS_WITHDRAWN 0 0 1

/-- Starts the retirement of a channel, or gives it STATE 3 where the reserve is spent (R179, R181). -/
def State.startRetire (s : State) (ch : Nat) : State :=
  let k := ch / 128
  if s.fget R.MEM_RETIRE_REMAIN 0 0 = 0 then
    (s.fset R.MEM_CHST_STATE k (ch % 128) 3).ev R.MEM_EVENT_RESERVE_EMPTY 0
  else
    let s := s.fset R.MEM_RETIRE_REMAIN 0 0 (s.fget R.MEM_RETIRE_REMAIN 0 0 - 1)
    let s := ((s.fset R.MEM_CHST_STATE k (ch % 128) 1).ev R.MEM_EVENT_RETIRE_START 0).memLoc 0 ch (Config.number s.freeCtr)
    let s := (s.bump).endMargin k
    { s with hank := { s.hank with moving := some (ch, s.chunksOf ch) } }

/-- The next waiting channel retires once none is retiring (R181). -/
def State.nextRetire (s : State) : Nat → State
  | 0 => s
  | n + 1 =>
    match s.hank.moving, s.hank.retireQ with
    | none, ch :: q => ({ s with hank := { s.hank with retireQ := q } }.startRetire ch).nextRetire n
    | _, _ => s

/-- A channel reaches its threshold (R172, R181): it stops a march on its stack (R537). -/
def State.atThreshold (s : State) (ch : Nat) : State :=
  if s.chState ch ≠ 0 ∨ s.hank.retireQ.contains ch then s
  else
    let s := s.endMarch (ch / 128) 7
    if s.fget R.MEM_RETIRE_REMAIN 0 0 = 0 then
      (s.fset R.MEM_CHST_STATE (ch / 128) (ch % 128) 3).ev R.MEM_EVENT_RESERVE_EMPTY 0
    else ({ s with hank := { s.hank with retireQ := s.hank.retireQ ++ [ch] } }).nextRetire 1

/-- Adds a weight to a channel's error bucket (R171, R172). -/
def State.bucketAdd (s : State) (ch w : Nat) : State :=
  let b := min 65535 (s.fget R.MEM_CHST_BUCKET (ch / 128) (ch % 128) + w)
  let s := s.fset R.MEM_CHST_BUCKET (ch / 128) (ch % 128) b
  if s.fget R.MEM_RETIRE_THRESH 0 0 ≤ b then s.atThreshold ch else s

/-- A chunk's spread entry switches to its new place (R176, R179). -/
def State.switchChunk (s : State) (ch b : Nat) : State :=
  match s.destFor ch with
  | none => s
  | some d =>
    let key := s.keyAt (ch * 384 + b)
    { s with hank := { s.hank with spread := tset (fun _ => none) s.hank.spread key (some d) } }

/-- RETIRE_COMPLETE (R179 steps 3 and 4). -/
def State.retireDone (s : State) (ch : Nat) : State :=
  let s := ((s.fset R.MEM_CHST_STATE (ch / 128) (ch % 128) 2).fadd R.MEM_RETIRE_RETIRED 0 0 1).ev R.MEM_EVENT_RETIRE_DONE 0
  let s := { s with hank := { s.hank with retired := s.hank.retired ++ [ch], moving := none } }
  (s.addRepair (.channel ch)).nextRetire 32

/-- A retirement without a copy shows its events too (R179, R182, R192, R537). -/
def State.retireEvents (s : State) (ch : Nat) : State :=
  let s := ((s.ev R.MEM_EVENT_RETIRE_START 0).memLoc 0 ch (Config.number s.freeCtr)).bump
  s.ev R.MEM_EVENT_RETIRE_DONE 0

/-- Retires a channel at once without a copy: every chunk it holds switches (R178, R182, R537). -/
def State.retireNow (s : State) (ch : Nat) : State :=
  let s := s.fset R.MEM_CHST_STATE (ch / 128) (ch % 128) 2
  let s := s.fset R.MEM_RETIRE_REMAIN 0 0 (s.fget R.MEM_RETIRE_REMAIN 0 0 - 1)
  let s := s.fadd R.MEM_RETIRE_RETIRED 0 0 1
  let s := { s with hank := { s.hank with
    retired := s.hank.retired ++ [ch], retireQ := s.hank.retireQ.erase ch } }
  (s.chunksOf ch).foldl (fun s b => s.switchChunk ch b) s

/-! ## Sector reads -/

/-- What one sector read gives: its data, whether poisoned, the outcomes left, the state. -/
structure SecRes where
  data : BitVec 256
  bad  : Bool
  dec  : List Dec
  st   : State

/-- The first outcome of a read; none listed is a clean read. -/
def headDec (l : List Dec) : Dec := l.headD .clean

/-- Bucket weight of a read that decodes, by the symbols corrected (R171). -/
def symWeight (n : Nat) : Nat := match n with | 0 => 0 | 1 => 1 | _ => 8

/-- What a controller finds in a sector: the inverted check of poison; ciphertext with the symbols corrected, named where it is not the
one that is stored; or no codeword within two symbols (R154, R156, R157). -/
inductive Found where
  | poisoned
  | good (other : Option (BitVec 256)) (syms : Nat)
  | failed
  deriving DecidableEq, Repr

/-- One read of a sector, by its outcome: an outcome in bits goes through the pins and the decoder (R155, R157). -/
def State.found (s : State) (sec : Nat) (d : Dec) : Found :=
  let pz := (s.markOf sec).poison
  match d with
  | .raw flips =>
    let c := s.stored sec
    (match readCodeword (ofBurst (toBurst (codeword c pz) ^^^ flips.toNat)) with
     | .poisoned => .poisoned
     | .good e n => .good (if e = c then none else some e) n
     | .failed => .failed)
  | .clean => if pz then .poisoned else .good none 0
  | .fix1 => if pz then .poisoned else .good none 1
  | .fix2 => if pz then .poisoned else .good none 2
  | .fail => if pz then .poisoned else .failed

/-- The outcomes left after a read of a sector: a poisoned sector's is certain, and takes none but one in bits. -/
def leftDec (f : Found) (l : List Dec) : List Dec :=
  match f, l with
  | .poisoned, .raw _ :: r => r
  | .poisoned, l => l
  | _, l => l.drop 1

/-- The first of n retries that decodes or meets poison, with the retries made and the outcomes left (R170). -/
def State.retries (s : State) (sec : Nat) (l : List Dec) : Nat → Found × Nat × List Dec
  | 0 => (.failed, 0, l)
  | n + 1 =>
    match s.found sec (headDec l) with
    | .failed => let (f, k, l') := s.retries sec (l.drop 1) n; (f, k + 1, l')
    | f => (f, 1, leftDec f l)

/-- Corrected symbols are counted by the Fid, for the stack's counter and for each channel (R192, R584). -/
def State.corrected (s : State) (ch n : Nat) : State :=
  if n = 0 then s
  else
    let s := s.fidEvent (chanHalf ch) 2 (ch / 128) 2 none n
    { s with hank := { s.hank with symbols := tset (fun _ => 0) s.hank.symbols ch (tget (fun _ => 0) s.hank.symbols ch + n) } }

/-- The plaintext of a ciphertext found in a sector, under the sector's own mark. -/
def State.foundPlain (s : State) (sec : Nat) (c : BitVec 256) : BitVec 256 :=
  let m := s.markOf sec
  xtsDec (Config.keyPair m.key) (secTweak m.tw sec) c

/-- The corrected sector is written back (R170, R171). -/
def State.writeFound (s : State) (sec : Nat) (other : Option (BitVec 256)) : State :=
  match other with
  | none => s
  | some c => { s with hank := s.hank.putSec sec (s.foundPlain sec c) fullMask (s.markOf sec) }

/-- What a controller's reading of a sector found, the outcomes left, and the state after it. -/
structure Reading where
  found : Found
  dec   : List Dec
  st    : State

/-- A sector read by its controller, with its retries, counts and bucket weights (R154 to R157, R170, R171); `rcv` counts a recovery in
MEM_CHST. -/
def State.reading (s : State) (sec ch : Nat) (rcv : Bool) (l : List Dec) : Reading :=
  match s.found sec (headDec l) with
  | .poisoned => ⟨.poisoned, leftDec .poisoned l, s⟩
  | .good c n =>
    let s := s.corrected ch n
    let s := if n = 0 then s else s.bucketAdd ch (symWeight n)
    ⟨.good c n, l.drop 1, if n = 2 then s.writeFound sec c else s⟩
  | .failed =>
    let (f, n, l) := s.retries sec (l.drop 1) 3
    let s := s.fidEvent (chanHalf ch) 2 (ch / 128) 3 none n
    match f with
    | .good c m =>
      let s := s.corrected ch m
      let s := if rcv then s.fadd R.MEM_CHST_RECOVERED (ch / 128) (ch % 128) 1 else s
      ⟨.good c m, l, (s.bucketAdd ch 64).writeFound sec c⟩
    | .poisoned => ⟨.poisoned, l, s⟩
    | .failed => ⟨.failed, l, s.bucketAdd ch 1024⟩

/-- The data that a read returns: the plaintext of what it found (R156, R166). -/
def State.readData (s : State) (sec key tw : Nat) (other : Option (BitVec 256)) : BitVec 256 :=
  match other with
  | none => s.plain sec key tw
  | some c => xtsDec (Config.keyPair key) (secTweak tw sec) c

/-- LOST (R170): the event, the channel's count and the location. -/
def State.lost (s : State) (ch sec : Nat) : State :=
  ((s.ev R.MEM_EVENT_LOST 0).fadd R.MEM_CHST_LOST (ch / 128) (ch % 128) 1).memLoc 3 ch (s.locSector (sec * 32))

/-- The sector of a mirror (R458), and that of the original whose mirror holds a sector. -/
def mirrorSec (r : OwnRec) (sec : Nat) : Nat := r.mirrorG.toNat * 0x800000 + sec % 0x800000
def State.originSec (s : State) (sec : Nat) : Option Nat :=
  (s.hank.own.find? fun e => e.2.ro && e.2.mirror && e.2.mirrorG.toNat == sec / 0x800000).map fun e =>
    e.1 * 0x800000 + sec % 0x800000

/-- Where a failed or poisoned sector is read instead (R459): its mirror; for the patrol of a mirror granule, the original. -/
def State.twin (s : State) (sec : Nat) (patrol : Bool) : Option Nat :=
  let r := s.own (sec / 0x800000)
  if r.ro && r.mirror then some (mirrorSec r sec) else if patrol then s.originSec sec else none

/-- MIRROR_READ (R459): the twin of a failed or poisoned sector is read as any sector is, with the tweak of the original, and its
ciphertext is written over the sector; MEM_CHST.RECOVERED counts nothing. Where it does not decode, the sector is lost. -/
def State.mirrorRead (s : State) (m sec ch : Nat) (l : List Dec) : SecRes :=
  let t := s.reading m (s.chanOf (m * 32)) false l
  let s := t.st
  match t.found with
  | .good c _ =>
    let s := s.ev R.SEC_EVENT_MIRROR_SERVED 0
    let mk := s.markOf m
    let d := s.readData m (s.granKey (sec / 0x800000)) mk.tw c
    let raw := match c with
      | some c => s.foundPlain m c
      | none => if s.undefined m then d else BitVec.ofNat 256 (memRead s.hank.mem (m * 32) 32)
    ⟨d, false, t.dec, { s with hank := s.hank.putSec sec raw fullMask { mk with poison := false } }.bump⟩
  | _ =>
    let s := ((s.poisonSec sec).lost ch sec).ev R.SEC_EVENT_MIRROR_LOST 0
    ⟨(s.readSec sec).1, true, t.dec, s.bump⟩

/-- Symbols that a reading corrected, 5 for a failure (R194). -/
def Found.worst (f : Found) : Nat := match f with | .good _ n => n | .failed => 5 | .poisoned => 0

/-- The shadow read that follows an ordinary read of a channel under a shadow run (R189): a mismatch where it corrects more symbols than
the first; the run ends with its last. It alters no data and returns none. -/
def State.shadowRead (s : State) (sec ch : Nat) (first : Found) (l : List Dec) : List Dec × State :=
  let k := ch / 128
  let r := s.srun k
  match r.margin with
  | none => (l, s)
  | some m =>
    if 2 ≤ m.kind ∨ m.chan ≠ ch % 128 then (l, s)
    else
      let f := s.found sec (headDec l)
      let m := { m with left := m.left - 1, errs := if first.worst < f.worst then m.errs + 1 else m.errs, worst := max m.worst f.worst }
      let s := s.setSrun k { r with margin := some m }
      (leftDec f l, if m.left = 0 then s.endMargin k else s)

/-- A sector read by its controller with decoding, retries, bucket, the shadow read of a margin run, and the twin that stands in for it
(R157, R170, R171, R189, R459). -/
def State.secReadBy (s : State) (twin : Option Nat) (sec : Nat) (l : List Dec) : SecRes :=
  let ch := s.chanOf (sec * 32)
  let g := sec / 0x800000
  let t := s.reading sec ch true l
  let (left, s) := t.st.shadowRead sec ch t.found t.dec
  match t.found, twin with
  | .good c _, _ => ⟨s.readData sec (s.granKey g) g c, false, left, s.bump⟩
  | _, some m => s.mirrorRead m sec ch left
  | .poisoned, none => ⟨(s.readSec sec).1, true, left, s.bump⟩
  | .failed, none =>
    let s := (s.poisonSec sec).lost ch sec
    ⟨(s.readSec sec).1, true, left, s.bump⟩

/-- A read of a sector, with its mirror where it has one (R459). -/
def State.secRead (s : State) (sec : Nat) (l : List Dec) : SecRes := s.secReadBy (s.twin sec false) sec l

/-- The line's named sectors read in order: data, poison bits, outcomes left. -/
def State.lineRead (s : State) (line : Nat) (sect : BitVec 2) (l : List Dec) : LineData × BitVec 2 × List Dec × State :=
  let one (acc : LineData × BitVec 2 × List Dec × State) (i : Nat) :=
    let (d, p, l, s) := acc
    if bit2 sect i then
      let r := s.secRead (line * 2 + i) l
      (setSec d i r.data, (if r.bad then p ||| mk2 (i == 0) (i == 1) else p), r.dec, r.st)
    else acc
  one (one (0, 0, l, s) 0) 1

/-! ## Atomics and reductions at a point of coherence -/

/-- The value stored by an atomic op (R234). -/
def atomValue (aop : BitVec 4) (old x cmp : Nat) : Nat :=
  let m := 2 ^ (8 * atomSize aop)
  match aop.toNat with
  | 0 | 1 => (old + x) % m
  | 2 => (f32Add (BitVec.ofNat 32 old) (BitVec.ofNat 32 x)).toNat
  | 3 => max old x
  | 4 => min old x
  | 7 | 8 => if old = cmp then x else old
  | 9 => old &&& x
  | 10 => old ||| x
  | _ => x

/-- Bit offset of an atomic's target within its sector. -/
def Pkt.atomBit (p : Pkt) : Nat := 8 * (p.addr.toNat % 32)
def Pkt.atomSec (p : Pkt) : Nat := p.addr.toNat / 32 % 2

/-- The target's value in sector data. -/
def Pkt.atomGet (p : Pkt) (d : BitVec 256) : Nat := bitsOf d.toNat (Pkt.atomBit p + 8 * atomSize p.aop - 1) (Pkt.atomBit p)

/-- Bytes [n bits] at a bit offset of a number replaced. -/
def putBits (x lo n v : Nat) : Nat := x - bitsOf x (lo + n - 1) lo * 2 ^ lo + v * 2 ^ lo

/-- The sector after an atomic: the operand lies at the target's offset in the line, the compare value at that offset in the
other sector (R234). -/
def Pkt.atomNew (p : Pkt) (d : BitVec 256) : BitVec 256 :=
  let n := 8 * atomSize p.aop
  let i := Pkt.atomSec p
  let v := atomValue p.aop (Pkt.atomGet p d) (Pkt.atomGet p (secOf p.data i)) (Pkt.atomGet p (secOf p.data (1 - i)))
  BitVec.ofNat 256 (putBits d.toNat (Pkt.atomBit p) n v)

/-- The data of an atomic's completion: the old value at the target's offset; its other bytes are free values (R234, log 6). -/
def Pkt.atomReply (p : Pkt) (ctr : Nat) (old : BitVec 256) : LineData :=
  let g := lineOf (Config.garbage ctr 0) (Config.garbage ctr 1)
  BitVec.ofNat 512 (putBits g.toNat (256 * Pkt.atomSec p + Pkt.atomBit p) (8 * atomSize p.aop) (Pkt.atomGet p old))

/-- A sector after a reducing write: each element plus its FP32 sum, rounded once in the format of RED (R360, R361). -/
def redSector (red : BitVec 4) (old : BitVec 256) (sums : LineData) : BitVec 256 :=
  let sum (i : Nat) := f32 (BitVec.ofNat 32 (bitsOf sums.toNat (32 * i + 31) (32 * i)))
  if red = 1 then
    BitVec.ofNat 256 (((List.range 8).map fun i =>
      ff32.encode ((ff32.decode (bitsOf old.toNat (32 * i + 31) (32 * i))).add (sum i))).foldr (fun v n => v + 2 ^ 32 * n) 0)
  else
    BitVec.ofNat 256 (((List.range 16).map fun i =>
      ffBf16.encode ((ffBf16.decode (bitsOf old.toNat (16 * i + 15) (16 * i))).add (sum i))).foldr (fun v n => v + 2 ^ 16 * n) 0)

/-! ## Zero-fill -/

/-- Queues granules for zero-fill (R169). -/
def State.queueFill (s : State) (gs : List Nat) (owner : Nat) (cmd : Option Nat) : State :=
  { s with hank := { s.hank with zfill := s.hank.zfill ++ gs.map fun g => ZJob.mk g owner cmd } }

/-- Removes granules from the zero-fill queue (R455). -/
def State.unqueueFill (s : State) (gs : List Nat) : State :=
  { s with hank := { s.hank with zfill := s.hank.zfill.filter fun j => !gs.contains j.granule } }

/-- A granule has sectors on a stack (R160). -/
def State.granOn (s : State) (g k : Nat) : Bool :=
  match s.scope (blockOf s.fuse.small g) with
  | 0 => true
  | 1 => s.fuse.small || (if g % 2 = 0 then .west else .east) == stackHalf k
  | _ => g % (if s.fuse.small then 4 else 8) == k

end Sys2Proof.Machine
end

