-- ==== Sys2Proof/Machine/Leave.lean ====
section
/-! DEFINITION. Requests of leave and the governor's answers (R437 to R443, R447). -/

namespace Sys2Proof.Machine

/-- LeaveRsp to a site, for a request of a tag (R294, R441). -/
def State.tellSite (s : State) (w : LeaveWho) (tag : BitVec 12) (code : Nat) : State :=
  match w with
  | .site k => s.siteOut k.val (siteAgent k.val) (leaveRsp k.val tag code 0)
  | .cmd _ | .run _ => s

/-- A request above its cap, or a site's that its duration or an earlier request forbids (R439). -/
def State.leaveBarred (s : State) (w : LeaveWho) (watts durUs : Nat) : Bool :=
  match w with
  | .site k =>
    s.siteLimit k.val - (s.site k.val).baseNow < watts || durUs == 0 || s.fget R.PWR_CONF_MAXDUR_MS 0 0 * 1000 < durUs
      || (s.pwr.queue.any fun q => q.who == w) || (s.pwr.grants.any fun g => g.1 == w)
  | .cmd _ => match s.leavePart w with | none => true | some p => s.fget R.PWR_PBASE_LEAVE_MAX 0 p < watts
  | .run _ => false

/-- A new request is refused: a site hears of it under its own tag, a command completes (R379, R439). -/
def State.refuseNew (s : State) (w : LeaveWho) (tag : BitVec 12) : State :=
  match w with
  | .site _ => (s.ev R.PWR_EVENT_LEAVE_REFUSED 0).tellSite w tag 2
  | .cmd _ | .run _ => s.refuseLeave w

/-- Where a new request enters the queue: behind those of earlier counts, and in its own count West before East, sites before
partitions, by number (R440). -/
def leaveKey (q : LeaveQ) : Nat :=
  (match q.half with | .west => 0 | .east => 1) * 64
    + (match q.who with | .site k => k.val | .cmd _ => 16 + q.part.getD 8 | .run k => 32 + k.val)

/-- The queue with a request in its place (R440). -/
def State.enterQueue (s : State) (q : LeaveQ) : List LeaveQ :=
  let before := s.pwr.queue.filter fun x => x.tally != q.tally || leaveKey x ≤ leaveKey q
  before ++ q :: s.pwr.queue.filter fun x => x.tally == q.tally && leaveKey q < leaveKey x

/-- A request of leave is decided (R439): refused, by its cap or for its quadrant (R447), granted, queued, or refused by the full queue. -/
def State.askLeave (s : State) (w : LeaveWho) (tag : BitVec 12) (watts durUs : Nat) (hf : Half) : State :=
  if s.leaveBarred w watts durUs then s.refuseNew w tag
  else
    let s := match w with | .site k => s.modSite k.val fun x => { x with leaveTag := tag } | _ => s
    if s.leaveOver w watts then s.refuseNew w tag
    else if s.pwr.queue.isEmpty && watts ≤ s.freeW then s.grantLeave w watts
    else if s.pwr.queue.length < 32 then
      let q : LeaveQ := ⟨w, s.leavePart w, watts, durUs, hf, s.tally⟩
      (({ s with pwr := { s.pwr with queue := s.enterQueue q } }).traceLeave 8 w watts).tellSite w tag 1
    else (s.ev R.PWR_EVENT_QUEUE_FULL 0).refuseNew w tag

end Sys2Proof.Machine
end

