-- ==== Sys2Proof/Machine/HankMem.lean ====
section
/-! DEFINITION. The rows of Hank memory (04_hank_memory.md) but for march and power rows. Packets arrive in the order of R200; a
packet row acts where its packet is in flight and is the next of its class between its two ports (log 1). -/

namespace Sys2Proof.Machine

/-! ## Requests at a channel controller -/

/-- The stack that serves a DPA holds every request: self-refresh (R183). -/
def State.frozen (s : State) (a : Nat) : Bool := s.fget R.MEM_STKTEMP_LIMIT (s.chanOf a / 128) 0 == 3

/-- The request's channel is one whose chunk lies elsewhere, and it has not been forwarded yet (R176, R199). -/
def State.mustForward (s : State) (p : Pkt) : Bool := !p.fwd && s.chanOf p.addr.toNat != s.slot p.addr.toNat

/-- The controller forwards a request to the channel where the chunk lies, in class FWD (R176, R198). -/
def State.forward (s : State) (p : Pkt) : State :=
  s.sendPkt { p with fwd := true, hop := some p.dst, dst := ⟨.channel, s.chanOf p.addr.toNat⟩ }

/-- A request that its controller holds waits its turn behind those held for the same controller, in order of arrival; one that
arrives waits behind them too, once the stack serves (R158, R183, R200). -/
def State.atCtl (s : State) (p : Pkt) : Bool :=
  if s.hank.cold.contains p then
    !s.frozen p.addr.toNat && (s.hank.cold.find? fun q => q.dst == p.dst) == some p
  else s.arrives p && (s.frozen p.addr.toNat || !(s.hank.cold.any fun q => q.dst == p.dst))

/-- The request leaves the mesh, or its hold. -/
def State.takeCtl (s : State) (p : Pkt) : State :=
  if s.hank.cold.contains p then { s with hank := { s.hank with cold := s.hank.cold.erase p } } else s.takePkt p

/-- A refused request's answer. -/
def Pkt.refusal (p : Pkt) (op : Op) (status : BitVec 3) : Pkt := { p.reply op p.dst with status := status }

/-- Holds a request of a stack in self-refresh (R183). -/
def State.holdCold (s : State) (p : Pkt) : State := { s with hank := { s.hank with cold := s.hank.cold ++ [p] } }

/-- Serves a request of the bypass class at its controller: the error response of the Splice (R37), BADREQ (R197), the forwarding
of R176, the hold of R183, the ownership check (R417), then k. `op` is the op of its completion. -/
def State.atChannel (s : State) (p : Pkt) (op : Op) (k : State → State) : State :=
  let a := p.addr.toNat
  if s.cutOff p then s.sendPkt (s.spliceError p op)
  else if p.badField then s.sendPkt (Pkt.refusal p op 5)
  else if s.mustForward p then s.forward p
  else if s.frozen a then s.holdCold p
  else
    let c := s.ownCheck p.src p.ctx p.op.writes a
    if c ≠ 0 then (s.deny p.src p.ctx a c).sendPkt (Pkt.refusal p op 2)
    else k s

/-- Serves a request of a home, which carries no ownership check. -/
def State.fromHome (s : State) (p : Pkt) (op : Op) (k : State → State) : State :=
  if s.cutOff p then s.sendPkt (s.spliceError p op)
  else if p.badField then s.sendPkt (Pkt.refusal p op 5)
  else if s.mustForward p then s.forward p
  else if s.frozen p.addr.toNat then s.holdCold p
  else k s

/-- Counts sectors read or written by the request at its stack (R584). -/
def State.secEvent (s : State) (p : Pkt) (ev n : Nat) : State :=
  let ch := s.chanOf p.addr.toNat
  s.fidEvent (chanHalf ch) 2 (ch / 128) ev (some (p.ctx.toNat / 512)) n

/-- The data of a read that another tile of the group may still join (R204). -/
def Pkt.joins (p q : Pkt) : Bool :=
  q.op == .mData && q.mask.toNat.testBit 31 && q.dst.kind == .tile && p.src.kind == .tile && q.dst.num / 4 == p.src.num / 4
    && q.dst != p.src && !q.mask.toNat.testBit (p.src.num % 4) && q.ctx == p.ctx && q.line == p.line && q.sect == p.sect

/-- The packet with the place of one more tile (R204). -/
def Pkt.addPlace (q : Pkt) (t : Nat) : Pkt :=
  { q with mask := q.mask ||| BitVec.ofNat 32 (2 ^ (q.dst.num % 4) + 2 ^ (t % 4)) }

/-- A write or atomic to a sector ends the combining of its reads (R204). -/
def State.endJoin (s : State) (p : Pkt) : State :=
  { s with fab := { s.fab with net := s.fab.net.map fun q =>
      if q.op == .mData && q.line == p.line && q.sect &&& p.sect != 0 then
        { q with mask := q.mask &&& BitVec.ofNat 32 (2 ^ 31 - 1) } else q } }

/-- A MemRd is combined with an earlier one, or its sectors are read (R204). -/
def State.chanRead (s : State) (p : Pkt) (phys : List Dec) : State :=
  match (if s.fbit R.COH_CONF_COMBINE 0 0 then s.fab.net.find? fun q => Pkt.joins p q else none) with
  | some q => { s with fab := { s.fab with net := s.fab.net.map fun x => if x == q then Pkt.addPlace q p.src.num else x } }
  | none =>
    let (d, pz, _, s) := s.lineRead p.line p.sect phys
    let m : BitVec 32 := if p.src.kind == .tile then BitVec.ofNat 32 (2 ^ 31) else 0
    (s.secEvent p 0 (cnt2 p.sect)).sendPkt { p.reply .mData p.dst with data := d, poison := pz, mask := m }

/-- One sector written: full; masked, a read-modify-write that a poisoned sector turns away; or a reduction, likewise
(R157, R158, R361). Answers whether the sector stays poisoned. -/
def State.secWrite (s : State) (p : Pkt) (i : Nat) (l : List Dec) : Bool × List Dec × State :=
  let sec := Pkt.sec p i
  let pz := bit2 p.poison i
  if p.aop ≠ 0 then
    let r := s.secRead sec l
    if r.bad then (true, r.dec, r.st)
    else (pz, r.dec, r.st.writeSec sec (redSector p.aop r.data p.data) fullMask pz)
  else if p.masked then
    let r := s.secRead sec l
    if r.bad then (true, r.dec, r.st) else (pz, r.dec, r.st.writeSec sec (p.wrData i) p.wrMask pz)
  else (pz, l, s.writeSec sec (p.wrData i) fullMask pz)

/-- The named sectors written in order, with the poison bits of the completion. -/
def State.lineWrite (s : State) (p : Pkt) (l : List Dec) : BitVec 2 × State :=
  let one (acc : BitVec 2 × List Dec × State) (i : Nat) :=
    let (pz, l, s) := acc
    if bit2 p.sect i then
      let (b, l, s) := s.secWrite p i l
      (if b then pz ||| mk2 (i == 0) (i == 1) else pz, l, s)
    else acc
  let (pz, _, s) := one (one (0, l, s) 0) 1
  (pz, s)

def State.chanWrite (s : State) (p : Pkt) (phys : List Dec) : State :=
  let (pz, s) := (s.endJoin p).lineWrite p phys
  (s.secEvent p 1 (cnt2 p.sect)).sendPkt { p.reply .mAck p.dst with poison := pz }

/-- An AtomM (R234, R236, R237): MAck with the old value (R245). -/
def State.chanAtomic (s : State) (p : Pkt) (phys : List Dec) : State :=
  let i := Pkt.atomSec p
  let r := (s.endJoin { p with sect := mk2 (i == 0) (i == 1) }).secRead (Pkt.sec p i) phys
  let s := r.st
  let ack := { p.reply .mAck p.dst with old := true, data := Pkt.atomReply p s.freeCtr r.data }
  if r.bad then s.bump.sendPkt { ack with poison := mk2 (i == 0) (i == 1) }
  else ((s.writeSec (Pkt.sec p i) (Pkt.atomNew p r.data) fullMask false).secEvent p 1 1).bump.sendPkt ack

/-- MEM_RD (R204); a request whose op the table lacks meets its controller as one of these does, and is refused (R197). -/
def execMemRd (p : Pkt) (phys : List Dec) (s : State) : Res :=
  whenever s (s.atCtl p && (p.op == .memRd || (p.op.isRsv && !p.op.cached)))
    ((s.takeCtl p).atChannel p .comp fun s => s.chanRead p phys)

/-- MEM_WR (R158, R214). -/
def execMemWr (p : Pkt) (phys : List Dec) (s : State) : Res :=
  whenever s (s.atCtl p && p.op == .memWr) ((s.takeCtl p).atChannel p .mAck fun s => s.chanWrite p phys)

/-- ATOM_M (R236). -/
def execAtomM (p : Pkt) (phys : List Dec) (s : State) : Res :=
  whenever s (s.atCtl p && p.op == .atomM) ((s.takeCtl p).atChannel p .comp fun s => s.chanAtomic p phys)

/-- MFILL (R158): the data goes to the home. -/
def State.chanFill (s : State) (p : Pkt) (phys : List Dec) : State :=
  let (d, pz, _, s) := s.lineRead p.line p.sect phys
  (s.secEvent p 0 (cnt2 p.sect)).sendPkt { p.reply .mData p.dst with data := d, poison := pz }

def execMfill (p : Pkt) (phys : List Dec) (s : State) : Res :=
  whenever s (s.atCtl p && p.op == .mFill) ((s.takeCtl p).fromHome p .mData fun s => s.chanFill p phys)

/-- The granule's key slot is erased: its controllers discard MWb and MPoison (R463). -/
def State.keyGone (s : State) (p : Pkt) : Bool := s.granKey (granOf p.addr.toNat) == 0

/-- MWB (R201, R463). -/
def execMwb (p : Pkt) (phys : List Dec) (s : State) : Res :=
  whenever s (s.atCtl p && p.op == .mWb) ((s.takeCtl p).fromHome p .mAck fun s =>
    if s.keyGone p then s.sendPkt (p.reply .mAck p.dst) else s.chanWrite p phys)

/-- Writes the named sectors poisoned (R157). -/
def State.chanPoison (s : State) (p : Pkt) : State :=
  let one (s : State) (i : Nat) : State := if bit2 p.sect i then s.writeSec (Pkt.sec p i) (secOf p.data i) fullMask true else s
  ((one (one (s.endJoin p) 0) 1).secEvent p 1 (cnt2 p.sect)).sendPkt { p.reply .mAck p.dst with poison := p.sect }

/-- MPOISON (R157, R463): a home's, or that of a transport engine, which meets the ownership check (R354, R358). -/
def execMpoison (p : Pkt) (s : State) : Res :=
  whenever s (s.atCtl p && p.op == .mPoison)
    (if p.src.kind = .lanyard then (s.takeCtl p).atChannel p .mAck fun s => s.chanPoison p
    else (s.takeCtl p).fromHome p .mAck fun s =>
      if s.keyGone p then s.sendPkt (p.reply .mAck p.dst) else s.chanPoison p)

/-! ## Retirement and patrol -/

/-- The reads of a chunk's copy that are not clean, for sectors of the chunk of a spread-table key: each counts as any read does
(R170, R171), and one that decodes at no retry is written poisoned at the destination (R181). -/
def State.copyReads (s : State) (key ch : Nat) (reads : List (Nat × List Dec)) : State :=
  reads.foldl (fun s r =>
    let sec := r.1
    let a := sec * 32
    if s.slot a = key / 384 ∧ blockOf s.fuse.small (granOf a) = key % 384 ∧ s.visible a then
      let loc := s.locSector a
      let t := s.reading sec ch true r.2
      match t.found with
      | .failed => ((t.st.poisonSec sec).ev R.MEM_EVENT_COPY_POISON 0).memLoc 4 ch loc
      | _ => t.st
    else s) s

/-- RETIRE_CHUNK_DONE (R179 step 2): the next chunk of the retiring channel has been copied and its entry switches. It waits while
a half that the part has is short of its memories stage (R181). -/
def execRetireChunkDone (reads : List (Nat × List Dec)) (s : State) : Res :=
  match s.hank.moving with
  | none => .next s
  | some (ch, blocks) =>
    if !(s.memUp .west && (!s.hasHalf .east || s.memUp .east || (s.half .east).warm.isNone && !(s.half .east).live)) then .next s
    else
      match blocks with
      | [] => .next (s.retireDone ch)
      | b :: rest =>
        let s := s.copyReads (s.keyAt (ch * 384 + b)) ch reads
        let s := s.switchChunk ch b
        let s := { s with hank := { s.hank with moving := some (ch, rest) } }
        .next (if rest.isEmpty then s.retireDone ch else s)

/-- BUCKET_DECAY (R171). -/
def execBucketDecay (s : State) : Res :=
  .next ((List.range s.nChans).foldl (fun s ch =>
    let b := s.fget R.MEM_CHST_BUCKET (ch / 128) (ch % 128)
    if b = 0 then s else s.fset R.MEM_CHST_BUCKET (ch / 128) (ch % 128) (b - 1)) s)

/-- A sector that the patrol of a channel reads (R174): one that the channel serves, or, by its reserve DPA, one of a free reserve
position of a channel in service (R175, R179). -/
def State.patrols (s : State) (ch sec : Nat) : Bool :=
  let g := granOf (sec * 32)
  s.chanOf (sec * 32) == ch
    && (s.visible (sec * 32) || (g < s.allGranules && s.chState ch != 2 && (s.freeAt ch).contains (blockOf s.fuse.small g)))

/-- PATROL_READ (R174): a read like any other, skipping a stack with a march (R537). -/
def execPatrolRead (ch : Fin 1024) (sec : Nat) (phys : List Dec) (s : State) : Res :=
  let k := ch.val / 128
  atUnit (ch.val < s.nChans)
    (if s.memUp (chanHalf ch.val) && s.patrols ch.val sec && !(s.srun k).march
        && s.fget R.MEM_STKTEMP_LIMIT k 0 != 3 then
      let s := (s.secReadBy (s.twin sec true) sec phys).st
      { s with hank := { s.hank with patrol := tset (fun _ => 0) s.hank.patrol ch.val sec } }
    else s)

/-- PHY_RECALIBRATE (R541). -/
def execPhyRecalibrate (ch : Fin 1024) (s : State) : Res :=
  atUnit (ch.val < s.nChans) { s with hank := { s.hank with recals := s.hank.recals + 1 } }

/-! ## Zero-fill -/

/-- A record of a free granule (R416, R418). -/
def freeRec : OwnRec := {}

/-- What a finished fill completes: the command that waits for it (R455, R454 op 6), and the partition's zero-fill (R469). -/
def State.fillDone (s : State) (j : ZJob) : State :=
  let s := match j.cmd with
    | none => s
    | some id =>
      match s.run id with
      | none => s
      | some r =>
        let s := if pktBits r.bytes 271 264 = 6 then s.setOwn j.granule freeRec else s
        let r := { r with left := r.left - 1 }
        s.setRun (if r.left = 0 then r.finish stOk 0 else r)
  if 8 ≤ j.owner || j.cmd.isSome || s.hank.zfill.any fun x => x.owner == j.owner && x.cmd.isNone then s
  else s.setPart j.owner { s.part j.owner with zfillAt := s.tally }

/-- ZFILL_GRANULE_DONE (R169): the oldest queued granule holds zeroes under the key its record names. -/
def execZfillGranuleDone (s : State) : Res :=
  match s.hank.zfill with
  | [] => .next s
  | j :: rest =>
    .next (({ s with hank := { s.hank with zfill := rest } }.zeroGranule j.granule).fillDone j)

/-! ## Temperature -/

/-- Regimes of R183 by number, as REFRESH and LIMIT. -/
def regimeOf (n : Nat) : Nat × Nat := match n with | 0 => (0, 0) | 1 => (1, 0) | 2 => (2, 1) | 3 => (2, 2) | _ => (2, 3)

/-- The regime shown in MEM_STKTEMP. -/
def State.regime (s : State) (k : Nat) : Nat :=
  match s.fget R.MEM_STKTEMP_LIMIT k 0 with
  | 0 => s.fget R.MEM_STKTEMP_REFRESH k 0
  | n => n + 1

/-- The regime whose bounds a temperature has crossed upward. -/
def regimeUp (t : Nat) : Nat := if 110 < t then 4 else if 105 < t then 3 else if 95 < t then 2 else if 85 < t then 1 else 0

/-- Whether a regime is left at a temperature: 3 °C below its bound; regime 4 at 105 °C (R183). -/
def regimeLeft (n t : Nat) : Bool :=
  match n with | 0 => false | 1 => t ≤ 82 | 2 => t ≤ 92 | 3 => t ≤ 102 | _ => t ≤ 105

def regimeDown (t : Nat) : Nat → Nat
  | 0 => 0
  | n + 1 => if regimeLeft (n + 1) t then regimeDown t n else n + 1

/-- The regime of a stack at a temperature, with its limit and event. -/
def State.newRegime (s : State) (k temp : Nat) : State :=
  let n := max (regimeUp temp) (regimeDown temp (s.regime k))
  let lim := (regimeOf n).2
  let was := s.fget R.MEM_STKTEMP_LIMIT k 0
  let t := ((s.fset R.MEM_STKTEMP_T k 0 temp).fset R.MEM_STKTEMP_REFRESH k 0 (regimeOf n).1).fset R.MEM_STKTEMP_LIMIT k 0 lim
  if was = lim then t else t.ev R.MEM_EVENT_THERMAL 0

/-- The cap of a stack's temperature, with its hysteresis (R445). -/
def stackCap (old t : Nat) : Nat :=
  if 93 < t then 8
  else if old = 8 ∧ 90 < t then 8
  else if 90 < t then 12
  else if old ≤ 12 ∧ 87 < t then 12
  else 16

/-- A stack's temperature is reported: its regime, and to the governor, whose cap acts at once and releases stepwise (R184, R445). -/
def State.stackHeat (s : State) (k t : Nat) : State :=
  let s := s.newRegime k t
  let w := stackCap (tget (fun _ => 16) s.pwr.stkWant k) t
  let s := { s with pwr := { s.pwr with
    stkWant := tset (fun _ => 16) s.pwr.stkWant k w
    stkGate := tset (fun _ => 16) s.pwr.stkGate k (min (s.stkGate k) w) } }
  s.updGates

/-- THERMAL_REGIME_CHANGE (R183, R184): the requests that a stack has held are served in their order once it leaves self-refresh. -/
def execThermalRegimeChange (k : Fin 8) (temp : BitVec 8) (s : State) : Res :=
  atUnit (k.val < s.nStacks) (s.stackHeat k.val temp.toNat)

/-! ## Margin runs -/

/-- The most steps of a kind in a life-cycle state, none where it is refused (R188). -/
def marginMax (lc kind : Nat) : Option Nat :=
  match lc, kind with
  | 0, 0 => some 32 | 1, 0 => some 24 | 2, 0 => some 16
  | 0, 1 => some 20 | 1, 1 => some 20 | 2, 1 => some 12
  | 0, 2 => some 32 | 1, 2 => some 24
  | 0, 3 => some 20 | 1, 3 => some 20
  | 0, 4 => some 12 | 1, 4 => some 8
  | _, _ => none

/-- The magnitude of the signed OFFSET of a MEM_MARGIN_CTL word. -/
def marginSteps (w : W32) : Nat := let o := bitsOf w.toNat 17 10; if o < 128 then o else 256 - o

/-- Why a margin start is refused, 0 for none (R188, R190, R191, MEM_MARGIN_STAT.REASON). -/
def State.marginRefusal (s : State) (k : Nat) (w : W32) : Nat :=
  let kind := bitsOf w.toNat 9 7
  let lim := marginMax (s.fget R.SEC_LC_STATE 0 0) kind
  if 4 < kind ∨ bitsOf w.toNat 27 18 = 0 then 6
  else if lim = none then 1
  else if (lim.getD 0) < marginSteps w then 2
  else if 2 ≤ kind ∧ s.anyPart then 3
  else if (List.range 128).any fun c => s.chState (128 * k + c) == 1 then 4
  else if s.fbit R.MEM_MARGIN_STAT_BUSY k 0 ∨ s.fbit R.MEM_MARCH_STAT_BUSY k 0 then 5
  else 0

/-- Writes the fields of MEM_MARGIN_CTL. -/
def State.marginFields (s : State) (k : Nat) (w : W32) : State :=
  (((s.fset R.MEM_MARGIN_CTL_CHAN k 0 (bitsOf w.toNat 6 0)).fset R.MEM_MARGIN_CTL_KIND k 0 (bitsOf w.toNat 9 7)).fset
    R.MEM_MARGIN_CTL_OFFSET k 0 (bitsOf w.toNat 17 10)).fset R.MEM_MARGIN_CTL_COUNT k 0 (bitsOf w.toNat 27 18)

/-- A run on a stack asks for leave (R437). -/
def State.askRun (s : State) (k watts : Nat) : State :=
  s.askLeave (.run ⟨k % 8, Nat.mod_lt _ (by decide)⟩) 0 watts 0 .west

/-- Starts a margin run that is not refused (R187 to R190): kind 4 asks for 40 W (R437); a destructive run leaves what it
touches undefined. -/
def State.startMargin (s : State) (k : Nat) (w : W32) (cmd : Option Nat) : State :=
  let kind := bitsOf w.toNat 9 7
  let s := ((s.fset R.MEM_MARGIN_STAT_BUSY k 0 1).fset R.MEM_MARGIN_STAT_REFUSED k 0 0).fset R.MEM_MARGIN_STAT_REASON k 0 0
  let m : MarginRun := { kind, chan := bitsOf w.toNat 6 0, offset := BitVec.ofNat 8 (bitsOf w.toNat 17 10),
                         left := 1024 * bitsOf w.toNat 27 18, errs := 0, worst := 0 }
  let s := (s.setSrun k { s.srun k with margin := some m, marginCmd := cmd, marginWait := kind == 4 }).marginRes k m
  if kind = 4 then s.askRun k 40
  else if 2 ≤ kind then s.scramble [128 * k + bitsOf w.toNat 6 0]
  else s

/-- A START of MEM_MARGIN_CTL, or a MARGIN command: the reason of a refusal, 0 for none, and the state. -/
def State.tryMargin (s : State) (k : Nat) (w : W32) (cmd : Option Nat) : Nat × State :=
  let r := s.marginRefusal k w
  if r = 0 then (0, s.startMargin k w cmd)
  else (r, (s.fset R.MEM_MARGIN_STAT_REFUSED k 0 1).fset R.MEM_MARGIN_STAT_REASON k 0 r)

/-- A write of MEM_MARGIN_CTL. -/
def State.writeMargin (s : State) (k : Nat) (w : W32) : State :=
  let s := s.marginFields k w
  if w.toNat.testBit 31 then (s.tryMargin k w none).2 else s

/-- MARGIN_START (R187, R191). -/
def execMarginStart (k : Fin 8) (path : Path) (w : W32) (s : State) : Res :=
  .next (s.regWrite path .stack k.val 0x204 fun s => s.writeMargin k.val w)

/-- The reads that a run makes of its own, in patrol order or of its test patterns, add their counts to those of the shadow reads that
followed ordinary reads (R189, R190). -/
def State.marginOwn (s : State) (k errs worst : Nat) : State :=
  let r := s.srun k
  s.setSrun k { r with margin := r.margin.map fun m => { m with left := 0, errs := m.errs + errs, worst := max m.worst worst } }

/-- MARGIN_DONE (R189 to R191): the run has made the last of its reads. -/
def execMarginDone (k : Fin 8) (errs : BitVec 24) (worst : BitVec 3) (s : State) : Res :=
  atUnit (k.val < s.nStacks)
    (if s.fbit R.MEM_MARGIN_STAT_BUSY k.val 0 && !(s.srun k.val).marginWait then
      (s.marginOwn k.val errs.toNat worst.toNat).endMargin k.val
    else s)

/-! ## Scope -/

/-- A granule of a block is owned (R161). -/
def State.blockOwned (s : State) (b : Nat) : Bool :=
  let n := if s.fuse.small then 4 else 8
  (List.range n).any fun i => (s.own (n * b + i)).owner != 15

/-- A write of MEM_SCOPEn (R161): a field whose block has an owned granule is left and the refusal shown; 3 leaves its field. -/
def State.writeScope (s : State) (n : Nat) (path : Path) (w : W32) : State :=
  (List.range 16).foldl (fun s m =>
    let v := bitsOf w.toNat (2 * m + 1) (2 * m)
    let f := { R.MEM_SCOPE_0 with hi := 2 * m + 1, lo := 2 * m }
    if v = 3 ∨ v = s.fget f 0 n then s
    else if s.blockOwned (16 * n + m) then (s.ev R.MEM_EVENT_SCOPE_REFUSED 0).regRefused path .mem 0
    else (s.fset f 0 n v).disarm) s

/-- MEM_SCOPE_WRITE (R161). -/
def execMemScopeWrite (n : Fin 24) (path : Path) (w : W32) (s : State) : Res :=
  .next (s.regWrite path .mem 0 (0x040 + 4 * n.val) fun s => s.writeScope n.val path w)

end Sys2Proof.Machine
end

