-- ==== Sys2Proof/Machine/Coh.lean ====
section
/-! DEFINITION. Homes, proxies and caching agents (R208 to R240): the rows of R219 as transactions on busy lines, victims,
flushes, proxies, and the drops that other families need. -/

namespace Sys2Proof.Machine

/-! ## Ways and selections -/

def State.remoteWays (s : State) : Nat := s.fget R.COH_CONF_REMOTE 0 0

/-- The slice of a line at its home, and the proxy slice that pairs with it (R35, R208). -/
def State.sliceOf (s : State) (n : Nat) : Nat := s.homeSlice (n * 64)
def pairOf (slice : Nat) : Nat := (slice + 16) % 32

/-- Way mask of an owner (R211). -/
def State.maskOf (s : State) (owner : Nat) : Nat := if owner ≤ 8 then s.fget R.COH_WAYMASK_MASK 0 owner else 0

/-- The granules a running flush selects, in mode 0 (R244). -/
def State.flushGran (s : State) (g : Nat) : Bool :=
  match s.fab.flush with
  | none => false
  | some w => !w.toNat.testBit 28 && bitsOf w.toNat 11 0 ≤ g && g < bitsOf w.toNat 11 0 + bitsOf w.toNat 23 12

/-- The ways that a flush of mode 1 or a staged mask clears (R242, R244). -/
def State.flushWays (s : State) : Nat :=
  let m := match s.fab.flush with
    | none => 0
    | some w => if w.toNat.testBit 28 then s.fget R.COH_WAYMASK_MASK 0 (bitsOf w.toNat 27 24) else 0
  s.fab.wayStaged.foldl (fun m e => let old := s.fget R.COH_WAYMASK_MASK 0 e.1; m ||| (old - (old &&& e.2))) m

/-- A flush or an uncached slice wants the line gone (R244, R539). -/
def State.selects (s : State) (slice n way : Nat) : Bool :=
  s.fab.uncached.contains slice || s.flushGran (granOf (n * 64)) || s.flushWays.testBit way

/-- The ways that a line of a slice may be allocated in: the owner's mask, of the kind it needs, less what a flush selects
(R211, R244, R539). -/
def State.waysFor (s : State) (slice n : Nat) (remote : Bool) : List Nat :=
  if s.fab.uncached.contains slice || s.flushGran (granOf (n * 64)) then []
  else
    let m := s.maskOf (s.own (granOf (n * 64))).owner.toNat
    (List.range 16).filter fun w =>
      m.testBit w && !s.flushWays.testBit w && (if remote then w < s.remoteWays else s.remoteWays ≤ w)

/-- Records a located coherence event (R242). -/
def State.cohLoc (s : State) (cause slice n agent : Nat) : State :=
  let (o, s) := s.takeLoc 1
  let s := ((s.fset R.COH_EVLOC0_SLICE 0 0 slice).fset R.COH_EVLOC0_AGENT 0 0 agent).fset R.COH_EVLOC0_CAUSE 0 0 cause
  let s := if o then s.fset R.COH_EVLOC0_OVERRUN 0 0 1 else s
  (s.fset R.COH_EVLOC0_ADDR_HI 0 0 (n / 2 ^ 32)).fset R.COH_EVLOC1_ADDR_LO 0 0 n

/-- Counts an event of a slice (R584). -/
def State.sliceEvent (s : State) (slice ev : Nat) (p : Pkt) (k : Nat) : State :=
  s.fidEvent (if slice < 16 then .west else .east) 1 slice ev (some (p.ctx.toNat / 512)) k

/-- The next use number. -/
def State.tick (s : State) : Nat × State := (s.fab.useCtr, { s with fab := { s.fab with useCtr := s.fab.useCtr + 1 } })

def homeAgent (slice : Nat) : Agent := ⟨.home, slice⟩
def lineDpa (n : Nat) : Dpa := BitVec.ofNat 44 (n * 64)

/-! ## Copies -/

/-- The agents a line's directory entry names: its holder, sharer sites, the tiles of sharer groups, its proxy (R218, R222). -/
def Line.copies (l : Line) (slice : Nat) : List Agent :=
  (if l.st = .h then [⟨.site, l.holder⟩] else [])
    ++ ((List.range 8).filter fun k => l.sites.toNat.testBit k).map (fun k => (⟨.site, k⟩ : Agent))
    ++ ((List.range 12).filter fun g => l.groups.toNat.testBit g).flatMap
      (fun g => (List.range 4).map fun i => (⟨.tile, (if slice < 16 then 0 else 48) + 4 * g + i⟩ : Agent))
    ++ (if l.proxy then [⟨.proxy, pairOf slice⟩] else [])

/-- No sharers (R218). -/
def Line.alone (l : Line) : Bool := l.sites == 0 && l.groups == 0 && !l.proxy

/-- An agent is among the sharers. -/
def Line.shares (l : Line) (a : Agent) : Bool :=
  match a.kind with
  | .site => l.sites.toNat.testBit a.num
  | .tile => l.groups.toNat.testBit (a.num % 48 / 4)
  | .proxy => l.proxy
  | _ => false

/-- A number with one bit set or cleared. -/
def withBit {n : Nat} (v : BitVec n) (i : Nat) (b : Bool) : BitVec n :=
  if b then v ||| BitVec.ofNat n (2 ^ i) else v &&& ~~~ BitVec.ofNat n (2 ^ i)

def Line.setSharer (l : Line) (a : Agent) (b : Bool) : Line :=
  match a.kind with
  | .site => { l with sites := withBit l.sites a.num b }
  | .tile => { l with groups := withBit l.groups (a.num % 48 / 4) b }
  | .proxy => { l with proxy := b }
  | _ => l

def Line.noSharers (l : Line) : Line := { l with sites := 0, groups := 0, proxy := false }

/-! ## Answers of the home -/

/-- Sends a snoop, on behalf of a requester where one waits for it; one for a site goes to the live attach point fewest hops from
the slice (R288). -/
def State.sendSnoop (s : State) (op : Op) (src : Agent) (n id : Nat) (who : Option Agent) (a : Agent) : State :=
  s.sendPkt { Pkt.mk0 op src a (lineDpa n) with
    tag := id % 65536, sect := 3, who := who
    ap := if a.kind = .site then (s.nearAp a.num src).getD 0 else 0 }

/-- Comp with a STATUS. -/
def State.answer (s : State) (p : Pkt) (home : Agent) (status : BitVec 3) (poison : BitVec 2) : State :=
  s.sendPkt { p.reply .comp home with status, poison }

/-- NACK (R225). -/
def State.nack (s : State) (p : Pkt) (slice : Nat) : State :=
  (s.sliceEvent slice 2 p 1).answer p (homeAgent slice) 1 0

/-- Entries in a slice's starvation queue (R227). -/
def State.starved (s : State) (slice : Nat) : Nat :=
  ((s.fab.lines.filter fun e => s.sliceOf e.1 == slice).map fun e => e.2.starve.length).foldl (· + ·) 0

/-- The slice has a transaction entry free for a request (R225): every busy line of it holds one. -/
def State.entryFree (s : State) (slice : Nat) : Bool :=
  Nat.ble (s.fab.lines.filter fun e => e.2.txn.isSome && s.sliceOf e.1 == slice).length Config.sliceMore

/-- WrBacks and Evicts that a slice holds for busy lines, of the 64 it has entries for (R220, R224). -/
def State.heldBacks (s : State) (slice : Nat) : Nat :=
  ((s.fab.lines.filter fun e => s.sliceOf e.1 == slice).map fun e => e.2.held.length).foldl (· + ·) 0

/-- The line waits for an answer of its proxy slice to a SnpInv. -/
def Line.snoopsProxy (l : Line) : Bool := match l.txn with | none => false | some t => t.snoops.any fun a => a.kind == .proxy

/-- The home may send the proxy slice that pairs with a slice one more snoop: it holds at most 64 (R232). -/
def State.proxyRoom (s : State) (slice : Nat) : Bool :=
  (s.fab.lines.filter fun e => Line.snoopsProxy e.2 && s.sliceOf e.1 == slice).length < 64

/-- A request that cannot be served at once: STARVE enters the queue while it has room, else NACK (R225, R227). -/
def State.turnAway (s : State) (p : Pkt) (slice n : Nat) : State :=
  if p.starve then
    if s.starved slice < 16 then
      let l := s.line n
      (s.setLine n { l with starve := l.starve ++ [p] }).sliceEvent slice 4 p 1
    else (s.ev R.COH_EVENT_STARVE_FULL 0).nack p slice
  else s.nack p slice

/-! ## Writing back and victims -/

/-- Uncorrectable errors of a slice in one window, which count toward its threshold (R538). -/
def State.countErrs (s : State) (slice k : Nat) : State :=
  { s with fab := { s.fab with
      sliceErrs := tset (fun _ => []) s.fab.sliceErrs slice
        (s.window 0x40000000 (tget (fun _ => []) s.fab.sliceErrs slice) ++ List.replicate k s.tally) } }

/-- A read of the array meets errors in sectors of a line (R216): a clean sector is dropped, to be filled again, a dirty one
poisoned. -/
def State.meetErrs (s : State) (slice n : Nat) (l : Line) (read : BitVec 2) (agent : Nat) : Line × State :=
  let hit := l.bad &&& l.valid &&& read
  if hit = 0 then (l, s)
  else
    let clean := hit &&& ~~~ l.dirty
    let dirty := hit &&& l.dirty
    let l := { l with valid := l.valid &&& ~~~ clean, poison := (l.poison ||| dirty) &&& ~~~ clean, bad := l.bad &&& ~~~ hit }
    let s := if clean = 0 then s else (s.ev R.COH_EVENT_SLICE_FIXED 0).cohLoc 2 slice n agent
    let s := if dirty = 0 then s else (s.ev R.COH_EVENT_SLICE_POISON 0).cohLoc 3 slice n agent
    (l, s.countErrs slice (cnt2 hit))

/-- Sends a line's named dirty sectors to memory: poisoned ones with MPoison (R216, R219, R237). -/
def State.writeBack (s : State) (slice n : Nat) (l : Line) : State :=
  let ch : Agent := ⟨.channel, s.slot (n * 64)⟩
  let (l, s) := s.meetErrs slice n l l.dirty (homeAgent slice).code
  let d := l.dirty &&& l.valid
  let base := { Pkt.mk0 .mWb (homeAgent slice) ch (lineDpa n) with data := l.data }
  let s := if d &&& ~~~ l.poison = 0 then s else s.sendPkt { base with sect := d &&& ~~~ l.poison }
  if d &&& l.poison = 0 then s else s.sendPkt { base with op := .mPoison, sect := d &&& l.poison }

/-- The line leaves the array: what waits for it stays. -/
def Line.gone (l : Line) : Line := { held := l.held, starve := l.starve }

/-- Starts the eviction of a line that is not busy: SnpInv to every copy, or the write-back at once (R219, R244). -/
def State.startEvict (s : State) (n : Nat) : State :=
  let l := s.line n
  let slice := s.sliceOf n
  if l.st = .i ∨ l.txn.isSome ∨ (l.proxy ∧ !s.proxyRoom slice) then s
  else
    let cs := l.copies slice
    if cs.isEmpty then (s.writeBack slice n l).setLine n l.gone
    else
      let (id, s) := s.tick
      let t : Txn := { kind := .evict, phase := .collect, id, req := Pkt.mk0 .evict (homeAgent slice) (homeAgent slice) (lineDpa n),
                       snoops := cs, fills := 0, freshLn := false, gotData := false, data := 0, dpoison := 0, kept := false,
                       status := 0, lost := 0, dead := false, grant := 0 }
      let s := s.setLine n { l with txn := some t, way := 16 }
      cs.foldl (fun s a => s.sendSnoop .snpInv (homeAgent slice) n id none a) s

/-- Lines that occupy ways of a line's set in its slice. -/
def State.setLines (s : State) (slice n : Nat) : List (Nat × Line) :=
  s.fab.lines.filter fun e => (e.2.st != .i || e.2.txn.isSome) && e.2.way < 16 && setOf (e.1 * 64) == setOf (n * 64)
    && s.sliceOf e.1 == slice

/-- The victim among lines: those in C with no sharers first, then the least recently used (R211); a line whose proxy slice can take
no more snoops is none (R232). -/
def victimOf (l : List (Nat × Line)) (room : Bool) : Option Nat :=
  let free := l.filter fun e => e.2.txn.isNone && (room || !e.2.proxy)
  let idle := free.filter fun e => e.2.st == .c && e.2.alone
  let pool := if idle.isEmpty then free else idle
  (pool.foldl (fun (b : Option (Nat × Line)) e =>
    match b with | none => some e | some x => if e.2.used < x.2.used then some e else b) none).map (·.1)

/-- A way for a line: a free one, or that of a victim, whose eviction starts; none where every way holds a busy line
(R211, R225). -/
def State.takeWay (s : State) (slice n : Nat) (ways : List Nat) : Option Nat × State :=
  let held := (s.setLines slice n).filter fun e => ways.contains e.2.way
  match ways.find? fun w => !held.any fun e => e.2.way == w with
  | some w => (some w, s)
  | none =>
    match victimOf held (s.proxyRoom slice) with
    | none => (none, s)
    | some v => (some (s.line v).way, s.startEvict v)

/-! ## Completing a row of R219 -/

/-- A line with data that a holder returned. -/
def Line.takeData (l : Line) (d : LineData) (pz : BitVec 2) : Line :=
  { l with data := d, valid := 3, dirty := 3, poison := pz, bad := 0 }

/-- Merges a WrThrough, a reducing write or an atomic into one sector of the array; answers whether it stays poisoned
(R237, R361). -/
def Line.mergeSec (l : Line) (p : Pkt) (i : Nat) : Bool × Line :=
  let old := secOf l.data i
  let pz := bit2 l.poison i
  let put (d : BitVec 256) (pz : Bool) : Line :=
    { l with data := setSec l.data i d, valid := withBit l.valid i true, dirty := withBit l.dirty i true,
             poison := withBit l.poison i pz, bad := withBit l.bad i false }
  if p.op = .atomH then (if pz then (true, l) else (false, put (Pkt.atomNew p old) false))
  else if p.aop ≠ 0 then (if pz then (true, l) else (bit2 p.poison i, put (redSector p.aop old p.data) (bit2 p.poison i)))
  else if p.masked then
    if pz then (true, l)
    else
      let m := (List.range 32).foldl (fun v b =>
        if p.wrMask.testBit b then putBits v (8 * b) 8 (bitsOf (p.wrData i).toNat (8 * b + 7) (8 * b)) else v) old.toNat
      (bit2 p.poison i, put (BitVec.ofNat 256 m) (bit2 p.poison i))
  else (false, put (p.wrData i) (bit2 p.poison i))

/-- The sectors a write or atomic of the home touches. -/
def Pkt.homeSect (p : Pkt) : BitVec 2 := if p.op = .atomH then mk2 (Pkt.atomSec p == 0) (Pkt.atomSec p == 1) else p.sect

/-- Merges every sector named. -/
def Line.merge (l : Line) (p : Pkt) : BitVec 2 × Line :=
  let one (acc : BitVec 2 × Line) (i : Nat) :=
    if bit2 (Pkt.homeSect p) i then
      let (b, l) := Line.mergeSec acc.2 p i
      (if b then acc.1 ||| mk2 (i == 0) (i == 1) else acc.1, l)
    else acc
  one (one (0, l) 0) 1

/-- A request that grants or moves ownership, and so becomes the holder (R219). -/
def Pkt.owns (p : Pkt) : Bool := p.op == .rdUnique || p.op == .upgrade

/-- What a completed row sends, the line after it, and the state granted (R219). -/
structure Done where
  reply : Pkt
  line  : Line
  grant : BitVec 2

/-- RdShared completed (R219): of a line in H, HOLDER and the requester are its sharers. -/
def doneShared (l : Line) (t : Txn) (home : Agent) : Done :=
  let p := t.req
  let rep (l : Line) (g : BitVec 2) : Done :=
    ⟨{ p.reply .compData home with sect := 3, data := l.data, poison := l.poison, grant := g }, l, g⟩
  let site := p.src.kind == .site
  match l.st with
  | .i => if site then rep { l with st := .h, holder := p.src.num } 2 else rep ({ l with st := .c }.setSharer p.src true) 1
  | .c | .d =>
    if site && l.alone then rep { l with st := .h, holder := p.src.num } (if l.st = .c then 2 else 3)
    else rep (l.setSharer p.src true) 1
  | .h =>
    let m := if t.gotData then { l.takeData t.data t.dpoison with st := .d } else { l with st := .c }
    rep (({ m.setSharer ⟨.site, l.holder⟩ true with holder := 0 }).setSharer p.src true) 1

/-- RdUnique or Upgrade completed (R219): a sharer's Upgrade is answered without data. -/
def doneUnique (l : Line) (t : Txn) (home : Agent) : Done :=
  let p := t.req
  let g : BitVec 2 := match l.st with | .i | .c => 2 | .d => 3 | .h => if t.gotData then 3 else 2
  let sharer := p.op == .upgrade && l.st != .h && l.st != .i && l.shares p.src
  let m := if t.gotData then l.takeData t.data t.dpoison else l
  let m := { m.noSharers with st := .h, holder := p.src.num }
  if sharer then ⟨{ p.reply .comp home with grant := g }, m, g⟩
  else ⟨{ p.reply .compData home with sect := 3, data := m.data, poison := m.poison, grant := g }, m, g⟩

/-- RdOnce completed (R219). -/
def doneOnce (l : Line) (t : Txn) (home : Agent) : Done :=
  let d := if t.gotData then t.data else l.data
  let pz := (if t.gotData then t.dpoison else l.poison) &&& t.req.sect
  ⟨{ t.req.reply .compData home with data := d, poison := pz }, (if l.st = .i then { l with st := .c } else l), 0⟩

/-- WrThrough or AtomH completed (R219, R235): D, no sharers, no holder; an atomic answers with the old value. -/
def doneWrite (l : Line) (t : Txn) (home : Agent) (ctr : Nat) : Done :=
  let p := t.req
  let m := if t.gotData then l.takeData t.data t.dpoison else l
  let m := { m.noSharers with holder := 0 }
  let (pz, w) := m.merge p
  let w := { w with st := .d }
  if p.op = .atomH then
    ⟨{ p.reply .compData home with data := Pkt.atomReply p ctr (secOf m.data (Pkt.atomSec p)), poison := pz }, w, 0⟩
  else ⟨{ p.reply .comp home with poison := pz }, w, 0⟩

/-- The line after a request that ended in a timeout: a holder given up leaves its data lost, and copies that answered or were given
up are gone (R238); a failed fill leaves the line, its entry and its valid sectors, but for data that a holder has returned
(R239). -/
def doneFailed (l : Line) (t : Txn) : Line :=
  if t.freshLn then l.gone
  else if l.st = .h then
    if t.dead then { l with st := .d, holder := 0, valid := 3, dirty := 3, poison := 3, bad := 0 }
    else if t.gotData ∧ t.req.op ≠ .rdOnce then
      (if t.kept then ({ l.takeData t.data t.dpoison with st := .d, holder := 0 }).setSharer ⟨.site, l.holder⟩ true
       else { l.takeData t.data t.dpoison with st := .d, holder := 0 })
    else l
  else if t.req.op = .rdShared ∨ t.req.op = .rdOnce ∨ t.lost ≠ 0 then l
  else if t.req.op = .upgrade ∧ l.shares t.req.src then ({ l.noSharers with st := l.st }).setSharer t.req.src true
  else l.noSharers

/-- A write that timed out leaves each sector that it writes whole its old value or the write's: a free value (R246). -/
def Line.mayMerge (l : Line) (p : Pkt) (ctr : Nat) : Line :=
  if p.masked || p.aop != 0 then l
  else
    let one (l : Line) (i : Nat) : Line :=
      if bit2 p.sect i && !Config.keptOld (2 * ctr + i) then { (Line.mergeSec l p i).2 with st := .d } else l
    if l.st = .h then l else one (one l 0) 1

/-- The line of a completed row, which stays busy until a GrantAck where a state was granted (R220). -/
def State.finishRow (s : State) (n : Nat) (l : Line) (t : Txn) : State :=
  let slice := s.sliceOf n
  let home := homeAgent slice
  match t.kind with
  | .evict | .flush =>
    let m := if t.gotData then l.takeData t.data t.dpoison
      else if t.lost ≠ 0 then { l with valid := 3, dirty := 3, poison := 3 } else l
    (s.writeBack slice n m).setLine n m.gone
  | .scan =>
    let k := t.req.src.num
    let m := if l.st = .h then
        (if t.gotData then { l.takeData t.data t.dpoison with st := .d, holder := 0 }
         else if t.lost ≠ 0 then { l with st := .d, holder := 0, valid := 3, dirty := 3, poison := 3 }
         else { l with st := .c, holder := 0 })
      else l.setSharer ⟨.site, k⟩ false
    s.setLine n { m with txn := none }
  | .request =>
    if t.status ≠ 0 then
      let m := doneFailed l t
      let s := s.setLine n { (if t.req.op = .wrThrough ∧ m.st ≠ .i then m.mayMerge t.req s.freeCtr else m) with txn := none }
      let s := if t.req.op = .wrThrough then s.bump else s
      s.answer t.req home t.status (t.lost &&& (if t.req.sect = 0 then 3 else t.req.sect))
    else
      let d := match t.req.op with
        | .rdShared => doneShared l t home
        | .rdUnique | .upgrade => doneUnique l t home
        | .rdOnce => doneOnce l t home
        | _ => doneWrite l t home s.freeCtr
      let s := if t.req.op = .atomH then s.bump else s
      let s := s.setLine n { d.line with txn := if d.grant = 0 then none else some { t with phase := .ack, grant := d.grant } }
      s.sendPkt d.reply

/-! ## Starting a row -/

/-- The snoops a row of R219 sends. -/
def rowSnoops (l : Line) (slice : Nat) (p : Pkt) : Op × List Agent :=
  match l.st with
  | .h =>
    let hs : List Agent := [⟨.site, l.holder⟩]
    (match p.op with | .rdShared => .snpShared | .rdOnce => .snpRdNA | _ => .snpInv, hs)
  | _ =>
    match p.op with
    | .rdShared | .rdOnce => (.snpInv, [])
    | .upgrade => (.snpInv, (l.copies slice).filter fun a => !(l.shares p.src && a == p.src))
    | _ => (.snpInv, l.copies slice)

/-- The sectors of a line that a row reads (R219). -/
def rowReads (l : Line) (p : Pkt) : BitVec 2 :=
  match p.op with
  | .rdShared | .rdUnique => 3
  | .upgrade => if l.st != .h && l.st != .i && l.shares p.src then 0 else 3
  | .rdOnce => p.sect
  | .atomH => Pkt.homeSect p
  | _ => if p.masked || p.aop != 0 then p.sect else 0

/-- The sectors a row fills from memory: those it needs that the array lacks (R219). -/
def rowFills (l : Line) (p : Pkt) : BitVec 2 := rowReads l p &&& ~~~ l.valid

/-- Starts a row on a line that is not busy and has its way. -/
def State.startRow (s : State) (n : Nat) (p : Pkt) (freshLn : Bool) : State :=
  let slice := s.sliceOf n
  let home := homeAgent slice
  let (use, s) := s.tick
  let l := { s.line n with used := use }
  let (op, sn) := rowSnoops l slice p
  let fl := rowFills l p
  let t : Txn := { kind := .request, phase := .collect, id := use, req := p, snoops := sn, fills := fl, freshLn, gotData := false,
                   data := 0, dpoison := 0, kept := false, status := 0, lost := 0, dead := false, grant := 0 }
  let s := s.setLine n { l with txn := some t }
  let s := s.sliceEvent slice 3 p sn.length
  let s := if fl = 0 then s.sliceEvent slice 1 p 1 else s
  let s := sn.foldl (fun s a => s.sendSnoop op home n use (some p.src) a) s
  let s := if fl = 0 then s
    else s.sendPkt { Pkt.mk0 .mFill home ⟨.channel, s.slot (n * 64)⟩ (lineDpa n) with
      tag := use % 65536, sect := fl, ctx := p.ctx, who := some p.src }
  if sn.isEmpty && fl == 0 then s.finishRow n (s.line n) t else s

/-- Serves a request without allocating the line (R212): a read by a fill whose line is dropped again, a write or atomic by the
bypass-class op at the channel, which answers the requester, or the proxy slice that relayed for it. -/
def State.serveUncached (s : State) (n : Nat) (p : Pkt) : State :=
  let slice := s.sliceOf n
  match p.op with
  | .wrThrough => s.sendPkt { p with op := .memWr, dst := ⟨.channel, s.slot (n * 64)⟩, hop := some (homeAgent slice) }
  | .atomH => s.sendPkt { p with op := .atomM, dst := ⟨.channel, s.slot (n * 64)⟩, hop := some (homeAgent slice) }
  | _ =>
    let q := { p with op := .rdOnce, sect := if p.op = .rdOnce then p.sect else 3 }
    let (use, s) := s.tick
    let t : Txn := { kind := .flush, phase := .collect, id := use, req := q, snoops := [], fills := q.sect, freshLn := true,
                     gotData := false, data := 0, dpoison := 0, kept := false, status := 0, lost := 0, dead := false, grant := 0 }
    let l := s.line n
    let s := s.setLine n { l with txn := some t, way := 16 }
    s.sendPkt { Pkt.mk0 .mFill (homeAgent slice) ⟨.channel, s.slot (n * 64)⟩ (lineDpa n) with
      tag := use % 65536, sect := q.sect, ctx := p.ctx, who := some p.src }

/-- A request on a line that is not busy: WrBack and Evict act at once; a line in the array goes on; another takes a way, or is
served without one, or is turned away (R211, R212, R219, R225). -/
def State.serve (s : State) (n : Nat) (p : Pkt) : State :=
  let slice := s.sliceOf n
  let l := s.line n
  if l.st ≠ .i then s.startRow n p false
  else
    let ways := s.waysFor slice n false
    if ways.isEmpty then s.serveUncached n p
    else
      match s.takeWay slice n ways with
      | (none, s) => s.turnAway p slice n
      | (some w, s) => (s.setLine n { s.line n with way := w }).startRow n p true

/-- WrBack or Evict on a line that is not busy (R219). -/
def State.applyBack (s : State) (n : Nat) (p : Pkt) : State :=
  let slice := s.sliceOf n
  let l := s.line n
  let isHolder := l.st == .h && p.src == ⟨.site, l.holder⟩
  let s :=
    if isHolder then
      if p.op = .wrBack then s.setLine n { l.takeData p.data p.poison with st := .d, holder := 0 }
      else s.setLine n { l with st := .c, holder := 0 }
    else if p.op = .evict ∧ l.shares p.src then s.setLine n (l.setSharer p.src false)
    else s
  s.answer p (homeAgent slice) 0 0

/-- Applies every held WrBack and Evict of a line, in order (R220). -/
def State.applyHeld (s : State) (n : Nat) : State :=
  let l := s.line n
  l.held.foldl (fun s p => s.applyBack n p) (s.setLine n { l with held := [] })

/-- Serves a line's starvation queue in order while the line is not busy (R227). -/
def State.serveLine (s : State) (n : Nat) : Nat → State
  | 0 => s
  | k + 1 =>
    let l := s.line n
    match l.txn, l.starve with
    | none, p :: r => ((s.setLine n { l with starve := r }).serve n p).serveLine n k
    | _, _ => s

/-- Starts the evictions that flushes and uncached slices want and that have not started (R232, R242, R244, R539). -/
def State.evictAgain (s : State) (slice : Nat) : State :=
  if s.fab.flush.isNone && s.fab.wayStaged.isEmpty && !s.fab.uncached.contains slice then s
  else
    (s.fab.lines.filter fun e => s.sliceOf e.1 == slice && e.2.txn.isNone && s.selects slice e.1 e.2.way).foldl
      (fun s e => s.startEvict e.1) s

/-- LINE_UNBUSY (R220): held WrBacks and Evicts, then what a flush wants gone, then the starvation queues of the slice. -/
def State.unbusy (s : State) (n : Nat) : State :=
  let slice := s.sliceOf n
  if (s.line n).txn.isSome then s
  else
    let s := s.applyHeld n
    let s := s.evictAgain slice
    let s := s.serveLine n 16
    (s.fab.lines.filter fun e => !e.2.starve.isEmpty && e.2.txn.isNone && s.sliceOf e.1 == slice).foldl
      (fun s e => s.serveLine e.1 16) s

/-- A row whose answers and fills have all come is completed (R220). -/
def State.advanceTxn (s : State) (n : Nat) (l : Line) (t : Txn) : State :=
  let s := s.setLine n { l with txn := some t }
  if t.snoops.isEmpty && t.fills == 0 then
    if t.kind = .flush ∧ t.req.op = .rdOnce then
      let home := homeAgent (s.sliceOf n)
      let s := s.setLine n l.gone
      (if t.status ≠ 0 then s.answer t.req home t.status t.lost
       else s.sendPkt { t.req.reply .compData home with data := t.data, poison := t.dpoison &&& t.req.sect }).unbusy n
    else (s.finishRow n l t).unbusy n
  else s

/-! ## Requests at a home -/

/-- Words of a line's sectors in the array have failed (R216): whatever reads them next meets the error. -/
def State.markErrs (s : State) (n : Nat) (ecc : BitVec 2) : State :=
  let l := s.line n
  if ecc &&& l.valid = 0 ∨ l.st = .i then s else s.setLine n { l with bad := l.bad ||| (ecc &&& l.valid) }

/-- A request meets the errors of the sectors that its row reads (R216); the fourth in a window uncaches the slice (R538, R539). -/
def State.sliceEcc (s : State) (slice n : Nat) (p : Pkt) : State :=
  let l := s.line n
  if l.bad &&& l.valid &&& rowReads l p = 0 then s
  else
    let (l, s) := s.meetErrs slice n l (rowReads l p) p.src.code
    s.setLine n l

/-- SLICE_UNCACHE (R539). -/
def State.uncache (s : State) (slice : Nat) : State :=
  if s.fab.uncached.contains slice then s
  else
    let s := { s with fab := { s.fab with uncached := s.fab.uncached ++ [slice] } }
    let s := (s.addRepair (.slice slice)).fset R.MGT_WARN_SLICE_UNCACHED 0 0 1
    (s.fab.lines.filter fun e => s.sliceOf e.1 == slice).foldl (fun s e => s.startEvict e.1) s

/-- A slice at its error threshold is uncached (R538), once a flush that runs is complete (R552). -/
def State.checkSlice (s : State) (slice : Nat) : State :=
  if 4 ≤ (s.window 0x40000000 (tget (fun _ => []) s.fab.sliceErrs slice)).length then
    (if s.fab.flush.isSome then { s with fab := { s.fab with uncLate := addOnce slice s.fab.uncLate } } else s.uncache slice)
  else s

/-- A cached-class request at its home (R197, R213, R220, R225, R227, R232). The Evict of a proxy slice is of no context and meets no
ownership check (log 24). -/
def State.atHome (s : State) (p : Pkt) (ecc : BitVec 2) : State :=
  let n := p.line
  let slice := s.sliceOf n
  let home := homeAgent slice
  let c := if p.op = .evict ∧ p.src.kind = .proxy then 0 else s.ownCheck p.src p.ctx p.op.writes p.addr.toNat
  let s := (s.sliceEvent slice 0 p 1).markErrs n ecc
  if s.crosses p.src home && !s.spliceOpen then s.answer p home 3 0
  else if p.badField then s.answer p home 5 0
  else if c ≠ 0 then (s.deny p.src p.ctx p.addr.toNat c).answer p home 2 0
  else
    let l := s.line n
    if p.op = .wrBack ∨ p.op = .evict then
      if l.txn.isSome then s.setLine n { l with held := l.held ++ [p] } else s.applyBack n p
    else if l.txn.isSome || !l.starve.isEmpty || !s.entryFree slice || (l.proxy && !s.proxyRoom slice) then s.turnAway p slice n
    else ((s.sliceEcc slice n p).serve n p).checkSlice slice

/-! ## Proxy slices -/

def proxyOf (s : State) (n : Nat) : Agent := ⟨.proxy, pairOf (s.sliceOf n)⟩

/-- The members of a proxy's sharer set (R229). -/
def PLine.members (l : PLine) (slice : Nat) : List Agent :=
  ((List.range 8).filter fun k => l.sites.toNat.testBit k).map (fun k => (⟨.site, k⟩ : Agent))
    ++ ((List.range 12).filter fun g => l.groups.toNat.testBit g).flatMap
      (fun g => (List.range 4).map fun i => (⟨.tile, (if slice < 16 then 0 else 48) + 4 * g + i⟩ : Agent))

def PLine.shares (l : PLine) (a : Agent) : Bool :=
  match a.kind with
  | .site => l.sites.toNat.testBit a.num
  | .tile => l.groups.toNat.testBit (a.num % 48 / 4)
  | _ => false

def PLine.setSharer (l : PLine) (a : Agent) (b : Bool) : PLine :=
  match a.kind with
  | .site => { l with sites := withBit l.sites a.num b }
  | .tile => { l with groups := withBit l.groups (a.num % 48 / 4) b }
  | _ => l

/-- The proxy has dropped its copy and every member has answered: it answers the home's SnpInv, or sends Evict (R232). -/
def State.proxyGone (s : State) (n : Nat) : State :=
  let l := s.pline n
  let me := proxyOf s n
  let s := s.setPline n { waiting := l.waiting }
  match l.inv with
  | some p => s.sendPkt { p.reply .snpResp me with sect := 0 }
  | none => s.sendPkt (Pkt.mk0 .evict me (homeAgent (s.sliceOf n)) (lineDpa n))

/-- The proxy gives up a line: SnpInv to its members once their grants are acknowledged (R223, R232). -/
def State.proxyDrop (s : State) (n : Nat) : State :=
  let l := s.pline n
  let slice := pairOf (s.sliceOf n)
  if !l.acks.isEmpty then s
  else
    let ms := l.members slice
    if ms.isEmpty then s.proxyGone n
    else
      let s := s.setPline n { l with snoops := ms, way := 16, dropping := true }
      ms.foldl (fun s a => s.sendSnoop .snpInv (proxyOf s n) n 0 (l.inv.bind Pkt.who) a) s

/-- Starts the eviction of a remote line (R232). -/
def State.proxyEvict (s : State) (n : Nat) : State :=
  let l := s.pline n
  if !l.present || l.leaving || l.inv.isSome then s
  else
    let s := s.setPline n { l with leaving := true }
    if l.snoops.isEmpty then s.proxyDrop n else s

/-- Serves one request from a line that the proxy holds: RdShared with a grant of S (R230). -/
def State.proxyServe (s : State) (n : Nat) (p : Pkt) : State :=
  let l := s.pline n
  let me := proxyOf s n
  let (use, s) := s.tick
  if p.op = .rdShared then
    let s := s.setPline n { l.setSharer p.src true with acks := l.acks ++ [p.src], used := use }
    s.sendPkt { p.reply .compData me with sect := 3, data := l.data, poison := l.poison, grant := 1 }
  else
    let s := s.setPline n { l with used := use }
    s.sendPkt { p.reply .compData me with data := l.data, poison := l.poison &&& p.sect }

/-- The remote lines that occupy ways of a line's set at a proxy slice. -/
def State.proxySet (s : State) (slice n : Nat) : List (Nat × PLine) :=
  s.fab.plines.filter fun e => (e.2.present || !e.2.waiting.isEmpty) && e.2.way < 16 && setOf (e.1 * 64) == setOf (n * 64)
    && pairOf (s.sliceOf e.1) == slice

/-- The victim among remote lines that nothing waits for: those with no members first, then the least recently used (R211). -/
def proxyVictim (l : List (Nat × PLine)) : Option Nat :=
  let free := l.filter fun e => e.2.present && e.2.waiting.isEmpty && !e.2.leaving && e.2.inv.isNone && e.2.acks.isEmpty
  let idle := free.filter fun e => e.2.sites == 0 && e.2.groups == 0
  let pool := if idle.isEmpty then free else idle
  (pool.foldl (fun (b : Option (Nat × PLine)) e =>
    match b with | none => some e | some x => if e.2.used < x.2.used then some e else b) none).map (·.1)

def State.proxyWay (s : State) (slice n : Nat) (ways : List Nat) : Option Nat × State :=
  let held := (s.proxySet slice n).filter fun e => ways.contains e.2.way
  match ways.find? fun w => !held.any fun e => e.2.way == w with
  | some w => (some w, s)
  | none =>
    match proxyVictim held with
    | none => (none, s)
    | some v => (some (s.pline v).way, s.proxyEvict v)

/-- Relays a request to the home with the requester's AGENT; a tile's RdShared as RdOnce (R230, R231). The response comes back to
the proxy slice (R205). -/
def State.relay (s : State) (p : Pkt) : State :=
  let home := homeAgent (s.sliceOf p.line)
  let me := proxyOf s p.line
  let p := { p with dst := home, hop := some me, via := some me }
  if p.op = .rdShared ∧ p.src.kind = .tile then s.sendPkt { p with op := .rdOnce, sect := 3 } else s.sendPkt p

/-- The proxy slice returns a relayed request's response to its requester under the same tag (R205). -/
def State.relayBack (s : State) (p : Pkt) (a : Agent) : State := s.sendPkt { p with dst := a, hop := some p.dst, who := none }

/-- The proxy slice asks the home for a line again, whose copy an error has spoilt (R216). -/
def State.proxyRefill (s : State) (n : Nat) (p : Pkt) : State :=
  let l := s.pline n
  let me := proxyOf s n
  let slice := pairOf (s.sliceOf n)
  let s := (s.ev R.COH_EVENT_SLICE_FIXED 0).cohLoc 2 slice n p.src.code
  let s := (s.countErrs slice (cnt2 l.bad)).setPline n { l with waiting := [p] }
  s.sendPkt { p with op := .rdOnce, src := me, dst := homeAgent (s.sliceOf n), addr := lineDpa n, sect := 3 }

/-- A remote way takes the errors that a request meets in it (R216). -/
def PLine.withErrs (l : PLine) (ecc : BitVec 2) : PLine := if l.present then { l with bad := l.bad ||| ecc } else l

/-- A proxy takes a request that has passed its checks (R205, R216, R230). -/
def State.proxyTakes (s : State) (p : Pkt) : State :=
  let n := p.line
  let slice := pairOf (s.sliceOf n)
  let me := proxyOf s n
  let l := s.pline n
  match p.op with
  | .rdShared | .rdOnce =>
    if l.leaving || l.inv.isSome then (s.sliceEvent slice 2 p 1).answer p me 1 0
    else if !l.waiting.isEmpty then s.setPline n { l with waiting := l.waiting ++ [p] }
    else if l.present ∧ l.bad ≠ 0 then (s.proxyRefill n p).checkSlice slice
    else if l.present then (s.sliceEvent slice 1 p 1).proxyServe n p
    else
      let ways := s.waysFor slice n true
      if ways.isEmpty then s.relay p
      else
        match s.proxyWay slice n ways with
        | (none, s) => (s.sliceEvent slice 2 p 1).answer p me 1 0
        | (some w, s) =>
          let s := s.setPline n { s.pline n with waiting := [p], way := w }
          s.sendPkt { p with op := .rdShared, src := me, dst := homeAgent (s.sliceOf n), addr := lineDpa n, sect := 3, starve := p.starve }
  | .evict =>
    if l.shares p.src then (s.setPline n (l.setSharer p.src false)).answer p me 0 0 else s.relay p
  | _ => s.relay p

/-- A cached-class request at a proxy slice (R229 to R231). The ownership check covers what the proxy itself serves (R417). -/
def State.atProxy (s : State) (p : Pkt) (ecc : BitVec 2) : State :=
  let me := proxyOf s p.line
  let s := s.sliceEvent (pairOf (s.sliceOf p.line)) 0 p 1
  let c := s.ownCheck p.src p.ctx p.op.writes p.addr.toNat
  if !s.spliceOpen then s.answer p me 3 0
  else if p.badField then s.answer p me 5 0
  else if c ≠ 0 then (s.deny p.src p.ctx p.addr.toNat c).answer p me 2 0
  else
    let l := (s.pline p.line).withErrs ecc
    if l = s.pline p.line then s.proxyTakes p else (s.setPline p.line l).proxyTakes p

/-- The home's answer to a proxy's fill (R230): the waiting requests are served, or share its refusal. Data that the home keeps no
trace of serves the request that asked for it alone; those that came later retry, since a write may have been performed before
they came (R245). -/
def State.proxyFilled (s : State) (p : Pkt) : State :=
  let n := p.line
  let me := proxyOf s n
  let l := s.pline n
  let s := if p.grant = 0 then s else s.sendPkt { Pkt.mk0 .grantAck me p.src p.addr with tag := p.tag, sect := 0 }
  if p.op = .comp ∨ p.status ≠ 0 then
    l.waiting.foldl (fun s q => s.answer q me p.status p.poison) (s.setPline n {})
  else if p.grant = 0 ∧ l.present then
    let s := s.setPline n { l with data := p.data, poison := p.poison, bad := 0, waiting := [] }
    l.waiting.foldl (fun s q => s.proxyServe n q) s
  else if p.grant = 0 then
    match l.waiting with
    | [] => s.setPline n {}
    | q :: rest =>
      let s := (s.setPline n {}).sendPkt { q.reply .compData me with
        sect := if q.op = .rdShared then 3 else q.sect, data := p.data
        poison := p.poison &&& (if q.op = .rdShared then 3 else q.sect) }
      rest.foldl (fun s q => s.answer q me 1 0) s
  else
    let s := s.setPline n { l with present := true, data := p.data, poison := p.poison, bad := 0, waiting := [] }
    let s := l.waiting.foldl (fun s q => s.proxyServe n q) s
    if s.selects (pairOf (s.sliceOf n)) n l.way then s.proxyEvict n else s

/-! ## Caching agents -/

/-- A site's state for a line (R221). -/
def State.siteLine (s : State) (k n : Nat) : CSt := tget (fun _ => CSt.i) (s.site k).cache n
def State.setSiteLine (s : State) (k n : Nat) (c : CSt) : State :=
  s.setSite k { s.site k with cache := tset (fun _ => CSt.i) (s.site k).cache n c }

/-- What a site answers a snoop: data returned with its poison, state kept, state after (R221). A site in E may have changed to M
without notice (R217): free values say whether, what it stored, and which poison its stores left (R237). -/
def State.siteSnoop (s : State) (k n : Nat) (op : Op) : Option (LineData × BitVec 2) × BitVec 2 × CSt :=
  let m (pz : BitVec 2) : Option (LineData × BitVec 2) × BitVec 2 × CSt :=
    let pz := pz &&& Config.sitePz s.freeCtr
    let d := some (Config.siteLine s.freeCtr, pz)
    match op with
    | .snpShared => (d, 1, .s pz)
    | .snpRdNA => (d, 3, .m pz)
    | _ => (d, 0, .i)
  match s.siteLine k n with
  | .i => (none, 0, .i)
  | .s pz => if op = .snpInv then (none, 0, .i) else (none, 1, .s pz)
  | .e =>
    if Config.siteSilent s.freeCtr then m (s.line n).poison
    else
      match op with
      | .snpShared => (none, 1, .s (s.line n).poison)
      | .snpRdNA => (some ((s.line n).data, (s.line n).poison), 2, .e)
      | _ => (none, 0, .i)
  | .m pz => m pz
  | .wb d pz => (some (d, pz), 0, .wb d pz)

/-- A snoop reaches its agent, which answers (R221, R222, R232). -/
def State.snooped (s : State) (p : Pkt) : State :=
  let n := p.line
  match p.dst.kind with
  | .site =>
    let k := p.dst.num
    let (d, g, c) := s.siteSnoop k n p.op
    let s := ((s.setSiteLine k n c).bump).apEmit k p.ap p.sender (.siteSnoop k p)
    match d with
    | none => s.sendPkt { p.reply .snpResp p.dst with sect := 0, grant := g }
    | some x => s.sendPkt { p.reply .snpRespData p.dst with sect := 3, grant := g, data := x.1, poison := x.2 }
  | .tile =>
    let x := s.tile p.dst.num
    let s := s.setTile p.dst.num { x with rcache := tset (fun _ => none) x.rcache n none }
    s.sendPkt { p.reply .snpResp p.dst with sect := 0 }
  | .proxy =>
    let l := s.pline n
    if !l.present then s.sendPkt { p.reply .snpResp p.dst with sect := 0 }
    else
      let s := s.setPline n { l with inv := some p }
      if l.snoops.isEmpty then s.proxyDrop n else s
  | _ => s

/-- A snoop's answer at a proxy slice (R232). -/
def State.proxyAnswer (s : State) (p : Pkt) : State :=
  let n := p.line
  let l := s.pline n
  if !l.snoops.contains p.src then s
  else
    let l := { l with snoops := l.snoops.erase p.src }
    let s := s.setPline n l
    if !l.snoops.isEmpty then s
    else if l.dropping then s.proxyGone n
    else if l.inv.isSome || l.leaving then s.proxyDrop n
    else s

/-- A snoop's answer at a home (R219, R240). -/
def State.homeAnswer (s : State) (p : Pkt) : State :=
  let n := p.line
  let l := s.line n
  match l.txn with
  | none => s
  | some t =>
    if t.phase ≠ .collect ∨ t.id % 65536 ≠ p.tag ∨ !t.snoops.contains p.src then s
    else
      let t := { t with snoops := t.snoops.erase p.src, kept := t.kept || (p.src == ⟨.site, l.holder⟩ && p.grant == 1) }
      let t := if p.op = .snpRespData then { t with gotData := true, data := p.data, dpoison := p.poison } else t
      s.advanceTxn n l t

/-- MData at a home (R219, R240). A home that serves the line without allocating it keeps the data for the answer alone. -/
def State.homeData (s : State) (p : Pkt) : State :=
  let n := p.line
  let l := s.line n
  match l.txn with
  | none => s
  | some t =>
    if t.phase ≠ .collect ∨ t.id % 65536 ≠ p.tag ∨ t.fills = 0 then s
    else if p.status ≠ 0 then
      s.advanceTxn n l { t with fills := 0, status := p.status, lost := t.lost ||| t.fills }
    else
      let put (d : LineData) : LineData :=
        let d := if bit2 t.fills 0 then setSec d 0 (secOf p.data 0) else d
        if bit2 t.fills 1 then setSec d 1 (secOf p.data 1) else d
      if t.kind = .flush then
        s.advanceTxn n l { t with fills := 0, data := put t.data, dpoison := p.poison &&& t.fills }
      else
        s.advanceTxn n { l with data := put l.data, valid := l.valid ||| t.fills, dirty := l.dirty &&& ~~~ t.fills,
                                bad := l.bad &&& ~~~ t.fills,
                                poison := (l.poison &&& ~~~ t.fills) ||| (p.poison &&& t.fills) } { t with fills := 0 }

/-- GrantAck at a home: a grant of S ends the row, one of E or M starts the hitch time (R220, R228). -/
def State.homeAck (s : State) (n : Nat) : State :=
  let l := s.line n
  match l.txn with
  | none => s
  | some t =>
    if t.phase ≠ .ack then s
    else if t.grant = 1 then (s.setLine n { l with txn := none }).unbusy n
    else s.setLine n { l with txn := some { t with phase := .hitch } }

/-- GrantAck at a proxy slice. -/
def State.proxyAck (s : State) (p : Pkt) : State :=
  let n := p.line
  let l := s.pline n
  let s := s.setPline n { l with acks := l.acks.erase p.src }
  if (l.inv.isSome || l.leaving) && l.snoops.isEmpty then s.proxyDrop n else s

/-! ## Timeouts -/

/-- A snooped copy is given up (R238): a holder's data is lost. -/
def State.snoopLost (s : State) (n : Nat) (a : Agent) (status : BitVec 3) : State :=
  let l := s.line n
  match l.txn with
  | none => s
  | some t =>
    if t.phase ≠ .collect ∨ !t.snoops.contains a then s
    else
      let held := l.st == .h && a == ⟨.site, l.holder⟩
      s.advanceTxn n l { t with snoops := t.snoops.erase a, status := status, lost := if held then 3 else t.lost
                                dead := t.dead || held }

/-- A fill is given up (R239). -/
def State.fillLost (s : State) (n : Nat) : State :=
  let l := s.line n
  match l.txn with
  | none => s
  | some t =>
    if t.phase ≠ .collect ∨ t.fills = 0 then s
    else
      let s := (s.ev R.COH_EVENT_MEM_TMO 0).cohLoc 1 (s.sliceOf n) n t.req.src.code
      s.advanceTxn n l { t with fills := 0, status := 4, lost := t.lost ||| t.fills }

/-! ## Flushes and drops -/

/-- Starts the eviction of every line that the running flushes select (R242, R244). -/
def State.evictSelected (s : State) : State :=
  let s := s.fab.lines.foldl (fun s e => if s.selects (s.sliceOf e.1) e.1 e.2.way then s.startEvict e.1 else s) s
  s.fab.plines.foldl (fun s e => if s.flushWays.testBit e.2.way then s.proxyEvict e.1 else s) s

/-- A selected line is still in an array, or its write-back still on its way (R244). -/
def State.flushing (s : State) : Bool :=
  (s.fab.lines.any fun e => (e.2.st != .i || e.2.txn.isSome) && (s.flushGran (granOf (e.1 * 64)) || s.flushWays.testBit e.2.way
      || (match e.2.txn with | some t => t.kind == .evict | none => false)))
    || (s.fab.plines.any fun e => (e.2.present || !e.2.waiting.isEmpty) && s.flushWays.testBit e.2.way)
    || ((s.fab.net ++ s.hank.cold).any fun p => p.src.kind == .home && (p.op == .mWb || p.op == .mPoison))

/-- SnpInv goes to every site that holds or shares a line that is dropped (R626); its answer finds no row and is discarded (R240). -/
def State.snoopDropped (s : State) (test : Nat → Bool) : State :=
  let s := (s.fab.lines.filter fun e => test e.1).foldl (fun s e =>
    ((e.2.copies (s.sliceOf e.1)).filter fun a => a.kind == .site).foldl (fun s a =>
      let (id, s) := s.tick
      s.sendSnoop .snpInv (homeAgent (s.sliceOf e.1)) e.1 id none a) s) s
  (s.fab.plines.filter fun e => test e.1).foldl (fun s e =>
    (((List.range 8).map siteAgent).filter e.2.shares).foldl (fun s a => s.sendSnoop .snpInv (proxyOf s e.1) e.1 0 none a) s) s

/-- Drops every cached copy of lines that meet a test, without write-back (R464 item 3, R626): at homes, proxies, sites and tile
read caches. A request in progress on such a line completes with STATUS 2. -/
def State.dropLines (s : State) (test : Nat → Bool) : State :=
  let s := s.snoopDropped test
  let s := (s.fab.lines.filter fun e => test e.1).foldl (fun s e =>
    match e.2.txn with
    | some t =>
      if t.phase = .collect ∧ t.kind ≠ .evict then s.answer t.req (homeAgent (s.sliceOf e.1)) 2 0 else s
    | none => s) s
  let waiting := (s.fab.lines.filter fun e => test e.1).flatMap fun e => e.2.held.map (fun p => (e.1, p)) ++ e.2.starve.map fun p => (e.1, p)
  let s := waiting.foldl (fun s e => s.answer e.2 (homeAgent (s.sliceOf e.1)) (if e.2.op = .wrBack ∨ e.2.op = .evict then 0 else 2) 0) s
  let s := { s with fab := { s.fab with lines := tkeep (fun n => !test n) s.fab.lines } }
  let s := (s.fab.plines.filter fun e => test e.1).foldl (fun s e =>
    let s := e.2.waiting.foldl (fun s q => s.answer q (proxyOf s e.1) 2 0) s
    match e.2.inv with
    | some p => s.sendPkt { p.reply .snpResp (proxyOf s e.1) with sect := 0 }
    | none => s) s
  let s := { s with fab := { s.fab with plines := tkeep (fun n => !test n) s.fab.plines } }
  let s := s.sites.foldl (fun s e => s.setSite e.1 { s.site e.1 with cache := tkeep (fun n => !test n) (s.site e.1).cache }) s
  s.tiles.foldl (fun s e => s.setTile e.1 { s.tile e.1 with rcache := tkeep (fun n => !test n) (s.tile e.1).rcache }) s

/-- An agent of a half. -/
def State.inHalf (s : State) (h : Half) (a : Agent) : Bool := s.agentHalf a == h

/-- A line whose holder is gone: both sectors poisoned, D (R233, R313). -/
def Line.poisoned (l : Line) : Line := { l with st := .d, holder := 0, valid := 3, dirty := 3, poison := 3, bad := 0 }

/-- An agent is gone for good (R233, R313): its copies and answers are given up, a line it holds is poisoned, a grant it has not
acknowledged ends. A request that waits for one of their answers completes with STATUS where data was lost, or, with
`always`, in any case (R238). With `cut` what they have asked for is given up too, and a row that one of them asked for grants
nothing (R233); else their requests go on, and their responses are discarded (R313). A holder that has answered a row leaves
no copy: number 8 is no site. Answers whether a line was poisoned. -/
def State.loseAgents (s : State) (gone : Agent → Bool) (status : BitVec 3) (always cut : Bool) : Bool × State :=
  s.fab.lines.foldl (fun (acc : Bool × State) e =>
    let (b, s) := acc
    let n := e.1
    let l := s.line n
    let slice := s.sliceOf n
    if gone (homeAgent slice) then acc
    else
      let heldBy := l.st == .h && gone ⟨.site, l.holder⟩
      let l1 := { l with
        sites := (List.range 8).foldl (fun v k => if gone ⟨.site, k⟩ then withBit v k false else v) l.sites
        proxy := l.proxy && !gone ⟨.proxy, pairOf slice⟩
        held := l.held.filter fun p => !(cut && gone p.src)
        starve := l.starve.filter fun p => !(cut && gone p.src) }
      match l1.txn with
      | none => (b || heldBy, s.setLine n (if heldBy then l1.poisoned else l1))
      | some t =>
        match t.phase with
        | .collect =>
          let open_ := t.snoops.any gone
          let l1 := if !heldBy || open_ then l1
            else if t.req.op = .rdOnce then { l1.poisoned with txn := l1.txn } else { l1 with holder := 8 }
          let t := { t with snoops := t.snoops.filter fun a => !gone a
                            lost := if heldBy && open_ then 3 else t.lost
                            dead := t.dead || (heldBy && open_)
                            status := if (open_ && (heldBy || always)) || (cut && gone t.req.src) then
                              (if t.status = 0 then status else t.status) else t.status }
          (b || (heldBy && (open_ || t.req.op == .rdOnce)), s.advanceTxn n l1 t)
        | _ =>
          if gone t.req.src || heldBy then
            (b || heldBy, (s.setLine n { (if heldBy then l1.poisoned else l1) with txn := none }).unbusy n)
          else (b, s.setLine n l1)) (false, s)

/-- Lines that are not busy keep nothing of a gone agent (R313). -/
def State.sweepAgents (s : State) (gone : Agent → Bool) : State :=
  s.fab.lines.foldl (fun s e =>
    let l := s.line e.1
    let l := { l with sites := (List.range 8).foldl (fun v k => if gone ⟨.site, k⟩ then withBit v k false else v) l.sites }
    s.setLine e.1 (if l.st = .h ∧ gone ⟨.site, l.holder⟩ ∧ l.txn.isNone then l.poisoned else l)) s

/-- A gone agent leaves the proxies: its copies, answers and grants (R313); its requests go on. -/
def State.loseAtProxies (s : State) (gone : Agent → Bool) : State :=
  s.fab.plines.foldl (fun s e =>
    let n := e.1
    let l := s.pline n
    let l := { l with
      sites := (List.range 8).foldl (fun v k => if gone ⟨.site, k⟩ then withBit v k false else v) l.sites
      acks := l.acks.filter fun a => !gone a
      snoops := l.snoops.filter fun a => !gone a }
    let s := s.setPline n l
    if !l.snoops.isEmpty then s
    else if l.dropping then s.proxyGone n
    else if l.inv.isSome || l.leaving then s.proxyDrop n
    else s) s

/-- An unbinding scans the directories (R311 step 3): SnpInv to the site for every line of which it is HOLDER or sharer and
that is not busy; a line that is busy is met at a later scan. -/
def State.scanSite (s : State) (k : Nat) : State :=
  let a : Agent := ⟨.site, k⟩
  let s := s.fab.lines.foldl (fun s e =>
    let n := e.1
    let l := s.line n
    if l.txn.isNone && ((l.st == .h && l.holder == k) || l.shares a) then
      let (id, s) := s.tick
      let t : Txn := { kind := .scan, phase := .collect, id, req := Pkt.mk0 .evict a (homeAgent (s.sliceOf n)) (lineDpa n),
                       snoops := [a], fills := 0, freshLn := false, gotData := false, data := 0, dpoison := 0, kept := false,
                       status := 0, lost := 0, dead := false, grant := 0 }
      (s.setLine n { l with txn := some t }).sendSnoop .snpInv (homeAgent (s.sliceOf n)) n id none a
    else s) s
  s.fab.plines.foldl (fun s e =>
    let n := e.1
    let l := s.pline n
    if l.shares a && l.acks.isEmpty && l.snoops.isEmpty && l.inv.isNone && !l.leaving then
      (s.setPline n { l.setSharer a false with snoops := [a] }).sendSnoop .snpInv (proxyOf s n) n 0 none a
    else s) s

/-- A line still names the site, or awaits an answer or GrantAck of it (R311 step 3). -/
def State.siteNamed (s : State) (k : Nat) : Bool :=
  let a : Agent := ⟨.site, k⟩
  (s.fab.lines.any fun e =>
    (e.2.st == .h && e.2.holder == k) || e.2.shares a
      || (match e.2.txn with | some t => t.snoops.contains a || t.req.src == a | none => false))
    || (s.fab.plines.any fun e => e.2.shares a || e.2.snoops.contains a || e.2.acks.contains a)

/-! ## Coherent reads within a step (log 11) -/

/-- What a coherent read made within a step finds: its data, the STATUS that refuses it, or poison. -/
inductive CohRes where
  | data (v : Nat)
  | refused (status : BitVec 3)
  | poison
  deriving DecidableEq, Repr

/-- The latest write-back of a sector still on its way to its channel, with its poison (R245). -/
def State.backOnWay (s : State) (sec : Nat) : Option (BitVec 256 × Bool) :=
  let mine (p : Pkt) : Bool := (p.op == .mWb || p.op == .mPoison) && p.src.kind == .home && p.line == sec / 2 && bit2 p.sect (sec % 2)
  ((s.hank.cold ++ s.fab.net).filter mine).getLast?.map fun p => (secOf p.data (sec % 2), p.op == .mPoison || bit2 p.poison (sec % 2))

/-- A sector as its home finds it below the array (R239, R245). -/
def State.belowSec (s : State) (sec : Nat) : BitVec 256 × Bool := (s.backOnWay sec).getD (s.readSec sec)

/-- The data of a line at its home, or below it, as a coherent read finds it: from a holder that holds it modified (a
free value), from the home's array where valid, else from memory (R216, R219, R245). -/
def State.cohSec (s : State) (sec : Nat) : BitVec 256 × Bool :=
  let l := s.line (sec / 2)
  let i := sec % 2
  let home := if bit2 l.valid i && !(bit2 l.bad i && !bit2 l.dirty i) then (secOf l.data i, bit2 l.poison i || bit2 l.bad i)
    else s.belowSec sec
  match l.st with
  | .h =>
    match tget (fun _ => CSt.i) (s.site l.holder).cache (sec / 2) with
    | .m pz => (secOf (Config.siteLine s.freeCtr) i, bit2 (pz &&& Config.sitePz s.freeCtr) i)
    | .wb d pz => (secOf d i, bit2 pz i)
    | .e => if Config.siteSilent s.freeCtr then
        (secOf (Config.siteLine s.freeCtr) i, bit2 (l.poison &&& Config.sitePz s.freeCtr) i) else home
    | _ => home
  | _ => home

/-- An agent's half is not that of a line's home: its requests go by the proxy slice (R35, R229). -/
def State.byProxy (s : State) (src : Agent) (n : Nat) : Bool := s.crosses src (homeAgent (s.sliceOf n))

/-- The sector that an agent's read finds: at the proxy slice of its half, which may hold a copy (R230), or at the home. -/
def State.seenSec (s : State) (src : Agent) (sec : Nat) : BitVec 256 × Bool :=
  let l := s.pline (sec / 2)
  if s.byProxy src (sec / 2) && l.present && !bit2 l.bad (sec % 2) then (secOf l.data (sec % 2), bit2 l.poison (sec % 2))
  else s.cohSec sec

/-- A cached-class read of n bytes at a DPA by an agent under a context, answered at once (log 11): STATUS 3 across a closed Splice
(R37), STATUS 2 where the ownership check refuses it (R417). n bytes do not cross a sector. -/
def State.cohRead (s : State) (src : Agent) (ctx : BitVec 12) (a n : Nat) : CohRes :=
  if s.byProxy src (a / 64) && !s.spliceOpen then .refused 3
  else if s.ownCheck src ctx false a ≠ 0 then .refused 2
  else
    let (d, p) := s.seenSec src (a / 32)
    if p then .poison else .data (bitsOf d.toNat (8 * (a % 32 + n) - 1) (8 * (a % 32)))

/-- The data of a read that got some. -/
def CohRes.toOption : CohRes → Option Nat
  | .data v => some v
  | _ => none

/-- A named sector of a line that is not valid is read from below (R219). -/
def State.fillNow (s : State) (n : Nat) (sect : BitVec 2) (l : Line) (i : Nat) : Line :=
  if bit2 sect i && !bit2 l.valid i then
    let (d, pz) := s.belowSec (2 * n + i)
    { l with data := setSec l.data i d, valid := withBit l.valid i true, dirty := withBit l.dirty i false, poison := withBit l.poison i pz }
  else l

/-- A holder is snooped within the step: its data, its grant and its new state (R219, R221). -/
def State.askNow (s : State) (l : Line) (n : Nat) (op : Op) : Option (LineData × BitVec 2) × BitVec 2 × State :=
  if l.st = .h ∧ op = .rdShared then
    let r := s.siteSnoop l.holder n .snpShared
    (r.1, r.2.1, (s.setSiteLine l.holder n r.2.2).bump)
  else (none, 0, s)

/-- The line after the row (R219). -/
def rowLine (l : Line) (op : Op) (t : Txn) (home : Agent) : Line :=
  let m := if l.st = .h ∧ op ≠ .rdShared then l else if op = .rdShared then (doneShared l t home).line else (doneOnce l t home).line
  { m with txn := none }

/-- The row of R219 at a line that has a way, for a read made within a step. -/
def State.rowAt (s : State) (n : Nat) (op : Op) (who : Agent) (sect : BitVec 2) (way : Nat) : Bool × State :=
  let slice := s.sliceOf n
  let u := s.tick
  let e := u.2.meetErrs slice n { u.2.line n with used := u.1, way } sect who.code
  let l := e.2.fillNow n sect (e.2.fillNow n sect e.1 0) 1
  let a := e.2.askNow l n op
  let p := { Pkt.mk0 op who (homeAgent slice) (lineDpa n) with sect }
  let t : Txn := { kind := .request, phase := .collect, id := u.1, req := p, snoops := [], fills := 0, freshLn := false,
                   gotData := a.1.isSome, data := (a.1.getD (0, 0)).1, dpoison := (a.1.getD (0, 0)).2, kept := a.2.1 == 1, status := 0,
                   lost := 0, dead := false, grant := 0 }
  (op == .rdShared, (a.2.2.setLine n (rowLine l op t (homeAgent slice))).checkSlice slice)

/-- The row of R219 for a read made within a step, at a home whose line is not busy: the line is allocated, its sectors are filled,
a holder is snooped, and the directory follows; whether the reader keeps a copy. A line that takes no way leaves nothing
(R211, R212). -/
def State.rowNow (s : State) (n : Nat) (op : Op) (who : Agent) (sect : BitVec 2) : Bool × State :=
  let l := s.line n
  if l.txn.isSome || !l.starve.isEmpty then (false, s)
  else if l.st ≠ .i then s.rowAt n op who sect l.way
  else
    match s.takeWay (s.sliceOf n) n (s.waysFor (s.sliceOf n) n false) with
    | (some w, s) => s.rowAt n op who sect w
    | (none, s) => (false, s)

/-- What a read made within a step leaves behind (R230, R417): a deny record where it is refused; at the proxy slice a copy of a
line of the other half, where it has a way; at the home the row of R219. A reader that keeps lines asks by RdShared; answers
whether it was granted S. -/
def State.cohTouch (s : State) (src : Agent) (ctx : BitVec 12) (a : Nat) (keep : Bool) : Bool × State :=
  let n := a / 64
  let op : Op := if keep then .rdShared else .rdOnce
  let sect : BitVec 2 := if keep then 3 else mk2 (a / 32 % 2 == 0) (a / 32 % 2 == 1)
  let c := s.ownCheck src ctx false a
  let far := s.byProxy src n
  if far && !s.spliceOpen then (false, s)
  else if c ≠ 0 then (false, s.deny src ctx a c)
  else if !far then s.rowNow n op src sect
  else
    let l := s.pline n
    if l.leaving || l.inv.isSome || !l.waiting.isEmpty then (false, s)
    else if l.present && l.bad == 0 then
      let (use, s) := s.tick
      (keep, s.setPline n { (if keep then l.setSharer src true else l) with used := use })
    else if l.present then (false, s)
    else
      match s.proxyWay (pairOf (s.sliceOf n)) n (s.waysFor (s.sliceOf n) n true) with
      | (none, s) => (false, (s.rowNow n .rdOnce src sect).2)
      | (some w, s) =>
        let d0 := s.cohSec (2 * n)
        let d1 := s.cohSec (2 * n + 1)
        match s.rowNow n .rdShared (proxyOf s n) 3 with
        | (false, s) => (false, s)
        | (true, s) =>
          let (use, s) := s.tick
          let m : PLine := { present := true, data := lineOf d0.1 d1.1, poison := mk2 d0.2 d1.2, way := w, used := use }
          (keep, s.setPline n (if keep then m.setSharer src true else m))

/-- Every read of a list of addresses made within a step (log 11). -/
def State.cohTouchAll (s : State) (src : Agent) (ctx : BitVec 12) (l : List Nat) : State :=
  l.foldl (fun s a => (s.cohTouch src ctx a false).2) s

end Sys2Proof.Machine
end

