-- ==== Sys2Proof/Machine/Translate.lean ====
section
/-! DEFINITION. Translation of DVAs by range tables, range caches, fault records, and the accesses of masters by DVA
(R399 to R415). The walker's own reads are coherent reads made within the step (log 11). -/

namespace Sys2Proof.Machine

/-! ## Walks -/

/-- What a walk finds: an entry, or a fault kind with its index (R410). -/
inductive WalkRes where
  | ok (e : RangeEnt) (raw : Nat)
  | fault (kind index : Nat)
  deriving DecidableEq, Repr

/-- Rights a request needs (R404): none for an Xlate, else read, write or atomic. -/
inductive Need where
  | any | read | write | atomic
  deriving DecidableEq, Repr

/-- Rights an op needs. -/
def needOf (op : Op) : Need :=
  match op with
  | .atomH | .atomM => .atomic
  | .wrThrough | .memWr | .wrBack => .write
  | _ => .read

/-- The number of entries whose START is at most the page, by binary search over lo to hi (R406). -/
def searchRange (start : Nat → Option Nat) (page : Nat) (lo hi : Nat) : Nat → Option Nat
  | 0 => some lo
  | fuel + 1 =>
    if lo < hi then
      let mid := (lo + hi) / 2
      match start mid with
      | none => none
      | some st => if st ≤ page then searchRange start page (mid + 1) hi fuel else searchRange start page lo mid fuel
    else some lo

/-- An entry's fields (R404). -/
def entryOf (owner : Agent) (ctx : BitVec 12) (raw : Nat) : RangeEnt :=
  { owner, ctx, start := bitsOf raw 51 16, len := bitsOf raw 91 64, base := bitsOf raw 127 100,
    r := raw.testBit 1, w := raw.testBit 2, a := raw.testBit 3, raw := BitVec.ofNat 128 raw }

def RangeEnt.covers (e : RangeEnt) (page : Nat) : Bool := e.start ≤ page && page < e.start + e.len

/-- The fault an entry's rights give, 0 for none (R410). -/
def RangeEnt.lacks (e : RangeEnt) (need : Need) : Nat :=
  match need with
  | .any => 0
  | .read => if e.r then 0 else 2
  | .write => if e.w then 0 else 3
  | .atomic => if e.a then 0 else 4

/-- RANGE_WALK (R406, R410): header, binary search, entry, rights. -/
def State.walk (s : State) (src : Agent) (ctx : BitVec 12) (dva : Nat) (need : Need) : WalkRes :=
  match tget (fun _ => none) s.xlt.tables ctx.toNat with
  | none => .fault 5 0x7FF
  | some hd =>
    let page := dva / 0x10000
    let entry (i : Nat) := (s.cohRead src ctx (hd.toNat + 16 + 16 * i) 16).toOption
    match (s.cohRead src ctx hd.toNat 16).toOption with
    | none => .fault 6 0x7FF
    | some h =>
      let count := h % 2048
      if count > 1024 then .fault 6 0x7FF
      else
        match searchRange (fun i => (entry i).map fun r => bitsOf r 51 16) page 0 count 11 with
        | none => .fault 6 0x7FF
        | some 0 => .fault 1 0
        | some (n + 1) =>
          match entry n with
          | none => .fault 6 0x7FF
          | some raw =>
            let e := entryOf src ctx raw
            if !raw.testBit 0 || !e.covers page then .fault 1 (n + 1)
            else if e.lacks need ≠ 0 then .fault (e.lacks need) n
            else .ok e raw

/-- The entries that a binary search reads, in order (R406). -/
def searchPath (start : Nat → Option Nat) (page : Nat) (lo hi : Nat) : Nat → List Nat
  | 0 => []
  | fuel + 1 =>
    if lo < hi then
      let mid := (lo + hi) / 2
      mid :: (match start mid with
        | none => []
        | some st => if st ≤ page then searchPath start page (mid + 1) hi fuel else searchPath start page lo mid fuel)
    else []

/-- The addresses that a walk reads: the header, and the entries of its search (R406). -/
def State.walkReads (s : State) (src : Agent) (ctx : BitVec 12) (dva : Nat) : List Nat :=
  match tget (fun _ => none) s.xlt.tables ctx.toNat with
  | none => []
  | some hd =>
    let at_ (i : Nat) : Nat := hd.toNat + 16 + 16 * i
    let start (i : Nat) : Option Nat := (s.cohRead src ctx (at_ i) 16).toOption.map fun r => bitsOf r 51 16
    hd.toNat :: (match (s.cohRead src ctx hd.toNat 16).toOption with
      | none => []
      | some h => if 1024 < h % 2048 then [] else (searchPath start (dva / 0x10000) 0 (h % 2048) 11).map at_)

/-- What the reads of a walk leave in the homes and the proxies (R35, R403). -/
def State.walked (s : State) (src : Agent) (ctx : BitVec 12) (dva : Nat) : State :=
  s.cohTouchAll src ctx (s.walkReads src ctx dva)

/-! ## Range caches (R407) -/

/-- A half's walker, as the owner of its cache. -/
def walker (h : Half) : Agent := ⟨.home, 32 + h.num⟩

/-- The walker cache a master uses: that of its half. -/
def State.walkerOf (s : State) (a : Agent) : Agent := walker (s.agentHalf a)

/-- Entries of a master's range cache (R407); a site keeps none in the hub. -/
def cacheSize (a : Agent) : Nat :=
  match a.kind with
  | .tile => 16 | .pseq => 64 | .lanyard => 64 | .port => 64 | .home => 1024 | _ => 0

/-- Puts an entry first in an owner's cache and drops its least recently used past the size. -/
def cacheIn (l : List RangeEnt) (e : RangeEnt) : List RangeEnt :=
  let l := e :: l.erase e
  let mine := l.filter fun x => x.owner == e.owner
  match mine[cacheSize e.owner]? with
  | none => l
  | some x => l.erase x

/-- Looks an address up in an owner's cache. -/
def State.cached (s : State) (owner : Agent) (ctx : BitVec 12) (page : Nat) (need : Need) : Option RangeEnt :=
  s.xlt.caches.find? fun e => e.owner == owner && e.ctx == ctx && e.covers page && e.lacks need == 0

def State.cacheEnt (s : State) (e : RangeEnt) : State :=
  if cacheSize e.owner = 0 then s else { s with xlt := { s.xlt with caches := cacheIn s.xlt.caches e } }

/-- Result of a translation: the DPA, or a fault. -/
inductive XRes where
  | dpa (a : Nat)
  | fault (kind index : Nat)
  deriving DecidableEq, Repr

def RangeEnt.dpaOf (e : RangeEnt) (dva : Nat) : Nat := (e.base + (dva / 0x10000 - e.start)) * 0x10000 + dva % 0x10000

/-- Translates for a master: its range cache, then the walker's, then a walk (R406, R407). -/
def State.translate (s : State) (m : Agent) (ctx : BitVec 12) (dva : Nat) (need : Need) : XRes × State :=
  let page := dva / 0x10000
  let w := s.walkerOf m
  match s.cached m ctx page need with
  | some e => (.dpa (e.dpaOf dva), s.cacheEnt e)
  | none =>
    match s.cached w ctx page need with
    | some e => (.dpa (e.dpaOf dva), (s.cacheEnt e).cacheEnt { e with owner := m })
    | none =>
      match s.walk m ctx dva need with
      | .fault k i => (.fault k i, s.walked m ctx dva)
      | .ok e _ => (.dpa (e.dpaOf dva), ((s.walked m ctx dva).cacheEnt { e with owner := w }).cacheEnt { e with owner := m })

/-- Drops the walkers' cached copies of entries that cover an address, and those of the master, whose retry is a walk from memory
(R413). -/
def State.dropWalker (s : State) (m : Agent) (ctx : BitVec 12) (page : Nat) : State :=
  let goes (e : RangeEnt) : Bool := (e.owner.kind == .home || e.owner == m) && e.ctx == ctx && e.covers page
  { s with xlt := { s.xlt with caches := s.xlt.caches.filter fun e => !goes e } }

/-! ## Fault records (R412) -/

/-- The window whose records serve a partition. -/
def State.partWin (s : State) (p : Nat) : Option Nat := (s.part p).win.map Win.idx

/-- Held requests a record counts: exact (R412). -/
def State.holders (s : State) (p r : Nat) : Nat := (s.xlt.held.filter fun h => h.part == p && h.rcd == some r).length

/-- Writes HOLDERS from the exact count. -/
def State.showHolders (s : State) (w p r : Nat) : State := s.fset R.XLT_FREC_HOLDERS w r (min (s.holders p r) 1023)

/-- Takes record r for a fault (R412). -/
def State.takeRecord (s : State) (w r : Nat) (ctx : BitVec 12) (kind index dva : Nat) (a : Agent) (holds : Nat) : State :=
  let s := s.fset R.XLT_FREC_VALID w r 1
  let s := s.fset R.XLT_FREC_KIND w r kind
  let s := s.fset R.XLT_FREC_INDEX w r index
  let s := s.fset R.XLT_FREC_CTX w r ctx.toNat
  let s := s.fset R.XLT_FREC_DVA_LO w r dva
  let s := s.fset R.XLT_FREC_DVA_HI w r (dva / 2 ^ 32)
  let s := s.fset R.XLT_FREC_HOLDERS w r holds
  let s := s.fset R.XLT_FREC_AGENT w r a.code
  let s := s.fset R.XLT_FREC_NUM w r a.num
  let s := s.fset R.XLT_FREC_JOINED w r 0
  let s := s.fset R.XLT_FEVENT_NEW w 0 1
  s.msix w 4

/-- The valid record of the same CTX, kind and INDEX, and the lowest free one. -/
def State.sameRecord (s : State) (w : Nat) (ctx : BitVec 12) (kind index : Nat) : Option Nat :=
  (List.range 32).find? fun r => s.fbit R.XLT_FREC_VALID w r && s.fget R.XLT_FREC_CTX w r == ctx.toNat
    && s.fget R.XLT_FREC_KIND w r == kind && s.fget R.XLT_FREC_INDEX w r == index

def State.freeRecord (s : State) (w : Nat) : Option Nat :=
  (List.range 32).find? fun r => !s.fbit R.XLT_FREC_VALID w r

/-- TRANSLATION_FAULT (R411, R412) of a master that does not hold: with no record free it leaves none, and no request waits (R422). -/
def State.xltFaultLoose (s : State) (a : Agent) (ctx : BitVec 12) (kind index dva : Nat) : State :=
  match s.partWin (ctx.toNat / 512) with
  | none => s
  | some w =>
    match s.sameRecord w ctx kind index with
    | some _ => s
    | none =>
      match s.freeRecord w with
      | some r => s.takeRecord w r ctx kind index dva a 0
      | none => s

/-- TRANSLATION_FAULT (R411, R412) of a held request. -/
def State.xltFault (s : State) (a : Agent) (ctx : BitVec 12) (kind index dva : Nat) (cmd : Option Nat) (what : HeldWhat) : State :=
  let p := ctx.toNat / 512
  let h : XHeld := ⟨p, none, ctx, kind, index, BitVec.ofNat 52 dva, a, cmd, what⟩
  let hold (s : State) (h : XHeld) : State := { s with xlt := { s.xlt with held := s.xlt.held ++ [h] } }
  match s.partWin p with
  | none => hold s h
  | some w =>
    match s.sameRecord w ctx kind index with
    | some r => ((hold s { h with rcd := some r }).fset R.XLT_FREC_JOINED w r 1).showHolders w p r
    | none =>
      match s.freeRecord w with
      | some r => (hold s { h with rcd := some r }).takeRecord w r ctx kind index dva a 1
      | none => (hold s h).fset R.XLT_FEVENT_FULL w 0 1

/-- Gives a freed record to the first request that waits unrecorded (R412). -/
def giveRecord (r p : Nat) : List XHeld → Option (XHeld × List XHeld)
  | [] => none
  | h :: t =>
    if h.part = p ∧ h.rcd = none then some ({ h with rcd := some r }, { h with rcd := some r } :: t)
    else (giveRecord r p t).map fun (x, t') => (x, h :: t')

/-- Frees record r of a partition: its words return to zero, and a waiting request takes it (R412, R413, R422). -/
def State.dropRecord (s : State) (w p r : Nat) : State :=
  let s := s.fresetAll w r [R.XLT_FREC_VALID, R.XLT_FREC_KIND, R.XLT_FREC_INDEX, R.XLT_FREC_CTX, R.XLT_FREC_DVA_LO,
    R.XLT_FREC_DVA_HI, R.XLT_FREC_HOLDERS, R.XLT_FREC_AGENT, R.XLT_FREC_NUM, R.XLT_FREC_JOINED]
  match giveRecord r p s.xlt.held with
  | none => s
  | some (h, l) =>
    ({ s with xlt := { s.xlt with held := l } }).takeRecord w r h.ctx h.kind h.index h.dva.toNat h.agent 1

/-- Drops held requests that meet a test; a record whose exact count reaches zero, having been above zero, is freed
(R415). -/
def State.dropHeld (s : State) (test : XHeld → Bool) : State :=
  let gone := s.xlt.held.filter test
  let s := { s with xlt := { s.xlt with held := s.xlt.held.filter fun h => !test h } }
  gone.foldl (fun s h =>
    match h.rcd, s.partWin h.part with
    | some r, some w =>
      if s.holders h.part r = 0 then (if s.fbit R.XLT_FREC_VALID w r then s.dropRecord w h.part r else s)
      else s.showHolders w h.part r
    | _, _ => s) s

/-! ## Accesses by DVA -/

/-- A request completed at once with a STATUS by its own translating engine: it takes a tag like any other and its answer
comes through the mesh (R400). -/
def State.refuseLocal (s : State) (p : Pkt) (purp : Purpose) (status : BitVec 3) : State :=
  let h := s.agentHalf p.src
  let used := (s.fab.txs.filter fun t => t.half == h).map Tx.tag
  let tag := freeTag used 0 (used.length + 1)
  let p := { p with tag := h.num * 32768 + tag }
  let s := { s with fab := { s.fab with txs := s.fab.txs ++ [Tx.mk h tag p purp 0 false s.fab.serial none false] } }
  s.sendPkt { Pkt.mk0 .comp (walker h) p.src p.addr with tag := p.tag, ctx := p.ctx, svc := p.svc, status := status }

/-- The packet of an access at a translated address. -/
def DvaAcc.pkt (x : DvaAcc) (a : Nat) : Pkt :=
  let i := a / 32 % 2
  { Pkt.mk0 x.op x.master x.master (BitVec.ofNat 44 a) with
    ctx := x.ctx, svc := x.svc, sect := if i = 0 then 1 else 2,
    poison := if x.poison then (if i = 0 then 1 else 2) else 0,
    grant := if x.masked then 1 else 0, mask := x.mask,
    data := if x.masked then lineOf x.data (BitVec.ofNat 256 x.mask.toNat)
      else if i = 0 then lineOf x.data 0 else lineOf 0 x.data }

/-- Sends one translated access, or completes it with STATUS 2 outside visible memory (R400). -/
def State.sendAcc (s : State) (x : DvaAcc) (a : Nat) : State :=
  let p := x.pkt a
  if s.visible a then s.request p x.purp (some (x.dva.toNat / 0x10000))
  else (s.deny x.master x.ctx a (if a / 0x10000000 < s.allGranules then 3 else 5)).refuseLocal p x.purp 2

/-- Issues accesses in order until one faults; it and those behind it are held (R411). -/
def State.issueAccs (s : State) (cmd : Option Nat) : List DvaAcc → State
  | [] => s
  | x :: rest =>
    match s.translate x.master x.ctx x.dva.toNat (needOf x.op) with
    | (.dpa a, s) => (s.sendAcc x a).issueAccs cmd rest
    | (.fault k i, s) => s.xltFault x.master x.ctx k i x.dva.toNat cmd (.accs (x :: rest))

end Sys2Proof.Machine
end

