-- ==== Sys2Proof/Machine/Transport.lean ====
section
/-! DEFINITION. Lanyard transport shared by tiles, commands, sites and links: routes, staging, trackers, refusals, and the
serving of fragments at handles (R340 to R361). -/

namespace Sys2Proof

/-- A message of a type with nothing else. -/
def LMsg.mk0 (t : LType) (src dst : Nat) : LMsg :=
  { type := t, srcDev := src, dstDev := dst, msn := 0, handle := 0, offset := 0, poison := [], dtag := 0, red := 0,
    putid := 0, rhandle := 0, roffset := 0, glen := 0, tgen := 0, bytes := 0, reason := 0, reach := 0, data := [] }

/-- A fragment, which takes room at an engine (R343, R348). -/
def LMsg.isFrag (m : LMsg) : Bool := m.type == .put || m.type == .putRed

/-- The transport engine that serves a message: that of its link (R322, R356). -/
def LMsg.eng (m : LMsg) : Nat := m.link / 2

/-- Bytes of a message's data. -/
def LMsg.nbytes (m : LMsg) : Nat := 32 * m.data.length

/-- A fragment of the data of a GET, put back by the device asked (R352; log 16). -/
def LMsg.isGetData (m : LMsg) : Bool := m.type == .put && m.ofGet

end Sys2Proof

namespace Sys2Proof.Machine

/-! ## Devices and routes -/

def State.selfDev (s : State) : Nat := s.fget R.LNK_DOM2_SELF 0 0
def State.domSize (s : State) : Nat := s.fget R.LNK_DOM2_SIZE 0 0
/-- Engine pairs of the part (R322). -/
def State.engines (s : State) : Nat := s.nLinks / 2
/-- The Lanyard engine as an agent. -/
def engAgent (e : Nat) : Agent := ⟨.lanyard, e⟩

def State.lstate (s : State) (l : Nat) : Nat := s.fget R.LNK_LSTAT_STATE 0 l

/-- The bundle to a device: its UP links (R341). -/
def State.bundle (s : State) (dev : Nat) : List Nat :=
  (List.range s.nLinks).filter fun l => s.lstate l == 3 && s.fget R.LNK_LSTAT_PEER 0 l == dev

/-- The relay to a device that is not reached directly (R345). -/
def State.relayOf (s : State) (dev : Nat) : Option Nat :=
  (List.range 25).find? fun r =>
    r != s.selfDev && !(s.bundle r).isEmpty
      && (let v := (tget (fun _ => 0#26) s.lan.reach r).toNat; v.testBit dev && v.testBit 25)

/-- The next device on the way to a device: itself, or its relay (R345). -/
def State.nextHop (s : State) (dev : Nat) : Option Nat :=
  if (s.bundle dev).isEmpty then s.relayOf dev else some dev

/-- Room for one more fragment at a link's staging (R343). -/
def State.roomAt (s : State) (l : Nat) : Bool := ((s.link l).staged.filter LMsg.isFrag).length < 256

/-- The link that the rotating order gives the next fragment to a device (R343). -/
def State.turnLink (s : State) (hop : Nat) : Option Nat :=
  let b := s.bundle hop
  b[tget (fun _ => 0) s.lan.turn hop % max 1 b.length]?

def State.stageOn (s : State) (l : Nat) (m : LMsg) : State :=
  s.setLink l { s.link l with staged := (s.link l).staged ++ [{ m with link := l }] }

def State.stepTurn (s : State) (hop : Nat) : State :=
  { s with lan := { s.lan with
      turn := tset (fun _ => 0) s.lan.turn hop ((tget (fun _ => 0) s.lan.turn hop + 1) % max 1 (s.bundle hop).length) } }

/-- The staging place of a message toward a device: a link of the bundle in turn; for the device itself the engine of the
offset's window, at its lower link (R343, R356). -/
def State.placeFor (s : State) (dev off : Nat) : Option Nat :=
  if dev = s.selfDev then some (2 * (off / 512 % max 1 s.engines))
  else (s.nextHop dev).bind s.turnLink

/-- The rotating order goes on after a fragment to another device (R343). -/
def State.passTurn (s : State) (dev : Nat) : State :=
  if dev = s.selfDev then s else match s.nextHop dev with | none => s | some h => s.stepTurn h

/-- Stages a message toward its device; a fragment takes its turn, and waits where its engine has no room (R343); a message with no
way is dropped. -/
def State.sendMsg (s : State) (m : LMsg) : State :=
  match s.placeFor m.dstDev m.offset with
  | none => s
  | some l =>
    if !m.isFrag then s.stageOn l m
    else if s.roomAt l then (s.stageOn l m).passTurn m.dstDev
    else { s with lan := { s.lan with waitMsg := s.lan.waitMsg ++ [m] } }

/-! ## Refusals and trackers -/

/-- LNK_REFUSE and its event (R355). -/
def State.recordRefusal (s : State) (reason dev handle dir : Nat) : State :=
  let (o, s) := s.takeLoc 3
  let s := ((s.fset R.LNK_REFUSE_REASON 0 0 reason).fset R.LNK_REFUSE_DEV 0 0 dev).fset R.LNK_REFUSE_HANDLE 0 0 handle
  let s := s.fset R.LNK_REFUSE_DIR 0 0 dir
  let s := if o then s.fset R.LNK_REFUSE_OVERRUN 0 0 1 else s
  s.ev R.LNK_EVENT_PUT_REFUSED 0

def State.tracker (s : State) (i : Nat) : Tracker := tget (fun _ => {}) s.lan.trackers i
def State.setTracker (s : State) (i : Nat) (t : Tracker) : State :=
  { s with lan := { s.lan with trackers := tset (fun _ => {}) s.lan.trackers i t } }

/-- Why a PUT or GET is refused at the source, 0 for none (R355). -/
def State.srcRefusal (s : State) (dev : Nat) : Nat :=
  if !s.lan.started then 10
  else if dev ≥ s.domSize then 11
  else if dev ≠ s.selfDev ∧ s.nextHop dev = none then 9
  else 0

/-- The lowest tracker of an engine that can be given (R348, R351). -/
def State.freeTracker (s : State) (e : Nat) : Option Nat :=
  ((List.range 2048).find? fun n => let t := s.tracker (e * 2048 + n); !t.busy && !t.quar).map fun n => e * 2048 + n

/-- Gives a tracker to a new PUT or GET: its generation advances, and the turn of its first fragment's link is taken (R348, R351). None while the engine that serves the first
fragment has no free tracker, or there is no way. -/
def State.takeTracker (s : State) (t : Tracker) : Option (Nat × State) :=
  match s.placeFor t.dev t.off with
  | none => none
  | some l =>
    match s.freeTracker (l / 2) with
    | none => none
    | some i =>
      let s := s.setTracker i { t with busy := true, gen := (s.tracker i).gen + 1, link := some l }
      some (i, if t.isGet then s else s.passTurn t.dev)

/-- The link by which a tracker's first message goes: the one that it was given for, while that still leads to the device (R348). -/
def State.firstLink (s : State) (t : Tracker) : Option Nat :=
  let ok (l : Nat) : Bool := t.dev == s.selfDev || (match s.nextHop t.dev with | none => false | some h => (s.bundle h).contains l)
  match t.link with
  | some l => if ok l then some l else s.placeFor t.dev t.off
  | none => s.placeFor t.dev t.off

/-- The next MSN to a device (R348). -/
def State.takeMsn (s : State) (dev : Nat) : BitVec 32 × State :=
  let n := tget (fun _ => 0#32) s.lan.msnTx dev
  (n, { s with lan := { s.lan with msnTx := tset (fun _ => 0#32) s.lan.msnTx dev (n + 1) } })

/-- Bytes of the next fragment at an offset with n bytes left: up to the next multiple of 512 (R348). -/
def fragLen (off n : Nat) : Nat := min n (512 - off % 512)

/-- The sectors of a fragment from a list of read sectors by offset; none while one is missing. -/
def gatherSrcs (l : List (Nat × (BitVec 256 × Bool))) (o : Nat) : Nat → Option (List (BitVec 256 × Bool))
  | 0 => some []
  | n + 1 => (l.find? fun e => e.1 == o).bind fun e => (gatherSrcs l (o + 32) n).map fun r => e.2 :: r

/-- Sectors of a tile's scratchpad from a byte address. -/
def spadSrcs (m : List Host.Cell) (a : Nat) : Nat → List (BitVec 256 × Bool)
  | 0 => []
  | n + 1 => (BitVec.ofNat 256 (memRead m a 32), false) :: spadSrcs m (a + 32) n

/-- Source sectors of a tracker's next fragment: a tile's scratchpad, else what its reads have brought. -/
def State.nextSrcs (s : State) (t : Tracker) (n : Nat) : Option (List (BitVec 256 × Bool)) :=
  match t.owner with
  | some (.tile ti _) => some (spadSrcs (s.tile ti).spad (t.src + t.sent) (n / 32))
  | _ => gatherSrcs t.srcs t.sent (n / 32)

/-- The last byte has been given to a fragment: the source may be rewritten, and LCLEAT says so (R131, R249, R269). -/
def State.srcDone (s : State) (i : Nat) : State :=
  let t := s.tracker i
  if t.sent < t.len then s
  else
    match t.lcleat with
    | none => s
    | some c =>
      let a : Agent := match t.owner with
        | some (.tile ti _) => ⟨.tile, ti⟩
        | _ => engAgent (i / 2048)
      (s.setTracker i { t with lcleat := none }).sendInc c 1 a

/-- Sends fragments of a PUT while there is source and room (R343, R348); fuel bounds the fragments. -/
def State.pumpPut (s : State) (i : Nat) : Nat → State
  | 0 => s
  | fuel + 1 =>
    let t := s.tracker i
    if !t.busy || t.isGet || t.len ≤ t.sent then s
    else
      let off := t.off + t.sent
      let n := fragLen off (t.len - t.sent)
      match (if t.sent = 0 then s.firstLink t else s.placeFor t.dev off), s.nextSrcs t n with
      | some l, some src =>
        if s.roomAt l then
          let (msn, s) := s.takeMsn t.dev
          let m : LMsg := { LMsg.mk0 (if t.red = 0 then .put else .putRed) s.selfDev t.dev with
            msn, handle := t.handle, offset := off, poison := src.map (·.2), dtag := t.dtag, red := t.red,
            putid := BitVec.ofNat 15 i, tgen := t.gen, data := src.map (·.1) }
          let s := s.setTracker i { t with sent := t.sent + n, srcs := t.srcs.filter fun e => t.sent + n ≤ e.1 }
          let s := s.stageOn l m
          ((if t.sent = 0 then s else s.passTurn t.dev).srcDone i).pumpPut i fuel
        else s
      | _, _ => s

/-- Sends what every tracker can send. -/
def State.pumpPuts (s : State) : State :=
  s.lan.trackers.foldl (fun s e => s.pumpPut e.1 (e.2.len / 32 + 1)) s

/-- Frees a tracker; one that completed as LOST stays quarantined (R351). -/
def State.freeTrk (s : State) (i : Nat) (lost : Bool) : State :=
  s.setTracker i { gen := (s.tracker i).gen, quar := lost }

/-! ## Handles (R353) -/

def Hnd.valid (e : BitVec 256) : Bool := e.toNat.testBit 0
def Hnd.part (e : BitVec 256) : Nat := bitsOf e.toNat 3 1
def Hnd.ctx (e : BitVec 256) : BitVec 12 := BitVec.ofNat 12 (bitsOf e.toNat 15 4)
def Hnd.base (e : BitVec 256) : Nat := bitsOf e.toNat 67 16
def Hnd.len (e : BitVec 256) : Nat := bitsOf e.toNat 107 68
def Hnd.wPut (e : BitVec 256) : Bool := e.toNat.testBit 108
def Hnd.wGet (e : BitVec 256) : Bool := e.toNat.testBit 109
def Hnd.wRed (e : BitVec 256) : Bool := e.toNat.testBit 110
def Hnd.coll (e : BitVec 256) : Bool := e.toNat.testBit 111
def Hnd.svc (e : BitVec 256) : BitVec 3 := BitVec.ofNat 3 (bitsOf e.toNat 114 112)
def Hnd.ncontrib (e : BitVec 256) : Nat := bitsOf e.toNat 119 115
def Hnd.acleat (e : BitVec 256) : BitVec 16 := BitVec.ofNat 16 (bitsOf e.toNat 135 120)
def Hnd.dtag (e : BitVec 256) : BitVec 16 := BitVec.ofNat 16 (bitsOf e.toNat 151 136)
def Hnd.srcmask (e : BitVec 256) (d : Nat) : Bool := e.toNat.testBit (152 + d) && d < 25
def Hnd.cached (e : BitVec 256) : Bool := e.toNat.testBit 177

def State.handle (s : State) (h : Nat) : BitVec 256 := tget (fun _ => 0) s.lan.handles h
def State.setHandle (s : State) (h : Nat) (e : BitVec 256) : State :=
  { s with lan := { s.lan with handles := tset (fun _ => 0) s.lan.handles h e } }

/-- Why a fragment or a GET of n bytes is refused at a handle, 0 for none: in the order of R355. -/
def hndRefusal (e : BitVec 256) (right : Bool) (dtag : BitVec 16) (src off n : Nat) : Nat :=
  if !Hnd.valid e then 1
  else if Hnd.dtag e ≠ dtag then 2
  else if !Hnd.srcmask e src then 3
  else if off + n > Hnd.len e then 4
  else if !right then 5
  else 0

/-- A partition is allowed a class (R426). -/
def State.svcOk (s : State) (part : Nat) (svc : BitVec 3) : Bool := (s.fget R.HUB_SVCPART_ALLOWED 0 part).testBit svc.toNat

/-- The label a request carries: the named class, or the partition's default with the event (R426). -/
def State.labelOf (s : State) (part : Nat) (svc : BitVec 3) : BitVec 3 × State :=
  if s.svcOk part svc then (svc, s)
  else (BitVec.ofNat 3 (s.fget R.HUB_SVCPART_DEFAULT 0 part),
    (s.fset R.HUB_SVCEVENT_REMAP 0 0 1).fset R.HUB_SVCEVENT_PART 0 0 part)

/-! ## Arrivals -/

/-- The answer to a message's source: REFUSE (R355), recorded here (DIR 0). -/
def State.refuseMsg (s : State) (m : LMsg) (reason : Nat) : State :=
  let s := s.recordRefusal reason m.srcDev m.handle 0
  let s := s.fidEvent (s.agentHalf (engAgent m.eng)) 3 m.eng 3 (some (Hnd.part (tget (fun _ => 0) s.lan.handles m.handle))) 1
  s.sendMsg { LMsg.mk0 .refuse s.selfDev m.srcDev with
    handle := m.handle, putid := m.putid, tgen := m.tgen, reason := BitVec.ofNat 4 reason }

/-- The DPAs of n sectors from a DVA for an access at a handle: none on a translation fault (R354). -/
def State.sectorDpas (s : State) (a : Agent) (ctx : BitVec 12) (dva : Nat) (need : Need) : Nat → Option (List Nat) × State
  | 0 => (some [], s)
  | n + 1 =>
    match s.translate a ctx dva need with
    | (.fault _ _, s) => (none, s)
    | (.dpa d, s) =>
      match s.sectorDpas a ctx (dva + 32) need n with
      | (none, s) => (none, s)
      | (some l, s) => (some (d :: l), s)

/-- The engine's record of the first faulting access of a fragment or a write-out is a loose one: it is refused and nothing is held
(R354, R411, R412). -/
def State.fragFault (s : State) (a : Agent) (ctx : BitVec 12) (need : Need) : List Nat → State
  | [] => s
  | dva :: r =>
    match s.walk a ctx dva need with
    | .fault k i => s.xltFaultLoose a ctx k i dva
    | .ok _ _ => s.fragFault a ctx need r

/-- The DVAs of n sectors from one on. -/
def sectorDvas (dva n : Nat) : List Nat := (List.range n).map fun i => dva + 32 * i

/-- One sector write of a fragment: data, poison, and for a reduction the sums of its elements (R358, R361). -/
structure SecWr where
  dpa    : Nat
  data   : LineData
  poison : Bool
  red    : BitVec 2
  page   : Nat
  deriving DecidableEq, Repr

/-- The packet of a sector write at a handle: MPoison for a poisoned sector of the bypass class, and for one of the cached class a
WrThrough whose POISON the home keeps and writes back with MPoison (R237, R358). A reducing write names its format in AOP and carries FP32 sums
(log 17). -/
def SecWr.pkt (w : SecWr) (a : Agent) (e : BitVec 256) (svc : BitVec 3) : Pkt :=
  let i := w.dpa / 32 % 2
  { Pkt.mk0 (if Hnd.cached e then .wrThrough else if w.poison && w.red == 0 then .mPoison else .memWr) a a (BitVec.ofNat 44 w.dpa) with
    ctx := Hnd.ctx e, svc, sect := if i = 0 then 1 else 2, poison := if w.poison then (if i = 0 then 1 else 2) else 0,
    aop := BitVec.ofNat 4 w.red.toNat, mask := BitVec.ofNat 32 fullMask,
    data := if w.red ≠ 0 then w.data else if i = 0 then lineOf (secOf w.data 0) 0 else lineOf 0 (secOf w.data 0) }

/-- Elements of a sector under RED: 8 of FP32, 16 of BF16; each as FP32 bits (R360). -/
def redElems (red : BitVec 2) (d : BitVec 256) : List (BitVec 32) :=
  if red = 1 then (List.range 8).map fun i => BitVec.ofNat 32 (bitsOf d.toNat (32 * i + 31) (32 * i))
  else (List.range 16).map fun i => BitVec.ofNat 32 (bitsOf d.toNat (16 * i + 15) (16 * i) * 65536)

/-- FP32 values packed into a line. -/
def packF32 (l : List (BitVec 32)) : LineData := BitVec.ofNat 512 (l.foldr (fun x n => x.toNat + 2 ^ 32 * n) 0)

/-- The sector writes of one fragment, its sectors' addresses given. -/
def fragWrites (m : LMsg) (dva : Nat) (dpas : List Nat) : List SecWr :=
  ((dpas.zip m.data).zip m.poison).zipIdx.map fun (((a, d), p), i) =>
    ⟨a, (if m.red = 0 then lineOf d 0 else packF32 (redElems m.red d)), p, m.red, (dva + 32 * i) / 0x10000⟩

/-- An access of an engine to a sector in a half in reset, or behind a closed Splice, at its home or at its channel (R37, R357). -/
def State.pastSplice (s : State) (a : Agent) (cached : Bool) (dpa : Nat) : Bool :=
  !s.spliceOpen && (s.homeHalf dpa != s.agentHalf a || (!cached && s.placeHalf dpa != s.agentHalf a))

/-- Why the write of a sector at a handle would be refused, 0 for not (R355). -/
def State.wrRefusal (s : State) (a : Agent) (e : BitVec 256) (dpa : Nat) : Nat :=
  if s.pastSplice a (Hnd.cached e) dpa then 8 else if s.ownCheck a (Hnd.ctx e) true dpa ≠ 0 then 6 else 0

/-- Issues the writes of fragments served together (R354): what would refuse one of them is looked at first for all of them, so that
a refused fragment writes nothing (R355). -/
def State.issueFrag (s : State) (eng : Nat) (e : BitVec 256) (msgs : List LMsg) (ws : List SecWr) : State :=
  let a := engAgent eng
  match ws.find? fun w => s.wrRefusal a e w.dpa != 0 with
  | some w =>
    let r := s.wrRefusal a e w.dpa
    msgs.foldl (fun s m => s.refuseMsg m r) (if r = 6 then s.deny a (Hnd.ctx e) w.dpa (s.ownCheck a (Hnd.ctx e) true w.dpa) else s)
  | none =>
    let id := s.lan.fragCtr
    let (svc, s) := s.labelOf (Hnd.part e) (Hnd.svc e)
    let s := { s with lan := { s.lan with
      fragCtr := id + 1
      frags := s.lan.frags ++ [{ id, msgs, entry := e, left := ws.length, bad := 0, srcs := [], sent := 0 }] } }
    let s := if ws.any SecWr.poison then s.ev R.LNK_EVENT_RX_POISON 0 else s
    ws.foldl (fun s w => s.request (w.pkt a e svc) (.frag id) (some w.page)) s

/-- Serves a plain or direct-reducing fragment (R354, R361). -/
def State.serveFrag (s : State) (e : BitVec 256) (m : LMsg) : State :=
  let a := engAgent m.eng
  let need := if m.red = 0 then Need.write else Need.atomic
  match s.sectorDpas a (Hnd.ctx e) (Hnd.base e + m.offset) need m.data.length with
  | (none, s) => (s.fragFault a (Hnd.ctx e) need (sectorDvas (Hnd.base e + m.offset) m.data.length)).refuseMsg m 7
  | (some dpas, s) => s.issueFrag m.eng e [m] (fragWrites m (Hnd.base e + m.offset) dpas)

/-! ## Collective slots (R359, R360) -/

/-- Adds a fragment's elements to a slot's sums, with FP32 additions. -/
def CollSlot.addFrag (c : CollSlot) (m : LMsg) : CollSlot :=
  let per := if m.red = 1 then 8 else 16
  let first := m.offset % 512 / 32
  let els := (m.data.zipIdx).flatMap fun (d, i) =>
    (redElems m.red d).zipIdx.map fun (x, j) => ((first + i) * per + j, x)
  let sums := els.foldl (fun t e =>
    match t.find? fun x => x.1 == e.1 with
    | none => t ++ [e]
    | some o => t.map fun x => if x.1 = e.1 then (x.1, f32Add o.2 e.2) else x) c.sums
  let pz := (m.poison.zipIdx.filter (·.1)).map fun x => first + x.2
  { c with sums, poison := (c.poison ++ pz).eraseDups, msgs := c.msgs ++ [m] }

/-- The sectors of the window that a slot writes. -/
def CollSlot.sectors (c : CollSlot) : List Nat :=
  let per := if c.red = 1 then 8 else 16
  (List.range 16).filter fun i => c.sums.any fun x => x.1 / per == i

/-- The sums of one sector. -/
def CollSlot.sectorSums (c : CollSlot) (i : Nat) : LineData :=
  let per := if c.red = 1 then 8 else 16
  packF32 ((List.range per).map fun j => ((c.sums.find? fun x => x.1 == i * per + j).map (·.2)).getD 0)

/-- Translates the sectors of a write-out. -/
def State.slotDpas (s : State) (a : Agent) (c : CollSlot) : List Nat → Option (List (Nat × Nat)) × State
  | [] => (some [], s)
  | i :: r =>
    match s.translate a (Hnd.ctx c.entry) (Hnd.base c.entry + 512 * c.pos + 32 * i) .atomic with
    | (.fault _ _, s) => (none, s)
    | (.dpa d, s) =>
      match s.slotDpas a c r with
      | (none, s) => (none, s)
      | (some l, s) => (some ((i, d) :: l), s)

/-- The address of a sector of a slot's window. -/
def CollSlot.dva (c : CollSlot) (i : Nat) : Nat := Hnd.base c.entry + 512 * c.pos + 32 * i

/-- A write-out of a slot, which leaves the engine (R360). -/
def State.writeOut (s : State) (c : CollSlot) : State :=
  let s := { s with lan := { s.lan with slots := s.lan.slots.filter fun x => x.id != c.id } }
  let a := engAgent c.eng
  match s.slotDpas a c c.sectors with
  | (none, s) => c.msgs.foldl (fun s m => s.refuseMsg m 7) (s.fragFault a (Hnd.ctx c.entry) .atomic (c.sectors.map c.dva))
  | (some l, s) =>
    s.issueFrag c.eng c.entry c.msgs (l.map fun (i, d) => ⟨d, c.sectorSums i, c.poison.contains i, c.red,
      c.dva i / 0x10000⟩)

/-- A fragment does not reach a collective engine over the mesh: its half is in reset, or lies behind a closed Splice (R37, R357). -/
def State.engCut (s : State) (m : LMsg) (eng : Nat) : Bool :=
  let h := s.agentHalf (engAgent eng)
  !s.halfLive h || (h != s.agentHalf (engAgent m.eng) && !s.spliceOpen)

/-- A PUTRED fragment enters its slot, of the handle's entry that it was checked under (R357, R359, R360). -/
def State.collect (s : State) (e : BitVec 256) (m : LMsg) : State :=
  let eng := m.offset / 512 % max 1 s.engines
  let pos := m.offset / 512
  if s.engCut m eng then s.refuseMsg m 8
  else
  let m := { m with link := 2 * eng }
  match s.lan.slots.find? fun c => c.eng == eng && c.handle == m.handle && c.pos == pos && c.entry == e with
  | some c =>
    if c.red ≠ m.red then s.refuseMsg m 5
    else
      let c := c.addFrag m
      let s := { s with lan := { s.lan with slots := s.lan.slots.map fun x => if x.id = c.id then c else x } }
      if Hnd.ncontrib c.entry ≤ c.msgs.length then s.writeOut c else s
  | none =>
    let mine := s.lan.slots.filter fun c => c.eng == eng
    let s := if mine.length < 1024 then s else match mine.head? with | none => s | some o => s.writeOut o
    let c := (CollSlot.mk s.lan.fragCtr eng m.handle pos e m.red [] [] []).addFrag m
    let s := { s with lan := { s.lan with fragCtr := s.lan.fragCtr + 1, slots := s.lan.slots ++ [c] } }
    if Hnd.ncontrib e ≤ 1 then s.writeOut c else s

/-! ## Fragments -/

/-- A fragment already received of its pair (R349). -/
def State.duplicate (s : State) (m : LMsg) : Bool := (tget (fun _ => []) s.lan.msnRx m.srcDev).contains m.msn

/-- Enters an MSN in the window of the last 4,096 (R349). -/
def State.sawMsn (s : State) (m : LMsg) : State :=
  let w := (m.msn :: tget (fun _ => []) s.lan.msnRx m.srcDev).take 4096
  { s with lan := { s.lan with msnRx := tset (fun _ => []) s.lan.msnRx m.srcDev w } }

/-- LATE_REPLY (R351). -/
def State.lateReply (s : State) : State := s.ev R.LNK_EVENT_LATE_REPLY 0

/-- The tracker a message answers: busy and of its generation (R351). -/
def State.answers (s : State) (m : LMsg) : Bool :=
  let t := s.tracker m.putid.toNat
  t.busy && t.gen == m.tgen

/-- A PUT or PUTRED fragment at its destination (R349, R354 to R361). -/
def State.arriveFrag (s : State) (m : LMsg) : State :=
  if s.duplicate m then s
  else
    let s := s.sawMsn m
    if m.isGetData && !(s.answers m && (s.tracker m.putid.toNat).isGet) then s.lateReply
    else
      let e := s.handle m.handle
      let right := if m.type = .putRed then Hnd.wRed e else Hnd.wPut e
      let r := hndRefusal e right m.dtag m.srcDev m.offset m.nbytes
      if r ≠ 0 then s.refuseMsg m r
      else if m.type = .putRed ∧ Hnd.coll e then s.collect e m
      else s.serveFrag e m

/-- A GET at its destination: the reads of its region (R352, R354). -/
def State.arriveGet (s : State) (m : LMsg) : State :=
  let e := s.handle m.handle
  let r := hndRefusal e (Hnd.wGet e) m.dtag m.srcDev m.offset m.glen
  if r ≠ 0 then s.refuseMsg m r
  else
    let a := engAgent m.eng
    match s.sectorDpas a (Hnd.ctx e) (Hnd.base e + m.offset) .read (m.glen / 32) with
    | (none, s) => (s.fragFault a (Hnd.ctx e) .read (sectorDvas (Hnd.base e + m.offset) (m.glen / 32))).refuseMsg m 7
    | (some dpas, s) =>
      let id := s.lan.fragCtr
      let (svc, s) := s.labelOf (Hnd.part e) (Hnd.svc e)
      let s := { s with lan := { s.lan with
        fragCtr := id + 1
        frags := s.lan.frags ++ [{ id, msgs := [m], entry := e, left := dpas.length, bad := 0, srcs := [], sent := 0 }] } }
      (dpas.zipIdx).foldl (fun s (d, i) =>
        s.request { Pkt.mk0 (if Hnd.cached e then .rdOnce else .memRd) a a (BitVec.ofNat 44 d) with
          ctx := Hnd.ctx e, svc, sect := if d / 32 % 2 = 0 then 1 else 2 } (.getRd id (32 * i))
          (some ((Hnd.base e + m.offset + 32 * i) / 0x10000))) s

/-- Sends the data of a GET back while there is source and room (R352). -/
def State.pumpGet (s : State) (id : Nat) : Nat → State
  | 0 => s
  | fuel + 1 =>
    match s.lan.frags.find? fun f => f.id == id with
    | none => s
    | some f =>
      match f.msgs with
      | [] => s
      | m :: _ =>
        if m.type ≠ .get ∨ m.glen ≤ f.sent then s
        else
          let off := m.roffset + f.sent
          let n := fragLen off (m.glen - f.sent)
          match s.placeFor m.srcDev off, gatherSrcs f.srcs f.sent (n / 32) with
          | some l, some src =>
            if s.roomAt l then
              let (msn, s) := s.takeMsn m.srcDev
              let out : LMsg := { LMsg.mk0 .put s.selfDev m.srcDev with
                msn, handle := m.rhandle, offset := off, poison := src.map (·.2), dtag := m.dtag,
                putid := m.putid, ofGet := true, tgen := m.tgen, data := src.map (·.1) }
              let f := { f with sent := f.sent + n, srcs := f.srcs.filter fun x => f.sent + n ≤ x.1 }
              let fr := if f.sent < m.glen then s.lan.frags.map (fun x => if x.id = id then f else x)
                else s.lan.frags.filter fun x => x.id != id
              (({ s with lan := { s.lan with frags := fr } }).sendMsg out).pumpGet id fuel
            else s
          | _, _ => s

/-- Sends what every GET being served can send. -/
def State.pumpGets (s : State) : State :=
  s.lan.frags.foldl (fun s f => s.pumpGet f.id ((f.msgs.map LMsg.glen).foldl (· + ·) 0 / 32 + 1)) s

/-- A message of a link that carries no more goes to the rest of the bundle or to a relay (R357); with no route left, one that this
device relays is refused UNREACHABLE to its source, and any other is lost, so that its tracker completes under R350. -/
def State.resendMsg (s : State) (m : LMsg) : State :=
  if m.type = .route ∨ m.type = .halfDown then s
  else if (s.nextHop m.dstDev).isSome ∧ (m.srcDev = s.selfDev ∨ !(s.bundle m.dstDev).isEmpty) then s.sendMsg m
  else if m.srcDev ≠ s.selfDev ∧ m.dstDev ≠ s.selfDev then s.refuseMsg m 9
  else s

/-- Fragments given back by a link or relayed that waited for room are sent again, in order (R343). -/
def State.pumpMsgs (s : State) : State :=
  s.lan.waitMsg.foldl State.resendMsg { s with lan := { s.lan with waitMsg := [] } }

/-- Everything at the engines that waits for room (R343). -/
def State.pumpEngines (s : State) : State := s.pumpMsgs.pumpPuts.pumpGets

end Sys2Proof.Machine
end

