-- ==== Sys2Proof/Machine/LnkFrames.lean ====
section
/-! DEFINITION. The bits of Lanyard frames: message header (R347), link word (R324), encryption and check (R323, R330); what a link
end makes of a frame's bytes, and the frames that it sends. Byte 0 of a number is its lowest (R20). -/

namespace Sys2Proof

/-- TYPE of a message (R347), and back. -/
def LType.code : LType → Nat
  | .put => 0 | .putRed => 1 | .get => 2 | .done => 3 | .refuse => 4 | .route => 5 | .halfDown => 6

def LType.ofCode (n : Nat) : Option LType := [LType.put, .putRed, .get, .done, .refuse, .route, .halfDown][n]?

/-- The types that name a tracker (R351). -/
def LType.tracked (t : LType) : Bool := t.code ≤ 4

/-- A value in w bits at a place. -/
def bitsAt (v w lo : Nat) : Nat := v % 2 ^ w * 2 ^ lo

/-- POISON: bit n for sector n (R347). -/
def poisonBits (l : List Bool) : Nat := l.foldr (fun b n => b2n b + 2 * n) 0

/-- The fields of a header that belong to one type (R347). -/
def LMsg.typeBits (m : LMsg) : Nat :=
  match m.type with
  | .put | .halfDown => 0
  | .putRed => bitsAt m.red.toNat 2 139
  | .get => bitsAt m.rhandle 16 156 + bitsAt m.roffset 40 172 + bitsAt m.glen 24 212
  | .done => bitsAt m.bytes 24 156
  | .refuse => bitsAt m.reason.toNat 4 156
  | .route => bitsAt m.reach.toNat 26 156

/-- The 256 bits of a message header (R347). -/
def LMsg.header (m : LMsg) : Nat :=
  m.type.code + bitsAt m.srcDev 5 4 + bitsAt m.dstDev 5 9 + bitsAt m.msn.toNat 32 14 + bitsAt m.handle 16 46 + bitsAt m.offset 40 62
    + bitsAt m.data.length 5 102 + bitsAt (poisonBits m.poison) 16 107 + bitsAt m.dtag.toNat 16 123 + bitsAt m.putid.toNat 15 141
    + bitsAt (if m.type.tracked then m.tgen.toNat else 0) 8 236 + m.typeBits

/-- The message of a header and its data sectors, arrived on a link; none of a reserved TYPE. A bit that its type does not name is
ignored (R347). -/
def LMsg.ofBits (h : Nat) (data : List (BitVec 256)) (link : Nat) (ofGet : Bool) : Option LMsg :=
  (LType.ofCode (bitsOf h 3 0)).map fun t =>
    let own (u : LType) (hi lo : Nat) : Nat := if t = u then bitsOf h hi lo else 0
    { type := t, srcDev := bitsOf h 8 4, dstDev := bitsOf h 13 9, msn := BitVec.ofNat 32 (bitsOf h 45 14), handle := bitsOf h 61 46
      offset := bitsOf h 101 62, poison := (List.range data.length).map fun n => h.testBit (107 + n)
      dtag := BitVec.ofNat 16 (bitsOf h 138 123), red := BitVec.ofNat 2 (own .putRed 140 139)
      putid := BitVec.ofNat 15 (bitsOf h 155 141), rhandle := own .get 171 156, roffset := own .get 211 172
      glen := own .get 235 212, tgen := BitVec.ofNat 8 (if t.tracked then bitsOf h 243 236 else 0)
      bytes := own .done 179 156, reason := BitVec.ofNat 4 (own .refuse 159 156), reach := BitVec.ofNat 26 (own .route 181 156)
      data, link, ofGet }

end Sys2Proof

namespace Sys2Proof.Machine

/-! ## Frames as bytes -/

/-- The link word of a Lanyard frame (R324). -/
structure LnkWord where
  seq    : BitVec 12
  ack    : BitVec 12
  nak    : Bool
  kind   : BitVec 2
  crData : BitVec 8
  crGet  : BitVec 4
  epoch  : BitVec 2
  deriving DecidableEq, Repr

def LnkWord.bits (w : LnkWord) : Nat :=
  w.seq.toNat + w.ack.toNat * 2 ^ 12 + b2n w.nak * 2 ^ 24 + w.kind.toNat * 2 ^ 25 + w.crData.toNat * 2 ^ 32
    + w.crGet.toNat * 2 ^ 40 + w.epoch.toNat * 2 ^ 44

/-- A frame's length and bytes once its CRC-64 stands after the n bytes before it (R323). -/
def lnkClose (v n : Nat) : Nat × Nat := (n + 8, v + 2 ^ (8 * n) * crc64 v n)

/-- The nonce of a frame (R330). -/
def lnkNonce (dir epoch count : Nat) : Nat := dir % 2 + epoch % 2 ^ 31 * 2 + count % 2 ^ 64 * 2 ^ 32

/-- A message frame: link word and header in clear and authenticated, data encrypted, tag, CRC (R323, R330). -/
def sealFrame (key : BitVec 256) (nonce word : Nat) (m : LMsg) : Nat × Nat :=
  let ws := aesKey key
  let iv := bytesOf nonce 12
  let aad := bytesOf word 8 ++ bytesOf m.header 32
  let c := gcmCrypt ws iv (m.data.flatMap fun d => bytesOf d.toNat 32)
  let l := aad ++ c ++ gcmTag ws iv aad c
  lnkClose (ofBytes l) l.length

/-- The data bytes of a message frame whose tag holds (R330, R332). -/
def openFrame (key : BitVec 256) (nonce len v : Nat) : Option (List Nat) :=
  let ws := aesKey key
  let iv := bytesOf nonce 12
  let l := bytesOf v len
  let c := (l.drop 40).take (len - 64)
  if gcmTag ws iv (l.take 40) c = (l.drop (len - 24)).take 16 then some (gcmCrypt ws iv c) else none

/-- A frame's CRC holds (R323). -/
def lnkCheck (len v : Nat) : Bool := decide (16 ≤ len) && lnkClose (v % 2 ^ (8 * (len - 8))) (len - 8) == (len, v)

/-! ## Reading -/

/-- The secret, epoch and count of frames under which a frame with these low EPOCH bits, of the SEQ expected, is to be read (R330,
R331): the current epoch's, or the next one's. -/
def Link.rxKey (x : Link) (e : BitVec 2) : Option (BitVec 512 × Nat × Nat) :=
  if e = BitVec.ofNat 2 x.rxEpoch then some (x.rxSecret, x.rxEpoch, x.rxFrames + 1)
  else if e = BitVec.ofNat 2 (x.rxEpoch + 1) then some (Config.nextSecret x.rxSecret, x.rxEpoch + 1, 1)
  else none

/-- EPOCH names an epoch whose keys the receiver holds (R331). -/
def Link.knows (x : Link) (e : BitVec 2) : Bool := (x.rxKey e).isSome || (x.rxOld.isSome && e == BitVec.ofNat 2 (x.rxEpoch + 3))

/-- The direction bit of frames on a link, sent or received (R330). -/
def State.linkDir (s : State) (l : Nat) (sent : Bool) : Nat := b2n ((s.selfDev < s.fget R.LNK_LSTAT_PEER 0 l) != sent)

/-- What a link end makes of a frame's bytes (R323, R324, R330, R332, R347), and the message of one whose tag holds. `uncorr` and
`noisy` are what its reception showed of the wavelengths. -/
def State.readLnk (s : State) (l len v : Nat) (uncorr noisy : BitVec 4) (ofGet : Bool) : LnkFrame × Option LMsg :=
  let x := s.link l
  let h := bitsOf v 319 64
  let e := BitVec.ofNat 2 (bitsOf v 45 44)
  let kind : BitVec 2 := BitVec.ofNat 2 (bitsOf v 26 25)
  let pt := (x.rxKey e).bind fun k => openFrame (Config.linkKey k.1 (s.linkDir l false)) (lnkNonce (s.linkDir l false) k.2.1 k.2.2) len v
  let t := LType.ofCode (bitsOf h 3 0)
  ({ crcOk := lnkCheck len v, tagOk := pt.isSome, typeOk := kind != 1 || t.isSome, seq := BitVec.ofNat 12 (bitsOf v 11 0)
     ack := BitVec.ofNat 12 (bitsOf v 23 12), nak := v.testBit 24, kind, crData := BitVec.ofNat 8 (bitsOf v 39 32)
     crGet := BitVec.ofNat 4 (bitsOf v 43 40), uncorr, noisy, epoch := e
     isData := kind == 1 && (t == some .put || t == some .putRed), isGet := kind == 1 && t == some .get },
   if kind = 1 then
     pt.bind fun d => LMsg.ofBits h ((List.range (d.length / 32)).map fun i => BitVec.ofNat 256 (ofBytes ((d.drop (32 * i)).take 32))) l ofGet
   else none)

/-! ## Sending -/

/-- The key epoch under which the next message frame is first sent, and its number in the epoch (R331). -/
def Link.nextEpoch (x : Link) : Nat × Nat := if x.frames = 2 ^ 32 then (x.epoch + 1, 1) else (x.epoch, x.frames + 1)

/-- The secret of the next message frame: a new epoch's replaces the old one (R331). -/
def Link.nextTx (x : Link) : BitVec 512 := if x.nextEpoch.1 = x.epoch then x.txSecret else Config.nextSecret x.txSecret

/-- Room for one more frame in the replay buffer (R325). -/
def Link.room (x : Link) : Bool := decide (x.unacked.length < 512)

/-- The link word of the next frame (R324): EPOCH is that of the keys in force also in an idle frame. -/
def Link.word (x : Link) (msg : Bool) : LnkWord :=
  { seq := x.tx, ack := x.rx - 1, nak := x.nakd, kind := if msg then 1 else 0, crData := BitVec.ofNat 8 (min x.dataOwed 255)
    crGet := BitVec.ofNat 4 (min x.getOwed 15), epoch := BitVec.ofNat 2 (if msg then x.nextEpoch.1 else x.epoch) }

/-- The link after it has sent a frame, which its replay buffer keeps (R325, R326). -/
def Link.sent (x : Link) (m : Option LMsg) (f : Nat × Nat) : Link :=
  let x := { x with tx := x.tx + 1, unacked := x.unacked ++ [⟨x.tx, m, 0, f.1, f.2⟩]
                    dataOwed := x.dataOwed - min x.dataOwed 255, getOwed := x.getOwed - min x.getOwed 15 }
  if m.isSome then { x with epoch := x.nextEpoch.1, frames := x.nextEpoch.2, txSecret := x.nextTx } else x

/-- Sends a frame on a link: a message, or an idle frame (R323). -/
def State.linkFrame (s : State) (l : Nat) (m : Option LMsg) : State :=
  let x := s.link l
  let w := (x.word m.isSome).bits
  let d := s.linkDir l true
  let f := match m with
    | none => lnkClose w 8
    | some m => sealFrame (Config.linkKey x.nextTx d) (lnkNonce d x.nextEpoch.1 x.nextEpoch.2) w m
  let s := (s.setLink l (x.sent m f)).pushOut (.lbytes l f.1 f.2)
  match m with
  | none => s
  | some m => (s.fset R.LNK_LSTAT_EPOCH 0 l (x.nextEpoch.1 % 8192)).pushOut (.lframe l x.tx m)

/-- An idle frame carries acknowledgements and credits while no message moves (R324). -/
def State.idleLnk (s : State) (l : Nat) : State := if (s.link l).room then s.linkFrame l none else s

/-- The keys of a link are erased (R332). -/
def Link.noKeys (x : Link) : Link :=
  { x with keys := false, epoch := 0, frames := 0, txSecret := 0, rxSecret := 0, rxOld := none, rxEpoch := 0, rxFrames := 0 }

/-- The keys of a link as the key exchange leaves them (R329). -/
def Link.keyed (x : Link) (secret : BitVec 512) : Link := { x.noKeys with keys := true, txSecret := secret, rxSecret := secret }

/-- A message frame accepted under its EPOCH (R331): the first of a new epoch moves the receiver on, and after 512 frames of an epoch,
the most that the sender leaves unacknowledged, the one before it is forgotten. -/
def Link.took (x : Link) (e : BitVec 2) : Link :=
  if e = BitVec.ofNat 2 (x.rxEpoch + 1) then
    { x with rxEpoch := x.rxEpoch + 1, rxFrames := 1, rxOld := some x.rxSecret, rxSecret := Config.nextSecret x.rxSecret }
  else if e = BitVec.ofNat 2 x.rxEpoch then
    { x with rxFrames := x.rxFrames + 1, rxOld := if 512 ≤ x.rxFrames + 1 then none else x.rxOld }
  else x

end Sys2Proof.Machine
end

