-- ==== Sys2Proof/Machine/Flags.lean ====
section
/-! DEFINITION. The flags the numeric units set: guard counts, the trip condition, the guard record (R94 to R99). -/

namespace Sys2Proof.Machine

/-- Adds counts; they saturate in the record alone. -/
def Guard.add (a b : Guard) : Guard :=
  { sat := a.sat + b.sat, scaleSat := a.scaleSat + b.scaleSat, nan := a.nan + b.nan,
    escOvf := a.escOvf + b.escOvf, under := a.under + b.under, inf := a.inf || b.inf,
    tripped := a.tripped || b.tripped, widened := a.widened || b.widened, wtripped := a.wtripped || b.wtripped }

/-- Guard counts of a quantise op. -/
def QCount.guard (q : QCount) (inf : Bool) : Guard :=
  { sat := q.sat, scaleSat := q.scaleSat, nan := q.nan, escOvf := q.escOvf, under := q.under, inf := inf }

/-- The trip condition with threshold n (R97). -/
def Guard.trips (g : Guard) (n : Nat) : Bool := g.sat ≥ 2 ^ n || g.scaleSat ≥ 1 || g.nan ≥ 1 || g.inf

/-- The guard record: every count saturates (R95). -/
def Guard.record (g : Guard) : BitVec 64 :=
  BitVec.ofNat 64 (min g.sat 1023 + min g.scaleSat 63 <<< 10 + min g.nan 63 <<< 16 + min g.escOvf 63 <<< 22
    + b2n g.inf <<< 28 + b2n g.tripped <<< 29 + b2n g.widened <<< 30 + b2n g.wtripped <<< 31
    + min g.under (2 ^ 32 - 1) <<< 32)

end Sys2Proof.Machine
end

