-- ==== Sys2Proof/Machine/Operands.lean ====
section
/-! DEFINITION. The operand forms of the op list: entry fields (R119 to R141), descriptors (R116 to R118), index records
(R122, R145), sequence slots (R143), and the ranges an op reads and writes (R111). -/

namespace Sys2Proof.Machine

/-! ## Entries -/

/-- Bits [hi:lo] of an entry. -/
def Entry.bits (e : Entry) (hi lo : Nat) : Nat := bitsOf e.toNat hi lo
def Entry.flag (e : Entry) (i : Nat) : Bool := e.toNat.testBit i

/-- Common fields (R119). -/
def Entry.opcode (e : Entry) : Nat := Entry.bits e 7 0
def Entry.seg (e : Entry) : Bool := Entry.flag e 8
def Entry.ping (e : Entry) : Bool := Entry.flag e 9
def Entry.phase (e : Entry) : Nat := Entry.bits e 10 10

/-- Op codes (R120). -/
def opNop : Nat := 0x00
def opLoad : Nat := 0x01
def opStore : Nat := 0x02
def opGather : Nat := 0x03
def opMma : Nat := 0x10
def opVec : Nat := 0x11
def opQuant : Nat := 0x12
def opReduce : Nat := 0x13
def opAtom : Nat := 0x14
def opWait : Nat := 0x20
def opSignal : Nat := 0x21
def opFence : Nat := 0x22
def opPut : Nat := 0x23
def opLoop : Nat := 0x30
def opSkip : Nat := 0x31
def opEnd : Nat := 0x3F

/-- The op codes of R120's table. -/
def opCodes : List Nat :=
  [opNop, opLoad, opStore, opGather, opMma, opVec, opQuant, opReduce, opAtom, opWait, opSignal, opFence, opPut, opLoop,
    opSkip, opEnd]

/-- Op fault codes (R149). -/
def ofBadOp : Nat := 0x01
def ofBadFmt : Nat := 0x02
def ofBadRound : Nat := 0x03
def ofShape : Nat := 0x04
def ofSpRange : Nat := 0x05
def ofDesc : Nat := 0x06
def ofLoop : Nat := 0x07
def ofSkipRange : Nat := 0x08
def ofCleatOwner : Nat := 0x09
def ofSlotOwner : Nat := 0x0A
def ofKvUnmapped : Nat := 0x0B
def ofMemDenied : Nat := 0x0C
def ofPoison : Nat := 0x0D
def ofWaitTimeout : Nat := 0x0E
def ofGroupAbort : Nat := 0x0F
def ofPutRefused : Nat := 0x10
def ofSpEcc : Nat := 0x11
def ofMemUnavail : Nat := 0x12

/-- Units of the scratchpad and of the accumulator file (R120). -/
def spUnits : Nat := 98304
def accUnits : Nat := 16384

/-! ## Descriptors (R116 to R118) -/

def Desc.base (d : Entry) : Nat := Entry.bits d 51 0
def Desc.fmt (d : Entry) : Nat := Entry.bits d 55 52
def Desc.esc (d : Entry) : Bool := Entry.flag d 56
def Desc.cached (d : Entry) : Bool := Entry.flag d 57
def Desc.tscale (d : Entry) : BitVec 32 := BitVec.ofNat 32 (Entry.bits d 95 64)
def Desc.cols (d : Entry) : Nat := Entry.bits d 119 96
def Desc.rows (d : Entry) : Nat := Entry.bits d 143 128
def Desc.pitch (d : Entry) : Nat := Entry.bits d 191 160

/-- A signed 32-bit stride as a number modulo 2^52. -/
def strideMod (x : Nat) : Nat := if x ≥ 2 ^ 31 then 2 ^ 52 + x - 2 ^ 32 else x

/-- Effective base (R117), modulo the 2^52 DVAs. -/
def Desc.eff (d : Entry) (i0 i1 : Nat) : Nat :=
  (Desc.base d + i0 * strideMod (Entry.bits d 223 192) + i1 * strideMod (Entry.bits d 255 224)) % 2 ^ 52

/-! ## Sequence slots (R143) -/

def Slot.pt (e : BitVec 128) : Nat := bitsOf e.toNat 51 0
def Slot.fmt (e : BitVec 128) : Nat := bitsOf e.toNat 55 52
def Slot.part (e : BitVec 128) : Nat := bitsOf e.toNat 58 56
def Slot.valid (e : BitVec 128) : Bool := e.toNat.testBit 59
def Slot.cached (e : BitVec 128) : Bool := e.toNat.testBit 60
def Slot.len (e : BitVec 128) : Nat := bitsOf e.toNat 83 64
def Slot.tpp (e : BitVec 128) : Nat := bitsOf e.toNat 95 84
def Slot.lpages (e : BitVec 128) : Nat := bitsOf e.toNat 111 96
def Slot.cols (e : BitVec 128) : Nat := bitsOf e.toNat 127 112

/-! ## Ranges (R111, R121) -/

/-- A range of an op, in 32-byte units: of the accumulator file or of the scratchpad. -/
structure Rng where
  acc : Bool
  lo  : Nat
  n   : Nat
  deriving DecidableEq, Repr

def Rng.overlaps (a b : Rng) : Bool := a.acc == b.acc && a.lo < b.lo + b.n && b.lo < a.lo + a.n && 0 < a.n && 0 < b.n

/-- The range lies in its file (R121). -/
def Rng.fits (r : Rng) : Bool := r.lo + r.n ≤ (if r.acc then accUnits else spUnits)

/-- Units of n elements of 4 bytes, the last one whole. -/
def fpUnits (n : Nat) : Nat := (n + 7) / 8

/-- Units of one row of n elements of an FP32, BF16 or FP16 format, padded to a whole unit (R123). -/
def rowUnits (f n : Nat) : Nat := (n * (fmtBits f / 8) + 31) / 32

/-- The units a LOAD or STORE shape takes in the scratchpad (R123). -/
def shapeUnits (d : Entry) (count ncol : Nat) : Nat :=
  if fmtBlocked (Desc.fmt d) then count * groupUnits (Desc.fmt d) (Desc.esc d) else count * rowUnits (Desc.fmt d) ncol

/-- The bytes of a page image: TPP * COLS elements in group layout (R144). -/
def Slot.pageBytes (e : BitVec 128) : Nat := fmtUnits (Slot.fmt e) false (Slot.tpp e * Slot.cols e) * 32

/-- A descriptor of an op's list. -/
def descAt (ds : List Entry) (i : Nat) : Entry := (ds[i]?).getD 0

/-- What an op reads and writes: ranges for R111, with `p` the offset of R130. The units of a GATHER
in mode 1 and of a key-value STORE depend on the sequence slots and are taken from SPA to the scratchpad's end
(log 14). -/
structure OpRanges where
  reads  : List Rng
  writes : List Rng
  deriving DecidableEq, Repr

/-- Whether a VEC function reads SRC1, SRC2 and DST (R127). -/
def vecReads2 (fn : Nat) : Bool := fn ≤ 4 || fn == 0xC
def vecRowOut (fn : Nat) : Bool := fn == 0xA || fn == 0xB

/-- Units of a VEC operand: accumulators and FP32 take 4 bytes an element; lie flat, ROWS * COLS (log 15). -/
def vecUnits (acc : Bool) (fmt n : Nat) : Nat := if acc then fpUnits n else (n * (fmtBits fmt / 8) + 31) / 32

/-- The ranges an op names, with p the ping offset and ds the descriptors; `rep` in a repeat, where a quantise op that
can be widened writes its widen area (R100). -/
def opRanges (ds : List Entry) (rep : Bool) (p : Nat) (e : Entry) : OpRanges :=
  let sp (lo n : Nat) : Rng := ⟨false, lo + p, n⟩
  let any (acc : Bool) (lo n : Nat) : Rng := if acc then ⟨true, lo, n⟩ else sp lo n
  let op := Entry.opcode e
  if op = opLoad then
    ⟨[], [sp (Entry.bits e 38 22) (shapeUnits (descAt ds (Entry.bits e 21 16)) (Entry.bits e 103 72) (Entry.bits e 135 120))]⟩
  else if op = opStore then
    if Entry.flag e 142 then
      ⟨[sp (Entry.bits e 38 22) (spUnits - (Entry.bits e 38 22 + p)), sp (Entry.bits e 159 143) ((Entry.bits e 175 160 * 8 + 31) / 32)], []⟩
    else
      ⟨[sp (Entry.bits e 38 22) (shapeUnits (descAt ds (Entry.bits e 21 16)) (Entry.bits e 103 72) (Entry.bits e 135 120))], []⟩
  else if op = opGather then
    let mode := Entry.bits e 73 72
    let n := Entry.bits e 71 56
    let idx := sp (Entry.bits e 55 39) ((n * (if mode = 0 then 4 else 8) + 31) / 32)
    if mode = 0 then ⟨[idx], [sp (Entry.bits e 38 22) (n * Entry.bits e 89 74)]⟩
    else ⟨[], [idx, sp (Entry.bits e 38 22) (spUnits - (Entry.bits e 38 22 + p))]⟩
  else if op = opMma then
    let da := descAt ds (Entry.bits e 21 16)
    let db := descAt ds (Entry.bits e 27 22)
    let m := Entry.bits e 93 78
    let n := Entry.bits e 109 94
    let k := Entry.bits e 125 110
    ⟨[sp (Entry.bits e 44 28) (fmtUnits (Desc.fmt da) (Desc.esc da) (m * k)),
      sp (Entry.bits e 61 45) (fmtUnits (Desc.fmt db) (Desc.esc db) (n * k))],
     [⟨true, Entry.bits e 75 62, fpUnits (m * n)⟩]⟩
  else if op = opVec then
    let fn := Entry.bits e 21 16
    let f := Entry.bits e 79 76
    let rows := Entry.bits e 95 80
    let n := rows * Entry.bits e 111 96
    let src1 := any (Entry.flag e 39) (Entry.bits e 38 22) (vecUnits (Entry.flag e 39) f n)
    let src2 := if fn = 0xC then any (Entry.flag e 57) (Entry.bits e 56 40) (fpUnits rows)
      else any (Entry.flag e 57) (Entry.bits e 56 40) (vecUnits (Entry.flag e 57) f n)
    let dst := any (Entry.flag e 75) (Entry.bits e 74 58) (vecUnits (Entry.flag e 75) f n)
    ⟨src1 :: (if vecReads2 fn then [src2] else []) ++ (if fn = 2 then [dst] else []), [dst]⟩
  else if op = opQuant then
    let d := descAt ds (Entry.bits e 21 16)
    let n := Entry.bits e 88 57
    let wide := if !rep || Entry.bits e 112 96 == 0 then [] else [sp (Entry.bits e 112 96) (33 * ((n + 1023) / 1024))]
    ⟨[any (Entry.flag e 39) (Entry.bits e 38 22) (fpUnits n)],
     sp (Entry.bits e 56 40) (fmtUnits (Entry.bits e 116 113) (Desc.esc d) n) :: wide⟩
  else if op = opReduce then
    let n := fpUnits (Entry.bits e 79 56)
    ⟨[sp (Entry.bits e 38 22) n], [sp (Entry.bits e 55 39) n]⟩
  else if op = opAtom then
    let w := ⟨false, Entry.bits e 39 20 / 8, 1⟩
    ⟨[w], w :: (if Entry.flag e 92 then [⟨false, Entry.bits e 91 72 / 8, 1⟩] else [])⟩
  else if op = opPut then ⟨[sp (Entry.bits e 117 101) (Entry.bits e 100 77 / 32)], []⟩
  else ⟨[], []⟩

/-- Two ops' ranges conflict: at least one of the two writes the overlapping range (R111). -/
def OpRanges.conflict (a b : OpRanges) : Bool :=
  (a.writes.any fun x => (b.reads ++ b.writes).any x.overlaps) || (a.reads.any fun x => b.writes.any x.overlaps)

/-- Descriptor indices an op names (R121); 63 of WDESC names none (R122). -/
def opDescs (e : Entry) : List Nat :=
  let op := Entry.opcode e
  if op = opLoad then [Entry.bits e 21 16]
  else if op = opStore then
    (if Entry.flag e 142 then [] else [Entry.bits e 21 16]) ++ (if Entry.bits e 141 136 = 63 then [] else [Entry.bits e 141 136])
  else if op = opGather then (if Entry.bits e 73 72 = 0 then [Entry.bits e 21 16] else [])
  else if op = opMma then [Entry.bits e 21 16, Entry.bits e 27 22]
  else if op = opQuant then [Entry.bits e 21 16]
  else []

/-- A K4 tensor scale that a QUANT takes: positive and finite (R84). -/
def tscaleOk (t : BitVec 32) : Bool := match f32 t with | .fin neg n _ => !neg && n != 0 | _ => false

/-- The op fault an entry raises whatever the scratchpad holds, 0 for none: reserved fields, formats, shapes, ranges and
descriptor indices (R121, R122, R125, R126, R127, R131, R141, R149, R621). DESIGN CHOICE (log 36): the tile meets the reserved
FMT of a descriptor (R52) only where the op uses that format, so not that of a GATHER's DESC, a QUANT's DESC or a STORE's
WDESC; and a PUT whose LEN is not a multiple of 32 raises BAD_OP as one whose OFFSET is not. -/
def opCheck (ds : List Entry) (rep : Bool) (ndesc p : Nat) (e : Entry) : Nat :=
  let op := Entry.opcode e
  let d := descAt ds (Entry.bits e 21 16)
  let bad : Nat :=
    if !opCodes.contains op then ofBadOp
    else if (opDescs e).any (fun i => i ≥ ndesc) then ofDesc
    else if op = opGather ∧ Entry.bits e 73 72 ≥ 2 then ofBadOp
    else if (op = opLoad ∨ (op = opStore ∧ !Entry.flag e 142)) ∧ fmtReserved (Desc.fmt d) then ofBadFmt
    else if op = opMma then
      let a := Desc.fmt d
      let b := Desc.fmt (descAt ds (Entry.bits e 27 22))
      let m := Entry.bits e 93 78
      let n := Entry.bits e 109 94
      let k := Entry.bits e 125 110
      if fmtReserved a || fmtReserved b || a == 0 || b == 0 then ofBadFmt
      else if Entry.bits e 77 76 = 3 then ofBadOp
      else if m = 0 ∨ n = 0 ∨ k = 0 ∨ m % 32 ≠ 0 ∨ n % 32 ≠ 0 ∨ k % 64 ≠ 0 ∨ m * n > 131072 then ofShape
      else 0
    else if op = opVec then
      if Entry.bits e 21 16 > 0xD then ofBadOp else if Entry.bits e 79 76 > 2 then ofBadFmt else 0
    else if op = opQuant then
      let f := Entry.bits e 116 113
      let n := Entry.bits e 88 57
      if fmtReserved f then ofBadFmt
      else if Entry.bits e 90 89 = 3 then ofBadRound
      else if f = 8 ∧ !tscaleOk (Desc.tscale d) then ofBadFmt
      else if n = 0 ∨ (fmtBlocked f ∧ n % groupElems f ≠ 0) then ofShape
      else 0
    else if op = opReduce ∧ Entry.bits e 81 80 ≥ 2 then ofBadOp
    else if op = opAtom then
      if Entry.bits e 17 16 = 3 then ofBadOp
      else if Entry.bits e 39 20 ≥ 786432 ∨ (Entry.flag e 92 ∧ Entry.bits e 91 72 ≥ 786432) then ofSpRange
      else 0
    else if op = opPut ∧ (Entry.bits e 119 118 = 3 ∨ Entry.bits e 76 37 % 32 ≠ 0 ∨ Entry.bits e 100 77 % 32 ≠ 0) then ofBadOp
    else if op = opSkip ∧ Entry.bits e 92 81 = 0 then ofBadOp
    else if op = opLoop ∧ Entry.bits e 41 32 = 0 then ofBadOp
    else 0
  if bad ≠ 0 then bad
  else
    let r := opRanges ds rep p e
    if (r.reads ++ r.writes).all Rng.fits then 0 else ofSpRange

/-! ## Widening (R100, R623) -/

/-- A quantise op that a repeat can widen (R100). -/
def widenable (e : Entry) : Bool :=
  let f := Entry.bits e 116 113
  Entry.opcode e == opQuant && Entry.bits e 112 96 != 0 && ([5, 6, 7, 8, 10, 11].contains f)

/-- The record of a quantise op, with its units offset by p. -/
def widenRec (ds : List Entry) (p idx : Nat) (e : Entry) : WidenRec :=
  { idx, dst := Entry.bits e 56 40 + p, n := Entry.bits e 88 57, ofmt := Entry.bits e 116 113,
    esc := Desc.esc (descAt ds (Entry.bits e 21 16)), widen := Entry.bits e 112 96 + p }

/-- The units a quantise op's output takes in its named format. -/
def WidenRec.rng (w : WidenRec) : Rng := ⟨false, w.dst, fmtUnits w.ofmt w.esc w.n⟩

/-- The unit where element i of an output begins (R623). -/
def WidenRec.unitOf (w : WidenRec) (i : Nat) : Nat :=
  w.dst + i / groupElems w.ofmt * groupUnits w.ofmt w.esc + i % groupElems w.ofmt * fmtBits w.ofmt / 256

/-- What R623 gives an operand range: the range as it stands, n units of the widened copy from a unit, or neither. -/
inductive Redirect where
  | asIs
  | copy (unit n : Nat)
  | bad
  deriving DecidableEq, Repr

/-- The E4M3 group of a quantise op's copy where a range begins, if it meets both conditions of R623. -/
def WidenRec.groupOf (q : WidenRec) (r : Rng) : Option Nat :=
  if q.rng.lo + q.rng.n < r.lo + r.n then none
  else (List.range ((q.n + 1023) / 1024)).find? fun j => q.unitOf (1024 * j) == r.lo

/-- Units of the copy that hold the elements of n units of the named format from E4M3 group j on (R100). -/
def WidenRec.copyUnits (q : WidenRec) (j n : Nat) : Nat :=
  let gu := groupUnits q.ofmt q.esc
  33 * min (((n + gu - 1) / gu * groupElems q.ofmt + 1023) / 1024) ((q.n + 1023) / 1024 - j)

/-- Reads of a range in a repeat (R623). Every widened output that the range overlaps must meet the conditions, and the copy
read is that of the latest of them in op order (DESIGN CHOICE: R623 speaks of one; log 36). -/
def redirect (qs : List WidenRec) (r : Rng) : Redirect :=
  let hits := qs.filter fun q => q.rng.overlaps r
  match hits.getLast? with
  | none => .asIs
  | some q =>
    match q.groupOf r with
    | none => .bad
    | some j => if hits.all fun x => (x.groupOf r).isSome then .copy (q.widen + 33 * j) (q.copyUnits j r.n) else .bad

/-- A STORE's widened form is possible (R124). A key-value STORE has no FIRST and takes its format from its slot (R146), so that
R124 gives it no widened form (DESIGN CHOICE; log 36). -/
def storeWidens (ds : List Entry) (e : Entry) : Bool :=
  let d := descAt ds (Entry.bits e 21 16)
  !Entry.flag e 142 && Entry.bits e 141 136 != 63 && Entry.bits e 71 40 * groupElems (Desc.fmt d) % 1024 == 0

end Sys2Proof.Machine
end

