-- ==== Sys2Proof/Machine/TileOps.lean ====
section
/-! DEFINITION. What the tile rows share: op faults and stops (R149), fetching (R110, R132), the release and acquire waits
(R249, R250), segments and their trip condition (R97 to R105), and the numeric work of each op (R74 to R77, R126 to
R129). -/

namespace Sys2Proof.Machine

/-- Changes one tile. -/
def State.modTile (s : State) (t : Nat) (f : Tile → Tile) : State := s.setTile t (f (s.tile t))

/-- The command a tile works for, 0 for none. -/
def Tile.cmd (x : Tile) : Nat := match x.disp with | none => 0 | some d => d.cmd
def Tile.ctx (x : Tile) : BitVec 12 := match x.disp with | none => 0 | some d => d.ctx
def Tile.svc (x : Tile) : BitVec 3 := match x.disp with | none => 0 | some d => d.svc
def Tile.policy (x : Tile) : Nat := match x.disp with | none => 0 | some d => d.policy.toNat
def Tile.thresh (x : Tile) : Nat := match x.disp with | none => 0 | some d => d.thresh.toNat
/-- The partition of the running command, 8 for none. -/
def Tile.part (x : Tile) : Nat := match x.disp with | none => 8 | some d => d.ctx.toNat / 512

/-- The tile executes: it has a command and has neither ended nor stopped. -/
def Tile.runs (x : Tile) : Bool := x.disp.isSome && !x.done && !x.stopped

/-- Four tiles of a tile's group. -/
def mates (t : Nat) : List Nat := [t / 4 * 4, t / 4 * 4 + 1, t / 4 * 4 + 2, t / 4 * 4 + 3]

/-! ## Faults -/

/-- MEM_UNAVAIL from a closed Splice: the record's code is MEM_UNAVAIL, and the command ends with HALF_DOWN (R546, R624). -/
def ofSpliceClosed : Nat := 0x100 + ofMemUnavail

/-- Completes a command with OP_FAULT and the first fault record (R149, R391). -/
def State.opFaultRun (s : State) (id code idx t dva : Nat) : State :=
  match s.run id with
  | none => s
  | some r =>
    match r.status with
    | some _ => s
    | none =>
      if code = ofSpliceClosed then s.setRun (r.finish stHalfDown (tileHalf t).other.num)
      else s.setRun { r.finish stOpFault 0 with
        res := [BitVec.ofNat 64 (code + 2 ^ 8 * idx + 2 ^ 24 * t), BitVec.ofNat 64 dva, 0] }

/-- Fault record of a tile: the earlier record stays while it stands unread (R150, R151). -/
def State.faultRecord (s : State) (t code idx dva : Nat) : State :=
  let g := t / 4
  let p := t % 4
  if s.fbit R.HUB_TFAULT0_VALID g p then s.fset R.HUB_TFAULT0_OVERRUN g p 1
  else
    let s := ((s.fset R.HUB_TFAULT0_CODE g p code).fset R.HUB_TFAULT0_OPIDX g p idx).fset R.HUB_TFAULT0_VALID g p 1
    (s.fset R.HUB_TFAULT1_ADDR_LO g p dva).fset R.HUB_TFAULT2_ADDR_HI g p (dva / 2 ^ 32)

/-- A tile stops: nothing more of its list issues or starts. -/
def Tile.stop (x : Tile) (fault : Bool) : Tile :=
  { x with stopped := x.stopped || fault, done := true, waiting := none, fence := none, cur := none, issued := [],
           putWait := [], stopReq := false, badPut := none, redHere := false, redDone := false }

/-- Requests of a stopped tile that have not entered the mesh are dropped: a stop leaves only the writes issued before
it (R149, R262). -/
def State.dropTileReqs (s : State) (t : Nat) : State :=
  let s := { s with fab := { s.fab with regq := s.fab.regq.filter fun x => x.pkt.src != (⟨.tile, t⟩ : Agent) } }
  s.dropHeld fun h => h.agent == (⟨.tile, t⟩ : Agent)

/-- OP_FAULT of one tile (R149), without its effect on the group. -/
def State.faultOne (s : State) (t code idx dva : Nat) : State :=
  let x := s.tile t
  let s := s.faultRecord t code idx dva
  let s := (s.setTile t (x.stop true)).dropTileReqs t
  let s := s.opFaultRun x.cmd code idx t dva
  s.trigger (tileHalf t) 3 x.part true

/-- The tile has issued a REDUCE that has not completed. -/
def Tile.reducing (x : Tile) : Option IssuedOp := x.issued.find? fun o => Entry.opcode o.entry == opReduce

/-- GROUP_ABORT at the other tiles of the group whose REDUCE waits for a tile that an op fault has stopped (R129). -/
def State.abortMates (s : State) (t : Nat) : State :=
  (mates t).foldl (fun s m =>
    match (s.tile m).reducing with
    | some o => if m = t then s else s.faultOne m ofGroupAbort o.idx 0
    | none => s) s

/-- OP_FAULT (R149), with GROUP_ABORT at the tiles of the group whose REDUCE waits for it (R129). -/
def State.tileFault (s : State) (t code idx dva : Nat) : State := (s.faultOne t code idx dva).abortMates t

/-- A refusal that reaches a tile whose list has ended: it still writes its record and takes STATE 3, and a REDUCE of its group
waits for it no longer (R113, R129, R355). -/
def State.lateFault (s : State) (t code idx dva : Nat) : State :=
  let x := s.tile t
  let s := s.faultRecord t code idx dva
  let s := s.setTile t { x with stopped := true, done := true }
  (s.opFaultRun x.cmd code idx t dva).abortMates t

/-! ## Fetching -/

/-- The tile has a fetch of its own under way. -/
def State.fetching (s : State) (t : Nat) : Bool :=
  (s.fab.txs.any fun x => x.purp == .fetch t) || (s.fab.regq.any fun x => x.purp == .fetch t)
    || (s.xlt.held.any fun h => h.what == .tileRead t)

/-- A 32-byte entry from the tile's read cache. -/
def Tile.cachedEntry (x : Tile) (dpa : Nat) : Option Entry :=
  (tget (fun _ => none) x.rcache (dpa / 64)).map fun d => secOf d (dpa / 32 % 2)

/-- The most lines of a tile's read cache, 64 KiB (R217). -/
def rcacheLines : Nat := 1024

/-- A line enters a tile's read cache; a full one drops its lowest line without notice (R217; log 20). -/
def Tile.cacheLine (x : Tile) (n : Nat) (d : LineData) : Tile :=
  let l := if rcacheLines ≤ x.rcache.length then x.rcache.drop 1 else x.rcache
  { x with rcache := tset (fun _ => none) l n (some d) }

/-- Takes an entry that has been read: a descriptor while some are missing, else the next entry of the list; entries of
a loop body are kept in the op buffer (R110, R132). -/
def Tile.takeEntry (x : Tile) (d : DispRec) (e : Entry) : Tile :=
  if x.descs.length < d.ndesc then { x with descs := x.descs ++ [e] }
  else
    { x with cur := some (x.idx, e)
             opbuf := if x.loops.isEmpty then x.opbuf else tput (tkeep (fun j => j != x.idx) x.opbuf) x.idx e }

/-- The DVA of what the tile reads next: a descriptor or an op-list entry (R110). -/
def Tile.nextDva (x : Tile) (d : DispRec) : Nat :=
  if x.descs.length < d.ndesc then d.dt.toNat + 32 * x.descs.length else d.ol.toNat + 32 * x.idx

/-- The entry of the op buffer that the tile needs next, where it holds it (R132). -/
def Tile.buffered (x : Tile) (d : DispRec) : Option Entry :=
  if x.descs.length < d.ndesc then none else (x.opbuf.find? fun e => e.1 == x.idx).map (·.2)

/-- Reads descriptors and the next entry from what is at hand, and asks for the line of the first that is not
(R110, R217); fuel bounds the descriptors. Past entry 65,535 an END is missing (R115). -/
def State.tileFetch (s : State) (t : Nat) : Nat → State
  | 0 => s
  | fuel + 1 =>
    let x := s.tile t
    match x.disp with
    | none => s
    | some d =>
      if !x.runs || x.cur.isSome || s.fetching t then s
      else if d.ndesc ≤ x.descs.length ∧ 65536 ≤ x.idx then s.tileFault t ofBadOp 65535 0
      else
        match x.buffered d with
        | some e => s.setTile t { x with cur := some (x.idx, e) }
        | none =>
          let dva := x.nextDva d
          match s.translate ⟨.tile, t⟩ d.ctx dva .read with
          | (.fault k i, s) => s.xltFault ⟨.tile, t⟩ d.ctx k i dva (some d.cmd) (.tileRead t)
          | (.dpa a, s) =>
            match x.cachedEntry a with
            | some e => (s.setTile t (x.takeEntry d e)).tileFetch t fuel
            | none =>
              let acc : DvaAcc := ⟨⟨.tile, t⟩, d.ctx, d.svc, BitVec.ofNat 52 dva, .rdShared, 0, false, false, 0, .fetch t⟩
              s.sendAcc acc a

/-- Enough for the descriptors and one entry. -/
def State.tileNext (s : State) (t : Nat) : State := s.tileFetch t 66

/-! ## Loops -/

/-- After the entry at i: the next index, with the innermost loops passed or ended (R131, R132); fuel bounds the levels. -/
def nextIdx (i : Nat) (ls : List LoopSt) : Nat → Nat × List LoopSt
  | 0 => (i, ls)
  | fuel + 1 =>
    match ls with
    | [] => (i, [])
    | l :: r =>
      if i < l.start + 1 + l.body then (i, ls)
      else if l.pass + 1 < l.count then (l.start + 1, { l with pass := l.pass + 1 } :: r)
      else nextIdx i r fuel

/-- The body of the innermost loop ends with the entry at i. -/
def bodyEnd (i : Nat) (ls : List LoopSt) : Bool :=
  match ls with | [] => false | l :: _ => i + 1 == l.start + 1 + l.body

/-- Current passes of the active loops of level 0 and 1 (R117). -/
def passOf (ls : List LoopSt) (level : Nat) : Nat := ((ls.find? fun l => l.level == level).map LoopSt.pass).getD 0

/-- The offset of an op with PING set (R130). -/
def pingOf (ls : List LoopSt) (e : Entry) : Nat :=
  match ls with
  | [] => 0
  | l :: _ => if Entry.ping e then (l.pass + Entry.phase e) % 2 * l.pingOff else 0

/-- Moves the tile past the entry at i, n entries on. -/
def Tile.advance (x : Tile) (n : Nat) : Tile :=
  let (i, ls) := nextIdx n x.loops 3
  { x with idx := i, loops := ls, cur := none, opbuf := if ls.isEmpty then [] else x.opbuf }

/-! ## Waits for writes (R249, R250) -/

/-- Whether a purpose is a write, or data awaited, of an op of a tile issued before op number n. -/
def Purpose.storeBefore (p : Purpose) (t n : Nat) : Bool := match p with | .store t' _ q _ => t' == t && q < n | _ => false
def Purpose.loadBefore (p : Purpose) (t n : Nat) : Bool := match p with | .load t' _ q _ _ _ _ => t' == t && q < n | _ => false

def XHeld.purposes (h : XHeld) : List Purpose := match h.what with | .accs l => l.map DvaAcc.purp | _ => []

/-- Accesses of a tile that have not entered the mesh: held at its regulator or by a fault. -/
def State.unissued (s : State) (test : Purpose → Bool) : Bool :=
  (s.fab.regq.any fun x => test x.purp) || (s.xlt.held.any fun h => h.purposes.any test)

/-- Accesses in the mesh that have not completed and meet a test. -/
def State.inflight (s : State) (test : Purpose → Bool) (which : Pkt → Bool) : Bool :=
  s.fab.txs.any fun x => test x.purp && which x.pkt

/-- The events of R250 for a scope have occurred for every op of a tile before op number n. -/
def State.fenceClear (s : State) (t n scope : Nat) : Bool :=
  let x := s.tile t
  let st (p : Purpose) := p.storeBefore t n
  let ld (p : Purpose) := p.loadBefore t n
  let puts := x.issued.any fun o => o.seq < n && Entry.opcode o.entry == opPut
  let starts := x.issued.any fun o => o.seq < n && !o.started && [opLoad, opStore, opGather].contains (Entry.opcode o.entry)
  !starts && !s.unissued ld && !s.inflight ld (fun _ => true) && !s.unissued st &&
    (match scope with
     | 0 => !s.inflight st fun p => p.op.cached
     | 1 => !s.inflight st fun p => s.slotIn p (tileHalf t)
     | 2 => !s.inflight st (fun _ => true) && !puts
     | _ => !s.inflight st (fun _ => true) && !puts && !(x.puts.any fun u => u.2 < n))

/-! ## Scratchpad and accumulators -/

/-- FP32 value of element i of an FP32 array from a unit, in the scratchpad or the accumulator file. -/
def Tile.fp (x : Tile) (acc : Bool) (unit i : Nat) : BitVec 32 :=
  if acc then tget (fun _ => 0#32) x.acc (unit * 8 + i) else BitVec.ofNat 32 (memRead x.spad (unit * 32 + 4 * i) 4)

/-- Writes FP32 element i. -/
def Tile.setFp (x : Tile) (acc : Bool) (unit i : Nat) (v : BitVec 32) : Tile :=
  if acc then { x with acc := tset (fun _ => 0#32) x.acc (unit * 8 + i) v }
  else { x with spad := memWrite x.spad (unit * 32 + 4 * i) v.toNat 0xF 4 }

/-- The scratchpad from a unit as a reader of bytes. -/
def Tile.bytes (x : Tile) (unit : Nat) : Bytes := fun i => (memByte x.spad (unit * 32 + i)).toNat

/-! ## Matrix engine (R74 to R77, R126) -/

/-- The operand an MMA reads: its format, kind, first unit, tensor scale where it has one (R59, R104, R623). -/
structure MatOp where
  fmt  : Nat
  esc  : Bool
  unit : Nat
  t    : Option (BitVec 32)
  deriving DecidableEq, Repr

/-- An operand of an MMA, from its widened copy where R623 says so. -/
def matOp (d : Entry) (qs : List WidenRec) (unit n : Nat) : MatOp :=
  let r : Rng := ⟨false, unit, fmtUnits (Desc.fmt d) (Desc.esc d) n⟩
  match redirect qs r with
  | .copy u _ => ⟨3, false, u, none⟩
  | _ => ⟨Desc.fmt d, Desc.esc d, unit, if Desc.fmt d = 8 then some (Desc.tscale d) else none⟩

/-- The common block of two formats (R75). -/
def commonBlock (a b : Nat) : Nat :=
  match fmtBlocked a, fmtBlocked b with
  | true, true => min (blockSize a) (blockSize b)
  | _, _ => 16

/-- The exact sum of products over one block of elements from i and j, rounded once to FP32 (R74 steps 1 to 4). -/
def blockSum (va vb : Nat → Num) (i j n : Nat) : BitVec 32 :=
  toF32 ((List.range n).foldl (fun s k => s.add ((va (i + k)).mul (vb (j + k)))) Num.zero)

/-- One output element: the block results added from a starting value (R74 step 5), with INF_SEEN (R77). R74 names no order
among the blocks of a row: the model adds them by rising k (DESIGN CHOICE; log 36). -/
def dotFrom (va vb : Nat → Num) (i j k blk : Nat) (start : BitVec 32) : BitVec 32 × Bool :=
  (List.range (k / blk)).foldl (fun (a, inf) b =>
    let a := f32Add a (blockSum va vb (i + b * blk) (j + b * blk) blk)
    (a, inf || f32Bad a)) (start, f32Bad start)

/-- One output element of an MMA (R74, R76). The tensor scales multiply the working sum as R76 says, an infinite one too, where
R84 would make each zero element NaN (DESIGN CHOICE; log 36). -/
def mmaElem (x : Tile) (a b : MatOp) (k m n : Nat) (start : BitVec 32) : BitVec 32 × Bool :=
  let va := elemAt a.fmt a.esc (x.bytes a.unit)
  let vb := elemAt b.fmt b.esc (x.bytes b.unit)
  let blk := commonBlock a.fmt b.fmt
  match a.t, b.t with
  | none, none => dotFrom va vb (m * k) (n * k) k blk start
  | ta, tb =>
    let (w, i1) := dotFrom va vb (m * k) (n * k) k blk 0
    let t := f32Mul (ta.getD 0x3F800000) (tb.getD 0x3F800000)
    let r := f32Add start (f32Mul w t)
    (r, i1 || f32Bad r)

/-- The number of MACs per step of two operand formats (R136). -/
def macRate (a b : Nat) : Nat :=
  let cls (f : Nat) : Nat := if f ≤ 2 then 3 else if f ≥ 10 then 0 else if f = 7 ∨ f = 8 then 1 else 2
  match max (cls a) (cls b) with
  | 0 => 32768 | 1 => 16384 | 2 => 8192 | _ => 4096

/-- Writes the M by N outputs of an MMA. -/
def Tile.mma (x : Tile) (a b : MatOp) (acc m n k : Nat) (zero : Bool) : Tile × Bool :=
  (List.range (m * n)).foldl (fun (y, inf) i =>
    let start := if zero then 0#32 else x.fp true acc i
    let (v, bad) := mmaElem x a b k (i / n) (i % n) start
    (y.setFp true acc i v, inf || bad)) (x, false)

/-! ## Vector unit (R127, R128, R622) -/

/-- The value of element i of a vector operand, as FP32 bits: an accumulator, an element of the format, or, in a repeat,
of the widened copy. -/
def Tile.vecIn (x : Tile) (acc : Bool) (unit fmt n : Nat) (qs : List WidenRec) (i : Nat) : BitVec 32 :=
  if acc then x.fp true unit i
  else
    match redirect qs ⟨false, unit, vecUnits false fmt n⟩ with
    | .copy u _ => toF32 (elemAt 3 false (x.bytes u) i)
    | _ => if fmt = 0 then x.fp false unit i else toF32 (elemAt fmt false (x.bytes unit) i)

/-- The raw length at word r of a MASKLEN's SRC2 (R127): in a repeat, of the copy that R623 gives its range (log 36). -/
def Tile.vecLen (x : Tile) (acc : Bool) (unit rows : Nat) (qs : List WidenRec) (r : Nat) : Nat :=
  if acc then (x.fp true unit r).toNat
  else
    match redirect qs ⟨false, unit, fpUnits rows⟩ with
    | .copy u _ => (x.fp false u r).toNat
    | _ => (x.fp false unit r).toNat

/-- Writes element i of a vector destination in its format, rounded to nearest even (R128); a NaN is written as the
canonical one (R89). -/
def Tile.vecOut (x : Tile) (acc : Bool) (unit fmt i : Nat) (v : BitVec 32) : Tile :=
  if acc || fmt == 0 then x.setFp acc unit i v
  else { x with spad := memWrite x.spad (unit * 32 + 2 * i) ((elemFf fmt).encode (f32 v)) 3 2 }

/-- An element-wise function of R127, with ctr numbering its free values. -/
def vecFn (fn ctr : Nat) (a b c imm : BitVec 32) : BitVec 32 :=
  let u := Config.ulp ctr
  let free := BitVec.ofNat 32 (Config.garbage ctr 0).toNat
  match fn with
  | 0x00 => f32Add a b
  | 0x01 => f32Mul a b
  | 0x02 => f32Fma a b c
  | 0x03 => f32Max a b
  | 0x04 => f32Min a b
  | 0x05 => f32Mul a imm
  | 0x06 => f32Exp a u
  | 0x07 => f32Recip a u free
  | 0x08 => f32Rsqrt a u free
  | 0x09 => f32Silu a u free
  | _ => a

/-- Adds the elements of a row in an order that is not specified: at each turn two of the partial sums (R622). -/
def sumRow (ctr : Nat) : List (BitVec 32) → Nat → BitVec 32
  | [], _ => 0
  | [x], _ => x
  | l, 0 => l.foldl f32Add 0
  | l, fuel + 1 =>
    let i := Config.pick (ctr + 2 * fuel) % l.length
    let a := l.getD i 0
    let r := l.eraseIdx i
    let j := Config.pick (ctr + 2 * fuel + 1) % max 1 r.length
    sumRow ctr (f32Add a (r.getD j 0) :: r.eraseIdx j) fuel

/-- A VEC op on a tile (R125, R127), with the number of the first free value. -/
def Tile.vec (x : Tile) (e : Entry) (p ctr : Nat) (qs : List WidenRec) : Tile :=
  let fn := Entry.bits e 21 16
  let f := Entry.bits e 79 76
  let rows := Entry.bits e 95 80
  let cols := Entry.bits e 111 96
  let n := rows * cols
  let off (acc : Bool) (u : Nat) : Nat := if acc then u else u + p
  let s1a := Entry.flag e 39
  let s2a := Entry.flag e 57
  let da := Entry.flag e 75
  let s1 := off s1a (Entry.bits e 38 22)
  let s2 := off s2a (Entry.bits e 56 40)
  let d := off da (Entry.bits e 74 58)
  let imm := BitVec.ofNat 32 (Entry.bits e 143 112)
  let in1 (i : Nat) := x.vecIn s1a s1 f n qs i
  let in2 (i : Nat) := x.vecIn s2a s2 f n qs i
  if fn = 0xA then
    (List.range rows).foldl (fun y r =>
      let row := (List.range cols).map fun j => in1 (r * cols + j)
      match row with
      | [] => y
      | h :: t => y.vecOut da d f (r * cols) (t.foldl f32Max (f32Max h h))) x
  else if fn = 0xB then
    (List.range rows).foldl (fun y r =>
      let row := (List.range cols).map fun j => in1 (r * cols + j)
      if row.isEmpty then y else y.vecOut da d f (r * cols) (sumRow (ctr + 2 * r * cols) row cols)) x
  else if fn = 0xC then
    (List.range n).foldl (fun y i =>
      let len := x.vecLen s2a s2 rows qs (i / cols)
      y.vecOut da d f i (if len ≤ i % cols then imm else in1 i)) x
  else
    (List.range n).foldl (fun y i =>
      y.vecOut da d f i (vecFn fn (ctr + i) (in1 i) (if fn ≤ 4 then in2 i else 0)
        (if fn = 2 then x.vecIn da d f n qs i else 0) imm)) x

/-- A vector operand decodes an infinite or NaN value: one of BF16, FP16 or of a widened copy (R95; log 18). -/
def Tile.vecBad (x : Tile) (acc : Bool) (unit fmt n : Nat) (qs : List WidenRec) : Bool :=
  !acc && (fmt != 0 || redirect qs ⟨false, unit, vecUnits false fmt n⟩ != .asIs)
    && (List.range n).any fun i => f32Bad (x.vecIn false unit fmt n qs i)

/-- An accumulator that a VEC wrote is infinite or NaN (R77), or a value it decoded is (R95; log 18). ROWMAX and ROWSUM write
element 0 of each row alone. -/
def Tile.vecInf (x y : Tile) (e : Entry) (p : Nat) (qs : List WidenRec) : Bool :=
  let cols := Entry.bits e 111 96
  let n := Entry.bits e 95 80 * cols
  let f := Entry.bits e 79 76
  let fn := Entry.bits e 21 16
  let da := Entry.flag e 75
  (da && (List.range n).any fun i => (!vecRowOut fn || i % cols == 0) && f32Bad (y.fp true (Entry.bits e 74 58) i))
    || x.vecBad (Entry.flag e 39) (Entry.bits e 38 22 + p) f n qs
    || (fn ≤ 4 && x.vecBad (Entry.flag e 57) (Entry.bits e 56 40 + p) f n qs)
    || (fn == 2 && x.vecBad da (Entry.bits e 74 58 + p) f n qs)

/-! ## Quantiser (R78 to R93, R100, R621) -/

/-- FP32 inputs of a QUANT. -/
def Tile.quantIn (x : Tile) (acc : Bool) (unit n : Nat) : List Num := (List.range n).map fun i => f32 (x.fp acc unit i)

/-- Writes groups of a block-scaled format. -/
def quantGroups (f : Nat) (esc fit : Bool) (mode ksh ctr : Nat) (t : Nat × Nat) (unit : Nat) :
    List (List Num) → Nat → List Host.Cell → List Host.Cell × QCount
  | [], _, m => (m, {})
  | g :: r, i, m =>
    let (v, c) := quantGroup f esc fit mode ksh ctr (i * groupElems f) t g
    let b := groupUnits f esc * 32
    let m := memWrite m ((unit + i * groupUnits f esc) * 32) v (2 ^ b - 1) b
    let (m, c') := quantGroups f esc fit mode ksh ctr t unit r (i + 1) m
    (m, c.add c')

/-- A QUANT on a tile; `wide` where a repeat writes E4M3 at the widen area (R100); the zero elements that
complete its last group count nothing. -/
def Tile.quant (x : Tile) (ds : List Entry) (e : Entry) (p ctr : Nat) (wide : Bool) : Tile × QCount :=
  let d := descAt ds (Entry.bits e 21 16)
  let n := Entry.bits e 88 57
  let f := Entry.bits e 116 113
  let acc := Entry.flag e 39
  let src := if acc then Entry.bits e 38 22 else Entry.bits e 38 22 + p
  let mode := Entry.bits e 90 89
  let fit := Entry.flag e 91
  let xs := x.quantIn acc src n
  if wide then
    let pad := (1024 - n % 1024) % 1024
    let gs := chunks 1024 (n / 1024 + 1) (xs ++ List.replicate pad Num.zero)
    let (m, c) := quantGroups 3 false fit mode 0 ctr (1, 0) (Entry.bits e 112 96 + p) gs 0 x.spad
    ({ x with spad := m }, c)
  else if fmtBlocked f then
    let t := if f = 8 then (f32 (Desc.tscale d)).magOf else (1, 0)
    let gs := chunks (groupElems f) (n / groupElems f) xs
    let (m, c) := quantGroups f (Desc.esc d) fit mode (Entry.bits e 95 92) ctr t (Entry.bits e 56 40 + p) gs 0 x.spad
    ({ x with spad := m }, c)
  else
    let w := fmtBits f / 8
    (xs.zipIdx).foldl (fun (y, c) (v, i) =>
      let (code, q) := quantWide f (rndOf mode ctr i) v
      ({ y with spad := memWrite y.spad ((Entry.bits e 56 40 + p) * 32 + w * i) code (2 ^ w - 1) w }, c.add q)) (x, {})

/-! ## Group reduction (R129, R622) -/

/-- The result of a REDUCE from the four sources, element i. -/
def reduceElem (fn : Nat) (a b c d : BitVec 32) : BitVec 32 :=
  if fn = 0 then f32Add (f32Add a b) (f32Add c d) else f32Max (f32Max a b) (f32Max c d)

/-- The result of a scratchpad ATOM (R141). -/
def atomFn (fn : Nat) (old imm : BitVec 32) : BitVec 32 :=
  match fn with | 0 => old + imm | 1 => f32Add old imm | _ => imm

end Sys2Proof.Machine
end

