-- ==== Sys2Proof/Machine/TileRun.lean ====
section
/-! DEFINITION. How ops of a tile start, complete, end segments and are repeated (R97 to R135, R141 to R147, R249). -/

namespace Sys2Proof.Machine

/-! ## Memory accesses of LOAD, STORE and GATHER (R122, R123, R145, R146) -/

/-- A run of bytes within one sector: the sector's DVA, the offset in it, the length, and the scratchpad byte. -/
structure Piece where
  dva : Nat
  off : Nat
  len : Nat
  sp  : Nat
  deriving DecidableEq, Repr

/-- A run of n bytes from a DVA, cut at sectors; fuel bounds the pieces. -/
def pieces (a n sp : Nat) : Nat → List Piece
  | 0 => []
  | fuel + 1 =>
    if n = 0 then []
    else
      let l := min n (32 - a % 32)
      ⟨a / 32 * 32, a % 32, l, sp⟩ :: pieces (a + l) (n - l) (sp + l) fuel

def piecesOf (a n sp : Nat) : List Piece := pieces a n sp (n / 32 + 2)

/-- The bytes a LOAD or STORE copies between a tensor and scratchpad units (R118, R123). -/
def shapePieces (d : Entry) (i0 i1 first count col0 ncol unit : Nat) : List Piece :=
  let base := Desc.eff d i0 i1
  let f := Desc.fmt d
  if fmtBlocked f then
    let gb := groupUnits f (Desc.esc d) * 32
    piecesOf (base + first * gb) (count * gb) (unit * 32)
  else
    let w := fmtBits f / 8
    (List.range count).flatMap fun i =>
      piecesOf (base + (first + i) * Desc.pitch d + col0 * w) (ncol * w) ((unit + i * rowUnits f ncol) * 32)

/-- The scratchpad bytes that pad each row of a LOAD to a whole unit: they hold no value that the manual gives, so each is
a free value (R123; log 6). -/
def padRows (m : List Host.Cell) (f count ncol unit ctr : Nat) : List Host.Cell :=
  let used := ncol * (fmtBits f / 8)
  let pad := rowUnits f ncol * 32 - used
  if fmtBlocked f then m
  else (List.range count).foldl (fun m i =>
    memWrite m ((unit + i * rowUnits f ncol) * 32 + used) (Config.garbage ctr i).toNat (2 ^ pad - 1) pad) m

/-- The access that a piece of a LOAD or GATHER makes. -/
def Piece.load (c : Piece) (t : Nat) (x : Tile) (o : IssuedOp) (cached : Bool) : DvaAcc :=
  ⟨⟨.tile, t⟩, x.ctx, x.svc, BitVec.ofNat 52 c.dva, if cached then .rdOnce else .memRd, 0, false, false, 0,
    .load t o.idx o.seq c.sp c.off c.len c.dva⟩

/-- The access that a piece of a STORE makes, its data read from the scratchpad. -/
def Piece.store (c : Piece) (t : Nat) (x : Tile) (o : IssuedOp) (cached : Bool) : DvaAcc :=
  ⟨⟨.tile, t⟩, x.ctx, x.svc, BitVec.ofNat 52 c.dva, if cached then .wrThrough else .memWr,
    BitVec.ofNat 32 ((2 ^ c.len - 1) <<< c.off), c.len != 32, false,
    BitVec.ofNat 256 (memRead x.spad c.sp c.len <<< (8 * c.off)), .store t o.idx o.seq c.dva⟩

/-! ## Index records and the sequence directory -/

def State.seqSlot (s : State) (n : Nat) : BitVec 128 := tget (fun _ => 0#128) s.cmds.seqdir n

/-- Index record n of 8 bytes: SLOT and FIRST or DELTA (R145, R146). -/
def Tile.kvRec (x : Tile) (unit n : Nat) : Nat × Nat :=
  let v := memRead x.spad (unit * 32 + 8 * n) 8
  (bitsOf v 9 0, bitsOf v 31 12)

/-- What reading a page-table entry gives (R144, R147): the page, an op fault with the DVA and the DPA of the read, or a
translation fault. -/
inductive PageRes where
  | page (dva : Nat)
  | op (code dva dpa : Nat)
  | xlt (kind index dva : Nat)
  deriving DecidableEq, Repr

/-- The 8 bytes at a DPA in a line. -/
def lineWord (d : LineData) (a : Nat) : Nat := bitsOf d.toNat (8 * (a % 64) + 63) (8 * (a % 64))

/-- Reads page-table entry i of a slot: in the tile's read cache, else by a read made within the step (R144, R217; log 11). A
closed Splice gives MEM_UNAVAIL and HALF_DOWN (R37, R624). -/
def State.pageAt (s : State) (t : Nat) (sl : BitVec 128) (i : Nat) : PageRes :=
  let x := s.tile t
  let dva := Slot.pt sl + 8 * i
  match (s.translate ⟨.tile, t⟩ x.ctx dva .read).1 with
  | .fault k j => .xlt k j dva
  | .dpa a =>
    let found : CohRes := match tget (fun _ => none) x.rcache (a / 64) with
      | some d => .data (lineWord d a)
      | none => s.cohRead ⟨.tile, t⟩ x.ctx a 8
    match found with
    | .refused c => .op (if c = 3 then ofSpliceClosed else ofMemDenied) dva a
    | .poison => .op ofPoison dva a
    | .data e => if e.testBit 0 then .page (bitsOf e 51 16 * 65536) else .op ofKvUnmapped dva a

/-- The page-table entry at a DVA has been read: its line enters the tile's read cache where S is granted (R217, R219, R230). -/
def State.pageRead (t : Nat) (s : State) (dva : Nat) : State :=
  let me : Agent := ⟨.tile, t⟩
  let ctx := (s.tile t).ctx
  match s.translate me ctx dva .read with
  | (.fault _ _, s) => s
  | (.dpa a, s) =>
    if (tget (fun _ => none) (s.tile t).rcache (a / 64)).isSome then s
    else
      let d0 := s.seenSec me (a / 64 * 2)
      let d1 := s.seenSec me (a / 64 * 2 + 1)
      match s.cohTouch me ctx a true with
      | (true, s) => if d0.2 || d1.2 then s else s.setTile t ((s.tile t).cacheLine (a / 64) (lineOf d0.1 d1.1))
      | (false, s) => s

/-- What the records of a GATHER or key-value STORE resolve to: pieces with the class of each, the LENs to be written, and the DVAs
of the page-table entries read; or the first failure. -/
inductive KvRes where
  | ok (l : List (Piece × Bool)) (lens : List (Nat × Nat)) (reads : List Nat)
  | stop (r : PageRes)
  deriving DecidableEq, Repr

/-- Joins the results of records in order. -/
def KvRes.join (a b : KvRes) : KvRes :=
  match a, b with
  | .ok l n r, .ok l' n' r' => .ok (l ++ l') (n ++ n') (r ++ r')
  | .stop r, _ => .stop r
  | _, .stop r => .stop r

/-- Bytes of the pages of one record of a GATHER in mode 1, from byte sp of the scratchpad on. -/
def State.gatherPages (s : State) (t : Nat) (sl : BitVec 128) (sp : Nat) : List Nat → KvRes
  | [] => .ok [] [] []
  | i :: r =>
    match s.pageAt t sl i with
    | .page d =>
      (KvRes.ok ((piecesOf d (Slot.pageBytes sl) sp).map fun c => (c, Slot.cached sl)) [] [Slot.pt sl + 8 * i]).join
        (s.gatherPages t sl (sp + Slot.pageBytes sl) r)
    | e => .stop e

/-- Records n on of a GATHER in mode 1 (R145): pieces, and the LEN written into each record. -/
def State.gatherKv (s : State) (t layer unit : Nat) (n sp : Nat) : Nat → KvRes
  | 0 => .ok [] [] []
  | k + 1 =>
    let x := s.tile t
    let (slot, first) := x.kvRec unit n
    let sl := s.seqSlot slot
    if !Slot.valid sl || Slot.part sl != x.part then .stop (.op ofSlotOwner 0 0)
    else
      let pages := if Slot.len sl ≤ first then []
        else (List.range ((Slot.len sl - 1) / Slot.tpp sl - first / Slot.tpp sl + 1)).map fun j =>
          layer * Slot.lpages sl + first / Slot.tpp sl + j
      ((KvRes.ok [] [(unit * 32 + 8 * n + 4, Slot.len sl)] []).join (s.gatherPages t sl sp pages)).join
        (s.gatherKv t layer unit (n + 1) (sp + pages.length * Slot.pageBytes sl) k)

/-- The bytes of element run [e, e + n) of a flat tensor of a format, from a byte address: data and scales (R61, R62, R118).
Each is (byte, length). A slot's entry has no ESC bit, so a K4 slot's token records are plain (DESIGN CHOICE; log 36). -/
def elemRuns (f base e n : Nat) : List (Nat × Nat) :=
  if fmtBlocked f then
    (List.range (n / blockSize f)).flatMap fun j =>
      let b := e / blockSize f + j
      let g := base + b / 32 * (groupUnits f false * 32)
      [(g + b % 32 * blockBytes f, blockBytes f), (g + blockBytes f * 32 + b % 32, 1)]
  else [(base + e * (fmtBits f / 8), n * (fmtBits f / 8))]

/-- Records n on of a key-value STORE (R146). -/
def State.storeKv (s : State) (t layer unit spa : Nat) (n : Nat) : Nat → KvRes
  | 0 => .ok [] [] []
  | k + 1 =>
    let x := s.tile t
    let (slot, delta) := x.kvRec unit n
    let sl := s.seqSlot slot
    if !Slot.valid sl || Slot.part sl != x.part then .stop (.op ofSlotOwner 0 0)
    else
      let tok := Slot.len sl + delta
      let i := layer * Slot.lpages sl + tok / Slot.tpp sl
      match s.pageAt t sl i with
      | .page d =>
        let f := Slot.fmt sl
        let src := elemRuns f (spa * 32) (n * Slot.cols sl) (Slot.cols sl)
        let dst := elemRuns f d (tok % Slot.tpp sl * Slot.cols sl) (Slot.cols sl)
        (KvRes.ok ((src.zip dst).flatMap fun (a, b) => (piecesOf b.1 b.2 a.1).map fun c => (c, Slot.cached sl)) [] [Slot.pt sl + 8 * i]).join
          (s.storeKv t layer unit spa (n + 1) k)
      | e => .stop e

/-! ## Starting an op (R111, R134) -/

/-- Marks an issued op as started. -/
def Tile.markStarted (x : Tile) (seq : Nat) : Tile :=
  { x with issued := x.issued.map fun o => if o.seq = seq then { o with started := true } else o }

/-- The segment has executed an op that forbids a repeat (R102). -/
def Tile.sealSeg (x : Tile) (o : IssuedOp) : Tile :=
  if o.seg = x.seg.no then { x with seg := { x.seg with sealed := true } } else x

/-- Issues an op's accesses, counting the bytes (R584). -/
def State.tileAccs (s : State) (t : Nat) (l : List DvaAcc) (bytes : Nat) : State :=
  let s := s.fidEvent (tileHalf t) 0 (t / 4) 4 (some (s.tile t).part) bytes
  s.issueAccs (some (s.tile t).cmd) l

/-- Units beyond the scratchpad are named by a piece of a GATHER or key-value STORE (R121). -/
def beyond (l : List (Piece × Bool)) : Bool := l.any fun p => p.1.sp + p.1.len > spUnits * 32

/-- What a failed index record does: an op fault, or a held read of a page-table entry (R147, R411). -/
def State.kvStop (s : State) (t idx : Nat) (r : PageRes) : State :=
  match r with
  | .op code dva a =>
    let c := s.ownCheck ⟨.tile, t⟩ (s.tile t).ctx false a
    let s := if code = ofMemDenied then s.deny ⟨.tile, t⟩ (s.tile t).ctx a c else s
    s.tileFault t code idx dva
  | .xlt k i dva => s.xltFault ⟨.tile, t⟩ (s.tile t).ctx k i dva (some (s.tile t).cmd) (.tileRead t)
  | .page _ => s

/-- Starts a LOAD (R122, R123). -/
def State.startLoad (s : State) (t : Nat) (o : IssuedOp) : State :=
  let x := (s.tile t).markStarted o.seq
  let d := descAt x.descs (Entry.bits o.entry 21 16)
  let unit := Entry.bits o.entry 38 22 + o.ping
  let count := Entry.bits o.entry 103 72
  let ncol := Entry.bits o.entry 135 120
  let ps := shapePieces d o.i0 o.i1 (Entry.bits o.entry 71 40) count (Entry.bits o.entry 119 104) ncol unit
  let x := { x with spad := padRows x.spad (Desc.fmt d) count ncol unit (s.freeCtr * 2 ^ 40) }
  ((s.setTile t x).bump).tileAccs t (ps.map fun c => c.load t x o (Desc.cached d)) ((ps.map Piece.len).foldl (· + ·) 0)

/-- Starts a STORE that is not a key-value one (R122 to R124). -/
def State.startStore (s : State) (t : Nat) (o : IssuedOp) : State :=
  let x := ((s.tile t).markStarted o.seq).sealSeg o
  let e := o.entry
  let d := descAt x.descs (Entry.bits e 21 16)
  let unit := Entry.bits e 38 22 + o.ping
  let first := Entry.bits e 71 40
  let count := Entry.bits e 103 72
  let ncol := Entry.bits e 135 120
  let (ps, cached) :=
    match redirect o.quants ⟨false, unit, shapeUnits d count ncol⟩ with
    | .copy u _ =>
      let w := descAt x.descs (Entry.bits e 141 136)
      let ge := groupElems (Desc.fmt d)
      let g0 := first * ge / 1024
      let g1 := (first * ge + count * ge - 1) / 1024
      (piecesOf (Desc.eff w o.i0 o.i1 + g0 * 1056) ((g1 - g0 + 1) * 1056) (u * 32), Desc.cached w)
    | _ => (shapePieces d o.i0 o.i1 first count (Entry.bits e 119 104) ncol unit, Desc.cached d)
  (s.setTile t x).tileAccs t (ps.map fun c => c.store t x o cached) ((ps.map Piece.len).foldl (· + ·) 0)

/-- Starts a key-value STORE (R146, R147). -/
def State.startStoreKv (s : State) (t : Nat) (o : IssuedOp) : State :=
  let e := o.entry
  match s.storeKv t (Entry.bits e 183 176) (Entry.bits e 159 143 + o.ping) (Entry.bits e 38 22 + o.ping) 0 (Entry.bits e 175 160) with
  | .stop r => s.kvStop t o.idx r
  | .ok l _ reads =>
    let s := reads.foldl (State.pageRead t) s
    if beyond l then s.tileFault t ofSpRange o.idx 0
    else
      let x := ((s.tile t).markStarted o.seq).sealSeg o
      (s.setTile t x).tileAccs t (l.map fun c => c.1.store t x o c.2) ((l.map (·.1.len)).foldl (· + ·) 0)

/-- Starts a GATHER of rows (R123). One whose N is 0, which R122's table excludes without an outcome, copies nothing
(DESIGN CHOICE; log 36). -/
def State.startGather0 (s : State) (t : Nat) (o : IssuedOp) : State :=
  let e := o.entry
  let x := (s.tile t).markStarted o.seq
  let d := descAt x.descs (Entry.bits e 21 16)
  let unit := Entry.bits e 38 22 + o.ping
  let rb := Entry.bits e 89 74 * 32
  let ps := (List.range (Entry.bits e 71 56)).flatMap fun i =>
    let row := memRead x.spad ((Entry.bits e 55 39 + o.ping) * 32 + 4 * i) 4
    piecesOf (Desc.eff d o.i0 o.i1 + row * rb) rb (unit * 32 + i * rb)
  (s.setTile t x).tileAccs t (ps.map fun c => c.load t x o (Desc.cached d)) ((ps.map Piece.len).foldl (· + ·) 0)

/-- Starts a key-value GATHER (R145, R147). -/
def State.startGather1 (s : State) (t : Nat) (o : IssuedOp) : State :=
  let e := o.entry
  match s.gatherKv t (Entry.bits e 89 74) (Entry.bits e 55 39 + o.ping) 0 ((Entry.bits e 38 22 + o.ping) * 32) (Entry.bits e 71 56) with
  | .stop r => s.kvStop t o.idx r
  | .ok l lens reads =>
    let s := reads.foldl (State.pageRead t) s
    if beyond l then s.tileFault t ofSpRange o.idx 0
    else
      let x := (s.tile t).markStarted o.seq
      let x := { x with spad := lens.foldl (fun m e => memWrite m e.1 e.2 0xF 4) x.spad }
      (s.setTile t x).tileAccs t (l.map fun c => c.1.load t x o c.2) ((l.map (·.1.len)).foldl (· + ·) 0)

/-- The tile whose word an ATOM changes (R141). -/
def atomTile (t : Nat) (e : Entry) : Nat := t / 4 * 4 + Entry.bits e 19 18

/-- Starts an ATOM: the word at its bank changes at once, and OLDW receives the old value (R141, R270). -/
def State.startAtom (s : State) (t : Nat) (o : IssuedOp) : State :=
  let e := o.entry
  let u := atomTile t e
  let s := s.setTile t (((s.tile t).markStarted o.seq).sealSeg o)
  let w := Entry.bits e 39 20
  let old := BitVec.ofNat 32 (memRead (s.tile u).spad (4 * w) 4)
  let new := atomFn (Entry.bits e 17 16) old (BitVec.ofNat 32 (Entry.bits e 71 40))
  let s := s.modTile u fun y => { y with spad := memWrite y.spad (4 * w) new.toNat 0xF 4 }
  if Entry.flag e 92 then
    s.modTile t fun y => { y with spad := memWrite y.spad (4 * Entry.bits e 91 72) old.toNat 0xF 4 }
  else s

/-- The bank of a Cleat lies behind a closed Splice for a half (R37). -/
def State.bankCut (s : State) (h : Half) (c : BitVec 16) : Bool := h != cleatHalf c && !s.spliceOpen

/-- Starts a SIGNAL: the increment leaves for its bank (R131, R254); behind a closed Splice it is answered with STATUS 3
(R37, R624). -/
def State.startSignal (s : State) (t : Nat) (o : IssuedOp) : State :=
  let s := s.setTile t (((s.tile t).markStarted o.seq).sealSeg o)
  if s.bankCut (tileHalf t) (BitVec.ofNat 16 (Entry.bits o.entry 31 16)) then s.tileFault t ofSpliceClosed o.idx 0
  else s.sendInc (BitVec.ofNat 16 (Entry.bits o.entry 31 16)) (BitVec.ofNat 48 (Entry.bits o.entry 63 32)) ⟨.tile, t⟩

/-- Gives a started PUT its tracker and sends its first fragments, or leaves it waiting at the loader (R343, R348). -/
def State.tryPut (s : State) (t : Nat) (o : IssuedOp) : State :=
  let x := s.tile t
  let e := o.entry
  let trk : Tracker :=
    { len := Entry.bits e 100 77, dev := Entry.bits e 20 16, handle := Entry.bits e 36 21, owner := some (.tile t o.idx),
      red := BitVec.ofNat 2 (Entry.bits e 119 118), off := Entry.bits e 76 37, dtag := (s.part x.part).dtag,
      src := (Entry.bits e 117 101 + o.ping) * 32,
      lcleat := if Entry.flag e 136 then some (BitVec.ofNat 16 (Entry.bits e 135 120)) else none }
  match s.takeTracker trk with
  | none => s.setTile t { x with putWait := addOnce o.seq x.putWait }
  | some (i, s) =>
    (s.setTile t { x with putWait := x.putWait.filter (· != o.seq), puts := x.puts ++ [(i, o.seq)] }).pumpPut i (trk.len / 32 + 1)

/-- Starts a PUT: refused at the source (R355), or handed to the transport. A PUT of no bytes has nothing to send. -/
def State.startPut (s : State) (t : Nat) (o : IssuedOp) : State :=
  let e := o.entry
  let dev := Entry.bits e 20 16
  let r := s.srcRefusal dev
  if r ≠ 0 then (s.recordRefusal r dev (Entry.bits e 36 21) 0).tileFault t ofPutRefused o.idx 0
  else
    let s := s.setTile t (((s.tile t).markStarted o.seq).sealSeg o)
    if Entry.bits e 100 77 = 0 then
      (if Entry.flag e 136 then s.sendInc (BitVec.ofNat 16 (Entry.bits e 135 120)) 1 ⟨.tile, t⟩ else s)
    else s.tryPut t o

/-- Starts an issued op. -/
def State.startOp (s : State) (t : Nat) (o : IssuedOp) : State :=
  let op := Entry.opcode o.entry
  if op = opLoad then s.startLoad t o
  else if op = opStore then (if Entry.flag o.entry 142 then s.startStoreKv t o else s.startStore t o)
  else if op = opGather then (if Entry.bits o.entry 73 72 = 0 then s.startGather0 t o else s.startGather1 t o)
  else if op = opAtom then s.startAtom t o
  else if op = opSignal then s.startSignal t o
  else if op = opPut then s.startPut t o
  else s.setTile t ((s.tile t).markStarted o.seq)

/-- The ranges of an issued op. -/
def IssuedOp.ranges (o : IssuedOp) (ds : List Entry) : OpRanges :=
  let r := opRanges ds o.rep o.ping o.entry
  { r with reads := r.reads ++ (r.reads.filterMap fun a =>
      match redirect o.quants a with | .copy u n => some ⟨false, u, n⟩ | _ => none) }

/-- An issued op can start: no earlier one that overlaps it runs, and a SIGNAL follows every earlier op and its release
scope's events (R111, R134, R250). -/
def State.canStart (s : State) (t : Nat) (o : IssuedOp) : Bool :=
  let x := s.tile t
  let earlier := x.issued.filter fun p => p.seq < o.seq
  !o.started && !(s.xlt.held.any fun h => h.what == .tileRead t)
    && (if Entry.opcode o.entry = opSignal then earlier.isEmpty && s.fenceClear t o.seq (Entry.bits o.entry 65 64)
        else !(earlier.any fun p => (p.ranges x.descs).conflict (o.ranges x.descs)))

/-- Starts every issued op that can start, in issue order. -/
def State.startReady (s : State) (t : Nat) : State :=
  (s.tile t).issued.foldl (fun s o => if (s.tile t).runs && !(s.tile t).stopReq && s.canStart t o then s.startOp t o else s) s

/-- PUTs that wait at the loader try again once a tracker is free (R348). -/
def State.retryPuts (s : State) : State :=
  s.tiles.foldl (fun s e =>
    e.2.putWait.foldl (fun s q =>
      match (s.tile e.1).issued.find? fun o => o.seq == q with
      | none => s
      | some o =>
        let dev := Entry.bits o.entry 20 16
        let r := s.srcRefusal dev
        if r = 0 then s.tryPut e.1 o
        else (s.recordRefusal r dev (Entry.bits o.entry 36 21) 0).tileFault e.1 ofPutRefused o.idx 0) s) s

/-! ## Segments (R97 to R105) -/

/-- An entry of the tile's list as it stands, without a fault. -/
def State.peekEntry (s : State) (t i : Nat) : Option Entry :=
  let x := s.tile t
  match x.opbuf.find? fun e => e.1 == i with
  | some e => some e.2
  | none =>
    match x.disp with
    | none => none
    | some d =>
      match (s.translate ⟨.tile, t⟩ d.ctx (d.ol.toNat + 32 * i) .read).1 with
      | .fault _ _ => none
      | .dpa a =>
        match x.cachedEntry a with
        | some e => some e
        | none => (s.cohRead ⟨.tile, t⟩ d.ctx a 32).toOption.map (BitVec.ofNat 256)

/-- The entry at i is the last of its segment (R97). -/
def endsSeg (e : Entry) (i : Nat) (ls : List LoopSt) : Bool :=
  Entry.seg e || Entry.opcode e == opLoop || Entry.opcode e == opEnd || bodyEnd i ls

/-- The entries of the current segment, from its first to its end at or after entry `last` (R623); fuel bounds them. An entry that
cannot be read ends the list (DESIGN CHOICE; log 36). -/
def State.segEntries (s : State) (t last i : Nat) : Nat → List (Nat × Entry)
  | 0 => []
  | fuel + 1 =>
    match s.peekEntry t i with
    | none => []
    | some e =>
      (i, e) :: (if last ≤ i ∧ endsSeg e i (s.tile t).seg.loops then [] else s.segEntries t last (i + 1) fuel)

/-- The scratchpad range that a key-value STORE's token records take: record n lies at element n * COLS of a tensor of its slot's
format from SPA (R146). -/
def State.kvSource (s : State) (t p : Nat) (e : Entry) : Rng :=
  let x := s.tile t
  ⟨false, Entry.bits e 38 22 + p,
    ((List.range (Entry.bits e 175 160)).map fun n =>
      let sl := s.seqSlot (x.kvRec (Entry.bits e 159 143 + p) n).1
      fmtUnits (Slot.fmt sl) false ((n + 1) * Slot.cols sl)).foldl max 0⟩

/-- The operand ranges that R623 speaks of: of matrix and vector ops, and the source of a STORE. -/
def State.widenReads (s : State) (t p : Nat) (e : Entry) : List Rng :=
  let op := Entry.opcode e
  if op = opStore ∧ Entry.flag e 142 then [s.kvSource t p e]
  else if op = opMma ∨ op = opVec ∨ op = opStore then
    (opRanges (s.tile t).descs false p e).reads.filter fun r => !r.acc
  else []

/-- The quantise ops that a repeat of the entries widens: the first eight in op order that can be (R101). -/
def widenPlan (es : List (Nat × Entry)) : List (Nat × Entry) := (es.filter fun e => widenable e.2).take 8

/-- Every op of the segment meets R623 and R124. -/
def State.segWidens (s : State) (t : Nat) (es : List (Nat × Entry)) : Bool :=
  let x := s.tile t
  let p (e : Entry) := pingOf x.seg.loops e
  let qs := (widenPlan es).map fun e => widenRec x.descs (p e.2) e.1 e.2
  es.all fun e => (s.widenReads t (p e.2) e.2).all fun r =>
    match redirect qs r with
    | .asIs => true
    | .bad => false
    | .copy _ _ => Entry.opcode e.2 != opStore || storeWidens x.descs e.2

/-- Opens the next segment at the tile's present place. -/
def Tile.openSeg (x : Tile) : Tile :=
  { x with seg := { no := x.seg.no + 1, start := x.idx, loops := x.loops }, segEnd := false }

/-- A trip under policy 1, or one that R99 completes so: the list stops after the tripping op, and the command completes
with GUARD_TRIPPED. Ops that run complete first. -/
def State.guardStop (s : State) (t : Nat) : State :=
  let x := s.tile t
  (s.setTile t { x with stopReq := true, cur := none, issued := x.issued.filter IssuedOp.started, segEnd := false }).finish
    x.cmd stGuardTripped 0

/-- What the guard policy does at a trip (R99, R100, R102, R105). `idx` is the tripping op. Before a repeat begins, the ops of the
tripped execution that have started complete and the others are dropped (DESIGN CHOICE; log 36). -/
def State.actTrip (s : State) (t idx : Nat) : State :=
  let x := s.tile t
  let pol := x.policy
  if pol = 0 then s
  else if pol = 1 then s.guardStop t
  else if x.seg.rep then
    let s := s.setTile t { x with guard := { x.guard with wtripped := true } }
    if pol = 2 then s else s.guardStop t
  else if x.seg.sealed then s.guardStop t
  else
    let es := s.segEntries t idx x.seg.start (65536 - x.seg.start)
    if !(es.any fun e => widenable e.2) then
      (if pol = 2 then s.setTile t { x with guard := { x.guard with wtripped := true } } else s.guardStop t)
    else if !s.segWidens t es then s.guardStop t
    else s.setTile t { x with
      seg := { x.seg with again := true, plan := (widenPlan es).map (·.1) }, cur := none, segEnd := false, issued := x.issued.filter IssuedOp.started }

/-- Evaluates the trip condition of a segment's execution, once (R97, R98). -/
def State.evalSeg (s : State) (t q idx : Nat) : State :=
  let x := s.tile t
  let g := tget (fun _ => ({} : Guard)) x.sums q
  if g.trips x.thresh && !g.tripped then
    let s := s.setTile t { x with sums := tset (fun _ => ({} : Guard)) x.sums q { g with tripped := true }
                                  guard := { x.guard with tripped := true } }
    let s := s.fidEvent (tileHalf t) 0 (t / 4) 5 (some x.part) 1
    let s := s.trigger (tileHalf t) 4 x.part true
    if q = x.seg.no then s.actTrip t idx else s
  else s

/-- Begins the repeat of a segment (R100). -/
def Tile.beginRepeat (x : Tile) : Tile :=
  { x with idx := x.seg.start, loops := x.seg.loops, cur := none, segEnd := false
           seg := { no := x.seg.no + 1, start := x.seg.start, loops := x.seg.loops, rep := true, plan := x.seg.plan }
           guard := { x.guard with widened := true } }

/-- After every op that runs has completed: a stop takes effect, a repeat begins, or an ended segment gives way to the
next (R98, R100, R149). Under policies 1 to 3 no op of the next segment issues before every op of the ended one has completed
and its trip condition is evaluated (DESIGN CHOICE; log 36). -/
def State.settle (s : State) (t : Nat) : State :=
  let x := s.tile t
  if !x.runs then s
  else if x.stopReq then
    if x.issued.any IssuedOp.started then s
    else
      match x.badPut with
      | some i => s.tileFault t ofPutRefused i 0
      | none => (s.setTile t (x.stop false)).dropTileReqs t
  else if x.seg.again then (if x.issued.isEmpty then s.setTile t x.beginRepeat else s)
  else if x.segEnd then (if x.policy = 0 || x.issued.isEmpty then s.setTile t x.openSeg else s)
  else s

/-- Everything a tile can do without a further event: settle, start, read ahead. -/
def State.tileGo (s : State) (t : Nat) : State := ((s.settle t).startReady t).tileNext t

/-! ## Issue (R110, R111) -/

/-- The tile can issue its current entry. -/
def State.canIssue (s : State) (t : Nat) : Bool :=
  let x := s.tile t
  x.runs && x.cur.isSome && x.waiting.isNone && x.fence.isNone && !x.stopReq && !x.seg.again && !x.segEnd
    && x.issued.length < 16 && !(s.xlt.held.any fun h => h.what == .tileRead t)

/-- The tile's current entry, where it can be issued and has the op code. -/
def State.ready (s : State) (t op : Nat) : Option (Nat × Entry) :=
  match (s.tile t).cur with
  | none => none
  | some c =>
    let known := opCodes.contains (Entry.opcode c.2)
    if s.canIssue t && (Entry.opcode c.2 == op || (op == opNop && !known)) then some c else none

/-- The op is one of those that the running repeat widens (R100, R101). -/
def Tile.widens (x : Tile) (idx : Nat) (e : Entry) : Bool := x.seg.rep && widenable e && x.seg.plan.contains idx

/-- Puts an op into the issued list and moves past it; its segment ends where R97 says. -/
def Tile.issue (x : Tile) (idx : Nat) (e : Entry) : Tile :=
  let p := pingOf x.loops e
  let wide := x.widens idx e
  let o : IssuedOp :=
    { idx, seq := x.nextSeq, entry := e, started := false, i0 := passOf x.loops 0, i1 := passOf x.loops 1,
      inner := x.loops.head?.map LoopSt.pass, ping := p, seg := x.seg.no, rep := wide, quants := x.seg.quants }
  let qs := if wide then x.seg.quants ++ [widenRec x.descs p idx e] else x.seg.quants
  let ends := endsSeg e idx x.loops
  let y := { x with issued := x.issued ++ [o], nextSeq := x.nextSeq + 1, seg := { x.seg with quants := qs },
                    segEnd := ends }
  y.advance (idx + 1)

/-- The scratchpad ranges of its own that an op reads (R138): what opRanges gives, but for the index lists and for a key-value
STORE's source, which its slots size. -/
def State.readRanges (s : State) (t p : Nat) (e : Entry) : List Rng :=
  let r := opRanges (s.tile t).descs false p e
  let op := Entry.opcode e
  if op = opStore ∧ Entry.flag e 142 then s.kvSource t p e :: r.reads.drop 1
  else if op = opGather then (r.reads ++ r.writes).take 1
  else if op = opAtom then []
  else r.reads.filter fun x => !x.acc

/-- An op reads a scratchpad unit that holds an uncorrectable error (R138). -/
def State.eccHit (s : State) (t p : Nat) (e : Entry) : Bool :=
  ((s.readRanges t p e).any fun r => (s.tile t).bad.any fun u => r.lo ≤ u && u < r.lo + r.n)
    || (Entry.opcode e == opAtom && (s.tile (atomTile t e)).bad.contains (Entry.bits e 39 20 / 8))

/-- The op fault that an entry raises as it issues, 0 for none: that of its checks, else SP_ECC where it reads data with an
uncorrectable error (R120, R121, R138, R149). -/
def State.issueFault (s : State) (t idx : Nat) (e : Entry) : Nat :=
  let x := s.tile t
  let p := pingOf x.loops e
  let f := opCheck x.descs (x.widens idx e) x.descs.length p e
  if f ≠ 0 then f else if s.eccHit t p e then ofSpEcc else 0

/-- SP_ECC on an op (R138), which counts toward the group's withdrawal (R538, R540). -/
def State.spEcc (s : State) (t idx : Nat) : State :=
  let l := s.window 0x40000000 (s.tile t).eccs ++ [s.tally]
  let s := s.modTile t fun x => { x with eccs := l }
  (s.tileFault t ofSpEcc idx 0) |> fun s => if 2 ≤ l.length then s.withdraw (t / 4) else s

/-- Issues an op after its checks, or raises its op fault (R120, R121, R149). -/
def State.issueOp (s : State) (t : Nat) (c : Nat × Entry) : State :=
  let x := s.tile t
  let f := s.issueFault t c.1 c.2
  if f = 0 then (s.setTile t (x.issue c.1 c.2)).tileGo t
  else if f = ofSpEcc then s.spEcc t c.1
  else s.tileFault t f c.1 0

/-- An issue row: the tile issues its current entry of the op code. -/
def State.issueRow (s : State) (t op : Nat) : State :=
  match s.ready t op with
  | none => s
  | some c => s.issueOp t c

/-- An issue row whose op's read of the scratchpad meets an uncorrectable error: it stands in the first unit that the op reads until
that unit is written (R138; log 36). -/
def State.eccRow (s : State) (t op : Nat) : State :=
  match s.ready t op with
  | none => s
  | some c =>
    match (s.readRanges t (pingOf (s.tile t).loops c.2) c.2).head? with
    | none => s.issueOp t c
    | some r => (s.modTile t fun x => { x with bad := addOnce r.lo x.bad }).spEcc t c.1

/-! ## Completion (R111, R249) -/

/-- An issued op has done its work: what its kind awaits has happened. -/
def State.opDone (s : State) (t : Nat) (o : IssuedOp) : Bool :=
  let x := s.tile t
  let op := Entry.opcode o.entry
  o.started &&
    (if op = opLoad ∨ op = opGather then
       let ld (p : Purpose) := p.loadBefore t (o.seq + 1) && !p.loadBefore t o.seq
       !s.unissued ld && !s.inflight ld fun _ => true
     else if op = opStore then !s.unissued fun p => p.storeBefore t (o.seq + 1) && !p.storeBefore t o.seq
     else if op = opFence then s.fenceClear t o.seq (Entry.bits o.entry 17 16)
     else if op = opReduce then x.redDone
     else if op = opPut then
       !x.putWait.contains o.seq && !(x.puts.any fun u => u.2 == o.seq && (s.tracker u.1).sent < (s.tracker u.1).len)
     else true)

/-- The effect an MMA, VEC or QUANT has on its tile, with its guard counts; it is whole at completion. -/
def Tile.compute (x : Tile) (o : IssuedOp) (ctr : Nat) : Tile × Guard :=
  let e := o.entry
  let op := Entry.opcode e
  if op = opMma then
    let m := Entry.bits e 93 78
    let n := Entry.bits e 109 94
    let k := Entry.bits e 125 110
    let a := matOp (descAt x.descs (Entry.bits e 21 16)) o.quants (Entry.bits e 44 28 + o.ping) (m * k)
    let b := matOp (descAt x.descs (Entry.bits e 27 22)) o.quants (Entry.bits e 61 45 + o.ping) (n * k)
    let z := Entry.bits e 77 76
    let (y, inf) := x.mma a b (Entry.bits e 75 62) m n k (z == 1 || (z == 2 && o.inner.getD 0 == 0))
    (y, { inf := inf })
  else if op = opVec then
    let y := x.vec e o.ping ctr o.quants
    (y, { inf := x.vecInf y e o.ping o.quants })
  else if op = opQuant then
    let (y, c) := x.quant x.descs e o.ping ctr o.rep
    (y, c.guard false)
  else (x, {})

/-- Steps for which an MMA keeps the matrix engine busy (R137). -/
def mmaSteps (x : Tile) (e : Entry) : Nat :=
  let a := Desc.fmt (descAt x.descs (Entry.bits e 21 16))
  let b := Desc.fmt (descAt x.descs (Entry.bits e 27 22))
  Entry.bits e 93 78 * Entry.bits e 109 94 * Entry.bits e 125 110 / macRate a b + 32

/-- The conflict counter of the master that an op code uses (R142). -/
def confFld (op : Nat) : Option Fld :=
  if op = opMma then some R.HUB_TCONF_MAT
  else if op = opVec then some R.HUB_TCONF_VEC
  else if op = opQuant then some R.HUB_TCONF_QNT
  else if op = opLoad ∨ op = opStore ∨ op = opPut then some R.HUB_TCONF_LDR
  else if op = opGather then some R.HUB_TCONF_GTH
  else if op = opReduce ∨ op = opAtom then some R.HUB_TCONF_GRP
  else none

/-- Counts of a completion: ops, engine steps, grants waited (R142, R584). -/
def State.countOp (s : State) (t : Nat) (o : IssuedOp) (waits : Nat) : State :=
  let g := t / 4
  let x := s.tile t
  let op := Entry.opcode o.entry
  let s := s.fidEvent (tileHalf t) 0 g 1 (some x.part) 1
  let s := if op = opMma then s.fidEvent (tileHalf t) 0 g 0 (some x.part) (mmaSteps x o.entry) else s
  match confFld op with
  | none => s
  | some f => (s.fadd f g (t % 4) waits).fidEvent (tileHalf t) 0 g 2 (some x.part) waits

/-- OP_COMPLETE (R111): the op leaves the list with its effect and counts, the trip condition is evaluated where due
(R98), and what waited for it goes on. -/
def State.completeOp (s : State) (t : Nat) (o : IssuedOp) (waits : Nat) : State :=
  let x := s.tile t
  let (y, g) := x.compute o ((s.freeCtr + 1) * 2 ^ 40)
  let sum := (tget (fun _ => ({} : Guard)) x.sums o.seg).add g
  let writes := ((o.ranges x.descs).writes.filter fun r => !r.acc)
  let y := { y with
    issued := y.issued.filter fun p => p.seq != o.seq
    bad := y.bad.filter fun u => !(writes.any fun r => r.lo ≤ u && u < r.lo + r.n)
    fence := if Entry.opcode o.entry = opFence then none else y.fence
    redDone := if Entry.opcode o.entry = opReduce then false else y.redDone
    guard := y.guard.add g
    sums := tset (fun _ => ({} : Guard)) y.sums o.seg sum }
  let s := ((s.setTile t y).bump).countOp t o waits
  let last := (y.segEnd || o.seg != y.seg.no) && !(y.issued.any fun p => p.seg == o.seg)
  let s := if Entry.opcode o.entry = opQuant || last then s.evalSeg t o.seg o.idx else s
  let s := if last then s.modTile t fun z => { z with sums := tset (fun _ => ({} : Guard)) z.sums o.seg {} } else s
  s.tileGo t

end Sys2Proof.Machine
end

