-- ==== Sys2Proof/Machine/SiteOps.lean ====
section
/-! DEFINITION. What the rows of a chiplet site share: states and reasons, messages to the chiplet through its attach points
(R280 to R288), the failure of a link-up (R304), severing (R312, R313) and unbinding (R311). -/

namespace Sys2Proof.Machine

/-! ## States (R319) -/

def State.siteState (s : State) (k : Nat) : Nat := s.fget R.SITE_STAT_STATE k 0

/-- Sets STATE; HUB_ORG.SITES shows a site that has linked up (R51). -/
def State.setSiteState (s : State) (k st : Nat) : State :=
  let s := s.fset R.SITE_STAT_STATE k 0 st
  let s := if st = 4 ∨ st = 5 then s else s.fset R.SITE_STAT_PART k 0 0
  s.fsetBit R.HUB_ORG_SITES 0 0 k (2 ≤ st && st ≤ 5)

/-- Reasons of SITE_STAT.REASON. -/
def rsNoLink : Nat := 1
def rsIdMismatch : Nat := 2
def rsVersion : Nat := 3
def rsNegotiation : Nat := 4
def rsScrubBound : Nat := 5
def rsPowerDecl : Nat := 6
def rsMeasureTimeout : Nat := 7
def rsMeasureBad : Nat := 8
def rsLinkLost : Nat := 9
def rsSnoopTmo : Nat := 10
def rsScrubTmo : Nat := 11
def rsInvTmo : Nat := 12
def rsPowerOver : Nat := 13

/-- A site's hello, zero before it arrives. -/
def State.siteHello (s : State) (k : Nat) : Hello :=
  ((s.site k).hello).getD ⟨0, 0, 0, false, 0, 0, 0, 0, 0, 0, 0, 0⟩

def State.apFace (s : State) (k : Nat) : Bool := s.siteKind k == .ap

/-- The CTX of a valid slot (R309). -/
def State.slotCtx (s : State) (k slot : Nat) : Option (BitVec 12) :=
  let (v, c) := if slot % 2 = 0 then (R.SITE_CTXMAP_VALID_A, R.SITE_CTXMAP_CTX_A)
    else (R.SITE_CTXMAP_VALID_B, R.SITE_CTXMAP_CTX_B)
  if slot < 16 && s.fbit v k (slot / 2) then some (BitVec.ofNat 12 (s.fget c k (slot / 2))) else none

/-- Writes a slot of SITE_CTXMAP. -/
def State.setSlot (s : State) (k slot ctx : Nat) (valid : Bool) : State :=
  let (v, c) := if slot % 2 = 0 then (R.SITE_CTXMAP_VALID_A, R.SITE_CTXMAP_CTX_A)
    else (R.SITE_CTXMAP_VALID_B, R.SITE_CTXMAP_CTX_B)
  (s.fset v k (slot / 2) (b2n valid)).fset c k (slot / 2) ctx

/-- Clears SITE_CTXMAP, a sealed item (R575). -/
def State.clearSlots (s : State) (k : Nat) : State :=
  ((List.range 16).foldl (fun s i => s.setSlot k i 0 false) s).disarm

/-- A locked or running TDI of a partition enters ERROR (R475). -/
def State.tdiError (s : State) (p : Nat) : State :=
  match (s.part p).win with
  | none => s
  | some w =>
    let t := tget (fun _ => Tdi.unlocked) s.sec.tdis w.idx
    if t = .locked ∨ t = .run then
      { s with sec := { s.sec with tdis := tset (fun _ => Tdi.unlocked) s.sec.tdis w.idx .error } }
    else s

/-! ## Link-up -/

/-- The mainband of a site is dark: nothing is live, and nothing waits to be sent, snoops on their way included. -/
def State.darken (s : State) (k : Nat) : State :=
  let s := (s.fset R.SITE_STAT_LIVE k 0 0).fset R.SITE_RATE_MODULES k 0 0
  let s := { s with fab := { s.fab with net := s.fab.net.filter fun p => !(p.op.vc == 1 && p.dst == siteAgent k) } }
  s.modSite k fun x => { x with aps := [] }

/-- LINKUP_FAIL (R304): the sideband stays powered. -/
def State.failLink (s : State) (k reason : Nat) : State :=
  let s := ((s.setSiteState k 7).fset R.SITE_STAT_REASON k 0 reason).darken k
  (s.modSite k fun x => { x with step := .idle }).fset R.MGT_WARN_SITE_FAILED 0 0 1

/-- A message of one or more words on the sideband (R301). -/
def State.sideMsg (s : State) (k : Nat) (ws : List Nat) : State := s.pushOut (.sideband k (ws.map (BitVec.ofNat 64)))

/-- MEASURE_REQ with a fresh nonce (R300 step 8). -/
def State.askMeasure (s : State) (k : Nat) : State :=
  let n := (List.range 8).map fun i => Config.trng (8 * s.freeCtr + i)
  let s := (s.bump).modSite k fun x => { x with nonce := n, step := .measure }
  s.sideMsg k ((List.range 4).map fun i => (n.getD (2 * i) 0).toNat + 2 ^ 32 * (n.getD (2 * i + 1) 0).toNat)

/-- Steps 8 to 11 of R300 again on a MEASURED site (R307): it is LINKED until its new measurement is accepted. -/
def State.remeasure (s : State) (k : Nat) : State :=
  ((s.setSiteState k 2).modSite k fun x => { x with remd := true, remeas := false }).askMeasure k

/-! ## Leaving a partition -/

/-- A site's leave returns and a queued request leaves the queue (R443). -/
def State.dropSiteLeave (s : State) (k : Nat) (tell : Bool) : State :=
  let w : LeaveWho := .site ⟨k % 8, Nat.mod_lt _ (by decide)⟩
  (s.unqueueLeave w tell).returnLeave w

/-- One InvAck fewer is awaited by an XLT_INVAL or a CTX_SET (R420). -/
def State.ackInval (s : State) (id : Nat) : State :=
  match s.run id with
  | none => s
  | some r => s.setRun { r with left := r.left - 1 }

/-- Requests that a site has made and that are not in the mesh, with the Cleat waits and faults held for it, are dropped; the
responses to the others will be discarded (R313 items 1 and 2, R415). -/
def State.dropSiteReqs (s : State) (k : Nat) : State :=
  let a := siteAgent k
  let keep := s.fab.txs.filter fun (t : Tx) => !(t.pkt.src == a && t.waits)
  let s := { s with fab := { s.fab with
    regq := s.fab.regq.filter fun x => x.pkt.src != a
    txs := keep.map fun (t : Tx) => if t.pkt.src = a then { t with purp := .quiet } else t } }
  let s := { s with cleats := { s.cleats with
    watches := s.cleats.watches.filter fun w => w.site != k
    sigs := s.cleats.sigs.filter fun w => w.site != k } }
  let free (t : Tracker) : Tracker := match t.owner with
    | some (.site j _) => if j = k then { t with owner := none } else t
    | _ => t
  let s := { s with lan := { s.lan with trackers := s.lan.trackers.map fun (e : Nat × Tracker) => (e.1, free e.2) } }
  (s.dropHeld fun h => h.agent == a).pump

/-- Outstanding Work of a site ends with a status (R313 item 5). -/
def State.failWorks (s : State) (k : Nat) (st : BitVec 8) (detail : Nat) : State :=
  let s := (s.site k).works.foldl (fun s w => match w.2 with | none => s | some id => s.finish id st detail) s
  let s := match (s.site k).unbind with
    | some (some id) => s.finish id st detail
    | _ => s
  (s.site k).invals.foldl State.ackInval s

/-- SITE_SEVER (R312, R313): of a linked site, or of one whose face is powered (R316). -/
def State.sever (s : State) (k reason : Nat) : State :=
  let st := s.siteState k
  if !(2 ≤ st && st ≤ 5) && !((st == 1 || st == 7) && (s.site k).powered) then s
  else
    let p := s.fget R.SITE_STAT_PART k 0
    let gone (a : Agent) : Bool := a == siteAgent k
    let s := if (st = 4 ∨ st = 5) ∧ ((s.part p).whip).isSome then s.setPart p { s.part p with sev := true } else s
    let s := (s.setSiteState k 6).fset R.SITE_STAT_REASON k 0 reason
    let s := ((s.failWorks k stSiteSevered reason).dropSiteReqs k).dropSiteLeave k false
    let s := (s.darken k).modSite k fun x => { x with
      step := .idle, powered := false, held := [], works := [], invals := [], unbind := none, remeas := false, scrub := false,
      overA := 0, overL := 0, hold := false, severed := true, cache := [] }
    let (lost, s) := s.loseAgents gone 4 true false
    let s := ((s.sweepAgents gone).loseAtProxies gone).clearSlots k
    let s := s.ev R.SITE_EVENT_SEVERED k
    if lost then s.ev R.SITE_EVENT_POISONED_LINES k else s

/-- Answers a held request (R309, R311 step 5). -/
def State.answerHeld (s : State) (k : Nat) (m : SiteMsg) (status : BitVec 3) : State := s.answerMsg k m status

/-- R311 step 5: the held requests complete with STATUS 2, the map and classes are cleared, and the site is MEASURED; one that
has sent MEASURE_CHANGED is measured again (R307, R315). -/
def State.unbindEnd (s : State) (k : Nat) : State :=
  let x := s.site k
  let s := x.held.foldl (fun s m => s.answerHeld k m 2) s
  let s := s.dropHeld fun h => h.agent == siteAgent k
  let s := ((s.clearSlots k).fset R.SITE_SVC_ALLOWED k 0 0).fset R.SITE_SVC_DEFAULT k 0 0
  let s := s.setSiteState k 3
  let s := match x.unbind with
    | some (some id) => s.finish id stOk 0
    | _ => s
  let s := s.modSite k fun y => { y with held := [], unbind := none, scrub := false, works := [] }
  if x.remeas then s.remeasure k else s

/-- Work of a site whose command still runs: R311 step 2 waits for it; a Work whose command a flush has completed is waited for
no longer (R462). -/
def State.worksOpen (s : State) (k : Nat) : Bool :=
  (s.site k).works.any fun w =>
    match w.2 with
    | none => false
    | some id => match s.run id with | none => false | some r => r.status.isNone

/-- Advances an unbinding (R311 steps 2 to 4): the scan once every Work is done, Scrub once every answer has arrived. -/
def State.unbindGo (s : State) (k : Nat) : State :=
  if s.siteState k ≠ 5 || (s.site k).scrub || s.worksOpen k then s
  else
    let s := s.scanSite k
    if s.siteNamed k then s
    else (s.modSite k fun x => { x with scrub := true }).siteOut k (siteAgent k) (.ctl k 0x55 0 0)

/-- Every unbinding goes on as far as it can. -/
def State.unbindAll (s : State) : State := (List.range 8).foldl State.unbindGo s

/-- Starts an unbinding (R311 step 1): the site's CleatWatches are held too, and complete at step 5 (R625). -/
def State.unbindStart (s : State) (k : Nat) (cmd : Option Nat) : State :=
  let p := s.fget R.SITE_STAT_PART k 0
  let s := (s.setSiteState k 5).fset R.SITE_STAT_PART k 0 p
  let ws := s.cleats.watches.filter fun w => w.site == k
  let s := { s with cleats := { s.cleats with watches := s.cleats.watches.filter fun w => w.site != k } }
  let s := s.modSite k fun x => { x with
    unbind := some cmd
    held := x.held ++ ws.map fun w => SiteMsg.watch w.slot ⟨w.tag, 0⟩ w.cleat w.target w.scope w.tmo }
  (s.dropSiteLeave k true).unbindGo k

/-! ## Retraining (R286) -/

/-- The attach points that a retrain or a fault of one acts on: the module of an AP face (R277, R286). -/
def State.apGroup (s : State) (k j : Nat) : List Nat := if s.apFace k then [j / 2 * 2, j / 2 * 2 + 1] else [j]

/-- Live attach points, as a count. -/
def State.liveCount (s : State) (k : Nat) : Nat := ((List.range 16).filter (s.apLive k)).length

/-- Shows the live attach points and what follows from them (R278). -/
def State.showLive (s : State) (k live : Nat) : State :=
  let s := s.fset R.SITE_STAT_LIVE k 0 live
  let n := s.liveCount k
  let s := s.fset R.SITE_STAT_DEGRADED k 0 (b2n (n < 16))
  if s.apFace k then s.fset R.SITE_RATE_MODULES k 0 (n / 2) else s

/-- Snoops on their way to an attach point that goes down turn to the live one fewest hops from their sender (R288). -/
def State.turnSnoops (s : State) (k j : Nat) : State :=
  { s with fab := { s.fab with net := s.fab.net.map fun p =>
      if p.op.vc = 1 ∧ p.dst = siteAgent k ∧ p.ap = j then { p with ap := (s.nearAp k p.sender).getD j } else p } }

/-- Disables an attach point (R286, R287): what waited there and what the chiplet has not acknowledged goes through the live ones
fewest hops from its senders; too few severs the site (R312). -/
def State.apDown (s : State) (k j : Nat) : State :=
  let g := (s.apGroup k j).filter (s.apLive k)
  let s := g.foldl (fun s i =>
    let a := s.ap k i
    let s := (s.fset R.SITE_APERR_DOWN k i 1).setAp k i { a with queue := [], buf := [], retrain := false }
    let s := s.showLive k (s.fget R.SITE_STAT_LIVE k 0 - 2 ^ i)
    let s := if 2 ≤ s.siteState k ∧ s.siteState k ≤ 5 then s.sideMsg k [i + 16 * (a.rx - 1).toNat] else s
    ((a.buf.filterMap Prod.snd ++ a.queue).foldl (fun s x => s.siteOut k x.1 x.2) s).turnSnoops k i) s
  let s := if g.isEmpty then s else s.ev R.SITE_EVENT_AP_DOWN k
  if s.liveCount k < 8 then s.sever k rsLinkLost else s

/-- ATTACH_RETRAIN (R286): the fourth within 2^30 counts disables the attach point. -/
def State.apRetrain (s : State) (k j : Nat) : State :=
  let s := (s.apGroup k j).foldl (fun s i =>
    let a := s.ap k i
    let ts := s.window 0x40000000 a.rts ++ [s.tally]
    (s.setAp k i { a with retrain := true, resent := 0, rts := ts }).fset R.SITE_APERR_RETRAINS k i (min 7 ts.length)) s
  let s := s.ev R.SITE_EVENT_RETRAIN k
  if (s.apGroup k j).any fun i => 4 ≤ ((s.ap k i).rts).length then s.apDown k j else s

/-- Replays from the oldest unacknowledged frame (R284, R286); the eighth replay of one frame starts a retrain. -/
def State.apReplay (s : State) (k j : Nat) : State :=
  let a := s.ap k j
  if a.tx = a.acked then s
  else
    let s := ((s.fadd R.SITE_APERR_REPLAYS k j 1).ev R.SITE_EVENT_REPLAY k).fidEvent (stackHalf k) 4 k 1 none 1
    let s := (s.setAp k j { a with resent := a.resent + 1 }).pushOut (.tspReplay k j a.acked)
    let s := a.buf.foldl (fun s e => s.frameAgain k j e) s
    if 8 ≤ a.resent + 1 then s.apRetrain k j else s

/-- Releases REQ requests held for power (R316), in their order, by a way to issue one. -/
def State.releaseHeld (s : State) (k : Nat) (issue : State → SiteMsg → State) : State :=
  let h := (s.site k).held
  h.foldl issue (s.modSite k fun x => { x with held := [], hold := false })

end Sys2Proof.Machine
end

