-- ==== Sys2Proof/Machine/Tiles.lean ====
section
/-! DEFINITION. The rows of the compute tiles (03_tiles.md). A row that names an op acts where the tile's next entry has
that op code and the tile can issue it (log 1). -/

namespace Sys2Proof.Machine

/-- The part has the tile (R2). -/
def State.hasTile (s : State) (t : Nat) : Bool := t < s.nTiles

/-- The next window of a half's step rate begins (R51). -/
def State.beginWindow (s : State) (h : Half) : State := s.setHalf h { s.half h with window := s.halfUp h && s.hasHalf h }

/-- HUB_RATE_WINDOW (R46): a half short of its clocks-and-fabric stage, or absent, shows 0 (R51). -/
def execHubRateWindow (west east : BitVec 16) (s : State) : Res :=
  let shown (h : Half) (v : BitVec 16) : Nat := if s.halfUp h && (s.half h).window then v.toNat else 0
  let s := (s.fset R.HUB_RATE_WEST_RATE 0 0 (shown .west west)).fset R.HUB_RATE_EAST_RATE 0 0 (shown .east east)
  .next (s.beginWindow .west |>.beginWindow .east)

/-- DISPATCH_RECORD (R110): the tile takes the record it has received and reads its descriptors and first entry. -/
def execDispatchRecord (t : Fin 96) (s : State) : Res :=
  let x := s.tile t.val
  match x.inbox with
  | none => atUnit (s.hasTile t.val) s
  | some d => atUnit (s.hasTile t.val)
    ((s.setTile t.val { spad := x.spad, acc := x.acc, rcache := x.rcache, eccs := x.eccs, bad := x.bad, puts := x.puts,
                        nextSeq := x.nextSeq, disp := some d }).tileNext t.val)

/-- NOP, or an op code that is not in the table, which raises BAD_OP (R120). -/
def execNop (t : Fin 96) (s : State) : Res := atUnit (s.hasTile t.val) (s.issueRow t.val opNop)

/-- LOAD (R123). -/
def execLoad (t : Fin 96) (s : State) : Res := atUnit (s.hasTile t.val) (s.issueRow t.val opLoad)

/-- STORE (R122 to R124, R146). -/
def execStore (t : Fin 96) (ecc : Bool) (s : State) : Res :=
  atUnit (s.hasTile t.val) (if ecc then s.eccRow t.val opStore else s.issueRow t.val opStore)

/-- GATHER (R122, R123, R145). -/
def execGather (t : Fin 96) (s : State) : Res := atUnit (s.hasTile t.val) (s.issueRow t.val opGather)

/-- MMA (R126). -/
def execMma (t : Fin 96) (ecc : Bool) (s : State) : Res :=
  atUnit (s.hasTile t.val) (if ecc then s.eccRow t.val opMma else s.issueRow t.val opMma)

/-- VEC (R127). -/
def execVec (t : Fin 96) (ecc : Bool) (s : State) : Res :=
  atUnit (s.hasTile t.val) (if ecc then s.eccRow t.val opVec else s.issueRow t.val opVec)

/-- QUANT (R621). -/
def execQuant (t : Fin 96) (ecc : Bool) (s : State) : Res :=
  atUnit (s.hasTile t.val) (if ecc then s.eccRow t.val opQuant else s.issueRow t.val opQuant)

/-- REDUCE (R129): a mate that has stopped on an op fault aborts it. -/
def State.reduceRow (s : State) (t : Nat) : State :=
  match s.ready t opReduce with
  | none => s
  | some c =>
    if (mates t).any fun m => m != t && (s.tile m).stopped && (s.tile m).cmd == (s.tile t).cmd then s.tileFault t ofGroupAbort c.1 0
    else s.issueOp t c

def execReduce (t : Fin 96) (s : State) : Res := atUnit (s.hasTile t.val) (s.reduceRow t.val)

/-- ATOM (R141). -/
def execAtom (t : Fin 96) (s : State) : Res := atUnit (s.hasTile t.val) (s.issueRow t.val opAtom)

/-! ## Sequencing -/

/-- An entry from i to before `stop` ends a segment in the list (R97); fuel bounds the entries. -/
def State.skipsEnd (s : State) (t stop i : Nat) : Nat → Bool
  | 0 => false
  | fuel + 1 =>
    if stop ≤ i then false
    else
      (match s.peekEntry t i with
       | none => false
       | some e => Entry.seg e || Entry.opcode e == opLoop || Entry.opcode e == opEnd) || s.skipsEnd t stop (i + 1) fuel

/-- A tile passes a sequencing op that is complete at once; its segment ends where R97 says, also where the entries passed over
hold the segment's end or reach the end of the loop body. -/
def State.passOp (s : State) (t : Nat) (c : Nat × Entry) (next : Nat) : State :=
  let x := s.tile t
  let ends := endsSeg c.2 c.1 x.loops || bodyEnd (next - 1) x.loops || s.skipsEnd t next (c.1 + 1) 4096
  let y := { x with segEnd := ends }.advance next
  let s := s.setTile t y
  let s := if ends && !(y.issued.any fun o => o.seg == x.seg.no) then s.evalSeg t x.seg.no c.1 else s
  s.tileGo t

/-- The Cleat an entry names. -/
def eCleat (e : Entry) : BitVec 16 := BitVec.ofNat 16 (Entry.bits e 31 16)
def eTarget (e : Entry) : CleatVal := BitVec.ofNat 48 (Entry.bits e 79 32)

/-- The op fault of naming a Cleat: not owned by the command's partition (R135), or behind a closed Splice (R37, R624). -/
def State.cleatFault (s : State) (t : Nat) (c : BitVec 16) : Nat :=
  if s.cleatOwner c.toNat ≠ some (s.tile t).part then ofCleatOwner
  else if s.bankCut (tileHalf t) c then ofSpliceClosed
  else 0

/-- WAIT on a Cleat (R131, R134). -/
def State.waitRow (s : State) (t : Nat) : State :=
  match s.ready t opWait with
  | none => s
  | some c =>
    let e := c.2
    let f := s.cleatFault t (eCleat e)
    if f ≠ 0 then s.tileFault t f c.1 0
    else
      let v := s.cleat (eCleat e).toNat
      let part := (s.tile t).part
      if (eTarget e).toNat ≤ v.val.toNat then
        (s.trace (cleatHalf (eCleat e)) 2 ⟨.tile, t⟩ (eCleat e) v.val (eTarget e) v.waker part).passOp t c (c.1 + 1)
      else
        let w : TWait := ⟨c.1, (eCleat e), (eTarget e), BitVec.ofNat 2 (Entry.bits e 97 96), BitVec.ofNat 16 (Entry.bits e 95 80), s.tally⟩
        let s := s.trace (tileHalf t) 1 ⟨.tile, t⟩ (eCleat e) v.val (eTarget e) none part
        (s.modTile t fun x => { x with waiting := some w }).passOp t c (c.1 + 1)

def execWait (t : Fin 96) (s : State) : Res := atUnit (s.hasTile t.val) (s.waitRow t.val)

/-- SIGNAL a Cleat (R131, R134). -/
def State.signalRow (s : State) (t : Nat) : State :=
  match s.ready t opSignal with
  | none => s
  | some c =>
    if s.cleatOwner (eCleat c.2).toNat ≠ some (s.tile t).part then s.tileFault t ofCleatOwner c.1 0 else s.issueOp t c

def execSignal (t : Fin 96) (s : State) : Res := atUnit (s.hasTile t.val) (s.signalRow t.val)

/-- FENCE (R250): no later op issues until its events have occurred. -/
def State.fenceRow (s : State) (t : Nat) : State :=
  match s.ready t opFence with
  | none => s
  | some c =>
    (s.modTile t fun x => { x with fence := some (BitVec.ofNat 2 (Entry.bits c.2 17 16)) }).issueOp t c

def execFence (t : Fin 96) (s : State) : Res := atUnit (s.hasTile t.val) (s.fenceRow t.val)

/-- PUT (R131, R348). -/
def execPut (t : Fin 96) (s : State) : Res := atUnit (s.hasTile t.val) (s.issueRow t.val opPut)

/-- LOOP (R131, R132). -/
def State.loopRow (s : State) (t : Nat) : State :=
  match s.ready t opLoop with
  | none => s
  | some (i, e) =>
    let x := s.tile t
    let body := Entry.bits e 41 32
    let lvl := Entry.bits e 42 42
    let n := Entry.bits e 31 16
    let nest := match x.loops with
      | [] => true
      | [l] => l.level == 1 && lvl == 0 && i + 1 + body ≤ l.start + 1 + l.body
      | _ => false
    if body = 0 then s.tileFault t ofBadOp i 0
    else if !nest || i + 1 + body > 65536 then s.tileFault t ofLoop i 0
    else if n = 0 then s.passOp t (i, e) (i + 1 + body)
    else
      let l : LoopSt := ⟨i, n, body, lvl, Entry.bits e 59 43, 0⟩
      let y := { x with loops := l :: x.loops, segEnd := true, idx := i + 1, cur := none }
      let s := s.setTile t y
      let s := if y.issued.any fun o => o.seg == x.seg.no then s else s.evalSeg t x.seg.no i
      s.tileGo t

def execLoop (t : Fin 96) (s : State) : Res := atUnit (s.hasTile t.val) (s.loopRow t.val)

/-- Entries from i to before `stop` include part of a loop body that the skip splits (R133); fuel bounds them. -/
def State.splits (s : State) (t stop i : Nat) : Nat → Bool
  | 0 => false
  | fuel + 1 =>
    if stop ≤ i then false
    else
      (match s.peekEntry t i with
       | none => false
       | some e => Entry.opcode e == opLoop && i + 1 + Entry.bits e 41 32 > stop) || s.splits t stop (i + 1) fuel

/-- SKIP (R131, R133): reads its Cleat once. -/
def State.skipRow (s : State) (t : Nat) : State :=
  match s.ready t opSkip with
  | none => s
  | some (i, e) =>
    let x := s.tile t
    let n := Entry.bits e 92 81
    let f := s.cleatFault t (eCleat e)
    let stop := i + 1 + n
    let past := match x.loops with | [] => false | l :: _ => stop > l.start + 1 + l.body
    if n = 0 then s.tileFault t ofBadOp i 0
    else if f ≠ 0 then s.tileFault t f i 0
    else if past || s.splits t stop (i + 1) 4096 then s.tileFault t ofSkipRange i 0
    else
      let v := s.cleat (eCleat e).toNat
      let least := (eTarget e).toNat ≤ v.val.toNat
      if least != Entry.flag e 80 then
        (s.trace (tileHalf t) 7 ⟨.tile, t⟩ (eCleat e) v.val (BitVec.ofNat 48 n) none x.part).passOp t (i, e) stop
      else s.passOp t (i, e) (i + 1)

def execSkip (t : Fin 96) (s : State) : Res := atUnit (s.hasTile t.val) (s.skipRow t.val)

/-- END (R113): completes once every earlier op has; the guard counts stand with the tile until the command ends (R94). -/
def State.endRow (s : State) (t : Nat) : State :=
  match s.ready t opEnd with
  | none => s
  | some (i, _) =>
    if (s.tile t).issued.isEmpty then
      let s := s.evalSeg t (s.tile t).seg.no i
      let x := s.tile t
      if x.seg.again then s.tileGo t
      else s.setTile t { x with done := true, cur := none, stopReq := false }
    else s

def execEndOp (t : Fin 96) (s : State) : Res := atUnit (s.hasTile t.val) (s.endRow t.val)

/-! ## Events -/

/-- OP_COMPLETE (R111): op number `op` of the tile; `waits` counts the grants it waited for at banks (R142). -/
def State.opCompleteRow (s : State) (t op waits : Nat) : State :=
  match (s.tile t).issued.find? fun o => o.seq == op with
  | none => s
  | some o => if (s.tile t).runs && s.opDone t o then s.completeOp t o waits else s

def execOpComplete (t : Fin 96) (op waits : Nat) (s : State) : Res :=
  atUnit (s.hasTile t.val) (s.opCompleteRow t.val op waits)

/-- The fields that every REDUCE of a group shares, with the command (R129). -/
def reduceKey (x : Tile) : Option (Nat × Nat) :=
  match x.reducing with
  | some o => if o.started then some (x.cmd, Entry.bits o.entry 84 56) else none
  | none => none

/-- Writes the result of a group's REDUCE at the tiles that receive it (R129). -/
def State.reduceGroup (s : State) (g : Nat) : State :=
  let xs := [s.tile (4 * g), s.tile (4 * g + 1), s.tile (4 * g + 2), s.tile (4 * g + 3)]
  let src (x : Tile) (i : Nat) : BitVec 32 :=
    match x.reducing with
    | none => 0
    | some o => x.fp false (Entry.bits o.entry 38 22 + o.ping) i
  let x0 := xs.getD 0 {}
  let x1 := xs.getD 1 {}
  let x2 := xs.getD 2 {}
  let x3 := xs.getD 3 {}
  (mates (4 * g)).foldl (fun s t =>
    let x := s.tile t
    match x.reducing with
    | none => s
    | some o =>
      let n := Entry.bits o.entry 79 56
      let gets := Entry.flag o.entry 82 || Entry.bits o.entry 84 83 == t % 4
      let y := if gets then
          (List.range n).foldl (fun y i => y.setFp false (Entry.bits o.entry 55 39 + o.ping) i
            (reduceElem (Entry.bits o.entry 81 80) (src x0 i) (src x1 i) (src x2 i) (src x3 i))) x
        else x
      s.setTile t { y with redHere := false, redDone := true }) s

/-- REDUCE_SOURCE_ARRIVE (R129): a tile's source reaches the group port; the fourth brings the result. A mate that has
stopped on an op fault aborts the REDUCE instead. REDUCEs of one group that differ in NEL, FUNC, ALL or ROOT, which R129 forbids
without an outcome, never complete (DESIGN CHOICE; log 36). -/
def State.reduceArrive (s : State) (t : Nat) : State :=
  let x := s.tile t
  match reduceKey x with
  | none => s
  | some k =>
    if x.redHere || x.redDone then s
    else
      let s := s.setTile t { x with redHere := true }
      if (mates t).all fun m => (s.tile m).redHere && reduceKey (s.tile m) == some k then s.reduceGroup (t / 4) else s

def execReduceSourceArrive (t : Fin 96) (s : State) : Res := atUnit (s.hasTile t.val) (s.reduceArrive t.val)

/-- WAIT_TIMEOUT (R134). -/
def State.waitTimeoutRow (s : State) (t : Nat) : State :=
  let x := s.tile t
  match x.waiting with
  | none => s
  | some w =>
    if w.tmo = 0 then s
    else
      let v := s.cleat w.cleat.toNat
      let s := s.fidEvent (tileHalf t) 0 (t / 4) 6 (some x.part) (tallyDiff s.tally w.since)
      let s := s.trace (cleatHalf w.cleat) 3 ⟨.tile, t⟩ w.cleat v.val w.target none x.part
      s.tileFault t ofWaitTimeout w.idx 0

def execWaitTimeout (t : Fin 96) (s : State) : Res := atUnit (s.hasTile t.val) (s.waitTimeoutRow t.val)

/-- Stops one tile of a dispatch: at its next op boundary, in WAIT at once (R149). A REDUCE that still waits for the others of its
group, which stop too, is given up (DESIGN CHOICE; log 36). -/
def State.stopTile (s : State) (t : Nat) : State :=
  let x := s.tile t
  if !x.runs then s
  else if x.waiting.isSome then (s.setTile t (x.stop false)).dropTileReqs t
  else
    let goes (o : IssuedOp) : Bool := o.started && (Entry.opcode o.entry != opReduce || x.redDone)
    (s.setTile t { x with stopReq := true, cur := none, issued := x.issued.filter goes, redHere := x.redHere && x.redDone }).settle t

/-- Stops every tile of a command (R149, R393). -/
def State.stopDispatch (s : State) (id : Nat) : State :=
  s.tiles.foldl (fun s e =>
    let s := match (s.tile e.1).inbox with
      | some d => if d.cmd = id then s.setTile e.1 { s.tile e.1 with inbox := none } else s
      | none => s
    if (s.tile e.1).cmd = id ∧ id ≠ 0 then s.stopTile e.1 else s) s

/-- DISPATCH_STOP (R149): the sequencer has the fault record of a tile and stops the others. -/
def execDispatchStop (t : Fin 96) (s : State) : Res :=
  let x := s.tile t.val
  atUnit (s.hasTile t.val) (if x.stopped then s.stopDispatch x.cmd else s)

end Sys2Proof.Machine
end

