-- ==== Sys2Proof/Machine/Engine.lean ====
section
/-! DEFINITION. PUTs and GETs at their source: trackers given, source reads, and how a tracker completes for its owner (R298,
R348 to R358, R381). -/

namespace Sys2Proof.Machine

/-- The agent that reads a tracker's source: the sequencer of a command's window (R411), or the engine itself (R298). -/
def State.srcAgent (s : State) (i : Nat) (t : Tracker) : Agent :=
  match t.owner with
  | some (.cmd id) => match s.run id with | some r => s.pseqOf r.win | none => engAgent (i / 2048)
  | _ => engAgent (i / 2048)

/-- The reads of a PUT's source, a sector each: by DVA for a command, by DPA for a site. -/
def State.readSource (s : State) (i : Nat) (t : Tracker) : State :=
  let a := s.srcAgent i t
  let op : Op := if t.cached then .rdOnce else .memRd
  match t.owner with
  | some (.cmd id) =>
    s.issueAccs (some id) ((List.range (t.len / 32)).map fun n =>
      ⟨a, t.ctx, t.svc, BitVec.ofNat 52 (t.srcAt + 32 * n), op, 0, false, false, 0, .putRd (i / 2048) (i % 2048) (32 * n)⟩)
  | some (.site _ _) =>
    (List.range (t.len / 32)).foldl (fun s n =>
      let d := t.srcAt + 32 * n
      s.request { Pkt.mk0 op a a (BitVec.ofNat 44 d) with ctx := t.ctx, svc := t.svc, sect := if d / 32 % 2 = 0 then 1 else 2 }
        (.putRd (i / 2048) (i % 2048) (32 * n)) none) s
  | _ => s

/-- The GET message of a tracker (R352). -/
def State.sendGet (s : State) (i : Nat) (t : Tracker) : State :=
  match s.firstLink (s.tracker i) with
  | none => s
  | some l =>
    s.stageOn l { LMsg.mk0 .get s.selfDev t.dev with
      handle := t.handle, offset := t.off, dtag := t.dtag, putid := BitVec.ofNat 15 i, rhandle := t.rhandle, roffset := t.roff,
      glen := t.len, tgen := (s.tracker i).gen }

/-- A PUT or GET of a command or a site takes its tracker, or waits for one (R348). -/
def State.beginPut (s : State) (t : Tracker) : State :=
  match s.takeTracker t with
  | none => { s with lan := { s.lan with waitPut := s.lan.waitPut ++ [t] } }
  | some (i, s) => if t.isGet then s.sendGet i t else s.readSource i t

/-- PutDone to a chiplet (R294). -/
def State.putDone (s : State) (k i : Nat) (tag : BitVec 12) (code : Nat) : State :=
  s.siteOut k (engAgent (i / 2048)) (.ctl k 0x5B tag (BitVec.ofNat 512 code))

/-- What a completed tracker means to its owner: the status of a command (R381), the answer to a site (R294), a tile's fault
(R355). -/
def State.tellOwner (s : State) (i : Nat) (t : Tracker) (reason : Nat) : State :=
  match t.owner with
  | none => s
  | some (.tile ti idx) =>
    let s := s.modTile ti fun x => { x with puts := x.puts.filter fun u => u.1 != i }
    let x := s.tile ti
    if reason = 0 then s
    else if x.runs then
      (s.setTile ti { x with stopReq := true, badPut := some idx, cur := none, waiting := none,
                             issued := x.issued.filter IssuedOp.started }).settle ti
    else if x.disp.isSome then s.lateFault ti ofPutRefused idx 0
    else s
  | some (.cmd id) =>
    if reason ≠ 0 then s.finish id stPutRefused reason
    else if t.denied then
      (if t.srcSt = 3 then s.finish id stHalfDown (s.agentHalf (s.srcAgent i t)).other.num else s.finish id stMemDenied 0)
    else if t.poison then s.finish id stPoison 0
    else s.finish id stOk 0
  | some (.site k tag) =>
    if reason ≠ 0 then s.putDone k i tag 1 else if t.denied then s.putDone k i tag 2 else s

/-- LNK_REFUSE for a PUT or GET refused at its source, told to a command or a site (R294, R355, R381). -/
def State.startPutFor (s : State) (t : Tracker) : State :=
  let r := s.srcRefusal t.dev
  if r = 0 then s.beginPut t
  else
    let s := s.recordRefusal r t.dev t.handle 0
    s.tellOwner 0 t r

/-- Those that wait for a tracker try again; one whose route or domain has gone is refused (R348, R355). -/
def State.retryWaits (s : State) : State :=
  s.lan.waitPut.foldl State.startPutFor { s with lan := { s.lan with waitPut := [] } }

/-! ## CleatSigs that wait (R252) -/

/-- A request of a site before number `mark` that is a write, and of the site (R292). -/
def siteWrite (k mark : Nat) (p : Pkt) (ser : Nat) : Bool := p.src == siteAgent k && Op.isWrite p.op && ser < mark

/-- A PutReq of a site before number `mark` that is not complete (R298): at a tracker, or waiting for one; `srcOnly` asks for its local
completion alone, once its source is read. -/
def Tracker.putOf (t : Tracker) (k mark : Nat) (srcOnly : Bool) : Bool :=
  match t.site with
  | some (j, m) => j == k && m < mark && (!srcOnly || t.owner.isSome)
  | none => false

/-- A PutReq that a CleatSig awaits (R250, R252). -/
def State.putAwaited (s : State) (w : SigWait) (srcOnly : Bool) : Bool :=
  (s.lan.trackers.any fun e => e.2.busy && e.2.putOf w.site w.mark srcOnly)
    || s.lan.waitPut.any fun t => t.putOf w.site w.mark srcOnly

/-- What a CleatSig covers has completed at its scope (R250, R252): the site's writes, and its PutReqs, locally at device scope and
at their destination at domain scope. -/
def State.sigClear (s : State) (w : SigWait) : Bool :=
  let held := s.fab.regq.filter fun x => siteWrite w.site w.mark x.pkt x.ser
  let out := s.fab.txs.filter fun x => siteWrite w.site w.mark x.pkt x.ser
  match w.scope.toNat with
  | 0 => held.isEmpty && !(out.any fun x => x.pkt.op.cached)
  | 1 => held.isEmpty && !(out.any fun x => s.slotIn x.pkt (stackHalf w.site))
  | 2 => held.isEmpty && out.isEmpty && !s.putAwaited w true
  | _ => held.isEmpty && out.isEmpty && !s.putAwaited w false

/-- CleatSigs whose writes have completed send their increments. -/
def State.sigsGo (s : State) : State :=
  s.cleats.sigs.foldl (fun s w =>
    if s.sigClear w then
      { s with cleats := { s.cleats with
        sigs := s.cleats.sigs.erase w
        flying := s.cleats.flying ++ [⟨w.cleat, w.inc, siteAgent w.site, some (cleatTo w.slot w.tag w.cleat)⟩] } }
    else s) s

/-- A tracker completes: its owner learns of it, it is free or quarantined (R351), and what waits for a tracker or for the
completion goes on. -/
def State.endTracker (s : State) (i reason : Nat) : State :=
  let t := s.tracker i
  let s := (s.freeTrk i (reason == 12)).tellOwner i t reason
  let s := ((s.retryPuts).retryWaits).sigsGo
  match t.owner with
  | some (.tile ti _) => s.tileGo ti
  | _ => s

/-- A tracker whose bytes are covered completes (R350, R352, R381). -/
def State.checkTracker (s : State) (i : Nat) : State :=
  let t := s.tracker i
  if t.busy && t.len ≤ t.covered then s.endTracker i 0 else s

/-- A source read of a PUT has completed: its sector waits to be sent, or a refusal cuts the PUT (R298, R358, R381). A site's
PutReq is answered once the source is read. -/
def State.sourceRead (s : State) (i off : Nat) (status : BitVec 3) (d : BitVec 256) (poison : Bool) : State :=
  let t := s.tracker i
  if !t.busy then s
  else if status ≠ 0 then
    let t := if t.len ≤ off then t else { t with len := off, denied := true, srcSt := status }
    ((s.setTracker i t).pumpPut i (t.len / 32 + 1)).checkTracker i
  else if t.len ≤ off then s
  else
    let t := { t with srcs := t.srcs ++ [(off, (d, poison))], got := t.got + 32, poison := t.poison || poison }
    let s := s.setTracker i t
    let s := match t.owner with
      | some (.site k tag) =>
        if t.len ≤ t.got ∧ !t.denied then (s.putDone k i tag 0).setTracker i { t with owner := none } else s
      | _ => s
    s.pumpPut i (t.len / 32 + 1)

/-! ## Fragments written (R354, R267) -/

/-- The bytes of a served message reach their arrival Cleat; a DONE covers them, or a GET's own tracker counts them (R267, R350,
R352). -/
def State.countMsg (s : State) (e : BitVec 256) (m : LMsg) : State :=
  let s := s.sendInc (Hnd.acleat e) (BitVec.ofNat 48 m.nbytes) (engAgent m.eng)
  let s := s.fidEvent (s.agentHalf (engAgent m.eng)) 3 m.eng 2 (some (Hnd.part e)) 1
  if m.isGetData then
    let t := s.tracker m.putid.toNat
    if s.answers m && t.isGet then (s.setTracker m.putid.toNat { t with covered := t.covered + m.nbytes }).checkTracker m.putid.toNat
    else s
  else
    s.sendMsg { LMsg.mk0 .done s.selfDev m.srcDev with putid := m.putid, tgen := m.tgen, bytes := m.nbytes }

/-- A handle command waits while a fragment accepted before its rewrite is not counted or refused (R357). -/
def State.handleBusy (s : State) (h mark : Nat) : Bool :=
  (s.lan.frags.any fun f => f.id < mark && f.msgs.any fun m => m.handle == h)
    || s.lan.slots.any fun c => c.id < mark && c.handle == h

/-- One write of fragments has completed (R354, R355, R361). -/
def State.fragWritten (s : State) (id : Nat) (status : BitVec 3) (poisoned : Bool) : State :=
  match s.lan.frags.find? fun f => f.id == id with
  | none => s
  | some f =>
    let s := if poisoned ∧ status = 0 then s.ev R.LNK_EVENT_RX_POISON 0 else s
    let bad := if f.bad ≠ 0 then f.bad else if status = 0 then 0 else if status = 2 then 6 else 8
    let f := { f with left := f.left - 1, bad := bad }
    if f.left ≠ 0 then
      { s with lan := { s.lan with frags := s.lan.frags.map fun (x : FragRx) => if x.id = id then f else x } }
    else
      let s := { s with lan := { s.lan with frags := s.lan.frags.filter fun x => x.id != id } }
      if f.bad ≠ 0 then f.msgs.foldl (fun s m => s.refuseMsg m f.bad) s
      else f.msgs.foldl (fun s m => s.countMsg f.entry m) s

/-- One read of a GET being served has completed (R352, R355): a refused read refuses the GET. -/
def State.getRead (s : State) (id off : Nat) (status : BitVec 3) (d : BitVec 256) (poison : Bool) : State :=
  match s.lan.frags.find? fun f => f.id == id with
  | none => s
  | some f =>
    if status ≠ 0 then
      let s := { s with lan := { s.lan with frags := s.lan.frags.filter fun x => x.id != id } }
      f.msgs.foldl (fun s m => s.refuseMsg m (if status = 2 then 6 else 8)) s
    else
      let f := { f with srcs := f.srcs ++ [(off, (d, poison))] }
      let s := { s with lan := { s.lan with frags := s.lan.frags.map fun (x : FragRx) => if x.id = id then f else x } }
      s.pumpGet id ((f.msgs.map LMsg.glen).foldl (· + ·) 0 / 32 + 1)

end Sys2Proof.Machine
end

