-- ==== Sys2Proof/Machine/Cleats.lean ====
section
/-! DEFINITION. The Cleat rows: increments at the banks (R254), and the Cleat ops of chiplets (R252, R291, R292). -/

namespace Sys2Proof.Machine

/-- The Cleat bank of a Cleat (R27). -/
def bankOf (c : BitVec 16) : Agent := ⟨.cleatBank, c.toNat / 4096⟩

/-- Tiles whose WAIT has just completed go on. -/
def State.kickTiles (s old : State) : State :=
  old.tiles.foldl (fun s e => if e.2.waiting.isSome && (s.tile e.1).waiting.isNone then s.tileGo e.1 else s) s

/-- An increment at its bank, with the tiles it wakes. -/
def State.bankInc (s : State) (c : BitVec 16) (inc : CleatVal) (a : Agent) : State :=
  (s.applyInc c inc a).kickTiles s

/-- An increment that is on its way. -/
def State.incOf (s : State) (c : BitVec 16) (inc : CleatVal) (a : Agent) : Option IncMsg :=
  s.cleats.flying.find? fun m => m.cleat == c && m.inc == inc && m.agent == a

/-- Answers the CleatSig that an increment belongs to. -/
def State.incDone (s : State) (m : IncMsg) (status : BitVec 3) : State :=
  match m.rsp with
  | none => s
  | some rt => s.siteRsp m.agent.num (bankOf m.cleat) rt status 0 0 none

/-- An increment reaches its bank; one that has to cross a closed Splice is answered there and lost (R37). -/
def State.cleatArrive (s : State) (m : IncMsg) : State :=
  let s := { s with cleats := { s.cleats with flying := s.cleats.flying.erase m } }
  if s.bankCut (s.agentHalf m.agent) m.cleat then s.incDone m 3
  else (s.bankInc m.cleat m.inc m.agent).incDone m 0

/-- CLEAT_INCREMENT (R254). -/
def execCleatIncrement (c : BitVec 16) (inc : CleatVal) (a : Agent) (s : State) : Res :=
  match s.incOf c inc a with
  | none => .next s
  | some m => .next (s.cleatArrive m)

/-! ## Cleat ops of a chiplet (R291) -/

/-- A tag of a site's REQ that is in flight (R290). -/
def State.siteTagUsed (s : State) (k : Nat) (tag : BitVec 12) : Bool :=
  let purp (p : Purpose) : Bool := match p with | .site j t _ => j == k && t == tag | _ => false
  let msg (m : SiteMsg) : Bool := match m with
    | .req _ t _ => t == tag
    | .sig _ t _ _ _ | .rd _ t _ | .watch _ t _ _ _ _ => t.tag == tag
    | .ctl _ _ _ => false
  (s.fab.txs.any fun t => purp t.purp) || (s.fab.regq.any fun t => purp t.purp) || (s.site k).held.any msg
    || (s.cleats.watches.any fun w => w.site == k && w.tag == tag) || (s.cleats.sigs.any fun w => w.site == k && w.tag == tag)
    || (s.cleats.flying.any fun m => m.agent == siteAgent k && (m.rsp.map RspTo.tag) == some tag)

/-- What a REQ of a site meets at its attach point before it is looked at (R290, R309, R311, R316): answered at once, held, or let
through under the CTX of its slot. -/
def State.siteGate (s : State) (k slot : Nat) (tag : BitVec 12) (m : SiteMsg) (go : BitVec 12 → State → State) : State :=
  let st := s.siteState k
  let no (s : State) (status : BitVec 3) : State := s.answerMsg k m status
  if st = 0 ∨ 5 < st then s
  else if st < 4 then no s 2
  else if s.siteTagUsed k tag then no (s.ev R.SITE_EVENT_DUP_TAG k) 5
  else if s.fget R.SITE_TERMS_TAGS k 0 ≤ tag.toNat then no (s.ev R.SITE_EVENT_BAD_TAG k) 5
  else if st = 5 ∨ (s.site k).hold then s.modSite k fun x => { x with held := x.held ++ [m] }
  else
    match s.slotCtx k slot with
    | none => no (s.ev R.SITE_EVENT_BAD_SLOT k) 2
    | some ctx => go ctx s

/-- The Cleat is not the bound partition's (R291), or its bank lies behind a closed Splice (R37): the STATUS, 0 for neither. -/
def State.siteCleat (s : State) (k : Nat) (c : BitVec 16) : BitVec 3 :=
  if s.cleatOwner c.toNat ≠ some (s.fget R.SITE_STAT_PART k 0) then 2
  else if s.bankCut (stackHalf k) c then 3
  else 0

/-- The class of a site's request (R318). -/
def State.siteSvc (s : State) (k : Nat) (svc : BitVec 3) : BitVec 3 × State :=
  let d := BitVec.ofNat 3 (s.fget R.SITE_SVC_DEFAULT k 0)
  if s.siteMinor k < 2 then (d, s)
  else if s.fvec R.SITE_SVC_ALLOWED k 0 svc.toNat then (svc, s)
  else (d, s.ev R.SITE_EVENT_SVC_REMAP k)

/-- A Cleat op takes a class like any request (R318). -/
def State.cleatSvc (s : State) (k : Nat) (svc : BitVec 3) : State := (s.siteSvc k svc).2

/-- A CleatSig that the hub has let through (R252); a 1.0 chiplet's scope is device (R299). -/
def State.doSig (s : State) (k slot : Nat) (tag : BitVec 12) (c : BitVec 16) (inc : CleatVal) (scope : BitVec 2) : State :=
  let f := s.siteCleat k c
  if f ≠ 0 then s.siteRsp k (bankOf c) (cleatTo slot tag c) f 0 0 none
  else
    let scope := if s.siteMinor k = 0 then 2 else scope
    State.sigsGo { s with cleats := { s.cleats with sigs := s.cleats.sigs ++ [SigWait.mk k slot tag c inc scope s.fab.serial] } }

/-- A CleatRd (R291). -/
def State.doRd (s : State) (k slot : Nat) (tag : BitVec 12) (c : BitVec 16) : State :=
  let f := s.siteCleat k c
  if f ≠ 0 then s.siteRsp k (bankOf c) (cleatTo slot tag c) f 0 0 none
  else s.siteRsp k (bankOf c) (cleatTo slot tag c) 0 0 0 (some (BitVec.ofNat 512 (s.cleat c.toNat).val.toNat))

/-- A CleatWatch (R291), which TSP 1.0 lacks (R299). -/
def State.doWatch (s : State) (k slot : Nat) (tag : BitVec 12) (c : BitVec 16) (target : CleatVal) (scope : BitVec 2) (tmo : BitVec 16) :
    State :=
  let f := if s.siteMinor k = 0 then 5 else s.siteCleat k c
  let x := s.cleat c.toNat
  let part := s.fget R.SITE_STAT_PART k 0
  if f ≠ 0 then s.siteRsp k (bankOf c) (cleatTo slot tag c) f 0 0 none
  else if target.toNat ≤ x.val.toNat then
    (s.siteRsp k (bankOf c) (cleatTo slot tag c) 0 0 0 none).trace (cleatHalf c) 6 (siteAgent k) c x.val target x.waker part
  else
    let s := s.trace (cleatHalf c) 5 (siteAgent k) c x.val target none part
    { s with cleats := { s.cleats with watches := s.cleats.watches ++ [⟨k, slot, tag, c, target, scope, tmo⟩] } }

def State.hasSite (s : State) (k : Nat) : Bool := k < s.nStacks

/-- CLEAT_SIG (R252, R291, R292). -/
def execCleatSig (k : Fin 8) (slot : Fin 16) (tag : SiteTag) (c : BitVec 16) (inc : CleatVal) (scope : BitVec 2) (s : State) :
    Res :=
  atUnit (s.hasSite k.val) (s.siteGate k.val slot.val tag.tag (.sig slot.val tag c inc scope) fun _ s =>
    (s.cleatSvc k.val tag.svc).doSig k.val slot.val tag.tag c inc scope)

/-- CLEAT_RD (R291). -/
def execCleatRd (k : Fin 8) (slot : Fin 16) (tag : SiteTag) (c : BitVec 16) (s : State) : Res :=
  atUnit (s.hasSite k.val) (s.siteGate k.val slot.val tag.tag (.rd slot.val tag c) fun _ s =>
    (s.cleatSvc k.val tag.svc).doRd k.val slot.val tag.tag c)

/-- CLEAT_WATCH (R291). -/
def execCleatWatch (k : Fin 8) (slot : Fin 16) (tag : SiteTag) (c : BitVec 16) (target : CleatVal) (scope : BitVec 2)
    (tmo : BitVec 16) (s : State) : Res :=
  atUnit (s.hasSite k.val)
    (s.siteGate k.val slot.val tag.tag (.watch slot.val tag c target scope tmo) fun _ s =>
      (s.cleatSvc k.val tag.svc).doWatch k.val slot.val tag.tag c target scope tmo)

/-- CLEAT_WATCH_TIMEOUT (R291): the wait named by the tag has a timeout, and completes with STATUS 4. -/
def execCleatWatchTimeout (k : Fin 8) (tag : BitVec 12) (s : State) : Res :=
  atUnit (s.hasSite k.val)
    (match s.cleats.watches.find? fun w => w.site == k.val && w.tag == tag && w.tmo != 0 with
      | none => s
      | some w =>
        let x := s.cleat w.cleat.toNat
        let s := { s with cleats := { s.cleats with watches := s.cleats.watches.erase w } }
        (s.siteRsp k.val (bankOf w.cleat) (cleatTo w.slot tag w.cleat) 4 0 0 none).trace (cleatHalf w.cleat) 3 (siteAgent k.val) w.cleat x.val w.target
          none (s.fget R.SITE_STAT_PART k.val 0))

end Sys2Proof.Machine
end

