-- ==== Sys2Proof/Machine/Sites.lean ====
section
/-! DEFINITION. The rows of the chiplet sites (07_bights.md): link-up and measurement, frames, requests, control messages,
power. -/

namespace Sys2Proof.Machine

/-! ## Link-up (R300 to R305) -/

/-- The site's half lets link-up start: from the links stage on, or, after a warm reset, from the end of the clocks-and-fabric
stage (R300, R315). -/
def State.linkupReady (s : State) (k : Nat) : Bool :=
  let h := s.half (stackHalf k)
  h.live && (3 ≤ h.stage || (h.warm.isSome && 2 ≤ h.stage))

/-- Step 1 of R300: the face is powered. -/
def State.linkupStart (s : State) (k : Nat) : State :=
  let s := (s.setSiteState k 1).darken k
  let s := (List.range 16).foldl (fun s j => (s.fset R.SITE_APERR_DOWN k j 0).fset R.SITE_APERR_RETRAINS k j 0) s
  let s := (s.fset R.SITE_STAT_DEGRADED k 0 0).fset R.SITE_IDENT_IDENTITY k 0 0
  s.modSite k fun x => { x with step := .sideband, powered := true, coolOff := false, hello := none, nonce := [], held := [],
                                hold := false, overA := 0, overL := 0, remeas := false }

/-- SITE_LINKUP_START (R300): of a recorded site in COVER, or one whose reset has kept it without power for 100 ms. -/
def execSiteLinkupStart (k : Fin 8) (s : State) : Res :=
  let x := s.site k.val
  let st := s.siteState k.val
  atUnit (s.hasSite k.val)
    (if s.siteKind k.val != .cover && s.linkupReady k.val && x.step == .idle && (st == 0 || (st == 1 && x.coolOff)) then
      s.linkupStart k.val
    else s)

/-- Acts at a site only while link-up awaits a step. -/
def State.atStep (s : State) (k : Nat) (step : LinkStep) (t : State) : Res :=
  atUnit (s.hasSite k) (if (s.site k).step = step then t else s)

/-- SIDEBAND_TRAINED (R279, R300): a chiplet that requires a refused part of UCIe ends link-up. -/
def execSidebandTrained (k : Fin 8) (refusedPart : Bool) (s : State) : Res :=
  s.atStep k.val .sideband
    (if refusedPart then s.failLink k.val rsNoLink else s.modSite k.val fun x => { x with step := .mainband })

/-- Whether a training outcome is one that the face can have: whole modules at a rate of R277, or no rate on the 3D face. -/
def State.trainable (s : State) (k live gts : Nat) : Bool :=
  if s.apFace k then
    [32, 24, 16, 12, 8, 4].contains gts && (List.range 8).all fun m => live.testBit (2 * m) == live.testBit (2 * m + 1)
  else gts == 0

/-- The modules of an AP face that failed training are disabled, with both of their attach points (R277). -/
def State.modulesDown (s : State) (k live : Nat) : State :=
  let dead := (List.range 16).filter fun j => s.apFace k && !live.testBit j
  let s := dead.foldl (fun s j => s.fset R.SITE_APERR_DOWN k j 1) s
  if dead.isEmpty then s else s.ev R.SITE_EVENT_AP_DOWN k

/-- MAINBAND_TRAINED (R276 to R278, R300): HUB_HELLO follows where enough attach points are live. -/
def execMainbandTrained (k : Fin 8) (live : BitVec 16) (gts : BitVec 6) (s : State) : Res :=
  let n := ((List.range 16).filter fun j => live.toNat.testBit j).length
  s.atStep k.val .mainband
    (if !s.trainable k.val live.toNat gts.toNat then s
    else if n < 8 then (s.modulesDown k.val live.toNat).failLink k.val rsNoLink
    else
      let s := ((s.modulesDown k.val live.toNat).showLive k.val live.toNat).fset R.SITE_RATE_GTS k.val 0 gts.toNat
      let s := s.modSite k.val fun x => { x with step := .hello }
      s.sideMsg k.val [2 + 2 ^ 8 + k.val * 2 ^ 16 + b2n (s.apFace k.val) * 2 ^ 19 + s.siteLimit k.val * 2 ^ 20])

/-- The reason for which CHIP_HELLO ends link-up, 0 for none (R13, R299, R302). -/
def State.helloCheck (s : State) (k : Nat) (h : Hello) : Nat :=
  let f := (s.fuse.sites[k]?).getD {}
  if h.identity ≠ f.ident then rsIdMismatch
  else if h.major ≠ 1 then rsVersion
  else if h.caching ∧ h.minor = 0 then rsNegotiation
  else if h.tags = 0 ∨ h.slots = 0 ∨ (h.caching ∧ h.snpCr < 32) ∨ h.ctlCr < 4 then rsNegotiation
  else if h.scrubUs = 0 ∨ 1400 < h.scrubUs then rsScrubBound
  else if f.limit < h.peakW then rsPowerDecl
  else 0

/-- HUB_TERMS (R303): the site is LINKED, and its staged base allowance is in force. -/
def State.hubTerms (s : State) (k : Nat) (h : Hello) : State :=
  let minor := min 2 h.minor
  let tags := min h.tags 4096
  let base := s.siteNext k
  let s := s.setSiteState k 2
  let s := (s.fset R.SITE_STAT_MINOR k 0 minor).fset R.SITE_STAT_CACHING k 0 (b2n h.caching)
  let s := (s.fset R.SITE_TERMS_TAGS k 0 tags).fset R.SITE_TERMS_SLOTS k 0 h.slots
  let s := ((List.range 16).filter (s.apLive k)).foldl (fun s j =>
    s.setAp k j { s.ap k j with snpCr := h.snpCr, ctlCr := h.ctlCr }) s
  let s := s.modSite k fun x => { x with step := .accept, baseNow := base, baseOld := none, cache := [] }
  let s := s.sideMsg k [minor + b2n h.caching * 2 ^ 8 + tags * 2 ^ 9 + h.slots * 2 ^ 22 + 32 * 2 ^ 27 + base * 2 ^ 35]
  s.updGates

/-- CHIP_HELLO (R299 to R304). -/
def execChipHello (k : Fin 8) (h : Hello) (s : State) : Res :=
  s.atStep k.val .hello
    (let s := (s.fset R.SITE_IDENT_IDENTITY k.val 0 h.identity.toNat).modSite k.val fun x => { x with hello := some h }
    let r := s.helloCheck k.val h
    if r ≠ 0 then s.failLink k.val r else s.hubTerms k.val h)

/-- CHIP_ACCEPT (R300). -/
def execChipAccept (k : Fin 8) (accept : Bool) (s : State) : Res :=
  s.atStep k.val .accept (if accept then s.askMeasure k.val else s.failLink k.val rsNegotiation)

/-- LINKUP_TIMEOUT (R300): the awaited step has not come in its time. -/
def execLinkupTimeout (k : Fin 8) (s : State) : Res :=
  atUnit (s.hasSite k.val)
    (match (s.site k.val).step with
      | .sideband | .mainband | .hello => s.failLink k.val rsNoLink
      | .accept => s.failLink k.val rsNegotiation
      | .measure => s.failLink k.val rsMeasureTimeout
      | .idle | .verify | .up => s)

/-- A MEASURE_RSP has the form of R301: N digests, 1 to 8, a chain of at most 8,192 bytes, a signature of 512. -/
def measureForm (m : MeasRsp) : Bool :=
  !m.digests.isEmpty && m.digests.length ≤ 8 && m.chain.length ≤ 1024 && m.sign.length == 64

/-- MEASURE_RSP (R300 step 9, R301), with the digest of the leaf certificate of its chain (R305). -/
def execMeasureRsp (k : Fin 8) (digests : MeasRsp) (leaf : BitVec 512) (s : State) : Res :=
  s.atStep k.val .measure
    (if !measureForm digests then s.failLink k.val rsMeasureBad
    else s.modSite k.val fun x => { x with
      step := .verify, pendDig := digests.digests, pendChain := digests.chain, pendSign := digests.sign, pendLeaf := leaf })

/-- Step 11 of R300: the measurement is accepted. -/
def State.measured (s : State) (k : Nat) : State :=
  let x := s.site k
  let d := (x.pendDig.headD 0).toNat
  let s := (List.range 16).foldl (fun s n => s.fset R.SITE_DIGEST_BYTES k n (d / 2 ^ (32 * n))) s
  let s := s.setSiteState k 3
  let s := s.modSite k fun x => { x with step := .up, digests := x.pendDig, leaf := x.pendLeaf, severed := false }
  s.sideMsg k [1]

/-- MEASURE_VERIFIED (R305). -/
def execMeasureVerified (k : Fin 8) (chainOk identOk sigOk : Bool) (s : State) : Res :=
  s.atStep k.val .verify (if chainOk && identOk && sigOk then s.measured k.val else s.failLink k.val rsMeasureBad)

/-- MEASURE_CHANGED (R307, R315): a site under measurement is measured anew. -/
def execMeasureChanged (k : Fin 8) (s : State) : Res :=
  let again (s : State) : State := s.modSite k.val fun x => { x with remeas := true }
  atUnit (s.hasSite k.val)
    (match s.siteState k.val with
      | 2 =>
        if (s.site k.val).step = .measure ∨ (s.site k.val).step = .verify then
          (s.ev R.SITE_EVENT_REMEASURED k.val).remeasure k.val
        else s.ev R.SITE_EVENT_REMEASURED k.val
      | 3 => (s.ev R.SITE_EVENT_REMEASURED k.val).remeasure k.val
      | 4 => (again (s.ev R.SITE_EVENT_REMEASURED k.val)).unbindStart k.val none
      | 5 => again (s.ev R.SITE_EVENT_REMEASURED k.val)
      | _ => s)

/-! ## Frames (R281 to R288) -/

/-- A frame that fails its check: counted, and one NAK, in an idle frame, until the expected frame arrives (R282, R283, R286, R289). -/
def State.badFrame (s : State) (k j : Nat) : State :=
  let a := s.ap k j
  let s := (s.fadd R.SITE_APERR_REPLAYS k j 1).ev R.SITE_EVENT_REPLAY k
  if a.nakd then s else ((s.setAp k j { a with nakd := true }).pushOut (.tspNak k j (a.rx - 1))).idleFrame k j

/-- An accepted frame: its acknowledgement, which empties the replay buffer so far, its credits and its NAK; what the hub owes for it
goes back in the next frame, which is an idle one where nothing else moves (R282 to R285). -/
def State.goodFrame (s : State) (k j : Nat) (f : Frame) : State :=
  let a := s.ap k j
  let n := (f.ack + 1 - a.acked).toNat
  let fits := n ≤ (a.tx - a.acked).toNat
  let a := { a with rx := a.rx + 1, nakd := false, snpCr := a.snpCr + f.crSnp.toNat, ctlCr := a.ctlCr + f.crCtl.toNat,
                    reqOwed := a.reqOwed + b2n f.isReq, ctlOwed := a.ctlOwed + b2n f.isCtl }
  let a := if fits && n != 0 then { a with acked := f.ack + 1, resent := 0, buf := a.buf.drop n } else a
  let s := s.setAp k j a
  let s := if f.nak then s.apReplay k j else s
  let t := s.flushAp k j ((s.ap k j).queue.length + 1)
  if f.kind != 0 && (t.ap k j).tx == (s.ap k j).tx then t.idleFrame k j else t

/-- TSP_FRAME (R283, R286, R289): LINK names the attach point that takes the frame (R280). -/
def execTspFrame (k : Fin 8) (j : Fin 16) (f : Frame) (vcOk : Bool) (s : State) : Res :=
  atUnit (s.hasSite k.val)
    (if !s.apLive k.val j.val || (s.ap k.val j.val).retrain || f.link != (s.apFace k.val && j.val % 2 == 1) then s
    else if !f.crcOk || !vcOk || f.kind == 3 then s.badFrame k.val j.val
    else if f.seq = (s.ap k.val j.val).rx then s.goodFrame k.val j.val f
    else s)

/-- TSP_REPLAY_TIMEOUT (R284). -/
def execTspReplayTimeout (k : Fin 8) (j : Fin 16) (s : State) : Res :=
  atUnit (s.hasSite k.val)
    (if s.apLive k.val j.val && !(s.ap k.val j.val).retrain then s.apReplay k.val j.val else s)

/-- ATTACH_RETRAIN_DONE (R286). -/
def execAttachRetrainDone (k : Fin 8) (j : Fin 16) (ok : Bool) (s : State) : Res :=
  atUnit (s.hasSite k.val)
    (if !s.apLive k.val j.val || !(s.ap k.val j.val).retrain then s
    else if ok then
      (s.apGroup k.val j.val).foldl (fun s i =>
        (s.setAp k.val i { s.ap k.val i with retrain := false }).flushAp k.val i ((s.ap k.val i).queue.length + 1)) s
    else s.apDown k.val j.val)

/-! ## Requests (R289 to R293, R309, R310, R316, R318) -/

/-- The ops of a site's role (R217, R291, R299); an op that R201 lists nowhere goes on to the slice or controller, which answers it
(R197). -/
def siteOps (caching : Bool) (op : Op) : Bool :=
  match op with
  | .rdOnce | .wrThrough | .atomH | .memRd | .memWr | .atomM => true
  | .rdShared | .rdUnique | .upgrade | .wrBack | .evict => caching
  | .rsv c => decide (c.toNat < 0x18)
  | _ => false

/-- A site's state for a line that it writes back or drops (R217, R224). -/
def State.siteGives (s : State) (k : Nat) (p : Pkt) : State :=
  match p.op with
  | .wrBack => s.setSiteLine k p.line (.wb p.data p.poison)
  | .evict => s.setSiteLine k p.line .i
  | _ => s

/-- A REQ enters the mesh under its slot's CTX (R289). -/
def State.doReq (s : State) (k slot : Nat) (tag : BitVec 12) (ctx : BitVec 12) (p : Pkt) : State :=
  if !siteOps (s.fbit R.SITE_STAT_CACHING k 0) p.op then s.answerMsg k (.req slot tag p) 5
  else
    let (svc, s) := s.siteSvc k p.svc
    let atomic := p.op == .atomH || p.op == .atomM
    let s := s.fidEvent (stackHalf k) 4 k 0 (some (ctx.toNat / 512)) 1
    (s.siteGives k p).request { p with
      src := siteAgent k, ctx, svc, starve := false, mask := 0, hop := none, via := none, who := none, fwd := false, aop := if atomic then p.aop else 0 }
      (.site k tag slot) none

/-- A held request goes on once power allows (R316). -/
def State.replayHeld (k : Nat) (s : State) (m : SiteMsg) : State :=
  match m with
  | .req slot tag p => s.siteGate k slot tag m fun ctx s => s.doReq k slot tag ctx p
  | .sig slot tag c inc scope => s.siteGate k slot tag.tag m fun _ s => (s.cleatSvc k tag.svc).doSig k slot tag.tag c inc scope
  | .rd slot tag c => s.siteGate k slot tag.tag m fun _ s => (s.cleatSvc k tag.svc).doRd k slot tag.tag c
  | .watch slot tag c target scope tmo => 
    s.siteGate k slot tag.tag m fun _ s => (s.cleatSvc k tag.svc).doWatch k slot tag.tag c target scope tmo
  | .ctl _ _ _ => s

/-- SITE_REQUEST (R275, R289 to R292): the request enters at the router of its attach point. -/
def execSiteRequest (k : Fin 8) (j : Fin 16) (slot : Fin 16) (tag : BitVec 12) (p : Pkt) (s : State) : Res :=
  atUnit (s.hasSite k.val)
    (if !s.apLive k.val j.val || p.src != siteAgent k.val then s
    else
      let p := { p with ap := j.val }
      (s.siteGate k.val slot.val tag (.req slot.val tag p) fun ctx s => s.doReq k.val slot.val tag ctx p).sigsGo)

/-! ## Control messages (R294 to R298) -/

/-- What a CTL request of a site meets at its attach point (R309, R311). -/
def State.ctlGate (s : State) (k slot : Nat) (op : BitVec 8) (tag : BitVec 12) (go : BitVec 12 → State → State) : State :=
  let st := s.siteState k
  let no (s : State) (status : BitVec 3) : State := s.answerMsg k (.ctl slot op tag) status
  if st = 0 ∨ 5 < st then s
  else if st < 4 then no s 2
  else if st = 5 then s.modSite k fun x => { x with held := x.held ++ [.ctl slot op tag] }
  else
    match s.slotCtx k slot with
    | none => no (s.ev R.SITE_EVENT_BAD_SLOT k) 2
    | some ctx => go ctx s

/-- XlateRsp (R294): the covering entry's 16 bytes and a result. -/
def State.xlateRsp (s : State) (k : Nat) (tag : BitVec 12) (raw result : Nat) : State :=
  s.siteOut k (s.walkerOf (siteAgent k)) (.ctl k 0x58 tag (BitVec.ofNat 512 (raw + result * 2 ^ 128)))

/-- An Xlate (R295): the walker's cache, else a walk; a fault is held (R411). -/
def State.doXlate (s : State) (k slot : Nat) (tag : BitVec 12) (ctx : BitVec 12) (dva : Nat) : State :=
  let w := s.walkerOf (siteAgent k)
  match s.cached w ctx (dva / 0x10000) .any with
  | some e => (s.cacheEnt e).xlateRsp k tag e.raw.toNat 0
  | none =>
    match s.walk (siteAgent k) ctx dva .any with
    | .ok e raw => ((s.walked (siteAgent k) ctx dva).cacheEnt { e with owner := w }).xlateRsp k tag raw 0
    | .fault kind i => (s.walked (siteAgent k) ctx dva).xltFault (siteAgent k) ctx kind i dva none (.xlate k tag slot)

/-- XLATE (R295). -/
def execXlate (k : Fin 8) (slot : Fin 16) (tag : BitVec 12) (dva : Dva) (s : State) : Res :=
  atUnit (s.hasSite k.val) (s.ctlGate k.val slot.val 0x50 tag fun ctx s => s.doXlate k.val slot.val tag ctx dva.toNat)

/-- INV_ACK (R296, R420): the oldest XlateInv is acknowledged. -/
def execInvAck (k : Fin 8) (s : State) : Res :=
  atUnit (s.hasSite k.val)
    (match (s.site k.val).invals with
      | [] => s
      | id :: r => (s.modSite k.val fun x => { x with invals := r }).ackInval id)

/-- INV_TIMEOUT (R296, R312). -/
def execInvTimeout (k : Fin 8) (s : State) : Res :=
  atUnit (s.hasSite k.val) (if (s.site k.val).invals.isEmpty then s else s.sever k.val rsInvTmo)

/-- WORK_DONE (R297, R380): the command learns the result; an unbinding that waited for it goes on. -/
def State.workDone (s : State) (k : Nat) (wtag : BitVec 4) (status result : BitVec 8) : State :=
  match (s.site k).works.find? fun w => w.1 == wtag with
  | none => s
  | some w =>
    let s := s.modSite k fun x => { x with works := x.works.erase w }
    let s := match w.2 with
      | none => s
      | some id =>
        match s.run id with
        | none => s
        | some r =>
          if r.status.isSome then s
          else s.setRun { r.finish (if status = 0 then stOk else stWorkFailed) 0 with res := [BitVec.ofNat 64 result.toNat] }
    s.unbindGo k

def execWorkDone (k : Fin 8) (wtag : BitVec 4) (status result : BitVec 8) (s : State) : Res :=
  atUnit (s.hasSite k.val) (s.workDone k.val wtag status result)

/-- PUT_REQ (R298): TSP 1.2 alone has it (R299); a reserved RED or a length or address off its sectors is a bad field. -/
def execPutReq (k : Fin 8) (slot : Fin 16) (tag : BitVec 12) (dev : BitVec 5) (handle : BitVec 16) (offset : BitVec 40)
    (len : BitVec 24) (src : Dpa) (red : BitVec 2) (cached : Bool) (s : State) : Res :=
  atUnit (s.hasSite k.val) (s.ctlGate k.val slot.val 0x53 tag fun ctx s =>
    if s.siteMinor k.val < 2 ∨ red = 3 ∨ len.toNat % 32 ≠ 0 ∨ len = 0 ∨ offset.toNat % 32 ≠ 0 ∨ src.toNat % 32 ≠ 0 then
      s.answerMsg k.val (.ctl slot.val 0x53 tag) 5
    else
      let p := s.fget R.SITE_STAT_PART k.val 0
      let m := s.fab.serial
      let s := { s with fab := { s.fab with serial := m + 1 } }
      s.startPutFor { dev := dev.toNat, handle := handle.toNat, off := offset.toNat, len := len.toNat, srcAt := src.toNat,
                      red, cached, ctx, svc := BitVec.ofNat 3 (s.fget R.SITE_SVC_DEFAULT k.val 0), dtag := (s.part p).dtag,
                      owner := some (.site k.val tag), site := some (k.val, m) })

/-- SCRUB_DONE (R311). -/
def execScrubDone (k : Fin 8) (s : State) : Res :=
  atUnit (s.hasSite k.val) (if s.siteState k.val = 5 ∧ (s.site k.val).scrub then s.unbindEnd k.val else s)

/-- SCRUB_TIMEOUT (R311, R312). -/
def execScrubTimeout (k : Fin 8) (s : State) : Res :=
  atUnit (s.hasSite k.val) (if s.siteState k.val = 5 ∧ (s.site k.val).scrub then s.sever k.val rsScrubTmo else s)

/-! ## Power and control registers (R315, R316) -/

/-- One evaluation of a site's average draw (R316). -/
def State.powerSample (s : State) (k draw : Nat) : State :=
  let s := s.fset R.SITE_PWR_DRAW_W k 0 draw
  let x := s.site k
  let a := if s.allowance k < draw then x.overA + 1 else 0
  let l := if s.siteLimit k < draw then x.overL + 1 else 0
  let s := s.setSite k { x with overA := a, overL := l }
  if 100 ≤ l then s.sever k rsPowerOver
  else if 10 ≤ a then (s.ev R.SITE_EVENT_POWER_WARN k).modSite k fun x => { x with hold := true }
  else if a = 0 ∧ x.hold ∧ s.siteState k = 4 then s.releaseHeld k (State.replayHeld k)
  else if a = 0 then s.modSite k fun x => { x with hold := false }
  else s

/-- SITE_POWER_SAMPLE (R316): the operand is the latest average. -/
def execSitePowerSample (k : Fin 8) (draw : BitVec 12) (s : State) : Res :=
  atUnit (s.hasSite k.val) (if s.siteKind k.val = .cover then s else s.powerSample k.val draw.toNat)

/-- SITE_CTL.RESET (R315, R319): power leaves the face for 100 ms, after which R300 starts at step 1. -/
def State.ctlReset (s : State) (k : Nat) : State :=
  let st := s.siteState k
  if s.siteKind k = .cover then s
  else if st = 4 ∨ st = 5 then s.ev R.SITE_EVENT_CTL_REFUSED k
  else
    let s := ((s.setSiteState k 1).darken k).dropSiteLeave k false
    s.modSite k fun x => { x with step := .idle, powered := false, coolOff := true, hello := none, cache := [] }

/-- SITE_CTL.REMEASURE (R307, R315). -/
def State.ctlRemeasure (s : State) (k : Nat) : State :=
  let st := s.siteState k
  if st = 4 ∨ st = 5 then s.ev R.SITE_EVENT_CTL_REFUSED k
  else if st = 3 then s.remeasure k
  else s

/-- SITE_CTL_RESET. -/
def execSiteCtlReset (k : Fin 8) (path : Path) (s : State) : Res :=
  .next (s.regWrite path .site k.val 0x010 fun s => s.ctlReset k.val)

/-- SITE_CTL_REMEASURE. -/
def execSiteCtlRemeasure (k : Fin 8) (path : Path) (s : State) : Res :=
  .next (s.regWrite path .site k.val 0x010 fun s => s.ctlRemeasure k.val)

/-- A write of SITE_PWR (R303, R319, R434): a value above LIMIT_W is ignored; one that would bring the committed sum above PKG_W is
ignored with BASE_REFUSED; else it is staged to the next link-up. -/
def State.writeSitePwr (s : State) (k v : Nat) : State :=
  let old := s.fget R.SITE_PWR_BASE_W k 0
  let t := s.fset R.SITE_PWR_BASE_W k 0 v
  if s.siteLimit k < v then s
  else if s.fget R.PWR_LIMIT_PKG_W 0 0 < t.committed then s.ev R.PWR_EVENT_BASE_REFUSED 0
  else t.modSite k fun x => { x with baseOld := if x.baseOld.isSome then x.baseOld else some old }

/-- SITE_PWR_WRITE. -/
def execSitePwrWrite (k : Fin 8) (path : Path) (w : W32) (s : State) : Res :=
  .next (s.regWrite path .site k.val 0x044 fun s => s.writeSitePwr k.val (bitsOf w.toNat 11 0))

end Sys2Proof.Machine
end

