-- ==== Sys2Proof/Machine/Lanes.lean ====
section
/-! DEFINITION. Functions of the host ports as far as the windows need them (R492, R502 to R513), and the lanes of the command
windows: writes, sealing, back-pressure, flush and reset (R363 to R376, R394 to R398). -/

namespace Sys2Proof.Machine

/-! ## Windows -/

/-- Windows take writes: bring-up is done and the function is not silent (R466, R492, R513); alarm level 3 closes every BAR
(R481). -/
def State.winOpen (s : State) (win : Nat) : Bool := s.fbit R.PCI_SENTINEL_READY 0 0 && !s.fnSilent win && !s.sec.halted

/-! ## Lanes -/

def laneSize (w : Win) : Nat := if w.fn.val = 0 then 0x1000 else 0x4000
def laneIdx (w : Win) (lane : Nat) : Nat := w.idx * 4 + lane

/-- n bytes of a ring from an offset, as a number. -/
def ringRead (l : Lane) (size off n : Nat) : Nat :=
  ((List.range n).map fun i => (memByte l.ring ((off + i) % size)).toNat * 2 ^ (8 * i)).foldl (· + ·) 0

def ringBytes (l : Lane) (size off n : Nat) : List (BitVec 8) := (List.range n).map fun i => memByte l.ring ((off + i) % size)

/-- Free room (R372). -/
def Lane.free (l : Lane) (w : Win) : Nat := laneSize w - l.full

/-- A write of n bytes at an offset touches sealed bytes not yet read (R373). -/
def Lane.touches (l : Lane) (size off n : Nat) : Bool :=
  (List.range n).any fun i => ((off + i) % size + size - l.h) % size < l.full

/-- The lane takes no write: OVERFLOW faulted (R376), or a reset waits for running commands (R395). -/
def Lane.shut (l : Lane) : Bool := l.fault == 1 || l.rst.isSome

/-- The header at E: SEQ and LEN. -/
def Lane.hdr (l : Lane) (size : Nat) : Nat × Nat :=
  let v := ringRead l size l.e 8
  (bitsOf v 47 32, bitsOf v 16 8)

/-- PACKET_SEAL (R369, R370): what a write that has just been performed means at the sealed end. -/
def State.sealCheck (s : State) (w : Win) (lane off : Nat) (data : List (BitVec 8)) : State :=
  let i := laneIdx w lane
  let l := s.lane i
  let size := laneSize w
  let n := data.length
  let covers (p : Nat) : Bool := (p + size - off) % size < n
  let (seq, len) := l.hdr size
  let pos := (l.e + 8 * len + size - 8) % size
  let word := ringRead l size pos 8
  if l.fault ≠ 0 then s
  else if len < 5 then
    if seq = l.x.toNat ∧ (List.range 8).any fun j => covers ((l.e + j) % size) then
      (s.setLane i { l with fault := 2 }).evWin R.CMD_WEVENT_BAD_LEN w.idx
    else s
  else if off = pos ∧ n = 8 ∧ seq = l.x.toNat ∧ bitsOf word 15 0 = l.x.toNat ∧ bitsOf word 31 16 = len ∧ bitsOf word 39 32 = 0xA5 then
    let s := { s with cmds := { s.cmds with seals := s.cmds.seals + 1 } }
    s.setLane i { l with e := (l.e + 8 * len) % size, full := l.full + 8 * len, x := l.x + 1,
                         sealed := l.sealed ++ [(8 * len, s.cmds.seals, s.fab.serial)] }
  else if covers ((pos + 4) % size) && bitsOf word 39 32 == 0xA5 then s.evWin R.CMD_WEVENT_SEAL_MISMATCH w.idx
  else s

/-- Performs a write (R369). -/
def State.lanePut (s : State) (w : Win) (lane off : Nat) (data : List (BitVec 8)) : State :=
  let i := laneIdx w lane
  let l := s.lane i
  if l.shut then s
  else
    let ring := (data.zipIdx).foldl (fun m (b, j) => memSet m ((off + j) % laneSize w) b) l.ring
    (s.setLane i { l with ring }).sealCheck w lane off data

def State.setHeldAt (s : State) (p : Port) (l : List HeldAcc) : State :=
  match p with
  | .w => { s with cmds := { s.cmds with heldW := l } }
  | .e => { s with cmds := { s.cmds with heldE := l } }

/-- The write is into a full lane (R373). -/
def State.laneFull (s : State) (w : Win) (lane off n : Nat) : Bool :=
  let l := s.lane (laneIdx w lane)
  !l.shut && l.touches (laneSize w) off n

/-! ## Stopped commands and fault records (R393, R413) -/

/-- The PUTs of a stopped command send nothing more (R393). -/
def State.cutPuts (s : State) (id : Nat) : State :=
  let s := { s with lan := { s.lan with waitPut := s.lan.waitPut.filter fun (t : Tracker) => t.owner != some (PutOwner.cmd id) } }
  s.lan.trackers.foldl (fun (s : State) (e : Nat × Tracker) =>
    if e.2.owner = some (PutOwner.cmd id) ∧ !e.2.isGet then
      (s.setTracker e.1 { s.tracker e.1 with len := min (s.tracker e.1).len (s.tracker e.1).sent }).checkTracker e.1
    else s) s

/-- A command that stops with a status (R393): a DISPATCH's tiles stop as R149 says, its leave returns; what the command has held
for translation is dropped (R415); the first status decides. -/
def State.haltRun (s : State) (id : Nat) (st : BitVec 8) (detail : Nat) : State :=
  match s.run id with
  | none => s
  | some r =>
    match r.status with
    | some _ => s
    | none =>
      let s := (s.setRun { r.finish st detail with stopped := true, left := 0 }).stopDispatch id
      let s := if r.leave then (s.returnLeave (.cmd id)).setRun { (r.finish st detail) with stopped := true, left := 0, leave := false } else s
      (s.dropHeld fun h => h.cmd == some id).cutPuts id

/-- A held request is made again (R413). -/
def State.reissue (s : State) (h : XHeld) : State :=
  match h.what with
  | .accs l => s.issueAccs h.cmd l
  | .xlate k tag slot => s.doXlate k slot tag h.ctx h.dva.toNat
  | .tileRead t => s.tileGo t

/-- Frees a valid record of a window; the requests that it held. -/
def State.openRecord (s : State) (w p r : Nat) : List XHeld × State :=
  let mine (h : XHeld) : Bool := h.part == p && h.rcd == some r
  (s.xlt.held.filter mine,
    { s with xlt := { s.xlt with held := s.xlt.held.filter fun h => !mine h } }.dropRecord w p r)

/-- A RETRY of record r (R413). -/
def State.retryRecord (w p : Nat) (s : State) (r : Nat) : State :=
  if !s.fbit R.XLT_FREC_VALID w r then s
  else
    let (hs, s) := s.openRecord w p r
    let s := hs.foldl (fun s h => s.dropWalker h.agent h.ctx (h.dva.toNat / 0x10000)) s
    hs.foldl State.reissue s

/-- A held request is cancelled (R413). -/
def State.cancelHeld (s : State) (h : XHeld) : State :=
  let s := match h.what with | .xlate k tag _ => s.xlateRsp k tag 0 h.kind | _ => s
  match h.cmd with
  | none => s
  | some id => s.haltRun id stXlateCancelled 0

/-- A CANCEL of record r (R413). -/
def State.cancelRecord (w p : Nat) (s : State) (r : Nat) : State :=
  if !s.fbit R.XLT_FREC_VALID w r then s
  else
    let (hs, s) := s.openRecord w p r
    hs.foldl State.cancelHeld s

/-- The records that a word of XLT_RETRY or XLT_CANCEL names, in order. -/
def namedRecords (w : W32) : List Nat := (List.range 32).filter fun r => w.toNat.testBit r

/-- A write of XLT_RETRY, or of XLT_CANCEL, is performed (R413). -/
def State.doRecords (s : State) (w : Win) (retry : Bool) (v : W32) : State :=
  match s.partOfWin w with
  | none => s
  | some p => (namedRecords v).foldl ((if retry then State.retryRecord else State.cancelRecord) w.idx p) s

/-! ## Apertures (R421, R251, R504) -/

/-- Completer Abort of a read; writes are only discarded (R421). -/
def State.apRefuse (s : State) (win : Nat) (read : Bool) : State :=
  if read then (s.pushOut (.cplAbort win)).aerErr win aerCa true else s

/-- The sectors of n bytes from a DVA: their DVAs. -/
def sectorsOf (dva n : Nat) : List Nat := (List.range ((dva + n - 1) / 32 - dva / 32 + 1)).map fun i => dva / 32 * 32 + 32 * i

/-- The DPA of each sector of an aperture access, or the first fault. -/
def State.apDpas (s : State) (m : Agent) (ctx : BitVec 12) (need : Need) : List Nat → Except (Nat × Nat × Nat) (List Nat) × State
  | [] => (.ok [], s)
  | d :: r =>
    match s.translate m ctx d need with
    | (.fault k i, s) => (.error (k, i, d), s)
    | (.dpa a, s) =>
      match s.apDpas m ctx need r with
      | (.ok l, s) => (.ok (a :: l), s)
      | e => e

/-- The sector write of an aperture access: the bytes of it that lie in the sector. -/
def apWrite (m : Agent) (ctx : BitVec 12) (svc : BitVec 3) (dva0 win : Nat) (data : List (BitVec 8)) (poisoned : Bool) (mark d : Nat) : DvaAcc :=
  let bytes := (List.range 32).filterMap fun j => if dva0 ≤ d + j then (data[d + j - dva0]?).map fun b => (j, b) else none
  let mask := (bytes.map fun e => 2 ^ e.1).foldl (· + ·) 0
  let v := (bytes.map fun e => e.2.toNat * 2 ^ (8 * e.1)).foldl (· + ·) 0
  ⟨m, ctx, svc, BitVec.ofNat 52 d, .wrThrough, BitVec.ofNat 32 mask, mask != fullMask, poisoned, BitVec.ofNat 256 v, .apWr win mark⟩

/-- The DVA of an offset in an aperture (R364). -/
def State.apDva (s : State) (win n off : Nat) : Nat :=
  s.fget R.XLT_AP_LO_APBASE_LO win n * 2 ^ 16 + s.fget R.XLT_AP_HI_APBASE_HI win n * 2 ^ 32 + off

/-- An access of an aperture that cannot be made (R421). -/
def State.apNo (s : State) (win : Nat) (read : Bool) : State := (s.fset R.XLT_FEVENT_APERTURE win 0 1).apRefuse win read

/-- The port of a posted write's request, with the write's number. -/
def Purpose.posted (p : Purpose) : Option (Nat × Nat) := match p with | .apWr w m => some (w / 9, m) | _ => none

/-- A posted write of a port has requests outstanding. -/
def State.postOut (s : State) (port : Nat) : Bool :=
  let mine (p : Purpose) : Bool := (p.posted.map Prod.fst) == some port
  (s.fab.regq.any fun x => mine x.purp) || s.fab.txs.any fun x => mine x.purp

/-- The port performs its posted writes in order, up to one whose requests are outstanding; fuel bounds the list (R251). -/
def State.postsGo (s : State) (port : Nat) : Nat → State
  | 0 => s
  | fuel + 1 =>
    if s.postOut port then s
    else
      match s.ports.posted.find? fun q => q.win / 9 == port with
      | none => s
      | some q =>
        let s := { s with ports := { s.ports with posted := s.ports.posted.erase q } }
        let s := q.accs.foldl (fun s e => s.sendAcc e.1 e.2) s
        (match q.recs with | none => s | some (retry, v) => s.doRecords (winOf q.win) retry v).postsGo port fuel

def State.postGo (s : State) (port : Nat) : State := s.postsGo port s.ports.posted.length

/-- A posted write of a port before number `mark` is not performed (R251, R263). -/
def State.postsBefore (s : State) (port mark : Nat) : Bool :=
  let before (p : Purpose) : Bool := match p.posted with | some (w, m) => w == port && m < mark | none => false
  (s.ports.posted.any fun q => q.win / 9 == port && q.mark < mark)
    || (s.fab.regq.any fun x => before x.purp) || s.fab.txs.any fun x => before x.purp

/-- The writes of an aperture access, a sector each, join the posted writes of the port; `ds` holds the sectors' DVAs and DPAs (R251,
R421). -/
def State.apWrites (s : State) (m : Agent) (ctx : BitVec 12) (svc : BitVec 3) (dva win : Nat) (data : List (BitVec 8)) (poisoned : Bool)
    (ds : List (Nat × Nat)) : State :=
  let n := s.fab.serial
  let q : Posted := ⟨win, n, ds.map fun e => (apWrite m ctx svc dva win data poisoned n e.1, e.2), none⟩
  State.postGo { s with fab := { s.fab with serial := n + 1 }, ports := { s.ports with posted := s.ports.posted ++ [q] } } (win / 9)

/-- A write of XLT_RETRY or XLT_CANCEL joins the posted writes of the port: it is performed after those before it (R251, R414). -/
def State.postRecords (s : State) (w : Win) (retry : Bool) (v : W32) : State :=
  let n := s.fab.serial
  State.postGo { s with fab := { s.fab with serial := n + 1 },
                        ports := { s.ports with posted := s.ports.posted ++ [⟨w.idx, n, [], some (retry, v)⟩] } } w.port.num

/-- The reads of an aperture access, a sector each (R421, R504). -/
def State.apReads (s : State) (m : Agent) (ctx : BitVec 12) (svc : BitVec 3) (dva win len : Nat) (ds : List (Nat × Nat)) : State :=
  let id := s.ports.readCtr
  let r : HostRead := ⟨id, win, s.fab.serial, dva % 32, len, ds.length, [], false, false⟩
  let s := { s with ports := { s.ports with readCtr := id + 1, reads := s.ports.reads ++ [r] } }
  (ds.zipIdx).foldl (fun s e =>
    s.sendAcc ⟨m, ctx, svc, BitVec.ofNat 52 e.1.1, .rdOnce, 0, false, false, 0, .apRd id e.2⟩ e.1.2) s

/-- An access of aperture n of a function at an offset (R421). -/
def State.apAccess (s : State) (w : Win) (n off : Nat) (write : Option (List (BitVec 8))) (len : Nat) (poisoned : Bool) : State :=
  let m : Agent := ⟨.port, w.port.num⟩
  match s.partOfWin w with
  | none => s.apRefuse w.idx write.isNone
  | some p =>
    if !s.fbit R.XLT_AP_LO_EN w.idx n then s.apNo w.idx write.isNone
    else
      let ctx := BitVec.ofNat 12 (s.fget R.XLT_AP_HI_CTX w.idx n)
      let svc := BitVec.ofNat 3 (s.fget R.HUB_SVCPART_APERTURE 0 p)
      let ds := sectorsOf (s.apDva w.idx n off) len
      match s.apDpas m ctx (if write.isNone then .read else .write) ds with
      | (.error (k, i, d), s') => (s'.xltFaultLoose m ctx k i d).apNo w.idx write.isNone
      | (.ok as, s') =>
        match write with
        | some data => s'.apWrites m ctx svc (s.apDva w.idx n off) w.idx data poisoned (ds.zip as)
        | none => s'.apReads m ctx svc (s.apDva w.idx n off) w.idx len (ds.zip as)

/-- A read whose data has all come and whose earlier writes at the port have been performed completes (R251, R504). -/
def State.readReady (s : State) (r : HostRead) : Bool :=
  r.left == 0 && !s.postsBefore (r.win / 9) r.mark

def State.readsGo (s : State) : State :=
  s.ports.reads.foldl (fun s r =>
    if !s.readReady r then s
    else
      let s := { s with ports := { s.ports with reads := s.ports.reads.filter fun x => x.id != r.id } }
      if r.failed then (s.fset R.XLT_FEVENT_APERTURE r.win 0 1).apRefuse r.win true
      else
        let sec (i : Nat) : BitVec 256 := ((r.got.find? fun e => e.1 == i).map (·.2)).getD 0
        let data := (List.range r.len).map fun j => BitVec.ofNat 8 ((sec ((r.off + j) / 32)).toNat >>> (8 * ((r.off + j) % 32)))
        let s := if r.poison then s.evPci R.PCI_EVENT_POISON_OUT else s
        s.pushOut (.cplData r.win data r.poison)) s

/-- One sector of an aperture read has come. -/
def State.apSector (s : State) (id i : Nat) (status : BitVec 3) (d : BitVec 256) (poison : Bool) : State :=
  State.readsGo { s with ports := { s.ports with reads := s.ports.reads.map fun (r : HostRead) =>
    if r.id = id then
      { r with left := r.left - 1, got := r.got ++ [(i, d)], poison := r.poison || (poison && status == 0), failed := r.failed || status != 0 }
    else r } }

/-- Requests of an aperture read are answered to nobody. -/
def quietRead (id : Nat) (p : Purpose) : Purpose := match p with | .apRd i _ => if i = id then .quiet else p | _ => p

/-- An outstanding aperture read is given up. -/
def State.giveUpRead (s : State) (id : Nat) : State :=
  { s with
    ports := { s.ports with reads := s.ports.reads.filter fun r => r.id != id }
    fab := { s.fab with
      txs := s.fab.txs.map fun (t : Tx) => { t with purp := quietRead id t.purp }
      regq := s.fab.regq.map fun (x : HeldTx) => { x with purp := quietRead id x.purp } } }

/-- The accesses of a function that is silenced go no further (R466, R505): its posted writes that are not in the mesh are discarded, and
its reads given up; `tell` refuses them. -/
def State.cutAccesses (s : State) (w : Win) (tell : Bool) : State :=
  let mine (p : Purpose) : Bool := match p with | .apWr v _ => v == w.idx | _ => false
  let s := { s with
    ports := { s.ports with posted := s.ports.posted.filter fun q => q.win != w.idx }
    fab := { s.fab with regq := s.fab.regq.filter fun x => !mine x.purp } }
  let rs := s.ports.reads.filter fun r => r.win == w.idx
  let s := rs.foldl (fun s r => let s := s.giveUpRead r.id; if tell then s.apRefuse w.idx true else s) s
  (s.postGo w.port.num).readsGo

/-! ## Port order (R374) -/

/-- Performs what a port holds, in order, up to a write that still touches a full lane; fuel bounds the list. -/
def State.retryHeld (s : State) (p : Port) : Nat → State
  | 0 => s
  | fuel + 1 =>
    match s.heldAt p with
    | [] => s
    | .lane w lane off data :: r =>
      if s.laneFull w lane off data.length then s
      else ((s.setHeldAt p r).lanePut w lane off data).retryHeld p fuel
    | .aper w n off wr len pz :: r => ((s.setHeldAt p r).apAccess w n off wr len pz).retryHeld p fuel

def State.retryPort (s : State) (p : Port) : State := s.retryHeld p ((s.heldAt p).length)

/-- A poisoned TLP (R502, R504). -/
def State.poisonIn (s : State) (win : Nat) : State := (s.evPci R.PCI_EVENT_POISON_IN).aerErr win aerPoisoned false

/-- LANE_WRITE (R373). -/
def execLaneWrite (w : Win) (lane : Fin 4) (off : BitVec 14) (data : List (BitVec 8)) (poisoned : Bool) (s : State) : Res :=
  .next
    (if !s.fnThere w.idx || laneSize w < off.toNat + data.length then s
    else if s.inD3 w.idx then s.barUr w.idx false
    else if poisoned then s.poisonIn w.idx
    else if !s.winOpen w.idx then s
    else if !(s.heldAt w.port).isEmpty || s.laneFull w lane.val off.toNat data.length then
      s.setHeldAt w.port (s.heldAt w.port ++ [.lane w lane.val off.toNat data])
    else s.lanePut w lane.val off.toNat data)

/-- HOST_APERTURE_ACCESS (R421, R466, R492, R504). -/
def execHostApertureAccess (w : Win) (n : Fin 4) (off : BitVec 34) (write : Option (List (BitVec 8))) (len : Nat) (poisoned : Bool)
    (s : State) : Res :=
  .next
    (if w.fn.val = 0 ∨ !s.fnThere w.idx then s
    else if s.inD3 w.idx then s.barUr w.idx write.isNone
    else
      let s := if poisoned then s.poisonIn w.idx else s
      if !s.winOpen w.idx then s.apRefuse w.idx write.isNone
      else if !(s.heldAt w.port).isEmpty then
        s.setHeldAt w.port (s.heldAt w.port ++ [.aper w n.val off.toNat write len poisoned])
      else s.apAccess w n.val off.toNat write len poisoned)

/-- The sequencer that serves a window runs (R366). -/
def State.pseqUp (s : State) (w : Win) : Bool := s.halfLive (s.portHalf w.port)

/-- A CLEAT_WAIT of the lane has not completed (R383). -/
def State.laneGated (s : State) (w : Win) (lane : Nat) : Bool :=
  s.cmds.runs.any fun r => !r.halyard && r.win == w && r.lane == lane && pktOpcode r.bytes == 0x83 && r.status.isNone

/-- PACKET_READ (R372): the sequencer reads the lane's next sealed packet once it has no head there and no CLEAT_WAIT gates the
lane; its bytes are free. -/
def State.packetRead (s : State) (w : Win) (lane : Nat) : State :=
  let i := laneIdx w lane
  let l := s.lane i
  match l.sealed with
  | [] => s
  | (n, order, mark) :: r =>
    if !s.pseqUp w || !l.heads.isEmpty || s.laneGated w lane then s
    else
      let size := laneSize w
      (s.setLane i { l with h := (l.h + n) % size, full := l.full - n, sealed := r,
                            heads := [⟨ringBytes l size l.h n, order, mark, s.tally⟩] }).retryPort w.port

def execPacketRead (w : Win) (lane : Fin 4) (s : State) : Res := .next (s.packetRead w lane.val)

/-! ## Flush and reset (R394 to R396) -/

/-- A run without a start, ended with a status: its reply record follows, unless it is mute. -/
def deadRun (w : Win) (lane : Nat) (p : Packet) (st : BitVec 8) (detail : Nat) (mute : Bool) : Run :=
  { (mkRun w lane p).finish st detail with body := true, mute := mute }

/-- Discards the packets of a lane sealed at or before a count of seals (R394). -/
def State.discard (s : State) (w : Win) (lane upTo detail : Nat) (mute : Bool) : State :=
  let i := laneIdx w lane
  let l := s.lane i
  let size := laneSize w
  let gone := l.sealed.filter fun e => e.2.1 ≤ upTo
  let rest := l.sealed.filter fun e => upTo < e.2.1
  let bytes := (gone.map (·.1)).foldl (· + ·) 0
  let offs := gone.foldl (fun (acc : List Packet × Nat) e => (acc.1 ++ [⟨ringBytes l size acc.2 e.1, e.2.1, e.2.2, s.tally⟩], (acc.2 + e.1) % size)) ([], l.h)
  let heads := l.heads.filter fun p => p.order ≤ upTo
  let s := heads.foldl (fun s p => s.unqueueLeave (.cmd p.order) false) s
  let s := heads.foldl (fun s p => s.returnLeave (.cmd p.order)) s
  let s := s.setLane i { s.lane i with
    h := (l.h + bytes) % size, full := l.full - bytes, sealed := rest, heads := l.heads.filter fun p => upTo < p.order }
  { s with cmds := { s.cmds with runs := s.cmds.runs ++ (heads ++ offs.1).map fun p => deadRun w lane p stFlushed detail mute } }

/-- LANE_FLUSH_EFFECT (R394): at the packet boundary. -/
def State.flushEffect (s : State) (w : Win) (lane : Nat) (mute : Bool) : State :=
  let i := laneIdx w lane
  match (s.lane i).flush with
  | none => s
  | some (abort, cause, upTo) =>
    let s := s.setLane i { s.lane i with flush := none }
    let s := s.discard w lane upTo cause mute
    let mine := s.cmds.runs.filter fun r => !r.halyard && r.win == w && r.lane == lane && r.status.isNone
    let s := if abort then mine.foldl (fun s r =>
        let s := s.haltRun r.id stFlushed cause
        if mute then (match s.run r.id with | none => s | some x => s.setRun { x with mute := true }) else s) s else s
    (s.evWin R.CMD_WEVENT_FLUSH_DONE w.idx).retryPort w.port

def execLaneFlushEffect (w : Win) (lane : Fin 4) (s : State) : Res := .next (s.flushEffect w lane.val false)

/-- A flush arrives (R394): ABORT, and the cause coded as DETAIL of FLUSHED; one that still waits takes it in. -/
def State.flushLane (s : State) (w : Win) (lane : Nat) (abort : Bool) (cause : Nat) : State :=
  let i := laneIdx w lane
  let l := s.lane i
  let a := match l.flush with | some (b, _, _) => abort || b | none => abort
  s.setLane i { l with flush := some (a, cause, s.cmds.seals) }

/-- LANE_RESET takes effect (R395): unstarted packets go without reply records; a flush that waits still takes effect (R394). -/
def State.resetLane (s : State) (w : Win) (lane : Nat) (x : BitVec 16) : State :=
  let i := laneIdx w lane
  let l := s.lane i
  let s := l.heads.foldl (fun s p => (s.unqueueLeave (.cmd p.order) false).returnLeave (.cmd p.order)) s
  (s.setLane i { ring := l.ring, x := x, flush := l.flush }).retryPort w.port

/-- Running commands of a lane. -/
def State.laneRuns (s : State) (w : Win) (lane : Nat) : Nat :=
  (s.cmds.runs.filter fun r => !r.halyard && r.win == w && r.lane == lane && !r.replied).length

/-- A reset that an FLR orders (R395, R396): at once, or once its running commands have completed. -/
def State.orderReset (s : State) (w : Win) (lane : Nat) : State :=
  if s.laneRuns w lane = 0 then s.resetLane w lane 0
  else s.setLane (laneIdx w lane) { s.lane (laneIdx w lane) with rst := some 0 }


/-- The fields of PCI_FLRSTAT of a port: its virtual functions and its physical function (R520). -/
def flrVf (p : Port) : Fld := match p with | .w => R.PCI_FLRSTAT_VFW | .e => R.PCI_FLRSTAT_VFE
def flrPf (p : Port) : Fld := match p with | .w => R.PCI_FLRSTAT_PFW | .e => R.PCI_FLRSTAT_PFE

/-- The reset of a physical function completes once every control lane has been reset and the last of its virtual functions'
resets has completed (R507). -/
def State.pfDone (s : State) (p : Port) : State :=
  if s.ports.pfWait.contains p.num && s.fget (flrVf p) 0 0 == 0
      && (List.range 4).all fun l => (s.lane (laneIdx ⟨p, 0⟩ l)).rst.isNone then
    ({ s with ports := { s.ports with pfWait := s.ports.pfWait.filter (· != p.num) } }).fset (flrPf p) 0 0 0
  else s

/-- Lanes whose ordered reset waited for their last command are reset. -/
def State.laneResets (s : State) (w : Win) : State :=
  ((List.range 4).foldl (fun s l =>
    match (s.lane (laneIdx w l)).rst with
    | some x => if s.laneRuns w l = 0 then s.resetLane w l x else s
    | none => s) s).pfDone w.port

/-- A write of CMD_WCTL (R394, R395, R397). -/
def State.writeWctl (s : State) (w : Win) (v : W32) : State :=
  let n := v.toNat
  let s := (s.fset R.CMD_WCTL_ABORT w.idx 0 (bitsOf n 4 4)).fset R.CMD_WCTL_RSEQ w.idx 0 (bitsOf n 31 16)
  let s := (List.range 4).foldl (fun s l => if n.testBit l then s.flushLane w l (n.testBit 4) 1 else s) s
  (List.range 4).foldl (fun s l =>
    if n.testBit (8 + l) && s.laneRuns w l == 0 then s.resetLane w l (BitVec.ofNat 16 (n / 65536)) else s) s

/-- The window's function takes register writes of its own block (R397, R466, R492). -/
def State.wreg (s : State) (w : Win) (k : State → State) : State :=
  if !s.fnThere w.idx then s
  else if s.inD3 w.idx then s.barUr w.idx false
  else if !s.winOpen w.idx || !(s.heldAt w.port).isEmpty then s
  else k s

/-- LANE_FLUSH (R394): a write of CMD_WCTL. -/
def execLaneFlush (w : Win) (v : W32) (s : State) : Res := .next (s.wreg w fun s => s.writeWctl w v)

/-- LANE_RESET (R395): a write of CMD_WCTL. -/
def execLaneReset (w : Win) (v : W32) (s : State) : Res := .next (s.wreg w fun s => s.writeWctl w v)

/-- OVERFLOW_GUARD (R376): the oldest held write at the port has waited OVF_US for this lane. -/
def State.overflow (s : State) (w : Win) (lane : Nat) : State :=
  let mine (h : HeldAcc) : Bool := match h with | .lane v l _ _ => v == w && l == lane | .aper _ _ _ _ _ _ => false
  match s.heldAt w.port with
  | [] => s
  | h :: r =>
    if !mine h then s
    else
      let s := (List.range 4).foldl (fun s l => s.flushLane w l false 2) s
      let s := s.setLane (laneIdx w lane) { s.lane (laneIdx w lane) with fault := 1 }
      let s := s.setHeldAt w.port (r.filter fun x => !mine x)
      let s := (s.evWin R.CMD_WEVENT_OVERFLOW w.idx)
      let s := (s.fset R.CMD_EVENT_PORT 0 0 w.port.num).fset R.CMD_EVENT_CONTROL 0 0 (b2n (w.fn.val == 0))
      let s := s.fset R.CMD_EVENT_FUNC 0 0 (w.fn.val - 1)
      (s.ev R.CMD_EVENT_OVF_GUARD 0).retryPort w.port

def execOverflowGuard (w : Win) (lane : Fin 4) (s : State) : Res := .next (s.overflow w lane.val)

/-- A write of CMD_XFLUSH (R398): a physical function names its own port, a management core the port of PORT. -/
def State.writeXflush (s : State) (path : Path) (v : W32) : State :=
  let n := v.toNat
  let s := (s.fset R.CMD_XFLUSH_FUNC 0 0 (bitsOf n 2 0)).fset R.CMD_XFLUSH_LANES 0 0 (bitsOf n 6 3)
  let s := (s.fset R.CMD_XFLUSH_ABORT 0 0 (bitsOf n 7 7)).fset R.CMD_XFLUSH_PORT 0 0 (bitsOf n 8 8)
  if n.testBit 31 then
    let port : Port := match path with
      | .portW => .w
      | .portE => .e
      | _ => if n.testBit 8 then .e else .w
    let w : Win := ⟨port, ⟨bitsOf n 2 0 % 8 + 1, by omega⟩⟩
    (List.range 4).foldl (fun s l => if n.testBit (3 + l) then s.flushLane w l (n.testBit 7) 1 else s) s
  else s

/-- CMD_XFLUSH (R398). -/
def execCmdXflush (path : Path) (v : W32) (s : State) : Res := .next (s.regWrite path .cmdDev 0 8 fun s => s.writeXflush path v)

end Sys2Proof.Machine
end

