-- ==== Sys2Proof/Machine/Commands.lean ====
section
/-! DEFINITION. Command packets (09_commands.md): the opcodes and their checks (R377, R378), the start of a lane's head (R263, R385,
R386, R438), and what every command shares at its end (R390 to R393). -/

namespace Sys2Proof.Machine

/-! ## Opcodes and checks -/

/-- The opcodes of R377: code, windows that accept it (1 partition, 2 control, 3 both), length in words, 0 where the record count of
the body gives it. -/
def opTable : List (Nat × Nat × Nat) :=
  [(0x01, 1, 9), (0x02, 1, 7), (0x41, 1, 9), (0x42, 1, 9), (0x43, 1, 10), (0x44, 1, 10), (0x45, 1, 10), (0x46, 1, 6), (0x47, 1, 8),
   (0x80, 3, 5), (0x81, 1, 7), (0x82, 1, 7), (0x83, 1, 7), (0x84, 1, 0), (0xC1, 2, 8), (0xC2, 2, 0), (0xC3, 2, 6), (0xC4, 1, 7),
   (0xC5, 2, 22), (0xC6, 2, 6), (0xC7, 1, 11), (0xC8, 3, 6), (0xC9, 2, 6), (0xCA, 2, 6)]

/-- A control command, which the West management core runs (R377). -/
def isControl (op : Nat) : Bool := 0xC1 ≤ op && op ≤ 0xCA

/-- A status that a check gives, with its DETAIL (R392, R631). -/
abbrev Fail := BitVec 8 × Nat

def failIf (b : Bool) (st : BitVec 8) (detail : Nat) : Option Fail := if b then some (st, detail) else none

/-- The first failing check. -/
def firstFail (l : List (Option Fail)) : Option Fail := l.findSome? id

/-- LEN against the opcode's length; a count out of its range or against LEN names the count (R377). -/
def lenFail (b : List (BitVec 8)) (n : Nat) : Option Fail :=
  if n ≠ 0 then failIf (pktLen b != n) stBadField 1
  else if pktOpcode b = 0x84 then
    let c := pktField b 32 2
    failIf (c == 0 || 168 < c || pktLen b != 6 + 3 * c) stBadField 32
  else
    let c := pktField b 34 2
    failIf (505 < c || pktLen b != 6 + c) stBadField 34

/-- Life-cycle states take control commands as R482 says: Blank NOP and QUERY alone, End of life none. -/
def State.lcBars (s : State) (op : Nat) : Bool :=
  match s.fget R.SEC_LC_STATE 0 0 with
  | 0 => op != 0x80 && op != 0xC8
  | 3 => isControl op
  | _ => false

/-- A context is valid (R401). -/
def State.ctxValid (s : State) (ctx : Nat) : Bool := (tget (fun _ => none) s.xlt.tables ctx).isSome

/-- Commands that make accesses through the context of their header; the others need only its owner (R378, R401). -/
def usesCtx (op : Nat) : Bool := [0x01, 0x41, 0x42, 0x43, 0x44, 0xC7].contains op

/-- Checks of the header (R377, R378, R99). POLICY 4 to 7 is refused on a DISPATCH; on any other command it is a field that the
opcode does not use and is ignored (R367; DESIGN CHOICE: R99 speaks of a command; log 36). -/
def State.headerFail (s : State) (w : Win) (b : List (BitVec 8)) : Option Fail :=
  let op := pktOpcode b
  let inPart := w.fn.val != 0
  let part := (s.partOfWin w).getD 8
  match opTable.find? fun r => r.1 == op with
  | none => if pktOrder b = 3 then some (stBadField, 6) else some (stBadOpcode, 0)
  | some (_, wins, n) =>
    firstFail [
      failIf (pktOrder b == 3) stBadField 6,
      failIf (!wins.testBit (if inPart then 0 else 1) || s.lcBars op) stNotPermitted 0,
      lenFail b n,
      failIf (inPart && (pktCtx b / 512 != part || (usesCtx op && !s.ctxValid (pktCtx b)))) stCtxOwner 16,
      failIf (inPart && pktRcen b && s.cleatOwner (pktRcleat b) != some part) stCleatOwner (pktRcleat b),
      failIf (op == 1 && 3 < pktPolicy b) stBadField 6]

/-- A DVA of a body. -/
def pktDva (b : List (BitVec 8)) (o : Nat) : Nat := pktField b o 8 % 2 ^ 52

/-- A field of a body that is not a multiple of 32 (R379, R381). -/
def unaligned (b : List (BitVec 8)) (o n : Nat) : Option Fail := failIf (pktField b o n % 32 != 0) stBadField o

/-- A length outside its range or not of whole sectors (R381). -/
def badLen (o n top : Nat) : Option Fail := failIf (n % 32 != 0 || n == 0 || top < n) stBadField o

/-- A half that a command cannot reach: in reset, or behind a closed Splice (R37, R379). -/
def State.unreached (s : State) (w : Win) (h : Half) : Bool := !s.halfLive h || (h != s.portHalf w.port && !s.spliceOpen)

/-- The charge of a DISPATCH, and the charges of the partition's running ones (R438). -/
def State.charge (s : State) (b : List (BitVec 8)) : Nat := (cmdGroups b).length * chargeOf s.pwr.vNow
def State.charged (s : State) (part : Nat) : Nat :=
  ((s.cmds.runs.filter fun r => r.dispatching && s.partOfWin r.win == some part).map fun r => r.groups.length).foldl (· + ·) 0
    * chargeOf s.pwr.vNow

/-- Checks of a DISPATCH (R378, R379, R438). -/
def State.dispatchFail (s : State) (w : Win) (part : Nat) (b : List (BitVec 8)) : Option Fail :=
  let gs := cmdGroups b
  let n := pktField b 35 1
  firstFail [
    failIf gs.isEmpty stBadField 32,
    failIf (n == 0 || 64 < n) stBadField 35,
    unaligned b 40 8, unaligned b 48 8, unaligned b 56 4, unaligned b 60 4,
    (gs.find? fun g => s.groupOwner g != some part).map fun g => (stGroupOwner, g),
    (gs.find? fun g => s.unreached w (groupHalf g)).map fun g => (stHalfDown, (groupHalf g).num),
    failIf (s.fget R.PWR_PBASE_BASE_W 0 part + pktField b 36 4 < s.charge b) stLeaveRefused 0]

/-- Checks of a SITE_WORK (R380). -/
def State.workFail (s : State) (part : Nat) (b : List (BitVec 8)) : Option Fail :=
  let k := pktBits b 258 256
  failIf (s.siteState k != 4 || s.fget R.SITE_STAT_PART k 0 != part) stSiteState (s.siteState k)

/-- Whether a handle is the partition's, and whether another holds it (R378, R382). -/
def State.ownHandle (s : State) (part h : Nat) : Bool := Hnd.valid (s.handle h) && Hnd.part (s.handle h) == part
def State.foreignHandle (s : State) (part h : Nat) : Bool := Hnd.valid (s.handle h) && Hnd.part (s.handle h) != part

/-- Checks of a move (R381). -/
def State.moveFail (s : State) (part op : Nat) (b : List (BitVec 8)) : Option Fail :=
  let top := 2 ^ 40 - 32
  match op with
  | 0x41 => firstFail [unaligned b 32 8, unaligned b 40 8, badLen 48 (pktField b 48 8) top]
  | 0x42 => firstFail [unaligned b 32 8, badLen 48 (pktField b 48 8) top]
  | 0x43 => firstFail [unaligned b 40 5, badLen 48 (pktField b 48 3) 16777184, unaligned b 56 8,
      failIf (pktBits b 513 512 == 3) stBadField 64]
  | _ =>
    let h := pktField b 56 2
    firstFail [unaligned b 40 5, badLen 48 (pktField b 48 3) 16777184, unaligned b 64 5,
      failIf (!s.ownHandle part h) stHandleOwner h]

/-- The entry that a HANDLE_SET carries (R353, R382). -/
def pktEntry (b : List (BitVec 8)) : BitVec 256 := BitVec.ofNat 256 (pktField b 40 32)

/-- Checks of the handle commands (R378, R382). -/
def State.handleFail (s : State) (part op : Nat) (b : List (BitVec 8)) : Option Fail :=
  let h := pktField b 32 2
  let e := pktEntry b
  let c := (Hnd.ctx e).toNat
  firstFail [
    failIf (s.foreignHandle part h) stHandleOwner h,
    failIf (op == 0x45 && Hnd.base e % 32 != 0) stBadField 42,
    failIf (op == 0x45 && Hnd.len e % 32 != 0) stBadField 48,
    failIf (op == 0x45 && (c / 512 != part || !s.ctxValid c)) stCtxOwner 40,
    failIf (op == 0x45 && s.cleatOwner (Hnd.acleat e).toNat != some part) stCleatOwner (Hnd.acleat e).toNat]

/-- Checks of an XLT_INVAL (R378, R401, R420). -/
def State.invalFail (s : State) (part : Nat) (b : List (BitVec 8)) : Option Fail :=
  let c := pktBits b 267 256
  let all := (pktField b 34 1).testBit 0
  firstFail [
    failIf (c / 512 != part || !s.ctxValid c) stCtxOwner 32,
    failIf (!all && pktDva b 40 % 0x10000 != 0) stBadField 40,
    failIf (!all && (pktField b 48 8 == 0 || pktField b 48 8 % 0x10000 != 0)) stBadField 48]

/-- Checks of the Cleat commands (R37, R378). -/
def State.cleatFail (s : State) (w : Win) (part : Nat) (b : List (BitVec 8)) : Option Fail :=
  let c := pktField b 32 2
  firstFail [
    failIf (s.cleatOwner c != some part) stCleatOwner c,
    failIf (s.unreached w (cleatHalf (BitVec.ofNat 16 c))) stHalfDown (cleatHalf (BitVec.ofNat 16 c)).num]

/-- COMMAND_CHECKS (R377, R378): the checks before start. A control command's body is checked by the West core. -/
def State.startFail (s : State) (w : Win) (b : List (BitVec 8)) : Option Fail :=
  let part := (s.partOfWin w).getD 8
  match s.headerFail w b with
  | some f => some f
  | none =>
    match pktOpcode b with
    | 0x01 => s.dispatchFail w part b
    | 0x02 => s.workFail part b
    | 0x41 => s.moveFail part 0x41 b
    | 0x42 => s.moveFail part 0x42 b
    | 0x43 => s.moveFail part 0x43 b
    | 0x44 => s.moveFail part 0x44 b
    | 0x45 => s.handleFail part 0x45 b
    | 0x46 => s.handleFail part 0x46 b
    | 0x47 => s.invalFail part b
    | 0x81 => s.cleatFail w part b
    | 0x82 => s.cleatFail w part b
    | 0x83 => s.cleatFail w part b
    | _ => none

/-! ## Start (R385, R386) -/

/-- Commands of a window that have not ended. -/
def State.winRuns (s : State) (w : Win) : List Run := s.cmds.runs.filter fun r => !r.halyard && r.win == w

/-- The condition of ORDER (R385). -/
def State.orderHolds (s : State) (w : Win) (lane : Nat) (p : Packet) : Bool :=
  let runs := s.winRuns w
  match pktOrder p.bytes with
  | 1 => !runs.any fun r => r.lane == lane && r.order < p.order
  | 2 =>
    !(runs.any fun r => r.order < p.order)
      && !((List.range 4).any fun l =>
        let x := s.lane (laneIdx w l)
        x.heads.any (fun q => q.order < p.order) || x.sealed.any fun e => e.2.1 < p.order)
  | _ => true

/-- The posted writes that reached the port before the packet's sealing word have been performed (R263). -/
def State.postedDone (s : State) (w : Win) (mark : Nat) : Bool :=
  !s.postsBefore w.port.num mark

/-- At most 16 running commands of a window and 128 of a sequencer (R386). -/
def State.roomToRun (s : State) (w : Win) : Bool :=
  (s.winRuns w).length < 16
    && (s.cmds.runs.filter fun r => !r.halyard && s.portHalf r.win.port == s.portHalf w.port).length < 128

/-- A control command runs (R389). -/
def State.coreBusy (s : State) : Bool := s.cmds.runs.any fun r => isControl (pktOpcode r.bytes) && (r.status.isNone || r.left != 0)

/-- The West management core takes commands (R481, R542). -/
def State.coreUp (s : State) : Bool := s.coreRuns .west

/-- What a lane's head does next: it waits, ends with a status, asks for leave, or starts. -/
inductive Next where
  | wait | fail (f : Fail) | ask | start
  deriving DecidableEq, Repr

/-- A DISPATCH that passes its checks (R379, R438). -/
def State.dispatchNext (s : State) (part : Nat) (p : Packet) : Next :=
  let gs := cmdGroups p.bytes
  let watts := pktField p.bytes 36 4
  let base := s.fget R.PWR_PBASE_BASE_W 0 part
  let who : LeaveWho := .cmd p.order
  if s.cmds.runs.any fun r => r.groups.any gs.contains then .wait
  else if watts = 0 then (if s.charge p.bytes + s.charged part ≤ base then .start else .wait)
  else if s.pwr.grants.any fun g => g.1 == who then
    (if s.charge p.bytes + s.charged part ≤ base + watts then .start else .wait)
  else if s.pwr.queue.any fun q => q.who == who then .wait
  else .ask

/-- A control command that passes its checks (R389, R476, R542, R544): a core that restarts, alone or with its half, answers BUSY, and
ATTEST waits for it. -/
def State.controlNext (s : State) (op : Nat) : Next :=
  if ((s.half .west).core || !s.halfLive .west) && op != 0xC7 then .fail (stBusy, 0)
  else if !s.coreUp || s.coreBusy then .wait
  else .start

/-- What the head of a lane does next. -/
def State.headNext (s : State) (w : Win) (lane : Nat) (p : Packet) : Next :=
  let part := (s.partOfWin w).getD 8
  let op := pktOpcode p.bytes
  if !s.pseqUp w || s.laneGated w lane || !s.roomToRun w then .wait
  else if pktOrder p.bytes ≠ 3 ∧ !(s.orderHolds w lane p && s.postedDone w p.mark) then .wait
  else
    match s.startFail w p.bytes with
    | some f => .fail f
    | none =>
      if op = 1 then s.dispatchNext part p
      else if op = 2 ∧ 16 ≤ ((s.site (pktBits p.bytes 258 256)).works).length then .wait
      else if isControl op then s.controlNext op
      else .start

/-- A lane's head that is to be taken now satisfies a test of its opcode. -/
def State.laneCan (s : State) (w : Win) (lane : Nat) (test : Nat → Bool) : Bool :=
  match (s.lane (laneIdx w lane)).heads.head? with
  | none => false
  | some p => test (pktOpcode p.bytes) && (match s.headNext w lane p with | .start | .fail _ => true | .wait | .ask => false)

/-- A window has a head that is to be taken now. -/
def State.winCan (s : State) (w : Win) (test : Nat → Bool) : Bool := (List.range 4).any fun l => s.laneCan w l test

/-- The windows' numbers after the one that a sequencer served last, in rotating order (R386). -/
def State.rotation (s : State) (h : Half) : List Nat :=
  let t := (tget (fun _ => none) s.cmds.turn h.num).getD 17
  (List.range 18).map fun i => (t + 1 + i) % 18

/-- Another head is to start first: one of a higher lane of the window; one of a window whose turn comes before, at the sequencer
(R386); for a control command, one of the other port's sequencer, when this one's was the latest (R389). -/
def State.outranked (s : State) (w : Win) (lane : Nat) : Bool :=
  let h := s.portHalf w.port
  let any (_ : Nat) : Bool := true
  let ctl : Bool := (s.lane (laneIdx w lane)).heads.any fun p => isControl (pktOpcode p.bytes)
  ((List.range 4).any fun l => lane < l && s.laneCan w l any)
    || (((s.rotation h).takeWhile fun i => i != w.idx).any fun i => s.portHalf (winOf i).port == h && s.winCan (winOf i) any)
    || (ctl && s.cmds.ctlTurn == some h && (List.range 18).any fun i => s.portHalf (winOf i).port != h && s.winCan (winOf i) isControl)

/-- The sequencer's turn, and the West core's, go on (R386, R389). -/
def State.took (s : State) (w : Win) (op : Nat) : State :=
  let h := s.portHalf w.port
  { s with cmds := { s.cmds with turn := tset (fun _ => none) s.cmds.turn h.num (some w.idx)
                                 ctlTurn := if isControl op then some h else s.cmds.ctlTurn } }

/-- A head starts: its run, which reads the tally and keeps the number of the next request (R391, R420). -/
def State.startRunOf (s : State) (w : Win) (lane : Nat) (p : Packet) : State :=
  let who : LeaveWho := .cmd p.order
  let groups := if pktOpcode p.bytes = 1 then cmdGroups p.bytes else []
  let r := { mkRun w lane p with
    tStart := s.tally, mark := s.fab.serial, groups, leave := s.pwr.grants.any fun g => g.1 == who }
  let hf := s.portHalf w.port
  let part := s.partOfWin w
  let s := (s.fidEvent hf 7 hf.num 0 part 1).fidEvent hf 7 hf.num 1 part (tallyDiff s.tally p.since)
  let s := s.dropHead (laneIdx w lane) p.order
  let s := { s with cmds := { s.cmds with runs := s.cmds.runs ++ [r] } }
  if groups.isEmpty then s else s.quadChange ((groups.map groupStack).eraseDups)

/-- COMMAND_START (R385): the lane's head starts, ends with a status, asks for leave, or waits. -/
def State.commandStart (s : State) (w : Win) (lane : Nat) : State :=
  match (s.lane (laneIdx w lane)).heads.head? with
  | none => s
  | some p =>
    if s.outranked w lane then s
    else
      match s.headNext w lane p with
      | .wait => s
      | .start => (s.took w (pktOpcode p.bytes)).startRunOf w lane p
      | .ask => s.askLeave (.cmd p.order) 0 (pktField p.bytes 36 4) 0 (s.portHalf w.port)
      | .fail f =>
        let s := s.took w (pktOpcode p.bytes)
        ((s.unqueueLeave (.cmd p.order) false).returnLeave (.cmd p.order)).completeHead w lane p f.1 f.2

def execCommandStart (w : Win) (lane : Fin 4) (s : State) : Res := .next (s.commandStart w lane.val)

/-! ## Bodies -/

/-- The body of a started command acts once, where its opcode is the row's. -/
def State.cmdBody (s : State) (id op : Nat) (k : Run → State → State) : State :=
  match s.run id with
  | none => s
  | some r =>
    if pktOpcode r.bytes ≠ op ∨ r.body ∨ r.status.isSome then s
    else
      let r := { r with body := true }
      k r (s.setRun r)

/-- The partition of a command. -/
def State.runPart (s : State) (r : Run) : Nat := (s.partOfWin r.win).getD 8

/-- The class of a command's requests (R367, R426). -/
def State.runSvc (s : State) (r : Run) : BitVec 3 × State := s.labelOf (s.runPart r) (BitVec.ofNat 3 (pktSvc r.bytes))

def runCtx (r : Run) : BitVec 12 := BitVec.ofNat 12 (pktCtx r.bytes)

/-- The dispatch record of the tile at place i of the group of rank k (R109, R379). -/
def dispRec (r : Run) (svc : BitVec 3) (k i : Nat) : DispRec :=
  let n := 4 * k + i
  { ol := BitVec.ofNat 52 (pktDva r.bytes 40 + n * pktField r.bytes 56 4)
    dt := BitVec.ofNat 52 (pktDva r.bytes 48 + n * pktField r.bytes 60 4)
    ndesc := pktField r.bytes 35 1, ctx := runCtx r, svc, policy := BitVec.ofNat 3 (pktPolicy r.bytes)
    thresh := BitVec.ofNat 4 (pktThresh r.bytes), place := i, cmd := r.id }

/-- DISPATCH (R379): a dispatch record to every selected tile. -/
def State.doDispatch (s : State) (r : Run) : State :=
  let (svc, s) := s.runSvc r
  (r.groups.zipIdx).foldl (fun s (g, k) =>
    (List.range 4).foldl (fun s i => s.modTile (4 * g + i) fun x => { x with inbox := some (dispRec r svc k i) }) s) s

def execDispatch (id : Nat) (s : State) : Res := .next (s.cmdBody id 0x01 fun r s => s.doDispatch r)

/-- The lowest work tag of a site not in use (R380). -/
def State.freeWorkTag (s : State) (k : Nat) : Nat :=
  ((List.range 16).find? fun t => !(s.site k).works.any fun w => w.1.toNat == t).getD 0

/-- SITE_WORK (R294, R380): Work with a tag that the sequencer chooses. -/
def State.doWork (s : State) (r : Run) : State :=
  let k := pktBits r.bytes 258 256
  let f := s.workFail (s.runPart r) r.bytes
  match f with
  | some f => s.finish r.id f.1 f.2
  | none =>
    let (svc, s) := s.runSvc r
    let t := s.freeWorkTag k
    let s := s.modSite k fun x => { x with works := x.works ++ [(BitVec.ofNat 4 t, some r.id)] }
    s.siteOut k (s.pseqOf r.win) (.ctl k 0x52 0
      (BitVec.ofNat 512 (pktDva r.bytes 40 + pktBits r.bytes 267 264 * 2 ^ 64 + svc.toNat * 2 ^ 72 + t * 2 ^ 96)))

def execSiteWork (id : Nat) (s : State) : Res := .next (s.cmdBody id 0x02 fun r s => s.doWork r)

/-! ## Moves (R381) -/

/-- A sector of a move as an access by DVA. -/
def State.moveAcc (s : State) (r : Run) (svc : BitVec 3) (dva : Nat) (op : Op) (poison : Bool) (d : BitVec 256) (purp : Purpose) : DvaAcc :=
  ⟨s.pseqOf r.win, runCtx r, svc, BitVec.ofNat 52 dva, op, BitVec.ofNat 32 fullMask, false, poison, d, purp⟩

def readOp (cached : Bool) : Op := if cached then .rdOnce else .memRd
def writeOp (cached : Bool) : Op := if cached then .wrThrough else .memWr

/-- CACHED of a COPY or a FILL. -/
def moveCached (r : Run) : Bool := (pktField r.bytes 56 1).testBit 0

/-- COPY (R381): a read of each sector of the source. -/
def State.doCopy (s : State) (r : Run) : State :=
  let n := pktField r.bytes 48 8 / 32
  let c := moveCached r
  let (svc, s) := s.runSvc r
  let s := s.setRun { r with left := n }
  s.issueAccs (some r.id) ((List.range n).map fun i =>
    s.moveAcc r svc (pktDva r.bytes 32 + 32 * i) (readOp c) false 0 (.copyRd r.id (BitVec.ofNat 52 (pktDva r.bytes 40 + 32 * i)) c))

def execCopy (id : Nat) (s : State) : Res := .next (s.cmdBody id 0x41 fun r s => s.doCopy r)

/-- FILL (R381): a write of each sector with the 64-bit pattern. -/
def State.doFill (s : State) (r : Run) : State :=
  let n := pktField r.bytes 48 8 / 32
  let v := pktField r.bytes 40 8
  let d := BitVec.ofNat 256 (v + v * 2 ^ 64 + v * 2 ^ 128 + v * 2 ^ 192)
  let (svc, s) := s.runSvc r
  let s := s.setRun { r with left := n }
  s.issueAccs (some r.id) ((List.range n).map fun i =>
    s.moveAcc r svc (pktDva r.bytes 32 + 32 * i) (writeOp (moveCached r)) false d (.cmdWr r.id))

def execFill (id : Nat) (s : State) : Res := .next (s.cmdBody id 0x42 fun r s => s.doFill r)

/-- A PUT command's tracker, before it has one (R348, R381). -/
def State.putOf (s : State) (r : Run) (svc : BitVec 3) : Tracker :=
  { dev := pktBits r.bytes 260 256, handle := pktBits r.bytes 276 261, off := pktField r.bytes 40 5, len := pktField r.bytes 48 3
    srcAt := pktDva r.bytes 56, red := BitVec.ofNat 2 (pktBits r.bytes 513 512), cached := pktBits r.bytes 514 514 == 1
    ctx := runCtx r, svc, dtag := (s.part (s.runPart r)).dtag, owner := some (.cmd r.id) }

/-- PUT_CMD (R381). -/
def execPutCmd (id : Nat) (s : State) : Res :=
  .next (s.cmdBody id 0x43 fun r s =>
    let (svc, s) := s.runSvc r
    s.startPutFor (s.putOf r svc))

/-- A GET command's tracker (R352, R381). -/
def State.getOf (s : State) (r : Run) (svc : BitVec 3) : Tracker :=
  { dev := pktBits r.bytes 260 256, handle := pktBits r.bytes 276 261, off := pktField r.bytes 40 5, len := pktField r.bytes 48 3
    isGet := true, rhandle := pktField r.bytes 56 2, roff := pktField r.bytes 64 5, ctx := runCtx r, svc
    dtag := (s.part (s.runPart r)).dtag, owner := some (.cmd r.id) }

/-- GET_CMD (R352, R381). -/
def execGetCmd (id : Nat) (s : State) : Res :=
  .next (s.cmdBody id 0x44 fun r s =>
    let (svc, s) := s.runSvc r
    s.startPutFor (s.getOf r svc))

/-- A held request of a command with one more access behind it (R411). -/
def XHeld.append (x : XHeld) (id : Nat) (a : DvaAcc) : XHeld :=
  match x.what with
  | .accs l => if x.cmd == some id then { x with what := .accs (l ++ [a]) } else x
  | _ => x

/-- A sector of a COPY's source has come: its write goes out, poisoned where the source was (R381, R411). -/
def State.copyRead (s : State) (id : Nat) (dst : Dva) (cached : Bool) (d : BitVec 256) (poison : Bool) : State :=
  match s.run id with
  | none => s
  | some r =>
    if r.status.isSome then s
    else
      let (svc, s) := s.runSvc r
      let s := s.setRun { r with poison := r.poison || poison }
      let x := s.moveAcc r svc dst.toNat (writeOp cached) poison d (.cmdWr id)
      if s.xlt.held.any fun h => h.cmd == some id then
        { s with xlt := { s.xlt with held := s.xlt.held.map fun h => h.append id x } }
      else s.issueAccs (some id) [x]

/-- A move stops: what it has not sent is dropped (R381, R393). -/
def State.dropMove (s : State) (id : Nat) : State :=
  let mine (p : Purpose) : Bool := match p with | .copyRd i _ _ | .cmdWr i => i == id | _ => false
  let s := { s with fab := { s.fab with regq := s.fab.regq.filter fun x => !mine x.purp } }
  s.dropHeld fun h => h.cmd == some id

/-- A request of a COPY or FILL was refused, or met a unit behind a closed Splice (R37, R381). -/
def State.moveRefused (s : State) (id : Nat) (status : BitVec 3) : State :=
  match s.run id with
  | none => s
  | some r =>
    if r.status.isSome then s
    else
      let other := (s.portHalf r.win.port).other.num
      let s := if status = 3 then s.finish id stHalfDown other else if status = 4 then s.finish id stPoison 0 else s.finish id stMemDenied 0
      s.dropMove id

/-- A write of a COPY or FILL has been performed: the last one ends the move (R381). -/
def State.moveWritten (s : State) (id : Nat) (status : BitVec 3) : State :=
  match s.run id with
  | none => s
  | some r =>
    if r.status.isSome then s
    else if status ≠ 0 then s.moveRefused id status
    else
      let r := { r with left := r.left - 1 }
      s.setRun (if r.left = 0 then r.finish (if r.poison then stPoison else stOk) 0 else r)

/-! ## Handles (R357, R382) -/

/-- HANDLE_SET (R382): the entry with PART and VALID set; fragments accepted before keep theirs. -/
def State.doHandleSet (s : State) (r : Run) : State :=
  let e := (pktEntry r.bytes).toNat
  let e' := e - e % 16 + 1 + 2 * s.runPart r
  (s.setRun { r with mark := s.lan.fragCtr }).setHandle (pktField r.bytes 32 2) (BitVec.ofNat 256 e')

def execHandleSet (id : Nat) (s : State) : Res := .next (s.cmdBody id 0x45 fun r s => s.doHandleSet r)

/-- HANDLE_CLEAR (R382). -/
def State.doHandleClear (s : State) (r : Run) : State :=
  let h := pktField r.bytes 32 2
  let e := (s.handle h).toNat
  (s.setRun { r with mark := s.lan.fragCtr }).setHandle h (BitVec.ofNat 256 (e - e % 2))

def execHandleClear (id : Nat) (s : State) : Res := .next (s.cmdBody id 0x46 fun r s => s.doHandleClear r)

/-! ## Invalidation (R420) -/

/-- The pages that an invalidation covers: first and end. -/
def invalPages (r : Run) : Nat × Nat :=
  if pktOpcode r.bytes = 0x47 ∧ !(pktField r.bytes 34 1).testBit 0 then
    (pktDva r.bytes 40 / 0x10000, (pktDva r.bytes 40 + pktField r.bytes 48 8) / 0x10000)
  else (0, 2 ^ 36)

/-- The context that an XLT_INVAL or a CTX_SET names. -/
def invalCtx (r : Run) : Nat := pktBits r.bytes 267 256

/-- Bound sites whose slot map names a context, with the mask of those slots. -/
def State.sitesWith (s : State) (ctx : Nat) : List (Nat × Nat) :=
  (List.range 8).filterMap fun k =>
    let m := (((List.range 16).filter fun i => s.slotCtx k i == some (BitVec.ofNat 12 ctx)).map fun i => 2 ^ i).foldl (· + ·) 0
    if s.siteState k = 4 ∧ m ≠ 0 then some (k, m) else none

/-- Steps 1 and 2 of R420: cached entries go, and XlateInv to the sites; `left` counts the InvAcks awaited, `pages` holds the named
range and the dropped entries. -/
def State.doInval (s : State) (r : Run) : State :=
  let c := invalCtx r
  let (lo, hi) := invalPages r
  let hit (e : RangeEnt) : Bool := e.ctx.toNat == c && e.start < hi && lo < e.start + e.len
  let pages := (lo, hi) :: ((s.xlt.caches.filter hit).map fun e => (e.start, e.start + e.len)).eraseDups
  let s := { s with xlt := { s.xlt with caches := s.xlt.caches.filter fun e => !hit e } }
  let ks := s.sitesWith c
  let s := s.setRun { r with left := ks.length, mark := s.fab.serial, pages := pages }
  ks.foldl (fun s (k, m) =>
    (s.modSite k fun x => { x with invals := x.invals ++ [r.id] }).siteOut k (s.walkerOf (siteAgent k))
      (.ctl k 0x51 0 (BitVec.ofNat 512 (lo * 0x10000 + ((hi - lo) * 0x10000 % 2 ^ 64) * 2 ^ 64 + m * 2 ^ 128)))) s

/-- Step 3 of R420: the InvAcks have come, and every request translated through a dropped entry has completed. -/
def State.invalDone (s : State) (r : Run) : Bool :=
  let c := invalCtx r
  let covered (g : Nat) : Bool := r.pages.any fun e => e.1 ≤ g && g < e.2
  let old (p : Pkt) (page : Option Nat) (ser : Nat) : Bool :=
    match page with
    | none => false
    | some g => p.ctx.toNat == c && covered g && ser < r.mark
  let made (p : Purpose) (ser : Nat) : Nat := (p.posted.map Prod.snd).getD ser
  let waits (q : Posted) : Bool := q.mark < r.mark && q.accs.any fun x =>
    x.1.ctx.toNat == c && covered (x.1.dva.toNat / 0x10000)
  r.left == 0 && !(s.fab.txs.any fun t => old t.pkt t.page (made t.purp t.ser))
    && !(s.fab.regq.any fun t => old t.pkt t.page (made t.purp t.ser)) && !s.ports.posted.any waits

/-- XLT_INVAL (R420). -/
def execXltInval (id : Nat) (s : State) : Res := .next (s.cmdBody id 0x47 fun r s => s.doInval r)

/-! ## Synchronisation (R383) -/

/-- NOP_CMD. -/
def execNopCmd (id : Nat) (s : State) : Res := .next (s.cmdBody id 0x80 fun r s => s.finish r.id stOk 0)

def runCleat (r : Run) : BitVec 16 := BitVec.ofNat 16 (pktField r.bytes 32 2)
def runValue (r : Run) : CleatVal := BitVec.ofNat 48 (pktField r.bytes 40 6)

/-- CLEAT_SET (R383): the value is written; waits that it satisfies complete. -/
def State.doCleatSet (s : State) (r : Run) : State :=
  let c := runCleat r
  let old := s
  let s := s.setCleat c.toNat { val := runValue r, waker := some r.laneAgent }
  ((s.wake c).kickTiles old).finish r.id stOk 0

def execCleatSet (id : Nat) (s : State) : Res := .next (s.cmdBody id 0x81 fun r s => s.doCleatSet r)

/-- CLEAT_ADD (R383). -/
def execCleatAdd (id : Nat) (s : State) : Res :=
  .next (s.cmdBody id 0x82 fun r s => (s.bankInc (runCleat r) (runValue r) r.laneAgent).finish r.id stOk 0)

/-- CLEAT_WAIT (R383): complete at once where the value is reached. -/
def State.doCleatWait (s : State) (r : Run) : State :=
  let c := runCleat r
  let x := s.cleat c.toNat
  if (runValue r).toNat ≤ x.val.toNat then
    (s.finish r.id stOk 0).trace (cleatHalf c) 6 r.laneAgent c x.val (runValue r) x.waker (s.runPart r)
  else s.trace (cleatHalf c) 5 r.laneAgent c x.val (runValue r) none (s.runPart r)

def execCleatWait (id : Nat) (s : State) : Res := .next (s.cmdBody id 0x83 fun r s => s.doCleatWait r)

/-- CLEAT_WAIT_TIMEOUT (R383): of a CLEAT_WAIT that has a timeout. -/
def State.cleatWaitTimeout (s : State) (id : Nat) : State :=
  match s.run id with
  | none => s
  | some r => if pktOpcode r.bytes = 0x83 ∧ r.body ∧ pktField r.bytes 46 2 ≠ 0 then s.finish id stTimeout 0 else s

def execCleatWaitTimeout (id : Nat) (s : State) : Res := .next (s.cleatWaitTimeout id)

/-! ## Sequence directory (R143, R384) -/

/-- One record of a SEQDIR: the slot's new entry, or the status that refuses the record. -/
def seqRecord (part op : Nat) (old : Nat) (payload : Nat) : Except (BitVec 8) Nat :=
  let valid := old.testBit 59
  let mine := bitsOf old 58 56 == part
  let len := bitsOf old 83 64
  let n := bitsOf payload 19 0
  if valid ∧ !mine then .error stSlotOwner
  else if op = 0 then
    (if fmtReserved (bitsOf payload 55 52) then .error stBadFormat
     else .ok (payload - bitsOf payload 59 56 * 2 ^ 56 + (part + 8) * 2 ^ 56))
  else if !valid then .error stSlotOwner
  else if op = 1 then .ok (old - len * 2 ^ 64 + n * 2 ^ 64)
  else if op = 2 then (if 2 ^ 20 ≤ len + n then .error stBadField else .ok (old + n * 2 ^ 64))
  else .ok (old - 2 ^ 59)

/-- Applies records i on of a SEQDIR, in order; the first refused one ends the command with its index (R631). -/
def State.seqRecords (s : State) (r : Run) (i : Nat) : Nat → State
  | 0 => s.finish r.id stOk 0
  | n + 1 =>
    let w := pktField r.bytes (40 + 24 * i) 8
    let slot := bitsOf w 9 0
    match seqRecord (s.runPart r) (bitsOf w 11 10) (tget (fun _ => 0#128) s.cmds.seqdir slot).toNat (pktField r.bytes (48 + 24 * i) 16) with
    | .error st => s.finish r.id st (2 ^ 23 + i)
    | .ok e =>
      State.seqRecords { s with cmds := { s.cmds with seqdir := tset (fun _ => 0#128) s.cmds.seqdir slot (BitVec.ofNat 128 e) } } r (i + 1) n

/-- SEQDIR (R384). -/
def execSeqdir (id : Nat) (s : State) : Res :=
  .next (s.cmdBody id 0x84 fun r s => s.seqRecords r 0 (pktField r.bytes 32 2))

/-! ## Command end (R262, R390, R391) -/

/-- Every tile of a DISPATCH has completed END or stopped (R113, R149). -/
def State.tilesDone (s : State) (r : Run) : Bool :=
  r.groups.all fun g => (List.range 4).all fun i =>
    let x := s.tile (4 * g + i)
    (match x.inbox with | none => true | some d => d.cmd != r.id) && (x.cmd != r.id || x.done)

/-- The run of a command whose work is done, none while it goes on. A DISPATCH has its status OK only once the events of R262 have
occurred too (R113), so that a refusal before then still decides it (R355). -/
def State.workEnd (s : State) (r : Run) : Option Run :=
  let op := pktOpcode r.bytes
  let ok (b : Bool) : Option Run := if b then some (r.finish stOk 0) else none
  if op = 1 ∧ !r.halyard ∧ !s.tilesDone r then none
  else if op = 0xC2 ∧ r.left ≠ 0 then none
  else if r.status.isSome then some r
  else if !r.body then none
  else if op = 1 then some r
  else if op = 0x45 ∨ op = 0x46 then ok (!s.handleBusy (pktField r.bytes 32 2) r.mark)
  else if op = 0x47 ∨ op = 0xC4 then ok (s.invalDone r)
  else none

/-- Guard counts of a DISPATCH's tiles (R94). -/
def State.sumGuards (s : State) (r : Run) : Guard :=
  (r.groups.flatMap fun g => (List.range 4).map fun i => 4 * g + i).foldl (fun a t =>
    if (s.tile t).cmd = r.id then a.add (s.tile t).guard else a) {}

/-- A staged VTARGET takes effect once no DISPATCH runs (R436). -/
def State.applyV (s : State) : State :=
  match s.pwr.vStaged with
  | none => s
  | some v =>
    if s.cmds.runs.any Run.dispatching then s
    else
      ({ s with pwr := { s.pwr with vStaged := none, vNow := v } }.fset R.PWR_CONF_VTARGET 0 0 v).showRails

/-- The events of R262 have occurred: the writes of a DISPATCH's tiles and of the command, and its PUTs. -/
def State.releaseClear (s : State) (r : Run) : Bool :=
  let ts := r.groups.flatMap fun g => (List.range 4).map fun i => 4 * g + i
  let wr (p : Pkt) (q : Purpose) : Bool :=
    (p.src.kind == .tile && ts.contains p.src.num && Op.isWrite p.op)
      || (match q with | .cmdWr i | .report i => i == r.id | _ => false)
  let mine (t : Tracker) : Bool :=
    match t.owner with
    | some (.tile ti _) => t.busy && ts.contains ti
    | some (.cmd i) => i == r.id
    | _ => false
  !(s.fab.txs.any fun t => wr t.pkt t.purp) && !(s.fab.regq.any fun t => wr t.pkt t.purp)
    && !(s.lan.trackers.any fun e => mine e.2) && !(s.lan.waitPut.any mine)

/-- The reply record (R391). -/
def replyRecord (r : Run) : BitVec 512 :=
  let b := r.bytes
  let res (i : Nat) : Nat := (r.res.getD i 0).toNat
  BitVec.ofNat 512 (pktSeq b + (r.lane % 4) * 2 ^ 16 + 2 ^ 18 + (r.status.getD 0).toNat * 2 ^ 24 + pktOpcode b * 2 ^ 32
    + r.detail.toNat * 2 ^ 40 + pktUser b * 2 ^ 64 + r.guard.record.toNat * 2 ^ 128 + r.tStart.toNat * 2 ^ 192
    + (r.tEnd.getD 0).toNat * 2 ^ 256 + res 0 * 2 ^ 320 + res 1 * 2 ^ 384 + res 2 * 2 ^ 448)

/-- The bytes of a record. -/
def recBytes (v : BitVec 512) : List (BitVec 8) := (List.range 64).map fun i => BitVec.ofNat 8 (v.toNat / 2 ^ (8 * i))

/-- Steps 3 and 4 of R390, after which the command has completed; lanes whose reset waited for it are reset (R395). -/
def State.retireRun (s : State) (r : Run) : State :=
  let s := { s with cmds := { s.cmds with runs := s.cmds.runs.filter fun x => x.id != r.id } }
  let s := if r.halyard || r.mute || !pktRcen r.bytes then s else s.bankInc (BitVec.ofNat 16 (pktRcleat r.bytes)) 1 r.laneAgent
  let s := if r.halyard || r.mute || !pktIrq r.bytes then s else s.msix r.win.idx (r.lane % 4)
  if r.halyard then s else s.laneResets r.win

/-- The reply record is lost (R390). -/
def State.replyLost (s : State) (r : Run) : State := (s.evWin R.CMD_WEVENT_REPLY_LOST r.win.idx).retireRun r

/-- Step 2 of R390 in a partition window: one 64-byte cached-class write through the command's CTX; a foreign CTX, a fault and a
refusal lose it. -/
def State.writeReply (s : State) (r : Run) : State :=
  let dva := pktReply r.bytes / 64 * 64
  let m := s.pseqOf r.win
  let part := s.runPart r
  if pktCtx r.bytes / 512 ≠ part then s.replyLost r
  else
    match s.translate m (runCtx r) dva .write with
    | (.fault k i, s) => (s.xltFaultLoose m (runCtx r) k i dva).replyLost r
    | (.dpa a, s) =>
      let (svc, s) := s.runSvc r
      let p := { Pkt.mk0 .wrThrough m m (BitVec.ofNat 44 a) with ctx := runCtx r, svc, sect := 3, data := replyRecord r }
      let s := s.setRun { r with replied := true }
      if s.visible a then s.request p (.reply r.id) (some (dva / 0x10000))
      else (s.deny m (runCtx r) a (if a / 0x10000000 < s.allGranules then 3 else 5)).refuseLocal p (.reply r.id) 2

/-- Step 2 of R390: the reply record goes to its window, or to the Halyard session (R479). -/
def State.reply (s : State) (r : Run) : State :=
  if r.mute then s.retireRun r
  else if r.halyard then (s.pushOut (.halyard 0x8001 0 (recBytes (replyRecord r)))).retireRun r
  else if r.win.fn.val = 0 then
    let slot := r.win.port.num * 64 + pktReply r.bytes % 64
    ({ s with cmds := { s.cmds with slots := tset (fun _ => 0#512) s.cmds.slots slot (replyRecord r) } }).retireRun r
  else s.writeReply r

/-- The reply record has been performed, or refused (R390). -/
def State.replyDone (s : State) (id : Nat) (status : BitVec 3) : State :=
  match s.run id with
  | none => s
  | some r => if status = 0 then s.retireRun r else s.replyLost r

/-- A tile whose command has ended is idle; one stopped on an op fault keeps STATE 3 until its next dispatch record (R150; log 36). -/
def Tile.idle (x : Tile) : Tile :=
  { spad := x.spad, acc := x.acc, rcache := x.rcache, eccs := x.eccs, bad := x.bad, puts := x.puts, nextSeq := x.nextSeq,
    stopped := x.stopped, inbox := x.inbox }

/-- The tiles of a command's groups that worked for it are idle. -/
def State.idleTiles (s : State) (r : Run) : State :=
  (r.groups.flatMap fun g => (List.range 4).map fun i => 4 * g + i).foldl (fun s t =>
    if (s.tile t).cmd = r.id then s.modTile t Tile.idle else s) s

/-- Step 1 of R390 is done: T_END and the guard counts are taken, leave returns (R443), a staged VTARGET applies (R436); the trigger
of kind 6 (R595). -/
def State.stepOne (s : State) (r : Run) : Run × State :=
  let r := { r.finish stOk 0 with tEnd := some s.tally, guard := s.sumGuards r, left := 0 }
  let s := (s.setRun { r with leave := false }).idleTiles r
  let s := if r.leave then s.returnLeave (.cmd r.id) else s
  let s := (s.applyV).updGates
  let s := match s.partOfWin r.win with
    | none => s
    | some p => s.trigger (s.portHalf r.win.port) 6 p (!r.halyard && r.status != some stOk)
  ({ r with leave := false }, s)

/-- COMMAND_END (R390): step 1 ends once the command's work is done and the events of R262 have occurred, and step 2 follows it. -/
def State.commandEnd (s : State) (id : Nat) : State :=
  match s.run id with
  | none => s
  | some r =>
    if r.replied then s
    else
      match s.workEnd r with
      | none => s
      | some r =>
        if s.releaseClear r then
          let (r, s) := s.stepOne r
          s.reply r
        else s

def execCommandEnd (id : Nat) (s : State) : Res := .next (s.commandEnd id)

/-- COMMAND_TIMEOUT (R393): of a running command that has a TMO. -/
def State.commandTimeout (s : State) (id : Nat) : State :=
  match s.run id with
  | none => s
  | some r => if pktTmo r.bytes ≠ 0 ∧ !r.halyard then s.haltRun id stTimeout 0 else s

def execCommandTimeout (id : Nat) (s : State) : Res := .next (s.commandTimeout id)

end Sys2Proof.Machine
end

