-- ==== Sys2Proof/Machine/Partition.lean ====
section
/-! DEFINITION. Partitions (12_security.md): creation and grants (R450 to R456), shared sets and their mirrors (R457, R458), keys and
key retirement (R461, R463, R626), destruction and whipping (R462 to R467, R505, R625). The tiles of a partition stop, and every item
of R464 but the unbinding of sites is done, in the step that starts the whipping. -/

namespace Sys2Proof.Machine

/-! ## Keys -/

/-- The key slot of shared set k (R454). -/
def sharedSlot (k : Nat) : Nat := 8 + k

/-- Loads a fresh key into a slot (R460, R461); SEC_KEYSLOT is a sealed item (R575). -/
def State.loadKey (s : State) (n : Nat) : State :=
  let h := s.hank
  ({ s with hank := { h with slots := tset (fun _ => 0) h.slots n h.nextKey, nextKey := h.nextKey + 1 } }.fsetBit
    R.SEC_KEYSLOT_LOADED 0 0 n true).disarm

/-- Erases a slot in every channel controller (R463). -/
def State.unloadKey (s : State) (n : Nat) : State :=
  ({ s with hank := { s.hank with slots := tset (fun _ => 0) s.hank.slots n 0 } }.fsetBit R.SEC_KEYSLOT_LOADED 0 0 n false).disarm

/-! ## Granules -/

/-- Granules whose ownership record meets a test; a free granule has no entry. -/
def State.ownedBy (s : State) (test : OwnRec → Bool) : List Nat := (s.hank.own.filter fun e => test e.2).map (·.1)

/-- The granules of a range record: FIRST and COUNT (R454). -/
def rangeOf (v : Nat) : List Nat := (List.range (bitsOf v 23 12)).map (bitsOf v 11 0 + ·)

/-- A granule that can be granted: visible and in the free pool (R451, R456). -/
def State.granFree (s : State) (g : Nat) : Bool := g < s.visGranules && s.own g == freeRec

/-- Granules leave the zero-fill queue (R455); a retirement's fill that empties so is stamped (R469). -/
def State.leaveFill (s : State) (gs : List Nat) : State :=
  let owners := ((s.hank.zfill.filter fun j => gs.contains j.granule && j.cmd.isNone && j.owner < 8).map ZJob.owner).eraseDups
  owners.foldl (fun s o =>
    if s.hank.zfill.any fun j => j.owner == o && j.cmd.isNone then s else s.setPart o { s.part o with zfillAt := s.tally })
    (s.unqueueFill gs)

/-- More granules that a command awaits. -/
def State.await (s : State) (id n : Nat) : State :=
  match s.run id with
  | none => s
  | some r => s.setRun { r with left := r.left + n }

/-- Granules take a new record and are zero-filled under its key before their grant completes (R455). -/
def State.grantGrans (s : State) (id owner : Nat) (gs : List Nat) (r : OwnRec) : State :=
  let s := gs.foldl (fun s g => s.setOwn g r) s
  ((s.leaveFill gs).queueFill gs owner (some id)).await id gs.length

/-- Granules become free, their cached lines dropped (R463, R626), and are queued for zero-fill. -/
def State.freeGrans (s : State) (owner : Nat) (gs : List Nat) : State :=
  let s := s.dropLines fun n => gs.contains (granOf (n * 64))
  let s := gs.foldl (fun s g => s.setOwn g freeRec) s
  (s.unqueueFill gs).queueFill gs owner none

/-! ## Shared sets -/

def State.sset (s : State) (k : Nat) : SSet := tget (fun _ => {}) s.sec.sets k
def State.setSset (s : State) (k : Nat) (x : SSet) : State :=
  { s with sec := { s.sec with sets := tset (fun _ => {}) s.sec.sets k x } }

/-- The granules of a set, and with its mirrors. -/
def State.setGrans (s : State) (k : Nat) : List Nat := s.ownedBy fun r => r.owner.toNat == 8 && r.slot.toNat == sharedSlot k
def State.setAllGrans (s : State) (k : Nat) : List Nat :=
  s.ownedBy fun r => (r.owner.toNat == 8 || r.owner.toNat == 14) && r.slot.toNat == sharedSlot k

/-- Retirement of a set (R463, R626). -/
def State.retireSet (s : State) (k : Nat) : State :=
  ((s.freeGrans (sharedSlot k) (s.setAllGrans k)).unloadKey (sharedSlot k)).setSset k {}

/-- The SHARE bit of a partition goes in every set (R457). -/
def State.clearShares (s : State) (p : Nat) : State :=
  (s.ownedBy fun r => r.owner.toNat == 8 && r.share.toNat.testBit p).foldl
    (fun s g => s.setOwn g { s.own g with share := withBit (s.own g).share p false }) s

/-! ## PART_CREATE (R452, R453) -/

/-- The body of a PART_CREATE. -/
structure Create where
  part   : Nat
  win    : Win
  dtag   : Nat
  mask   : Nat
  base   : Nat
  leaveM : Nat
  allow  : Nat
  dflt   : Nat
  apert  : Nat

def createOf (b : List (BitVec 8)) : Create :=
  { part := pktBits b 258 256
    win := ⟨if pktBits b 264 264 = 1 then .e else .w, ⟨pktBits b 274 272 % 8 + 1, by omega⟩⟩
    dtag := pktField b 36 2, mask := pktField b 38 2, base := pktBits b 331 320, leaveM := pktBits b 343 332
    allow := pktBits b 359 352, dflt := pktBits b 362 360, apert := pktBits b 365 363 }

/-- The checks of R453, in order. -/
def State.createFail (s : State) (c : Create) : Option Fail :=
  firstFail [
    failIf (s.partExists c.part) stBadField 32,
    failIf ((s.partOfWin c.win).isSome) stBadField 34,
    failIf ((List.range 9).any fun m => m != c.part && (s.maskOf m &&& c.mask) != 0) stBadField 38,
    failIf (s.fget R.PWR_LIMIT_PKG_W 0 0 < s.committed + c.base) stBadField 40,
    failIf (!(c.allow.testBit c.dflt && c.allow.testBit c.apert)) stBadField 44]

/-- The service-class fields of a partition. -/
def State.setSvcPart (s : State) (p allow dflt apert : Nat) : State :=
  ((s.fset R.HUB_SVCPART_ALLOWED 0 p allow).fset R.HUB_SVCPART_DEFAULT 0 p dflt).fset R.HUB_SVCPART_APERTURE 0 p apert

/-- The partition comes to exist (R453); what is written is sealed (R575). -/
def State.create (s : State) (c : Create) : State :=
  let s := (s.loadKey c.part).fset R.COH_WAYMASK_MASK 0 c.part c.mask
  let s := (s.fset R.PWR_PBASE_BASE_W 0 c.part c.base).fset R.PWR_PBASE_LEAVE_MAX 0 c.part c.leaveM
  let s := (s.setSvcPart c.part c.allow c.dflt c.apert).fset R.SEC_PART_EXISTS 0 c.part 1
  let s := s.fadd R.SEC_PART_GEN 0 c.part 1
  (s.setPart c.part { s.part c.part with
    win := some c.win, dtag := BitVec.ofNat 16 c.dtag, created := s.tally, whip := none, also := none, sev := false }).disarm

/-- A function's reset runs (R505, R509). -/
def State.flrRuns (s : State) (w : Win) : Bool := s.fvec (flrVf w.port) 0 0 (w.fn.val - 1)

/-- PART_CREATE (R453): a function whose reset runs is waited for (R509). -/
def execPartCreate (id : Nat) (s : State) : Res :=
  match s.run id with
  | none => .next s
  | some r =>
    let c := createOf r.bytes
    if s.flrRuns c.win then .next s
    else .next (s.cmdBody id 0xC1 fun r s =>
      match s.createFail c with
      | some f => s.finish r.id f.1 f.2
      | none => (s.create c).finish r.id stOk 0)

/-! ## PART_GRANT (R454 to R456) -/

def grantPart (r : Run) : Nat := pktBits r.bytes 258 256
def grantOp (r : Run) : Nat := pktField r.bytes 33 1
def grantN (r : Run) : Nat := pktField r.bytes 34 2
def grantSet (r : Run) : Nat := pktBits r.bytes 292 288
def grantRec (r : Run) (i : Nat) : Nat := pktField r.bytes (40 + 8 * i) 8

/-- A partition that a command can act on: one that is being whipped counts as none (R485). -/
def State.partReady (s : State) (p : Nat) : Bool := s.partExists p && (s.part p).whip.isNone

/-- The body of a PART_GRANT of one op: the partition exists; its TDI learns of the change (R475). -/
def State.grantRow (s : State) (id : Nat) (isOp : Nat → Bool) (k : Run → Nat → State → State) : State :=
  match s.run id with
  | none => s
  | some r =>
    if !isOp (grantOp r) then s
    else s.cmdBody id 0xC2 fun r s =>
      let p := grantPart r
      if s.partReady p then k r p (s.tdiError p) else s.finish r.id stNoPartition 0

/-- A parameter refused: named by its offset (R456). -/
def State.badParam (s : State) (r : Run) : State := s.finish r.id stBadField 36

/-- Applies records i on in order; the first that fails gives its index (R456, R631). -/
def State.grantRecs (s : State) (r : Run) (one : State → Nat → Option State) (i : Nat) : Nat → State
  | 0 => s
  | n + 1 =>
    match one s (grantRec r i) with
    | none => s.finish r.id stBadField (2 ^ 23 + i)
    | some s => State.grantRecs s r one (i + 1) n

/-- A grant is done when no granule of it is still to be filled (R455). -/
def State.grantEnd (s : State) (id : Nat) : State :=
  match s.run id with
  | none => s
  | some r => if r.left = 0 then s.finish id stOk 0 else s

/-- Assigns a free tile group (R454): one that has passed its test and is not withdrawn (R540). -/
def State.grantGroup (p : Nat) (s : State) (v : Nat) : Option State :=
  let g := bitsOf v 4 0
  if g < s.nGroups ∧ s.groupOwner g = none ∧ s.boot.groups.contains g ∧ !s.boot.gone.contains g then
    some ((s.fset R.HUB_TGOWN_PART g 0 p).fset R.HUB_TGOWN_OWNED g 0 1)
  else none

/-- PART_GRANT op GROUPS, and an OP that the table of R454 lacks. -/
def execPartGrantGroups (id : Nat) (s : State) : Res :=
  .next (s.grantRow id (fun op => op == 0 || 8 ≤ op) fun r p s =>
    if grantOp r ≠ 0 then s.finish r.id stBadField 33
    else (s.grantRecs r (State.grantGroup p) 0 (grantN r)).grantEnd r.id)

/-- Assigns free granules under the partition's key (R454, R455). -/
def State.grantGran (id p : Nat) (s : State) (v : Nat) : Option State :=
  let gs := rangeOf v
  if gs.isEmpty || !gs.all s.granFree then none
  else some (s.grantGrans id p gs { owner := BitVec.ofNat 4 p, slot := BitVec.ofNat 5 p })

/-- PART_GRANT op GRANULES. -/
def execPartGrantGranules (id : Nat) (s : State) : Res :=
  .next (s.grantRow id (· == 1) fun r p s => (s.grantRecs r (State.grantGran r.id p) 0 (grantN r)).grantEnd r.id)

/-- Owner of a Cleat block, and the blocks of the part (R450). -/
def State.blockPart (s : State) (b : Nat) : Option Nat := tget (fun _ => none) s.cleats.blocks b
def State.nBlocks (s : State) : Nat := if s.fuse.small then 32 else 64

/-- Every Cleat of a block reads zero. -/
def State.zeroBlock (s : State) (b : Nat) : State :=
  { s with cleats := { s.cleats with vals := tkeep (fun c => c / 1024 != b) s.cleats.vals } }

/-- Assigns a free Cleat block (R454). -/
def State.grantBlock (p : Nat) (s : State) (v : Nat) : Option State :=
  let b := bitsOf v 5 0
  if b < s.nBlocks ∧ s.blockPart b = none then
    let s := s.zeroBlock b
    some { s with cleats := { s.cleats with blocks := tset (fun _ => none) s.cleats.blocks b (some p) } }
  else none

/-- PART_GRANT op CLEATS. -/
def execPartGrantCleats (id : Nat) (s : State) : Res :=
  .next (s.grantRow id (· == 2) fun r p s => (s.grantRecs r (State.grantBlock p) 0 (grantN r)).grantEnd r.id)

/-- A record of SHARED_NEW: the first makes the set (R454). -/
def State.grantShared (id p k : Nat) (s : State) (v : Nat) : Option State :=
  let gs := rangeOf v
  if gs.isEmpty || !gs.all s.granFree then none
  else
    let x := s.sset k
    let s := if x.live then s else s.loadKey (sharedSlot k)
    let s := s.setSset k { x with live := true, writer := p, ranges := x.ranges ++ [(bitsOf v 11 0, bitsOf v 23 12)] }
    some (s.grantGrans id (sharedSlot k) gs
      { owner := 8, writer := BitVec.ofNat 3 p, share := BitVec.ofNat 8 (2 ^ p), slot := BitVec.ofNat 5 (sharedSlot k) })

/-- PART_GRANT op SHARED_NEW. -/
def execPartGrantSharedNew (id : Nat) (s : State) : Res :=
  .next (s.grantRow id (· == 3) fun r p s =>
    let k := grantSet r
    let x := s.sset k
    if 21 < k || (x.live && (x.sealed || x.writer != p)) then s.badParam r
    else (s.grantRecs r (State.grantShared r.id p k) 0 (grantN r)).grantEnd r.id)

/-- A record of SHARE_ADD: the SHARE bit of a partition in every granule of a sealed set (R454, R457). -/
def State.grantShare (k : Nat) (s : State) (v : Nat) : Option State :=
  let q := bitsOf v 2 0
  if (s.sset k).sealed && s.partExists q then
    some ((s.setGrans k).foldl (fun s g => s.setOwn g { s.own g with share := withBit (s.own g).share q true }) s)
  else none

/-- PART_GRANT op SHARE_ADD. -/
def execPartGrantShareAdd (id : Nat) (s : State) : Res :=
  .next (s.grantRow id (· == 4) fun r _ s =>
    let k := grantSet r
    if (s.sset k).live then (s.grantRecs r (State.grantShare k) 0 (grantN r)).grantEnd r.id else s.badParam r)

/-- Whether a granule can mirror another: in a block of the same scope, in the other half or on another stack (R458). -/
def State.mirrorFits (s : State) (g m : Nat) : Bool :=
  let small := s.fuse.small
  let sc := s.scope (blockOf small g)
  let n := if small then 4 else 8
  s.granFree m && s.scope (blockOf small m) == sc
    && (if sc = 1 then !small && g % 2 != m % 2 else sc == 2 && g % n != m % n)

/-- Mirrors one range of a set, from a mirror's first granule on (R458): ciphertext and check bytes under the original's tweak. -/
def State.mirrorRange (k : Nat) (s : State) (range : Nat × Nat) (first : Nat) : Option State :=
  let pairs := (List.range range.2).map fun i => (range.1 + i, first + i)
  if !pairs.all fun (g, m) => s.mirrorFits g m then none
  else
    some (pairs.foldl (fun s (g, m) =>
      let s := (s.leaveFill [m]).copyGranule g m
      let s := s.setOwn m { owner := 14, slot := BitVec.ofNat 5 (sharedSlot k) }
      s.setOwn g { s.own g with mirror := true, mirrorG := BitVec.ofNat 12 m }) s)

/-- A SEAL's mirror records, one for each range of the set in its order. -/
def State.mirrorRecs (s : State) (r : Run) (k i : Nat) : List (Nat × Nat) → State
  | [] => s.setSset k { s.sset k with mirrors := true }
  | g :: rest =>
    match State.mirrorRange k s g (bitsOf (grantRec r i) 11 0) with
    | none => s.finish r.id stBadField (2 ^ 23 + i)
    | some s => s.mirrorRecs r k (i + 1) rest

/-- Seals a set: RO 1 in every granule (R454). -/
def State.sealSet (s : State) (k : Nat) : State :=
  ((s.setGrans k).foldl (fun s g => s.setOwn g { s.own g with ro := true }) s).setSset k { s.sset k with sealed := true }

/-- PART_GRANT op SEAL (R454, R458). -/
def execPartGrantSeal (id : Nat) (s : State) : Res :=
  .next (s.grantRow id (· == 5) fun r p s =>
    let k := grantSet r
    let mirror := pktBits r.bytes 296 296 == 1
    let x := s.sset k
    if !x.live || x.writer != p || (x.sealed && mirror && x.mirrors) then s.badParam r
    else if mirror && grantN r != x.ranges.length then s.finish r.id stBadField 34
    else
      let s := if x.sealed then s else s.sealSet k
      (if mirror then s.mirrorRecs r k 0 x.ranges else s).grantEnd r.id)

/-- A record of RELEASE: the partition's own granules lose their cached lines and are filled under its key; each is free once it is
filled (R454, R626). -/
def State.releaseGran (id p : Nat) (s : State) (v : Nat) : Option State :=
  let gs := rangeOf v
  if gs.isEmpty || !gs.all fun g => (s.own g).owner.toNat == p then none
  else
    let s := s.dropLines fun n => gs.contains (granOf (n * 64))
    some ((s.queueFill gs p (some id)).await id gs.length)

/-- PART_GRANT op RELEASE. -/
def execPartGrantRelease (id : Nat) (s : State) : Res :=
  .next (s.grantRow id (· == 6) fun r p s => (s.grantRecs r (State.releaseGran r.id p) 0 (grantN r)).grantEnd r.id)

/-- PART_GRANT op SHARED_RETIRE (R463, R626). -/
def execPartGrantSharedRetire (id : Nat) (s : State) : Res :=
  .next (s.grantRow id (· == 7) fun r _ s =>
    let k := grantSet r
    if (s.sset k).live then (s.retireSet k).finish r.id stOk 0 else s.badParam r)

/-! ## Whipping (R462 to R464) -/

/-- Cancels the requests that the partition's fault records hold and frees every record of its window (R415): an Xlate of a chiplet
is answered with its record's kind (R413). -/
def State.freeFaults (s : State) (p win : Nat) : State :=
  let gone := s.xlt.held.filter fun h => h.part == p
  let s := { s with xlt := { s.xlt with held := s.xlt.held.filter fun h => h.part != p } }
  let s := gone.foldl (fun s h => match h.what with | .xlate k tag _ => s.xlateRsp k tag 0 h.kind | _ => s) s
  (List.range 32).foldl (fun s r => if s.fbit R.XLT_FREC_VALID win r then s.dropRecord win p r else s) s

/-- What a port holds for a function is discarded, its reads refused (R466). -/
def State.dropHeldAt (s : State) (w : Win) : State :=
  let mine (h : HeldAcc) : Bool := match h with | .lane v _ _ _ => v == w | .aper v _ _ _ _ _ => v == w
  let l := s.heldAt w.port
  let s := s.setHeldAt w.port (l.filter fun h => !mine h)
  let s := l.foldl (fun s h => match h with | .aper v _ _ wr _ _ => if v = w then s.apRefuse w.idx wr.isNone else s | _ => s) s
  s.retryPort w.port

/-- Every valid handle of the partition (R357). -/
def State.dropHandles (s : State) (p : Nat) : State :=
  s.lan.handles.foldl (fun s e =>
    if Hnd.valid e.2 && Hnd.part e.2 == p then s.setHandle e.1 (BitVec.ofNat 256 (e.2.toNat - 1)) else s) s

/-- The running commands of a window that write no reply record leave, with their leave (R396, R443). -/
def State.dropMute (s : State) (w : Win) : State :=
  let mine (r : Run) : Bool := !r.halyard && r.win == w && !r.replied
  let rs := s.cmds.runs.filter mine
  let s := { s with cmds := { s.cmds with runs := s.cmds.runs.filter fun r => !mine r } }
  (rs.foldl (fun s r => if r.leave then s.returnLeave (.cmd r.id) else s) s).laneResets w

/-- A PART_GRANT that runs for the partition ends with NO_PARTITION, its fills no longer its own (R485). -/
def State.dropGrants (s : State) (p : Nat) : State :=
  s.cmds.runs.foldl (fun s r =>
    if pktOpcode r.bytes = 0xC2 ∧ grantPart r = p ∧ r.body then
      let s := { s with hank := { s.hank with zfill := s.hank.zfill.filter fun j => j.cmd != some r.id } }
      s.setRun { r.finish stNoPartition 0 with left := 0 }
    else s) s

/-- Steps 1 and 2 of R462: apertures, fault records, lanes, handles, commands. `mute`: no reply records follow (R396). -/
def State.silence (s : State) (p : Nat) (w : Win) (mute : Bool) (cause : Nat) : State :=
  let s := (List.range 4).foldl (fun s n => s.fset R.XLT_AP_LO_EN w.idx n 0) s
  let s := s.freeFaults p w.idx
  let s := (List.range 4).foldl (fun s l => (s.flushLane w l true cause).flushEffect w l mute) s
  let s := (((s.cutAccesses w mute).dropHeldAt w).dropHandles p).dropGrants p
  if mute then s.dropMute w else s

/-- The sites bound to a partition, and those that leave it. -/
def State.sitesOf (s : State) (p : Nat) (unbinding : Bool) : List Nat :=
  (List.range 8).filter fun k =>
    (s.siteState k == 4 || (unbinding && s.siteState k == 5)) && s.fget R.SITE_STAT_PART k 0 == p

/-- The tile groups of a partition. -/
def State.groupsOf (s : State) (p : Nat) : List Nat := (List.range s.nGroups).filter fun g => s.groupOwner g == some p

/-- Register fields of a tile, at place t mod 4 of its group (R150). -/
def tileRegs : List Fld :=
  [R.HUB_TFAULT0_CODE, R.HUB_TFAULT0_OPIDX, R.HUB_TFAULT0_OVERRUN, R.HUB_TFAULT0_VALID, R.HUB_TFAULT1_ADDR_LO, R.HUB_TFAULT2_ADDR_HI,
   R.HUB_TCONF_MAT, R.HUB_TCONF_VEC, R.HUB_TCONF_QNT, R.HUB_TCONF_LDR, R.HUB_TCONF_GTH, R.HUB_TCONF_GRP]

/-- The range cache of an agent empties. -/
def State.dropCaches (s : State) (a : Agent) : State :=
  { s with xlt := { s.xlt with caches := s.xlt.caches.filter fun e => e.owner != a } }

/-- The tile is back at reset: zeroes in its memories, no list, its registers at reset; answers still on their way go to nobody
(R464). -/
def State.wipeTile (s : State) (t : Nat) : State :=
  let a : Agent := ⟨.tile, t⟩
  let x := s.tile t
  let s := s.dropTileReqs t
  let keep := s.fab.txs.filter fun (u : Tx) => !(u.pkt.src == a && u.waits)
  let s := { s with fab := { s.fab with txs := keep.map fun (u : Tx) => if u.pkt.src = a then { u with purp := .quiet } else u } }
  let s := s.lan.trackers.foldl (fun (s : State) (e : Nat × Tracker) =>
    match e.2.owner with
    | some (.tile ti _) =>
      if ti = t ∧ e.2.busy then
        (s.setTracker e.1 { s.tracker e.1 with owner := none, len := min e.2.len e.2.sent, lcleat := none }).checkTracker e.1
      else s
    | _ => s) s
  let s := s.setTile t { eccs := x.eccs, nextSeq := x.nextSeq }
  ((s.fresetAll (t / 4) (t % 4) tileRegs).dropCaches a).pump

def State.wipeGroups (s : State) (gs : List Nat) : State :=
  (gs.flatMap fun g => mates (4 * g)).foldl State.wipeTile s

/-- Lines in the ways of a partition, at homes and proxies. -/
def State.wayLines (s : State) (p : Nat) : List Nat :=
  let m := s.maskOf p
  ((s.fab.lines.filter fun e => e.2.way < 16 && m.testBit e.2.way).map (·.1))
    ++ (s.fab.plines.filter fun e => e.2.way < 16 && m.testBit e.2.way).map (·.1)

/-- The Cleats of the partition's blocks read zero; no waiter and no increment on its way finds them (R464, R625). -/
def State.wipeCleats (s : State) (p : Nat) : State :=
  let mine (c : BitVec 16) : Bool := s.cleatOwner c.toNat == some p
  let fly := s.cleats.flying.filter fun m => mine m.cleat
  let sig := s.cleats.sigs.filter fun m => mine m.cleat
  let t := { s with cleats := { s.cleats with
    vals := tkeep (fun c => !mine (BitVec.ofNat 16 c)) s.cleats.vals
    flying := s.cleats.flying.filter fun m => !mine m.cleat
    sigs := s.cleats.sigs.filter fun m => !mine m.cleat
    watches := s.cleats.watches.filter fun m => !mine m.cleat } }
  let t := fly.foldl (fun t m => t.incDone m 2) t
  sig.foldl (fun t m => t.siteRsp m.site (bankOf m.cleat) (cleatTo m.slot m.tag m.cleat) 2 0 0 none) t

/-- The sequence directory's entries of a partition are no longer valid. -/
def State.wipeDir (s : State) (p : Nat) : State :=
  s.cmds.seqdir.foldl (fun (s : State) e =>
    if e.2.toNat.testBit 59 && bitsOf e.2.toNat 58 56 == p then
      { s with cmds := { s.cmds with seqdir := tset (fun _ => 0#128) s.cmds.seqdir e.1 (BitVec.ofNat 128 (e.2.toNat - 2 ^ 59)) } }
    else s) s

/-- Reassembly slots of a partition's handles are free. -/
def State.wipeSlots (s : State) (p : Nat) : State :=
  { s with lan := { s.lan with slots := s.lan.slots.filter fun c => Hnd.part c.entry != p } }

/-- Context tables of a partition and their cached entries are gone. -/
def State.wipeCtxs (s : State) (p : Nat) : State :=
  { s with xlt := { s.xlt with tables := tkeep (fun c => c / 512 != p) s.xlt.tables
                               caches := s.xlt.caches.filter fun e => e.ctx.toNat / 512 != p } }

/-- Sequence slots, collective slots, contexts and their caches of the partition (R464). -/
def State.wipeTables (s : State) (p : Nat) : State := ((s.wipeDir p).wipeSlots p).wipeCtxs p

/-- The Fid forgets a partition (R464, R596). -/
def State.wipeFid (s : State) (p : Nat) : State :=
  let s := [R.FID_BUF_SBASE_LO, R.FID_BUF_SBASE_HI, R.FID_BUF_SCTX, R.FID_BUF_SSIZE, R.FID_BUF_SPTR, R.FID_BUF_TBASE_LO,
    R.FID_BUF_TBASE_HI, R.FID_BUF_TCTX, R.FID_BUF_TSIZE, R.FID_BUF_TPTR].foldl (fun s f => s.fset f 0 p 0) s
  let s := [0, 1].foldl (fun s h => (List.range 64).foldl (fun s n =>
    if s.fget R.FID_SEL_BUF h n = p ∨ s.fget R.FID_SEL_PART h n = p then
      s.fresetAll h n [R.FID_VAL_LO, R.FID_VAL_HI, R.FID_VAL_WRAP, R.FID_SEL_SAMPLE, R.FID_SEL_EN]
    else s) s) s
  let s := { s with fid := { s.fid with
    queueW := s.fid.queueW.filter fun r => r.part != p
    queueE := s.fid.queueE.filter fun r => r.part != p
    seqs := tset (fun _ => 0) s.fid.seqs p 0
    late := s.fid.late.filter (· != p) } }
  if s.fget R.FID_TRIG_PART 0 0 = p then
    { (s.fset R.FID_TRSTAT_STATE 0 0 0) with fid := { s.fid with armed := false } }
  else s

/-- Key retirement of a partition (R463), with the open sets that it writes (R457, R505). -/
def State.retireKey (s : State) (p : Nat) : State :=
  let gs := s.ownedBy fun r => r.owner.toNat == p
  let s := (s.freeGrans p gs).unloadKey p
  let s := s.setPart p { s.part p with zfillAt := if gs.isEmpty then s.tally else 0 }
  (List.range 22).foldl (fun s k =>
    let x := s.sset k
    if x.live && !x.sealed && x.writer == p then s.retireSet k else s) s

/-- The items of R464 that belong to the device itself. -/
def State.whipItems (s : State) (p : Nat) : State :=
  let ways := s.wayLines p
  let s := (s.retireKey p).wipeGroups (s.groupsOf p)
  let s := s.dropLines fun n => ways.contains n
  let fr (x : HeldTx) : Bool := x.pkt.ctx.toNat / 512 == p && (match x.purp with
    | .copyRd _ _ _ | .cmdWr _ | .load _ _ _ _ _ _ _ | .store _ _ _ _ | .fetch _ | .quiet => true | _ => false)
  let s := { s with fab := { s.fab with regq := s.fab.regq.filter fun x => !fr x } }
  ((s.wipeCleats p).wipeTables p).wipeFid p

/-- Starts the whipping of a partition (steps 3 and 4 of R462). -/
def State.beginWhip (s : State) (p : Nat) (why : WhipFor) : State :=
  let s := (s.sitesOf p false).foldl (fun s k => s.unbindStart k none) s
  let s := (s.setPart p { s.part p with whip := some why, also := none, sev := false }).fset R.SEC_PART_WHIPPING 0 p 1
  s.whipItems p

/-- A partition that is being whipped meets a second reason (R485, R509). -/
def State.alsoWhip (s : State) (p : Nat) (why : WhipFor) : State :=
  let x := s.part p
  if x.also.isNone && (match x.whip, why with | some (.destroy _), _ => false | _, .flr => false | some .alarm, .alarm => false | _, _ => true)
  then s.setPart p { x with also := some why } else s

/-- Keys of the IDE stream of a function (R460). -/
def State.dropIde (s : State) (w : Win) : State := { s with sec := { s.sec with ide := s.sec.ide.filter (· != w.idx) } }

/-- Destruction (R462 steps 1 to 4), by a command or an alarm. -/
def State.destroyPart (s : State) (p : Nat) (why : WhipFor) : State :=
  match (s.part p).win with
  | none => s
  | some w =>
    let s := ((s.tdiError p).dropIde w).clearShares p
    if (s.part p).whip.isSome then s.alsoWhip p why
    else (s.silence p w true 0).beginWhip p why

/-- PART_DESTROY (R462). -/
def execPartDestroy (id : Nat) (s : State) : Res :=
  .next (s.cmdBody id 0xC3 fun r s =>
    let p := grantPart r
    if s.partExists p then s.destroyPart p (.destroy r.id) else s.finish r.id stNoPartition 0)

/-- Step 5 of R462: what the partition owned returns to the free pool. -/
def State.freePart (s : State) (p : Nat) : State :=
  let s := (s.fset R.PWR_PBASE_BASE_W 0 p 0).fset R.PWR_PBASE_LEAVE_MAX 0 p 0
  let s := (s.setSvcPart p 0 0 0).fset R.COH_WAYMASK_MASK 0 p 0
  let s := { s with fab := { s.fab with wayStaged := tkeep (· != p) s.fab.wayStaged } }
  let s := (s.groupsOf p).foldl (fun s g => (s.fset R.HUB_TGOWN_OWNED g 0 0).fset R.HUB_TGOWN_PART g 0 0) s
  let mine := (List.range 64).filter fun b => s.blockPart b == some p
  let s := { s with cleats := { s.cleats with
    blocks := mine.foldl (fun l b => tset (fun _ => none) l b none) s.cleats.blocks } }
  let s := (s.fset R.SEC_PART_EXISTS 0 p 0).setPart p { s.part p with win := none, dtag := 0 }
  ((s.disarm).updGates).decideQueue 32

/-- Step 4 of R505: a fresh key, empty lanes, the XLT window block at reset. -/
def State.renewPart (s : State) (p : Nat) (w : Win) : State :=
  let s := (List.range 4).foldl (fun s l => s.orderReset w l) (s.loadKey p)
  let s := (List.range 4).foldl (fun s n =>
    s.fresetAll w.idx n [R.XLT_AP_LO_EN, R.XLT_AP_LO_APBASE_LO, R.XLT_AP_HI_APBASE_HI, R.XLT_AP_HI_CTX]) s
  s.fresetAll w.idx 0 [R.XLT_FEVENT_NEW, R.XLT_FEVENT_FULL, R.XLT_FEVENT_APERTURE]

/-- The whipping record of a partition, in SEC_WHIP and in its own fields (R462, R469, R486). -/
def State.whipRecord (s : State) (p us : Nat) (alarm : Bool) : State :=
  let x := s.part p
  let s := (s.fset R.SEC_WHIP_US 0 0 us).fset R.SEC_WHIP_PART 0 0 p
  let s := ((s.fset R.SEC_WHIP_DONE 0 0 1).fset R.SEC_WHIP_SEVERED 0 0 (b2n x.sev)).fset R.SEC_WHIP_KEYGONE 0 0 1
  let s := (s.fset R.SEC_WHIP_ALARM 0 0 (b2n alarm)).fset R.SEC_PART_WHIPPING 0 p 0
  s.setPart p { x with whip := none, also := none, sev := false, whipAt := s.tally, whipUs := us,
                       whipFl := 5 + 2 * b2n x.sev + 8 * b2n alarm }

/-- A destroy command learns that the whipping is complete (step 6 of R462). -/
def State.destroyDone (s : State) (p : Nat) (why : Option WhipFor) : State :=
  match why with
  | some (.destroy id) =>
    let x := s.part p
    match s.run id with
    | none => s
    | some r => s.setRun { r.finish stOk 0 with res := [BitVec.ofNat 64 (x.whipUs + x.whipFl * 2 ^ 32), x.whipAt] }
  | _ => s

def WhipFor.destroys (w : Option WhipFor) : Bool := match w with | some (.destroy _) | some .alarm => true | _ => false

/-- The reset of the partition's function is over (R505 step 4). -/
def State.flrDone (s : State) (w : Win) : State :=
  if s.flrRuns w then ((s.fsetBit (flrVf w.port) 0 0 (w.fn.val - 1) false).evPci R.PCI_EVENT_FLR_DONE).pfDone w.port else s

/-- The whipping of a partition can be complete: its sites are unbound or severed, no half of it is in a warm reset, and no request of
it waits in self-refresh (R463, R464, R485). -/
def State.whipOver (s : State) (p : Nat) : Bool :=
  (s.part p).whip.isSome && (s.sitesOf p true).isEmpty && (s.half .west).warm.isNone && (s.half .east).warm.isNone
    && !(s.hank.cold.any fun q => q.ctx.toNat / 512 == p)
    && !(s.ports.posted.any fun q => q.accs.any fun x => x.1.ctx.toNat / 512 == p)

/-- WHIPPING_COMPLETE (R462, R465, R467, R505), after the µs named; fault records taken meanwhile are dropped with the rest (R464). -/
def State.whipDone (s : State) (p us : Nat) : State :=
  let x := s.part p
  match x.win with
  | none => s
  | some w =>
    let s := (s.whipRecord p us (x.whip == some .alarm)).freeFaults p w.idx
    let s := if WhipFor.destroys x.whip || WhipFor.destroys x.also then s.freePart p else s.renewPart p w
    ((s.destroyDone p x.whip).destroyDone p x.also).flrDone w

def execWhippingComplete (p : Fin 8) (us : BitVec 16) (s : State) : Res :=
  whenever s (s.whipOver p.val) (s.whipDone p.val us.toNat)

/-! ## Contexts (R402) -/

/-- The context of a CTX_SET is the window's partition's. -/
def State.ctxOurs (s : State) (r : Run) : Bool := invalCtx r / 512 == s.runPart r

/-- Writes the table pointer of a context, whose cached entries go (R402, R420). -/
def State.setTable (s : State) (r : Run) (t : Option Dpa) : State :=
  State.doInval { s with xlt := { s.xlt with tables := tset (fun _ => none) s.xlt.tables (invalCtx r) t } } r

/-- A CTX_SET of OP 0, or of an OP that is refused. -/
def State.doCtxSet (s : State) (r : Run) : State :=
  let t := pktField r.bytes 40 8 % 2 ^ 44
  if !s.ctxOurs r then s.finish r.id stCtxOwner 32
  else if pktField r.bytes 34 1 ≠ 0 then s.finish r.id stBadField 34
  else if t % 16 ≠ 0 ∨ 0x10000000 < t % 0x10000000 + 16400 then s.finish r.id stBadField 40
  else s.setTable r (some (BitVec.ofNat 44 t))

/-- Whether a run is a CTX_SET that clears (R402). -/
def clears (s : State) (id : Nat) : Bool := match s.run id with | none => false | some r => pktField r.bytes 34 1 == 1

/-- CTX_SET (R402). -/
def execCtxSet (id : Nat) (s : State) : Res :=
  .next (if clears s id then s else s.cmdBody id 0xC4 fun r s => s.doCtxSet r)

/-- CTX_CLEAR: CTX_SET with OP 1. -/
def execCtxClear (id : Nat) (s : State) : Res :=
  .next (if clears s id then s.cmdBody id 0xC4 fun r s =>
    if s.ctxOurs r then s.setTable r none else s.finish r.id stCtxOwner 32 else s)

/-! ## Sites (R308, R387) -/

def bindSite (r : Run) : Nat := pktBits r.bytes 258 256
def bindPart (r : Run) : Nat := pktBits r.bytes 262 260
def bindSlot (r : Run) (n : Nat) : Nat × Bool := (pktBits r.bytes (331 + 16 * n) (320 + 16 * n), pktBits r.bytes (335 + 16 * n) (335 + 16 * n) == 1)

/-- The statuses of a SITE_BIND in their order (R387). -/
def State.bindFail (s : State) (r : Run) : Option Fail :=
  let k := bindSite r
  let p := bindPart r
  firstFail [
    failIf (!s.partReady p) stNoPartition 0,
    failIf (s.siteState k != 3) stSiteState (s.siteState k),
    ((List.range 16).find? fun n => (bindSlot r n).2 && (bindSlot r n).1 / 512 != p).map fun n => (stCtxOwner, 40 + 2 * n),
    failIf (!(pktField r.bytes 33 1).testBit (pktBits r.bytes 274 272)) stBadField 34,
    failIf (pktBits r.bytes 263 263 == 1 && pktField r.bytes 104 64 != (((s.site k).digests).headD 0).toNat) stDigestMismatch 0]

/-- A site is bound: its slot map and classes, MAIN_OPEN, BOUND (R308). -/
def State.bind (s : State) (r : Run) : State :=
  let k := bindSite r
  let p := bindPart r
  let s := (List.range 16).foldl (fun s n => s.setSlot k n (bindSlot r n).1 (bindSlot r n).2) s
  let s := (s.fset R.SITE_SVC_ALLOWED k 0 (pktField r.bytes 33 1)).fset R.SITE_SVC_DEFAULT k 0 (pktBits r.bytes 274 272)
  let s := (((s.disarm).setSiteState k 4).fset R.SITE_STAT_PART k 0 p).fset R.SITE_STAT_REASON k 0 0
  (s.tdiError p).sideMsg k []

/-- SITE_BIND (R308, R387). -/
def execSiteBind (id : Nat) (s : State) : Res :=
  .next (s.cmdBody id 0xC5 fun r s =>
    match s.bindFail r with
    | some f => s.finish r.id f.1 f.2
    | none => (s.bind r).finish r.id stOk 0)

/-- SITE_UNBIND (R311, R387). -/
def execSiteUnbind (id : Nat) (s : State) : Res :=
  .next (s.cmdBody id 0xC6 fun r s =>
    let k := bindSite r
    if s.siteState k ≠ 4 then s.finish r.id stSiteState (s.siteState k)
    else (s.tdiError (s.fget R.SITE_STAT_PART k 0)).unbindStart k (some r.id))

end Sys2Proof.Machine
end

