-- ==== Sys2Proof/Machine/Links.lean ====
section
/-! DEFINITION. Lanyard links: their states, routes, training, recovery, retirement, and what becomes of the messages of a
link that carries no more (R325 to R346, R357, R630). -/

namespace Sys2Proof.Machine

/-! ## States and reasons (R333, R362) -/

def lsOff : Nat := 0
def lsTraining : Nat := 1
def lsAttesting : Nat := 2
def lsUp : Nat := 3
def lsRecovering : Nat := 4
def lsDown : Nat := 5
def lsRetired : Nat := 6
def lsRefused : Nat := 7

def lrNoFau : Nat := 1
def lrNoLight : Nat := 2
def lrTrainFail : Nat := 3
def lrMiswired : Nat := 4
def lrAttestFail : Nat := 5
def lrWidth : Nat := 6
def lrRecoveries : Nat := 7
def lrTagFail : Nat := 8
def lrOperator : Nat := 9
def lrHalfReset : Nat := 10
def lrDomainStop : Nat := 11

/-- The sliding window of R335. -/
def lnkWindow : Nat := 0x40000000

def State.modLink (s : State) (l : Nat) (f : Link → Link) : State := s.setLink l (f (s.link l))

/-- Writes STATE and REASON of a link. -/
def State.setLState (s : State) (l st reason : Nat) : State :=
  (s.fset R.LNK_LSTAT_STATE 0 l st).fset R.LNK_LSTAT_REASON 0 l reason

/-- The wavelengths live on a link, and the width that they make (R334, R362). -/
def State.setLanes (s : State) (l lanes : Nat) : State :=
  (s.fset R.LNK_LSTAT_LANES 0 l lanes).fset R.LNK_LSTAT_WIDTH 0 l (((List.range 4).filter fun w => lanes.testBit w).length)

/-- A half in which links may train: one that has come to the links stage of its bring-up (R521, R547). -/
def State.linkHalfUp (s : State) (h : Half) : Bool := (s.half h).live && 3 ≤ (s.half h).stage

/-- Whether a link may train: its unit is fitted, its half runs, the domain table uses it and the domain has been started
(R333, R339). -/
def State.linkUsable (s : State) (l : Nat) : Bool :=
  s.lan.fau.toNat.testBit (l / 4) && s.linkHalfUp (linkHalf l) && s.fget R.LNK_LCONF_EXPECT 0 l != 31 && s.lan.started

/-! ## Routes (R341 to R346) -/

/-- The devices reached directly. -/
def State.reaches (s : State) : Nat :=
  (List.range 25).foldl (fun n d => if d ≠ s.selfDev ∧ !(s.bundle d).isEmpty then n + 2 ^ d else n) 0

/-- The ROUTE that a link carries (R344). -/
def State.sendRoute (s : State) (l : Nat) : State :=
  s.stageOn l { LMsg.mk0 .route s.selfDev (s.fget R.LNK_LSTAT_PEER 0 l) with
    reach := BitVec.ofNat 26 (s.reaches + 2 ^ 25 * s.fget R.LNK_CONF_RELAY 0 0) }

/-- The links that are UP. -/
def State.upLinks (s : State) : List Nat := (List.range s.nLinks).filter fun l => s.lstate l == lsUp

/-- The devices that LNK_ROUTE shows reached directly. -/
def State.shownReach (s : State) : Nat :=
  (List.range 25).foldl (fun n d => if s.fget R.LNK_ROUTE_LINKS 0 d ≠ 0 then n + 2 ^ d else n) 0

/-- LNK_ROUTE of one device, with UNREACH on a change from reached to unreachable (R345). -/
def State.routeOf (s : State) (d : Nat) : State :=
  let was := s.fget R.LNK_ROUTE_LINKS 0 d ≠ 0 ∨ s.fbit R.LNK_ROUTE_RELAYED 0 d
  let inDom := decide (d < s.domSize) && d != s.selfDev
  let links := if inDom then (s.bundle d).foldl (fun n l => n + 2 ^ l) 0 else 0
  let via := if inDom && links == 0 then s.relayOf d else none
  let s := (s.fset R.LNK_ROUTE_LINKS 0 d links).fset R.LNK_ROUTE_VIA 0 d (via.getD 0)
  let s := s.fset R.LNK_ROUTE_RELAYED 0 d (b2n via.isSome)
  let un := inDom && links == 0 && via.isNone && s.lan.started
  let s := s.fset R.LNK_ROUTE_UNREACH 0 d (b2n un)
  if un ∧ was then s.ev R.LNK_EVENT_UNREACH 0 else s

/-- Every other device of the domain is reached, directly or through a relay (R345). -/
def State.formed (s : State) : Bool :=
  s.lan.started && (List.range s.domSize).all fun d =>
    d == s.selfDev || s.fget R.LNK_ROUTE_LINKS 0 d != 0 || s.fbit R.LNK_ROUTE_RELAYED 0 d

/-- FORMED follows the routes; its loss is an event while the domain is started (R345). -/
def State.setFormed (s : State) : State :=
  let was := s.fbit R.LNK_DOM2_FORMED 0 0
  let now := s.formed
  let s := s.fset R.LNK_DOM2_FORMED 0 0 (b2n now)
  if was ∧ !now ∧ s.lan.started then s.ev R.LNK_EVENT_FORMED_LOST 0 else s

/-- What waits at the engines goes on (R343, R348). -/
def State.enginesGo (s : State) : State := ((s.retryPuts).retryWaits).pumpEngines

/-- ROUTE_RECOMPUTE (R344, R345): every link that is UP tells a change of the devices reached directly. -/
def State.routesGo (s : State) : State :=
  let was := s.shownReach
  let s := (List.range 25).foldl State.routeOf s
  let s := if s.shownReach ≠ was then s.upLinks.foldl State.sendRoute s else s
  s.setFormed.enginesGo

/-! ## Messages that lose their link (R357) -/

/-- Staged messages for the device itself stay at their engine; the others leave with the link (R343, R356). -/
def State.takeStaged (s : State) (l : Nat) : List LMsg × State :=
  let x := s.link l
  let mine (m : LMsg) : Bool := m.dstDev == s.selfDev
  (x.staged.filter fun m => !mine m, s.setLink l { x with staged := x.staged.filter mine })

/-- A link leaves UP or RECOVERING: its keys are erased (R332), and the messages of its replay buffer, then those staged, are
sent again elsewhere (R357). -/
def State.unloadLink (s : State) (l : Nat) : State :=
  let old := (s.link l).unacked.filterMap LFrame.msg
  let (st, s) := s.takeStaged l
  let s := s.modLink l fun x => { x.noKeys with unacked := [], narrow := false }
  (old ++ st).foldl State.resendMsg s

/-- Leaves a state for another; from UP or RECOVERING the link is unloaded and the routes are made again. -/
def State.leaveState (s : State) (l st reason : Nat) : State :=
  let was := s.lstate l
  let s := s.setLState l st reason
  let s := if st = lsRecovering then s else (s.setLanes l 0).fset R.LNK_LSTAT_EPOCH 0 l 0
  let s := if st = lsRecovering then s else s.fset R.LNK_LSTAT_PEER 0 l 31
  if was = lsUp ∨ was = lsRecovering then (s.unloadLink l).routesGo else s

/-- LASER_DARKEN (R630). -/
def State.laserOff (s : State) (l : Nat) : State := s.modLink l fun x => { x with lasers := false }

/-- A link is withdrawn (R335, R357, R630). -/
def State.retireLink (s : State) (l reason : Nat) : State :=
  ((s.leaveState l lsRetired reason).laserOff l).ev R.LNK_EVENT_RETIRED 0

/-- A link goes DOWN (R335, R357). -/
def State.downLink (s : State) (l reason : Nat) : State :=
  (s.leaveState l lsDown reason).ev R.LNK_EVENT_DOWN 0

/-- A link is refused (R328, R630). -/
def State.refuseLink (s : State) (l reason : Nat) : State :=
  ((s.leaveState l lsRefused reason).laserOff l).ev R.LNK_EVENT_REFUSED_LINK 0

/-- A link goes OFF, its lasers as they are (R340). -/
def State.offLink (s : State) (l reason : Nat) : State := s.leaveState l lsOff reason

/-- A full training starts (R336, R337): link layer, credits and wavelengths begin anew. -/
def State.trainLink (s : State) (l : Nat) : State :=
  (s.leaveState l lsTraining 0).modLink l fun x =>
    { recs := x.recs, tags := x.tags, fails := x.fails, staged := x.staged, lasers := true }

/-- Trains a link where it may. -/
def State.tryTrain (s : State) (l : Nat) : State := if s.linkUsable l then s.trainLink l else s

/-- The link's counter of failed trainings; the third in succession ends them (R335). -/
def State.trainFailed (s : State) (l : Nat) : State :=
  let n := (s.link l).fails + 1
  if 3 ≤ n then (s.modLink l fun x => { x with fails := 0 }).downLink l lrTrainFail
  else (s.modLink l fun x => { x with fails := n }).trainLink l

/-! ## Errors (R325, R332, R335) -/

/-- A wavelength is retired: the link narrows with its traffic held, or is withdrawn for its width (R335). -/
def State.retireLanes (s : State) (l lanes : Nat) : State :=
  let n := ((List.range 4).filter fun w => lanes.testBit w).length
  if n < s.fget R.LNK_CONF_MINW 0 0 then s.retireLink l lrWidth
  else
    let s := (s.setLanes l lanes).modLink l fun x => { x with narrow := true }
    (s.ev R.LNK_EVENT_RETIRED 0).ev R.LNK_EVENT_NARROWED 0

/-- RECOVERING (R335): the fourth recovery within the window withdraws the link; the rest of the bundle carries the traffic
meanwhile. -/
def State.recoverLink (s : State) (l : Nat) : State :=
  let ts := s.window lnkWindow (s.link l).recs ++ [s.tally]
  let s := s.modLink l fun x => { x with recs := ts }
  if 4 ≤ ts.length then s.retireLink l lrRecoveries
  else
    let s := s.setLState l lsRecovering 0
    let (st, s) := s.takeStaged l
    let keep := st.filter fun m => (s.nextHop m.dstDev).isNone && m.type != .route && m.type != .halfDown
    let s := s.modLink l fun x => { x with staged := x.staged ++ keep }
    ((st.filter fun m => (s.nextHop m.dstDev).isSome).foldl State.resendMsg s).routesGo

/-- A frame sent again: as it was stored (R325). -/
def State.frameBack (s : State) (l : Nat) (f : LFrame) : State :=
  (s.pushOut (.lreplay l f.seq)).pushOut (.lbytes l f.len f.bytes)

/-- Every unacknowledged frame is sent again from the oldest on (R325); the eighth replay of one frame starts a recovery (R335). -/
def State.replayLink (s : State) (l : Nat) : State :=
  let fs := (s.link l).unacked
  if fs.isEmpty then s
  else
    let s := (s.fadd R.LNK_LERR_REPLAYS 0 l 1).fidEvent (linkHalf l) 3 (l / 2) 1 none 1
    let s := s.modLink l fun x => { x with unacked := fs.map fun f => { f with resent := f.resent + 1 } }
    let s := fs.foldl (fun s f => s.frameBack l f) s
    if fs.any fun f => 7 ≤ f.resent then s.recoverLink l else s

/-! ## Leaving service -/

/-- HALF_DOWN goes out on a link that is UP (R340, R357, R545), unless 512 frames are unacknowledged (R325). -/
def State.sendHalfDown (s : State) (l : Nat) : State :=
  if s.lstate l = lsUp ∧ (s.link l).room then s.linkFrame l (some (LMsg.mk0 .halfDown s.selfDev (s.fget R.LNK_LSTAT_PEER 0 l)))
  else s

/-- The keys of a link are erased by an alarm: what its replay buffer holds can no longer be read, and the link attests anew over the
latest nonces (R332, R481; log 19). -/
def State.reattest (s : State) (l : Nat) : State :=
  if s.lstate l = lsUp ∨ s.lstate l = lsRecovering then
    let s := s.modLink l fun x => { x.noKeys with unacked := [], narrow := false, owes := true }
    ((s.setLState l lsAttesting 0).fset R.LNK_LSTAT_PEER 0 l 31).fset R.LNK_LSTAT_EPOCH 0 l 0
  else s

/-- Every link leaves the domain (step 4 of R340): keys, replay buffers, MSNs and windows are gone. -/
def State.dropDomain (s : State) : State :=
  let s := (List.range s.nLinks).foldl (fun s l =>
    let s := s.modLink l fun x => { lasers := x.lasers, recs := x.recs, tags := x.tags
                                    staged := x.staged.filter fun m => m.dstDev == s.selfDev }
    (((s.setLState l lsOff lrDomainStop).setLanes l 0).fset R.LNK_LSTAT_PEER 0 l 31).fset R.LNK_LSTAT_EPOCH 0 l 0) s
  { s with lan := { s.lan with msnTx := [], msnRx := [], reach := [], turn := []
                               waitMsg := s.lan.waitMsg.filter fun m => m.dstDev == s.selfDev } }

/-- START and the hub's own note of it (R339, R355). -/
def State.setStarted (s : State) (b : Bool) : State :=
  { s.fset R.LNK_DOM2_START 0 0 (b2n b) with lan := { s.lan with started := b } }

/-- START (R339): every link that the table uses begins its training. -/
def State.startDomain (s : State) : State :=
  let s := s.setStarted true
  ((List.range s.nLinks).foldl (fun s l => if s.lstate l = lsOff then s.tryTrain l else s) s).routesGo

/-- The links are all OFF (R339). -/
def State.linksOff (s : State) : Bool := (List.range s.nLinks).all fun l => s.lstate l == lsOff

/-- The West management core applies a domain table and starts the domain (R339). -/
def State.applyTable (s : State) (t : DomainTable) : State :=
  let s := (s.fset R.LNK_DOM0_IDENT 0 0 (t.ident.toNat % 2 ^ 32)).fset R.LNK_DOM1_IDENT 0 0 (t.ident.toNat / 2 ^ 32)
  let s := s.fset R.LNK_DOM2_SELF 0 0 t.self.toNat
  let s := if 1 ≤ t.size.toNat ∧ t.size.toNat ≤ 25 then s.fset R.LNK_DOM2_SIZE 0 0 t.size.toNat else s
  let s := (List.range s.nLinks).foldl (fun s l => s.fset R.LNK_LCONF_EXPECT 0 l ((t.expect[l]?).getD 31).toNat) s
  ({ s with lan := { s.lan with table := some t, pending := none } }.disarm).startDomain

/-- STOP (R340 step 1). -/
def State.stopDomain (s : State) : State :=
  let s := (s.setStarted false).fset R.LNK_DOM2_FORMED 0 0 0
  ({ s with lan := { s.lan with stopping := true } }).enginesGo

/-- Steps 2 to 4 of R340, and the waiting table. -/
def State.stopResume (s : State) : State :=
  let s := s.lan.trackers.foldl (fun (s : State) (e : Nat × Tracker) => if (s.tracker e.1).busy then
    (let t := s.tracker e.1; s.recordRefusal 12 t.dev t.handle 0).endTracker e.1 12 else s) s
  let s := ((List.range s.nLinks).foldl State.sendHalfDown s).dropDomain
  let s := ({ s with lan := { s.lan with stopping := false } }).routesGo
  match s.lan.pending with
  | none => s
  | some t => if s.coreUp then s.applyTable t else s

end Sys2Proof.Machine
end

