-- ==== Sys2Proof/Machine/Alarm.lean ====
section
/-! DEFINITION. Alarms: what each level erases (R467, R480, R481). -/

namespace Sys2Proof.Machine

/-! ## Sources, in the order of R480 -/

def alTamper : Nat := 0
def alCrystal : Nat := 1
def alGlitch : Nat := 2
def alCold : Nat := 3
def alSeal : Nat := 4
def alLinkTag : Nat := 5
def alDebug : Nat := 6
def alHandshake : Nat := 7

/-- Every partition is destroyed and every shared set retired (R467). -/
def State.destroyAll (s : State) : State :=
  let s := (List.range 8).foldl (fun s p => if s.partExists p then s.destroyPart p .alarm else s) s
  (List.range 22).foldl (fun s k => if (s.sset k).live then s.retireSet k else s) s

/-- The Halyard session closes; a command that it started runs on and its record is discarded (R485). -/
def State.endSession (s : State) : State :=
  { s with
    sec := { s.sec with session := false }
    cmds := { s.cmds with runs := s.cmds.runs.map fun (r : Run) => if r.halyard then { r with mute := true } else r } }

/-- What level 2 erases. -/
def State.alarmTwo (s : State) : State :=
  let s := s.destroyAll
  let s := ((List.range s.nLinks).foldl State.reattest s).routesGo
  { s with sec := { s.sec with ide := [], spdm := [], keyEx := [], alarm2 := true } }.endSession

/-- A link goes dark for good (R481). -/
def State.darkLink (s : State) (l : Nat) : State :=
  let st := s.lstate l
  let s := if st = lsTraining ∨ st = lsAttesting ∨ st = lsUp ∨ st = lsRecovering then s.leaveState l lsDown lrNoLight else s
  s.laserOff l

/-- A face goes dark (R481). -/
def State.darkFace (s : State) (k : Nat) : State :=
  (s.sever k rsLinkLost).modSite k fun x => { x with step := .idle, powered := false, coolOff := false }

/-- The management cores halt and the identity keys are erased. -/
def State.haltCores (s : State) : State :=
  { s with
    sec := { s.sec with idKeys := false, halted := true }
    boot := { s.boot with attn := true } }

/-- What level 3 erases besides; the management cores halt. -/
def State.alarmThree (s : State) : State :=
  let s := (s.unloadKey 30).unloadKey 31
  let s := (List.range s.nLinks).foldl State.darkLink s
  ((List.range s.nStacks).foldl State.darkFace s).haltCores

/-- Scrapping begins: the security engine burns until LC_BURN_DONE (R481, R483). -/
def State.beginBurn (s : State) (target : Nat) : State :=
  { s.fset R.SEC_LC_BUSY 0 0 1 with sec := { s.sec with burning := some target } }

/-- ALARM_RAISE of a row of R480 at a level (R481); while a transition burns it is deferred (R483). -/
def State.alarm (s : State) (row level : Nat) : State :=
  if s.fbit R.SEC_LC_BUSY 0 0 then { s with sec := { s.sec with deferred := s.sec.deferred ++ [(row, level)] } }
  else
    let s := s.fsetBit R.SEC_ALARM_SOURCES 0 0 row true
    let s := s.fset R.SEC_ALARM_LEVEL 0 0 (max level (s.fget R.SEC_ALARM_LEVEL 0 0))
    let s := if 2 ≤ level then s.alarmTwo else s
    let s := if 3 ≤ level then s.alarmThree else s
    if 4 ≤ level then s.beginBurn 3 else s

end Sys2Proof.Machine
end

