-- ==== Sys2Proof/Machine/Lanyard.lean ====
section
/-! DEFINITION. The Lanyard rows: frames, messages, trackers, training, recovery, domains and fibre attach units (R325 to
R362, R619, R630). -/

namespace Sys2Proof.Machine

/-- The part has the link. -/
def State.hasLink (s : State) (l : Nat) : Bool := decide (l < s.nLinks)
/-- The part has the engine pair (R322). -/
def State.hasEngine (s : State) (e : Nat) : Bool := decide (e < s.engines)

/-! ## Frames (R323 to R326, R332) -/

/-- A frame that fails: counted, and one NAK, in an idle frame, until the expected frame arrives (R283, R325, R335). -/
def State.badLnkFrame (s : State) (l : Nat) : State :=
  let x := s.link l
  let s := s.fadd R.LNK_LERR_REPLAYS 0 l 1
  if x.nakd then s else ((s.setLink l { x with nakd := true }).pushOut (.lnak l (x.rx - 1))).idleLnk l

/-- A tag failure (R332, R335): the fourth within the window withdraws the link and raises LINK_TAG. -/
def State.tagFail (s : State) (l : Nat) : State :=
  let ts := s.window lnkWindow (s.link l).tags ++ [s.tally]
  let s := (s.modLink l fun x => { x with tags := ts }).ev R.LNK_EVENT_TAG_FAIL 0
  if 4 ≤ ts.length then (s.retireLink l lrTagFail).alarm alLinkTag 1 else s.badLnkFrame l

/-- The link after a frame that it accepts: its acknowledgement, its credits, those that it earns and its epoch (R324, R326, R331). -/
def Link.accept (x : Link) (f : LnkFrame) : Link :=
  let rest := if x.unacked.any fun u => u.seq == f.ack then (x.unacked.dropWhile fun u => u.seq != f.ack).drop 1 else x.unacked
  let x := { x with rx := x.rx + 1, nakd := false, unacked := rest, dataCr := x.dataCr + f.crData.toNat, getCr := x.getCr + f.crGet.toNat
                    dataOwed := x.dataOwed + b2n f.isData, getOwed := x.getOwed + b2n f.isGet }
  if f.kind = 1 then x.took f.epoch else x

/-- An accepted frame: what it brings, its NAK, and an idle frame that acknowledges a message and returns its credit (R324 to
R326). -/
def State.goodLnkFrame (s : State) (l : Nat) (f : LnkFrame) : State :=
  let s := s.setLink l ((s.link l).accept f)
  let s := if f.nak then s.replayLink l else s
  if f.kind = 1 ∧ s.lstate l = lsUp then s.idleLnk l else s

/-- Lanes of a mask whose errors reach the limits of R335. -/
def State.wornLanes (s : State) (l : Nat) (f : LnkFrame) : List Nat :=
  (List.range 4).filter fun w =>
    s.fvec R.LNK_LSTAT_LANES 0 l w
      && (f.noisy.toNat.testBit w || 16 ≤ (s.window lnkWindow (tget (fun _ => []) (s.link l).uncorrs w)).length)

/-- Counts the uncorrectable codewords that a frame met (R335, R362). -/
def State.countUncorr (s : State) (l : Nat) (f : LnkFrame) : State :=
  (List.range 4).foldl (fun s w =>
    if f.uncorr.toNat.testBit w then
      (s.fadd R.LNK_LERR_UNCORR 0 l 1).modLink l fun x =>
        let old := s.window lnkWindow (tget (fun _ => []) x.uncorrs w)
        { x with uncorrs := tset (fun _ => []) x.uncorrs w (old ++ [s.tally]) }
    else s) s

/-- WAVELENGTH_RETIRE (R335): one wavelength over its limits is retired. -/
def State.retireWorn (s : State) (l : Nat) (f : LnkFrame) : State :=
  match s.wornLanes l f with
  | [] => s
  | w :: _ => if s.lstate l = lsUp then s.retireLanes l (s.fget R.LNK_LSTAT_LANES 0 l - 2 ^ w) else s

/-- A frame fails its check: also one of a reserved KIND or TYPE (R324, R347), a message frame before the link is UP, and one of
training control once it is (R324, R327; log 19). -/
def lnkFails (f : LnkFrame) (up : Bool) : Bool := !f.crcOk || f.kind == 3 || !f.typeOk || (f.kind == 1 && !up) || (f.kind == 2 && up)

/-- LNK_FRAME_RECEIVE (R325, R327, R332, R347): a tag under an epoch whose keys the receiver does not hold fails. -/
def execLnkFrameReceive (l : Fin 24) (f : LnkFrame) (s : State) : Res :=
  atUnit (s.hasLink l.val)
    (let st := s.lstate l.val
    if st ≠ lsTraining ∧ st ≠ lsAttesting ∧ st ≠ lsUp then s
    else
      let s := s.countUncorr l.val f
      let s :=
        if lnkFails f (st == lsUp) then s.badLnkFrame l.val
        else if f.kind = 1 ∧ (!f.tagOk ∨ !(s.link l.val).knows f.epoch) then s.tagFail l.val
        else if f.seq = (s.link l.val).rx then s.goodLnkFrame l.val f
        else s
      (s.retireWorn l.val f).enginesGo)

/-- LNK_REPLAY_TIMEOUT (R325). -/
def execLnkReplayTimeout (l : Fin 24) (s : State) : Res :=
  atUnit (s.hasLink l.val) (if s.lstate l.val = lsUp then s.replayLink l.val else s)

/-! ## Messages at their destination and at a relay -/

/-- RELAY_FORWARD (R346): over the bundle to the destination, else REFUSE UNREACHABLE to the source. -/
def State.relayMsg (s : State) (m : LMsg) : State :=
  if !(s.bundle m.dstDev).isEmpty then s.sendMsg m else s.refuseMsg m 9

/-- A DONE covers bytes of its tracker (R350, R351). -/
def State.arriveDone (s : State) (m : LMsg) : State :=
  if !s.answers m then s.lateReply
  else
    let i := m.putid.toNat
    let t := s.tracker i
    if t.isGet then s else (s.setTracker i { t with covered := t.covered + m.bytes }).checkTracker i

/-- A REFUSE completes its tracker as refused (R351, R355). -/
def State.arriveRefuse (s : State) (m : LMsg) : State :=
  if !s.answers m then s.lateReply
  else
    let i := m.putid.toNat
    let t := s.tracker i
    (s.recordRefusal m.reason.toNat t.dev t.handle 1).endTracker i m.reason.toNat

/-- A message of a type that ends here. -/
def State.deliver (s : State) (m : LMsg) : State :=
  match m.type with
  | .put | .putRed => s.arriveFrag m
  | .get => s.arriveGet m
  | .done => s.arriveDone m
  | .refuse => s.arriveRefuse m
  | .route | .halfDown => s

/-- A message arrives on its link, which is UP: it ends here or is relayed (R346). A row takes messages of its own type. -/
def State.receive (s : State) (m : LMsg) (type : LType) : State :=
  if m.type ≠ type ∨ !s.upLinks.contains m.link then s
  else (if m.dstDev = s.selfDev then s.deliver m else s.relayMsg m).enginesGo

/-- LNK_PUT (R346, R354). -/
def execLnkPut (m : LMsg) (s : State) : Res := .next (s.receive m .put)
/-- LNK_PUTRED (R359, R361). -/
def execLnkPutred (m : LMsg) (s : State) : Res := .next (s.receive m .putRed)
/-- LNK_GET (R352). -/
def execLnkGet (m : LMsg) (s : State) : Res := .next (s.receive m .get)
/-- LNK_DONE (R350). -/
def execLnkDone (m : LMsg) (s : State) : Res := .next (s.receive m .done)
/-- LNK_REFUSE (R355). -/
def execLnkRefuse (m : LMsg) (s : State) : Res := .next (s.receive m .refuse)

/-- LNK_ROUTE (R344, R345): the latest ROUTE of a device reached directly. -/
def execLnkRoute (m : LMsg) (s : State) : Res :=
  .next (if m.type ≠ .route ∨ (s.bundle m.srcDev).isEmpty then s
    else ({ s with lan := { s.lan with reach := tset (fun _ => 0#26) s.lan.reach m.srcDev m.reach } }).routesGo)

/-- LNK_HALF_DOWN (R357): no error verdict. -/
def execLnkHalfDown (l : Fin 24) (s : State) : Res :=
  atUnit (s.hasLink l.val) (if s.lstate l.val = lsUp then s.downLink l.val lrHalfReset else s)

/-! ## Sending (R325, R326, R331, R343) -/

/-- Whether a staged message may go now: credits, the replay buffer's room, keys, no narrowing. A message to the device itself
needs none of these (R356). -/
def State.maySend (s : State) (l : Nat) (m : LMsg) : Bool :=
  let x := s.link l
  m.dstDev == s.selfDev
    || (s.lstate l == lsUp && x.keys && !x.narrow && decide (x.unacked.length < 512)
      && (match m.type with
          | .put | .putRed => decide (0 < x.dataCr)
          | .get => decide (0 < x.getCr)
          | .done | .refuse | .route | .halfDown => true))

/-- A message leaves as a frame, and takes its credit (R326). -/
def State.emitMsg (s : State) (l : Nat) (m : LMsg) : State :=
  let s := s.modLink l fun x => { x with
    dataCr := if m.type = .put ∨ m.type = .putRed then x.dataCr - 1 else x.dataCr
    getCr := if m.type = .get then x.getCr - 1 else x.getCr }
  (s.linkFrame l (some m)).fidEvent (linkHalf l) 3 (l / 2) 0 none 1

/-- FRAGMENT_SEND: the first staged message that may go (R343). -/
def State.sendStaged (s : State) (l : Nat) : State :=
  match (s.link l).staged.find? (s.maySend l) with
  | none => s
  | some m =>
    let s := s.modLink l fun x => { x with staged := x.staged.erase m }
    (if m.dstDev = s.selfDev then s.deliver m else s.emitMsg l m).enginesGo

def execFragmentSend (l : Fin 24) (s : State) : Res :=
  atUnit (s.hasLink l.val) (if s.halfLive (linkHalf l.val) then s.sendStaged l.val else s)

/-! ## Slots and trackers -/

/-- COLL_IDLE_TIMEOUT (R360). -/
def execCollIdleTimeout (e : Fin 12) (handle pos : Nat) (s : State) : Res :=
  atUnit (s.hasEngine e.val)
    (match s.lan.slots.find? fun c => c.eng == e.val && c.handle == handle && c.pos == pos with
      | none => s
      | some c => (s.writeOut c).enginesGo)

/-- TRACKER_TIMEOUT (R350): the tracker completes as LOST. -/
def execTrackerTimeout (e : Fin 12) (t : BitVec 11) (s : State) : Res :=
  atUnit (s.hasEngine e.val)
    (let i := e.val * 2048 + t.toNat
    let x := s.tracker i
    if x.busy then ((s.recordRefusal 12 x.dev x.handle 0).endTracker i 12).enginesGo else s)

/-- TRACKER_QUARANTINE_END (R351). -/
def execTrackerQuarantineEnd (e : Fin 12) (t : BitVec 11) (s : State) : Res :=
  atUnit (s.hasEngine e.val)
    (let i := e.val * 2048 + t.toNat
    if (s.tracker i).quar then (s.setTracker i { s.tracker i with quar := false }).enginesGo else s)

/-! ## Training (R328 to R337, R630) -/

/-- LINK_AUTO_TRAIN (R336). -/
def State.autoTrain (s : State) : State :=
  if s.fbit R.LNK_CONF_AUTO 0 0 ∧ !s.sec.halted then
    (List.range s.nLinks).foldl (fun s l => if s.lstate l = lsDown then s.tryTrain l else s) s
  else s

def execLinkAutoTrain (s : State) : Res := .next s.autoTrain

/-- LINK_NO_LIGHT_TIMEOUT (R630). -/
def execLinkNoLightTimeout (l : Fin 24) (s : State) : Res :=
  atUnit (s.hasLink l.val) (if s.lstate l.val = lsTraining then s.downLink l.val lrNoLight else s)

/-- The firmware digests that the domain table accepts (R339). -/
def State.fwAccepts (s : State) (d : Nat) : Bool := match s.lan.table with | none => false | some t => t.fwSet.contains d

/-- FW_WEST of a peer is accepted, and so is its FW_EAST while its East half is up (R328). -/
def State.peerFw (s : State) (f : PeerFacts) : Bool := s.fwAccepts f.fwWest && (!f.flags.toNat.testBit 0 || s.fwAccepts f.fwEast)

/-- A peer's life-cycle state is Production, or Test where the domain table allows it (R328). -/
def State.peerLife (s : State) (f : PeerFacts) : Bool :=
  f.life == 2 || (f.life == 1 && match s.lan.table with | none => false | some t => t.allowTest)

/-- A peer's domain identity is this device's (R328). -/
def State.peerDomain (s : State) (f : PeerFacts) : Bool :=
  f.ident.toNat == s.fget R.LNK_DOM0_IDENT 0 0 + 2 ^ 32 * s.fget R.LNK_DOM1_IDENT 0 0

/-- The first four conditions of R328, in their order. -/
def State.peerSound (s : State) (f : PeerFacts) : Bool := f.sigOk && s.peerFw f && s.peerLife f && s.peerDomain f

/-- The last two conditions of R328: the fibre joins the two devices that expect each other. -/
def State.peerWired (s : State) (l : Nat) (f : PeerFacts) : Bool :=
  f.devNum.toNat == s.fget R.LNK_LCONF_EXPECT 0 l && f.expects.toNat == s.selfDev

/-- PEER_REPORT (R328), read by the West management core: the first four conditions, then the two of the wiring; on acceptance this end
signs its part of the key exchange (R329). -/
def State.peerReport (s : State) (l : Nat) (f : PeerFacts) : State :=
  if s.lstate l ≠ lsAttesting ∨ !s.coreUp then s
  else if !s.peerSound f then s.refuseLink l lrAttestFail
  else if !s.peerWired l f then s.refuseLink l lrMiswired
  else (s.fset R.LNK_LSTAT_PEER 0 l f.devNum.toNat).bump.pushOut (.keyEx l (Config.document s.freeCtr 0).toNat)

def execPeerReport (l : Fin 24) (f : PeerFacts) (s : State) : Res := atUnit (s.hasLink l.val) (s.peerReport l.val f)

/-- LINK_KEYS_INSTALLED (R329, R344), once the peer's report has been accepted. -/
def State.keysInstalled (s : State) (l : Nat) : State :=
  if s.lstate l ≠ lsAttesting ∨ s.fget R.LNK_LSTAT_PEER 0 l = 31 then s
  else
    let was := s.shownReach
    let s := ((s.modLink l fun x => x.keyed (Config.linkSecret s.freeCtr)).bump).setLState l lsUp 0
    let s := s.routesGo
    if s.shownReach = was then s.sendRoute l else s

def execLinkKeysInstalled (l : Fin 24) (s : State) : Res := atUnit (s.hasLink l.val) (s.keysInstalled l.val)

/-- WAVELENGTH_LOCK_LOST (R335). -/
def execWavelengthLockLost (l : Fin 24) (lane : Fin 4) (s : State) : Res :=
  atUnit (s.hasLink l.val)
    (if s.lstate l.val = lsUp ∧ s.fvec R.LNK_LSTAT_LANES 0 l.val lane.val then s.recoverLink l.val else s)

/-- LINK_RECOVERY_DONE (R335), with the wavelengths locked again: one that is not is retired; the link, UP again, carries a ROUTE
(R344). -/
def State.recoveryDone (s : State) (l lanes : Nat) : State :=
  if s.lstate l ≠ lsRecovering then s
  else
    let old := s.fget R.LNK_LSTAT_LANES 0 l
    let now := lanes &&& old
    let s := if now = old then s else s.retireLanes l now
    if s.lstate l ≠ lsRecovering then s
    else
      let s := (s.setLState l lsUp 0).ev R.LNK_EVENT_RECOVERED 0
      let was := s.shownReach
      let s := s.routesGo
      if s.shownReach = was then s.sendRoute l else s

def execLinkRecoveryDone (l : Fin 24) (lanes : BitVec 4) (s : State) : Res :=
  atUnit (s.hasLink l.val) (s.recoveryDone l.val lanes.toNat)

/-- LINK_LIGHT_LOST (R335): with no error condition before it. -/
def execLinkLightLost (l : Fin 24) (s : State) : Res :=
  atUnit (s.hasLink l.val)
    (if s.lstate l.val = lsAttesting ∨ s.lstate l.val = lsUp then s.downLink l.val lrNoLight else s)

/-- LINK_NARROWING_DONE (R335): the held traffic resumes. -/
def execLinkNarrowingDone (l : Fin 24) (s : State) : Res :=
  atUnit (s.hasLink l.val) (s.modLink l.val fun x => { x with narrow := false })

/-! ## Register writes and domains -/

/-- A RETRAIN of a link (R336, R357), by the West management core: ignored while the link is OFF. -/
def State.retrain (s : State) (l : Nat) : State := if s.lstate l = lsOff then s else s.tryTrain l

/-- A RETIRE of a link (R336, R357). -/
def State.retireOp (s : State) (l : Nat) : State := if s.lstate l = lsOff then s else s.retireLink l lrOperator

/-- LNK_LCTL_RETRAIN (R336, R362): a RETIRED or REFUSED link trains again only when the West management core writes it. -/
def execLnkLctlRetrain (l : Fin 24) (path : Path) (s : State) : Res :=
  atUnit (s.hasLink l.val) (s.regWrite path .lnk 0 (0x10C + 16 * l.val) fun s =>
    if path ≠ .west ∧ (s.lstate l.val = lsRetired ∨ s.lstate l.val = lsRefused) then s else s.retrain l.val)

/-- LNK_LCTL_RETIRE (R357, R362). -/
def execLnkLctlRetire (l : Fin 24) (path : Path) (s : State) : Res :=
  atUnit (s.hasLink l.val) (s.regWrite path .lnk 0 (0x10C + 16 * l.val) fun s => s.retireOp l.val)

/-- LNK_DOM2_START (R339, R362). -/
def execLnkDom2Start (path : Path) (s : State) : Res :=
  .next (s.regWrite path .lnk 0 0x00C fun s => if s.lan.stopping then s else s.startDomain)

/-- LNK_DOM2_STOP (R340, R362). -/
def execLnkDom2Stop (path : Path) (s : State) : Res :=
  .next (s.regWrite path .lnk 0 0x00C fun s => if s.lan.stopping then s else s.stopDomain)

/-- DOMAIN_STOP_RESUME (R340). -/
def execDomainStopResume (s : State) : Res := whenever s s.lan.stopping s.stopResume

/-- The links of a fibre attach unit (R619). -/
def fauLinks (u : Nat) : List Nat := [4 * u, 4 * u + 1, 4 * u + 2, 4 * u + 3]

/-- FAU_REMOVED (R619): each UP link resends as a retired one does. -/
def State.fauOut (s : State) (u : Nat) : State :=
  let s := { s with lan := { s.lan with fau := s.lan.fau &&& ~~~(1#6 <<< u) } }
  (fauLinks u).foldl (fun s l => (s.offLink l lrNoFau).laserOff l) s

def execFauRemoved (u : Fin 6) (s : State) : Res := atUnit (s.hasLink (4 * u.val)) (s.fauOut u.val)

/-- FAU_FITTED (R619): an expected link trains, or waits in DOWN for RETRAIN (log 19). -/
def State.fauIn (s : State) (u : Nat) : State :=
  let s := { s with lan := { s.lan with fau := s.lan.fau ||| (1#6 <<< u) } }
  (fauLinks u).foldl (fun s l =>
    if s.lstate l ≠ lsOff then s
    else if !s.linkUsable l then s.fset R.LNK_LSTAT_REASON 0 l 0
    else if s.fbit R.LNK_CONF_AUTO 0 0 then s.trainLink l
    else s.setLState l lsDown lrNoLight) s

def execFauFitted (u : Fin 6) (s : State) : Res := atUnit (s.hasLink (4 * u.val)) (s.fauIn u.val)

end Sys2Proof.Machine
end

