-- ==== Sys2Proof/Machine/Complete.lean ====
section
/-! DEFINITION. What a request's final response does at its master (R205, R221, R223, R226, R245 to R251, R546, R624). -/

namespace Sys2Proof.Machine

/-! ## Tiles -/

/-- The op fault of a completion of a tile's request, 0 for none (R546, R624). Data poisons a read alone. -/
def tileFaultOf (status : BitVec 3) (poison : BitVec 2) (reads : Bool) : Nat :=
  if status = 3 ∨ status = 4 then (if poison ≠ 0 then ofPoison else if status = 3 then ofSpliceClosed else ofMemUnavail)
  else if status ≠ 0 then ofMemDenied
  else if reads ∧ poison ≠ 0 then ofPoison
  else 0

/-- The sector that a request of one sector names. -/
def Pkt.oneSec (p : Pkt) : Nat := if bit2 p.sect 0 then 0 else 1

/-- Bytes of a LOAD or GATHER reach the scratchpad while its op is still issued (R123). -/
def State.loadDone (s : State) (t idx seq dst off len dva : Nat) (p : Pkt) (d : BitVec 256) : State :=
  let x := s.tile t
  if !(x.issued.any fun o => o.seq == seq) then s
  else
    let f := tileFaultOf p.status p.poison true
    if f ≠ 0 then s.tileFault t f idx dva
    else
      let v := bitsOf d.toNat (8 * (off + len) - 1) (8 * off)
      (s.setTile t { x with spad := memWrite x.spad dst v (2 ^ len - 1) len }).tileGo t

/-- A STORE's write has completed; a refusal after END is a late fault (R113, R149, R624). -/
def State.storeDone (s : State) (t idx dva : Nat) (p : Pkt) : State :=
  let f := tileFaultOf p.status p.poison false
  let x := s.tile t
  if f = 0 then s.tileGo t
  else if x.runs then s.tileFault t f idx dva
  else if x.disp.isSome ∧ !x.stopped then s.lateFault t f idx dva
  else s

/-- A descriptor or op-list line has come (R110, R132, R212, R230): cached where S was granted, else used for the one entry. -/
def State.fetchDone (s : State) (t : Nat) (p : Pkt) : State :=
  let x := s.tile t
  match x.disp with
  | none => s
  | some d =>
    if !x.runs then s
    else
      let f := tileFaultOf p.status p.poison true
      if f ≠ 0 then s.tileFault t f x.idx (x.nextDva d)
      else if p.grant ≠ 0 then (s.setTile t (x.cacheLine p.line p.data)).tileGo t
      else (s.setTile t (x.takeEntry d (secOf p.data (x.nextDva d / 32 % 2)))).tileGo t

/-! ## Sites -/

/-- The poison bits that a site's copy holds (R237). -/
def CSt.poison : CSt → BitVec 2
  | .s pz | .m pz | .wb _ pz => pz
  | .i | .e => 0

/-- The state that a site is in once its request is granted (R221): a store's RdUnique or Upgrade leaves M, a load's RdShared the
state granted. An answer without data leaves the poison of the copy. -/
def grantState (op : Op) (g pz : BitVec 2) : CSt :=
  if op != .rdShared then .m pz else if g = 1 then .s pz else if g = 2 then .e else .m pz

/-- A site's REQ has its response (R221, R224, R290, R293). -/
def State.siteDone (s : State) (k : Nat) (tag : BitVec 12) (slot : Nat) (t : Tx) (p : Pkt) : State :=
  let old := t.pkt.op == .atomM || t.pkt.op == .atomH
  let data := if p.op = .compData ∨ p.op = .mData ∨ (p.op = .mAck ∧ old) then some p.data else none
  let s := if p.status ≠ 0 then s else match t.pkt.op with
    | .rdShared | .rdUnique | .upgrade =>
      if p.grant = 0 then s
      else s.setSiteLine k p.line (grantState t.pkt.op p.grant (if p.op = .comp then (s.siteLine k p.line).poison else p.poison))
    | .wrBack => s.setSiteLine k p.line .i
    | _ => s
  s.siteRspAt k t.pkt.ap p.src (pktTo slot tag t.pkt) p.status p.grant p.poison data

/-! ## Commands -/

/-- A sector write of an ATTEST has completed (R471). -/
def State.reportWritten (s : State) (id : Nat) (status : BitVec 3) : State :=
  match s.run id with
  | none => s
  | some r =>
    let r := { r with left := r.left - 1 }
    if r.status.isSome then s.setRun r
    else if status ≠ 0 then s.setRun (r.finish stMemDenied 0)
    else s.setRun (if r.left = 0 then r.finish stOk 0 else r)

/-! ## Every purpose -/

/-- The effect of a final response, by what the request was for. -/
def State.respond (s : State) (t : Tx) (p : Pkt) : State :=
  let i := Pkt.oneSec t.pkt
  let d := secOf p.data i
  let pz := p.poison != 0
  match t.purp with
  | .load ti idx seq dst off len dva => s.loadDone ti idx seq dst off len dva p d
  | .store ti idx _ dva => s.storeDone ti idx dva p
  | .fetch ti => s.fetchDone ti p
  | .site k tag slot => s.siteDone k tag slot t p
  | .apRd id n => s.apSector id n p.status d pz
  | .apWr win _ => ((if p.status = 0 then s else s.fset R.XLT_FEVENT_APERTURE win 0 1).postGo (win / 9)).readsGo
  | .copyRd id dst cached => if p.status = 0 then s.copyRead id dst cached d pz else s.moveRefused id p.status
  | .cmdWr id => s.moveWritten id p.status
  | .reply id => s.replyDone id p.status
  | .frag id => s.fragWritten id p.status pz
  | .getRd id off => s.getRead id off p.status d pz
  | .putRd e n off => s.sourceRead (e * 2048 + n) off p.status d pz
  | .report id => s.reportWritten id p.status
  | .sample n => if p.status = 0 then s else s.sampleDrop n
  | .traceW n => if p.status = 0 then s else s.traceDrop n
  | .quiet => s

/-- A grant to an agent that is gone: the line keeps nothing of it (R313). -/
def State.dropGrant (s : State) (n : Nat) (a : Agent) : State :=
  let l := s.line n
  match l.txn with
  | some t =>
    if t.phase ≠ .collect ∧ t.req.src = a then
      let l := { l with txn := none }
      let l := if l.st = .h ∧ a = ⟨.site, l.holder⟩ then l.poisoned else l.setSharer a false
      (s.setLine n l).unbusy n
    else s
  | none => s

/-- A grant is acknowledged at once (R223); that of a severed site is dropped (R313). -/
def State.ackGrant (s : State) (t : Tx) (p : Pkt) : State :=
  if p.grant = 0 ∨ p.status ≠ 0 then s
  else if t.purp = .quiet ∧ t.pkt.src.kind = .site then
    (if p.src.kind = .proxy then
      (s.setPline p.line ((s.pline p.line).setSharer t.pkt.src false)).proxyAck { p with src := t.pkt.src }
    else s.dropGrant p.line t.pkt.src)
  else s.sendPkt { Pkt.mk0 .grantAck t.pkt.src p.src p.addr with tag := p.tag, ctx := p.ctx, ap := t.pkt.ap }

/-- What waits for responses goes on: CleatSigs, unbindings, fences and what the engines hold (R250, R252, R311, R343). -/
def State.afterResponse (s : State) : State := ((s.sigsGo).unbindAll).enginesGo

/-- A request has its final response: the grant is acknowledged, the tag is free, and its master goes on (R205, R223). -/
def State.complete (s : State) (t : Tx) (p : Pkt) : State :=
  let s := s.addBw t.half t.pkt.svc.toNat (Pkt.bytes p)
  let s := ((s.ackGrant t p).releaseTag t).respond t p
  match t.pkt.src.kind with
  | .tile => s.tileGo t.pkt.src.num
  | _ => s

/-- NACK (R226): the request waits for its backoff; one that nobody awaits is given up. -/
def State.nacked (s : State) (t : Tx) : State :=
  if t.purp = .quiet then s.releaseTag t
  else
    { s with fab := { s.fab with txs := s.fab.txs.map fun (x : Tx) => if x = t then { x with nacks := x.nacks + 1, waits := true } else x } }

/-- A response reaches a master. -/
def State.atMaster (s : State) (p : Pkt) : State :=
  match s.txOf p.tag with
  | none => s
  | some t =>
    if p.op = .comp ∧ p.status = 1 then s.nacked t
    else (s.complete t p).afterResponse

/-- The oldest read of a tile of the group that combined data answers (R204). -/
def State.joined (s : State) (p : Pkt) (tile : Nat) : Option Tx :=
  s.fab.txs.find? fun t => t.pkt.src == (⟨.tile, tile⟩ : Agent) && t.pkt.op == .memRd && t.pkt.line == p.line && t.pkt.sect == p.sect
    && t.pkt.ctx == p.ctx

/-- MData for the tiles of a group: each completes its own read (R204). -/
def State.atGroup (s : State) (p : Pkt) : State :=
  let ts := (mates p.dst.num).filter fun t => p.mask.toNat.testBit (t % 4)
  (ts.foldl (fun s t =>
    match s.joined p t with
    | none => s
    | some x => s.complete x { p with tag := x.half.num * 32768 + x.tag }) s).afterResponse

end Sys2Proof.Machine
end

