-- ==== Sys2Proof/Machine/CohRows.lean ====
section
/-! DEFINITION. The rows of the fabric and of coherence (R195 to R244). -/

namespace Sys2Proof.Machine

/-- A packet of an op arrives: it leaves the mesh and acts; unbindings that wait for lines go on (R200, R311). -/
def State.onArrival (s : State) (p : Pkt) (op : Op) (k : State → State) : State :=
  if s.arrives p && p.op == op then (k (s.takePkt p)).unbindAll else s

/-- A cached-class request at its slice: the home, or the proxy of the requester's half (R214, R229). -/
def State.atSlice (s : State) (p : Pkt) (ecc : BitVec 2) : State :=
  if p.dst.kind = .proxy then s.atProxy p ecc else s.atHome p ecc

/-- The slice has an entry for a WrBack or Evict, which it never turns away (R224): of the 64 that hold those for busy lines, and
the packet waits in its class until one is free. -/
def State.backRoom (s : State) (p : Pkt) : Bool :=
  p.dst.kind == .proxy || (s.line p.line).txn.isNone || s.heldBacks (s.sliceOf p.line) < 64

/-- RD_SHARED (R219), with the sectors on which the slice's array fails (R216). -/
def execRdShared (p : Pkt) (ecc : BitVec 2) (s : State) : Res := .next (s.onArrival p .rdShared fun s => s.atSlice p ecc)
/-- RD_UNIQUE (R219). -/
def execRdUnique (p : Pkt) (s : State) : Res := .next (s.onArrival p .rdUnique fun s => s.atSlice p 0)
/-- UPGRADE (R219). -/
def execUpgrade (p : Pkt) (s : State) : Res := .next (s.onArrival p .upgrade fun s => s.atSlice p 0)
/-- RD_ONCE (R219), with the sectors on which the slice's array fails (R216); a request whose op the table lacks meets its slice as
one of these does, and is refused (R197). -/
def execRdOnce (p : Pkt) (ecc : BitVec 2) (s : State) : Res :=
  .next (s.onArrival p (if p.op.isRsv && p.op.cached then p.op else .rdOnce) fun s => s.atSlice p ecc)
/-- WR_THROUGH (R219). -/
def execWrThrough (p : Pkt) (s : State) : Res := .next (s.onArrival p .wrThrough fun s => s.atSlice p 0)
/-- WR_BACK (R219, R224). -/
def execWrBack (p : Pkt) (s : State) : Res :=
  .next (if s.backRoom p then s.onArrival p .wrBack fun s => s.atSlice p 0 else s)
/-- EVICT (R219, R232). -/
def execEvict (p : Pkt) (s : State) : Res :=
  .next (if s.backRoom p then s.onArrival p .evict fun s => s.atSlice p 0 else s)
/-- ATOM_H (R235). -/
def execAtomH (p : Pkt) (s : State) : Res := .next (s.onArrival p .atomH fun s => s.atSlice p 0)

/-- A snoop reaches its agent; one for a site waits until its attach point can send it to the chiplet (R285, R286, R288). -/
def State.snoopArrives (s : State) (p : Pkt) (op : Op) : State :=
  if p.dst.kind = .site && !s.apReady p.dst.num p.ap (.siteSnoop p.dst.num p) then s else s.onArrival p op fun s => s.snooped p

/-- SNP_SHARED (R221, R288). -/
def execSnpShared (p : Pkt) (s : State) : Res := .next (s.snoopArrives p .snpShared)
/-- SNP_INV (R221, R222, R232, R288). -/
def execSnpInv (p : Pkt) (s : State) : Res := .next (s.snoopArrives p .snpInv)
/-- SNP_RD_NA (R221, R288). -/
def execSnpRdNA (p : Pkt) (s : State) : Res := .next (s.snoopArrives p .snpRdNA)

/-- A snoop's answer at a home or a proxy slice. -/
def State.snoopAnswer (s : State) (p : Pkt) : State :=
  if p.dst.kind = .proxy then s.proxyAnswer p else s.homeAnswer p

/-- SNP_RESP (R219, R240). -/
def execSnpResp (p : Pkt) (s : State) : Res := .next (s.onArrival p .snpResp fun s => s.snoopAnswer p)
/-- SNP_RESP_DATA (R219, R240). -/
def execSnpRespData (p : Pkt) (s : State) : Res := .next (s.onArrival p .snpRespData fun s => s.snoopAnswer p)

/-- A response at its destination: a proxy slice returns that of a request it relayed (R205), and takes the others with k. -/
def State.rspArrives (s : State) (p : Pkt) (k : State → State) : State :=
  if p.dst.kind = .proxy then
    (match p.who with
      | some a => s.relayBack p a
      | none => k s)
  else s.atMaster p

/-- COMP (R205, R226): at a proxy slice it answers a relayed request, a fill, or its Evict, which names no sector. -/
def execComp (p : Pkt) (s : State) : Res :=
  .next (s.onArrival p .comp fun s => s.rspArrives p fun s => if p.sect = 0 then s else s.proxyFilled p)

/-- COMP_DATA (R205, R223, R230). -/
def execCompData (p : Pkt) (s : State) : Res :=
  .next (s.onArrival p .compData fun s => s.rspArrives p fun s => s.proxyFilled p)

/-- MDATA (R204, R214, R219). -/
def execMdata (p : Pkt) (s : State) : Res :=
  .next (s.onArrival p .mData fun s =>
    if p.dst.kind = .home then s.homeData p
    else if p.mask.toNat % 16 ≠ 0 then s.atGroup p
    else s.atMaster p)

/-- MACK (R214, R250): a home's write-back needs no more. -/
def execMack (p : Pkt) (s : State) : Res :=
  .next (s.onArrival p .mAck fun s => if p.dst.kind = .home then s else s.rspArrives p fun s => s)

/-- GRANT_ACK (R220, R223, R228). -/
def execGrantAck (p : Pkt) (s : State) : Res :=
  .next (s.onArrival p .grantAck fun s => if p.dst.kind = .proxy then s.proxyAck p else s.homeAck p.line)

/-! ## Timers -/

/-- A request that waits after a NACK is sent again; STARVE from the STARVE_N-th retry on (R226, R227). -/
def State.retry (s : State) (half : Half) (tag : Nat) : State :=
  match s.fab.txs.find? fun (t : Tx) => t.half == half && t.tag == tag && t.waits with
  | none => s
  | some t =>
    let p := { t.pkt with starve := decide (s.fget R.COH_CONF_STARVE_N 0 0 ≤ t.nacks), dst := s.reqDst t.pkt }
    let s := { s with fab := { s.fab with txs := s.fab.txs.map fun (x : Tx) => if x = t then { x with waits := false, pkt := p } else x } }
    s.sendPkt p

/-- NACK_RETRY (R226). -/
def execNackRetry (half : Half) (tag : Nat) (s : State) : Res := .next (s.retry half tag)

/-- HITCH_EXPIRE (R228): the line is no longer busy. -/
def State.hitchOver (s : State) (n : Nat) : State :=
  let l := s.line n
  match l.txn with
  | some t => if t.phase = .hitch then ((s.setLine n { l with txn := none }).unbusy n).unbindAll else s
  | none => s

def execHitchExpire (line : Nat) (s : State) : Res := .next (s.hitchOver line)

/-- SNOOP_TIMEOUT (R238): a site is severed before its request completes (R313), a tile's group is withdrawn. -/
def State.snoopTmo (s : State) (n : Nat) (a : Agent) : State :=
  match (s.line n).txn with
  | none => s
  | some t =>
    if t.phase ≠ .collect ∨ !t.snoops.contains a then s
    else
      let s := (s.ev R.COH_EVENT_SNOOP_TMO 0).cohLoc 0 (s.sliceOf n) n a.code
      let s := match a.kind with
        | .site => s.sever a.num rsSnoopTmo
        | .tile => s.withdraw (a.num / 4)
        | _ => s
      (s.snoopLost n a 4).unbindAll

def execSnoopTimeout (line : Nat) (a : Agent) (s : State) : Res := .next (s.snoopTmo line a)

/-- FILL_TIMEOUT (R239): not while the line's stack is in self-refresh. -/
def execFillTimeout (line : Nat) (s : State) : Res :=
  .next (if s.fget R.MEM_STKTEMP_LIMIT (s.chanOf (line * 64) / 128) 0 = 3 then s else (s.fillLost line).unbindAll)

/-! ## Flushes and settings -/

/-- The fields of a flush are refused (R242). -/
def flushBad (w : W32) : Bool :=
  if w.toNat.testBit 28 then decide (8 < bitsOf w.toNat 27 24) else bitsOf w.toNat 23 12 == 0

/-- A write of COH_FLUSH (R242, R244). -/
def State.writeFlush (s : State) (path : Path) (w : W32) : State :=
  let s := (s.fset R.COH_FLUSH_FIRST 0 0 (bitsOf w.toNat 11 0)).fset R.COH_FLUSH_COUNT 0 0 (bitsOf w.toNat 23 12)
  let s := (s.fset R.COH_FLUSH_MASKSEL 0 0 (bitsOf w.toNat 27 24)).fset R.COH_FLUSH_MODE 0 0 (bitsOf w.toNat 28 28)
  if !w.toNat.testBit 31 then s
  else if s.fbit R.COH_FLUSH_STAT_BUSY 0 0 || flushBad w then (s.fset R.COH_FLUSH_STAT_REFUSED 0 0 1).regRefused path .coh 0
  else
    let s := (s.fset R.COH_FLUSH_STAT_REFUSED 0 0 0).fset R.COH_FLUSH_STAT_BUSY 0 0 1
    State.evictSelected { s with fab := { s.fab with flush := some w } }

/-- COH_FLUSH (R244). -/
def execCohFlush (path : Path) (w : W32) (s : State) : Res := .next (s.regWrite path .coh 0 0x050 fun s => s.writeFlush path w)

/-- Staged way masks take effect once their ways are flushed (R242, R566). -/
def State.applyMasks (s : State) : State :=
  let s := s.fab.wayStaged.foldl (fun s e => s.fset R.COH_WAYMASK_MASK 0 e.1 e.2) s
  { s with fab := { s.fab with wayStaged := [] } }

/-- COH_FLUSH_DONE (R244): slices that met their threshold meanwhile are uncached (R552). -/
def State.flushDone (s : State) : State :=
  let s := if s.fab.flush.isSome then (s.fset R.COH_FLUSH_STAT_BUSY 0 0 0).fset R.COH_FLUSH_STAT_DONE 0 0 1 else s
  let l := s.fab.uncLate
  l.foldl State.uncache (State.applyMasks { s with fab := { s.fab with flush := none, uncLate := [] } })

def execCohFlushDone (s : State) : Res :=
  whenever s ((s.fab.flush.isSome || !s.fab.wayStaged.isEmpty) && !s.flushing) s.flushDone

/-- The value a way mask will have: a staged one counts (R566). -/
def State.maskNext (s : State) (n : Nat) : Nat :=
  ((s.fab.wayStaged.find? fun e => e.1 == n).map (·.2)).getD (s.fget R.COH_WAYMASK_MASK 0 n)

/-- A write of COH_WAYMASKn (R211, R242): an overlap is refused; cleared ways are flushed first. -/
def State.writeMask (s : State) (n : Nat) (path : Path) (v : Nat) : State :=
  let old := s.fget R.COH_WAYMASK_MASK 0 n
  let others := (List.range 9).foldl (fun m i => if i = n then m else m ||| s.fget R.COH_WAYMASK_MASK 0 i ||| s.maskNext i) 0
  let s := if n < 8 then s.tdiError n else s
  if v &&& others ≠ 0 then (s.ev R.COH_EVENT_MASK_REFUSED 0).regRefused path .coh 0
  else
    let s := if v = old then s else s.disarm
    if old &&& v = old then
      { s.fset R.COH_WAYMASK_MASK 0 n v with fab := { s.fab with wayStaged := tkeep (· != n) s.fab.wayStaged } }
    else
      State.evictSelected { s with fab := { s.fab with wayStaged := tset (fun _ => 0x10000) s.fab.wayStaged n v } }

/-- COH_WAYMASK_WRITE (R242). -/
def execCohWaymaskWrite (n : Fin 9) (path : Path) (w : W32) (s : State) : Res :=
  .next (s.regWrite path .coh 0 (0x010 + 4 * n.val) fun s => s.writeMask n.val path (w.toNat % 65536))

/-- A field that takes a value of a range, and ignores any other. -/
def State.setIf (s : State) (ok : Bool) (f : Fld) (v : Nat) : State := if ok then s.fset f 0 0 v else s

/-- A write of COH_CONF (R228, R242). -/
def State.writeCohConf (s : State) (path : Path) (w : W32) : State :=
  let v := w.toNat
  let h := bitsOf v 7 0
  let b := bitsOf v 11 8
  let r := bitsOf v 18 16
  let s := s.setIf (1 ≤ h && h ≤ 128) R.COH_CONF_HITCH h
  let s := s.setIf (4 ≤ b && b ≤ 12) R.COH_CONF_BACKOFF b
  let s := s.setIf (bitsOf v 15 12 != 0) R.COH_CONF_STARVE_N (bitsOf v 15 12)
  let s := s.fset R.COH_CONF_COMBINE 0 0 (bitsOf v 19 19)
  if s.anyPart || 4 < r then (s.ev R.COH_EVENT_REMOTE_REFUSED 0).regRefused path .coh 0
  else s.fset R.COH_CONF_REMOTE 0 0 r

/-- COH_CONF_WRITE (R242). -/
def execCohConfWrite (path : Path) (w : W32) (s : State) : Res := .next (s.regWrite path .coh 0 0 fun s => s.writeCohConf path w)

/-! ## The Splice closes (R37, R233) -/

/-- A packet in flight is the request or the response of a tag. -/
def Tx.travels (t : Tx) (p : Pkt) : Bool :=
  p.tag == t.half.num * 32768 + t.tag
    && ((p.op.vc == 0 && p.src == t.pkt.src) || (p.op.vc == 4 && (p.dst == t.pkt.src || p.who == some t.pkt.src)))

/-- Requests for the lost half, neither they nor their responses still on their way, complete with STATUS 3 (R37, R546). -/
def State.answerCut (s : State) (lost : Half) : State :=
  s.fab.txs.foldl (fun (s : State) (t : Tx) =>
    if s.agentHalf t.pkt.src ≠ lost ∧ !t.waits
        ∧ (s.homeHalf t.pkt.addr.toNat = lost ∨ (!t.pkt.op.cached ∧ s.placeHalf t.pkt.addr.toNat = lost))
        ∧ !(s.fab.net.any t.travels) ∧ !(s.hank.cold.any t.travels) then
      s.sendPkt { t.pkt.reply .comp t.pkt.src with tag := t.half.num * 32768 + t.tag, status := 3 }
    else s) s

/-- SPLICE_CLOSE (R37, R232, R233): the homes and proxies of a half forget the other, whose requests in flight are cut; a remote line's
members lose their copies. -/
def State.closeSplice (s : State) (lost : Half) : State :=
  let gone (a : Agent) : Bool := s.agentHalf a == lost
  let s := { s.fset R.HUB_SPLICE_OPEN 0 0 0 with fab := { s.fab with net := s.fab.net.filter fun p => !s.crosses p.sender p.dst } }
  let held := (List.range 8).filter fun k => gone ⟨.site, k⟩
  let named := s.fab.lines.filter fun e => !gone (homeAgent (s.sliceOf e.1)) && e.2.st == .h && held.contains e.2.holder
  let (b, s) := s.loseAgents gone 4 false true
  let s := s.sweepAgents gone
  let s := if b then
      match named.head? with
      | none => s.ev R.COH_EVENT_SPLICE_DROP 0
      | some e => (s.ev R.COH_EVENT_SPLICE_DROP 0).cohLoc 7 (s.sliceOf e.1) e.1 (e.2.holder)
    else s
  let s := s.fab.plines.foldl (fun s e =>
    if gone (proxyOf s e.1) then s
    else
      let s := e.2.waiting.foldl (fun s q => s.answer q (proxyOf s e.1) 3 0) s
      let s := (e.2.members (pairOf (s.sliceOf e.1))).foldl (fun s a => s.sendSnoop .snpInv (proxyOf s e.1) e.1 0 none a) s
      s.setPline e.1 {}) s
  s.answerCut lost

end Sys2Proof.Machine
end

