-- ==== Sys2Proof/Machine/Control.lean ====
section
/-! DEFINITION. The control commands QUERY, MARGIN, LINK_CTL and ATTEST (R388, R471), and the attestation report (R468 to R470). -/

namespace Sys2Proof.Machine

/-! ## QUERY, MARGIN, LINK_CTL (R388) -/

/-- The stored word of a register: its fields in their places. -/
def State.storedWord (s : State) (b : Blk) (inst off : Nat) : Nat :=
  (b.fields.filter fun f => f.off == off).foldl (fun n f => n + s.fget f inst 0 * 2 ^ f.lo) 0

/-- What a QUERY item reports, none for an item that the window lacks. -/
def State.queryItem (s : State) (r : Run) (item : Nat) : Option (List Nat) :=
  match item with
  | 0 => some [s.storedWord .hub 0 0x000, s.storedWord .hub 0 0x004]
  | 1 => some [s.storedWord .hub 0 R.HUB_RATE_WEST_RATE.off]
  | 2 =>
    if r.win.fn.val = 0 then none
    else
      let p := s.runPart r
      some [(s.groupsOf p).foldl (fun n g => n + 2 ^ g) 0, (s.ownedBy fun o => o.owner.toNat == p).length,
        1024 * ((List.range s.nBlocks).filter fun b => s.blockPart b == some p).length]
  | 3 => some [s.storedWord .mem 0 R.MEM_CAP_GRANULES.off, s.storedWord .mem 0 R.MEM_RETIRE_THRESH.off]
  | _ => none

/-- QUERY (R388). -/
def execQuery (id : Nat) (s : State) : Res :=
  .next (s.cmdBody id 0xC8 fun r s =>
    match s.queryItem r (pktField r.bytes 32 1) with
    | none => s.finish r.id stBadField 32
    | some l => s.setRun { r.finish stOk 0 with res := l.map (BitVec.ofNat 64) })

/-- MARGIN (R388): completes when the run ends, or at once where it is refused; with BUSY while the stack's half is in reset (R551,
R560; log 26). -/
def State.doMarginCmd (s : State) (r : Run) : State :=
  let k := pktBits r.bytes 258 256
  let w := BitVec.ofNat 32 (pktField r.bytes 36 4)
  if s.nStacks ≤ k then s.finish r.id stBadField 32
  else if !s.halfLive (stackHalf k) then s.finish r.id stBusy 0
  else
    let (no, s) := (s.marginFields k w).tryMargin k w (some r.id)
    if no = 0 then s else s.finish r.id stMarginRefused no

def execMarginCmd (id : Nat) (s : State) : Res := .next (s.cmdBody id 0xC9 fun r s => s.doMarginCmd r)

/-- LINK_CTL (R336, R388); a retraining meets BUSY while the link's half is in reset (R551). -/
def State.doLinkCtl (s : State) (r : Run) : State :=
  let l := pktField r.bytes 32 1
  let act := pktField r.bytes 33 1
  if l < s.nLinks ∧ act = 1 ∧ s.halfLive (linkHalf l) = false then s.finish r.id stBusy 0
  else if s.nLinks ≤ l ∨ s.lstate l = lsOff then s.finish r.id stBadField 32
  else if act = 1 then (s.retrain l).finish r.id stOk 0
  else if act = 2 then (s.retireOp l).finish r.id stOk 0
  else s.finish r.id stBadField 33

/-- Another path holds the Seizing that a LINK_CTL must take for LNK_LCTL (R569, R571). -/
def State.seizedAway (s : State) (n : Nat) : Bool := match s.seizer n with | none => false | some p => p != .west

/-- A command waits for a Seizing (R571). -/
def State.waitSeize (s : State) (id : Nat) : State := { s with fid := { s.fid with waiting := addOnce id s.fid.waiting } }
def State.unwait (s : State) (id : Nat) : State := { s with fid := { s.fid with waiting := s.fid.waiting.filter (· != id) } }

/-- A LINK_CTL has started and has neither run its body nor ended. -/
def State.linkCtlReady (s : State) (id : Nat) : Bool :=
  match s.run id with
  | none => false
  | some r => pktOpcode r.bytes == 0xCA && !r.body && r.status.isNone

/-- LINK_CTL takes Seizing 5 first, and waits for it while another path holds it: the row comes again once that path gives it (R571). -/
def execLinkCtl (id : Nat) (s : State) : Res :=
  .next
    (if s.linkCtlReady id && s.seizedAway 5 then s.waitSeize id
    else (s.unwait id).cmdBody id 0xCA fun r s => s.doLinkCtl r)

/-! ## The report (R468) -/

/-- A value of n bytes placed at a byte offset. -/
def field (o n v : Nat) : Nat := (v % 2 ^ (8 * n)) * 2 ^ (8 * o)

def sumNat (l : List Nat) : Nat := l.foldl (· + ·) 0

/-- Bits set where a test holds. -/
def bitsWhere (n : Nat) (test : Nat → Bool) : Nat := (List.range n).foldl (fun a i => a + (if test i then 2 ^ i else 0)) 0

/-- Digests of documents whose text the manual does not give: of the boot ROM, of the East image that goes with the running West
one, of the fuses, of the repair record (R468). -/
def romDigest : Nat := (Config.digest 0).toNat
def State.fwEast (s : State) : Nat :=
  if s.fbit R.HUB_ORG_EAST_UP 0 0 && !s.fuse.small then (Config.digest (1 + 8 * s.sec.fwRun.1.toNat)).toNat else 0
def State.fuseDigest (s : State) : Nat := (Config.digest (2 + 8 * (s.fget R.SEC_LC_STATE 0 0 + 4 * s.fuse.svnMin))).toNat

/-- A number that tells one repair record from another. -/
def repairCode : List Repair → Nat
  | [] => 0
  | .channel c :: r => 4 * c + 2 ^ 16 * repairCode r + 1
  | .soft n :: r => 4 * n + 2 ^ 16 * repairCode r + 2
  | .group g :: r => 4 * g + 2 ^ 16 * repairCode r + 3
  | .slice n :: r => 4 * n + 2 ^ 16 * repairCode r + 4

def State.repairDigest (s : State) : Nat := (Config.digest (3 + 8 * repairCode s.boot.record)).toNat

/-- PENDING (R476): zero while a transfer is in progress. -/
def State.pendDigest (s : State) : Nat :=
  match s.sec.fwPend with
  | some (d, _) => if s.sec.fwBusy then 0 else d.toNat
  | none => 0

/-- POP_RECORD. -/
def State.popRecord (s : State) : Nat :=
  sumNat ((List.range 8).map fun k =>
    let f := (s.fuse.sites[k]?).getD {}
    field (8 * k) 1 (match f.kind with | .cover => 0 | .d3 => 1 | .ap => 2) + field (8 * k + 2) 2 f.limit
      + field (8 * k + 4) 4 f.ident.toNat)

/-- DEBUG (R468, R482): the internal JTAG and the Fid are open before Production without any authorisation. -/
def State.debugByte (s : State) : Nat :=
  let early := s.fget R.SEC_LC_STATE 0 0 < 2
  let o := s.fget R.SEC_DBG_OPEN 0 0
  b2n (early || o.testBit 0) + 2 * b2n (early || o.testBit 1) + 4 * b2n s.sec.dbgEver

def State.anyWhip (s : State) : Bool := (List.range 8).any fun p => s.fbit R.SEC_PART_WHIPPING 0 p

def State.reportFlags (s : State) : Nat :=
  b2n (s.fbit R.HUB_ORG_EAST_UP 0 0) + 2 * b2n s.spliceOpen + 4 * b2n s.sec.fwPend.isSome + 8 * b2n s.sec.fwBusy
    + 16 * b2n s.anyWhip + 32 * b2n s.sec.alarm2

/-- Bytes 0 to 607 of a report. -/
def State.reportHead (s : State) (req : Nat) (nonce : Nat) : Nat :=
  sumNat [field 0 4 1, field 4 4 11000, field 8 4 (s.fget R.HUB_ORG_PART 0 0), field 12 4 (s.storedWord .hub 0 0x004),
    field 16 32 nonce, field 48 8 s.tally.toNat, field 56 1 req, field 57 1 (s.fget R.SEC_LC_STATE 0 0), field 58 1 s.debugByte,
    field 59 1 s.reportFlags, field 60 1 (s.fget R.SEC_ALARM_LEVEL 0 0), field 64 64 romDigest, field 128 64 s.sec.fwRun.1.toNat,
    field 192 64 s.fwEast, field 256 64 s.pendDigest, field 320 4 s.sec.fwRun.2, field 324 4 s.fuse.svnMin,
    field 328 64 s.fuseDigest, field 392 64 s.popRecord, field 456 64 s.repairDigest,
    field 520 1 (s.fget R.MEM_RETIRE_RETIRED 0 0), field 521 1 s.hank.reserve, field 528 64 (s.sec.anchor.getD 0)]
    + (if s.lan.table.isNone then 0 else
        sumNat [field 592 4 (s.fget R.LNK_DOM0_IDENT 0 0), field 596 4 (s.fget R.LNK_DOM1_IDENT 0 0),
          field 600 1 (s.fget R.LNK_DOM2_SELF 0 0), field 601 1 (s.fget R.LNK_DOM2_SIZE 0 0)])

/-- Partition entry p (R469), as 64 bytes. -/
def State.partEntry (s : State) (req p : Nat) : Nat :=
  let x := s.part p
  let old := sumNat [field 20 4 (s.fget R.SEC_PART_GEN 0 p), field 32 8 x.whipAt.toNat, field 40 4 x.whipUs, field 44 1 x.whipFl,
    field 48 8 x.zfillAt.toNat]
  match x.win with
  | none => old
  | some w =>
    let mine := p == req
    let shared := bitsWhere 22 fun k =>
      !(s.ownedBy fun r => r.owner.toNat == 8 && r.slot.toNat == sharedSlot k && r.share.toNat.testBit p).isEmpty
    old + sumNat [field 0 1 (1 + 2 * b2n mine + 4 * b2n x.whip.isSome), field 1 1 (128 * w.port.num + (w.fn.val - 1)),
      field 2 3 (bitsWhere 24 fun g => s.groupOwner g == some p),
      field 5 1 (bitsWhere 8 fun k => s.siteState k == 4 && s.fget R.SITE_STAT_PART k 0 == p),
      field 6 2 (s.ownedBy fun o => o.owner.toNat == p).length,
      field 8 8 (bitsWhere 64 fun b => s.blockPart b == some p), field 16 2 (s.maskOf p),
      field 18 2 (if mine then x.dtag.toNat else 0), field 24 8 x.created.toNat, field 45 3 (if mine then shared else 0)]

/-- Site entry k (R470), as 592 bytes. -/
def State.siteEntry (s : State) (k : Nat) : Nat :=
  let x := s.site k
  let st := s.siteState k
  let digs := (List.range 8).foldl (fun a n => a + field (80 + 64 * n) 64 ((x.digests[n]?).getD 0).toNat) 0
  digs + sumNat [field 0 1 st, field 1 1 (s.fget R.SITE_STAT_REASON k 0), field 2 1 (s.siteMinor k),
    field 3 1 (s.fget R.SITE_STAT_CACHING k 0 + 2 * s.fget R.SITE_STAT_DEGRADED k 0 + 4 * b2n x.severed + 8 * b2n x.remd),
    field 4 4 (s.fget R.SITE_IDENT_IDENTITY k 0), field 8 1 (if st = 4 ∨ st = 5 then s.fget R.SITE_STAT_PART k 0 else 0xFF),
    field 9 1 x.digests.length, field 10 2 (s.fget R.SITE_STAT_LIVE k 0), field 16 64 x.leaf.toNat]

/-- n 64-byte words of a signature, or of a chain's certificates, from a place on (log 8). -/
def docWords (ctr from_ n : Nat) : Nat := (List.range n).foldl (fun a i => a + 2 ^ (512 * i) * (Config.document ctr (from_ + i)).toNat) 0

/-- A report (R468) as one number, and its length with the chain where that is asked for. `req` is 0xFF for a device-level one. -/
def State.report (s : State) (req nonce : Nat) (chain : Bool) : Nat × Nat :=
  let body := s.reportHead req nonce + sumNat ((List.range 8).map fun p => field (608 + 64 * p) 64 (s.partEntry req p))
    + sumNat ((List.range 8).map fun k => field (1120 + 592 * k) 592 (s.siteEntry k))
  let signed := body + field 5856 512 (docWords s.freeCtr 0 8) + field 6368 4627 (docWords s.freeCtr 8 73)
  let len := (Config.chainLen s.freeCtr).toNat + 1
  if chain then (signed + field 11000 4 len + field 11004 len (docWords s.freeCtr 81 ((len + 63) / 64)), 11004 + len)
  else (signed, 11000)

/-- Bytes o to o + n - 1 of a document. -/
def docBytes (v o n : Nat) : List (BitVec 8) := (List.range n).map fun i => BitVec.ofNat 8 (v >>> (8 * (o + i)))

/-- Signed reports exist: not in Blank and End of life, not while the keys are gone (R476, R482). -/
def State.signs (s : State) : Bool := s.coreUp && (s.fget R.SEC_LC_STATE 0 0 == 1 || s.fget R.SEC_LC_STATE 0 0 == 2)

/-! ## ATTEST (R471) -/

/-- The write of sector i of a report of n bytes. -/
def reportAcc (r : Run) (svc : BitVec 3) (v n dva i : Nat) : DvaAcc :=
  let k := min 32 (n - 32 * i)
  ⟨⟨.mgmt, 2⟩, runCtx r, svc, BitVec.ofNat 52 (dva + 32 * i), .wrThrough, BitVec.ofNat 32 (2 ^ k - 1), k != 32, false,
    BitVec.ofNat 256 ((v >>> (256 * i)) % 2 ^ (8 * k)), .report r.id⟩

/-- Sends the sectors of a report in order; a fault ends the command (R471). -/
def State.sendReport (s : State) (r : Run) : List DvaAcc → State
  | [] => s
  | x :: rest =>
    match s.translate x.master x.ctx x.dva.toNat .write with
    | (.dpa a, s) => (s.sendAcc x a).sendReport r rest
    | (.fault k i, s) => (s.xltFaultLoose x.master x.ctx k i x.dva.toNat).finish r.id stMemDenied 0

/-- The body of an ATTEST. -/
def State.doAttest (s : State) (r : Run) : State :=
  let p := s.runPart r
  let dva := pktDva r.bytes 32
  if !s.partReady p then s.finish r.id stNoPartition 0
  else if dva % 64 ≠ 0 then s.finish r.id stBadField 32
  else
    let (v, n) := s.report p (pktField r.bytes 40 32) ((pktField r.bytes 72 1).testBit 0)
    let m := (n + 31) / 32
    let (svc, s) := s.bump.runSvc r
    let r := { r with left := m, res := [BitVec.ofNat 64 n] }
    (s.setRun r).sendReport r ((List.range m).map (reportAcc r svc v n dva))

/-- ATTEST (R471, R476): it waits while the West management core does not run. -/
def execAttest (id : Nat) (s : State) : Res :=
  .next (if s.signs then s.cmdBody id 0xC7 fun r s => s.doAttest r else s)

end Sys2Proof.Machine
end

