-- ==== Sys2Proof/Machine/XltRows.lean ====
section
/-! DEFINITION. The rows of translation: RANGE_WALK, XLT_RETRY and XLT_CANCEL (R406 to R415). -/

namespace Sys2Proof.Machine

/-- Rights that the row's access names: 0 none, 1 read, 2 write, else atomic (R404). -/
def needOfCode (acc : BitVec 3) : Need :=
  match acc.toNat with
  | 0 => .any | 1 => .read | 2 => .write | _ => .atomic

/-- RANGE_WALK (R406 to R412): a master's translation; a fault is held where the master holds. -/
def execRangeWalk (m : Agent) (ctx : BitVec 12) (dva : Dva) (acc : BitVec 3) (hold : Bool) (s : State) : Res :=
  match s.translate m ctx dva.toNat (needOfCode acc) with
  | (.dpa _, s) => .next s
  | (.fault k i, s) =>
    .next (if hold then s.xltFault m ctx k i dva.toNat none (.accs []) else s.xltFaultLoose m ctx k i dva.toNat)

/-- A write of a window's XLT block by a partition's function. -/
def State.writeXlt (s : State) (w : Win) (v : W32) (retry : Bool) : State := s.wreg w fun s => s.postRecords w retry v

/-- XLT_RETRY (R413, R422). -/
def execXltRetry (win : Win) (w : W32) (s : State) : Res := .next (s.writeXlt win w true)

/-- XLT_CANCEL (R413, R422). -/
def execXltCancel (win : Win) (w : W32) (s : State) : Res := .next (s.writeXlt win w false)

end Sys2Proof.Machine
end

