-- ==== Sys2Proof/Machine/Power.lean ====
section
/-! DEFINITION. The rows of the power governor and of the tag minimums: leave, throttling, and their registers (R428, R432 to R447). -/

namespace Sys2Proof.Machine

/-! ## Leave (R437 to R443) -/

/-- The CTL ops of R294 that a chiplet sends. -/
def ctlOps : List Nat := [0x50, 0x59, 0x5A, 0x53, 0x54, 0x5D]

/-- A site's LeaveReq: only a bound site is served, through a valid slot (R309, R311, R317); a CTL request whose op R294 does not
list gets STATUS 5. -/
def State.siteLeaveReq (s : State) (k : Fin 8) (tag : CtlTag) (watts durUs : Nat) : State :=
  if tag.op = 0x54 then s.ctlGate k.val tag.slot.val 0x54 tag.tag fun _ s => s.askLeave (.site k) tag.tag watts durUs (stackHalf k.val)
  else if ctlOps.contains tag.op.toNat then s
  else s.ctlGate k.val tag.slot.val tag.op tag.tag fun _ s => s.answerMsg k.val (.ctl tag.slot.val tag.op tag.tag) 5

/-- The DISPATCH that waits as a lane's head asks for leave with its own WATTS (R379, R438). -/
def State.cmdLeaveReq (s : State) (id : Nat) : State :=
  match s.headOf id with
  | none => s
  | some (l, p) =>
    let w := winOf (l / 4)
    if s.headNext w (l % 4) p = .ask then s.askLeave (.cmd id) 0 (pktField p.bytes 36 4) 0 (s.portHalf w.port) else s

/-- LEAVE_REQ (R439). A run on a stack asks once, as it starts. -/
def execLeaveReq (who : LeaveWho) (tag : CtlTag) (watts : BitVec 16) (durUs : BitVec 32) (s : State) : Res :=
  match who with
  | .site k => atUnit (s.hasSite k.val) (s.siteLeaveReq k tag watts.toNat durUs.toNat)
  | .cmd id => .next (s.cmdLeaveReq id)
  | .run _ => .next s

/-- LEAVE_QUEUE_TIMEOUT (R440): the queue's head has waited QWAIT_MS and is refused. -/
def State.queueTimeout (s : State) : State :=
  match s.pwr.queue with
  | [] => s
  | h :: rest => (({ s with pwr := { s.pwr with queue := rest } }).refuseLeave h.who).decideQueue 32

def execLeaveQueueTimeout (s : State) : Res := .next s.queueTimeout

/-- LEAVE_EXPIRE (R441): nothing is sent. -/
def execLeaveExpire (k : Fin 8) (s : State) : Res :=
  atUnit (s.hasSite k.val)
    (if s.pwr.grants.any fun g => g.1 == LeaveWho.site k then s.returnLeave (.site k) else s)

/-! ## Throttling (R445) -/

/-- A throttle has lowered a rail. -/
def State.vdrop (s old : State) : State :=
  let s := s.showRails
  if s.rail .west < old.rail .west ∨ s.rail .east < old.rail .east then s.ev R.PWR_EVENT_VDROP 0 else s

/-- One step of the package-draw throttle: rails first, then gates. -/
def State.pkgLower (s : State) : State :=
  if s.pwr.pkgSteps < s.pwr.vNow then { s with pwr := { s.pwr with pkgSteps := s.pwr.pkgSteps + 1 } }
  else { s with pwr := { s.pwr with pkgGate := max 4 (s.pwr.pkgGate - 1) } }

/-- PACKAGE_DRAW_SAMPLE (R445): the 1 ms average; ten samples in a row below 0.95 of PKG_W release the throttle. -/
def State.drawSample (s : State) (watts : Nat) : State :=
  let old := s
  let s := s.fset R.PWR_DRAW_PKG_W 0 0 watts
  let lim := s.fget R.PWR_LIMIT_PKG_W 0 0
  let s :=
    if lim < watts then { s with pwr := { s.pwr with pkgOn := true, calm := 0 } }.pkgLower
    else if 20 * watts < 19 * lim then
      let n := min 10 (s.pwr.calm + 1)
      { s with pwr := { s.pwr with calm := n, pkgOn := s.pwr.pkgOn && n < 10 } }
    else { s with pwr := { s.pwr with calm := 0 } }
  (s.vdrop old).updGates

def execPackageDrawSample (watts : BitVec 12) (s : State) : Res := .next (s.drawSample watts.toNat)

/-- What the hottest junction of a half does to its throttles: both rows, and one step of rail while either is in force (R445). -/
def junctionStep (v jun gate : Nat) (on hot : Bool) (t : Int) : Nat × Nat × Bool × Bool :=
  let on := decide (100 < t) || (on && decide (97 < t))
  let hot := decide (105 < t) || (hot && decide (102 < t))
  (if hot then v else if on then min v (jun + 1) else jun, if hot then min 8 gate else gate, on, hot)

/-- JUNCTION_TEMP_CHANGE (R445): one evaluation, each 1 ms, of a half's hottest junction. -/
def State.junctionTemp (s : State) (h : Half) (t : Int) : State :=
  let p := s.pwr
  let u := match h with
    | .west =>
      let (jun, g, on, hot) := junctionStep p.vNow p.junW p.jgateW p.jOnW p.jHotW t
      { s with pwr := { p with junW := jun, jgateW := g, jOnW := on, jHotW := hot } }
    | .east =>
      let (jun, g, on, hot) := junctionStep p.vNow p.junE p.jgateE p.jOnE p.jHotE t
      { s with pwr := { p with junE := jun, jgateE := g, jOnE := on, jHotE := hot } }
  (u.vdrop s).updGates

def execJunctionTempChange (h : Half) (temp : Int) (s : State) : Res := atUnit (s.hasHalf h) (s.junctionTemp h temp)

/-- STACK_TEMPERATURE_THROTTLE (R445). -/
def execStackTemperatureThrottle (k : Fin 8) (temp : BitVec 8) (s : State) : Res :=
  atUnit (k.val < s.nStacks) (s.stackHeat k.val temp.toNat)

/-- The package-draw throttle, released, takes one step back: gates first, then rails. -/
def State.pkgBack (s : State) : State :=
  let p := s.pwr
  if p.pkgOn then s
  else if p.pkgGate < 16 then { s with pwr := { p with pkgGate := p.pkgGate + 1 } }
  else { s with pwr := { p with pkgSteps := p.pkgSteps - 1 } }

/-- Junction throttles, released, take one step back. -/
def State.junBack (s : State) : State :=
  let p := s.pwr
  { s with pwr := { p with
    junW := if p.jOnW || p.jHotW then p.junW else p.junW - 1
    junE := if p.jOnE || p.jHotE then p.junE else p.junE - 1
    jgateW := if p.jHotW then p.jgateW else min 16 (p.jgateW + 1)
    jgateE := if p.jHotE then p.jgateE else min 16 (p.jgateE + 1) } }

/-- Stack-temperature gates take one step toward the caps still in force. -/
def State.stkBack (s : State) : State :=
  let g := (List.range 8).foldl (fun g k =>
    tset (fun _ => 16) g k (min (tget (fun _ => 16) s.pwr.stkWant k) (tget (fun _ => 16) g k + 1))) s.pwr.stkGate
  { s with pwr := { s.pwr with stkGate := g } }

/-- THROTTLE_RELEASE_STEP (R445): one step per 10 ms. -/
def execThrottleReleaseStep (s : State) : Res := .next ((((s.pkgBack).junBack).stkBack).showRails).updGates

/-! ## Registers (R428, R432, R434 to R436, R449) -/

/-- The highest PKG_W (R10, R50, R432). -/
def State.topPkg (s : State) : Nat :=
  let sites := (List.range 8).foldl (fun n k => n + s.siteLimit k) 0
  if s.fuse.small then min 1300 (600 + sites) else min 2600 (1150 + sites)

/-- COOL_AIR_N read low at stage 0 (R604). -/
def State.coolAir (s : State) : Bool := match s.boot.env with | none => false | some e => !e.coolAirN

/-- A write of PWR_LIMIT (R432, R604). -/
def State.writeLimit (s : State) (v : Nat) : State :=
  if s.topPkg < v ∨ v < s.committed ∨ (s.coolAir ∧ 900 < v) then s.ev R.PWR_EVENT_LIMIT_REFUSED 0
  else (s.fset R.PWR_LIMIT_PKG_W 0 0 v).decideQueue 32

/-- PWR_LIMIT_WRITE. -/
def execPwrLimitWrite (path : Path) (w : W32) (s : State) : Res :=
  .next (s.regWrite path .pwr 0 0x000 fun s => s.writeLimit (bitsOf w.toNat 11 0))

/-- A write of PWR_PBASEp (R434, R475, R575). -/
def State.writePbase (s : State) (p v : Nat) : State :=
  let s := s.tdiError p
  let t := (s.fset R.PWR_PBASE_BASE_W 0 p (bitsOf v 11 0)).fset R.PWR_PBASE_LEAVE_MAX 0 p (bitsOf v 23 12)
  if t.fget R.PWR_LIMIT_PKG_W 0 0 < t.committed then s.ev R.PWR_EVENT_BASE_REFUSED 0
  else (t.disarm).decideQueue 32

/-- PWR_PBASE_WRITE. -/
def execPwrPbaseWrite (p : Fin 8) (path : Path) (w : W32) (s : State) : Res :=
  .next (s.regWrite path .pwr 0 (0x010 + 4 * p.val) fun s => s.writePbase p.val w.toNat)

/-- A write of PWR_CONF (R436, R449, R566). -/
def State.writePwrConf (s : State) (v : Nat) : State :=
  let q := bitsOf v 10 3
  let m := bitsOf v 20 11
  let vt := bitsOf v 2 0
  let s := if q = 0 then s else s.fset R.PWR_CONF_QWAIT_MS 0 0 q
  let s := if m = 0 then s else s.fset R.PWR_CONF_MAXDUR_MS 0 0 m
  if 4 < vt then s
  else
    let s := { s.fset R.PWR_CONF_VTARGET 0 0 vt with pwr := { s.pwr with vStaged := some vt } }
    (s.applyV).updGates

/-- PWR_CONF_WRITE. -/
def execPwrConfWrite (path : Path) (w : W32) (s : State) : Res :=
  .next (s.regWrite path .pwr 0 0x004 fun s => s.writePwrConf w.toNat)

/-- The fields of HUB_TAGMINn, each with its master's maximum (R206, R448). -/
def tagminFields (n : Nat) : List (Fld × Nat) :=
  match n with
  | 0 => [(R.HUB_TAGMIN0_TILE, 512), (R.HUB_TAGMIN0_SITE, 4096)]
  | 1 => [(R.HUB_TAGMIN1_HOST, 2048), (R.HUB_TAGMIN1_PSEQ, 1024)]
  | _ => [(R.HUB_TAGMIN2_LANYARD, 512), (R.HUB_TAGMIN2_MGMT, 256)]

/-- A write of HUB_TAGMINn (R428, R567, R575); requests that the new minimums admit go on. -/
def State.writeTagmin (s : State) (path : Path) (n v : Nat) : State :=
  let fs := tagminFields n
  let t := fs.foldl (fun t (f, _) => t.fset f 0 0 (bitsOf v f.hi f.lo)) s
  let tooMuch := fs.any fun (f, m) => m < bitsOf v f.hi f.lo
  if s.anyPart then (s.fset R.HUB_SVCEVENT_MIN_REFUSED 0 0 1).regRefused path .hub 0
  else if tooMuch || 32768 < t.sumMin .west || (!s.fuse.small && 32768 < t.sumMin .east) then
    s.fset R.HUB_SVCEVENT_MIN_REFUSED 0 0 1
  else (t.disarm).pump

/-- HUB_TAGMIN_WRITE. -/
def execHubTagminWrite (n : Fin 3) (path : Path) (w : W32) (s : State) : Res :=
  .next (s.regWrite path .hub 0 (0x120 + 4 * n.val) fun s => s.writeTagmin path n.val w.toNat)

end Sys2Proof.Machine
end

