-- ==== Sys2Proof/Machine/Security.lean ====
section
/-! DEFINITION. The rows of the security engine and of the management session: alarms (R480, R481), the Halyard session (R477 to
R479), SPDM and TDISP (R473 to R476), the life cycle (R482, R483), authorised debug (R484). What cryptography decides comes with the
row, and what is sent is recorded (log 8). -/

namespace Sys2Proof.Machine

/-! ## Alarm sources (R480) -/

/-- TAMPER_ASSERT: at the level that SEC_ALARMCFG names. -/
def execTamperAssert (n : Fin 2) (s : State) : Res :=
  .next (s.alarm alTamper (s.fget (if n.val = 0 then R.SEC_ALARMCFG_TAMPER0 else R.SEC_ALARMCFG_TAMPER1) 0 0))

/-- CRYSTAL_FAULT. -/
def execCrystalFault (s : State) : Res := .next (s.alarm alCrystal 3)

/-- RAIL_GLITCH. -/
def execRailGlitch (s : State) : Res := .next (s.alarm alGlitch 3)

/-- JUNCTION_COLD. -/
def execJunctionCold (s : State) : Res := .next (s.alarm alCold 3)

/-! ## The Halyard session (R477, R478) -/

/-- The 60 s of R480, in counts of the tally. -/
def handshakeSpan : Nat := 60000000000

/-- The port refuses connections (R480). -/
def State.shut (s : State) : Bool := match s.sec.hsShut with | none => false | some t => tallyDiff s.tally t < handshakeSpan

/-- A handshake fails; the third within 60 s raises an alarm (R480). -/
def State.handshakeFailed (s : State) : State :=
  let l := s.window handshakeSpan s.sec.hsFails ++ [s.tally]
  if 3 ≤ l.length then
    { s with sec := { s.sec with hsFails := [], hsShut := some s.tally } }.alarm alHandshake 1
  else { s with sec := { s.sec with hsFails := l } }

/-- Enrols an anchor (R478). -/
def State.enrol (s : State) (c : Client) : State :=
  { s with sec := { s.sec with anchor := some c.digest } }.ev R.SEC_EVENT_ANCHOR_SET 0

/-- A connection (R477, R478): one session at a time; the first client enrols its certificate where none is. -/
def State.connect (s : State) (c : Client) : State :=
  if s.sec.session || s.shut || !s.coreUp then s.pushOut .tcpRefused
  else
    let opened (s : State) : State := { s with sec := { s.sec with session := true } }
    match s.sec.anchor with
    | some _ => if c.suiteOk && c.keyOk && c.chainOk then opened s else s.handshakeFailed
    | none => if c.suiteOk && c.keyOk && c.selfSigned then opened (s.enrol c) else s.handshakeFailed

/-- HALYARD_CONNECT. -/
def execHalyardConnect (c : Client) (s : State) : Res := .next (s.connect c)

/-- HALYARD_IDLE_TIMEOUT (R477). -/
def execHalyardIdleTimeout (s : State) : Res := .next (if s.sec.session then s.endSession else s)

/-- HALYARD_SESSION_CLOSE (R485). -/
def execHalyardSessionClose (s : State) : Res := .next (if s.sec.session then s.endSession else s)

/-! ## Halyard messages (R479) -/

/-- An answer: the TYPE with bit 15, and a status, 0 for done; the manual gives the statuses no codes (log 8). -/
def State.hAnswer (s : State) (type status : Nat) (body : List (BitVec 8)) : State :=
  s.pushOut (.halyard (0x8000 + type) status body)

/-- A message is taken by a management core that runs, in an open session. -/
def State.message (s : State) (k : State → State) : State := if s.sec.session && s.coreUp then k s else s

/-- A COMMAND is run as a control window's packet of a control opcode would be (R389, R479); the core takes it when no other command runs. -/
def State.halyardRun (s : State) (b : List (BitVec 8)) : State :=
  if s.coreBusy then s
  else
    let id := s.cmds.seals + 1
    let s := { s with cmds := { s.cmds with seals := id } }
    let w : Win := ⟨.w, 0⟩
    let r := { mkRun w 0 ⟨b, id, s.fab.serial, s.tally⟩ with halyard := true, mark := s.fab.serial }
    let r := match firstFail [failIf (b.length != 8 * pktLen b) stBadField 1, s.headerFail w b,
        failIf (!isControl (pktOpcode b)) stNotPermitted 0] with
      | some f => { r.finish f.1 f.2 with body := true }
      | none => { r with tStart := s.tally }
    { s with cmds := { s.cmds with runs := s.cmds.runs ++ [r] } }

/-- HALYARD_COMMAND. -/
def execHalyardCommand (packet : List (BitVec 8)) (s : State) : Res := .next (s.message fun s => s.halyardRun packet)

/-- HALYARD_REPORT (R472, R479): a device-level report; none in Blank and End of life (R482). -/
def execHalyardReport (nonce : BitVec 256) (chain : Bool) (s : State) : Res :=
  .next (s.message fun s =>
    if !s.signs then s.hAnswer 2 1 []
    else
      let (v, n) := s.report 0xFF nonce.toNat chain
      s.bump.hAnswer 2 0 (docBytes v 0 n))

/-- A domain table is delivered (R339, R340): applied at once, or once every link is OFF. -/
def State.takeTable (s : State) (d : DomainTable) : State :=
  if s.linksOff && !s.lan.stopping then s.applyTable d
  else
    let s := { s with lan := { s.lan with pending := some d } }
    if s.lan.stopping then s else s.stopDomain

/-- HALYARD_DOMAIN. -/
def execHalyardDomain (d : DomainTable) (s : State) : Res := .next (s.message fun s => (s.takeTable d).hAnswer 3 0 [])

/-- A half is in a warm reset. -/
def State.resetting (s : State) : Bool := (s.half .west).warm.isSome || (s.half .east).warm.isSome

/-- Status of an answer to a message that a running activity refuses (R551). -/
def hBusy : Nat := 0x1A

/-- HALYARD_FW_DATA (R476, R479): the inactive slot is written, so that no image in it awaits activation. -/
def execHalyardFwData (off : BitVec 32) (data : List (BitVec 8)) (s : State) : Res :=
  .next (s.message fun s =>
    if 65536 < data.length then s.hAnswer 4 1 []
    else if s.fbit R.SEC_LC_BUSY 0 0 then s.hAnswer 4 hBusy []
    else
      ({ s with sec := { s.sec with
        fwBusy := true, fwPend := none, fwData := s.sec.fwData ++ [(off.toNat, data.length)] } }).hAnswer 4 0 [])

/-- HALYARD_FW_COMMIT (R479): the transfer ends; a verified image waits for the next cold boot. -/
def State.fwCommit (s : State) (raise ok : Bool) (svn : Nat) (digest : BitVec 512) : State :=
  let good := s.sec.fwBusy && ok && decide (s.fuse.svnMin ≤ svn)
  ({ s with sec := { s.sec with
      fwBusy := false, fwData := [], fwPend := if good then some (digest, svn, raise) else s.sec.fwPend } }).hAnswer 5 (b2n !good) []

def execHalyardFwCommit (len : BitVec 32) (raiseSvn sigOk : Bool) (svn : Nat) (digest : BitVec 512) (s : State) : Res :=
  .next (s.message fun s =>
    if s.fbit R.SEC_LC_BUSY 0 0 || s.resetting then s.hAnswer 5 hBusy [] else s.fwCommit raiseSvn (sigOk && len != 0) svn digest)

/-! ## Life cycle (R482, R483) -/

/-- The transitions of R483. -/
def lcMoves (now target : Nat) : Bool := (now == 0 && target == 1) || (now == 1 && target == 2) || ((now == 1 || now == 2) && target == 3)

/-- A march, a margin run or a half's reset runs (R551). -/
def State.maintains (s : State) : Bool :=
  (List.range s.nStacks).any fun k => s.fbit R.MEM_MARGIN_STAT_BUSY k 0 || s.fbit R.MEM_MARCH_STAT_BUSY k 0

/-- A transition may start. -/
def State.lcMay (s : State) (target : Nat) : Bool :=
  lcMoves (s.fget R.SEC_LC_STATE 0 0) target && !s.anyPart && !s.fbit R.SEC_LC_BUSY 0 0 && !s.sec.torn && !s.maintains
    && !s.resetting

/-- A write of SEC_LCTRANS with its CONFIRM (R483). -/
def State.lcGo (s : State) (target : Nat) : State :=
  if s.lcMay target then s.beginBurn target else s.ev R.SEC_EVENT_LC_REFUSED 0

/-- HALYARD_LC. -/
def execHalyardLc (target : BitVec 2) (s : State) : Res :=
  .next (s.message fun s => (s.lcGo target.toNat).hAnswer 6 (b2n !(s.lcMay target.toNat)) [])

/-- A write of SEC_LCTRANS (R483, R486): in Production a transition is made on a Halyard LC message alone, and a write is refused. -/
def State.writeLctrans (s : State) (v : Nat) : State :=
  if bitsOf v 31 16 = 0xC1A7 ∧ s.fget R.SEC_LC_STATE 0 0 ≠ 2 then s.lcGo (bitsOf v 1 0) else s.ev R.SEC_EVENT_LC_REFUSED 0

/-- SEC_LCTRANS_WRITE (R483, R486). -/
def execSecLctransWrite (path : Path) (w : W32) (s : State) : Res :=
  .next (s.regWrite path .sec 0 0x004 fun s => s.writeLctrans w.toNat)

/-- Scrapping overwrites the SVN fuse, with what the manual does not say, and erases the sealed records (R483; log 6). -/
def State.scrap (s : State) : State :=
  { s with
    fuse := { s.fuse with svnMin := Config.number s.freeCtr }
    boot := { s.boot with record := [] }
    sec := { s.sec with anchor := none, fwPend := none } }.bump

/-- LC_BURN_DONE (R469, R483): the new state; creations count anew; deferred alarms act. -/
def State.burnDone (s : State) (target : Nat) : State :=
  let l := s.sec.deferred
  let s := { s with sec := { s.sec with burning := none, deferred := [] } }
  let s := (s.fset R.SEC_LC_STATE 0 0 target).fset R.SEC_LC_BUSY 0 0 0
  let s := (List.range 8).foldl (fun s p => s.fset R.SEC_PART_GEN 0 p 0) s
  let s := if target = 3 then s.scrap else s
  l.foldl (fun s a => s.alarm a.1 a.2) s

def execLcBurnDone (s : State) : Res :=
  .next (match s.sec.burning with | none => s | some t => s.burnDone t)

/-! ## Debug and anchor (R478, R484) -/

/-- A fresh 32-byte debug nonce. -/
def State.drawNonce (s : State) : State :=
  (List.range 8).foldl (fun s n => (s.fset R.SEC_DBG_NONCE_NONCE 0 n (Config.trng s.freeCtr).toNat).bump) s

/-- The nonce that SEC_DBG_NONCE shows. -/
def State.dbgNonce (s : State) : List W32 := (List.range 8).map fun n => BitVec.ofNat 32 (s.fget R.SEC_DBG_NONCE_NONCE 0 n)

/-- A debug token (R484, R485): it can be refused without a count, fail, or open what it names. -/
def State.debugToken (s : State) (t : DebugToken) : State :=
  if s.anyPart ∨ s.fget R.SEC_LC_STATE 0 0 ≠ 2 then s.hAnswer 7 1 []
  else if t.sigOk && t.dikOk && t.nonce == s.dbgNonce then
    let s := { s.fset R.SEC_DBG_OPEN 0 0 t.bits.toNat with sec := { s.sec with dbgEver := true } }
    ((s.drawNonce).ev R.SEC_EVENT_DBG_OPEN 0).hAnswer 7 0 []
  else
    let n := s.fget R.SEC_DBG_FAILS 0 0
    let s := (s.fadd R.SEC_DBG_FAILS 0 0 1).drawNonce
    (if n = 2 then s.alarm alDebug 1 else s).hAnswer 7 1 []

/-- HALYARD_DEBUG. -/
def execHalyardDebug (tok : DebugToken) (s : State) : Res := .next (s.message fun s => s.debugToken tok)

/-- HALYARD_ANCHOR (R478): an anchor certificate is self-signed, with a key of R478. -/
def execHalyardAnchor (c : Client) (s : State) : Res :=
  .next (s.message fun s => if c.selfSigned && c.keyOk then (s.enrol c).hAnswer 8 0 [] else s.hAnswer 8 1 [])

/-! ## SPDM and TDISP (R473 to R476) -/

/-- Codes of SPDM answers and errors: PRESUMED, as SPDM 1.3 numbers them (log 8). -/
def spdmError : Nat := 0x7F
def spdmUnsupported : BitVec 8 := 0x07
def spdmUnexpected : BitVec 8 := 0x04
def spdmInvalid : BitVec 8 := 0x01
def spdmNotReady : BitVec 8 := 0x42

def State.spdmFail (s : State) (win : Nat) (e : BitVec 8) : State := s.pushOut (.spdm win spdmError [e])
def State.spdmOk (s : State) (win code : Nat) : State := s.pushOut (.spdm win code [])

/-- The function's mailbox answers: nothing once the keys are gone, ResponseNotReady while the West core does not run (R476). -/
def State.mailbox (s : State) (w : Win) (k : State → State) : State :=
  if !s.fnThere w.idx || s.sec.halted then s
  else if !s.coreUp then s.spdmFail w.idx spdmNotReady
  else k s

def State.tdi (s : State) (w : Win) : Tdi := tget (fun _ => Tdi.unlocked) s.sec.tdis w.idx
def State.setTdi (s : State) (w : Win) (t : Tdi) : State :=
  { s with sec := { s.sec with tdis := tset (fun _ => Tdi.unlocked) s.sec.tdis w.idx t } }

/-- A request within a session. -/
def State.inSession (s : State) (w : Win) (k : State → State) : State :=
  if s.sec.spdm.contains w.idx then k s else s.spdmFail w.idx spdmUnexpected

/-- A TDISP message of a partition's function: from the states named to another (R475; PRESUMED, as TDISP has it). -/
def State.tdisp (s : State) (w : Win) (from_ : List Tdi) (into : Tdi) : State :=
  s.inSession w fun s =>
    if w.fn.val = 0 ∨ (s.partOfWin w).isNone then s.spdmFail w.idx spdmUnsupported
    else if from_.contains (s.tdi w) then (s.setTdi w into).spdmOk w.idx 0x7E
    else s.spdmFail w.idx spdmInvalid

/-- An SPDM request (R473). -/
def State.spdm (s : State) (w : Win) (r : SpdmReq) : State :=
  let i := w.idx
  match r with
  | .getVersion => s.spdmOk i 0x04
  | .getCapabilities => s.spdmOk i 0x61
  | .negotiateAlgorithms => s.spdmOk i 0x63
  | .getDigests => s.spdmOk i 0x01
  | .getCertificate => s.spdmOk i 0x02
  | .challenge => s.spdmOk i 0x03
  | .keyExchange => ({ s with sec := { s.sec with keyEx := addOnce i s.sec.keyEx } }).spdmOk i 0x64
  | .finish =>
    if s.sec.keyEx.contains i then
      ({ s with sec := { s.sec with keyEx := s.sec.keyEx.filter (· != i), spdm := addOnce i s.sec.spdm } }).spdmOk i 0x65
    else s.spdmFail i spdmUnexpected
  | .heartbeat => s.inSession w fun s => s.spdmOk i 0x68
  | .keyUpdate => s.inSession w fun s => s.spdmOk i 0x69
  | .endSession => s.inSession w fun s =>
      ({ s with sec := { s.sec with spdm := s.sec.spdm.filter (· != i) } }).spdmOk i 0x6C
  | .ideKm => s.inSession w fun s => ({ s with sec := { s.sec with ide := addOnce i s.sec.ide } }).spdmOk i 0x7E
  | .tdispLock => s.tdisp w [.unlocked] .locked
  | .tdispStart => s.tdisp w [.locked] .run
  | .tdispStop => s.tdisp w [.unlocked, .locked, .run, .error] .unlocked
  | .pskExchange | .mutualAuth | .provisioning | .other => s.spdmFail i spdmUnsupported

/-- SPDM_REQUEST. -/
def execSpdmRequest (win : Win) (r : SpdmReq) (s : State) : Res := .next (s.mailbox win fun s => s.spdm win r)

/-- REQ_PART of a function's report: its partition, or 0xFF on a physical function (R474). -/
def State.reqPart (s : State) (w : Win) : Option Nat := if w.fn.val = 0 then some 0xFF else s.partOfWin w

/-- Block 7 of R474. -/
def State.reportBlock (s : State) (w : Win) (code : Nat) (nonce : BitVec 256) : State :=
  match s.reqPart w with
  | none => s.spdmFail w.idx spdmUnexpected
  | some p =>
    if !s.signs then s.spdmFail w.idx spdmUnsupported
    else s.bump.pushOut (.spdm w.idx code (docBytes (s.report p nonce.toNat false).1 0 11000))

/-- Blocks 1 to 6 of R474. -/
def State.measureBlock (s : State) (idx : Nat) : Option (List (BitVec 8)) :=
  match idx with
  | 1 => some (docBytes romDigest 0 64)
  | 2 => some (docBytes s.sec.fwRun.1.toNat 0 64)
  | 3 => some (docBytes s.fwEast 0 64)
  | 4 => some (docBytes s.fuseDigest 0 64 ++ [BitVec.ofNat 8 (s.fget R.SEC_LC_STATE 0 0), BitVec.ofNat 8 s.debugByte])
  | 5 => some (docBytes s.repairDigest 0 64)
  | 6 => some (docBytes s.popRecord 0 64)
  | _ => none

/-- GET_MEASUREMENTS (R474). -/
def execGetMeasurements (win : Win) (idx : BitVec 8) (nonce : BitVec 256) (s : State) : Res :=
  .next (s.mailbox win fun s =>
    if idx = 7 then s.reportBlock win 0x60 nonce
    else
      match s.measureBlock idx.toNat with
      | some b => s.pushOut (.spdm win.idx 0x60 b)
      | none => s.spdmFail win.idx spdmInvalid)

/-- GET_DEVICE_INTERFACE_REPORT (R475). -/
def execGetDeviceInterfaceReport (win : Win) (nonce : BitVec 256) (s : State) : Res :=
  .next (s.mailbox win fun s =>
    if win.fn.val = 0 then s.spdmFail win.idx spdmUnsupported else s.reportBlock win 0x7E nonce)

end Sys2Proof.Machine
end

