-- ==== Sys2Proof/Machine/Ports.lean ====
section
/-! DEFINITION. The rows of the host ports: function and port resets (R505 to R509), configuration registers and power states (R496,
R498, R502, R510), link training (R487, R488, R513), errors (R499, R502), and the module sideband (R511, R512, R516 to R518). -/

namespace Sys2Proof.Machine

/-! ## Configuration registers -/

/-- The port answers configuration requests with Request Retry Status (R513). -/
def State.crs (s : State) (p : Port) : Bool := match p with | .w => s.ports.crsW | .e => s.ports.crsE
def State.setCrs (s : State) (p : Port) (b : Bool) : State :=
  match p with
  | .w => { s with ports := { s.ports with crsW := b } }
  | .e => { s with ports := { s.ports with crsE := b } }

/-- PERST# of a port is asserted. -/
def State.perst (s : State) (p : Port) : Bool := match p with | .w => s.ports.perstW | .e => s.ports.perstE
def State.setPerst (s : State) (p : Port) (b : Bool) : State :=
  match p with
  | .w => { s with ports := { s.ports with perstW := b } }
  | .e => { s with ports := { s.ports with perstE := b } }

/-- Configuration requests reach the function (R492, R513). -/
def State.cfgReach (s : State) (w : Win) : Bool :=
  !s.crs w.port && (w.fn.val == 0 || s.cfgBit (w.idx / 9 * 9) 1)

/-- PCI_LINKW.D3 and PCI_LINKE.D3 show the physical function's state (R520). -/
def State.showD3 (s : State) (w : Win) : State :=
  if w.fn.val = 0 then s.fset R.PCI_LINK_D3 0 w.port.num (b2n (s.ports.d3.contains w.idx)) else s

/-- The function's configuration registers return to their reset values; AER status bits are sticky (R503, R505). -/
def State.resetCfg (s : State) (w : Win) : State :=
  let i := w.idx
  { s with ports := { s.ports with
      cfg := tkeep (fun k => k / 128 != i || (96 ≤ k % 128 && k % 128 < 115)) s.ports.cfg
      d3 := s.ports.d3.filter (· != i)
      pending := s.ports.pending.filter fun v => v / 8 != i } }.showD3 w

/-- The held vectors of a function that it may now send (R498, R510). -/
def State.sendPending (s : State) (win : Nat) : State :=
  (List.range 8).foldl (fun s v =>
    if s.ports.pending.contains (win * 8 + v) && !s.fnSilent win && s.msixOpen win v then
      ({ s with ports := { s.ports with pending := s.ports.pending.filter (· != win * 8 + v) } }).pushOut (.msix win v)
    else s) s

/-- Of a port's physical function, with its virtual functions, which share its power state (R510). -/
def State.sendPendings (s : State) (w : Win) : State :=
  if w.fn.val = 0 then (List.range 9).foldl (fun s n => s.sendPending (w.idx + n)) s else s.sendPending w.idx

/-! ## Function-level resets (R505 to R507) -/

/-- The effect of a reset on a virtual function: alone (R506), or with the whipping of its partition (R505, R509). -/
def State.resetVf (s : State) (w : Win) : State :=
  if s.flrRuns w then s
  else
    let s := ((s.setTdi w .unlocked).dropIde w).resetCfg w
    match s.partOfWin w with
    | none => s
    | some p =>
      let s := s.fsetBit (flrVf w.port) 0 0 (w.fn.val - 1) true
      if (s.part p).whip.isSome then s else (s.silence p w false 3).beginWhip p .flr

/-- VF_FLR. -/
def execVfFlr (w : Win) (s : State) : Res :=
  .next (if w.fn.val = 0 ∨ !s.cfgReach w then s else s.resetVf w)

/-- The virtual functions of a port. -/
def vfsOf (p : Port) : List Win := (List.range 8).map fun n => ⟨p, ⟨n % 8 + 1, by omega⟩⟩

/-- VF Enable is cleared: a function-level reset of every virtual function (R493). -/
def State.vfsOff (s : State) (p : Port) : State :=
  let pf : Win := ⟨p, 0⟩
  if s.cfgBit pf.idx 1 then (vfsOf p).foldl State.resetVf (s.setCfg pf.idx 1 false) else s

/-- VF_ENABLE_CLEAR. -/
def execVfEnableClear (port : Port) (s : State) : Res := .next (if s.cfgReach ⟨port, 0⟩ then s.vfsOff port else s)

/-- The path of a port's physical function (R562). -/
def portPath (p : Port) : Path := match p with | .w => .portW | .e => .portE

/-- SEIZE_LOST (R570): the Seizings of a path that can no longer give them back are freed. -/
def State.freeSeizes (s : State) (p : Path) : State :=
  (List.range 16).foldl (fun s n =>
    if s.seizer n = some p then
      ({ s with fid := { s.fid with seize := tset (fun _ => none) s.fid.seize n none } }).regEvent R.HUB_REGEVENT_SEIZE_LOST
        (Blk.kindCode .hub) 0 p.num
    else s) s

/-- The records of the control commands that run are discarded (R507). -/
def State.muteRuns (s : State) (w : Win) : State :=
  { s with cmds := { s.cmds with runs := s.cmds.runs.map fun (r : Run) => if !r.halyard && r.win == w then { r with mute := true } else r } }

/-- The effect of a reset on a physical function (R507, R570); one that runs already goes on alone (R509). -/
def State.resetPf (s : State) (p : Port) : State :=
  if s.fbit (flrPf p) 0 0 then s
  else
    let w : Win := ⟨p, 0⟩
    let s := (s.vfsOff p).resetCfg w
    let s := (s.fset (flrPf p) 0 0 1).freeSeizes (portPath p)
    let s := { s with ports := { s.ports with pfWait := addOnce p.num s.ports.pfWait } }
    let s := (List.range 4).foldl (fun s l => (s.flushLane w l false 3).flushEffect w l true) s
    let s := s.muteRuns w
    let s := { s with cmds := { s.cmds with slots := tkeep (fun k => k / 64 != p.num) s.cmds.slots } }
    ((List.range 4).foldl (fun s l => s.orderReset w l) s).pfDone p

/-- PF_FLR. -/
def execPfFlr (port : Port) (s : State) : Res := .next (if s.cfgReach ⟨port, 0⟩ then s.resetPf port else s)

/-! ## The port's link (R487, R488, R508, R513) -/

/-- The port's link is gone. -/
def State.linkGone (s : State) (p : Port) : State :=
  ([R.PCI_LINK_SPEED, R.PCI_LINK_WIDTH, R.PCI_LINK_FLIT, R.PCI_LINK_SLOW].foldl (fun s f => s.fset f 0 p.num 0) s).setCrs p true

def State.portUp (s : State) (p : Port) : Bool := s.fget R.PCI_LINK_SPEED 0 p.num != 0

/-- The port's own reset (R508). -/
def State.resetPort (s : State) (p : Port) : State :=
  let s := (s.fadd R.PCI_LINK_DOWNS 0 p.num 1).evPci (match p with | .w => R.PCI_EVENT_DOWN_W | .e => R.PCI_EVENT_DOWN_E)
  (s.resetPf p).linkGone p

/-- PORT_RESET: a hot reset and a link-down event need a link; while the port's half is in reset, PERST# alone is noted. -/
def execPortReset (port : Port) (kind : PortResetKind) (s : State) : Res :=
  let live := s.halfLive (s.portHalf port)
  .next (match kind with
  | .perst => let t := s.setPerst port true; if live && !s.perst port then t.resetPort port else t
  | .hot | .linkDown => if live && s.portUp port then s.resetPort port else s)

/-- PERST_DEASSERT. -/
def execPerstDeassert (port : Port) (s : State) : Res := .next (s.setPerst port false)

/-- Bring-up has stopped with a failing status (R527), the West half's own hold apart (R544). -/
def State.bootStopped (s : State) : Bool := s.fget R.MGT_BOOT_STAGE 0 0 == 6 && s.fget R.MGT_BOOT_STATUS 0 0 != 0x16

/-- The port's half lets its link train: from the clocks-and-fabric stage on, and where bring-up has stopped (R521, R527). -/
def State.portReady (s : State) (p : Port) : Bool :=
  let h := s.portHalf p
  s.bootStopped || ((s.half h).live && s.halfUp h)

/-- A speed and a width that the port can train (R487). -/
def State.portTrains (s : State) (speed width : Nat) : Bool :=
  (1 ≤ speed && speed ≤ 6) && (if s.fuse.small then [8, 4, 2, 1] else [16, 8, 4, 2, 1]).contains width

/-- HOST_LINK_TRAINED: 64 GT/s is in flit mode, and below 8.0 GT/s there is none (R487); SLOW below 8.0 GT/s (R488). -/
def State.hostTrained (s : State) (p : Port) (speed width : Nat) (flit : Bool) : State :=
  let n := p.num
  let s := (s.fset R.PCI_LINK_SPEED 0 n speed).fset R.PCI_LINK_WIDTH 0 n width
  let s := s.fset R.PCI_LINK_FLIT 0 n (b2n (speed == 6 || (flit && 3 ≤ speed)))
  (s.fset R.PCI_LINK_SLOW 0 n (b2n (decide (speed < 3)))).setCrs p false

def execHostLinkTrained (port : Port) (speed : BitVec 3) (width : BitVec 5) (flit : Bool) (s : State) : Res :=
  whenever s (s.portReady port && !s.perst port && s.portTrains speed.toNat width.toNat)
    (s.hostTrained port speed.toNat width.toNat flit)

/-! ## Errors (R499, R502) -/

/-- A read held behind a full lane. -/
def HeldAcc.reads (h : HeldAcc) : Option Nat := match h with | .aper w _ _ none _ _ => some w.idx | _ => none

/-- NP_TIMEOUT (R499): the oldest non-posted request of the port has been held NP_MS. -/
def State.npTimeout (s : State) (p : Port) : State :=
  let end_ (s : State) (win : Nat) : State := (s.evPci R.PCI_EVENT_NP_TMO).apRefuse win true
  match s.ports.reads.find? fun r => r.win / 9 == p.num with
  | some r => end_ (s.giveUpRead r.id) r.win
  | none =>
    match (s.heldAt p).find? fun h => h.reads.isSome with
    | none => s
    | some h => end_ (s.setHeldAt p ((s.heldAt p).erase h)) (h.reads.getD 0)

def execNpTimeout (port : Port) (s : State) : Res := .next (s.npTimeout port)

/-- UNEXPECTED_COMPLETION (R502): of Non-Fatal severity it is an Advisory Non-Fatal error. -/
def execUnexpectedCompletion (port : Port) (s : State) : Res :=
  let w : Win := ⟨port, 0⟩
  .next (if s.fnThere w.idx then s.aerErr w.idx aerUc true else s)

/-- UNSUPPORTED_REQUEST (R502): a non-posted one completes so. -/
def execUnsupportedRequest (win : Win) (posted : Bool) (s : State) : Res :=
  .next (if s.fnThere win.idx then s.barUr win.idx !posted else s)

/-! ## Power states and configuration writes (R493, R496, R498, R502, R510) -/

/-- PMCSR_WRITE. -/
def State.pmcsr (s : State) (w : Win) (d3 : Bool) : State :=
  if d3 then { s with ports := { s.ports with d3 := addOnce w.idx s.ports.d3 } }.showD3 w
  else ({ s with ports := { s.ports with d3 := s.ports.d3.filter (· != w.idx) } }.showD3 w).sendPendings w

def execPmcsrWrite (win : Win) (d3 : Bool) (s : State) : Res := .next (if s.cfgReach win then s.pmcsr win d3 else s)

/-- The errors of a virtual function's AER capability: those logged in the function addressed (R490, R502). -/
def vfErrors : List Nat := [6, 7, 11, 12, 13, 14]

/-- What a function presents as its identification (R489). -/
structure CfgIdent where
  vendor   : Nat
  device   : Nat
  vfDevice : Option Nat
  classC   : Nat
  revision : Nat
  subVend  : Nat
  subsys   : Nat
  serial   : Option Nat
  deriving DecidableEq, Repr

/-- The identification of a function (R489): the VF Device ID stands in a physical function's SR-IOV capability, and the serial number is
the first 8 bytes of the digest of the DIK's public key. The board record is read by the West management core's image. -/
def State.cfgIdent (s : State) (w : Win) : CfgIdent :=
  let pf := w.fn.val == 0
  let sub := if s.boot.sramW = 0 then none else s.boot.board
  { vendor := if pf then 0x1F7D else 0xFFFF, device := if !pf then 0xFFFF else if s.fuse.small then 0x1204 else 0x2408
    vfDevice := if pf then some (if s.fuse.small then 0x1205 else 0x2409) else none, classC := 0x120000
    revision := s.fuse.step.toNat, subVend := (sub.map fun x => x.1.toNat).getD 0x1F7D, subsys := (sub.map fun x => x.2.toNat).getD 0
    serial := if pf then some ((Config.digest 5).toNat % 2 ^ 64) else none }

/-- A read of a function's configuration header (R489): Vendor ID and Device ID, Revision ID and Class Code, and the subsystem IDs, at the
places of PCI Express 6.0 (log 38). -/
def State.cfgHead (s : State) (w : Win) (off : Nat) : Option W32 :=
  let i := s.cfgIdent w
  match off with
  | 0x00 => some (BitVec.ofNat 32 (i.vendor + 2 ^ 16 * i.device))
  | 0x08 => some (BitVec.ofNat 32 (i.revision + 2 ^ 8 * i.classC))
  | 0x2C => some (BitVec.ofNat 32 (i.subVend + 2 ^ 16 * i.subsys))
  | _ => none

/-- The function has the register (R490, R502). -/
def cfgHas (w : Win) (r : CfgReg) : Bool :=
  let err (i : Fin 19) : Bool := w.fn.val == 0 || vfErrors.contains i.val
  match r with
  | .vfEnable | .pmeEn => w.fn.val == 0
  | .aerMask i | .aerStatus i => err i
  | .aerSeverity i => err i && 8 ≤ i.val
  | .busMaster | .msixMask _ | .msixEnable => true

/-- A write of VF Enable (R493). -/
def State.writeVfEnable (s : State) (p : Port) (v : Bool) : State :=
  let pf : Win := ⟨p, 0⟩
  if !v then s.vfsOff p
  else if s.fget (flrVf p) 0 0 ≠ 0 then s.evPci R.PCI_EVENT_VFEN_REFUSED
  else s.setCfg pf.idx 1 true

/-- CONFIG_WRITE: an AER status bit is cleared by a 1; that of the first error gives way to the next header (R503). -/
def State.configWrite (s : State) (w : Win) (r : CfgReg) (v : Bool) : State :=
  match r with
  | .vfEnable => s.writeVfEnable w.port v
  | .aerStatus i =>
    if !v then s
    else
      let s := s.setCfg w.idx r.num false
      if s.firstError w.idx = some i.val then s.setAerLog w.idx (s.aerLog w.idx).tail else s
  | .aerSeverity i => s.setCfg w.idx r.num (v != aerFatal i.val)
  | .msixMask _ => (s.setCfg w.idx r.num !v).sendPending w.idx
  | .busMaster | .pmeEn | .aerMask _ | .msixEnable => (s.setCfg w.idx r.num v).sendPending w.idx

def execConfigWrite (win : Win) (r : CfgReg) (v : Bool) (s : State) : Res :=
  .next (if s.cfgReach win && cfgHas win r then s.configWrite win r v else s)

/-! ## Module sideband (R511, R512, R516 to R519) -/

/-- A press of the button wakes a device whose main rails are off (R512). -/
def State.wakeUp (s : State) : State :=
  if s.fbit R.PCI_MODULE_WAKE_EN 0 0 then { s with ports := { s.ports with wakeAt := some s.tally } } else s

/-- In D3hot it sends a PME message, where PME_En is set (R512). -/
def State.sendPme (s : State) (p : Port) : State :=
  let pf : Win := ⟨p, 0⟩
  if s.ports.d3.contains pf.idx && s.cfgBit pf.idx 2 && s.halfLive (s.portHalf p) then s.pushOut (.pme p.num) else s

/-- ATTENTION_BUTTON: pressed or released, debounced (R516, R517). -/
def State.button (s : State) (pressed : Bool) : State :=
  let press := pressed && !s.fbit R.PCI_MODULE_BUTTON 0 0
  let s := s.fset R.PCI_MODULE_BUTTON 0 0 (b2n pressed)
  if !press then s
  else if s.ports.railsOff then s.wakeUp
  else if !s.boot.run then s
  else ((s.evPci R.PCI_EVENT_BUTTON).sendPme .w).sendPme .e

def execAttentionButton (pressed : Bool) (s : State) : Res := .next (s.button pressed)

/-- A write of PCI_MODULE (R518, R520); what the carrier does about MOD_PWREN comes as RESET_ASSERT. -/
def State.writeModule (s : State) (v : Nat) : State :=
  let s := (s.fset R.PCI_MODULE_PWR_LED 0 0 (bitsOf v 1 0)).fset R.PCI_MODULE_ATTN_LED 0 0 (bitsOf v 3 2)
  let s := s.fset R.PCI_MODULE_WAKE_EN 0 0 (bitsOf v 6 6)
  if v.testBit 4 then s.fset R.PCI_MODULE_PWREN 0 0 1
  else if s.anyPart || s.fbit R.SEC_LC_BUSY 0 0 then s.evPci R.PCI_EVENT_PWREN_REFUSED
  else s.fset R.PCI_MODULE_PWREN 0 0 0

/-- PCI_MODULE_WRITE. -/
def execPciModuleWrite (path : Path) (w : W32) (s : State) : Res :=
  .next (s.regWrite path .pci 0 0x018 fun s => s.writeModule w.toNat)

end Sys2Proof.Machine
end

