-- ==== Sys2Proof/Machine/HalfReset.lean ====
section
/-! DEFINITION. What resets do: the state that a cold boot or a device reset finds (R451, R521, R550), the entry of one half into warm
reset (R544 to R546), a half held in reset (R523, R544), and the restart of a management core (R542, R543). -/

namespace Sys2Proof.Machine

/-! ## Registers of a half (R51, R554) -/

def rstState (h : Half) : Fld := match h with | .west => R.HUB_HALFRST_WSTATE | .east => R.HUB_HALFRST_ESTATE
def rstCause (h : Half) : Fld := match h with | .west => R.HUB_HALFRST_WCAUSE | .east => R.HUB_HALFRST_ECAUSE
def rstCount (h : Half) : Fld := match h with | .west => R.HUB_HALFRST_WCOUNT | .east => R.HUB_HALFRST_ECOUNT
def upBit (h : Half) : Fld := match h with | .west => R.HUB_ORG_WEST_UP | .east => R.HUB_ORG_EAST_UP
def rateOf (h : Half) : Fld := match h with | .west => R.HUB_RATE_WEST_RATE | .east => R.HUB_RATE_EAST_RATE

/-- The path of a half's management core (R562). -/
def corePath (h : Half) : Path := match h with | .west => .west | .east => .east

/-- The ports at a half (R28). -/
def State.halfPorts (s : State) (h : Half) : List Port := [Port.w, Port.e].filter fun p => s.portHalf p == h

/-- Every register of the fields in one instance returns to its reset value. -/
def State.fresetBlk (s : State) (inst : Nat) (fs : List Fld) : State :=
  fs.foldl (fun s f => (List.range f.count).foldl (fun s n => s.fset f inst n f.reset) s) s

/-- HUB_ORG.STACKS and GROUPS: the stacks of the halves past their memories stage, and the groups that are available (R51). -/
def State.showOrg (s : State) : State :=
  let n := b2n (s.memUp .west) + b2n (s.memUp .east)
  (s.fset R.HUB_ORG_STACKS 0 0 (4 * n)).fset R.HUB_ORG_GROUPS 0 0 ((s.boot.groups.filter fun g => !s.boot.gone.contains g).length)

/-! ## Reset of the device -/

/-- The fields of the module sideband, in the always-on domain (R511, R518, R583). -/
def moduleFields : List Fld :=
  [R.PCI_MODULE_PWR_LED, R.PCI_MODULE_ATTN_LED, R.PCI_MODULE_PWREN, R.PCI_MODULE_BUTTON, R.PCI_MODULE_WAKE_EN]

/-- Watts of the hub portion without its tiles (R434). -/
def State.fixedW (s : State) : Nat := if s.fuse.small then 360 else 670

/-- The registers that show fused values at reset, and those whose reset values follow from them (R51, R433, R469, R486). -/
def State.fusedRegs (s old : State) : State :=
  let s := s.fset R.HUB_ORG_PART 0 0 (if s.fuse.small then 2 else 1)
  let ch (i : Nat) : Nat := ((s.fuse.pop[i]?).getD 0x30).toNat
  let s := (s.fset R.HUB_POPCODE_CHAR0 0 0 (ch 0)).fset R.HUB_POPCODE_CHAR1 0 0 (ch 1)
  let s := (s.fset R.HUB_POPCODE_CHAR2 0 0 (ch 2)).fset R.HUB_POPCODE_CHAR3 0 0 (ch 3)
  let s := s.fset R.SEC_LC_STATE 0 0 (old.fget R.SEC_LC_STATE 0 0)
  let s := (List.range 8).foldl (fun s p => s.fset R.SEC_PART_GEN 0 p (old.fget R.SEC_PART_GEN 0 p)) s
  let s := s.fset R.PWR_LIMIT_FIXED_W 0 0 s.fixedW
  (s.fset R.PWR_LIMIT_PKG_W 0 0 (max 900 s.committed)).showRails

/-- The life-cycle word that a reset finds: a burn that it cuts can leave a word of no state (R483; log 6). -/
def State.tornNow (s : State) : Bool := s.sec.torn || (s.sec.burning.isSome && Config.keptOld s.freeCtr)

/-- The state that a cold boot or a device reset starts from (R451, R521, R550): reset, but for the fuses, the boot flash, the pins, the
fibres, what the always-on domain keeps (R511, R583), and the severings not yet followed by a link-up (R314). -/
def State.afresh (s : State) : State :=
  let z := State.reset
  let t : State := { z with
    pending := s.pending, out := s.out, fuse := s.fuse, tally := s.tally, freeCtr := s.freeCtr + 1, regs := []
    hank := { z.hank with nextKey := s.hank.nextKey }
    lan := { z.lan with fau := s.lan.fau }
    sites := s.sites.filterMap fun e => if e.2.severed then some (e.1, { severed := true }) else none
    ports := { z.ports with perstW := s.ports.perstW, perstE := s.ports.perstE, wakeAt := s.ports.wakeAt }
    boot := { z.boot with record := s.boot.record, board := s.boot.board, trip := s.boot.trip }
    sec := { z.sec with torn := s.tornNow, anchor := s.sec.anchor, fwPend := s.sec.fwPend, fwA := s.sec.fwA, fwB := s.sec.fwB,
                        raise := s.sec.raise } }
  moduleFields.foldl (fun t f => t.fset f 0 0 (s.fget f 0 0)) (t.fusedRegs s)

/-- Bring-up stops with a status (R519, R527). -/
def State.bootStop (s : State) (status : Nat) : State :=
  { (s.fset R.MGT_BOOT_STAGE 0 0 6).fset R.MGT_BOOT_STATUS 0 0 status with boot := { s.boot with attn := true } }

/-- The image that this boot is to find in slot A: a verified image has become it, and its predecessor is in slot B (R476, R479). -/
def State.activate (s : State) : State :=
  match s.sec.fwPend with
  | none => s
  | some (d, svn, raise) =>
    { s with sec := { s.sec with fwPend := none, fwA := some d, fwB := s.sec.fwA, raise := if raise then some svn else none } }

/-- Digest of the image in a slot. -/
def State.slotDigest (s : State) (slot : Nat) : BitVec 512 :=
  (if slot = 0 then s.sec.fwA else s.sec.fwB).getD (Config.digest (4 + 8 * slot))

/-- A byte of a core's boot ROM, and of its 2 MiB SRAM (R40): no command but a loading of its image changes the SRAM. -/
def coreRomByte (h : Half) (a : Nat) : BitVec 8 := Config.coreRom h.num a
def State.coreSramByte (s : State) (h : Half) (a : Nat) : BitVec 8 :=
  Config.coreSram (match h with | .west => s.boot.sramW | .east => s.boot.sramE) a

/-- The image of a core enters its SRAM (R522, R542). -/
def State.loadSram (s : State) (h : Half) : State :=
  let s := s.bump
  { s with boot := match h with | .west => { s.boot with sramW := s.freeCtr } | .east => { s.boot with sramE := s.freeCtr } }

/-- The West core runs the image of a slot (R522). -/
def State.runImage (s : State) (slot svn : Nat) : State :=
  let s := s.loadSram .west
  let s := { s with sec := { s.sec with fwRun := (s.slotDigest slot, svn) } }
  (s.fset R.MGT_BOOT_SLOT 0 0 slot).fset R.MGT_WARN_FW_FALLBACK 0 0 slot

/-- The firmware image is chosen (R522): none stops bring-up. -/
def State.loadFw (s : State) (e : BootEnv) : State :=
  let s := s.activate
  if e.aValid && s.fuse.svnMin ≤ e.aSvn then s.runImage 0 e.aSvn
  else if e.bValid && s.fuse.svnMin ≤ e.bSvn then s.runImage 1 e.bSvn
  else s.bootStop 0x12

/-- COOL_AIR_N is sensed (R604). -/
def State.senseCooling (s : State) (e : BootEnv) : State :=
  if e.coolAirN || s.bootStopped then s
  else if 900 < s.committed then s.bootStop 0x17
  else s.fset R.PWR_LIMIT_PKG_W 0 0 900

/-- What stage 0 holds; ANCHOR_CLR_N at its start erases the anchor (R478). -/
def State.bootBegun (t : State) (e : BootEnv) : State :=
  { t with
    boot := { t.boot with run := true, env := some e, west := { t.boot.west with live := true } }
    sec := { t.sec with anchor := if e.anchorClrN then t.sec.anchor else none } }

/-- Stage 0 of a cold boot begins (R483, R478, R521, R522, R604). -/
def State.startBoot (s : State) (e : BootEnv) : State :=
  let t := (s.afresh.bootBegun e).drawNonce
  if t.sec.torn then t.bootStop 0x10 else (t.loadFw e).senseCooling e

/-- DEVICE_RESET (R550): the cold boot again, the rails up. -/
def State.deviceReset (s : State) : State := match s.boot.env with | none => s | some e => s.startBoot e

/-! ## What a half loses (R545) -/

/-- The sector of a dirty line goes to its channel, or its granule is marked (R545, R548). -/
def State.saveSector (s : State) (planned : Bool) (h : Half) (sec : Nat) (d : BitVec 256) (mask : Nat) (poison : Bool) : State :=
  let g := sec / 0x800000
  if planned then (if s.granKey g = 0 then s else s.writeSec sec d mask poison)
  else
    match h with
    | .west => { s with hank := { s.hank with lostW := addOnce g s.hank.lostW } }
    | .east => { s with hank := { s.hank with lostE := addOnce g s.hank.lostE } }

/-- A write on its way to a channel of the half, or held there: a planned reset performs it as its controller would (R545). -/
def State.drainWrite (planned : Bool) (h : Half) (s : State) (p : Pkt) : State :=
  if (p.op == .mWb || p.op == .mPoison || p.op == .memWr) && p.dst.kind == .channel && s.agentHalf p.dst == h then
    let put (s : State) (i : Nat) : State :=
      if bit2 p.sect i then
        s.saveSector planned h (2 * p.line + i) (p.wrData i) fullMask (p.op == .mPoison || bit2 p.poison i)
      else s
    if planned && p.op != .mPoison then (if s.granKey (granOf p.addr.toNat) = 0 then s else (s.lineWrite p []).2) else put (put s 0) 1
  else s

/-- The dirty sectors of a home's line; one that a site holds is lost with its holder (R233, R313, R545). -/
def State.drainLine (planned : Bool) (h : Half) (s : State) (e : Nat × Line) : State :=
  if s.agentHalf (homeAgent (s.sliceOf e.1)) ≠ h then s
  else
    let l := if e.2.st = .h then e.2.poisoned else e.2
    let put (s : State) (i : Nat) : State :=
      if bit2 l.dirty i then s.saveSector planned h (2 * e.1 + i) (secOf l.data i) fullMask (bit2 l.poison i) else s
    put (put s 0) 1

/-- Step 4 of R545: the write queues and the dirty lines of the half. -/
def State.drainHalf (s : State) (h : Half) (planned : Bool) : State :=
  let s := (s.fab.net ++ s.hank.cold).foldl (State.drainWrite planned h) s
  s.fab.lines.foldl (State.drainLine planned h) s

/-- The fabric of the half is gone: its homes, proxies, packets, tags and regulators; and the copies of its lines elsewhere. -/
def State.dropFabric (s : State) (h : Half) : State :=
  let homed (n : Nat) : Bool := s.agentHalf (homeAgent (s.sliceOf n)) == h
  let at_ (a : Agent) : Bool := s.agentHalf a == h
  let gone := s.fab.txs.filter fun (t : Tx) => t.half == h
  let lost (id : Nat) : Bool := gone.any fun (t : Tx) => match t.purp with | .frag i => i == id | .getRd i _ => i == id | _ => false
  { s with
    fab := { s.fab with
      lines := tkeep (fun n => !homed n) s.fab.lines
      plines := s.fab.plines.filter fun e => !at_ (proxyOf s e.1)
      net := s.fab.net.filter fun p => !at_ p.src && !at_ p.dst
      txs := s.fab.txs.filter fun (t : Tx) => t.half != h
      regq := s.fab.regq.filter fun (x : HeldTx) => x.half != h }
    hank := { s.hank with cold := s.hank.cold.filter fun p => !at_ p.src && !at_ p.dst }
    sites := s.sites.map fun (e : Nat × Site) => (e.1, { e.2 with cache := tkeep (fun n => !homed n) e.2.cache })
    tiles := s.tiles.map fun (e : Nat × Tile) => (e.1, { e.2 with rcache := tkeep (fun n => !homed n) e.2.rcache })
    lan := { s.lan with frags := s.lan.frags.filter fun f => !lost f.id } }

/-- Steps 1 of R545 at the Cleat banks: the half's Cleats are zero, and whoever waits on them learns STATUS 3 (R37, R546). -/
def State.dropCleats (s : State) (h : Half) : State :=
  let mine (c : BitVec 16) : Bool := cleatHalf c == h
  let fly := s.cleats.flying.filter fun m => mine m.cleat
  let ws := s.cleats.watches.filter fun w => mine w.cleat
  let s := { s with cleats := { s.cleats with
    vals := tkeep (fun c => !mine (BitVec.ofNat 16 c)) s.cleats.vals
    flying := s.cleats.flying.filter fun m => !mine m.cleat && s.agentHalf m.agent != h
    watches := s.cleats.watches.filter fun w => !mine w.cleat } }
  let s := fly.foldl (fun s m => if s.agentHalf m.agent = h then s else s.incDone m 3) s
  let s := ws.foldl (fun s w => if stackHalf w.site = h then s else s.siteRsp w.site (bankOf w.cleat) (cleatTo w.slot w.tag w.cleat) 3 0 0 none) s
  let s := s.tiles.foldl (fun s e =>
    match e.2.waiting with
    | some w => if mine w.cleat && tileHalf e.1 != h then s.tileFault e.1 ofSpliceClosed w.idx 0 else s
    | none => s) s
  s.cmds.runs.foldl (fun s r =>
    if pktOpcode r.bytes = 0x83 ∧ r.body ∧ r.status = none ∧ mine (BitVec.ofNat 16 (pktField r.bytes 32 2)) then
      s.finish r.id stHalfDown h.num
    else s) s

/-- The registers of a link that the half's reset returns (R547, R560). -/
def linkRegs : List Fld :=
  [R.LNK_LSTAT_STATE, R.LNK_LSTAT_REASON, R.LNK_LSTAT_LANES, R.LNK_LSTAT_WIDTH, R.LNK_LSTAT_PEER, R.LNK_LSTAT_EPOCH,
   R.LNK_LERR_REPLAYS, R.LNK_LERR_UNCORR, R.LNK_LCONF_EXPECT]

/-- Step 2 of R545: HALF_DOWN on the links that are UP (R357); then the links of the half are at reset and dark. -/
def State.dropLinks (s : State) (h : Half) : State :=
  let ls := (List.range s.nLinks).filter fun l => linkHalf l == h
  let s := ls.foldl State.sendHalfDown s
  let s := ls.foldl (fun s l => (s.fresetAll 0 l linkRegs).setLink l {}) s
  let s := { s with lan := { s.lan with
    slots := s.lan.slots.filter fun c => s.agentHalf ⟨.lanyard, c.eng⟩ != h
    turn := [] } }
  s.routesGo

/-- The registers of a site that a reset of its half returns: all but REASON, which keeps LINK_LOST (R319). -/
def siteRegs : List Fld :=
  (siteFields0 ++ siteFields1 ++ siteFields2 ++ siteFields3).filter fun f => f != R.SITE_STAT_REASON

/-- The sites of the half return to link-up; a binding is dropped without scrub, as LINK_LOST (R315, R443). -/
def State.dropSite (s : State) (k : Nat) : State :=
  let st := s.siteState k
  let x := s.site k
  let bound := st = 4 ∨ st = 5
  let p := s.fget R.SITE_STAT_PART k 0
  let s := if bound ∧ ((s.part p).whip).isSome then s.setPart p { s.part p with sev := true } else s
  let s := ((s.failWorks k stSiteSevered rsLinkLost).dropSiteReqs k).dropSiteLeave k false
  let s := (s.setSiteState k 0).fresetBlk k siteRegs
  let s := if bound then (s.fset R.SITE_STAT_REASON k 0 rsLinkLost).disarm else s
  s.setSite k { severed := x.severed || decide bound, remd := x.remd }

/-- Step 3 of R545: commands with a tile group in the half (R396). -/
def State.haltGroups (s : State) (h : Half) : State :=
  s.cmds.runs.foldl (fun s r => if r.groups.any fun g => groupHalf g == h then s.haltRun r.id stHalfDown h.num else s) s

/-- The window's block registers return to reset; fault records stay with the requests that they hold. -/
def windowRegs : List Fld :=
  cmdWinFields0 ++ cmdWinFields1 ++ [R.XLT_FEVENT_NEW, R.XLT_FEVENT_FULL, R.XLT_FEVENT_APERTURE, R.XLT_AP_LO_EN, R.XLT_AP_LO_APBASE_LO,
    R.XLT_AP_HI_APBASE_HI, R.XLT_AP_HI_CTX]

/-- The runs, the lanes, the control slots and the waiting reads of a port's windows. -/
def State.forgetWindows (s : State) (p : Port) : State :=
  { s with
    cmds := { s.cmds with runs := s.cmds.runs.filter fun r => r.halyard || r.win.port != p
                          lanes := tkeep (fun i => i / 36 != p.num) s.cmds.lanes
                          slots := tkeep (fun k => k / 64 != p.num) s.cmds.slots }
    ports := { s.ports with reads := s.ports.reads.filter fun r => r.win / 9 != p.num
                            posted := s.ports.posted.filter fun r => r.win / 9 != p.num } }

/-- Every window of a port is lost (R396): its lanes, its commands with their leave, what the port holds, its control reply slots. -/
def State.dropWindows (s : State) (p : Port) : State :=
  let wins := (List.range 9).map fun n => winOf (p.num * 9 + n)
  let mine (r : Run) : Bool := !r.halyard && r.win.port == p
  let s := (s.cmds.runs.filter mine).foldl (fun s r => s.haltRun r.id stHalfDown (s.portHalf p).num) s
  let heads := (s.cmds.lanes.filter fun e => e.1 / 36 == p.num).flatMap fun e => e.2.heads
  let s := heads.foldl (fun s q => (s.unqueueLeave (.cmd q.order) false).returnLeave (.cmd q.order)) s
  let s := s.forgetWindows p
  wins.foldl (fun s w => s.fresetBlk w.idx windowRegs) (s.setHeldAt p [])

/-- Every configuration register of a function holds its reset value, the AER status bits included; its TDI is unlocked (R509). -/
def State.clearCfg (s : State) (w : Win) : State :=
  let s := ((s.setTdi w .unlocked).dropIde w).resetCfg w
  { s with ports := { s.ports with cfg := tkeep (fun k => k / 128 != w.idx) s.ports.cfg
                                   aerLog := tkeep (fun k => k != w.idx) s.ports.aerLog } }

/-- A port of the half (R396, R509, R570): its windows, its functions' configuration and IDE keys, its link. -/
def State.dropPort (s : State) (p : Port) : State :=
  let s := s.dropWindows p
  let s := (List.range 9).foldl (fun s n => s.clearCfg (winOf (p.num * 9 + n))) s
  let s := (s.linkGone p).fadd R.PCI_LINK_DOWNS 0 p.num 1
  let s := s.evPci (match p with | .w => R.PCI_EVENT_DOWN_W | .e => R.PCI_EVENT_DOWN_E)
  (s.freeSeizes (portPath p)).pfDone p

/-- The runs on the half's stacks stop (R191, R537). -/
def State.dropRuns (s : State) (h : Half) : State :=
  (((List.range s.nStacks).filter fun k => stackHalf k == h)).foldl (fun s k => (s.endMargin k).endMarch k 8) s

/-- The tiles of the half and their fault records (R485). -/
def State.dropTiles (s : State) (h : Half) : State :=
  ((List.range s.nTiles).filter fun t => tileHalf t == h).foldl State.wipeTile s

/-- Translation of the half: its caches and what it held (R415). -/
def State.dropXlt (s : State) (h : Half) : State :=
  let s := { s with xlt := { s.xlt with caches := s.xlt.caches.filter fun e => s.agentHalf e.owner != h } }
  s.dropHeld fun x => s.agentHalf x.agent == h

/-- The Fid of the half (R596): staged records are lost and counted, the counters zero. -/
def State.dropFid (s : State) (h : Half) : State :=
  let q := match h with | .west => s.fid.queueW | .east => s.fid.queueE
  let s := { s with fid := match h with | .west => { s.fid with queueW := [] } | .east => { s.fid with queueE := [] } }
  let s := q.foldl (fun s r => s.traceDrop r.part) s
  (List.range 64).foldl (fun s n => s.fresetAll h.num n [R.FID_VAL_LO, R.FID_VAL_HI, R.FID_VAL_WRAP]) s

/-- The throttles of the half (R445). -/
def State.dropThrottles (s : State) (h : Half) : State :=
  let p := s.pwr
  let keep (k : Nat) : Bool := stackHalf k != h
  let p := { p with stkGate := tkeep keep p.stkGate, stkWant := tkeep keep p.stkWant }
  match h with
  | .west => { s with pwr := { p with junW := 0, jgateW := 16, jOnW := false, jHotW := false } }
  | .east => { s with pwr := { p with junE := 0, jgateE := 16, jOnE := false, jHotE := false } }

/-! ## Management cores (R542, R543) -/

/-- The control commands that run complete with BUSY; an ATTEST that has not begun waits (R476, R542). The fills of a PART_GRANT go
on, no longer the command's. -/
def State.stopControl (s : State) : State :=
  s.cmds.runs.foldl (fun s r =>
    let op := pktOpcode r.bytes
    if isControl op && r.status.isNone && (op != 0xC7 || r.body) then
      let free (j : ZJob) : ZJob := if j.cmd = some r.id then { j with cmd := none, owner := 15 } else j
      let s := { s with hank := { s.hank with zfill := s.hank.zfill.map free } }
      s.setRun { r.finish stBusy 0 with left := if op = 0xC7 then r.left else 0 }
    else s) s

/-- The control commands that wait as heads of lanes complete with BUSY (R542). -/
def State.busyHeads (s : State) : State :=
  s.cmds.lanes.foldl (fun s e =>
    let w := winOf (e.1 / 4)
    match (s.lane e.1).heads.head? with
    | none => s
    | some p =>
      if isControl (pktOpcode p.bytes) && s.headNext w (e.1 % 4) p == .fail (stBusy, 0) then s.completeHead w (e.1 % 4) p stBusy 0
      else s) s

/-- What ends with a core: its Seizings (R570), and, for the West core, its commands and sessions (R473, R477, R542). -/
def State.coreGone (s : State) (h : Half) : State :=
  let s := s.freeSeizes (corePath h)
  match h with
  | .east => s
  | .west =>
    let s := s.stopControl.busyHeads.endSession
    { s with sec := { s.sec with regWait := none, spdm := [], keyEx := [] } }

/-! ## Warm reset of one half -/

/-- The half's own registers at the entry of a warm reset (R51, R449, R554, R560). -/
def State.markReset (s : State) (h : Half) (cause : Nat) : State :=
  let s := ((s.fset (rstState h) 0 0 1).fset (rstCause h) 0 0 cause).fadd (rstCount h) 0 0 1
  let s := (s.fset (upBit h) 0 0 0).fset (rateOf h) 0 0 0
  if h = .west then s.fset R.MGT_BOOT_STAGE 0 0 0 else s

/-- The tile groups of a half are no longer available. -/
def State.dropGroups (s : State) (h : Half) : State :=
  { s with boot := { s.boot with groups := s.boot.groups.filter fun g => groupHalf g != h } }

/-- What a half that runs loses when it goes into reset (R545): its steps 1 to 4, and its tile groups. -/
def State.takeDown (s : State) (h : Half) (planned : Bool) : State :=
  let s := ((s.closeSplice h).dropLinks h).dropCleats h
  let s := ((List.range s.nStacks).filter fun k => stackHalf k == h).foldl State.dropSite s
  let s := (s.haltGroups h).dropTiles h
  let s := (s.halfPorts h).foldl State.dropPort s
  let s := (s.coreGone h).dropRuns h
  let s := ((s.drainHalf h planned).dropFabric h).dropXlt h
  ((s.dropFid h).dropThrottles h).dropGroups h

/-- HALF_WARM_RESET (R545). -/
def State.enterWarm (s : State) (h : Half) (cause : Nat) (planned : Bool) : State :=
  let x := s.half h
  let s := (s.takeDown h planned).setHalf h { stage := 0, live := true, warm := some !planned, resets := x.resets }
  let s := ((s.markReset h cause).showOrg).showRails
  ((s.updGates).decideQueue 32).pump

/-- A half is held in reset until the next cold boot (R523, R544, R547). -/
def State.hold (s : State) (h : Half) (cause : Nat) : State :=
  let s := s.setHalf h { resets := (s.half h).resets }
  let s := ((s.fset (rstState h) 0 0 2).fset (upBit h) 0 0 0).fset (rateOf h) 0 0 0
  let s := (s.showOrg).showRails
  match h with
  | .west => s.bootStop 0x16
  | .east => (s.fset R.MGT_WARN_EAST_HELD 0 0 1).fset R.MGT_WARN_EAST_CAUSE 0 0 cause

/-- The 600 s of R544 and the 60 s of R543, in counts of the tally. -/
def resetSpan : Nat := 600000000000
def restartSpan : Nat := 60000000000

/-- The causes of kind planned (R544). -/
def isPlanned (cause : Nat) : Bool := cause == 1 || cause == 3

/-- A reset that a write asks for is refused or held (R550, R551, R554). -/
def State.resetRefused (s : State) : State := s.fset R.HUB_HALFRST_REFUSED 0 0 1

/-- A half enters warm reset for a cause (R544, R550, R551): the third within 600 s holds it. -/
def State.startWarm (s : State) (h : Half) (cause : Nat) : State :=
  if !s.halfLive h then s
  else if isPlanned cause && s.fbit R.SEC_LC_BUSY 0 0 then (if cause = 1 then s.resetRefused else s)
  else if s.fuse.small then s.deviceReset
  else if !s.halfLive h.other then
    if isPlanned cause then (if cause = 1 then s.resetRefused else s).setHalf h { s.half h with heldReq := some cause } else s.deviceReset
  else
    let l := s.window resetSpan (s.half h).resets ++ [s.tally]
    let s := s.enterWarm h cause (isPlanned cause)
    let s := s.setHalf h { s.half h with resets := l }
    if 3 ≤ l.length then s.hold h 6 else s

/-- The count of a core's restarts (R553). -/
def restartCount (h : Half) : Fld := match h with | .west => R.MGT_WDOG_WRESTARTS | .east => R.MGT_WDOG_ERESTARTS

/-- A management core restarts (R542); the third time within 60 s its half is reset (R543), unless that reset is refused (R551). -/
def State.restartCore (s : State) (h : Half) : State :=
  let x := s.half h
  if !s.halfLive h || x.core || s.sec.halted then s
  else
    let l := s.window restartSpan x.restarts ++ [s.tally]
    let s := (s.fadd (restartCount h) 0 0 1).setHalf h { x with restarts := l }
    if 3 ≤ l.length && !s.fbit R.SEC_LC_BUSY 0 0 then s.startWarm h 3
    else (s.setHalf h { s.half h with core := true }).coreGone h

end Sys2Proof.Machine
end

