-- ==== Sys2Proof/Machine/LinkAttest.lean ====
section
/-! DEFINITION. The end of a link's training, and the attestation report that each end then sends (R328, R334, R335). -/

namespace Sys2Proof.Machine

/-- Both ends of a link have its layer running: this end supplies a nonce, and owes its report over the peer's (R328). -/
def State.beginAttest (s : State) (l : Nat) (theirs : BitVec 256) : State :=
  let n : BitVec 256 := BitVec.ofNat 256 (sumNat ((List.range 8).map fun i => (Config.trng (8 * s.freeCtr + i)).toNat * 2 ^ (32 * i)))
  ((s.bump).modLink l fun x => { x with nonce := n, peerNonce := theirs, owes := true }).pushOut (.lnonce l n)

/-- The report that a link waits for goes out once reports are signed (R328, R476): no partition asks for it, so it is device-level, and
the certificate chain that its signatures need follows it. -/
def State.reportLink (s : State) (l : Nat) : State :=
  if (s.link l).owes && s.signs && s.lstate l == lsAttesting then
    let (v, n) := s.report 0xFF (s.link l).peerNonce.toNat true
    ((s.bump).modLink l fun x => { x with owes := false }).pushOut (.report l (docBytes v 0 n))
  else s

/-- Every link that waits for the West management core sends its report. -/
def State.reportLinks (s : State) : State := (List.range s.nLinks).foldl State.reportLink s

/-- LINK_TRAINED (R328, R334, R335): with the wavelengths that passed at both ends and, where the link layer runs, the nonce that the
other end supplied. -/
def State.linkTrained (s : State) (l lanes : Nat) (nonce : Option (BitVec 256)) : State :=
  if s.lstate l ≠ lsTraining then s
  else
    match nonce with
    | none => s.trainFailed l
    | some n =>
      let s := s.modLink l fun x => { x with fails := 0 }
      if ((List.range 4).filter fun w => lanes.testBit w).length < s.fget R.LNK_CONF_MINW 0 0 then s.retireLink l lrWidth
      else (((s.setLanes l lanes).setLState l lsAttesting 0).beginAttest l n).reportLink l

def execLinkTrained (l : Fin 24) (lanes : BitVec 4) (nonce : Option (BitVec 256)) (s : State) : Res :=
  atUnit (s.hasLink l.val) (s.linkTrained l.val lanes.toNat nonce)

end Sys2Proof.Machine
end

