-- ==== Sys2Proof/Machine/Bringup.lean ====
section
/-! DEFINITION. The rows of bring-up and of faults: the stages of a cold boot and of a warm reset (R521 to R532, R547, R548), marches (R533
to R537), the causes of resets (R542 to R551), rails and pins (R583, R608 to R611, R615). -/

namespace Sys2Proof.Machine

/-! ## The repair record (R528 to R532) -/

/-- The channels that the record names, in order (R178). -/
def recordChans (l : List Repair) : List Nat := l.filterMap fun r => match r with | .channel c => some c | _ => none
def recordGroups (l : List Repair) : List Nat := l.filterMap fun r => match r with | .group g => some g | _ => none
def recordSlices (l : List Repair) : List Nat := l.filterMap fun r => match r with | .slice n => some n | _ => none

/-- The record can be applied: it names units that the part has, and no retirement beyond the reserve (R530, R531). -/
def State.recordFits (s : State) (reserve : Nat) : Bool :=
  let l := s.boot.record
  (recordChans l).all (· < s.nChans) && (recordGroups l).all (· < s.nGroups)
    && (recordSlices l).all (· < (if s.fuse.small then 16 else 32)) && (recordChans l).length ≤ reserve

/-- The record is discarded, and a full march builds another (R531). -/
def State.rebuildRecord (s : State) : State :=
  { s.fset R.MGT_WARN_RECORD_REBUILT 0 0 1 with boot := { s.boot with record := [], full := true } }

/-- The spread table is rebuilt by replaying a list of retirements under a reserve (R175, R178). -/
def State.replayRetired (s : State) (reserve : Nat) (chans : List Nat) : State :=
  let s := s.hank.retired.foldl (fun s c => s.fset R.MEM_CHST_STATE (c / 128) (c % 128) 0) s
  let s := { s with hank := { s.hank with reserve, spread := [], retired := [] } }
  chans.foldl State.retireNow ((s.fset R.MEM_RETIRE_REMAIN 0 0 reserve).fset R.MEM_RETIRE_RETIRED 0 0 0)

/-- The reserve that absorbs n retirements: R, or R raised in steps of 8 until it covers them and 8 more; none above 64 (R182). -/
def raiseReserve (r n : Nat) : Option Nat :=
  if n ≤ r then some r else [8, 16, 24, 32, 40, 48, 56, 64].find? fun x => r ≤ x && n + 8 ≤ x

/-- The memories stage of a cold boot begins (R175, R178, R526, R530): R is taken, and the record is applied or rebuilt. -/
def State.startMemories (s : State) : State :=
  let r := s.fget R.MEM_CONF_RESERVE 0 0
  let s := if s.recordFits r then s else s.rebuildRecord
  let march := s.fget R.SEC_LC_STATE 0 0 == 1 || (match s.boot.env with | some e => e.fullMarch | none => false)
  let l := s.boot.record
  let s := { s with
    hank := { s.hank with memStage := true }
    boot := { s.boot with full := s.boot.full || march, gone := recordGroups l }
    fab := { s.fab with uncached := recordSlices l } }
  s.replayRetired r (recordChans l)

/-- Soft repairs made by a start-up test (R528). -/
def State.softRepairs (s : State) (n : Nat) : State :=
  if n = 0 then s
  else ((List.range n).foldl (fun s i => s.addRepair (.soft i)) s).fset R.MGT_WARN_SOFT_REPAIR 0 0 1

/-! ## Stages -/

/-- The Splice test, once both halves have passed their mesh tests (R38, R523): a crossing that fails keeps it closed. -/
def State.testSplice (s : State) (f : StageFacts) : State :=
  if s.halfUp .west && s.halfUp .east then
    let s := (s.fset R.HUB_SPLICE_ROWS_OK 0 0 f.rowsOk.toNat).fset R.HUB_SPLICE_PAIRS_OK 0 0 f.pairsOk.toNat
    if f.rowsOk.toNat = 0xFF ∧ f.pairsOk.toNat = 0xFFFF then s.fset R.HUB_SPLICE_OPEN 0 0 1
    else (s.takeDown .east false).hold .east 1
  else s

/-- The half works at its next stage; MGT_BOOT.STAGE follows the West half (R521, R553). -/
def State.toStage (s : State) (h : Half) (n : Nat) : State :=
  let s := s.setHalf h { s.half h with stage := n }
  if h = .west then s.fset R.MGT_BOOT_STAGE 0 0 n else s

/-- The end of stage 0 of a cold boot, in the West half (R460, R522, R523, R527, R531): the East core is released. -/
def State.stageCore (s : State) (f : StageFacts) : State :=
  let lc := s.fget R.SEC_LC_STATE 0 0
  if lc = 3 then s.bootStop 0x11
  else
    let s := { s with sec := { s.sec with idKeys := lc != 0 } }
    let s := if f.recordOk then s else s.rebuildRecord
    let s := if s.fuse.small then s
      else if f.eastImage then (s.loadSram .east).setHalf .east { stage := 1, live := true }
      else s.hold .east 2
    s.toStage .west 1

/-- The end of stage 1 of a cold boot (R51, R523, R527): the mesh test, and the Splice. -/
def State.stageFabric (s : State) (h : Half) (f : StageFacts) : State :=
  match h, f.ok with
  | .west, false => s.bootStop 0x14
  | .east, false => s.hold .east 3
  | .west, true => ((s.fset (upBit .west) 0 0 1).toStage .west 2).startMemories.testSplice f
  | .east, true => ((s.fset (upBit .east) 0 0 1).toStage .east 2).testSplice f

/-- Channels of a half that fail training or the test and are in service (R182, R529). -/
def State.newlyFailed (s : State) (h : Half) (l : List Nat) : List Nat :=
  (l.filter fun c => c < s.nChans && chanHalf c == h && !s.hank.retired.contains c).eraseDups

/-- The slices of a half that fail are uncached (R529, R539). -/
def State.uncacheAll (s : State) (h : Half) (l : List Nat) : State :=
  (l.filter fun n => n < 32 && (if n < 16 then Half.west else Half.east) == h).foldl State.uncache s

/-- MEM_CAP shows the visible memory (R175, R192). -/
def State.showCap (s : State) : State :=
  (s.fset R.MEM_CAP_GRANULES 0 0 s.visGranules).fset R.MEM_CAP_BLOCKS 0 0 s.visBlocks

/-- The West core applies the stored domain table at stage 3, and the links of a half begin to train (R524). -/
def State.startLinks (s : State) (h : Half) : State :=
  match h with
  | .west =>
    match s.boot.env.bind BootEnv.domain with
    | some t => s.applyTable t
    | none => s.fset R.MGT_WARN_NO_DOMAIN 0 0 1
  | .east => if s.lan.started then s.startDomain else s

/-- The end of stage 2 of a cold boot (R178, R182, R521, R526, R529). -/
def State.stageMemories (s : State) (h : Half) (f : StageFacts) : State :=
  let new := s.newlyFailed h f.failedCh
  let all := s.hank.retired ++ new
  match raiseReserve s.hank.reserve all.length with
  | none => s.bootStop 0x15
  | some r =>
    let s := new.foldl State.retireEvents ((new.foldl (fun s c => s.addRepair (.channel c)) s).replayRetired r all)
    let s := (s.uncacheAll h f.failedSl).softRepairs f.repairs
    let s := if h = .west then
        (((s.loadKey 30).loadKey 31).fset R.MGT_BOOT_FULL 0 0 (b2n s.boot.full))
      else s
    ((s.showCap.toStage h 3).showOrg).startLinks h

/-- A listed link of the half is not UP (R553). -/
def State.linksPartial (s : State) (h : Half) : Bool :=
  (List.range s.nLinks).any fun l => linkHalf l == h && s.fget R.LNK_LCONF_EXPECT 0 l != 31 && s.lstate l != lsUp

/-- The end of stage 3 of a cold boot. -/
def State.stageLinks (s : State) (h : Half) : State :=
  (if s.linksPartial h then s.fset R.MGT_WARN_LINKS_PARTIAL 0 0 1 else s).toStage h 4

/-- The groups of a half that pass their test are available; the others are withdrawn (R521, R529, R540). -/
def State.testGroups (s : State) (h : Half) (pass : BitVec 24) : State :=
  ((List.range s.nGroups).filter fun g => groupHalf g == h && !s.boot.gone.contains g).foldl (fun s g =>
    if pass.toNat.testBit g then { s with boot := { s.boot with groups := addOnce g s.boot.groups } } else s.withdraw g) s

/-- The West half is compute-ready (R521, R527); RAISE_SVN fuses SVN_MIN once the image of slot A has booted (R479). -/
def State.bootReady (s : State) : State :=
  let s := ((s.fset R.MGT_BOOT_STAGE 0 0 5).fset R.MGT_BOOT_STATUS 0 0 1).fset R.PCI_SENTINEL_READY 0 0 1
  match s.sec.raise with
  | some v =>
    if s.fget R.MGT_BOOT_SLOT 0 0 = 0 then
      { s with fuse := { s.fuse with svnMin := max s.fuse.svnMin v }, sec := { s.sec with raise := none } }
    else s
  | none => s

/-- The end of stage 4: of a cold boot, or of a warm reset, after which a held request for the other half acts (R547, R550). -/
def State.stageTiles (s : State) (h : Half) (f : StageFacts) : State :=
  let was := (s.half h).warm.isSome
  let s := s.testGroups h f.groups
  let s := (s.setHalf h { s.half h with stage := 5, warm := none }).showOrg
  let s := if h = .west then s.bootReady else s
  if !was then s
  else
    let s := (((s.fset (rstState h) 0 0 0).showRails).updGates).decideQueue 32
    match (s.half h.other).heldReq with
    | none => s
    | some c => (s.setHalf h.other { s.half h.other with heldReq := none }).startWarm h.other c

/-- The end of a stage of a cold boot (R521). -/
def State.coldStage (s : State) (h : Half) (f : StageFacts) : State :=
  let n := (s.half h).stage
  let s := if h = .west then s.fset R.MGT_STAGET_MS 0 n (min f.ms 65535) else s
  match n with
  | 0 => s.stageCore f
  | 1 => s.stageFabric h f
  | 2 => s.stageMemories h f
  | 3 => s.stageLinks h
  | _ => s.stageTiles h f

/-! ## Warm stages (R547, R548) -/

/-- Slots of a granule that lie on a half's channels (R162, R176). -/
def State.slotsIn (s : State) (g : Nat) (h : Half) : List Nat :=
  (List.range s.nChans).filter fun n => chanHalf (s.placeOf n (blockOf s.fuse.small g) / 384) == h

/-- Every sector of a granule on a half's channels is poisoned (R548). -/
def State.poisonGranule (s : State) (h : Half) (g : Nat) : State :=
  let sl := s.slotsIn g h
  let hit (k : Nat) : Bool := k / 0x800000 == g && sl.contains (s.slot (k * 32))
  let mark (e : Nat × Option Mark) : Nat × Option Mark := if hit e.1 then (e.1, e.2.map fun m => { m with poison := true }) else e
  { s with hank := { s.hank with
      pois := tset (fun _ => []) s.hank.pois g ((tget (fun _ => []) s.hank.pois g ++ sl).eraseDups)
      marks := s.hank.marks.map mark } }

/-- The granules marked at an unplanned reset: a free one, or one whose key is gone, is zero-filled; the others are poisoned (R548). -/
def State.settleMarked (s : State) (h : Half) : State :=
  let l := match h with | .west => s.hank.lostW | .east => s.hank.lostE
  let s := { s with hank := match h with | .west => { s.hank with lostW := [] } | .east => { s.hank with lostE := [] } }
  let free (g : Nat) : Bool := (s.own g).owner == 15 || s.granKey g == 0
  let bad := l.filter fun g => !free g
  let s := bad.foldl (fun s g => s.poisonGranule h g) (s.queueFill (l.filter free) 15 none)
  let s := s.fset R.HUB_HALFLOST_GRANULES 0 0 bad.length
  if bad.isEmpty then s else s.fset R.HUB_HALFRST_LOSTMARK 0 0 1

/-- The channel whose retirement the reset has interrupted fails: the chunks not yet switched are lost, and switch now (R181, R182). -/
def State.failMoving (s : State) (c : Nat) (rest : List Nat) : State :=
  (rest.foldl (fun s b => s.switchChunk c b) (s.scramble [c])).retireDone c

/-- A channel that fails the training of a warm reset is retired without a copy; its contents are lost (R182). With the reserve spent
it takes STATE 3 (R181): R, taken at the memories stage of a cold boot, is not raised under running partitions (DESIGN CHOICE;
log 39). -/
def State.failChannel (s : State) (c : Nat) : State :=
  if s.chState c = 2 then s
  else if s.hank.moving.any fun m => m.1 == c then s.failMoving c ((s.hank.moving.map (·.2)).getD [])
  else if s.fget R.MEM_RETIRE_REMAIN 0 0 = 0 then
    (s.fset R.MEM_CHST_STATE (c / 128) (c % 128) 3).ev R.MEM_EVENT_RESERVE_EMPTY 0
  else (((s.scramble [c]).addRepair (.channel c)).retireNow c).retireEvents c

/-- The West core rewrites EXPECT of the half's links from the applied table, and they train (R547). -/
def State.retrainHalf (s : State) (h : Half) : State :=
  match s.lan.table with
  | none => s
  | some t =>
    ((List.range s.nLinks).filter fun l => linkHalf l == h).foldl (fun s l =>
      (s.fset R.LNK_LCONF_EXPECT 0 l ((t.expect[l]?).getD 31).toNat).tryTrain l) s

/-- The end of stage 2 of a warm reset. -/
def State.warmMemories (s : State) (h : Half) (unplanned : Bool) (f : StageFacts) : State :=
  let s := if unplanned then s.settleMarked h else s
  let s := ((s.newlyFailed h f.failedCh).foldl State.failChannel s).softRepairs f.repairs
  (((s.toStage h 3).showOrg).nextRetire 32).retrainHalf h

/-- The end of a stage of a warm reset (R547). -/
def State.warmStage (s : State) (h : Half) (unplanned : Bool) (f : StageFacts) : State :=
  match (s.half h).stage with
  | 0 => (s.loadSram h).toStage h 1
  | 1 => if f.ok then ((s.fset (upBit h) 0 0 1).toStage h 2).testSplice f else s.hold h 3
  | 2 => s.warmMemories h unplanned f
  | 3 => s.toStage h 4
  | _ => s.stageTiles h f

/-- A half works at a stage: in a cold boot the East half's follows the West half's, and stage 0 of a warm reset waits for a restart
of the other core (R521, R552). -/
def State.working (s : State) (h : Half) : Bool :=
  let x := s.half h
  s.boot.run && !s.bootStopped && x.live && x.stage < 5
    && (match x.warm with
      | some _ => x.stage != 0 || !(s.half h.other).core
      | none => x.stage ≤ (s.half .west).stage)

/-- BOOT_STAGE_DONE. -/
def execBootStageDone (h : Half) (f : StageFacts) (s : State) : Res :=
  atUnit (s.hasHalf h)
    (if !s.working h then s
    else
      match (s.half h).warm with
      | none => s.coldStage h f
      | some u => s.warmStage h u f)

/-- COLD_BOOT (R521, R522, R604, R609): RESET_N is deasserted. -/
def execColdBoot (env : BootEnv) (s : State) : Res := .next (if s.boot.run then s else s.startBoot env)

/-- EAST_LATE_TIMEOUT (R523). -/
def execEastLateTimeout (s : State) : Res :=
  let e := s.half .east
  whenever s (s.boot.run && !s.bootStopped && e.live && e.warm.isNone && e.stage ≤ 1 && 2 ≤ (s.half .west).stage) (s.hold .east 4)

/-- CLOCK_LOCK_TIMEOUT (R527, R547): a half waits for its clocks at stage 1. -/
def execClockLockTimeout (h : Half) (s : State) : Res :=
  let x := s.half h
  atUnit (s.hasHalf h)
    (if s.boot.run && !s.bootStopped && x.live && x.stage == 1 then
      (if h = .west ∧ x.warm = none then s.bootStop 0x13 else s.hold h 5)
    else s)

/-! ## Marches (R533 to R537, R555) -/

/-- Why a start is refused, 0 for none (R536). -/
def State.marchRefusal (s : State) (k : Nat) (w : Nat) : Nat :=
  let share := bitsOf w 6 2
  if s.fget R.SEC_LC_STATE 0 0 = 3 then 1
  else if w.testBit 0 && (s.anyPart || (List.range 22).any fun n => (s.sset n).live) then 2
  else if (List.range 128).any fun c => s.chState (128 * k + c) == 1 then 3
  else if s.fbit R.MEM_MARGIN_STAT_BUSY k 0 || s.fbit R.MEM_MARCH_STAT_BUSY k 0 then 4
  else if !s.halfLive (stackHalf k) then 5
  else if share < 1 || 25 < share then 6
  else 0

/-- A march starts: a destructive one asks for 60 W of leave (R437, R536). -/
def State.startMarch (s : State) (k : Nat) (destructive : Bool) : State :=
  let s := ((s.fset R.MEM_MARCH_STAT_BUSY k 0 1).fset R.MEM_MARCH_STAT_REASON k 0 0).fset R.MEM_MARCH_STAT_PROGRESS k 0 0
  let s := s.fresetAll k 0 [R.MEM_MARCH_STAT_REFUSED, R.MEM_MARCH_RES_FAILROWS, R.MEM_MARCH_RES_SOFT, R.MEM_MARCH_RES_RETIRED]
  let s := s.setSrun k { s.srun k with marchWait := destructive, march := !destructive, destr := destructive }
  if destructive then s.askRun k 60 else s

/-- A write of MEM_MARCH_CTL. -/
def State.writeMarch (s : State) (k : Nat) (w : Nat) : State :=
  let s := (s.fset R.MEM_MARCH_CTL_MODE k 0 (bitsOf w 0 0)).fset R.MEM_MARCH_CTL_RETENTION k 0 (bitsOf w 1 1)
  let s := s.fset R.MEM_MARCH_CTL_SHARE k 0 (bitsOf w 6 2)
  if !w.testBit 31 then s
  else
    let r := s.marchRefusal k w
    if r = 0 then s.startMarch k (w.testBit 0)
    else (s.fset R.MEM_MARCH_STAT_REFUSED k 0 1).fset R.MEM_MARCH_STAT_REASON k 0 r

/-- MARCH_START. -/
def execMarchStart (k : Fin 8) (path : Path) (w : W32) (s : State) : Res :=
  .next (s.regWrite path .stack k.val 0x210 fun s => s.writeMarch k.val w.toNat)

/-- A row that fails a preserving run (R528, R535). -/
def State.rowFailed (s : State) (k ch : Nat) (spare : Bool) : State :=
  let c := 128 * k + ch
  let s := s.fadd R.MEM_MARCH_RES_FAILROWS k 0 1
  if spare then
    ((s.addRepair (.soft c)).fset R.MGT_WARN_SOFT_REPAIR 0 0 1).fadd R.MEM_MARCH_RES_SOFT k 0 1
  else
    let n := s.fget R.MEM_RETIRE_REMAIN 0 0
    let was := s.chState c
    let s := s.bucketAdd c 1024
    if was = 0 ∧ s.chState c = 1 ∧ s.fget R.MEM_RETIRE_REMAIN 0 0 < n then s.fadd R.MEM_MARCH_RES_RETIRED k 0 1 else s

/-- PRESERVE_ROW_TEST (R534): the row's contents are put back. -/
def execPreserveRowTest (k : Fin 8) (ch : Fin 128) (ok spareFree : Bool) (s : State) : Res :=
  let r := s.srun k.val
  atUnit (k.val < s.nStacks)
    (if r.march && !r.destr && !ok then s.rowFailed k.val ch.val spareFree else s)

/-- The channels that fail a destructive run are retired without a copy (R537). -/
def State.marchRetire (k : Nat) (s : State) (c : Nat) : State :=
  if s.chState c = 2 then s
  else if s.fget R.MEM_RETIRE_REMAIN 0 0 = 0 then
    (s.fset R.MEM_CHST_STATE k (c % 128) 3).ev R.MEM_EVENT_RESERVE_EMPTY 0
  else (((s.addRepair (.channel c)).retireNow c).retireEvents c).fadd R.MEM_MARCH_RES_RETIRED k 0 1

/-- After a destructive run every granule with sectors on the stack is zero-filled (R537). -/
def State.destructiveDone (s : State) (k failRows : Nat) (failed : List Nat) : State :=
  let s := s.fset R.MEM_MARCH_RES_FAILROWS k 0 failRows
  let s := (failed.map (128 * k + ·)).foldl (State.marchRetire k) s
  s.queueFill ((List.range s.visGranules).filter fun g => s.granOn g k) 15 none

/-- MARCH_DONE (R537). -/
def execMarchDone (k : Fin 8) (failRows : BitVec 16) (failedCh : List (Fin 128)) (s : State) : Res :=
  let r := s.srun k.val
  atUnit (k.val < s.nStacks)
    (if !r.march then s
    else
      let s := if r.destr then s.destructiveDone k.val failRows.toNat (failedCh.map Fin.val) else s
      (s.fset R.MEM_MARCH_STAT_PROGRESS k.val 0 100).endMarch k.val 0)

/-! ## Causes of resets and restarts (R542 to R544, R551) -/

/-- WATCHDOG_EXPIRE. -/
def execWatchdogExpire (h : Half) (s : State) : Res := atUnit (s.hasHalf h) (s.restartCore h)

/-- MGMT_SRAM_UECC. -/
def execMgmtSramUecc (h : Half) (s : State) : Res := atUnit (s.hasHalf h) (s.restartCore h)

/-- CORE_RESTART_DONE (R543): what the West core was to apply it now applies (R340). -/
def State.coreBack (s : State) (h : Half) : State :=
  let s := ((s.loadSram h).setHalf h { s.half h with core := false }).reportLinks
  match h, s.lan.pending with
  | .west, some t => if s.coreUp && s.linksOff && !s.lan.stopping then s.applyTable t else s
  | _, _ => s

def execCoreRestartDone (h : Half) (s : State) : Res :=
  atUnit (s.hasHalf h) (if (s.half h).core then s.coreBack h else s)

/-- A write of HUB_HALFRST (R544, R550, R554): REFUSED speaks of this write, and West comes first. -/
def State.writeHalfrst (s : State) (w : Nat) : State :=
  let s := if w.testBit 0 || (w.testBit 1 && !s.fuse.small) then s.fset R.HUB_HALFRST_REFUSED 0 0 0 else s
  let s := if w.testBit 0 then s.startWarm .west 1 else s
  if w.testBit 1 && !s.fuse.small then s.startWarm .east 1 else s

/-- HUB_HALFRST_WRITE. -/
def execHubHalfrstWrite (path : Path) (w : W32) (s : State) : Res :=
  .next (s.regWrite path .hub 0 0x020 fun s => s.writeHalfrst w.toNat)

/-- MEMCLK_LOSS (R544). -/
def execMemclkLoss (h : Half) (s : State) : Res := atUnit (s.hasHalf h) (s.startWarm h 2)

/-- HALF_UNRESPONSIVE (R544). -/
def execHalfUnresponsive (h : Half) (s : State) : Res := atUnit (s.hasHalf h) (s.startWarm h 4)

/-! ## Rails and pins -/

/-- THERMTRIP (R615). -/
def execThermtrip (dram : Bool) (temp : Nat) (s : State) : Res :=
  whenever s (decide ((if dram then 115 else 118) < temp)) { s with boot := { s.boot with trip := true } }

/-- The main rails are off, THERMTRIP_N released. -/
def State.railsDown (t : State) : State :=
  { t with ports := { t.ports with railsOff := true }, boot := { t.boot with trip := false } }

/-- RESET_ASSERT (R610, R615): the main rails follow. -/
def execResetAssert (s : State) : Res := .next s.afresh.railsDown

/-! ### What the always-on domain and the governor drive on the pins -/

/-- An indicator (R519). -/
inductive Lamp where
  | off
  | on
  | blink
  deriving DecidableEq, Repr

/-- An indicator follows its field of PCI_MODULE, and in automatic mode what stands beside it (R519, R520). -/
def lampOf (field : Nat) (auto : Lamp) : Lamp :=
  match field with
  | 0 => .off
  | 1 => .on
  | 2 => .blink
  | _ => auto

/-- MOD_PWR_LED (R516, R519). -/
def State.pwrLed (s : State) : Lamp :=
  lampOf (s.fget R.PCI_MODULE_PWR_LED 0 0)
    (if s.ports.railsOff then .off else if s.fbit R.PCI_SENTINEL_READY 0 0 then .on else .blink)

/-- MOD_ATTN_LED (R516, R519). -/
def State.attnLed (s : State) : Lamp := lampOf (s.fget R.PCI_MODULE_ATTN_LED 0 0) (if s.boot.attn then .on else .off)

/-- MOD_PWREN, high while the field is 1 (R516, R518). -/
def State.modPwren (s : State) : Bool := s.fbit R.PCI_MODULE_PWREN 0 0

/-- MOD_PRSNT_N is grounded inside the package (R516). -/
def modPrsntN : Bool := false

/-- Counts of the tally in 100 ms, at 1 GHz (R512, R612). -/
def wakeCounts : Nat := 100000000

/-- WAKEW_N and WAKEE_N: low for 100 ms from a press that wakes (R512). -/
def State.wakeN (s : State) : Bool :=
  match s.ports.wakeAt with
  | none => true
  | some t => wakeCounts ≤ tallyDiff s.tally t

/-- THERMTRIP_N: low from a trip until RESET_N is asserted (R615). -/
def State.thermtripN (s : State) : Bool := !s.boot.trip

/-- SITEk_EN: high while the face is powered, low for a Cover site (R606, R607). -/
def State.siteEn (s : State) (k : Nat) : Bool := (s.site k).powered && s.siteKind k != .cover

/-- The core rail that AVSBus commands, in mV: steps of 50 mV from 650 (R435, R603, R605). -/
def State.coreRail (s : State) (h : Half) : Nat := 650 + 50 * (if s.halfLive h then s.rail h else 2)

/-- The stack rail that AVSBus commands, in mV: nominal outside a margin run of kind 4 (R603, R605). -/
def State.hankRail (s : State) (k : Nat) : Int := 1100 + s.stackRail k

/-- What a rail outside its range does (R608): memory rails act through the sector errors that follow. -/
def State.railFault (s : State) (r : Rail) : State :=
  match r with
  | .hank _ | .vpp _ | .hphy _ => s
  | .ser h => (s.halfPorts h).foldl (fun s p => if s.portUp p then s.resetPort p else s) s
  | .opt h => ((List.range s.nLinks).filter fun l => linkHalf l == h && s.lstate l == lsUp).foldl State.recoverLink s
  | .site k => s.sever k.val rsLinkLost
  | .io => (s.restartCore .west).restartCore .east

/-- The part has what the rail feeds. -/
def State.hasRail (s : State) (r : Rail) : Bool :=
  match r with
  | .hank k | .site k => k.val < s.nStacks
  | .vpp h | .hphy h | .ser h | .opt h => s.hasHalf h
  | .io => true

/-- MAIN_RAIL_FAULT (R608, R611): while RESET_N is deasserted. -/
def execMainRailFault (r : Rail) (s : State) : Res := atUnit (s.hasRail r) (if s.boot.run then s.railFault r else s)

/-- ALWAYS_ON_RAIL_UP (R511, R583): the always-on domain starts anew. -/
def execAlwaysOnRailUp (s : State) : Res :=
  let t := { s with ports := { s.ports with wakeAt := none } }.afresh
  .next { t.fresetAll 0 0 moduleFields with tally := 0 }

end Sys2Proof.Machine
end

