-- ==== Sys2Proof/Machine/Idle.lean ====
section
/-! DEFINITION. What the device does on an empty queue: the tally counts (R581), and each half writes at most one staged
trace record (R593; log 13). -/

namespace Sys2Proof.Machine

/-- The 32 bytes of a trace record (R592). -/
def TraceRec.bytes (r : TraceRec) : BitVec 256 :=
  let wk := match r.waker with | none => 0 | some a => a.code + 256 * a.num
  let flags := b2n r.trig + 2 * b2n (r.dropped != 0)
  BitVec.ofNat 256 (r.tally.toNat + r.kind <<< 64 + r.agent.code <<< 72 + r.agent.num % 65536 <<< 80
    + r.cleat.toNat <<< 96 + r.value.toNat <<< 112 + r.arg.toNat <<< 160 + wk % 2 ^ 24 <<< 208
    + flags <<< 232 + r.dropped % 65536 <<< 240)

/-- A write of one sector by DVA in the service class 0, of the bypass class: a fault drops it, counts nothing and takes
no record; the answer tells whether it was sent (R590, R596). -/
def State.quietWrite (s : State) (h : Half) (ctx : BitVec 12) (dva : Nat) (d : BitVec 256) (purp : Purpose) : Bool × State :=
  let m : Agent := ⟨.pseq, h.num⟩
  match s.translate m ctx dva .write with
  | (.fault _ _, s) => (false, s)
  | (.dpa a, s) =>
    (true, s.sendAcc ⟨m, ctx, 0, BitVec.ofNat 52 dva, .memWr, BitVec.ofNat 32 fullMask, false, false, d, purp⟩ a)

/-- Base DVA of a trace buffer and of a sample buffer (R598). -/
def State.traceBase (s : State) (p : Nat) : Nat := s.fget R.FID_BUF_TBASE_LO 0 p + 2 ^ 32 * s.fget R.FID_BUF_TBASE_HI 0 p
def State.sampleBase (s : State) (p : Nat) : Nat := s.fget R.FID_BUF_SBASE_LO 0 p + 2 ^ 32 * s.fget R.FID_BUF_SBASE_HI 0 p

/-- The pointer moves past a record: a ring in mode 0; in mode 1 the end freezes the trace (R594). -/
def State.passTrace (s : State) (part next size : Nat) : State :=
  if next < size then s.fset R.FID_BUF_TPTR 0 part next
  else if s.fbit R.FID_TRCONF_MODE 0 0 then (s.fset R.FID_BUF_TPTR 0 part next).fset R.FID_TRSTAT_STATE 0 0 3
  else s.fset R.FID_BUF_TPTR 0 part 0

/-- Writes one record to its partition's trace buffer; a full buffer of mode 1 drops it (R594). -/
def State.writeTrace (s : State) (h : Half) (r : TraceRec) : State :=
  let size := s.fget R.FID_BUF_TSIZE 0 r.part * 0x10000
  if size = 0 ∨ 8 ≤ r.part then s.traceDrop r.part
  else
    let off := s.fget R.FID_BUF_TPTR 0 r.part
    if s.traceFull r.part then s.traceDrop r.part
    else
      let off := if size ≤ off then 0 else off
      let (ok, s) := s.quietWrite h (BitVec.ofNat 12 (s.fget R.FID_BUF_TCTX 0 r.part)) (s.traceBase r.part + off) r.bytes
        (.traceW r.part)
      if ok then s.passTrace r.part (off + 32) size else s.traceDrop r.part

def State.setTraceQ (s : State) (h : Half) (q : List TraceRec) : State :=
  match h with
  | .west => { s with fid := { s.fid with queueW := q } }
  | .east => { s with fid := { s.fid with queueE := q } }

/-- Writes the oldest staged record of a half (R593). -/
def State.drainTrace (s : State) (h : Half) : State :=
  match s.traceQ h with
  | [] => s
  | r :: q => (s.setTraceQ h q).writeTrace h r

/-- One count of the tally on an empty queue (R581, R593). -/
def State.idle (s : State) : State :=
  ({ s with tally := s.tally + 1 }.drainTrace .west).drainTrace .east

end Sys2Proof.Machine
end

