-- ==== Sys2Proof/Machine/Registers.lean ====
section
/-! DEFINITION. Reading and writing registers: the register space and its aliases (R556 to R561), reading with its effects (R562, R563,
R573, R586), and the writes of every writable register (R564 to R567). -/

namespace Sys2Proof.Machine

/-! ## The register space -/

/-- What an address names: a register of a block, a function's sentinel window, or a place in the reply slots of a port's control
window. -/
inductive RegAt where
  | reg (b : Blk) (inst off : Nat)
  | sentinel (win : Nat)
  | slots (port : Port) (off : Nat)
  deriving DecidableEq, Repr

/-- The block of a page of the register space (R556), and of the pages above 16 MiB where this model puts the windows of the functions
(log 21): function w of R364 in page 0x1000 + w (CMD), 0x1100 + w (XLT, virtual functions alone) and 0x1200 + w (sentinel),
and the reply slots of the two control windows in pages 0x1300 and 0x1301. -/
def blkOfPage (p : Nat) : Option (Blk × Nat) :=
  if p < 0xB then
    some (([.hub, .pwr, .sec, .mgt, .pci, .cmdDev, .xltDev, .coh, .mem, .lnk, .fid][p]?).getD .hub, 0)
  else if 0x10 ≤ p ∧ p < 0x18 then some (.stack, p - 0x10)
  else if 0x20 ≤ p ∧ p < 0x28 then some (.site, p - 0x20)
  else if 0x30 ≤ p ∧ p < 0x48 then some (.group, p - 0x30)
  else if 0x50 ≤ p ∧ p < 0x52 then some (.fidc, p - 0x50)
  else if 0x1000 ≤ p ∧ p < 0x1012 then some (.cmdWin, p - 0x1000)
  else if 0x1100 ≤ p ∧ p < 0x1112 ∧ (p - 0x1100) % 9 ≠ 0 then some (.xltWin, p - 0x1100)
  else none

/-- The number of the register of a field's array at an offset. -/
def Fld.index (f : Fld) (off : Nat) : Option Nat :=
  if off < f.off then none
  else if f.stride = 0 then (if off = f.off then some 0 else none)
  else if (off - f.off) % f.stride = 0 ∧ (off - f.off) / f.stride < f.count then some ((off - f.off) / f.stride)
  else none

/-- The fields of the register at an offset, each with its number in its array. -/
def Blk.at (b : Blk) (off : Nat) : List (Fld × Nat) := b.fields.filterMap fun f => (f.index off).map fun n => (f, n)

/-- The offset of BLOCKID in every block (R559). -/
def blockIdOff : Nat := 0x3FC

/-- The offset that an access decodes to: bits [9:2] alone (R558), a reserved offset at its alias's target (R559). -/
def Blk.target (b : Blk) (off : Nat) : Nat :=
  let o := off / 4 % 256 * 4
  if !(b.at o).isEmpty then o
  else if b == .group && o < 0x100 && 0x2C ≤ o % 0x40 then o / 0x40 * 0x40
  else if b == .xltWin && 0x010 ≤ o && o < 0x040 then 0
  else blockIdOff

/-- What an address names. -/
def regAt (addr : Nat) : Option RegAt :=
  let p := addr / 0x1000
  match blkOfPage p with
  | some (b, i) => some (.reg b i (b.target (addr % 0x1000)))
  | none =>
    if 0x1200 ≤ p ∧ p < 0x1212 then some (.sentinel (p - 0x1200))
    else if p = 0x1300 then some (.slots .w (addr % 0x1000))
    else if p = 0x1301 then some (.slots .e (addr % 0x1000))
    else none

/-- The word of BLOCKID (R559); a window block's instance is its function and port. -/
def blockIdWord (kind inst : Nat) : Nat := kind + inst * 0x100 + 0x01 * 0x10000 + 0x5A * 0x1000000

def Blk.idWord (b : Blk) (inst : Nat) : Nat :=
  match b with
  | .cmdWin | .xltWin => blockIdWord b.kindCode (inst % 9 + 0x80 * (inst / 9))
  | _ => blockIdWord b.kindCode inst

/-! ## What fields show -/

/-- The index of the oldest op of a tile that has not completed (R150): ops issued before a WAIT are older than it. -/
def Tile.oldest (x : Tile) : Nat :=
  match x.issued, x.waiting with
  | o :: _, _ => o.idx
  | [], some w => w.idx
  | [], none => x.idx

/-- HUB_TSTAT and HUB_TWAIT of a tile (R150). -/
def State.tileField (s : State) (t off lo : Nat) : Nat :=
  let x := s.tile t
  if off = 0 then
    (if lo = 0 then (if x.stopped then 3 else if x.waiting.isSome then 2 else b2n x.disp.isSome)
    else if lo = 2 then b2n (x.disp.isSome && x.seg.rep)
    else if lo = 4 then (if x.disp.isSome then x.oldest % 65536 else 0)
    else match x.disp with | some d => d.ctx.toNat / 512 | none => 0)
  else match x.waiting with | some w => w.cleat.toNat | none => 0

/-- A lane holds writes (R373). -/
def State.laneHolds (s : State) (w : Win) (lane : Nat) : Bool :=
  (s.heldAt w.port).any fun (h : HeldAcc) => match h with | .lane v l _ _ => v == w && l == lane | .aper _ _ _ _ _ _ => false

/-- CMD_ROOM and CMD_LANE of a lane (R397): a flush completes before the lane shows FAULTED (R396). -/
def State.laneField (s : State) (w : Win) (lane off lo : Nat) : Nat :=
  let l := s.lane (laneIdx w lane)
  if off = 0 then (if lo = 0 then l.free w else l.x.toNat)
  else if lo = 0 then (if l.flush.isSome || l.rst.isSome then 3 else if l.fault ≠ 0 then 2 else b2n (s.laneHolds w lane))
  else if lo = 2 then (if l.flush.isSome || l.rst.isSome then 0 else l.fault)
  else if lo = 4 then min 255 (s.laneRuns w lane)
  else l.h

/-- A field of a half that the block of its register shares with the other half (R560). -/
def fieldHalf (f : Fld) (n : Nat) : Option Half :=
  match f.blk with
  | .lnk => if 0x100 ≤ f.off then some (linkHalf n) else none
  | .hub => if f.off = 0x180 ∨ f.off = 0x184 ∨ f = R.HUB_RATE_WEST_RATE then some .west
      else if f.off = 0x1C0 ∨ f.off = 0x1C4 ∨ f = R.HUB_RATE_EAST_RATE then some .east else none
  | .pwr => if f = R.PWR_QUAD_GATE ∨ f = R.PWR_QUAD_CAUSE then some (stackHalf n)
      else if f = R.PWR_DRAW_VWEST then some .west else none
  | _ => none

/-- Fields that show what stands elsewhere in the state, for a path that reads them. -/
def State.shown (s : State) (p : Path) (f : Fld) (inst n : Nat) : Option Nat :=
  match f.blk with
  | .group => if f.off < 8 then some (s.tileField (4 * inst + n) f.off f.lo) else none
  | .cmdWin => if f.off < 0x20 then some (s.laneField (winOf inst) n f.off f.lo) else none
  | .xltWin => if f.off = 0 then some (bitsWhere 32 fun r => s.fbit R.XLT_FREC_VALID inst r) else none
  | .site =>
    if f = R.SITE_TERMS_LIMIT_W then some (s.siteLimit inst)
    else if f = R.SITE_TERMS_FACE then some (b2n (s.siteKind inst == .ap))
    else if f = R.SITE_APERR_RETRAINS then some (min 7 (s.window 0x40000000 (s.ap inst n).rts).length)
    else none
  | .lnk =>
    if f = R.LNK_LERR_RECOVERIES then some (min 15 (s.window lnkWindow (s.link n).recs).length)
    else if f = R.LNK_LERR_TAGFAIL then some (min 15 (s.window lnkWindow (s.link n).tags).length)
    else none
  | .pwr =>
    if f = R.PWR_POOL_FREE_W then some s.freeW
    else if f = R.PWR_POOL_GRANTED_W then some s.granted
    else if f = R.PWR_POOL_QUEUED then some s.pwr.queue.length
    else none
  | .mem =>
    if f = R.MEM_ZFILL_REMAIN then some (min 4095 s.hank.zfill.length)
    else if f = R.MEM_ZFILL_ACTIVE then some (b2n !s.hank.zfill.isEmpty)
    else none
  | .sec =>
    if f = R.SEC_PART_ZFILL then some (min 4095 (s.hank.zfill.filter fun (j : ZJob) => j.owner == n && j.cmd.isNone).length) else none
  | .coh => if f = R.COH_WAYMASK_MASK then some (s.maskNext n) else none
  | .pci =>
    if f = R.PCI_SENTINEL_PORT then some (b2n (p == .portE))
    else if f = R.PCI_SENTINEL_FLR then
      some (match p with | .portW => s.fget R.PCI_FLRSTAT_PFW 0 0 | .portE => s.fget R.PCI_FLRSTAT_PFE 0 0 | _ => 0)
    else none
  | .hub =>
    if f = R.HUB_STAGED_VTARGET then some (b2n s.pwr.vStaged.isSome)
    else if f = R.HUB_STAGED_WAYMASK then some (b2n !s.fab.wayStaged.isEmpty)
    else if f = R.HUB_STAGED_SITEBASE then some (bitsWhere 8 fun k => (s.site k).baseOld.isSome)
    else if f = R.HUB_TALLY_LO then some (s.tally.toNat % 2 ^ 32)
    else if f = R.HUB_TALLY_HI then some (s.tally.toNat / 2 ^ 32)
    else if f = R.HUB_SEIZE_HELD then some (b2n (s.seizer n).isSome)
    else if f = R.HUB_SEIZE_OWNER then some (match s.seizer n with | none => 0 | some o => o.num)
    else if f = R.HUB_SEIZE_MINE then some (b2n (s.seizer n == some p))
    else none
  | _ => none

/-- A field now: W1S and WO fields read zero (R564), a field of a half in reset its reset value (R560). -/
def State.fieldNow (s : State) (p : Path) (f : Fld) (inst n : Nat) : Nat :=
  if f.acc = .w1s ∨ f.acc = .wo then 0
  else if (match fieldHalf f n with | none => false | some h => s.hasHalf h && !s.halfLive h) then f.reset
  else (s.shown p f inst n).getD (s.fget f inst n)

/-! ## Counters and their holding copies (R572, R573) -/

/-- The fields that the snapshot copies (R572). -/
def counterFields : List Fld :=
  [R.FID_VAL_LO, R.FID_VAL_HI, R.FID_VAL_WRAP, R.HUB_SVCBW_W_LO, R.HUB_SVCBW_W_HI, R.HUB_SVCBW_E_LO, R.HUB_SVCBW_E_HI,
    R.HUB_TCONF_MAT, R.HUB_TCONF_VEC, R.HUB_TCONF_QNT, R.HUB_TCONF_LDR, R.HUB_TCONF_GTH, R.HUB_TCONF_GRP]
    ++ [R.MEM_CHST_BUCKET, R.MEM_CHST_RECOVERED, R.MEM_CHST_LOST, R.SITE_APERR_REPLAYS, R.SITE_APERR_RETRAINS,
    R.SITE_APERR_DOWN, R.LNK_LERR_REPLAYS, R.LNK_LERR_RECOVERIES, R.LNK_LERR_TAGFAIL, R.LNK_LERR_UNCORR, R.PCI_LINK_DOWNS]

def Fld.counter (f : Fld) : Bool := counterFields.contains f

/-- A path reads holding copies: its VIEW bit is 1 (R573, R597). -/
def viewFld (p : Path) : Fld :=
  match p with
  | .portW => R.HUB_SNAP_VIEW_W
  | .portE => R.HUB_SNAP_VIEW_E
  | .west | .east => R.HUB_SNAP_VIEW_M

def State.views (s : State) (p : Path) : Bool := s.fbit (viewFld p) 0 0

/-- What a path reads of a field. -/
def State.fieldFor (s : State) (p : Path) (f : Fld) (inst n : Nat) : Nat :=
  if f.counter && s.views p then tget (fun _ => 0) s.fid.snap (f.key inst n) else s.fieldNow p f inst n

/-! ## Who may read a Fid counter (R586) -/

/-- Authorised debug opens the Fid: DEBUG bit 1 (R482, R586). -/
def State.fidOpen (s : State) : Bool :=
  let lc := s.fget R.SEC_LC_STATE 0 0
  lc < 2 || (lc == 2 && (s.fget R.SEC_DBG_OPEN 0 0).testBit 1)

/-- A counter of the event of a class is hidden from every path. -/
def State.fidHidden (s : State) (unit ev : Nat) : Bool :=
  if s.fget R.SEC_LC_STATE 0 0 = 3 then true
  else if fidClassD unit ev then false
  else !s.fidOpen

/-- The read is of a counter that the path may not read. -/
def State.hides (s : State) (b : Blk) (inst off : Nat) : Bool :=
  b == .fidc && 0x100 ≤ off && off < 0x300
    && s.fidHidden (s.fget R.FID_SEL_UNIT inst ((off - 0x100) / 8)) (s.fget R.FID_SEL_EVENT inst ((off - 0x100) / 8))

/-! ## Reading -/

/-- The pairs read through their low word (R562): the fields of the low and of the high register. -/
def latchPairs : List (Fld × Nat) :=
  [(R.FID_VAL_LO, 4), (R.HUB_SVCBW_W_LO, 4), (R.HUB_SVCBW_E_LO, 4), (R.HUB_SNAPT_LO, 4), (R.HUB_TALLY_LO, 4), (R.FID_TRTIME_LO, 4),
    (R.LNK_DOM0_IDENT, 4)]

/-- The offset of the high word, for a low word of a pair. -/
def highOf (b : Blk) (off : Nat) : Option Nat :=
  (latchPairs.find? fun e => e.1.blk == b && (e.1.index off).isSome).map fun e => off + e.2

/-- The word of a register as a path reads it now, without any effect. -/
def State.regNow (s : State) (p : Path) (b : Blk) (inst off : Nat) : Nat :=
  if s.hides b inst off then 0
  else (b.at off).foldl (fun v e => v + s.fieldFor p e.1 inst e.2 % e.1.size * 2 ^ e.1.lo) 0

/-- The key of a high word's latch (R562). -/
def latchKey (p : Path) (b : Blk) (inst off : Nat) : Nat := p.num * 2 ^ 32 + b.base inst + off

def State.setLatch (s : State) (k : Nat) (v : Option Nat) : State :=
  { s with fid := { s.fid with latch := tset (fun _ => none) s.fid.latch k v } }

/-- Fields beside those of the register itself that a read returns to zero (R150, R193, R243, R424), and the location record it leaves
read. -/
def alsoCleared (b : Blk) (off : Nat) : List Fld × Option Nat :=
  match b with
  | .mem => if off = 0x010 then ([R.MEM_EVLOC1_SECTOR], some 0) else ([], none)
  | .coh => if off = 0x044 then ([R.COH_EVLOC1_ADDR_LO], some 1) else ([], none)
  | .xltDev => if off = 0x000 then ([R.XLT_DENY1_CTX], some 2) else ([], none)
  | .lnk => if off = 0x014 then ([], some 3) else ([], none)
  | .group => if off < 0x100 ∧ off % 0x40 = 8 then ([R.HUB_TFAULT1_ADDR_LO, R.HUB_TFAULT2_ADDR_HI], none) else ([], none)
  | _ => ([], none)

/-- A read clears its register's RC fields in one step (R563), but for a counter read from its holding copy (R573). -/
def State.clearRead (s : State) (p : Path) (b : Blk) (inst off : Nat) : State :=
  let fs := b.at off
  if s.views p && fs.any fun e => e.1.counter then s
  else
    let s := fs.foldl (fun s e => if e.1.acc = .rc then s.fset e.1 inst e.2 0 else s) s
    let (more, loc) := alsoCleared b off
    let n := match fs with | [] => 0 | e :: _ => e.2
    let s := more.foldl (fun s f => s.fset f inst n 0) s
    match loc with
    | none => s
    | some i => { s with unread := s.unread.filter (· != i) }

/-- A read of a register of a present block (R562, R563, R586): its word and what the read leaves. -/
def State.readHere (s : State) (p : Path) (b : Blk) (inst off : Nat) : Nat × State :=
  let s := if s.hides b inst off then s.regEvent R.HUB_REGEVENT_HIDDEN b.kindCode inst p.num else s
  let k := latchKey p b inst off
  let v := if s.hides b inst off then 0 else (tget (fun _ => none) s.fid.latch k).getD (s.regNow p b inst off)
  let s' := s.setLatch k none
  let s' := match highOf b off with
    | none => s'
    | some hi => s'.setLatch (latchKey p b inst hi) (some (s.regNow p b inst hi))
  (v, s'.clearRead p b inst off)

/-- A read of a register (R559, R560). -/
def State.readReg (s : State) (p : Path) (b : Blk) (inst off : Nat) : Nat × State :=
  if s.instDown b inst then
    (if off = blockIdOff then b.idWord inst else 0, s.regEvent R.HUB_REGEVENT_HALF_DOWN b.kindCode inst p.num)
  else if off = blockIdOff then (b.idWord inst, s)
  else if s.lacks b inst then (0, s)
  else s.readHere p b inst off

/-- The window's function may be reached by the path: its own port's (R397, R422). -/
def pathPort (p : Path) : Option Port :=
  match p with
  | .portW => some .w
  | .portE => some .e
  | .west | .east => none

/-- The word of PCI_SENTINEL in a function's BAR0 (R514, R520). -/
def State.sentinelWord (s : State) (w : Win) : Nat :=
  let flr := if w.fn.val = 0 then s.fbit (flrPf w.port) 0 0 else s.fvec (flrVf w.port) 0 0 (w.fn.val - 1)
  0xC3A5 + 2 ^ 16 * w.port.num + 2 ^ 17 * s.fget R.PCI_SENTINEL_READY 0 0 + 2 ^ 18 * b2n flr

/-- A read answered to its path. -/
def State.giveData (s : State) (p : Path) (v : Nat) : State := s.pushOut (.regData p (BitVec.ofNat 32 v))

/-- A read of a window block of a function: zero while the windows are shut (R466, R513). -/
def State.readWindow (s : State) (p : Path) (w : Win) (b : Blk) (off : Nat) : State :=
  if pathPort p ≠ some w.port then s
  else
    s.barAccess w true fun s =>
      if off = blockIdOff then s.giveData p (b.idWord w.idx)
      else if !s.winOpen w.idx then s.giveData p 0
      else
        let (v, s) := s.readHere p b w.idx off
        s.giveData p v

/-- A read in a control window's reply slots gives the record from that place on (R365, R391); lanes, like every place of a window without
a meaning, read zero. -/
def State.readSlot (s : State) (p : Path) (port : Port) (off : Nat) : State :=
  if pathPort p ≠ some port then s
  else
    s.barAccess ⟨port, 0⟩ true fun s =>
      let rec_ := tget (fun _ => 0#512) s.cmds.slots (port.num * 64 + off / 64)
      s.pushOut (.cplData (9 * port.num) ((recBytes rec_).drop (off % 64)) false)

/-- A read by a path of an address: what lies nowhere reads zero through a port (R494), and for a management core, whose own blocks the
manual does not describe, a free value (log 6). -/
def State.readAddr (s : State) (p : Path) (addr : Nat) : State :=
  match regAt addr with
  | some (.reg .cmdWin i off) => s.readWindow p (winOf i) .cmdWin off
  | some (.reg .xltWin i off) => s.readWindow p (winOf i) .xltWin off
  | some (.reg b i off) => s.byPath p true fun s =>
      let (v, s) := s.readReg p b i off
      s.giveData p v
  | some (.sentinel i) =>
    if pathPort p ≠ some (winOf i).port then s
    else
      s.barAccess (winOf i) true fun s =>
        s.giveData p (if addr / 4 % 256 * 4 = blockIdOff then blockIdWord 0x22 (i % 9 + 0x80 * (i / 9)) else s.sentinelWord (winOf i))
  | some (.slots port off) => s.readSlot p port off
  | none => s.byPath p true fun s =>
      if addr < 0x1000000 ∨ (pathPort p).isSome then s.giveData p 0 else s.bump.giveData p (Config.number s.freeCtr)

/-- REGISTER_READ_CLEAR (R563): an access of 4 bytes. A read of 8 aligned bytes is this row for the lower register and then for the
upper one (R561). -/
def execRegisterReadClear (path : Path) (addr : Nat) (s : State) : Res := .next (s.readAddr path addr)

/-- LOW_WORD_READ (R562). -/
def execLowWordRead (path : Path) (addr : Nat) (s : State) : Res := .next (s.readAddr path addr)

end Sys2Proof.Machine
end

