-- ==== Sys2Proof/Machine/Fid.lean ====
section
/-! DEFINITION. The Seizings (R568 to R571), the counter snapshot (R572 to R574), the configuration seal (R575 to R580), and the Fid:
counters (R584 to R586), sampling (R587 to R590) and the trigger of the trace (R595). -/

namespace Sys2Proof.Machine

/-! ## Seizings -/

def State.setSeizer (s : State) (n : Nat) (o : Option Path) : State :=
  { s with fid := { s.fid with seize := tset (fun _ => none) s.fid.seize n o } }

/-- A TAKE of a free Seizing (R568). -/
def State.takeSeize (s : State) (n : Nat) (p : Path) : State := if s.seizer n = none then s.setSeizer n (some p) else s

/-- A GIVE by the owner (R568). -/
def State.giveSeize (s : State) (n : Nat) (p : Path) : State := if s.seizer n = some p then s.setSeizer n none else s

/-- A BREAK by the West management core (R570). -/
def State.breakSeize (s : State) (n : Nat) (p : Path) : State :=
  if p = .west ∧ s.seizer n ≠ none then
    (s.setSeizer n none).regEvent R.HUB_REGEVENT_SEIZE_LOST (Blk.kindCode .hub) 0 p.num
  else s

/-- HUB_SEIZE_TAKE (R568). -/
def execHubSeizeTake (n : Fin 16) (path : Path) (s : State) : Res :=
  .next (s.regWrite path .hub 0 (0x080 + 4 * n.val) fun s => s.takeSeize n.val path)

/-- HUB_SEIZE_GIVE (R568). -/
def execHubSeizeGive (n : Fin 16) (path : Path) (s : State) : Res :=
  .next (s.regWrite path .hub 0 (0x080 + 4 * n.val) fun s => s.giveSeize n.val path)

/-- HUB_SEIZE_BREAK (R570). -/
def execHubSeizeBreak (n : Fin 16) (path : Path) (s : State) : Res :=
  .next (s.regWrite path .hub 0 (0x080 + 4 * n.val) fun s => s.breakSeize n.val path)

/-- A write of HUB_SEIZEn. -/
def State.writeSeize (s : State) (n : Nat) (p : Path) (v : Nat) : State :=
  let s := if v.testBit 0 then s.takeSeize n p else s
  let s := if v.testBit 1 then s.giveSeize n p else s
  if v.testBit 2 then s.breakSeize n p else s

/-- What has waited 10 ms for a Seizing completes with BUSY (R571): a command by its number, the Halyard message by 0. -/
def State.seizeTimeout (s : State) (id : Nat) : State :=
  if id = 0 then
    (match s.sec.regWait with
    | none => s
    | some _ => { s with sec := { s.sec with regWait := none } }.hAnswer 9 hBusy [])
  else if s.fid.waiting.contains id then (s.unwait id).finish id stBusy 0
  else s

/-- SEIZING_WAIT_TIMEOUT. -/
def execSeizingWaitTimeout (id : Nat) (s : State) : Res := .next (s.seizeTimeout id)

/-! ## The counter snapshot -/

/-- Number of instances of a block. -/
def Blk.insts (b : Blk) : Nat :=
  match b with
  | .fidc => 2
  | .group => 24
  | .stack | .site => 8
  | _ => 1

/-- The half of a counter. -/
def State.counterHalf (s : State) (f : Fld) (inst n : Nat) : Half :=
  if f.blk = .pci then s.portHalf (if n = 0 then .w else .e)
  else ((instHalf f.blk inst).orElse fun _ => fieldHalf f n).getD .west

/-- Every counter: its field, instance and number. -/
def counterPlaces : List (Fld × Nat × Nat) :=
  counterFields.flatMap fun f => (List.range f.blk.insts).flatMap fun i => (List.range f.count).map fun n => (f, i, n)

/-- HUB_SNAP.TAKE (R572): the counters of a running half copy; a half in reset does not answer (R574). -/
def State.snapTake (s : State) : State :=
  let copied := counterPlaces.foldl (fun m (e : Fld × Nat × Nat) =>
    if s.halfLive (s.counterHalf e.1 e.2.1 e.2.2) then
      tset (fun _ => 0) m (e.1.key e.2.1 e.2.2) (s.fieldNow .west e.1 e.2.1 e.2.2 % e.1.size)
    else m) s.fid.snap
  let out := [Half.west, Half.east].filter fun h => s.hasHalf h && !s.halfLive h
  let s := { s with fid := { s.fid with snap := copied, snapOut := out } }
  let s := (s.fset R.HUB_SNAPT_LO 0 0 s.tally.toNat).fset R.HUB_SNAPT_HI 0 0 (s.tally.toNat / 2 ^ 32)
  (s.fset R.HUB_SNAP_MISSING 0 0 0).fset R.HUB_SNAP_BUSY 0 0 (b2n !out.isEmpty)

/-- A TAKE by the owner of Seizing 12 (R569). -/
def State.takeSnap (s : State) (p : Path) : State :=
  if s.seizer 12 = some p then s.snapTake else s.regEvent R.HUB_REGEVENT_UNSEIZED (Blk.kindCode .hub) 0 p.num

/-- HUB_SNAP_TAKE. -/
def execHubSnapTake (path : Path) (s : State) : Res := .next (s.regWrite path .hub 0 0x040 fun s => s.takeSnap path)

/-- A write of HUB_SNAP: a path's own VIEW bit alone (R573), and TAKE. -/
def State.writeSnap (s : State) (p : Path) (v : Nat) : State :=
  let s := s.fset (viewFld p) 0 0 (b2n (v.testBit (viewFld p).lo))
  if v.testBit 0 then s.takeSnap p else s

/-- SNAP_REGION_TIMEOUT (R574): a half that has not answered is marked missing and keeps its previous copies. -/
def State.snapMissing (s : State) (h : Half) : State :=
  if s.fid.snapOut.contains h then
    let out := s.fid.snapOut.filter (· != h)
    let s := { s with fid := { s.fid with snapOut := out } }.fsetBit R.HUB_SNAP_MISSING 0 0 h.num true
    s.fset R.HUB_SNAP_BUSY 0 0 (b2n !out.isEmpty)
  else s

def execSnapRegionTimeout (h : Half) (s : State) : Res := atUnit (s.hasHalf h) (s.snapMissing h)

/-! ## The configuration seal -/

/-- One bit of the reflected CRC-32C (R576). -/
def crcBit (c : Nat) : Nat := if c % 2 = 1 then (c / 2) ^^^ 0x82F63B78 else c / 2

/-- One byte of the CRC. -/
def crcByte (c b : Nat) : Nat := crcBit (crcBit (crcBit (crcBit (crcBit (crcBit (crcBit (crcBit (c ^^^ (b % 256)))))))))

/-- The n bytes of an item, little-endian. -/
def crcItem (c v : Nat) : Nat → Nat
  | 0 => c
  | n + 1 => crcItem (crcByte c v) (v / 256) n

/-- The CRC of items, each a value and its length in bytes (R576). -/
def crc32c (items : List (Nat × Nat)) : Nat := (items.foldl (fun c (e : Nat × Nat) => crcItem c e.1 e.2) 0xFFFFFFFF) ^^^ 0xFFFFFFFF

/-- The 8 bytes of an ownership record (R416). -/
def OwnRec.word (r : OwnRec) : Nat :=
  r.owner.toNat + b2n r.ro * 2 ^ 4 + r.writer.toNat * 2 ^ 5 + r.share.toNat * 2 ^ 8 + r.slot.toNat * 2 ^ 16 + b2n r.mirror * 2 ^ 21
    + r.mirrorG.toNat * 2 ^ 22

/-- A register word in which only the named fields count (R575). -/
def State.sealWord (s : State) (inst n : Nat) (fs : List Fld) : Nat × Nat :=
  (fs.foldl (fun v f => v + (s.shown .west f inst n).getD (s.fget f inst n) % f.size * 2 ^ f.lo) 0, 4)

/-- The sealed items in scan order (R575). -/
def State.sealItems (s : State) : List (Nat × Nat) :=
  let w (count inst : Nat) (fs : List Fld) : List (Nat × Nat) := (List.range count).map fun n => s.sealWord inst n fs
  (List.range s.allGranules).map (fun g => ((s.own g).word, 8))
    ++ w 1 0 [R.SEC_KEYSLOT_LOADED] ++ w 9 0 [R.COH_WAYMASK_MASK]
    ++ w 8 0 [R.HUB_SVCPART_ALLOWED, R.HUB_SVCPART_DEFAULT, R.HUB_SVCPART_APERTURE]
    ++ w 1 0 [R.HUB_TAGMIN0_TILE, R.HUB_TAGMIN0_SITE] ++ w 1 0 [R.HUB_TAGMIN1_HOST, R.HUB_TAGMIN1_PSEQ]
    ++ w 1 0 [R.HUB_TAGMIN2_LANYARD, R.HUB_TAGMIN2_MGMT] ++ w 8 0 [R.PWR_PBASE_BASE_W, R.PWR_PBASE_LEAVE_MAX]
    ++ ((List.range 8).flatMap fun k =>
      w 8 k [R.SITE_CTXMAP_CTX_A, R.SITE_CTXMAP_VALID_A, R.SITE_CTXMAP_CTX_B, R.SITE_CTXMAP_VALID_B]
        ++ w 1 k [R.SITE_SVC_ALLOWED, R.SITE_SVC_DEFAULT])
    ++ w 24 0 ((Blk.fields .mem).filter fun f => f.off == 0x040) ++ w 1 0 [R.MEM_CONF_RESERVE]
    ++ w 1 0 [R.LNK_DOM0_IDENT] ++ w 1 0 [R.LNK_DOM1_IDENT] ++ w 1 0 [R.LNK_DOM2_SELF, R.LNK_DOM2_SIZE]
    ++ w 24 0 [R.LNK_LCONF_EXPECT] ++ w 1 0 [R.SEC_ALARMCFG_TAMPER0, R.SEC_ALARMCFG_TAMPER1]

/-- The seal CRC of the configuration (R576). -/
def State.sealCrc (s : State) : Nat := crc32c s.sealItems

/-- A COMMIT (R579): armed, and a new pass starts. -/
def State.sealCommit (s : State) : State :=
  let s := (s.fset R.HUB_SEALCTL_ARMED 0 0 1).fset R.HUB_SEALCTL_PASSES 0 0 0
  { s with fid := { s.fid with passOk := true } }

/-- HUB_SEALCTL_COMMIT. -/
def execHubSealctlCommit (path : Path) (s : State) : Res := .next (s.regWrite path .hub 0 0x050 State.sealCommit)

/-- A write of HUB_SEALREF, which disarms (R597). -/
def State.writeSealref (s : State) (v : Nat) : State :=
  ((s.fset R.HUB_SEALREF_REF 0 0 v).fset R.HUB_SEALCTL_ARMED 0 0 0).fset R.HUB_SEALCTL_DISARMED 0 0 1

/-- HUB_SEALREF_WRITE. -/
def execHubSealrefWrite (path : Path) (w : W32) (s : State) : Res :=
  .next (s.regWrite path .hub 0 0x054 fun s => s.writeSealref w.toNat)

/-- SEAL_PASS_DONE (R577, R578, R580): the copies of an item at its checking points are one in this model, so that a pass reads the same
at any of them; a pass that a change has discarded gives no result, and the next one begins. -/
def State.sealPass (s : State) : State :=
  if !s.fid.passOk then { s with fid := { s.fid with passOk := true } }
  else
    let crc := s.sealCrc
    let s := (s.fset R.HUB_SEALCRC_CRC 0 0 crc).fadd R.HUB_SEALCTL_PASSES 0 0 1
    if s.fbit R.HUB_SEALCTL_ARMED 0 0 && crc != s.fget R.HUB_SEALREF_REF 0 0 then
      (s.fset R.HUB_SEALCTL_MISMATCH 0 0 1).alarm alSeal 2
    else s

def execSealPassDone (s : State) : Res := whenever s (s.halfLive .west) s.sealPass

/-! ## Fid counters -/

/-- Units, with the numbers of their events and their instances in each half (R584). A regulator, the governor and a sequencer have
the number of their half (log 21). -/
def fidUnit (unit : Nat) : Nat × (Nat → Option Half) :=
  let by_ (n : Nat) (i : Nat) : Option Half := if i < n then some .west else if i < 2 * n then some .east else none
  match unit with
  | 0 => (7, by_ 12) | 1 => (5, by_ 16) | 2 => (5, by_ 4) | 3 => (4, by_ 6) | 4 => (3, by_ 4) | 5 => (1, by_ 1)
  | 6 => (2, by_ 1) | _ => (2, by_ 1)

/-- The fields of FID_SELn. -/
def selFields : List Fld :=
  [R.FID_SEL_EVENT, R.FID_SEL_INST, R.FID_SEL_UNIT, R.FID_SEL_EN, R.FID_SEL_PART, R.FID_SEL_PFILT, R.FID_SEL_BUF, R.FID_SEL_SAMPLE]

/-- A write of FID_SELn (R584, R586, R587). -/
def State.writeSel (s : State) (h : Half) (n : Nat) (p : Path) (v : Nat) : State :=
  let get (f : Fld) : Nat := bitsOf v f.hi f.lo
  let unit := get R.FID_SEL_UNIT
  let ev := get R.FID_SEL_EVENT
  let classP := !fidClassD unit ev
  let filt := get R.FID_SEL_PFILT == 1
  let u := fidUnit unit
  if u.1 ≤ ev || u.2 (get R.FID_SEL_INST) != some h || (classP && !filt && s.fidHidden unit ev) then s.regRefused p .fidc h.num
  else if get R.FID_SEL_SAMPLE == 1 && classP && !(filt && get R.FID_SEL_PART == get R.FID_SEL_BUF) then s
  else
    let s := selFields.foldl (fun s f => s.fset f h.num n (get f)) s
    s.fresetAll h.num n [R.FID_VAL_LO, R.FID_VAL_HI, R.FID_VAL_WRAP]

/-- FID_SEL_WRITE (R584). -/
def execFidSelWrite (h : Half) (n : Fin 64) (path : Path) (w : W32) (s : State) : Res :=
  .next (s.regWrite path .fidc h.num (4 * n.val) fun s => s.writeSel h n.val path w.toNat)

/-! ## Buffers and sampling -/

/-- The fields of a word of FID_BUF, and the pointer that its write returns to zero (R598). -/
def bufWord (word : Nat) : List Fld × Option Fld :=
  match word with
  | 0 => ([R.FID_BUF_SBASE_LO], none)
  | 1 => ([R.FID_BUF_SBASE_HI, R.FID_BUF_SCTX], none)
  | 2 => ([R.FID_BUF_SSIZE], some R.FID_BUF_SPTR)
  | 4 => ([R.FID_BUF_TBASE_LO], none)
  | 5 => ([R.FID_BUF_TBASE_HI, R.FID_BUF_TCTX], none)
  | 6 => ([R.FID_BUF_TSIZE], some R.FID_BUF_TPTR)
  | _ => ([], none)

/-- The virtual function of a partition is CONFIG_LOCKED or RUN (R475). -/
def State.tdiFixed (s : State) (p : Nat) : Bool :=
  match (s.part p).win with
  | none => false
  | some w => s.tdi w == .locked || s.tdi w == .run

/-- A write of word `word` of FID_BUFp (R588, R598): bits [5:0] of a base are zero. -/
def State.writeBuf (s : State) (p word : Nat) (path : Path) (v : Nat) : State :=
  let foreign := (word == 1 || word == 5) && bitsOf v 31 20 / 512 != p
  if word = 3 ∨ word = 7 then s
  else if foreign || s.tdiFixed p then s.regRefused path .fid 0
  else
    let v := if word = 0 ∨ word = 4 then v / 64 * 64 else v
    let (fs, ptr) := bufWord word
    let s := fs.foldl (fun s f => s.fset f 0 p (bitsOf v f.hi f.lo)) s
    let s := match ptr with | none => s | some f => s.fset f 0 p 0
    { s with fid := { s.fid with seqs := tset (fun _ => 0) s.fid.seqs p 0 } }

/-- FID_BUF_WRITE (R588). -/
def execFidBufWrite (p word : Fin 8) (path : Path) (w : W32) (s : State) : Res :=
  .next (s.regWrite path .fid 0 (0x040 + 0x20 * p.val + 4 * word.val) fun s => s.writeBuf p.val word.val path w.toNat)

/-- A half's counters are missing from samples: it has not completed stage 4 (R574, R596). -/
def State.fidMissing (s : State) (h : Half) : Bool := s.hasHalf h && !(s.halfLive h && 5 ≤ (s.half h).stage)

/-- The counters of a half that are sampled into a buffer (R587). -/
def State.sampled (s : State) (h : Half) (p : Nat) : List Nat :=
  if !s.hasHalf h || s.fidMissing h then []
  else (List.range 64).filter fun n => s.fbit R.FID_SEL_SAMPLE h.num n && s.fget R.FID_SEL_BUF h.num n == p

/-- An entry of a sample record (R586, R589): a counter that no one may read gives zero. -/
def State.sampleEntry (s : State) (h : Half) (n : Nat) : Nat :=
  if s.fget R.SEC_LC_STATE 0 0 = 3 then (n + 64 * h.num) * 2 ^ 48
  else
    s.fget R.FID_VAL_LO h.num n + s.fget R.FID_VAL_HI h.num n * 2 ^ 32 + (n + 64 * h.num) * 2 ^ 48
      + s.fget R.FID_VAL_WRAP h.num n * 2 ^ 55

/-- A sample record of a buffer, as one number, and its length in sectors (R589). -/
def State.sampleRecord (s : State) (p : Nat) : Nat × Nat :=
  let es := (s.sampled .west p).map (s.sampleEntry .west) ++ (s.sampled .east p).map (s.sampleEntry .east)
  let flags := b2n (s.fidMissing .west) + 2 * b2n (s.fidMissing .east) + 4 * b2n (s.fid.late.contains p)
  let head := s.tally.toNat + (tget (fun _ => 0) s.fid.seqs p % 2 ^ 32) * 2 ^ 64 + es.length * 2 ^ 96 + flags * 2 ^ 104
  (es.foldr (fun e v => e + 2 ^ 64 * v) 0 * 2 ^ 256 + head, 1 + (es.length + 3) / 4)

/-- The previous record's writes of a buffer have not all completed (R590). -/
def State.sampleBusy (s : State) (p : Nat) : Bool :=
  (s.fab.txs.any fun t => t.purp == .sample p) || (s.fab.regq.any fun t => t.purp == .sample p)

/-- Writes sectors of a record at the write pointer; at the buffer's end it goes on at offset 0; a fault drops the rest (R590). -/
def State.sampleSectors (s : State) (p v : Nat) : Nat → State
  | 0 => s
  | n + 1 =>
    let size := s.fget R.FID_BUF_SSIZE 0 p * 0x10000
    let off := s.fget R.FID_BUF_SPTR 0 p
    let (ok, s) := s.quietWrite .west (BitVec.ofNat 12 (s.fget R.FID_BUF_SCTX 0 p)) (s.sampleBase p + off) (BitVec.ofNat 256 v) (.sample p)
    if !ok then s.sampleDrop p
    else if off + 32 < size then (s.fset R.FID_BUF_SPTR 0 p (off + 32)).sampleSectors p (v / 2 ^ 256) n
    else
      (((s.fset R.FID_BUF_SPTR 0 p 0).fset R.FID_EVENT_SBUF_FULL 0 0 1).fset R.FID_EVENT_PART 0 0 p).sampleSectors p (v / 2 ^ 256) n

/-- One period of one buffer (R587, R590): a sample that is skipped counts, and shows in the next record. -/
def State.samplePart (s : State) (p : Nat) : State :=
  if !s.fvec R.FID_CONF_SAMPLE_EN 0 0 p || s.fget R.FID_BUF_SSIZE 0 p == 0 then s
  else
    let (v, n) := s.sampleRecord p
    let seqs := tset (fun _ => 0) s.fid.seqs p (tget (fun _ => 0) s.fid.seqs p + 1)
    if s.sampleBusy p then
      let s := { s with fid := { s.fid with seqs, late := addOnce p s.fid.late } }
      (s.fset R.FID_EVENT_SAMPLE_LATE 0 0 1).fset R.FID_EVENT_PART 0 0 p
    else
      let s := { s with fid := { s.fid with seqs, late := s.fid.late.filter (· != p) } }
      s.sampleSectors p v n

/-- FID_SAMPLE_PERIOD (R590): the sampler lies in the West half. -/
def execFidSamplePeriod (s : State) : Res := whenever s (s.halfLive .west) ((List.range 8).foldl State.samplePart s)

/-! ## The trigger -/

/-- A write of ARM (R595). -/
def State.armTrigger (s : State) : State :=
  let s := (s.fset R.FID_TRSTAT_STATE 0 0 1).fset R.FID_TRSTAT_POSTLEFT 0 0 0
  { s with fid := { s.fid with armed := true } }

/-- A write of FIRE (R595). -/
def State.fireWritten (s : State) : State := s.trigger .west 7 (s.fget R.FID_TRIG_PART 0 0) true

/-- FID_TRIG_ARM. -/
def execFidTrigArm (path : Path) (s : State) : Res := .next (s.regWrite path .fid 0 0x014 State.armTrigger)

/-- FID_TRIG_FIRE. -/
def execFidTrigFire (path : Path) (s : State) : Res := .next (s.regWrite path .fid 0 0x014 State.fireWritten)

/-- The Cleats on which a WAIT, CleatWatch or CLEAT_WAIT of the partition waits (R595). -/
def State.waitsOf (s : State) (p : Nat) : List (BitVec 16) :=
  (s.tiles.filterMap fun e => match e.2.waiting with
    | some w => if s.groupOwner (e.1 / 4) = some p then some w.cleat else none
    | none => none)
  ++ (s.cleats.watches.filterMap fun w => if s.sitePart w.site = some p then some w.cleat else none)
  ++ (s.cmds.runs.filterMap fun (r : Run) =>
    if pktOpcode r.bytes = 0x83 ∧ r.body ∧ r.status = none ∧ s.partOfWin r.win = some p then
      some (BitVec.ofNat 16 (pktField r.bytes 32 2)) else none)

/-- TRACE_WAIT_THRESHOLD (R595): one of the partition's waits has lasted THRESH µs. -/
def State.waitThreshold (s : State) : State :=
  let p := s.fget R.FID_TRIG_PART 0 0
  match s.waitsOf p with
  | [] => s
  | c :: _ => s.trigger (cleatHalf c) 1 p true (some c)

def execTraceWaitThreshold (s : State) : Res := .next s.waitThreshold

end Sys2Proof.Machine
end

