-- ==== Sys2Proof/Machine/RegWrite.lean ====
section
/-! DEFINITION. The write of every register (R557 to R567), the REGISTER_WRITE row, and the Halyard REG message (R479, R571). -/

namespace Sys2Proof.Machine

/-- The bits of a field in a written word. -/
def Fld.of (f : Fld) (v : Nat) : Nat := bitsOf v f.hi f.lo

/-- A field of array register n takes its bits of the word where they are allowed, and is else unchanged. -/
def State.putIf (s : State) (f : Fld) (inst n v : Nat) (ok : Nat → Bool) : State :=
  if ok (f.of v) then s.fset f inst n (f.of v) else s

/-- A sealed item changes with its field (R578). -/
def State.putSealed (s : State) (f : Fld) (inst n v : Nat) (ok : Nat → Bool) : State :=
  if ok (f.of v) && f.of v != s.fget f inst n then (s.fset f inst n (f.of v)).disarm else s

/-! ## HUB -/

/-- A write of HUB_SVCc (R429, R448); requests that it lets go on are admitted. -/
def State.writeSvc (s : State) (c v : Nat) : State :=
  ((s.putIf (floorFld c) 0 0 v fun x => x ≤ 128).putIf R.HUB_SVC_CAP 0 c v fun x => x ≤ 128).pump

/-- A write of HUB_SVCPARTp (R448, R475, R575). -/
def State.writeSvcpart (s : State) (p v : Nat) : State :=
  let s := (s.tdiError p).putSealed R.HUB_SVCPART_ALLOWED 0 p v fun _ => true
  let allowed := s.fget R.HUB_SVCPART_ALLOWED 0 p
  (s.putSealed R.HUB_SVCPART_DEFAULT 0 p v allowed.testBit).putSealed R.HUB_SVCPART_APERTURE 0 p v allowed.testBit

def State.writeHub (s : State) (p : Path) (off v : Nat) : State :=
  if off = 0x020 then s.writeHalfrst v
  else if off = 0x040 then s.writeSnap p v
  else if off = 0x050 then (if v.testBit 1 then s.sealCommit else s)
  else if off = 0x054 then s.writeSealref v
  else if 0x080 ≤ off ∧ off < 0x0C0 then s.writeSeize ((off - 0x080) / 4) p v
  else if 0x100 ≤ off ∧ off < 0x120 then s.writeSvc ((off - 0x100) / 4) v
  else if 0x120 ≤ off ∧ off < 0x12C then s.writeTagmin p ((off - 0x120) / 4) v
  else if 0x140 ≤ off ∧ off < 0x160 then s.writeSvcpart ((off - 0x140) / 4) v
  else s

/-! ## PWR, SEC, MGT, PCI, CMD -/

/-- A write of PWR_QUADq (R446, R449); one that lowers LIMIT_W may leave the load above it (R447). -/
def State.writeQuad (s : State) (q v : Nat) : State :=
  let t := s.putIf R.PWR_QUAD_LIMIT_W 0 q v fun x => 100 ≤ x && x ≤ 400
  if t.fget R.PWR_QUAD_LIMIT_W 0 q < s.fget R.PWR_QUAD_LIMIT_W 0 q then t.quadChange [q] else t.updGates

def State.writePwr (s : State) (off v : Nat) : State :=
  if off = 0x000 then s.writeLimit (R.PWR_LIMIT_PKG_W.of v)
  else if off = 0x004 then s.writePwrConf v
  else if 0x010 ≤ off ∧ off < 0x030 then s.writePbase ((off - 0x010) / 4) v
  else if 0x040 ≤ off ∧ off < 0x060 then s.writeQuad ((off - 0x040) / 4) v
  else s

/-- A write of SEC_ALARMCFG (R486, R567, R575): refused once stage 0 has completed. -/
def State.writeAlarmcfg (s : State) (p : Path) (v : Nat) : State :=
  let ok (x : Nat) : Bool := 2 ≤ x && x ≤ 4
  if 1 ≤ (s.half .west).stage then s.regRefused p .sec 0
  else (s.putSealed R.SEC_ALARMCFG_TAMPER0 0 0 v ok).putSealed R.SEC_ALARMCFG_TAMPER1 0 0 v ok

def State.writeSecReg (s : State) (p : Path) (off v : Nat) : State :=
  if off = 0x004 then s.writeLctrans v
  else if off = 0x00C then s.writeAlarmcfg p v
  else s

/-- A write of MGT_WDOG (R542, R553). -/
def State.writeMgt (s : State) (off v : Nat) : State :=
  if off = 0x024 then s.putIf R.MGT_WDOG_PERIOD_MS 0 0 v fun x => 10 ≤ x && x ≤ 255 else s

/-- A write of PCI_CONF (R499, R520) or PCI_MODULE. -/
def State.writePci (s : State) (off v : Nat) : State :=
  if off = 0x004 then s.putIf R.PCI_CONF_NP_MS 0 0 v fun x => 1 ≤ x && x ≤ 50
  else if off = 0x018 then s.writeModule v
  else s

/-- A write of CMD_CONF (R398) or CMD_XFLUSH. -/
def State.writeCmdDev (s : State) (p : Path) (off v : Nat) : State :=
  if off = 0x000 then s.putIf R.CMD_CONF_OVF_US 0 0 v fun x => x != 0
  else if off = 0x008 then s.writeXflush p (BitVec.ofNat 32 v)
  else s

/-! ## COH, MEM -/

def State.writeCoh (s : State) (p : Path) (off v : Nat) : State :=
  if off = 0x000 then s.writeCohConf p (BitVec.ofNat 32 v)
  else if off = 0x004 then (s.putIf R.COH_TMO_SNOOP 0 0 v fun x => x != 0).putIf R.COH_TMO_MEM 0 0 v fun x => x != 0
  else if 0x010 ≤ off ∧ off < 0x034 then s.writeMask ((off - 0x010) / 4) p (v % 65536)
  else if off = 0x050 then s.writeFlush p (BitVec.ofNat 32 v)
  else s

/-- RESERVE of a write of MEM_CONF (R175, R556, R557, R567, R575): the West management core's field, refused once the memories stage has
begun; a word that gives it no new value leaves it (log 21). -/
def State.writeReserve (s : State) (p : Path) (v : Nat) : State :=
  let r := R.MEM_CONF_RESERVE.of v
  if r = s.fget R.MEM_CONF_RESERVE 0 0 then s
  else if p ≠ .west then s.regEvent R.HUB_REGEVENT_RESERVED_W (Blk.kindCode .mem) 0 p.num
  else if s.hank.memStage then s.regRefused p .mem 0
  else s.putSealed R.MEM_CONF_RESERVE 0 0 v fun x => x % 8 == 0 && x ≤ 64

/-- A write of MEM_CONF (R169, R192). -/
def State.writeMemConf (s : State) (p : Path) (v : Nat) : State :=
  let share := R.MEM_CONF_ZFILL_SHARE.of v
  let s := s.putIf R.MEM_CONF_PATROL_H 0 0 v fun x => x != 0
  (s.fset R.MEM_CONF_ZFILL_SHARE 0 0 (max 1 (min 60 share))).writeReserve p v

def State.writeMem (s : State) (p : Path) (off v : Nat) : State :=
  if off = 0x000 then s.writeMemConf p v
  else if off = 0x004 then s.putIf R.MEM_RETIRE_THRESH 0 0 v fun x => 1024 ≤ x
  else if 0x040 ≤ off ∧ off < 0x0A0 then s.writeScope ((off - 0x040) / 4) p (BitVec.ofNat 32 v)
  else s

/-- A write of MEM_MARGIN_CTL or MEM_MARCH_CTL of a stack. -/
def State.writeStack (s : State) (k off v : Nat) : State :=
  if off = 0x204 then s.writeMargin k (BitVec.ofNat 32 v)
  else if off = 0x210 then s.writeMarch k v
  else s

/-! ## LNK, SITE -/

/-- A write of LNK_CONF (R362). -/
def State.writeLnkConf (s : State) (v : Nat) : State :=
  let s := s.putIf R.LNK_CONF_MINW 0 0 v fun x => 1 ≤ x && x ≤ 4
  let s := (s.putIf R.LNK_CONF_AUTO 0 0 v fun _ => true).putIf R.LNK_CONF_RELAY 0 0 v fun _ => true
  (s.putIf R.LNK_CONF_PUT_TMO 0 0 v fun x => x != 0).putIf R.LNK_CONF_COLL_IDLE 0 0 v fun x => x != 0

/-- Fields of the domain registers, refused while a link is not OFF (R339, R567, R575). -/
def State.writeDom (s : State) (p : Path) (v : Nat) (fs : List (Fld × (Nat → Bool))) : State :=
  if fs.all fun e => e.1.of v == s.fget e.1 0 0 then s
  else if !s.linksOff then s.regRefused p .lnk 0
  else fs.foldl (fun s e => s.putSealed e.1 0 0 v e.2) s

/-- A write of LNK_DOM2: its fields, then START and STOP (R339, R340). -/
def State.writeDom2 (s : State) (p : Path) (v : Nat) : State :=
  let s := s.writeDom p v [(R.LNK_DOM2_SELF, fun _ => true), (R.LNK_DOM2_SIZE, fun x => 1 ≤ x && x ≤ 25)]
  if s.lan.stopping then s
  else
    let s := if v.testBit 11 then s.startDomain else s
    if v.testBit 12 then s.stopDomain else s

/-- A write of LNK_LCONF of a link, refused while the link is not OFF (R339, R567, R575). -/
def State.writeLconf (s : State) (p : Path) (l v : Nat) : State :=
  if R.LNK_LCONF_EXPECT.of v = s.fget R.LNK_LCONF_EXPECT 0 l then s
  else if s.lstate l ≠ lsOff then s.regRefused p .lnk 0
  else s.putSealed R.LNK_LCONF_EXPECT 0 l v fun _ => true

/-- A write of LNK_LCTL of a link (R336, R362). -/
def State.writeLctl (s : State) (l v : Nat) : State :=
  let s := if v.testBit 0 then s.retrain l else s
  if v.testBit 1 then s.retireOp l else s

def State.writeLnk (s : State) (p : Path) (off v : Nat) : State :=
  if off = 0x000 then s.writeLnkConf v
  else if off = 0x004 then s.writeDom p v [(R.LNK_DOM0_IDENT, fun _ => true)]
  else if off = 0x008 then s.writeDom p v [(R.LNK_DOM1_IDENT, fun _ => true)]
  else if off = 0x00C then s.writeDom2 p v
  else if 0x100 ≤ off ∧ off < 0x280 then
    (let l := (off - 0x100) / 16
    if s.nLinks ≤ l then s
    else if off % 16 = 8 then s.writeLconf p l v
    else if off % 16 = 12 then s.writeLctl l v
    else s)
  else s

/-- A write of SITE_CTL or SITE_PWR of a site (R315, R319). -/
def State.writeSite (s : State) (k off v : Nat) : State :=
  if off = 0x010 then
    (let s := if v.testBit 0 then s.ctlReset k else s
    if v.testBit 1 then s.ctlRemeasure k else s)
  else if off = 0x044 then s.writeSitePwr k (R.SITE_PWR_BASE_W.of v)
  else s

/-! ## FID -/

/-- A write of FID_TRCONF (R567, R595, R598): fields other than EN are refused while any EN bit is 1; with no EN bit the trace is off. -/
def State.writeTrconf (s : State) (p : Path) (v : Nat) : State :=
  let fs := [R.FID_TRCONF_KINDS, R.FID_TRCONF_MODE, R.FID_TRCONF_POST]
  let s :=
    if fs.all fun f => f.of v == s.fget f 0 0 then s
    else if s.fget R.FID_TRCONF_EN 0 0 ≠ 0 then s.regRefused p .fid 0
    else fs.foldl (fun s f => s.fset f 0 0 (f.of v)) s
  let s := s.fset R.FID_TRCONF_EN 0 0 (R.FID_TRCONF_EN.of v)
  if R.FID_TRCONF_EN.of v = 0 then
    { s.fset R.FID_TRSTAT_STATE 0 0 0 with fid := { s.fid with armed := false } }
  else s

/-- A write of FID_TRIG (R595, R596). -/
def State.writeTrig (s : State) (v : Nat) : State :=
  let s := [R.FID_TRIG_KIND, R.FID_TRIG_PART, R.FID_TRIG_THRESH].foldl (fun s f => s.fset f 0 0 (f.of v)) s
  let s := if v.testBit 6 then s.armTrigger else s
  if v.testBit 7 then s.fireWritten else s

/-- A write of FID_TRIGV (R598): a Cleat outside the partition's blocks is ignored. -/
def State.writeTrigv (s : State) (v : Nat) : State :=
  (s.putIf R.FID_TRIGV_CLEAT 0 0 v fun c => s.cleatOwner c == some (s.fget R.FID_TRIG_PART 0 0)).putIf R.FID_TRIGV_VALUE 0 0 v
    fun _ => true

/-- A write of FID_CONF (R590, R598). -/
def State.writeFidConf (s : State) (v : Nat) : State :=
  (s.putIf R.FID_CONF_PERIOD 0 0 v fun x => 10 ≤ x).putIf R.FID_CONF_SAMPLE_EN 0 0 v fun _ => true

def State.writeFid (s : State) (p : Path) (off v : Nat) : State :=
  if off = 0x000 then s.writeFidConf v
  else if off = 0x010 then s.writeTrconf p v
  else if off = 0x014 then s.writeTrig v
  else if off = 0x018 then s.writeTrigv v
  else if 0x040 ≤ off ∧ off < 0x140 then s.writeBuf ((off - 0x040) / 0x20) ((off - 0x040) % 0x20 / 4) p v
  else s

/-! ## Windows -/

/-- A write of an aperture's register (R421, R422): a CTX of another partition is ignored. -/
def State.writeAp (s : State) (w part n : Nat) (high : Bool) (v : Nat) : State :=
  if high then
    (s.putIf R.XLT_AP_HI_APBASE_HI w n v fun _ => true).putIf R.XLT_AP_HI_CTX w n v fun c => c / 512 == part
  else (s.putIf R.XLT_AP_LO_EN w n v fun _ => true).putIf R.XLT_AP_LO_APBASE_LO w n v fun _ => true

/-- A write of a register of a window block, by its function. -/
def State.writeWindow (s : State) (w : Win) (b : Blk) (off v : Nat) : State :=
  match b with
  | .cmdWin => if off = 0x020 then s.writeWctl w (BitVec.ofNat 32 v) else s
  | _ =>
    match s.partOfWin w with
    | none => s
    | some p =>
      if off = 0x008 ∨ off = 0x00C then s.postRecords w (off == 0x008) (BitVec.ofNat 32 v)
      else if 0x040 ≤ off ∧ off < 0x060 then s.writeAp w.idx p ((off - 0x040) / 8) (off % 8 == 4) v
      else s

/-! ## The row -/

/-- A write of a register of a device block that the conventions let pass. -/
def State.writeBlk (s : State) (p : Path) (b : Blk) (inst off v : Nat) : State :=
  match b with
  | .hub => s.writeHub p off v
  | .pwr => s.writePwr off v
  | .sec => s.writeSecReg p off v
  | .mgt => s.writeMgt off v
  | .pci => s.writePci off v
  | .cmdDev => s.writeCmdDev p off v
  | .coh => s.writeCoh p off v
  | .mem => s.writeMem p off v
  | .lnk => s.writeLnk p off v
  | .fid => s.writeFid p off v
  | .stack => s.writeStack inst off v
  | .site => s.writeSite inst off v
  | .fidc => if off < 0x100 then s.writeSel (if inst = 0 then .west else .east) (off / 4) p v else s
  | .xltDev | .group | .cmdWin | .xltWin => s

/-- A write of the wrong size is ignored (R561). -/
def State.badSize (s : State) (p : Path) (kind inst : Nat) : State := s.regEvent R.HUB_REGEVENT_BADSIZE kind inst p.num

/-- A write of a word at a decoded offset of a device block: BLOCKID and what aliases to it are read-only (R559). -/
def State.writeReg (s : State) (p : Path) (b : Blk) (inst off v : Nat) : State :=
  if off = blockIdOff ∧ !s.instDown b inst then s else s.regGate p b inst off fun s => s.writeBlk p b inst off v

/-- A write by a path of an address (R557 to R569). -/
def State.writeAddr (s : State) (p : Path) (addr v : Nat) (sized : Bool) : State :=
  let window (i : Nat) (b : Blk) (off : Nat) : State :=
    if pathPort p ≠ some (winOf i).port then s
    else s.wreg (winOf i) fun s =>
      if !sized then s.badSize p b.kindCode i else if off = blockIdOff then s else s.writeWindow (winOf i) b off v
  match regAt addr with
  | some (.reg .cmdWin i off) => window i .cmdWin off
  | some (.reg .xltWin i off) => window i .xltWin off
  | some (.reg b i off) => s.byPath p false fun s => if !sized then s.badSize p b.kindCode i else s.writeReg p b i off v
  | some (.sentinel i) =>
    if pathPort p ≠ some (winOf i).port ∨ sized then s else s.barAccess (winOf i) false fun s => s.badSize p 0x22 i
  | some (.slots _ _) => s
  | none => s

/-- REGISTER_WRITE (R564). -/
def execRegisterWrite (path : Path) (addr : Nat) (v : W32) (wordSized : Bool) (s : State) : Res :=
  .next (s.writeAddr path addr v.toNat wordSized)

/-! ## The Halyard REG message -/

/-- The blocks that the message reaches (R479). -/
def regBlocks : List Blk := [.hub, .mem, .coh, .lnk, .pwr, .sec]

/-- The Seizing that a write of a word must take first (R569, R571). -/
def needsSeize (b : Blk) (off v : Nat) : Option Nat := if b = .hub ∧ off = 0x040 ∧ v.testBit 0 then some 12 else guardOf b off

/-- A write by the message: it takes the Seizing of a guarded register and gives it back, or waits while another path holds it (R571). -/
def State.regMessageWrite (s : State) (m : RegMsg) (b : Blk) (i off v : Nat) : State :=
  let go (s : State) : State := ({ s with sec := { s.sec with regWait := none } }.writeReg .west b i off v)
  match needsSeize b off v with
  | none => (go s).hAnswer 9 0 []
  | some n =>
    match s.seizer n with
    | some .west => (go s).hAnswer 9 0 []
    | none => ((go (s.setSeizer n (some .west))).giveSeize n .west).hAnswer 9 0 []
    | some _ => { s with sec := { s.sec with regWait := some m } }

/-- A REG message (R479): a register of another block is refused. -/
def State.regMessage (s : State) (m : RegMsg) : State :=
  if s.sec.regWait.isSome && s.sec.regWait != some m then s
  else
    match regAt m.addr with
    | some (.reg b i off) =>
      if !regBlocks.contains b then s.hAnswer 9 1 []
      else
        (match m.value with
        | none =>
          let (v, s) := s.readReg .west b i off
          s.hAnswer 9 0 (docBytes v 0 4)
        | some v => s.regMessageWrite m b i off v.toNat)
    | _ => s.hAnswer 9 1 []

/-- HALYARD_REG (R479, R557, R571). -/
def execHalyardReg (m : RegMsg) (s : State) : Res := .next (s.message fun s => s.regMessage m)

end Sys2Proof.Machine
end

