-- ==== Sys2Proof/Machine/Dispatch.lean ====
section
/-! DEFINITION. One arm per command: its meaning on everything but the queue. -/

namespace Sys2Proof.Machine

def exec (i : Instr) (s : State) : Host.Outcome State Fault Refusal :=
  match i with
  | .hubRateWindow west east => Sys2Proof.Machine.execHubRateWindow west east s
  | .dispatchRecord t => Sys2Proof.Machine.execDispatchRecord t s
  | .nop t => Sys2Proof.Machine.execNop t s
  | .load t => Sys2Proof.Machine.execLoad t s
  | .store t ecc => Sys2Proof.Machine.execStore t ecc s
  | .gather t => Sys2Proof.Machine.execGather t s
  | .mma t ecc => Sys2Proof.Machine.execMma t ecc s
  | .vec t ecc => Sys2Proof.Machine.execVec t ecc s
  | .quant t ecc => Sys2Proof.Machine.execQuant t ecc s
  | .reduce t => Sys2Proof.Machine.execReduce t s
  | .atom t => Sys2Proof.Machine.execAtom t s
  | .wait t => Sys2Proof.Machine.execWait t s
  | .signal t => Sys2Proof.Machine.execSignal t s
  | .fence t => Sys2Proof.Machine.execFence t s
  | .put t => Sys2Proof.Machine.execPut t s
  | .loop t => Sys2Proof.Machine.execLoop t s
  | .skip t => Sys2Proof.Machine.execSkip t s
  | .endOp t => Sys2Proof.Machine.execEndOp t s
  | .opComplete t op waits => Sys2Proof.Machine.execOpComplete t op waits s
  | .reduceSourceArrive t => Sys2Proof.Machine.execReduceSourceArrive t s
  | .waitTimeout t => Sys2Proof.Machine.execWaitTimeout t s
  | .dispatchStop t => Sys2Proof.Machine.execDispatchStop t s
  | .memRd p phys => Sys2Proof.Machine.execMemRd p phys s
  | .memWr p phys => Sys2Proof.Machine.execMemWr p phys s
  | .atomM p phys => Sys2Proof.Machine.execAtomM p phys s
  | .mfill p phys => Sys2Proof.Machine.execMfill p phys s
  | .mwb p phys => Sys2Proof.Machine.execMwb p phys s
  | .mpoison p => Sys2Proof.Machine.execMpoison p s
  | .retireChunkDone bad => Sys2Proof.Machine.execRetireChunkDone bad s
  | .bucketDecay => Sys2Proof.Machine.execBucketDecay s
  | .patrolRead ch sec phys => Sys2Proof.Machine.execPatrolRead ch sec phys s
  | .zfillGranuleDone => Sys2Proof.Machine.execZfillGranuleDone s
  | .thermalRegimeChange k temp => Sys2Proof.Machine.execThermalRegimeChange k temp s
  | .phyRecalibrate ch => Sys2Proof.Machine.execPhyRecalibrate ch s
  | .marginStart k path w => Sys2Proof.Machine.execMarginStart k path w s
  | .marginDone k errs worst => Sys2Proof.Machine.execMarginDone k errs worst s
  | .memScopeWrite n path w => Sys2Proof.Machine.execMemScopeWrite n path w s
  | .rdShared p ecc => Sys2Proof.Machine.execRdShared p ecc s
  | .rdUnique p => Sys2Proof.Machine.execRdUnique p s
  | .upgrade p => Sys2Proof.Machine.execUpgrade p s
  | .rdOnce p ecc => Sys2Proof.Machine.execRdOnce p ecc s
  | .wrThrough p => Sys2Proof.Machine.execWrThrough p s
  | .wrBack p => Sys2Proof.Machine.execWrBack p s
  | .evict p => Sys2Proof.Machine.execEvict p s
  | .atomH p => Sys2Proof.Machine.execAtomH p s
  | .snpShared p => Sys2Proof.Machine.execSnpShared p s
  | .snpInv p => Sys2Proof.Machine.execSnpInv p s
  | .snpRdNA p => Sys2Proof.Machine.execSnpRdNA p s
  | .comp p => Sys2Proof.Machine.execComp p s
  | .compData p => Sys2Proof.Machine.execCompData p s
  | .snpResp p => Sys2Proof.Machine.execSnpResp p s
  | .snpRespData p => Sys2Proof.Machine.execSnpRespData p s
  | .mdata p => Sys2Proof.Machine.execMdata p s
  | .mack p => Sys2Proof.Machine.execMack p s
  | .grantAck p => Sys2Proof.Machine.execGrantAck p s
  | .nackRetry half tag => Sys2Proof.Machine.execNackRetry half tag s
  | .hitchExpire line => Sys2Proof.Machine.execHitchExpire line s
  | .snoopTimeout line a => Sys2Proof.Machine.execSnoopTimeout line a s
  | .fillTimeout line => Sys2Proof.Machine.execFillTimeout line s
  | .cohFlush path w => Sys2Proof.Machine.execCohFlush path w s
  | .cohFlushDone => Sys2Proof.Machine.execCohFlushDone s
  | .cohWaymaskWrite n path w => Sys2Proof.Machine.execCohWaymaskWrite n path w s
  | .cohConfWrite path w => Sys2Proof.Machine.execCohConfWrite path w s
  | .cleatIncrement c inc a => Sys2Proof.Machine.execCleatIncrement c inc a s
  | .cleatSig k slot tag c inc scope => Sys2Proof.Machine.execCleatSig k slot tag c inc scope s
  | .cleatRd k slot tag c => Sys2Proof.Machine.execCleatRd k slot tag c s
  | .cleatWatch k slot tag c target scope tmo => Sys2Proof.Machine.execCleatWatch k slot tag c target scope tmo s
  | .cleatWatchTimeout k tag => Sys2Proof.Machine.execCleatWatchTimeout k tag s
  | .siteLinkupStart k => Sys2Proof.Machine.execSiteLinkupStart k s
  | .sidebandTrained k refusedPart => Sys2Proof.Machine.execSidebandTrained k refusedPart s
  | .mainbandTrained k live gts => Sys2Proof.Machine.execMainbandTrained k live gts s
  | .linkupTimeout k => Sys2Proof.Machine.execLinkupTimeout k s
  | .chipHello k h => Sys2Proof.Machine.execChipHello k h s
  | .chipAccept k accept => Sys2Proof.Machine.execChipAccept k accept s
  | .measureRsp k digests leaf => Sys2Proof.Machine.execMeasureRsp k digests leaf s
  | .measureVerified k chainOk identOk sigOk => Sys2Proof.Machine.execMeasureVerified k chainOk identOk sigOk s
  | .measureChanged k => Sys2Proof.Machine.execMeasureChanged k s
  | .tspFrame k ap f vcOk => Sys2Proof.Machine.execTspFrame k ap f vcOk s
  | .tspReplayTimeout k ap => Sys2Proof.Machine.execTspReplayTimeout k ap s
  | .attachRetrainDone k ap ok => Sys2Proof.Machine.execAttachRetrainDone k ap ok s
  | .siteRequest k ap slot tag p => Sys2Proof.Machine.execSiteRequest k ap slot tag p s
  | .xlate k slot tag dva => Sys2Proof.Machine.execXlate k slot tag dva s
  | .invAck k => Sys2Proof.Machine.execInvAck k s
  | .invTimeout k => Sys2Proof.Machine.execInvTimeout k s
  | .workDone k wtag status result => Sys2Proof.Machine.execWorkDone k wtag status result s
  | .putReq k slot tag dev handle offset len src red cached => Sys2Proof.Machine.execPutReq k slot tag dev handle offset len src red cached s
  | .leaveReq who tag watts durUs => Sys2Proof.Machine.execLeaveReq who tag watts durUs s
  | .scrubDone k => Sys2Proof.Machine.execScrubDone k s
  | .scrubTimeout k => Sys2Proof.Machine.execScrubTimeout k s
  | .sitePowerSample k draw => Sys2Proof.Machine.execSitePowerSample k draw s
  | .siteCtlReset k path => Sys2Proof.Machine.execSiteCtlReset k path s
  | .siteCtlRemeasure k path => Sys2Proof.Machine.execSiteCtlRemeasure k path s
  | .sitePwrWrite k path w => Sys2Proof.Machine.execSitePwrWrite k path w s
  | .lnkFrameReceive l f => Sys2Proof.Machine.execLnkFrameReceive l f s
  | .lnkReplayTimeout l => Sys2Proof.Machine.execLnkReplayTimeout l s
  | .fragmentSend l => Sys2Proof.Machine.execFragmentSend l s
  | .lnkPut m => Sys2Proof.Machine.execLnkPut m s
  | .lnkPutred m => Sys2Proof.Machine.execLnkPutred m s
  | .collIdleTimeout e handle pos => Sys2Proof.Machine.execCollIdleTimeout e handle pos s
  | .lnkGet m => Sys2Proof.Machine.execLnkGet m s
  | .lnkDone m => Sys2Proof.Machine.execLnkDone m s
  | .lnkRefuse m => Sys2Proof.Machine.execLnkRefuse m s
  | .lnkRoute m => Sys2Proof.Machine.execLnkRoute m s
  | .lnkHalfDown l => Sys2Proof.Machine.execLnkHalfDown l s
  | .trackerTimeout e t => Sys2Proof.Machine.execTrackerTimeout e t s
  | .trackerQuarantineEnd e t => Sys2Proof.Machine.execTrackerQuarantineEnd e t s
  | .linkAutoTrain => Sys2Proof.Machine.execLinkAutoTrain s
  | .linkTrained l lanes ok => Sys2Proof.Machine.execLinkTrained l lanes ok s
  | .linkNoLightTimeout l => Sys2Proof.Machine.execLinkNoLightTimeout l s
  | .peerReport l f => Sys2Proof.Machine.execPeerReport l f s
  | .linkKeysInstalled l => Sys2Proof.Machine.execLinkKeysInstalled l s
  | .wavelengthLockLost l lane => Sys2Proof.Machine.execWavelengthLockLost l lane s
  | .linkRecoveryDone l lanes => Sys2Proof.Machine.execLinkRecoveryDone l lanes s
  | .linkLightLost l => Sys2Proof.Machine.execLinkLightLost l s
  | .lnkLctlRetrain l path => Sys2Proof.Machine.execLnkLctlRetrain l path s
  | .lnkLctlRetire l path => Sys2Proof.Machine.execLnkLctlRetire l path s
  | .lnkDom2Start path => Sys2Proof.Machine.execLnkDom2Start path s
  | .lnkDom2Stop path => Sys2Proof.Machine.execLnkDom2Stop path s
  | .domainStopResume => Sys2Proof.Machine.execDomainStopResume s
  | .fauRemoved u => Sys2Proof.Machine.execFauRemoved u s
  | .fauFitted u => Sys2Proof.Machine.execFauFitted u s
  | .laneWrite win lane off data poisoned => Sys2Proof.Machine.execLaneWrite win lane off data poisoned s
  | .packetRead win lane => Sys2Proof.Machine.execPacketRead win lane s
  | .laneFlushEffect win lane => Sys2Proof.Machine.execLaneFlushEffect win lane s
  | .overflowGuard win lane => Sys2Proof.Machine.execOverflowGuard win lane s
  | .commandStart win lane => Sys2Proof.Machine.execCommandStart win lane s
  | .dispatch id => Sys2Proof.Machine.execDispatch id s
  | .siteWork id => Sys2Proof.Machine.execSiteWork id s
  | .copy id => Sys2Proof.Machine.execCopy id s
  | .fill id => Sys2Proof.Machine.execFill id s
  | .putCmd id => Sys2Proof.Machine.execPutCmd id s
  | .getCmd id => Sys2Proof.Machine.execGetCmd id s
  | .handleSet id => Sys2Proof.Machine.execHandleSet id s
  | .handleClear id => Sys2Proof.Machine.execHandleClear id s
  | .xltInval id => Sys2Proof.Machine.execXltInval id s
  | .nopCmd id => Sys2Proof.Machine.execNopCmd id s
  | .cleatSet id => Sys2Proof.Machine.execCleatSet id s
  | .cleatAdd id => Sys2Proof.Machine.execCleatAdd id s
  | .cleatWait id => Sys2Proof.Machine.execCleatWait id s
  | .cleatWaitTimeout id => Sys2Proof.Machine.execCleatWaitTimeout id s
  | .seqdir id => Sys2Proof.Machine.execSeqdir id s
  | .partCreate id => Sys2Proof.Machine.execPartCreate id s
  | .partGrantGroups id => Sys2Proof.Machine.execPartGrantGroups id s
  | .partGrantGranules id => Sys2Proof.Machine.execPartGrantGranules id s
  | .partGrantCleats id => Sys2Proof.Machine.execPartGrantCleats id s
  | .partGrantSharedNew id => Sys2Proof.Machine.execPartGrantSharedNew id s
  | .partGrantShareAdd id => Sys2Proof.Machine.execPartGrantShareAdd id s
  | .partGrantSeal id => Sys2Proof.Machine.execPartGrantSeal id s
  | .partGrantRelease id => Sys2Proof.Machine.execPartGrantRelease id s
  | .partGrantSharedRetire id => Sys2Proof.Machine.execPartGrantSharedRetire id s
  | .partDestroy id => Sys2Proof.Machine.execPartDestroy id s
  | .whippingComplete p us => Sys2Proof.Machine.execWhippingComplete p us s
  | .ctxSet id => Sys2Proof.Machine.execCtxSet id s
  | .ctxClear id => Sys2Proof.Machine.execCtxClear id s
  | .siteBind id => Sys2Proof.Machine.execSiteBind id s
  | .siteUnbind id => Sys2Proof.Machine.execSiteUnbind id s
  | .attest id => Sys2Proof.Machine.execAttest id s
  | .query id => Sys2Proof.Machine.execQuery id s
  | .marginCmd id => Sys2Proof.Machine.execMarginCmd id s
  | .linkCtl id => Sys2Proof.Machine.execLinkCtl id s
  | .commandEnd id => Sys2Proof.Machine.execCommandEnd id s
  | .commandTimeout id => Sys2Proof.Machine.execCommandTimeout id s
  | .laneFlush win w => Sys2Proof.Machine.execLaneFlush win w s
  | .laneReset win w => Sys2Proof.Machine.execLaneReset win w s
  | .cmdXflush path w => Sys2Proof.Machine.execCmdXflush path w s
  | .rangeWalk m ctx dva acc hold => Sys2Proof.Machine.execRangeWalk m ctx dva acc hold s
  | .xltRetry win w => Sys2Proof.Machine.execXltRetry win w s
  | .xltCancel win w => Sys2Proof.Machine.execXltCancel win w s
  | .hostApertureAccess win n off write len poisoned => Sys2Proof.Machine.execHostApertureAccess win n off write len poisoned s
  | .leaveQueueTimeout => Sys2Proof.Machine.execLeaveQueueTimeout s
  | .leaveExpire k => Sys2Proof.Machine.execLeaveExpire k s
  | .packageDrawSample watts => Sys2Proof.Machine.execPackageDrawSample watts s
  | .junctionTempChange h temp => Sys2Proof.Machine.execJunctionTempChange h temp s
  | .throttleReleaseStep => Sys2Proof.Machine.execThrottleReleaseStep s
  | .pwrLimitWrite path w => Sys2Proof.Machine.execPwrLimitWrite path w s
  | .pwrPbaseWrite p path w => Sys2Proof.Machine.execPwrPbaseWrite p path w s
  | .pwrConfWrite path w => Sys2Proof.Machine.execPwrConfWrite path w s
  | .hubTagminWrite n path w => Sys2Proof.Machine.execHubTagminWrite n path w s
  | .tamperAssert n => Sys2Proof.Machine.execTamperAssert n s
  | .crystalFault => Sys2Proof.Machine.execCrystalFault s
  | .railGlitch => Sys2Proof.Machine.execRailGlitch s
  | .junctionCold => Sys2Proof.Machine.execJunctionCold s
  | .halyardConnect c => Sys2Proof.Machine.execHalyardConnect c s
  | .halyardIdleTimeout => Sys2Proof.Machine.execHalyardIdleTimeout s
  | .halyardCommand packet => Sys2Proof.Machine.execHalyardCommand packet s
  | .halyardReport nonce chain => Sys2Proof.Machine.execHalyardReport nonce chain s
  | .halyardDomain d => Sys2Proof.Machine.execHalyardDomain d s
  | .halyardFwData off data => Sys2Proof.Machine.execHalyardFwData off data s
  | .halyardFwCommit len raiseSvn sigOk svn digest => Sys2Proof.Machine.execHalyardFwCommit len raiseSvn sigOk svn digest s
  | .halyardLc target => Sys2Proof.Machine.execHalyardLc target s
  | .halyardDebug tok => Sys2Proof.Machine.execHalyardDebug tok s
  | .halyardAnchor c => Sys2Proof.Machine.execHalyardAnchor c s
  | .halyardReg m => Sys2Proof.Machine.execHalyardReg m s
  | .spdmRequest win r => Sys2Proof.Machine.execSpdmRequest win r s
  | .getMeasurements win idx nonce => Sys2Proof.Machine.execGetMeasurements win idx nonce s
  | .getDeviceInterfaceReport win nonce => Sys2Proof.Machine.execGetDeviceInterfaceReport win nonce s
  | .secLctransWrite path w => Sys2Proof.Machine.execSecLctransWrite path w s
  | .lcBurnDone => Sys2Proof.Machine.execLcBurnDone s
  | .vfFlr win => Sys2Proof.Machine.execVfFlr win s
  | .pfFlr port => Sys2Proof.Machine.execPfFlr port s
  | .vfEnableClear port => Sys2Proof.Machine.execVfEnableClear port s
  | .portReset port kind => Sys2Proof.Machine.execPortReset port kind s
  | .npTimeout port => Sys2Proof.Machine.execNpTimeout port s
  | .pmcsrWrite win d3 => Sys2Proof.Machine.execPmcsrWrite win d3 s
  | .configWrite win r v => Sys2Proof.Machine.execConfigWrite win r v s
  | .unexpectedCompletion port => Sys2Proof.Machine.execUnexpectedCompletion port s
  | .attentionButton pressed => Sys2Proof.Machine.execAttentionButton pressed s
  | .pciModuleWrite path w => Sys2Proof.Machine.execPciModuleWrite path w s
  | .coldBoot env => Sys2Proof.Machine.execColdBoot env s
  | .bootStageDone h f => Sys2Proof.Machine.execBootStageDone h f s
  | .eastLateTimeout => Sys2Proof.Machine.execEastLateTimeout s
  | .clockLockTimeout h => Sys2Proof.Machine.execClockLockTimeout h s
  | .marchStart k path w => Sys2Proof.Machine.execMarchStart k path w s
  | .preserveRowTest k ch ok spareFree => Sys2Proof.Machine.execPreserveRowTest k ch ok spareFree s
  | .marchDone k failRows failedCh => Sys2Proof.Machine.execMarchDone k failRows failedCh s
  | .watchdogExpire h => Sys2Proof.Machine.execWatchdogExpire h s
  | .mgmtSramUecc h => Sys2Proof.Machine.execMgmtSramUecc h s
  | .coreRestartDone h => Sys2Proof.Machine.execCoreRestartDone h s
  | .hubHalfrstWrite path w => Sys2Proof.Machine.execHubHalfrstWrite path w s
  | .memclkLoss h => Sys2Proof.Machine.execMemclkLoss h s
  | .halfUnresponsive h => Sys2Proof.Machine.execHalfUnresponsive h s
  | .registerWrite path addr v wordSized => Sys2Proof.Machine.execRegisterWrite path addr v wordSized s
  | .registerReadClear path addr => Sys2Proof.Machine.execRegisterReadClear path addr s
  | .lowWordRead path addr => Sys2Proof.Machine.execLowWordRead path addr s
  | .hubSeizeTake n path => Sys2Proof.Machine.execHubSeizeTake n path s
  | .hubSeizeGive n path => Sys2Proof.Machine.execHubSeizeGive n path s
  | .hubSeizeBreak n path => Sys2Proof.Machine.execHubSeizeBreak n path s
  | .hubSnapTake path => Sys2Proof.Machine.execHubSnapTake path s
  | .snapRegionTimeout h => Sys2Proof.Machine.execSnapRegionTimeout h s
  | .hubSealctlCommit path => Sys2Proof.Machine.execHubSealctlCommit path s
  | .hubSealrefWrite path w => Sys2Proof.Machine.execHubSealrefWrite path w s
  | .sealPassDone => Sys2Proof.Machine.execSealPassDone s
  | .fidSelWrite h n path w => Sys2Proof.Machine.execFidSelWrite h n path w s
  | .fidBufWrite p word path w => Sys2Proof.Machine.execFidBufWrite p word path w s
  | .fidSamplePeriod => Sys2Proof.Machine.execFidSamplePeriod s
  | .fidTrigArm path => Sys2Proof.Machine.execFidTrigArm path s
  | .fidTrigFire path => Sys2Proof.Machine.execFidTrigFire path s
  | .traceWaitThreshold => Sys2Proof.Machine.execTraceWaitThreshold s
  | .thermtrip dram temp => Sys2Proof.Machine.execThermtrip dram temp s
  | .resetAssert => Sys2Proof.Machine.execResetAssert s
  | .mainRailFault r => Sys2Proof.Machine.execMainRailFault r s
  | .stackTemperatureThrottle k temp => Sys2Proof.Machine.execStackTemperatureThrottle k temp s
  | .hostLinkTrained port speed width flit => Sys2Proof.Machine.execHostLinkTrained port speed width flit s
  | .perstDeassert port => Sys2Proof.Machine.execPerstDeassert port s
  | .halyardSessionClose => Sys2Proof.Machine.execHalyardSessionClose s
  | .seizingWaitTimeout id => Sys2Proof.Machine.execSeizingWaitTimeout id s
  | .linkNarrowingDone l => Sys2Proof.Machine.execLinkNarrowingDone l s
  | .alwaysOnRailUp => Sys2Proof.Machine.execAlwaysOnRailUp s
  | .unsupportedRequest win posted => Sys2Proof.Machine.execUnsupportedRequest win posted s

end Sys2Proof.Machine
end

