-- ==== Sys2Proof/Safety.lean ====
section
/-! DEFINITION. What counts as a safe step and a safe run, in the terms claims use: the canonical form of the device's memories, and the
parts of the state that a command can change. -/

namespace Sys2Proof.Machine

/-- The step answers a next state. -/
def State.stepsOn (s : State) : Prop := ∃ t, step s = .next t

/-- The device's memory, every scratchpad and every lane's ring lie in canonical form: addresses strictly rising, no byte equal to what
an unlisted address reads as. -/
def State.memoryWf (s : State) : Prop :=
  Memory.wf s.hank.mem = true ∧ (∀ e ∈ s.tiles, Memory.wf e.2.spad = true) ∧ (∀ e ∈ s.cmds.lanes, Memory.wf e.2.ring = true)

/-- The parts of the state that frames speak of: its fields, with the bytes of Hank memory apart from the rest of Hank. -/
inductive Comp where
  | pending | fuse | tally | freeCtr | regs | fab | mem | hank | tiles | cleats | sites | lan | cmds | xlt | pwr | sec | ports
  | boot | fid | unread | out
  deriving DecidableEq, Repr

/-- The named part is the same in both states. -/
def State.same (c : Comp) (s t : State) : Prop :=
  match c with
  | .pending => t.pending = s.pending
  | .fuse => t.fuse = s.fuse
  | .tally => t.tally = s.tally
  | .freeCtr => t.freeCtr = s.freeCtr
  | .regs => t.regs = s.regs
  | .fab => t.fab = s.fab
  | .mem => t.hank.mem = s.hank.mem
  | .hank => { t.hank with mem := [] } = { s.hank with mem := [] }
  | .tiles => t.tiles = s.tiles
  | .cleats => t.cleats = s.cleats
  | .sites => t.sites = s.sites
  | .lan => t.lan = s.lan
  | .cmds => t.cmds = s.cmds
  | .xlt => t.xlt = s.xlt
  | .pwr => t.pwr = s.pwr
  | .sec => t.sec = s.sec
  | .ports => t.ports = s.ports
  | .boot => t.boot = s.boot
  | .fid => t.fid = s.fid
  | .unread => t.unread = s.unread
  | .out => t.out = s.out

/-- Nothing outside the named parts differs. -/
structure State.onlyIn (l : List Comp) (s t : State) : Prop where
  eq : ∀ c, c ∉ l → State.same c s t

/-- A path's write reaches a register: the port's function takes accesses, or the core runs; the block is there and its half is up; the
register is not reserved to another path, and the path holds the Seizing that guards it (R510, R557, R562, R569). -/
def State.pathReaches (s : State) (p : Path) (b : Blk) (inst off : Nat) : Bool :=
  (match p with
   | .portW => s.fnThere 0 && !s.inD3 0 && !s.sec.halted && (s.heldAt .w).isEmpty
   | .portE => s.fnThere 9 && !s.inD3 9 && !s.sec.halted && (s.heldAt .e).isEmpty
   | .west => s.coreRuns .west
   | .east => s.coreRuns .east)
  && !s.lacks b inst && !s.instDown b inst && (!reservedReg b off || p == .west)
  && (match guardOf b off with | none => true | some n => s.seizer n == some p)

/-- A channel's controller serves a request of the bypass class: it has not crossed a closed Splice, its fields are in order, its stack is
not in self-refresh, the ownership check passes, and the chunk lies at the channel (R37, R176, R183, R197, R417). -/
def State.serves (s : State) (p : Pkt) : Bool :=
  !s.cutOff p && !p.badField && !s.mustForward p && !s.frozen p.addr.toNat
    && s.ownCheck p.src p.ctx p.op.writes p.addr.toNat == 0

/-- As serves, for a request of a home. -/
def State.servesHome (s : State) (p : Pkt) : Bool := !s.cutOff p && !p.badField && !s.mustForward p && !s.frozen p.addr.toNat

/-- A cached-class request has arrived at its home and is served at once: within reach, in order, passed by the ownership check, its line
neither busy nor waited for, with a transaction entry and room at the proxy slice, and no error in what its row reads (R37, R197, R213,
R216, R225, R227, R232). -/
def State.homeTakes (s : State) (p : Pkt) : Bool :=
  s.arrives p && p.dst.kind == .home && !(s.crosses p.src (homeAgent (s.sliceOf p.line)) && !s.spliceOpen) && !p.badField
    && s.ownCheck p.src p.ctx p.op.writes p.addr.toNat == 0 && (s.line p.line).txn.isNone && (s.line p.line).starve.isEmpty
    && s.entryFree (s.sliceOf p.line) && !((s.line p.line).proxy && !s.proxyRoom (s.sliceOf p.line))
    && ((s.line p.line).bad &&& (s.line p.line).valid &&& rowReads (s.line p.line) p == 0)

/-- A bound site's attach points look at a request of this tag: it is not in flight, the tag was granted, and power does not hold it (R290, R309,
R316). -/
def State.siteLets (s : State) (k : Nat) (tag : BitVec 12) : Bool :=
  s.hasSite k && s.siteState k == 4 && !s.siteTagUsed k tag && decide (tag.toNat < s.fget R.SITE_TERMS_TAGS k 0) && !(s.site k).hold

/-- A command of an opcode has started and its body has not acted (R385). -/
def State.started (s : State) (id op : Nat) (r : Run) : Prop :=
  s.run id = some r ∧ pktOpcode r.bytes = op ∧ r.body = false ∧ r.status = none

/-- A row ends a running command with a status and its DETAIL (R392, R393). -/
def State.endsRun (s : State) (c : Instr) (id : Nat) (st : BitVec 8) (detail : Nat) : Prop :=
  ∃ (t : State) (y : Run), exec c s = .next t ∧ t.run id = some y ∧ y.status = some st ∧ y.detail = BitVec.ofNat 24 detail

/-- The parts of the state that a command can change; every other part is as it was. -/
def touch (i : Instr) : List Comp :=
  match i with
  | .hubRateWindow _ _ => [.regs, .boot]
  | .dispatchRecord _ => [.freeCtr, .regs, .fab, .tiles, .sites, .cmds, .xlt, .ports, .boot, .fid, .unread, .out]
  | .nop _ => [.freeCtr, .regs, .fab, .tiles, .cleats, .sites, .lan, .cmds, .xlt, .ports, .boot, .fid, .unread, .out]
  | .load _ => [.freeCtr, .regs, .fab, .tiles, .cleats, .sites, .lan, .cmds, .xlt, .ports, .boot, .fid, .unread, .out]
  | .store _ _ => [.freeCtr, .regs, .fab, .tiles, .cleats, .sites, .lan, .cmds, .xlt, .ports, .boot, .fid, .unread, .out]
  | .gather _ => [.freeCtr, .regs, .fab, .tiles, .cleats, .sites, .lan, .cmds, .xlt, .ports, .boot, .fid, .unread, .out]
  | .mma _ _ => [.freeCtr, .regs, .fab, .tiles, .cleats, .sites, .lan, .cmds, .xlt, .ports, .boot, .fid, .unread, .out]
  | .vec _ _ => [.freeCtr, .regs, .fab, .tiles, .cleats, .sites, .lan, .cmds, .xlt, .ports, .boot, .fid, .unread, .out]
  | .quant _ _ => [.freeCtr, .regs, .fab, .tiles, .cleats, .sites, .lan, .cmds, .xlt, .ports, .boot, .fid, .unread, .out]
  | .reduce _ => [.freeCtr, .regs, .fab, .tiles, .cleats, .sites, .lan, .cmds, .xlt, .ports, .boot, .fid, .unread, .out]
  | .atom _ => [.freeCtr, .regs, .fab, .tiles, .cleats, .sites, .lan, .cmds, .xlt, .ports, .boot, .fid, .unread, .out]
  | .wait _ => [.freeCtr, .regs, .fab, .tiles, .cleats, .sites, .lan, .cmds, .xlt, .ports, .boot, .fid, .unread, .out]
  | .signal _ => [.freeCtr, .regs, .fab, .tiles, .cleats, .sites, .lan, .cmds, .xlt, .ports, .boot, .fid, .unread, .out]
  | .fence _ => [.freeCtr, .regs, .fab, .tiles, .cleats, .sites, .lan, .cmds, .xlt, .ports, .boot, .fid, .unread, .out]
  | .put _ => [.freeCtr, .regs, .fab, .tiles, .cleats, .sites, .lan, .cmds, .xlt, .ports, .boot, .fid, .unread, .out]
  | .loop _ => [.freeCtr, .regs, .fab, .tiles, .cleats, .sites, .lan, .cmds, .xlt, .ports, .boot, .fid, .unread, .out]
  | .skip _ => [.freeCtr, .regs, .fab, .tiles, .cleats, .sites, .lan, .cmds, .xlt, .ports, .boot, .fid, .unread, .out]
  | .endOp _ => [.freeCtr, .regs, .fab, .tiles, .cleats, .sites, .lan, .cmds, .xlt, .ports, .boot, .fid, .unread, .out]
  | .opComplete _ _ _ => [.freeCtr, .regs, .fab, .tiles, .cleats, .sites, .lan, .cmds, .xlt, .ports, .boot, .fid, .unread, .out]
  | .reduceSourceArrive _ => [.tiles]
  | .waitTimeout _ => [.regs, .fab, .tiles, .cmds, .xlt, .ports, .fid, .out]
  | .dispatchStop _ => [.regs, .fab, .tiles, .cmds, .xlt, .ports, .fid, .out]
  | .memRd _ _ => [.freeCtr, .regs, .fab, .mem, .hank, .sites, .cmds, .pwr, .ports, .fid, .unread, .out]
  | .memWr _ _ => [.freeCtr, .regs, .fab, .mem, .hank, .sites, .cmds, .pwr, .ports, .fid, .unread, .out]
  | .atomM _ _ => [.freeCtr, .regs, .fab, .mem, .hank, .sites, .cmds, .pwr, .ports, .fid, .unread, .out]
  | .mfill _ _ => [.freeCtr, .regs, .fab, .mem, .hank, .sites, .cmds, .pwr, .ports, .fid, .unread, .out]
  | .mwb _ _ => [.freeCtr, .regs, .fab, .mem, .hank, .sites, .cmds, .pwr, .ports, .fid, .unread, .out]
  | .mpoison _ => [.regs, .fab, .mem, .hank, .unread]
  | .retireChunkDone _ => [.freeCtr, .regs, .mem, .hank, .sites, .cmds, .pwr, .ports, .boot, .fid, .unread, .out]
  | .bucketDecay => [.regs]
  | .patrolRead _ _ _ => [.freeCtr, .regs, .mem, .hank, .sites, .cmds, .pwr, .ports, .fid, .unread, .out]
  | .zfillGranuleDone => [.regs, .mem, .hank, .cmds, .sec, .fid]
  | .thermalRegimeChange _ _ => [.regs, .pwr, .ports, .out]
  | .phyRecalibrate _ => [.hank]
  | .marginStart _ _ _ => [.freeCtr, .regs, .hank, .sites, .cmds, .pwr, .ports, .fid, .out]
  | .marginDone _ _ _ => [.freeCtr, .regs, .hank, .sites, .cmds, .pwr, .ports, .fid, .out]
  | .memScopeWrite _ _ _ => [.regs, .ports, .fid, .out]
  | .rdShared _ _ => [.freeCtr, .regs, .fab, .sites, .ports, .boot, .unread, .out]
  | .rdUnique _ => [.freeCtr, .regs, .fab, .sites, .ports, .boot, .unread, .out]
  | .upgrade _ => [.freeCtr, .regs, .fab, .sites, .ports, .boot, .unread, .out]
  | .rdOnce _ _ => [.freeCtr, .regs, .fab, .sites, .ports, .boot, .unread, .out]
  | .wrThrough _ => [.freeCtr, .regs, .fab, .sites, .ports, .boot, .unread, .out]
  | .wrBack _ => [.freeCtr, .regs, .fab, .sites, .ports, .boot, .unread, .out]
  | .evict _ => [.freeCtr, .regs, .fab, .sites, .ports, .boot, .unread, .out]
  | .atomH _ => [.freeCtr, .regs, .fab, .sites, .ports, .boot, .unread, .out]
  | .snpShared _ => [.freeCtr, .fab, .tiles, .sites, .out]
  | .snpInv _ => [.freeCtr, .fab, .tiles, .sites, .out]
  | .snpRdNA _ => [.freeCtr, .fab, .tiles, .sites, .out]
  | .comp _ => [.freeCtr, .regs, .fab, .hank, .tiles, .cleats, .sites, .lan, .cmds, .xlt, .pwr, .ports, .boot, .fid, .unread, .out]
  | .compData _ => [.freeCtr, .regs, .fab, .hank, .tiles, .cleats, .sites, .lan, .cmds, .xlt, .pwr, .ports, .boot, .fid, .unread, .out]
  | .snpResp _ => [.freeCtr, .regs, .fab, .sites, .ports, .unread, .out]
  | .snpRespData _ => [.freeCtr, .regs, .fab, .sites, .ports, .unread, .out]
  | .mdata _ => [.freeCtr, .regs, .fab, .hank, .tiles, .cleats, .sites, .lan, .cmds, .xlt, .pwr, .ports, .boot, .fid, .unread, .out]
  | .mack _ => [.freeCtr, .regs, .fab, .hank, .tiles, .cleats, .sites, .lan, .cmds, .xlt, .pwr, .ports, .boot, .fid, .unread, .out]
  | .grantAck _ => [.freeCtr, .regs, .fab, .sites, .ports, .unread, .out]
  | .nackRetry _ _ => [.fab]
  | .hitchExpire _ => [.freeCtr, .regs, .fab, .sites, .ports, .unread, .out]
  | .snoopTimeout _ _ => [.freeCtr, .regs, .fab, .hank, .cleats, .sites, .lan, .cmds, .xlt, .pwr, .sec, .ports, .boot, .fid, .unread, .out]
  | .fillTimeout _ => [.freeCtr, .regs, .fab, .sites, .ports, .unread, .out]
  | .cohFlush _ _ => [.regs, .fab, .ports, .unread, .out]
  | .cohFlushDone => [.regs, .fab, .ports, .boot, .unread, .out]
  | .cohWaymaskWrite _ _ _ => [.regs, .fab, .sec, .ports, .fid, .unread, .out]
  | .cohConfWrite _ _ => [.regs, .ports, .out]
  | .cleatIncrement _ _ _ => [.freeCtr, .regs, .fab, .tiles, .cleats, .sites, .lan, .cmds, .xlt, .ports, .boot, .fid, .unread, .out]
  | .cleatSig _ _ _ _ _ _ => [.regs, .cleats, .sites, .ports, .out]
  | .cleatRd _ _ _ _ => [.regs, .sites, .ports, .out]
  | .cleatWatch _ _ _ _ _ _ _ => [.regs, .cleats, .sites, .ports, .fid, .out]
  | .cleatWatchTimeout _ _ => [.regs, .cleats, .sites, .fid, .out]
  | .siteLinkupStart _ => [.regs, .fab, .sites]
  | .sidebandTrained _ _ => [.regs, .fab, .sites]
  | .mainbandTrained _ _ _ => [.regs, .fab, .sites, .ports, .out]
  | .linkupTimeout _ => [.regs, .fab, .sites]
  | .chipHello _ _ => [.regs, .fab, .sites, .ports, .out]
  | .chipAccept _ _ => [.freeCtr, .regs, .fab, .sites, .out]
  | .measureRsp _ _ _ => [.regs, .fab, .sites]
  | .measureVerified _ _ _ _ => [.regs, .fab, .sites, .out]
  | .measureChanged _ => [.freeCtr, .regs, .fab, .hank, .cleats, .sites, .cmds, .pwr, .ports, .fid, .out]
  | .tspFrame _ _ _ _ => [.freeCtr, .regs, .fab, .hank, .cleats, .sites, .lan, .cmds, .xlt, .pwr, .sec, .ports, .fid, .unread, .out]
  | .tspReplayTimeout _ _ => [.freeCtr, .regs, .fab, .hank, .cleats, .sites, .lan, .cmds, .xlt, .pwr, .sec, .ports, .fid, .unread, .out]
  | .attachRetrainDone _ _ _ => [.freeCtr, .regs, .fab, .hank, .cleats, .sites, .lan, .cmds, .xlt, .pwr, .sec, .ports, .fid, .unread, .out]
  | .siteRequest _ _ _ _ _ => [.regs, .fab, .cleats, .sites, .ports, .out]
  | .xlate _ _ _ _ => [.freeCtr, .regs, .fab, .sites, .xlt, .ports, .boot, .unread, .out]
  | .invAck _ => [.sites, .cmds]
  | .invTimeout _ => [.freeCtr, .regs, .fab, .hank, .cleats, .sites, .lan, .cmds, .xlt, .pwr, .sec, .ports, .fid, .unread, .out]
  | .workDone _ _ _ _ => [.fab, .sites, .cmds, .out]
  | .putReq _ _ _ _ _ _ _ _ _ _ => [.freeCtr, .regs, .fab, .tiles, .sites, .lan, .cmds, .xlt, .ports, .boot, .fid, .unread, .out]
  | .leaveReq _ _ _ _ => [.freeCtr, .regs, .hank, .sites, .cmds, .pwr, .ports, .fid, .out]
  | .scrubDone _ => [.freeCtr, .regs, .sites, .cmds, .xlt, .ports, .fid, .out]
  | .scrubTimeout _ => [.freeCtr, .regs, .fab, .hank, .cleats, .sites, .lan, .cmds, .xlt, .pwr, .sec, .ports, .fid, .unread, .out]
  | .sitePowerSample _ _ => [.freeCtr, .regs, .fab, .hank, .cleats, .sites, .lan, .cmds, .xlt, .pwr, .sec, .ports, .fid, .unread, .out]
  | .siteCtlReset _ _ => [.freeCtr, .regs, .fab, .hank, .sites, .cmds, .pwr, .ports, .fid, .out]
  | .siteCtlRemeasure _ _ => [.freeCtr, .regs, .sites, .ports, .out]
  | .sitePwrWrite _ _ _ => [.regs, .sites, .ports, .out]
  | .lnkFrameReceive _ _ => [.freeCtr, .regs, .fab, .hank, .tiles, .cleats, .sites, .lan, .cmds, .xlt, .pwr, .sec, .ports, .boot, .fid, .unread, .out]
  | .lnkReplayTimeout _ => [.freeCtr, .regs, .fab, .tiles, .cleats, .sites, .lan, .cmds, .xlt, .ports, .boot, .fid, .unread, .out]
  | .fragmentSend _ => [.freeCtr, .regs, .fab, .tiles, .cleats, .sites, .lan, .cmds, .xlt, .ports, .boot, .fid, .unread, .out]
  | .lnkPut _ => [.freeCtr, .regs, .fab, .tiles, .cleats, .sites, .lan, .cmds, .xlt, .ports, .boot, .fid, .unread, .out]
  | .lnkPutred _ => [.freeCtr, .regs, .fab, .tiles, .cleats, .sites, .lan, .cmds, .xlt, .ports, .boot, .fid, .unread, .out]
  | .collIdleTimeout _ _ _ => [.freeCtr, .regs, .fab, .tiles, .cleats, .sites, .lan, .cmds, .xlt, .ports, .boot, .fid, .unread, .out]
  | .lnkGet _ => [.freeCtr, .regs, .fab, .tiles, .cleats, .sites, .lan, .cmds, .xlt, .ports, .boot, .fid, .unread, .out]
  | .lnkDone _ => [.freeCtr, .regs, .fab, .tiles, .cleats, .sites, .lan, .cmds, .xlt, .ports, .boot, .fid, .unread, .out]
  | .lnkRefuse _ => [.freeCtr, .regs, .fab, .tiles, .cleats, .sites, .lan, .cmds, .xlt, .ports, .boot, .fid, .unread, .out]
  | .lnkRoute _ => [.freeCtr, .regs, .fab, .tiles, .cleats, .sites, .lan, .cmds, .xlt, .ports, .boot, .fid, .unread, .out]
  | .lnkHalfDown _ => [.freeCtr, .regs, .fab, .tiles, .cleats, .sites, .lan, .cmds, .xlt, .ports, .boot, .fid, .unread, .out]
  | .trackerTimeout _ _ => [.freeCtr, .regs, .fab, .tiles, .cleats, .sites, .lan, .cmds, .xlt, .ports, .boot, .fid, .unread, .out]
  | .trackerQuarantineEnd _ _ => [.freeCtr, .regs, .fab, .tiles, .cleats, .sites, .lan, .cmds, .xlt, .ports, .boot, .fid, .unread, .out]
  | .linkAutoTrain => [.freeCtr, .regs, .fab, .tiles, .cleats, .sites, .lan, .cmds, .xlt, .ports, .boot, .fid, .unread, .out]
  | .linkTrained _ _ _ => [.freeCtr, .regs, .fab, .tiles, .cleats, .sites, .lan, .cmds, .xlt, .ports, .boot, .fid, .unread, .out]
  | .linkNoLightTimeout _ => [.freeCtr, .regs, .fab, .tiles, .cleats, .sites, .lan, .cmds, .xlt, .ports, .boot, .fid, .unread, .out]
  | .peerReport _ _ => [.freeCtr, .regs, .fab, .tiles, .cleats, .sites, .lan, .cmds, .xlt, .ports, .boot, .fid, .unread, .out]
  | .linkKeysInstalled _ => [.freeCtr, .regs, .fab, .tiles, .cleats, .sites, .lan, .cmds, .xlt, .ports, .boot, .fid, .unread, .out]
  | .wavelengthLockLost _ _ => [.freeCtr, .regs, .fab, .tiles, .cleats, .sites, .lan, .cmds, .xlt, .ports, .boot, .fid, .unread, .out]
  | .linkRecoveryDone _ _ => [.freeCtr, .regs, .fab, .tiles, .cleats, .sites, .lan, .cmds, .xlt, .ports, .boot, .fid, .unread, .out]
  | .linkLightLost _ => [.freeCtr, .regs, .fab, .tiles, .cleats, .sites, .lan, .cmds, .xlt, .ports, .boot, .fid, .unread, .out]
  | .lnkLctlRetrain _ _ => [.freeCtr, .regs, .fab, .tiles, .cleats, .sites, .lan, .cmds, .xlt, .ports, .boot, .fid, .unread, .out]
  | .lnkLctlRetire _ _ => [.freeCtr, .regs, .fab, .tiles, .cleats, .sites, .lan, .cmds, .xlt, .ports, .boot, .fid, .unread, .out]
  | .lnkDom2Start _ => [.freeCtr, .regs, .fab, .tiles, .cleats, .sites, .lan, .cmds, .xlt, .ports, .boot, .fid, .unread, .out]
  | .lnkDom2Stop _ => [.freeCtr, .regs, .fab, .tiles, .cleats, .sites, .lan, .cmds, .xlt, .ports, .boot, .fid, .unread, .out]
  | .domainStopResume => [.freeCtr, .regs, .fab, .tiles, .cleats, .sites, .lan, .cmds, .xlt, .ports, .boot, .fid, .unread, .out]
  | .fauRemoved _ => [.freeCtr, .regs, .fab, .tiles, .cleats, .sites, .lan, .cmds, .xlt, .ports, .boot, .fid, .unread, .out]
  | .fauFitted _ => [.freeCtr, .regs, .fab, .tiles, .cleats, .sites, .lan, .cmds, .xlt, .ports, .boot, .fid, .unread, .out]
  | .laneWrite _ _ _ _ _ => [.regs, .cmds, .ports, .out]
  | .packetRead _ _ => [.freeCtr, .regs, .fab, .hank, .tiles, .cleats, .sites, .lan, .cmds, .xlt, .pwr, .ports, .boot, .fid, .unread, .out]
  | .laneFlushEffect _ _ => [.freeCtr, .regs, .fab, .hank, .tiles, .cleats, .sites, .lan, .cmds, .xlt, .pwr, .ports, .boot, .fid, .unread, .out]
  | .overflowGuard _ _ => [.freeCtr, .regs, .fab, .hank, .tiles, .cleats, .sites, .lan, .cmds, .xlt, .pwr, .ports, .boot, .fid, .unread, .out]
  | .commandStart _ _ => [.freeCtr, .regs, .hank, .sites, .cmds, .pwr, .ports, .fid, .out]
  | .dispatch _ => [.regs, .tiles, .cmds]
  | .siteWork _ => [.regs, .sites, .cmds, .out]
  | .copy _ => [.freeCtr, .regs, .fab, .sites, .cmds, .xlt, .ports, .boot, .unread, .out]
  | .fill _ => [.freeCtr, .regs, .fab, .sites, .cmds, .xlt, .ports, .boot, .unread, .out]
  | .putCmd _ => [.freeCtr, .regs, .fab, .tiles, .sites, .lan, .cmds, .xlt, .ports, .boot, .fid, .unread, .out]
  | .getCmd _ => [.freeCtr, .regs, .fab, .tiles, .sites, .lan, .cmds, .xlt, .ports, .boot, .fid, .unread, .out]
  | .handleSet _ => [.lan, .cmds]
  | .handleClear _ => [.lan, .cmds]
  | .xltInval _ => [.sites, .cmds, .xlt, .out]
  | .nopCmd _ => [.cmds]
  | .cleatSet _ => [.freeCtr, .regs, .fab, .tiles, .cleats, .sites, .lan, .cmds, .xlt, .ports, .boot, .fid, .unread, .out]
  | .cleatAdd _ => [.freeCtr, .regs, .fab, .tiles, .cleats, .sites, .lan, .cmds, .xlt, .ports, .boot, .fid, .unread, .out]
  | .cleatWait _ => [.regs, .cmds, .fid]
  | .cleatWaitTimeout _ => [.cmds]
  | .seqdir _ => [.cmds]
  | .partCreate _ => [.regs, .hank, .cmds, .sec, .fid]
  | .partGrantGroups _ => [.regs, .cmds, .sec]
  | .partGrantGranules _ => [.regs, .hank, .cmds, .sec, .fid]
  | .partGrantCleats _ => [.cleats, .cmds, .sec]
  | .partGrantSharedNew _ => [.regs, .hank, .cmds, .sec, .fid]
  | .partGrantShareAdd _ => [.regs, .hank, .cmds, .sec, .fid]
  | .partGrantSeal _ => [.regs, .mem, .hank, .cmds, .sec, .fid]
  | .partGrantRelease _ => [.fab, .hank, .tiles, .sites, .cmds, .sec]
  | .partGrantSharedRetire _ => [.regs, .fab, .hank, .tiles, .sites, .cmds, .sec, .fid]
  | .partDestroy _ => [.freeCtr, .regs, .fab, .hank, .tiles, .cleats, .sites, .lan, .cmds, .xlt, .pwr, .sec, .ports, .boot, .fid, .unread, .out]
  | .whippingComplete _ _ => [.freeCtr, .regs, .fab, .hank, .tiles, .cleats, .sites, .lan, .cmds, .xlt, .pwr, .sec, .ports, .boot, .fid, .unread, .out]
  | .ctxSet _ => [.sites, .cmds, .xlt, .out]
  | .ctxClear _ => [.sites, .cmds, .xlt, .out]
  | .siteBind _ => [.regs, .cmds, .sec, .fid, .out]
  | .siteUnbind _ => [.freeCtr, .regs, .fab, .hank, .cleats, .sites, .cmds, .pwr, .sec, .ports, .fid, .out]
  | .attest _ => [.freeCtr, .regs, .fab, .sites, .cmds, .xlt, .ports, .boot, .unread, .out]
  | .query _ => [.cmds]
  | .marginCmd _ => [.freeCtr, .regs, .hank, .sites, .cmds, .pwr, .ports, .fid, .out]
  | .linkCtl _ => [.freeCtr, .regs, .fab, .tiles, .cleats, .sites, .lan, .cmds, .xlt, .ports, .boot, .fid, .unread, .out]
  | .commandEnd _ => [.freeCtr, .regs, .fab, .hank, .tiles, .cleats, .sites, .lan, .cmds, .xlt, .pwr, .ports, .boot, .fid, .unread, .out]
  | .commandTimeout _ => [.freeCtr, .regs, .fab, .hank, .tiles, .cleats, .sites, .lan, .cmds, .xlt, .pwr, .ports, .boot, .fid, .unread, .out]
  | .laneFlush _ _ => [.freeCtr, .regs, .fab, .hank, .tiles, .cleats, .sites, .lan, .cmds, .xlt, .pwr, .ports, .boot, .fid, .unread, .out]
  | .laneReset _ _ => [.freeCtr, .regs, .fab, .hank, .tiles, .cleats, .sites, .lan, .cmds, .xlt, .pwr, .ports, .boot, .fid, .unread, .out]
  | .cmdXflush _ _ => [.regs, .cmds, .ports, .out]
  | .rangeWalk _ _ _ _ _ => [.freeCtr, .regs, .fab, .sites, .xlt, .ports, .boot, .unread, .out]
  | .xltRetry _ _ => [.freeCtr, .regs, .fab, .hank, .tiles, .cleats, .sites, .lan, .cmds, .xlt, .pwr, .ports, .boot, .fid, .unread, .out]
  | .xltCancel _ _ => [.freeCtr, .regs, .fab, .hank, .tiles, .cleats, .sites, .lan, .cmds, .xlt, .pwr, .ports, .boot, .fid, .unread, .out]
  | .hostApertureAccess _ _ _ _ _ _ => [.freeCtr, .regs, .fab, .hank, .tiles, .cleats, .sites, .lan, .cmds, .xlt, .pwr, .ports, .boot, .fid, .unread, .out]
  | .leaveQueueTimeout => [.freeCtr, .regs, .hank, .sites, .cmds, .pwr, .ports, .fid, .out]
  | .leaveExpire _ => [.freeCtr, .regs, .hank, .sites, .cmds, .pwr, .ports, .fid, .out]
  | .packageDrawSample _ => [.regs, .pwr, .ports, .out]
  | .junctionTempChange _ _ => [.regs, .pwr, .ports, .out]
  | .throttleReleaseStep => [.regs, .pwr, .ports, .out]
  | .pwrLimitWrite _ _ => [.freeCtr, .regs, .hank, .sites, .cmds, .pwr, .ports, .fid, .out]
  | .pwrPbaseWrite _ _ _ => [.freeCtr, .regs, .hank, .sites, .cmds, .pwr, .sec, .ports, .fid, .out]
  | .pwrConfWrite _ _ => [.regs, .pwr, .ports, .out]
  | .hubTagminWrite _ _ _ => [.regs, .fab, .ports, .fid, .out]
  | .tamperAssert _ => [.freeCtr, .regs, .fab, .hank, .tiles, .cleats, .sites, .lan, .cmds, .xlt, .pwr, .sec, .ports, .boot, .fid, .unread, .out]
  | .crystalFault => [.freeCtr, .regs, .fab, .hank, .tiles, .cleats, .sites, .lan, .cmds, .xlt, .pwr, .sec, .ports, .boot, .fid, .unread, .out]
  | .railGlitch => [.freeCtr, .regs, .fab, .hank, .tiles, .cleats, .sites, .lan, .cmds, .xlt, .pwr, .sec, .ports, .boot, .fid, .unread, .out]
  | .junctionCold => [.freeCtr, .regs, .fab, .hank, .tiles, .cleats, .sites, .lan, .cmds, .xlt, .pwr, .sec, .ports, .boot, .fid, .unread, .out]
  | .halyardConnect _ => [.freeCtr, .regs, .fab, .hank, .tiles, .cleats, .sites, .lan, .cmds, .xlt, .pwr, .sec, .ports, .boot, .fid, .unread, .out]
  | .halyardIdleTimeout => [.cmds, .sec]
  | .halyardCommand _ => [.cmds]
  | .halyardReport _ _ => [.freeCtr, .out]
  | .halyardDomain _ => [.freeCtr, .regs, .fab, .tiles, .cleats, .sites, .lan, .cmds, .xlt, .ports, .boot, .fid, .unread, .out]
  | .halyardFwData _ _ => [.sec, .out]
  | .halyardFwCommit _ _ _ _ _ => [.sec, .out]
  | .halyardLc _ => [.regs, .sec, .ports, .out]
  | .halyardDebug _ => [.freeCtr, .regs, .fab, .hank, .tiles, .cleats, .sites, .lan, .cmds, .xlt, .pwr, .sec, .ports, .boot, .fid, .unread, .out]
  | .halyardAnchor _ => [.regs, .sec, .ports, .out]
  | .halyardReg _ => [.pending, .fuse, .tally, .freeCtr, .regs, .fab, .mem, .hank, .tiles, .cleats, .sites, .lan, .cmds, .xlt, .pwr, .sec, .ports, .boot, .fid, .unread, .out]
  | .spdmRequest _ _ => [.sec, .out]
  | .getMeasurements _ _ _ => [.freeCtr, .out]
  | .getDeviceInterfaceReport _ _ => [.freeCtr, .out]
  | .secLctransWrite _ _ => [.regs, .sec, .ports, .out]
  | .lcBurnDone => [.fuse, .freeCtr, .regs, .fab, .hank, .tiles, .cleats, .sites, .lan, .cmds, .xlt, .pwr, .sec, .ports, .boot, .fid, .unread, .out]
  | .vfFlr _ => [.freeCtr, .regs, .fab, .hank, .tiles, .cleats, .sites, .lan, .cmds, .xlt, .pwr, .sec, .ports, .boot, .fid, .unread, .out]
  | .pfFlr _ => [.freeCtr, .regs, .fab, .hank, .tiles, .cleats, .sites, .lan, .cmds, .xlt, .pwr, .sec, .ports, .boot, .fid, .unread, .out]
  | .vfEnableClear _ => [.freeCtr, .regs, .fab, .hank, .tiles, .cleats, .sites, .lan, .cmds, .xlt, .pwr, .sec, .ports, .boot, .fid, .unread, .out]
  | .portReset _ _ => [.freeCtr, .regs, .fab, .hank, .tiles, .cleats, .sites, .lan, .cmds, .xlt, .pwr, .sec, .ports, .boot, .fid, .unread, .out]
  | .npTimeout _ => [.regs, .fab, .cmds, .ports, .out]
  | .pmcsrWrite _ _ => [.regs, .ports, .out]
  | .configWrite _ _ _ => [.freeCtr, .regs, .fab, .hank, .tiles, .cleats, .sites, .lan, .cmds, .xlt, .pwr, .sec, .ports, .boot, .fid, .unread, .out]
  | .unexpectedCompletion _ => [.ports, .out]
  | .attentionButton _ => [.regs, .ports, .out]
  | .pciModuleWrite _ _ => [.regs, .ports, .out]
  | .coldBoot _ => [.pending, .fuse, .tally, .freeCtr, .regs, .fab, .mem, .hank, .tiles, .cleats, .sites, .lan, .cmds, .xlt, .pwr, .sec, .ports, .boot, .fid, .unread, .out]
  | .bootStageDone _ _ => [.pending, .fuse, .tally, .freeCtr, .regs, .fab, .mem, .hank, .tiles, .cleats, .sites, .lan, .cmds, .xlt, .pwr, .sec, .ports, .boot, .fid, .unread, .out]
  | .eastLateTimeout => [.regs, .boot]
  | .clockLockTimeout _ => [.regs, .boot]
  | .marchStart _ _ _ => [.freeCtr, .regs, .hank, .sites, .cmds, .pwr, .ports, .fid, .out]
  | .preserveRowTest _ _ _ _ => [.freeCtr, .regs, .hank, .sites, .cmds, .pwr, .ports, .boot, .fid, .unread, .out]
  | .marchDone _ _ _ => [.freeCtr, .regs, .hank, .sites, .cmds, .pwr, .ports, .boot, .fid, .unread, .out]
  | .watchdogExpire _ => [.pending, .fuse, .tally, .freeCtr, .regs, .fab, .mem, .hank, .tiles, .cleats, .sites, .lan, .cmds, .xlt, .pwr, .sec, .ports, .boot, .fid, .unread, .out]
  | .mgmtSramUecc _ => [.pending, .fuse, .tally, .freeCtr, .regs, .fab, .mem, .hank, .tiles, .cleats, .sites, .lan, .cmds, .xlt, .pwr, .sec, .ports, .boot, .fid, .unread, .out]
  | .coreRestartDone _ => [.freeCtr, .regs, .fab, .tiles, .cleats, .sites, .lan, .cmds, .xlt, .ports, .boot, .fid, .unread, .out]
  | .hubHalfrstWrite _ _ => [.pending, .fuse, .tally, .freeCtr, .regs, .fab, .mem, .hank, .tiles, .cleats, .sites, .lan, .cmds, .xlt, .pwr, .sec, .ports, .boot, .fid, .unread, .out]
  | .memclkLoss _ => [.pending, .fuse, .tally, .freeCtr, .regs, .fab, .mem, .hank, .tiles, .cleats, .sites, .lan, .cmds, .xlt, .pwr, .sec, .ports, .boot, .fid, .unread, .out]
  | .halfUnresponsive _ => [.pending, .fuse, .tally, .freeCtr, .regs, .fab, .mem, .hank, .tiles, .cleats, .sites, .lan, .cmds, .xlt, .pwr, .sec, .ports, .boot, .fid, .unread, .out]
  | .registerWrite _ _ _ _ => [.pending, .fuse, .tally, .freeCtr, .regs, .fab, .mem, .hank, .tiles, .cleats, .sites, .lan, .cmds, .xlt, .pwr, .sec, .ports, .boot, .fid, .unread, .out]
  | .registerReadClear _ _ => [.freeCtr, .regs, .ports, .fid, .unread, .out]
  | .lowWordRead _ _ => [.freeCtr, .regs, .ports, .fid, .unread, .out]
  | .hubSeizeTake _ _ => [.regs, .ports, .fid, .out]
  | .hubSeizeGive _ _ => [.regs, .ports, .fid, .out]
  | .hubSeizeBreak _ _ => [.regs, .ports, .fid, .out]
  | .hubSnapTake _ => [.regs, .ports, .fid, .out]
  | .snapRegionTimeout _ => [.regs, .fid]
  | .hubSealctlCommit _ => [.regs, .ports, .fid, .out]
  | .hubSealrefWrite _ _ => [.regs, .ports, .out]
  | .sealPassDone => [.freeCtr, .regs, .fab, .hank, .tiles, .cleats, .sites, .lan, .cmds, .xlt, .pwr, .sec, .ports, .boot, .fid, .unread, .out]
  | .fidSelWrite _ _ _ _ => [.regs, .ports, .out]
  | .fidBufWrite _ _ _ _ => [.regs, .ports, .fid, .out]
  | .fidSamplePeriod => [.freeCtr, .regs, .fab, .sites, .xlt, .ports, .boot, .fid, .unread, .out]
  | .fidTrigArm _ => [.regs, .ports, .fid, .out]
  | .fidTrigFire _ => [.regs, .ports, .fid, .out]
  | .traceWaitThreshold => [.regs, .fid]
  | .thermtrip _ _ => [.boot]
  | .resetAssert => [.pending, .fuse, .tally, .freeCtr, .regs, .fab, .mem, .hank, .tiles, .cleats, .sites, .lan, .cmds, .xlt, .pwr, .sec, .ports, .boot, .fid, .unread, .out]
  | .mainRailFault _ => [.pending, .fuse, .tally, .freeCtr, .regs, .fab, .mem, .hank, .tiles, .cleats, .sites, .lan, .cmds, .xlt, .pwr, .sec, .ports, .boot, .fid, .unread, .out]
  | .stackTemperatureThrottle _ _ => [.regs, .pwr, .ports, .out]
  | .hostLinkTrained _ _ _ _ => [.regs, .ports]
  | .perstDeassert _ => [.ports]
  | .halyardSessionClose => [.cmds, .sec]
  | .seizingWaitTimeout _ => [.cmds, .sec, .fid, .out]
  | .linkNarrowingDone _ => [.lan]
  | .alwaysOnRailUp => [.pending, .fuse, .tally, .freeCtr, .regs, .fab, .mem, .hank, .tiles, .cleats, .sites, .lan, .cmds, .xlt, .pwr, .sec, .ports, .boot, .fid, .unread, .out]
  | .unsupportedRequest _ _ => [.ports, .out]

end Sys2Proof.Machine
end

