-- ==== Sys2Proof/Certificates/Slice0/Obligations.lean ====
section
/-! DEFINITION. The statements about the model: what each family of commands does, by the rules that the docstrings name. A clause that rests on
a choice of the model is so by the log entries that its row of OBLIGATIONS.json names. -/

open Sys2Proof Sys2Proof.Machine

/-! ## The whole machine -/

/-- A step takes the command at the front of the queue and runs it on the state with the queue's rest. -/
def Obligations.StepRunsFrontCommand : Prop :=
  ∀ (s : State) (c : Instr) (rest : List Instr), s.pending = c :: rest → step s = exec c (s.withPending rest)

/-- With no command waiting the tally counts by one, modulo 2^64 (R581), and each half writes the oldest record of its staging queue (R593): a machine
with nothing staged changes in no other way, and nothing but what such a write needs ever does (log 13: what an empty queue does is the model's
choice). -/
def Obligations.EmptyQueueCountsTheTally : Prop :=
  ∀ s : State, s.pending = [] →
    (∃ t, step s = .next t ∧ t.tally = s.tally + 1 ∧ t.traceQ .west = (s.traceQ .west).tail ∧ t.traceQ .east = (s.traceQ .east).tail
      ∧ State.onlyIn [.tally, .freeCtr, .regs, .fab, .sites, .xlt, .ports, .boot, .fid, .unread, .out] s t)
    ∧ (s.traceQ .west = [] → s.traceQ .east = [] → step s = .next { s with tally := s.tally + 1 })

/-- After reset every register field but the fused ones reads the reset value of its table, no memory is listed, no partition exists, the
tally is 0 and both ports answer configuration requests with Retry Status (R513, R583). -/
def Obligations.ResetLeavesTheTablesValues : Prop :=
  (∀ (f : Fld) (i n : Nat),
      f.key i n ∉ [R.HUB_POPCODE_CHAR0.key 0 0, R.HUB_POPCODE_CHAR1.key 0 0, R.HUB_POPCODE_CHAR2.key 0 0, R.HUB_POPCODE_CHAR3.key 0 0,
        R.SEC_LC_STATE.key 0 0] → State.reset.fget f i n = f.reset)
  ∧ (∀ a, memByte State.reset.hank.mem a = 0) ∧ (∀ p, p < 8 → State.reset.partExists p = false)
  ∧ State.reset.tally = 0 ∧ State.reset.ports.crsW = true ∧ State.reset.ports.crsE = true ∧ State.reset.pending = []

/-- Device memory is in canonical form after reset. -/
def Obligations.MemoryFormHoldsAtReset : Prop :=
  Memory.wf State.reset.hank.mem = true

/-- Every step keeps the canonical form of device memory: addresses strictly rising, no byte listed that an unlisted address reads as. -/
def Obligations.EveryStepKeepsMemoryForm : Prop :=
  ∀ s t : State, Memory.wf s.hank.mem = true → step s = .next t → Memory.wf t.hank.mem = true

/-- No command is refused, and none stops but where the part lacks the unit that it names. -/
def Obligations.EveryCommandHasAnEffect : Prop :=
  ∀ (i : Instr) (s : State), (∃ t, exec i s = .next t) ∨ exec i s = .fault .absentUnit

/-- What each command can change: the parts that its list names, and no other.
Every byte of device memory reads as before, but after the commands that a channel serves, a zero-fill, a shared set's mirroring, and the
events that reset a half or the device. -/
def Obligations.FrameOfEveryCommand : Prop :=
  ( ∀ (i : Instr) (s t : State), exec i s = .next t → State.onlyIn (touch i) s t)
  ∧ ( ∀ (i : Instr) (s t : State) (a : Nat), Comp.mem ∉ touch i → exec i s = .next t → memByte t.hank.mem a = memByte s.hank.mem a)

/-- No command touches the queue; the fuses change only where a life-cycle burn ends or a boot completes its SVN fuse (R479, R483); the tally
starts anew only with the always-on rail (R583). -/
def Obligations.QueueFusesAndTallyFrame : Prop :=
  ∀ (i : Instr) (s t : State), exec i s = .next t →
    t.pending = s.pending
    ∧ (i ≠ .lcBurnDone → (∀ h f, i ≠ .bootStageDone h f) → t.fuse = s.fuse)
    ∧ (i ≠ .alwaysOnRailUp → t.tally = s.tally)

/-! ## Tiles -/

/-- A tile that can issue its entry e at index i, which raises no op fault, puts it into its list of issued ops as one not yet started,
with the next op number, and then does what it can without a further event (R110, R111). A REDUCE needs that no mate of its command has
stopped (R129), a SIGNAL that its Cleat is the partition's (R135). The scratchpad and the accumulators are as before.
A FENCE is issued with its scope recorded at the tile, which stops the issue of every later op (R250). -/
def Obligations.IssuedOpsEnterTheTilesList : Prop :=
  ( ∀ (s : State) (t : Fin 96) (i : Nat) (e : Entry), s.hasTile t.val = true →
      let x := s.tile t.val
      s.issueFault t.val i e = 0 →
      let issues (r : Res) : Prop :=
        ∃ (y : Tile) (o : IssuedOp), r = .next ((s.setTile t.val y).tileGo t.val)
          ∧ y.issued = x.issued ++ [o] ∧ o.idx = i ∧ o.seq = x.nextSeq ∧ o.entry = e ∧ o.started = false
          ∧ y.nextSeq = x.nextSeq + 1 ∧ y.cur = none ∧ y.spad = x.spad ∧ y.acc = x.acc ∧ y.guard = x.guard
      (s.ready t.val opNop = some (i, e) → issues (exec (.nop t) s))
      ∧ (s.ready t.val opLoad = some (i, e) → issues (exec (.load t) s))
      ∧ (s.ready t.val opStore = some (i, e) → issues (exec (.store t false) s))
      ∧ (s.ready t.val opGather = some (i, e) → issues (exec (.gather t) s))
      ∧ (s.ready t.val opMma = some (i, e) → issues (exec (.mma t false) s))
      ∧ (s.ready t.val opVec = some (i, e) → issues (exec (.vec t false) s))
      ∧ (s.ready t.val opQuant = some (i, e) → issues (exec (.quant t false) s))
      ∧ (s.ready t.val opReduce = some (i, e) → (∀ m ∈ mates t.val, (s.tile m).stopped = false) → issues (exec (.reduce t) s))
      ∧ (s.ready t.val opAtom = some (i, e) → issues (exec (.atom t) s))
      ∧ (s.ready t.val opSignal = some (i, e) → s.cleatOwner (eCleat e).toNat = some x.part → issues (exec (.signal t) s))
      ∧ (s.ready t.val opPut = some (i, e) → issues (exec (.put t) s)))
  ∧ ( ∀ (s : State) (t : Fin 96) (i : Nat) (e : Entry), s.hasTile t.val = true → s.ready t.val opFence = some (i, e) →
        let x := s.tile t.val
        s.issueFault t.val i e = 0 →
        (∃ (y : Tile) (v : State), exec (.fence t) s = .next ((v.setTile t.val y).tileGo t.val)
            ∧ y.fence = some (BitVec.ofNat 2 (Entry.bits e 17 16)) ∧ y.nextSeq = x.nextSeq + 1 ∧ y.spad = x.spad ∧ y.acc = x.acc
            ∧ State.onlyIn [.tiles] s v)
        ∧ ∀ (v : State), (v.tile t.val).fence.isSome = true → v.canIssue t.val = false)

/-- LOOP with COUNT 0 skips its body; with another COUNT the tile enters the body with pass 0; END with no op outstanding and no repeat due ends
the tile's list (R113, R131, R132).
WAIT completes at once where the Cleat, compared unsigned, is at least TARGET, and else the tile waits; SKIP passes COUNT entries or none by
the Cleat's value and CMP (R131, R133, R134). -/
def Obligations.ListControlMovesTheTile : Prop :=
  ( ∀ (s : State) (t : Fin 96) (i : Nat) (e : Entry), s.hasTile t.val = true →
      let x := s.tile t.val
      (s.ready t.val opLoop = some (i, e) → x.loops = [] → Entry.bits e 41 32 ≠ 0 → i + 1 + Entry.bits e 41 32 ≤ 65536 →
        Entry.bits e 31 16 = 0 → exec (.loop t) s = .next (s.passOp t.val (i, e) (i + 1 + Entry.bits e 41 32)))
      ∧ (s.ready t.val opLoop = some (i, e) → x.loops = [] → Entry.bits e 41 32 ≠ 0 → i + 1 + Entry.bits e 41 32 ≤ 65536 →
        Entry.bits e 31 16 ≠ 0 → (x.issued.any fun o => o.seg == x.seg.no) = true →
        ∃ y : Tile, exec (.loop t) s = .next ((s.setTile t.val y).tileGo t.val) ∧ y.idx = i + 1 ∧ y.cur = none
          ∧ y.loops = [⟨i, Entry.bits e 31 16, Entry.bits e 41 32, Entry.bits e 42 42, Entry.bits e 59 43, 0⟩]
          ∧ y.issued = x.issued ∧ y.spad = x.spad)
      ∧ (s.ready t.val opEnd = some (i, e) → x.issued = [] → x.seg.again = false → x.policy = 0 →
        ∃ u, exec (.endOp t) s = .next u ∧ (u.tile t.val).done = true ∧ (u.tile t.val).cur = none ∧ (u.tile t.val).spad = x.spad
          ∧ (u.tile t.val).stopped = x.stopped))
  ∧ ( ∀ (s : State) (t : Fin 96) (i : Nat) (e : Entry), s.hasTile t.val = true → s.cleatFault t.val (eCleat e) = 0 →
        let v := s.cleat (eCleat e).toNat
        (s.ready t.val opWait = some (i, e) → (eTarget e).toNat ≤ v.val.toNat →
          ∃ x : State, exec (.wait t) s = .next (x.passOp t.val (i, e) (i + 1)) ∧ x.tiles = s.tiles)
        ∧ (s.ready t.val opWait = some (i, e) → v.val.toNat < (eTarget e).toNat →
          ∃ (x : State) (w : TWait), exec (.wait t) s = .next (x.passOp t.val (i, e) (i + 1)) ∧ (x.tile t.val).waiting = some w ∧ w.cleat = eCleat e
            ∧ w.target = eTarget e ∧ w.tmo = BitVec.ofNat 16 (Entry.bits e 95 80) ∧ w.since = s.tally)
        ∧ (s.ready t.val opSkip = some (i, e) → (s.tile t.val).loops = [] → Entry.bits e 92 81 ≠ 0 →
          s.splits t.val (i + 1 + Entry.bits e 92 81) (i + 1) 4096 = false →
          ∃ x : State, exec (.skip t) s = .next (x.passOp t.val (i, e)
              (if decide ((eTarget e).toNat ≤ v.val.toNat) = !Entry.flag e 80 then i + 1 + Entry.bits e 92 81 else i + 1))
            ∧ x.tiles = s.tiles))

/-- A WAIT, SIGNAL or SKIP that names a Cleat not owned by the command's partition raises op fault CLEAT_OWNER, code 9 (R135): the tile stops
with nothing issued or waiting, and its memories stay. For SKIP, whose COUNT 0 is another fault, COUNT is not 0. -/
def Obligations.ForeignCleatStopsTheTile : Prop :=
  ∀ (s : State) (t : Fin 96) (i : Nat) (e : Entry), s.hasTile t.val = true → s.cleatOwner (eCleat e).toNat ≠ some (s.tile t.val).part →
    let faults (r : Res) : Prop :=
      ∃ u, r = .next u ∧ u = s.tileFault t.val 0x09 i 0 ∧ (u.tile t.val).stopped = true ∧ (u.tile t.val).done = true
        ∧ (u.tile t.val).issued = [] ∧ (u.tile t.val).waiting = none ∧ (u.tile t.val).spad = (s.tile t.val).spad
    (s.ready t.val opWait = some (i, e) → faults (exec (.wait t) s))
    ∧ (s.ready t.val opSignal = some (i, e) → faults (exec (.signal t) s))
    ∧ (s.ready t.val opSkip = some (i, e) → Entry.bits e 92 81 ≠ 0 → faults (exec (.skip t) s))

/-- An op whose work is done leaves the list; an MMA, a VEC or a QUANT brings its result with it, and any other op leaves the scratchpad and
the accumulators as they are (R111). -/
def Obligations.CompletedOpLeavesTheList : Prop :=
  ∀ (s : State) (t : Fin 96) (seq waits : Nat), s.hasTile t.val = true →
    let x := s.tile t.val
    let c := Instr.opComplete t seq waits
    (x.issued.find? (fun p => p.seq == seq) = none → exec c s = .next s)
    ∧ ∀ o, x.issued.find? (fun p => p.seq == seq) = some o → x.runs = true →
      (o.started = false → s.opDone t.val o = false)
      ∧ (o.started = true → Entry.opcode o.entry ∉ [opLoad, opGather, opStore, opFence, opReduce, opPut] → s.opDone t.val o = true)
      ∧ (o.started = true → Entry.opcode o.entry = opReduce → s.opDone t.val o = x.redDone)
      ∧ (s.opDone t.val o = false → exec c s = .next s)
      ∧ (s.opDone t.val o = true →
        exec c s = .next (s.completeOp t.val o waits)
        ∧ ∃ (y : Tile) (v : State), s.completeOp t.val o waits = v.tileGo t.val
          ∧ y.issued = x.issued.filter (fun p => p.seq != o.seq)
          ∧ y.spad = (x.compute o ((s.freeCtr + 1) * 2 ^ 40)).1.spad ∧ y.acc = (x.compute o ((s.freeCtr + 1) * 2 ^ 40)).1.acc
          ∧ (Entry.opcode o.entry ∉ [opMma, opVec, opQuant] → y.spad = x.spad ∧ y.acc = x.acc)
          ∧ (y.segEnd = false → o.seg = y.seg.no → Entry.opcode o.entry ≠ opQuant → v = ((s.setTile t.val y).bump).countOp t.val o waits))

/-- The group port combines the four sources of a REDUCE of FUNC 0 as (place 0 + place 1) + (place 2 + place 3), rounding each sum to FP32
nearest even (R129); the fourth source brings the result, and a source before it leaves the scratchpads as they are. -/
def Obligations.ReduceCombinesTheGroup : Prop :=
  (∀ a b c d : BitVec 32, reduceElem 0 a b c d = f32Add (f32Add a b) (f32Add c d))
  ∧ ∀ (s : State) (t : Fin 96) (k : Nat × Nat), s.hasTile t.val = true → reduceKey (s.tile t.val) = some k →
      (s.tile t.val).redHere = false → (s.tile t.val).redDone = false →
      let v := s.setTile t.val { s.tile t.val with redHere := true }
      ((∀ m ∈ mates t.val, (v.tile m).redHere = true ∧ reduceKey (v.tile m) = some k) →
        exec (.reduceSourceArrive t) s = .next (v.reduceGroup (t.val / 4)))
      ∧ ((∃ m ∈ mates t.val, (v.tile m).redHere = false ∨ reduceKey (v.tile m) ≠ some k) → exec (.reduceSourceArrive t) s = .next v)

/-- A tile takes the dispatch record it has received: it starts at entry 0 with no op issued, its scratchpad, accumulators and op numbers kept,
and reads its descriptors (R110). A WAIT whose TIMEOUT has run ends as op fault WAIT_TIMEOUT (R134).
A scratchpad read that meets an uncorrectable error, found now or left by an earlier read in a unit that the op reads, stops the tile with
op fault SP_ECC, code 0x11; with the tile's second such fault in 2^30 counts of the tally its group is withdrawn (R138, R538). -/
def Obligations.TileEventsTakeTheirEffect : Prop :=
  ( ∀ (s : State) (t : Fin 96), s.hasTile t.val = true →
      let x := s.tile t.val
      (∀ d, x.inbox = some d →
        ∃ y : Tile, exec (.dispatchRecord t) s = .next ((s.setTile t.val y).tileNext t.val) ∧ y.disp = some d ∧ y.inbox = none ∧ y.idx = 0
          ∧ y.issued = [] ∧ y.done = false ∧ y.stopped = false ∧ y.spad = x.spad ∧ y.acc = x.acc ∧ y.nextSeq = x.nextSeq)
      ∧ (∀ w, x.waiting = some w → w.tmo ≠ 0 →
        ∃ v : State, exec (.waitTimeout t) s = .next (v.tileFault t.val 0x0E w.idx 0) ∧ v.tiles = s.tiles)
      ∧ (x.stopped = true → exec (.dispatchStop t) s = .next (s.stopDispatch x.cmd)))
  ∧ ( ∀ (s : State) (t : Fin 96) (i : Nat) (e : Entry) (op : Nat) (c : Instr), s.hasTile t.val = true →
        s.ready t.val op = some (i, e) →
        let faults : Prop :=
          ∃ v : State, (v.tile t.val).stopped = true ∧ (v.tile t.val).done = true ∧ (v.tile t.val).issued = []
            ∧ (v.tile t.val).spad = (s.tile t.val).spad
            ∧ exec c s = .next (if 2 ≤ (s.window 0x40000000 (s.tile t.val).eccs ++ [s.tally]).length then v.withdraw (t.val / 4) else v)
        ((c, op) ∈ [(Instr.store t true, opStore), (.mma t true, opMma), (.vec t true, opVec), (.quant t true, opQuant)] →
          (s.readRanges t.val (pingOf (s.tile t.val).loops e) e ≠ [] ∨ s.issueFault t.val i e = 0x11) → faults)
        ∧ ((c, op) ∈ [(Instr.store t false, opStore), (.gather t, opGather), (.mma t false, opMma), (.vec t false, opVec), (.quant t false, opQuant),
            (.atom t, opAtom), (.put t, opPut)] → s.issueFault t.val i e = 0x11 → faults)
        ∧ ((c, op) = (Instr.reduce t, opReduce) → (∀ m ∈ mates t.val, (s.tile m).stopped = false) → s.issueFault t.val i e = 0x11 → faults))

/-! ## Hank memory -/

/-- A request that a channel serves stores only in the 64 bytes of its line, and in a sector of the line's mirror where it reads that one
instead: every other byte of memory reads as before. A patrol read stores at most in its own sector and in that sector's twin, and a zero-fill
job in its own granule (R157, R158, R169, R170, R174, R459). -/
def Obligations.ChannelRowsStoreInTheirLine : Prop :=
  (∀ (p : Pkt) (phys : List Dec) (s t : State) (a : Nat),
      (exec (.memRd p phys) s = .next t ∨ exec (.memWr p phys) s = .next t ∨ exec (.atomM p phys) s = .next t ∨ exec (.mfill p phys) s = .next t
        ∨ exec (.mwb p phys) s = .next t ∨ exec (.mpoison p) s = .next t) →
      a / 64 ≠ p.addr.toNat / 64 → (∀ i, i < 2 → s.twin (Pkt.sec p i) false ≠ some (a / 32)) →
      memByte t.hank.mem a = memByte s.hank.mem a)
  ∧ (∀ (p : Pkt) (s t : State) (a : Nat), exec (.mpoison p) s = .next t → a / 64 ≠ p.addr.toNat / 64 →
      memByte t.hank.mem a = memByte s.hank.mem a)
  ∧ (∀ (ch : Fin 1024) (sec : Nat) (phys : List Dec) (s t : State) (a : Nat), exec (.patrolRead ch sec phys) s = .next t →
      a / 32 ≠ sec → s.twin sec true ≠ some (a / 32) → memByte t.hank.mem a = memByte s.hank.mem a)
  ∧ (∀ (j : ZJob) (rest : List ZJob) (s t : State) (a : Nat), s.hank.zfill = j :: rest → exec .zfillGranuleDone s = .next t →
      a / 0x10000000 ≠ j.granule → memByte t.hank.mem a = memByte s.hank.mem a)

/-- A full write of a sector under a loaded key reads back as written, its poison as given; the bytes of every other sector are as before
(R157, R166).
A masked write to a poisoned sector leaves the sector poisoned; a full write clears the poison (R157). -/
def Obligations.FullWriteReadsBack : Prop :=
  ( ∀ (s : State) (sec : Nat) (d : BitVec 256) (poison : Bool), s.granKey (sec / 0x800000) ≠ 0 →
      (s.writeSec sec d fullMask poison).readSec sec = (d, poison)
      ∧ ∀ a, a / 32 ≠ sec → memByte (s.writeSec sec d fullMask poison).hank.mem a = memByte s.hank.mem a)
  ∧ ( ∀ (s : State) (sec : Nat) (d : BitVec 256) (mask : Nat), (s.markOf sec).poison = true →
        (mask ≠ fullMask → ((s.writeSec sec d mask false).markOf sec).poison = true)
        ∧ ((s.writeSec sec d fullMask false).markOf sec).poison = false)

/-- A request whose turn it is at its controller, and which is served, leaves the mesh or its hold, and its answer enters it: MData with what the sectors hold, or MAck once the write
is done (R158, R201, R204, R236).
The controllers discard an MWb or an MPoison of a granule whose key slot is erased: it is answered, and memory is as before (R463). -/
def Obligations.ServedRequestsAreAnswered : Prop :=
  ( ∀ (s : State) (p : Pkt) (phys : List Dec), s.atCtl p = true →
      let u := s.takeCtl p
      (p.op = .memRd → u.serves p = true → (s.fbit R.COH_CONF_COMBINE 0 0 = false ∨ ∀ q ∈ u.fab.net, Pkt.joins p q = false) →
        ∃ t, exec (.memRd p phys) s = .next t ∧ ∃ q ∈ t.fab.net, q.op = .mData ∧ q.dst = p.via.getD p.src ∧ q.tag = p.tag ∧ q.addr = p.addr
          ∧ q.data = (u.lineRead p.line p.sect phys).1 ∧ q.poison = (u.lineRead p.line p.sect phys).2.1)
      ∧ (p.op = .memRd → u.serves p = true → s.fbit R.COH_CONF_COMBINE 0 0 = true → (∃ q ∈ u.fab.net, Pkt.joins p q = true) →
        ∃ t, exec (.memRd p phys) s = .next t ∧ State.onlyIn [.fab, .hank] s t ∧ t.fab.net.length = u.fab.net.length)
      ∧ (p.op = .memWr → u.serves p = true →
        ∃ t, exec (.memWr p phys) s = .next t ∧ (∃ q ∈ t.fab.net, q.op = .mAck ∧ q.dst = p.via.getD p.src ∧ q.tag = p.tag)
          ∧ t.hank.mem = ((u.endJoin p).lineWrite p phys).2.hank.mem)
      ∧ (p.op = .atomM → u.serves p = true →
        let i := Pkt.atomSec p
        let r := (u.endJoin { p with sect := mk2 (i == 0) (i == 1) }).secRead (Pkt.sec p i) phys
        ∃ t, exec (.atomM p phys) s = .next t ∧ (∃ q ∈ t.fab.net, q.op = .mAck ∧ q.dst = p.via.getD p.src ∧ q.tag = p.tag)
          ∧ (r.bad = false → t.hank.mem = (r.st.writeSec (Pkt.sec p i) (Pkt.atomNew p r.data) fullMask false).hank.mem))
      ∧ (p.op = .mFill → u.servesHome p = true →
        ∃ t, exec (.mfill p phys) s = .next t ∧ ∃ q ∈ t.fab.net, q.op = .mData ∧ q.dst = p.via.getD p.src
          ∧ q.data = (u.lineRead p.line p.sect phys).1 ∧ q.poison = (u.lineRead p.line p.sect phys).2.1)
      ∧ (p.op = .mWb → u.servesHome p = true → s.granKey (granOf p.addr.toNat) ≠ 0 →
        ∃ t, exec (.mwb p phys) s = .next t ∧ (∃ q ∈ t.fab.net, q.op = .mAck ∧ q.dst = p.via.getD p.src)
          ∧ t.hank.mem = ((u.endJoin p).lineWrite p phys).2.hank.mem)
      ∧ (p.op = .mPoison → (if p.src.kind = .lanyard then u.serves p = true else u.servesHome p = true ∧ s.granKey (granOf p.addr.toNat) ≠ 0) →
        ∃ t, exec (.mpoison p) s = .next t ∧ (∃ q ∈ t.fab.net, q.op = .mAck ∧ q.dst = p.via.getD p.src ∧ q.poison = p.sect)
          ∧ ∀ i, i < 2 → bit2 p.sect i = true → (t.hank.markOf (Pkt.sec p i)).poison = true))
  ∧ ( ∀ (s : State) (p : Pkt) (phys : List Dec), s.atCtl p = true → s.granKey (granOf p.addr.toNat) = 0 → (s.takeCtl p).servesHome p = true →
        (p.op = .mWb → ∃ t, exec (.mwb p phys) s = .next t ∧ State.onlyIn [.fab, .hank] s t ∧ ∃ q ∈ t.fab.net, q.op = .mAck ∧ q.dst = p.via.getD p.src)
        ∧ (p.op = .mPoison → p.src.kind ≠ .lanyard →
          ∃ t, exec (.mpoison p) s = .next t ∧ State.onlyIn [.fab, .hank] s t ∧ ∃ q ∈ t.fab.net, q.op = .mAck ∧ q.dst = p.via.getD p.src))

/-- The oldest zero-fill job ends: its granule holds zeroes, encrypted under the key slot that its record names (R169); a patrol read moves its
channel's place; a recalibration holds no state but its count (R541); retirement goes on by one chunk, which now lies elsewhere (R179).
Every 2^30 counts each bucket above zero loses 1, and nothing else changes (R171).
The regime of a stack follows its highest die temperature: MEM_STKTEMP shows it, with the refresh interval and the limit of R183, whose bounds
are crossed upward at 85, 95, 105 and 110 degrees. Here for a stack in the first regime. -/
def Obligations.HankEventsTakeTheirEffect : Prop :=
  ( (∀ (s : State) (j : ZJob) (rest : List ZJob), s.hank.zfill = j :: rest →
      ∃ t, exec .zfillGranuleDone s = .next t ∧ t.hank.zfill = rest
        ∧ ∀ a, a / 0x10000000 = j.granule → memByte t.hank.mem a = 0)
    ∧ (∀ (s : State) (ch : Fin 1024) (sec : Nat) (phys : List Dec), ch.val < s.nChans → s.memUp (chanHalf ch.val) = true →
        s.patrols ch.val sec = true → (s.srun (ch.val / 128)).march = false →
        s.fget R.MEM_STKTEMP_LIMIT (ch.val / 128) 0 ≠ 3 →
        ∃ t, exec (.patrolRead ch sec phys) s = .next t ∧ tget (fun _ => 0) t.hank.patrol ch.val = sec
          ∧ t.hank.mem = (s.secReadBy (s.twin sec true) sec phys).st.hank.mem)
    ∧ (∀ (s : State) (ch : Fin 1024), ch.val < s.nChans →
        ∃ t, exec (.phyRecalibrate ch) s = .next t ∧ t.hank = { s.hank with recals := s.hank.recals + 1 } ∧ State.onlyIn [.hank] s t)
    ∧ (∀ (s : State) (reads : List (Nat × List Dec)) (ch b c : Nat) (rest : List Nat), s.hank.moving = some (ch, b :: c :: rest) → s.memUp .west = true →
        (s.hasHalf .east = false ∨ s.memUp .east = true) →
        ∃ t v, exec (.retireChunkDone reads) s = .next t ∧ t.hank.moving = some (ch, c :: rest)
          ∧ v = s.copyReads (s.keyAt (ch * 384 + b)) ch reads ∧ t.hank.spread = (v.switchChunk ch b).hank.spread
          ∧ t.hank.mem = v.hank.mem))
  ∧ ( ∀ s : State, ∃ t, exec .bucketDecay s = .next t ∧ State.onlyIn [.regs] s t
        ∧ ∀ ch, ch < s.nChans → t.fget R.MEM_CHST_BUCKET (ch / 128) (ch % 128)
            = (if s.fget R.MEM_CHST_BUCKET (ch / 128) (ch % 128) = 0 then 0
               else (s.fget R.MEM_CHST_BUCKET (ch / 128) (ch % 128) - 1) % 65536))
  ∧ ( ∀ (s : State) (k : Fin 8) (temp : BitVec 8), k.val < s.nStacks →
        s.fget R.MEM_STKTEMP_LIMIT k.val 0 = 0 → s.fget R.MEM_STKTEMP_REFRESH k.val 0 = 0 →
        ∃ t, exec (.thermalRegimeChange k temp) s = .next t ∧ t.fget R.MEM_STKTEMP_T k.val 0 = temp.toNat
          ∧ t.fget R.MEM_STKTEMP_REFRESH k.val 0 = (if 95 < temp.toNat then 2 else if 85 < temp.toNat then 1 else 0)
          ∧ t.fget R.MEM_STKTEMP_LIMIT k.val 0 = (if 110 < temp.toNat then 3 else if 105 < temp.toNat then 2 else if 95 < temp.toNat then 1 else 0))

/-- A MEM_MARGIN_CTL write that reaches its register starts a run that nothing refuses, or shows its refusal with its reason; a run's end
brings its counts (R187, R188, R191).
A MEM_SCOPEn write that reaches its register stores each field whose block has no owned granule, but for the value 3, and leaves the field of
a block with one (R161). Here for words that change one field at most. -/
def Obligations.MarginRunsAndScopeFields : Prop :=
  ( (∀ (s : State) (k : Fin 8) (path : Path) (w : W32), s.pathReaches path .stack k.val 0x204 = true → w.toNat.testBit 31 = true →
      let v := s.marginFields k.val w
      (v.marginRefusal k.val w ≠ 0 →
        ∃ t, exec (.marginStart k path w) s = .next t ∧ t.fget R.MEM_MARGIN_STAT_REFUSED k.val 0 = 1 ∧ State.onlyIn [.regs] s t)
      ∧ (v.marginRefusal k.val w = 0 → bitsOf w.toNat 9 7 ≠ 4 →
        ∃ t, exec (.marginStart k path w) s = .next t ∧ t.fget R.MEM_MARGIN_STAT_BUSY k.val 0 = 1 ∧ State.onlyIn [.regs, .hank] s t)
      ∧ (v.marginRefusal k.val w = 0 → bitsOf w.toNat 9 7 = 4 →
        ∃ u : State, exec (.marginStart k path w) s = .next (u.askRun k.val 40) ∧ u.fget R.MEM_MARGIN_STAT_BUSY k.val 0 = 1
          ∧ State.onlyIn [.regs, .hank] s u))
    ∧ (∀ (s : State) (k : Fin 8) (errs : BitVec 24) (worst : BitVec 3), k.val < s.nStacks → s.fbit R.MEM_MARGIN_STAT_BUSY k.val 0 = true →
        (s.srun k.val).marginWait = false →
        ∃ v : State, exec (.marginDone k errs worst) s = .next (v.endMargin k.val) ∧ State.onlyIn [.hank] s v
          ∧ ∀ m, (s.srun k.val).margin = some m →
              ((v.srun k.val).margin).map MarginRun.errs = some (m.errs + errs.toNat)
              ∧ ((v.srun k.val).margin).map MarginRun.worst = some (max m.worst worst.toNat)))
  ∧ ( ∀ (s : State) (n : Fin 24) (m : Fin 16) (path : Path) (w : W32), s.pathReaches path .mem 0 (0x040 + 4 * n.val) = true →
        let f (j : Nat) : Fld := { R.MEM_SCOPE_0 with hi := 2 * j + 1, lo := 2 * j }
        let v (j : Nat) : Nat := bitsOf w.toNat (2 * j + 1) (2 * j)
        (∀ j, j < 16 → j ≠ m.val → v j = s.fget (f j) 0 n.val) → v m.val ≠ s.fget (f m.val) 0 n.val →
        (v m.val ≠ 3 → s.blockOwned (16 * n.val + m.val) = false →
          ∃ t, exec (.memScopeWrite n path w) s = .next t ∧ t.fget (f m.val) 0 n.val = v m.val)
        ∧ (v m.val ≠ 3 → s.blockOwned (16 * n.val + m.val) = true →
          ∃ t, exec (.memScopeWrite n path w) s = .next t ∧ t.fget (f m.val) 0 n.val = s.fget (f m.val) 0 n.val)
        ∧ (v m.val = 3 → exec (.memScopeWrite n path w) s = .next s))

/-! ## Fabric and coherence -/

/-- Reads of a line that the home's array holds whole, with no snoop to send and no error to meet: the rows C and D of R219. -/
def Obligations.HomeServesReadsOfHeldLines : Prop :=
  ∀ (s : State) (p : Pkt), s.homeTakes p = true →
    let n := p.line
    let slice := s.sliceOf n
    let l := s.line n
    (l.st = .c ∨ l.st = .d) → l.valid = 3 →
    let answers (c : Instr) (op : Op) (g : BitVec 2) (ok : State → Prop) : Prop :=
      ∃ v : State, exec c s = .next (v.checkSlice slice).unbindAll ∧ ok v
        ∧ ∃ q ∈ v.fab.net, q.op = op ∧ q.dst = p.via.getD p.src ∧ q.tag = p.tag ∧ q.grant = g ∧ q.status = 0 ∧ (op = .compData → q.data = l.data)
    (p.op = .rdShared → (p.src.kind = .site → l.alone = false) →
      answers (.rdShared p 0) .compData 1 fun v => (v.line n).st = l.st ∧ (v.line n).data = l.data
        ∧ (v.line n).sites = (l.setSharer p.src true).sites ∧ (v.line n).groups = (l.setSharer p.src true).groups
        ∧ (v.line n).proxy = (l.setSharer p.src true).proxy)
    ∧ (p.op = .rdShared → p.src.kind = .site → l.alone = true →
      answers (.rdShared p 0) .compData (if l.st = .c then 2 else 3) fun v => (v.line n).st = .h ∧ (v.line n).holder = p.src.num)
    ∧ (p.op = .rdOnce →
      answers (.rdOnce p 0) .compData 0 fun v => (v.line n).st = l.st ∧ (v.line n).data = l.data ∧ (v.line n).sites = l.sites
        ∧ (v.line n).groups = l.groups ∧ (v.line n).proxy = l.proxy ∧ (v.line n).txn = none)
    ∧ (p.op = .rdUnique → l.alone = true →
      answers (.rdUnique p) .compData (if l.st = .c then 2 else 3) fun v => (v.line n).st = .h ∧ (v.line n).holder = p.src.num
        ∧ (v.line n).alone = true)
    ∧ (p.op = .upgrade → l.shares p.src = true → (l.copies slice).filter (fun a => !(a == p.src)) = [] →
      answers (.upgrade p) .comp (if l.st = .c then 2 else 3) fun v => (v.line n).st = .h ∧ (v.line n).holder = p.src.num
        ∧ (v.line n).alone = true)

/-- A row of R219 that snoops keeps its line busy with the agents whose answers it awaits, and sends each a snoop (R219, R220). -/
def Obligations.SnoopingRowsKeepTheLineBusy : Prop :=
  ∀ (s : State) (p : Pkt) (c : Instr), s.homeTakes p = true → (s.line p.line).st ≠ .i →
    (c, p.op) ∈ [(Instr.rdShared p 0, Op.rdShared), (.rdUnique p, .rdUnique), (.upgrade p, .upgrade), (.rdOnce p 0, .rdOnce),
      (.wrThrough p, .wrThrough), (.atomH p, .atomH)] →
    let n := p.line
    let slice := s.sliceOf n
    let sn := rowSnoops (s.line n) slice p
    sn.2 ≠ [] →
    ∃ (v : State) (t : Txn), exec c s = .next (v.checkSlice slice).unbindAll ∧ (v.line n).txn = some t ∧ t.phase = .collect ∧ t.req = p
      ∧ t.snoops = sn.2 ∧ (v.line n).st = (s.line n).st
      ∧ ∀ a ∈ sn.2, ∃ q ∈ v.fab.net, q.op = sn.1 ∧ q.dst = a ∧ q.addr = lineDpa n

/-- Writes to a held line with no copies merge into it, which becomes D; a WrBack or an Evict of the holder or of a sharer, on a line that is not
busy, ends its copy, and is held on a busy line; each is answered (R219, R220, R224). -/
def Obligations.HomeServesWritesAndWriteBacks : Prop :=
  (∀ (s : State) (p : Pkt), s.homeTakes p = true →
    let n := p.line
    let l := s.line n
    (l.st = .c ∨ l.st = .d) → l.alone = true → l.valid = 3 →
    (p.op = .wrThrough → p.aop = 0 → p.masked = false →
      ∃ v : State, exec (.wrThrough p) s = .next (v.checkSlice (s.sliceOf n)).unbindAll ∧ (v.line n).st = .d ∧ (v.line n).txn = none
        ∧ (∀ i, i < 2 → bit2 p.sect i = true → secOf (v.line n).data i = secOf p.data i ∧ bit2 (v.line n).dirty i = true)
        ∧ ∃ q ∈ v.fab.net, q.op = .comp ∧ q.dst = p.via.getD p.src ∧ q.tag = p.tag ∧ q.status = 0)
    ∧ (p.op = .atomH → bit2 l.poison (Pkt.atomSec p) = false →
      ∃ v : State, exec (.atomH p) s = .next (v.checkSlice (s.sliceOf n)).unbindAll ∧ (v.line n).st = .d ∧ (v.line n).txn = none
        ∧ secOf (v.line n).data (Pkt.atomSec p) = Pkt.atomNew p (secOf l.data (Pkt.atomSec p))
        ∧ ∃ q ∈ v.fab.net, q.op = .compData ∧ q.dst = p.via.getD p.src ∧ q.tag = p.tag ∧ q.status = 0))
  ∧ (∀ (s : State) (p : Pkt) (c : Instr), s.arrives p = true → p.dst.kind = .home → s.backRoom p = true →
      (s.crosses p.src (homeAgent (s.sliceOf p.line)) = false ∨ s.spliceOpen = true) → p.badField = false →
      (p.op = .evict ∧ p.src.kind = .proxy ∨ s.ownCheck p.src p.ctx p.op.writes p.addr.toNat = 0) →
      (c, p.op) ∈ [(Instr.wrBack p, Op.wrBack), (.evict p, .evict)] →
      let n := p.line
      let l := s.line n
      ∃ v : State, exec c s = .next v.unbindAll
        ∧ (l.txn.isSome = true → (v.line n).held = l.held ++ [p] ∧ (v.line n).st = l.st ∧ (v.line n).data = l.data)
        ∧ (l.txn = none → (∃ q ∈ v.fab.net, q.op = .comp ∧ q.dst = p.via.getD p.src ∧ q.tag = p.tag ∧ q.status = 0)
          ∧ (l.st = .h → p.src = ⟨.site, l.holder⟩ → p.op = .wrBack → (v.line n).st = .d ∧ (v.line n).data = p.data)
          ∧ (l.st = .h → p.src = ⟨.site, l.holder⟩ → p.op = .evict → (v.line n).st = .c ∧ (v.line n).data = l.data)
          ∧ (l.st ≠ .h → p.op = .evict → l.shares p.src = true → v.line n = l.setSharer p.src false)
          ∧ ((l.st = .h → p.src ≠ ⟨.site, l.holder⟩) → l.shares p.src = false → v.line n = l)))

/-- Snooped agents answer at once: a tile drops the line from its read cache and answers without data; a site whose attach point can take the snoop
answers by its state, with the data of a line in M or in its writeback buffer, and keeps S only after a SnpShared (R221, R222, R288). -/
def Obligations.SnoopedAgentsAnswer : Prop :=
  ∀ (s : State) (p : Pkt) (c : Instr), s.arrives p = true →
    (c, p.op) ∈ [(Instr.snpShared p, Op.snpShared), (.snpInv p, .snpInv), (.snpRdNA p, .snpRdNA)] →
    let k := p.dst.num
    let n := p.line
    let told (op : Op) (g : BitVec 2) (v : State) : Prop :=
      exec c s = .next v.unbindAll ∧ ∃ q ∈ v.fab.net, q.op = op ∧ q.dst = p.via.getD p.src ∧ q.tag = p.tag ∧ q.grant = g
    (p.dst.kind = .tile → ∃ v, told .snpResp 0 v ∧ tget (fun _ => none) (v.tile k).rcache n = none)
    ∧ (p.dst.kind = .site → s.apReady k p.ap (.siteSnoop k p) = true →
      (s.siteLine k n = .i → ∃ v, told .snpResp 0 v ∧ v.siteLine k n = .i)
      ∧ (∀ z, s.siteLine k n = .s z → p.op = .snpInv → ∃ v, told .snpResp 0 v ∧ v.siteLine k n = .i)
      ∧ (∀ z, s.siteLine k n = .s z → p.op ≠ .snpInv → ∃ v, told .snpResp 1 v ∧ v.siteLine k n = .s z)
      ∧ (∀ z, s.siteLine k n = .m z →
          ∃ v, told .snpRespData (if p.op = .snpShared then 1 else if p.op = .snpRdNA then 3 else 0) v
            ∧ v.siteLine k n = (if p.op = .snpShared then .s (z &&& Config.sitePz s.freeCtr)
                else if p.op = .snpRdNA then .m (z &&& Config.sitePz s.freeCtr) else .i))
      ∧ (∀ d z, s.siteLine k n = .wb d z →
          ∃ v : State, exec c s = .next v.unbindAll
            ∧ ∃ q ∈ v.fab.net, q.op = .snpRespData ∧ q.dst = p.via.getD p.src ∧ q.grant = 0 ∧ q.data = d ∧ q.poison = z))
    ∧ (p.dst.kind = .site → s.apReady k p.ap (.siteSnoop k p) = false → exec c s = .next s)

/-- A home takes the answers of the row that keeps its line busy, fills the sectors that it awaits, and goes on as R220 and R228 have it once the
GrantAck arrives and the hitch time has passed.
Where a snoop or a fill stays unanswered the row goes on without it, with STATUS 4, and the event is set (R238, R239). -/
def Obligations.BusyLinesTakeTheirAnswers : Prop :=
  ( ∀ (s : State) (p : Pkt) (t : Txn) (a : Agent) (rest : List Agent), s.arrives p = true → p.dst.kind = .home → (s.line p.line).txn = some t →
      let n := p.line
      let l := s.line n
      let u := s.takePkt p
      (p.op = .snpResp → t.phase = .collect → t.id % 65536 = p.tag → t.snoops.erase p.src = a :: rest → p.src ∈ t.snoops →
        ∃ v : State, exec (.snpResp p) s = .next v.unbindAll ∧ ∃ x, (v.line n).txn = some x ∧ x.snoops = a :: rest ∧ x.gotData = t.gotData)
      ∧ (p.op = .snpRespData → t.phase = .collect → t.id % 65536 = p.tag → t.snoops.erase p.src = a :: rest → p.src ∈ t.snoops →
        ∃ v : State, exec (.snpRespData p) s = .next v.unbindAll
          ∧ ∃ x, (v.line n).txn = some x ∧ x.snoops = a :: rest ∧ x.gotData = true ∧ x.data = p.data)
      ∧ (p.op = .mData → t.kind = .request → t.phase = .collect → t.id % 65536 = p.tag → t.fills ≠ 0 → p.status = 0 → t.snoops ≠ [] →
        ∃ v : State, exec (.mdata p) s = .next v.unbindAll ∧ (v.line n).valid = l.valid ||| t.fills
          ∧ (∀ i, i < 2 → bit2 t.fills i = true → secOf (v.line n).data i = secOf p.data i)
          ∧ ∃ x, (v.line n).txn = some x ∧ x.fills = 0)
      ∧ (p.op = .grantAck → t.phase = .ack → t.grant = 1 →
        exec (.grantAck p) s = .next ((u.setLine n { l with txn := none }).unbusy n).unbindAll)
      ∧ (p.op = .grantAck → t.phase = .ack → t.grant ≠ 1 →
        ∃ v : State, exec (.grantAck p) s = .next v.unbindAll ∧ (v.line n).txn = some { t with phase := .hitch })
      ∧ (t.phase = .hitch → exec (.hitchExpire n) s = .next ((s.setLine n { l with txn := none }).unbusy n).unbindAll))
  ∧ ( ∀ (s : State) (n : Nat) (t : Txn), (s.line n).txn = some t → t.phase = .collect →
        (∀ k, (⟨.tile, k⟩ : Agent) ∈ t.snoops → t.snoops.erase ⟨.tile, k⟩ ≠ [] →
          ∃ v : State, exec (.snoopTimeout n ⟨.tile, k⟩) s = .next v.unbindAll
            ∧ ∃ x, (v.line n).txn = some x ∧ x.snoops = t.snoops.erase ⟨.tile, k⟩ ∧ x.status = 4)
        ∧ (∀ k, (⟨.site, k⟩ : Agent) ∈ t.snoops →
          ∃ v : State, exec (.snoopTimeout n ⟨.site, k⟩) s = .next ((v.sever k rsSnoopTmo).snoopLost n ⟨.site, k⟩ 4).unbindAll
            ∧ State.onlyIn [.regs, .ports, .unread, .out] s v)
        ∧ (t.fills ≠ 0 → t.snoops ≠ [] → s.fget R.MEM_STKTEMP_LIMIT (s.chanOf (n * 64) / 128) 0 ≠ 3 →
          ∃ v : State, exec (.fillTimeout n) s = .next v.unbindAll
            ∧ ∃ x, (v.line n).txn = some x ∧ x.fills = 0 ∧ x.status = 4 ∧ x.lost = t.lost ||| t.fills))

/-- A home discards a snoop answer or MData that arrives after its row has been completed: the line is busy with another row or with none (R240). -/
def Obligations.LateAnswersAreDiscarded : Prop :=
  ∀ (s : State) (p : Pkt) (c : Instr), s.arrives p = true → p.dst.kind = .home →
    (c, p.op) ∈ [(Instr.snpResp p, Op.snpResp), (.snpRespData p, .snpRespData), (.mdata p, .mData)] →
    (∀ t, (s.line p.line).txn = some t → t.id % 65536 ≠ p.tag) →
    exec c s = .next (s.takePkt p).unbindAll

/-- A final response frees its tag and goes to what made the request, a grant first acknowledged (R205, R223); a NACK leaves the request waiting,
and its retry sends it again, with STARVE from the STARVE_N-th on (R226, R227); an MAck for a home ends there. -/
def Obligations.MastersTakeTheirResponses : Prop :=
  ∀ (s : State) (p : Pkt) (t : Tx), s.arrives p = true →
    let u := s.takePkt p
    (∀ c, (c, p.op) ∈ [(Instr.comp p, Op.comp), (.compData p, .compData), (.mdata p, .mData), (.mack p, .mAck)] →
      p.dst.kind ≠ .proxy → p.dst.kind ≠ .home → s.txOf p.tag = some t → ¬ (p.op = .comp ∧ p.status = 1) →
      (p.op = .mData → p.mask.toNat % 16 = 0) → exec c s = .next ((u.complete t p).afterResponse).unbindAll)
    ∧ (p.op = .comp → p.status = 1 → p.dst.kind ≠ .proxy → s.txOf p.tag = some t → t.purp ≠ .quiet →
      ∃ v : State, exec (.comp p) s = .next v.unbindAll ∧ ({ t with nacks := t.nacks + 1, waits := true } : Tx) ∈ v.fab.txs
        ∧ State.onlyIn [.fab] s v)
    ∧ (p.op = .mAck → p.dst.kind = .home → exec (.mack p) s = .next u.unbindAll)
    ∧ (∀ (v : State) (x : Tx), v.fab.txs.find? (fun (y : Tx) => y.half == t.half && y.tag == t.tag && y.waits) = some x →
      ∃ w, exec (.nackRetry t.half t.tag) v = .next w ∧ State.onlyIn [.fab] v w
        ∧ ∃ q ∈ w.fab.net, q.op = x.pkt.op ∧ q.addr = x.pkt.addr ∧ q.starve = decide (v.fget R.COH_CONF_STARVE_N 0 0 ≤ x.nacks))

/-- Flushes, way masks and COH_CONF act as the COH table has it: a refused flush shows REFUSED, one taken is BUSY until it is done; a mask that sets a
bit of another is ignored; HITCH, BACKOFF and STARVE_N take the values of their ranges alone, REMOTE none while a partition exists (R242, R244). -/
def Obligations.CoherenceSettingsTakeEffect : Prop :=
  (∀ (s : State) (path : Path) (w : W32), s.pathReaches path .coh 0 0x050 = true → w.toNat.testBit 31 = true →
    ((s.fbit R.COH_FLUSH_STAT_BUSY 0 0 = true ∨ flushBad w = true) →
      ∃ t, exec (.cohFlush path w) s = .next t ∧ t.fget R.COH_FLUSH_STAT_REFUSED 0 0 = 1 ∧ State.onlyIn [.regs] s t)
    ∧ (s.fbit R.COH_FLUSH_STAT_BUSY 0 0 = false → flushBad w = false →
      ∃ v : State, exec (.cohFlush path w) s = .next v.evictSelected ∧ v.fab.flush = some w ∧ v.fget R.COH_FLUSH_STAT_BUSY 0 0 = 1
        ∧ v.fab.lines = s.fab.lines))
  ∧ (∀ s : State, s.fab.flush.isSome = true → s.flushing = false → (∀ e ∈ s.fab.wayStaged, e.1 < 9) →
      ∃ t, exec .cohFlushDone s = .next t ∧ t.fab.flush = none ∧ t.fab.wayStaged = []
        ∧ t.fget R.COH_FLUSH_STAT_BUSY 0 0 = 0 ∧ t.fget R.COH_FLUSH_STAT_DONE 0 0 = 1)
  ∧ (∀ (s : State) (n : Fin 9) (path : Path) (w : W32), s.pathReaches path .coh 0 (0x010 + 4 * n.val) = true →
      let old := s.fget R.COH_WAYMASK_MASK 0 n.val
      let others := (List.range 9).foldl (fun m i => if i = n.val then m else m ||| s.fget R.COH_WAYMASK_MASK 0 i ||| s.maskNext i) 0
      ((w.toNat % 65536) &&& others ≠ 0 →
        ∃ t, exec (.cohWaymaskWrite n path w) s = .next t ∧ t.fbit R.COH_EVENT_MASK_REFUSED 0 0 = true
          ∧ t.fget R.COH_WAYMASK_MASK 0 n.val = old)
      ∧ ((w.toNat % 65536) &&& others = 0 → old &&& (w.toNat % 65536) = old →
        ∃ t, exec (.cohWaymaskWrite n path w) s = .next t ∧ t.fget R.COH_WAYMASK_MASK 0 n.val = w.toNat % 65536))
  ∧ (∀ (s : State) (path : Path) (w : W32), s.pathReaches path .coh 0 0 = true →
      ∃ t, exec (.cohConfWrite path w) s = .next t
        ∧ t.fget R.COH_CONF_HITCH 0 0 = (if 1 ≤ bitsOf w.toNat 7 0 ∧ bitsOf w.toNat 7 0 ≤ 128 then bitsOf w.toNat 7 0 else s.fget R.COH_CONF_HITCH 0 0)
        ∧ t.fget R.COH_CONF_BACKOFF 0 0
            = (if 4 ≤ bitsOf w.toNat 11 8 ∧ bitsOf w.toNat 11 8 ≤ 12 then bitsOf w.toNat 11 8 else s.fget R.COH_CONF_BACKOFF 0 0)
        ∧ t.fget R.COH_CONF_COMBINE 0 0 = bitsOf w.toNat 19 19
        ∧ (s.anyPart = true → t.fget R.COH_CONF_REMOTE 0 0 = s.fget R.COH_CONF_REMOTE 0 0))

/-! ## Cleats and chiplet sites -/

/-- An increment that is on its way and whose bank is in reach is applied once, modulo 2^48: its Cleat takes the sum, every other Cleat stays, and
it is on its way no more; then the tiles and waits that it satisfies go on (R254).
The Cleat ops of a bound site: a CleatSig waits for the site's writes, a CleatRd brings the value, a CleatWatch completes at once where the value has
reached its target and waits where it has not, and its timeout answers STATUS 4; a Cleat that is not the partition's answers STATUS 2
(R252, R291). -/
def Obligations.CleatsTakeIncrementsAndSiteOps : Prop :=
  ( ∀ (s : State) (c : BitVec 16) (inc : CleatVal) (a : Agent) (m : IncMsg), s.incOf c inc a = some m →
      (s.bankCut (s.agentHalf a) c = false →
        ∃ v u : State, exec (.cleatIncrement c inc a) s = .next ((v.kickTiles u).incDone m 0)
          ∧ (v.cleat c.toNat).val = (s.cleat c.toNat).val + inc ∧ (v.cleat c.toNat).waker = some a
          ∧ (∀ d, d ≠ c.toNat → v.cleat d = s.cleat d)
          ∧ v.cleats.flying = s.cleats.flying.erase m ∧ v.cleats.sigs = s.cleats.sigs)
      ∧ (s.bankCut (s.agentHalf a) c = true →
        ∃ v : State, exec (.cleatIncrement c inc a) s = .next (v.incDone m 3) ∧ (∀ d, v.cleat d = s.cleat d)
          ∧ v.cleats.flying = s.cleats.flying.erase m ∧ State.onlyIn [.cleats] s v))
  ∧ ( ∀ (s : State) (k : Fin 8) (slot : Fin 16) (tag : SiteTag) (c : BitVec 16) (inc : CleatVal) (sc : BitVec 2) (tmo : BitVec 16) (ctx : BitVec 12),
        s.siteLets k.val tag.tag = true → s.slotCtx k.val slot.val = some ctx →
        let u := s.cleatSvc k.val tag.svc
        let rsp (st : BitVec 3) (d : Option LineData) : State := u.siteRsp k.val (bankOf c) ⟨slot.val, tag.tag, c.toNat, 0⟩ st 0 0 d
        (s.siteCleat k.val c = 0 →
          exec (.cleatRd k slot tag c) s = .next (rsp 0 (some (BitVec.ofNat 512 (s.cleat c.toNat).val.toNat)))
          ∧ (∃ v : State, exec (.cleatSig k slot tag c inc sc) s = .next v.sigsGo ∧ State.onlyIn [.cleats] u v
              ∧ v.cleats.sigs = s.cleats.sigs ++ [⟨k.val, slot.val, tag.tag, c, inc, if s.siteMinor k.val = 0 then 2 else sc, s.fab.serial⟩]
              ∧ v.cleats.vals = s.cleats.vals)
          ∧ (s.siteMinor k.val ≠ 0 → (s.cleat c.toNat).val.toNat < inc.toNat →
              ∃ v : State, exec (.cleatWatch k slot tag c inc sc tmo) s = .next v
                ∧ v.cleats.watches = s.cleats.watches ++ [⟨k.val, slot.val, tag.tag, c, inc, sc, tmo⟩]
                ∧ v.cleats.vals = s.cleats.vals ∧ v.out = u.out)
          ∧ (s.siteMinor k.val ≠ 0 → inc.toNat ≤ (s.cleat c.toNat).val.toNat →
              exec (.cleatWatch k slot tag c inc sc tmo) s = .next ((rsp 0 none).trace (cleatHalf c) 6 (siteAgent k.val) c
                (s.cleat c.toNat).val inc (s.cleat c.toNat).waker (s.fget R.SITE_STAT_PART k.val 0))))
        ∧ (s.cleatOwner c.toNat ≠ some (s.fget R.SITE_STAT_PART k.val 0) →
          exec (.cleatRd k slot tag c) s = .next (rsp 2 none) ∧ exec (.cleatSig k slot tag c inc sc) s = .next (rsp 2 none)
          ∧ (s.siteMinor k.val ≠ 0 → exec (.cleatWatch k slot tag c inc sc tmo) s = .next (rsp 2 none)))
        ∧ (∀ w tag, s.cleats.watches.find? (fun w => w.site == k.val && w.tag == tag && w.tmo != 0) = some w →
          ∃ v u : State, exec (.cleatWatchTimeout k tag) s = .next (v.trace (cleatHalf w.cleat) 3 (siteAgent k.val) w.cleat
                (s.cleat w.cleat.toNat).val w.target none (s.fget R.SITE_STAT_PART k.val 0))
            ∧ v = u.siteRsp k.val (bankOf w.cleat) ⟨w.slot, tag, w.cleat.toNat, 0⟩ 4 0 0 none ∧ State.onlyIn [.cleats] s u
            ∧ u.cleats.watches = s.cleats.watches.erase w ∧ u.cleats.vals = s.cleats.vals))

/-- Link-up goes through the steps of R300: each row acts at the step that awaits it, and a failure ends in FAILED with the reason of its cause
(R300, R302 to R305). -/
def Obligations.LinkupGoesStepByStep : Prop :=
  ∀ (s : State) (k : Fin 8), s.hasSite k.val = true →
    let x := s.site k.val
    let fails (c : Instr) (r : Nat) : Prop := ∃ t, exec c s = .next t ∧ t.siteState k.val = 7 ∧ t.fget R.SITE_STAT_REASON k.val 0 = r
      ∧ (t.site k.val).step = .idle ∧ t.fget R.SITE_STAT_LIVE k.val 0 = 0
    let moves (c : Instr) (y : LinkStep) (ok : State → Prop) : Prop := ∃ t, exec c s = .next t ∧ (t.site k.val).step = y ∧ ok t
    (s.siteKind k.val ≠ .cover → s.linkupReady k.val = true → x.step = .idle → s.siteState k.val = 0 →
      moves (.siteLinkupStart k) .sideband fun t => t.siteState k.val = 1 ∧ (t.site k.val).powered = true)
    ∧ (x.step = .sideband → moves (.sidebandTrained k false) .mainband (fun t => State.onlyIn [.sites] s t) ∧ fails (.sidebandTrained k true) rsNoLink)
    ∧ (∀ live gts, x.step = .mainband → s.trainable k.val live.toNat gts.toNat = true →
      let n := ((List.range 16).filter fun j => live.toNat.testBit j).length
      (8 ≤ n → moves (.mainbandTrained k live gts) .hello fun t => t.fget R.SITE_STAT_LIVE k.val 0 = live.toNat
        ∧ t.fget R.SITE_RATE_GTS k.val 0 = gts.toNat)
      ∧ (n < 8 → fails (.mainbandTrained k live gts) rsNoLink)
      ∧ (∀ j, j < 16 → s.apFace k.val = true → live.toNat.testBit j = false → ∃ t, exec (.mainbandTrained k live gts) s = .next t
          ∧ t.fget R.SITE_APERR_DOWN k.val j = 1 ∧ t.fbit R.SITE_EVENT_AP_DOWN k.val 0 = true))
    ∧ (∀ h, x.step = .hello →
      (s.helloCheck k.val h = 0 → moves (.chipHello k h) .accept fun t => t.siteState k.val = 2
        ∧ t.fget R.SITE_TERMS_TAGS k.val 0 = min h.tags 4096 ∧ t.fget R.SITE_STAT_MINOR k.val 0 = min 2 h.minor)
      ∧ (s.helloCheck k.val h ≠ 0 → fails (.chipHello k h) (s.helloCheck k.val h)))
    ∧ (x.step = .accept → moves (.chipAccept k true) .measure (fun t => (t.site k.val).nonce.length = 8)
        ∧ fails (.chipAccept k false) rsNegotiation)
    ∧ (∀ m leaf, x.step = .measure →
      (m.digests ≠ [] → m.digests.length ≤ 8 → m.chain.length ≤ 1024 → m.sign.length = 64 →
        moves (.measureRsp k m leaf) .verify fun t => (t.site k.val).pendDig = m.digests ∧ (t.site k.val).pendChain = m.chain
          ∧ (t.site k.val).pendSign = m.sign ∧ (t.site k.val).pendLeaf = leaf ∧ State.onlyIn [.sites] s t)
      ∧ (m.digests = [] ∨ 8 < m.digests.length ∨ 1024 < m.chain.length ∨ m.sign.length ≠ 64 → fails (.measureRsp k m leaf) rsMeasureBad))
    ∧ (x.step = .verify → moves (.measureVerified k true true true) .up (fun t => t.siteState k.val = 3 ∧ (t.site k.val).digests = x.pendDig)
        ∧ fails (.measureVerified k false true true) rsMeasureBad ∧ fails (.measureVerified k true false true) rsMeasureBad
        ∧ fails (.measureVerified k true true false) rsMeasureBad)
    ∧ (∀ y r, (y, r) ∈ [(LinkStep.sideband, rsNoLink), (.mainband, rsNoLink), (.hello, rsNoLink), (.accept, rsNegotiation), (.measure, rsMeasureTimeout)] →
      x.step = y → fails (.linkupTimeout k) r)
    ∧ (s.siteState k.val = 3 ∨ (s.siteState k.val = 2 ∧ (x.step = .measure ∨ x.step = .verify)) →
      moves (.measureChanged k) .measure fun t => t.siteState k.val = 2 ∧ t.fbit R.SITE_EVENT_REMEASURED k.val 0 = true)

/-- A frame is accepted where its check is good and its number the next: the acknowledgement it carries drops that many frames of the replay buffer, its
credits are taken, and what it used is owed back in the next frame sent. One that fails its check is counted and asks for a replay once, in an idle
frame; a good one of another number is discarded. A replay resends from the oldest unacknowledged frame, and a retrain ends with its attach points
back or disabled (R282 to R286, R289). That an idle frame is sent at once where nothing else moves is the model's choice (log 19). -/
def Obligations.AttachPointsTakeFrames : Prop :=
  ∀ (s : State) (k : Fin 8) (j : Fin 16) (f : Frame), s.hasSite k.val = true → s.apLive k.val j.val = true →
    f.link = (s.apFace k.val && j.val % 2 == 1) →
    let a := s.ap k.val j.val
    (∀ vc, a.retrain = false → (f.crcOk = false ∨ vc = false ∨ f.kind = 3) →
      ∃ t, exec (.tspFrame k j f vc) s = .next t ∧ (t.ap k.val j.val).nakd = true ∧ (t.ap k.val j.val).rx = a.rx
        ∧ t.fbit R.SITE_EVENT_REPLAY k.val 0 = true ∧ State.onlyIn [.regs, .sites, .ports, .unread, .out] s t
        ∧ (a.nakd = true → t.ap k.val j.val = a)
        ∧ (a.nakd = false → .tspNak k.val j.val (a.rx - 1) ∈ t.out
          ∧ (a.room = true → t.ap k.val j.val = ({ a with nakd := true } : Attp).sent none)))
    ∧ (a.retrain = false → f.crcOk = true → f.kind ≠ 3 → f.seq ≠ a.rx → exec (.tspFrame k j f true) s = .next s)
    ∧ (a.retrain = false → f.crcOk = true → f.kind ≠ 3 → f.seq = a.rx → f.nak = false → a.queue = [] →
      let b := { a with rx := a.rx + 1, nakd := false, snpCr := a.snpCr + f.crSnp.toNat, ctlCr := a.ctlCr + f.crCtl.toNat,
                        reqOwed := a.reqOwed + b2n f.isReq, ctlOwed := a.ctlOwed + b2n f.isCtl }
      let n := (f.ack + 1 - a.acked).toNat
      let c := if n = 0 ∨ (a.tx - a.acked).toNat < n then b else { b with acked := f.ack + 1, resent := 0, buf := a.buf.drop n }
      ∃ t, exec (.tspFrame k j f true) s = .next t ∧ t.ap k.val j.val = if f.kind ≠ 0 ∧ c.room = true then c.sent none else c)
    ∧ (a.retrain = false → a.tx ≠ a.acked → a.resent < 7 →
      ∃ t, exec (.tspReplayTimeout k j) s = .next t ∧ t.ap k.val j.val = { a with resent := a.resent + 1 } ∧ .tspReplay k.val j.val a.acked ∈ t.out)
    ∧ (a.retrain = true → s.apFace k.val = false → a.queue = [] →
      (∃ t, exec (.attachRetrainDone k j true) s = .next t ∧ t.ap k.val j.val = { a with retrain := false })
      ∧ (8 < s.liveCount k.val → ∃ t, exec (.attachRetrainDone k j false) s = .next t ∧ t.apLive k.val j.val = false
          ∧ t.fget R.SITE_APERR_DOWN k.val j.val = 1))

/-- A request of a site is looked at in the order of R290, R309 and R316: a site not bound, a tag in flight, a tag that was not granted, a slot without a
context are each answered at once; held for power it waits; else it enters the mesh under its slot's context (R289 to R291, R309). -/
def Obligations.SiteRequestsPassTheirGate : Prop :=
  ∀ (s : State) (k : Fin 8) (j slot : Fin 16) (tag : BitVec 12) (p : Pkt), s.hasSite k.val = true → s.apLive k.val j.val = true →
    p.src = siteAgent k.val →
    let c := Instr.siteRequest k j slot tag p
    let h := { p with ap := j.val }
    let answers (r : State) (st : BitVec 3) : Prop :=
      exec c s = .next (r.siteRspAt k.val j.val (siteAgent k.val) (pktTo slot.val tag h) st 0 0 none).sigsGo
    ((s.siteState k.val = 2 ∨ s.siteState k.val = 3) → answers s 2)
    ∧ ((s.siteState k.val = 4 ∨ s.siteState k.val = 5) →
      (s.siteTagUsed k.val tag = true → answers (s.ev R.SITE_EVENT_DUP_TAG k.val) 5)
      ∧ (s.siteTagUsed k.val tag = false → s.fget R.SITE_TERMS_TAGS k.val 0 ≤ tag.toNat → answers (s.ev R.SITE_EVENT_BAD_TAG k.val) 5)
      ∧ (s.siteTagUsed k.val tag = false → tag.toNat < s.fget R.SITE_TERMS_TAGS k.val 0 → (s.siteState k.val = 5 ∨ (s.site k.val).hold = true) →
        ∃ v : State, exec c s = .next v.sigsGo ∧ (v.site k.val).held = (s.site k.val).held ++ [.req slot.val tag h] ∧ State.onlyIn [.sites] s v))
    ∧ (s.siteLets k.val tag = true → s.slotCtx k.val slot.val = none → answers (s.ev R.SITE_EVENT_BAD_SLOT k.val) 2)
    ∧ (∀ ctx, s.siteLets k.val tag = true → s.slotCtx k.val slot.val = some ctx →
      (siteOps (s.fbit R.SITE_STAT_CACHING k.val 0) p.op = false → answers s 5)
      ∧ (siteOps (s.fbit R.SITE_STAT_CACHING k.val 0) p.op = true → p.op ≠ .wrBack → p.op ≠ .evict →
        ∃ (v : State) (q : Pkt), exec c s = .next (v.request q (.site k.val tag slot.val) none).sigsGo ∧ q.src = siteAgent k.val ∧ q.ctx = ctx
          ∧ q.ap = j.val ∧ q.op = p.op ∧ q.addr = p.addr ∧ q.data = p.data ∧ q.sect = p.sect ∧ q.starve = false ∧ v.fab = s.fab))

/-- The control messages of a site: an Xlate is answered from the walker's cache or by its walk; InvAcks, WorkDones and scrubs end what they answer, and
their timeouts sever the site with their reasons; a PutReq becomes a PUT of the site under its slot's context (R295 to R298, R311, R312).
Ten evaluations in a row above the allowance hold the site's requests with POWER_WARN, a hundred above its limit sever it; SITE_CTL and SITE_PWR act as the
site table has them: neither resets nor measures a bound site, and a base above the limit, or beyond the package's sum, is not taken
(R303, R307, R315, R316, R319). -/
def Obligations.SitesAnswerTheirControl : Prop :=
  ( ∀ (s : State) (k : Fin 8), s.hasSite k.val = true →
      (∀ (slot : Fin 16) tag (dva : Dva) ctx e raw, s.siteState k.val = 4 → s.slotCtx k.val slot.val = some ctx →
        s.cached (s.walkerOf (siteAgent k.val)) ctx (dva.toNat / 0x10000) .any = none → s.walk (siteAgent k.val) ctx dva.toNat .any = .ok e raw →
        ∃ v : State, exec (.xlate k slot tag dva) s = .next (v.xlateRsp k.val tag raw 0)
          ∧ State.onlyIn [.xlt] (s.walked (siteAgent k.val) ctx dva.toNat) v)
      ∧ (∀ id r, (s.site k.val).invals = id :: r →
        ∃ v : State, exec (.invAck k) s = .next (v.ackInval id) ∧ (v.site k.val).invals = r ∧ State.onlyIn [.sites] s v)
      ∧ ((s.site k.val).invals ≠ [] → exec (.invTimeout k) s = .next (s.sever k.val rsInvTmo))
      ∧ (∀ wtag status result id r, (s.site k.val).works.find? (fun w => w.1 == wtag) = some (wtag, some id) → s.run id = some r → r.status = none →
        r.id = id →
        ∃ (v : State) (y : Run), exec (.workDone k wtag status result) s = .next (v.unbindGo k.val) ∧ v.run id = some y
          ∧ y.status = some (if status = 0 then stOk else stWorkFailed) ∧ y.res = [BitVec.ofNat 64 result.toNat]
          ∧ (v.site k.val).works = (s.site k.val).works.erase (wtag, some id))
      ∧ (∀ (slot : Fin 16) tag (dev : BitVec 5) (handle : BitVec 16) (offset : BitVec 40) (len : BitVec 24) (src : Dpa) (red : BitVec 2) cached ctx,
        s.siteState k.val = 4 → s.slotCtx k.val slot.val = some ctx → 2 ≤ s.siteMinor k.val → red ≠ 3 → len ≠ 0 → len.toNat % 32 = 0 →
        offset.toNat % 32 = 0 → src.toNat % 32 = 0 →
        ∃ c : Tracker, exec (.putReq k slot tag dev handle offset len src red cached) s = .next ({ s with fab := { s.fab with serial := s.fab.serial + 1 } }.startPutFor c) ∧ c.dev = dev.toNat ∧ c.handle = handle.toNat
          ∧ c.off = offset.toNat ∧ c.len = len.toNat ∧ c.srcAt = src.toNat ∧ c.red = red ∧ c.cached = cached ∧ c.ctx = ctx
          ∧ c.owner = some (.site k.val tag) ∧ c.site = some (k.val, s.fab.serial))
      ∧ (s.siteState k.val = 5 → (s.site k.val).scrub = true →
        exec (.scrubDone k) s = .next (s.unbindEnd k.val) ∧ (∀ i, (s.unbindEnd k.val).slotCtx k.val i = none)
        ∧ exec (.scrubTimeout k) s = .next (s.sever k.val rsScrubTmo)))
  ∧ ( ∀ (s : State) (k : Fin 8),
        (∀ draw : BitVec 12, s.hasSite k.val = true → s.siteKind k.val ≠ .cover →
          (s.allowance k.val < draw.toNat → (s.site k.val).overA = 9 → draw.toNat ≤ s.siteLimit k.val →
            ∃ t, exec (.sitePowerSample k draw) s = .next t ∧ (t.site k.val).hold = true ∧ t.fbit R.SITE_EVENT_POWER_WARN k.val 0 = true
              ∧ t.fget R.SITE_PWR_DRAW_W k.val 0 = draw.toNat)
          ∧ (s.allowance k.val < draw.toNat → (s.site k.val).overA < 9 → draw.toNat ≤ s.siteLimit k.val →
            ∃ t, exec (.sitePowerSample k draw) s = .next t ∧ (t.site k.val).hold = (s.site k.val).hold ∧ (t.site k.val).overA = (s.site k.val).overA + 1)
          ∧ (s.siteLimit k.val < draw.toNat → (s.site k.val).overL = 99 →
            ∃ v : State, exec (.sitePowerSample k draw) s = .next (v.sever k.val rsPowerOver) ∧ v.siteState k.val = s.siteState k.val))
        ∧ (∀ path, s.pathReaches path .site k.val 0x010 = true →
          ((s.siteState k.val = 4 ∨ s.siteState k.val = 5) → s.siteKind k.val ≠ .cover → ∀ c ∈ [Instr.siteCtlReset k path, .siteCtlRemeasure k path],
            exec c s = .next (s.ev R.SITE_EVENT_CTL_REFUSED k.val))
          ∧ (s.siteState k.val ≠ 4 → s.siteState k.val ≠ 5 → s.siteKind k.val ≠ .cover →
            ∃ t, exec (.siteCtlReset k path) s = .next t ∧ (t.site k.val).powered = false ∧ (t.site k.val).coolOff = true)
          ∧ (s.siteState k.val = 3 → ∃ t, exec (.siteCtlRemeasure k path) s = .next t ∧ t.siteState k.val = 2 ∧ (t.site k.val).step = .measure))
        ∧ (∀ path w, s.pathReaches path .site k.val 0x044 = true →
          let v := bitsOf w.toNat 11 0
          (s.siteLimit k.val < v → exec (.sitePwrWrite k path w) s = .next s)
          ∧ (v ≤ s.siteLimit k.val → s.fget R.PWR_LIMIT_PKG_W 0 0 < (s.fset R.SITE_PWR_BASE_W k.val 0 v).committed →
            exec (.sitePwrWrite k path w) s = .next (s.ev R.PWR_EVENT_BASE_REFUSED 0))
          ∧ (v ≤ s.siteLimit k.val → (s.fset R.SITE_PWR_BASE_W k.val 0 v).committed ≤ s.fget R.PWR_LIMIT_PKG_W 0 0 →
            ∃ t, exec (.sitePwrWrite k path w) s = .next t ∧ t.fget R.SITE_PWR_BASE_W k.val 0 = v ∧ t.committed = (s.fset R.SITE_PWR_BASE_W k.val 0 v).committed
              ∧ State.onlyIn [.regs, .sites, .ports, .out] s t)))

/-! ## Lanyard -/

/-- A link that is UP accepts the frame of the next number, with what it acknowledges, credits and opens of a new key epoch, asks once for a replay of one
whose check or tag fails, and discards a good one of another number; it replays its unacknowledged frames from the oldest, and sends a staged message as a
frame sealed under its keys that its replay buffer keeps (R283, R323 to R326, R330 to R332, R343). That a frame which acknowledges goes at once, as an
idle frame, is the model's choice (log 19). -/
def Obligations.LinksKeepTheirFramesInOrder : Prop :=
  ∀ (s : State) (l : Fin 24), s.hasLink l.val = true → s.lstate l.val = lsUp →
    let x := s.link l.val
    let idle (y : Link) : Link := if y.room = true then y.sent none (lnkClose (y.word false).bits 8) else y
    let asks (y : Link) : Link := if y.nakd = true then y else idle { y with nakd := true }
    (∀ f : LnkFrame, f.uncorr = 0 → f.noisy = 0 → (∀ w, w < 4 → (s.window lnkWindow (tget (fun _ => []) x.uncorrs w)).length < 16) →
      let checks := f.crcOk = true ∧ f.typeOk = true ∧ (f.kind = 0 ∨ f.kind = 1)
      let opens := f.kind = 1 → f.tagOk = true ∧ x.knows f.epoch = true
      (checks → opens → f.seq = x.rx → f.nak = false →
        let rest := if x.unacked.any (fun u => u.seq == f.ack) then (x.unacked.dropWhile fun u => u.seq != f.ack).drop 1 else x.unacked
        let y := { x with rx := x.rx + 1, nakd := false, unacked := rest, dataCr := x.dataCr + f.crData.toNat, getCr := x.getCr + f.crGet.toNat,
                          dataOwed := x.dataOwed + b2n f.isData, getOwed := x.getOwed + b2n f.isGet }
        ∃ u : State, exec (.lnkFrameReceive l f) s = .next u.enginesGo ∧ State.onlyIn [.lan, .out] s u
          ∧ u.link l.val = (if f.kind = 1 then idle (y.took f.epoch) else y)
          ∧ (f.kind = 1 → f.epoch = BitVec.ofNat 2 (x.rxEpoch + 1) → (u.link l.val).rxEpoch = x.rxEpoch + 1 ∧ (u.link l.val).rxFrames = 1
            ∧ (u.link l.val).rxOld = some x.rxSecret ∧ (u.link l.val).rxSecret = Config.nextSecret x.rxSecret)
          ∧ (f.kind = 1 → f.epoch = BitVec.ofNat 2 x.rxEpoch → (u.link l.val).rxEpoch = x.rxEpoch ∧ (u.link l.val).rxFrames = x.rxFrames + 1))
      ∧ (checks → opens → f.seq ≠ x.rx → exec (.lnkFrameReceive l f) s = .next s.enginesGo)
      ∧ (¬ checks →
        ∃ u : State, exec (.lnkFrameReceive l f) s = .next u.enginesGo ∧ u.link l.val = asks x
          ∧ (x.nakd = false → .lnak l.val (x.rx - 1) ∈ u.out)
          ∧ u.fget R.LNK_LERR_REPLAYS 0 l.val = min (s.fget R.LNK_LERR_REPLAYS 0 l.val + 1) R.LNK_LERR_REPLAYS.top)
      ∧ (checks → ¬ opens → (s.window lnkWindow x.tags).length < 3 →
        ∃ u : State, exec (.lnkFrameReceive l f) s = .next u.enginesGo ∧ u.fbit R.LNK_EVENT_TAG_FAIL 0 0 = true
          ∧ u.link l.val = asks { x with tags := s.window lnkWindow x.tags ++ [s.tally] }))
    ∧ (x.unacked = [] → exec (.lnkReplayTimeout l) s = .next s)
    ∧ (x.unacked ≠ [] → (∀ u ∈ x.unacked, u.resent < 7) →
      ∃ t, exec (.lnkReplayTimeout l) s = .next t ∧ t.link l.val = { x with unacked := x.unacked.map fun u => { u with resent := u.resent + 1 } }
        ∧ ∀ u ∈ x.unacked, .lreplay l.val u.seq ∈ t.out ∧ .lbytes l.val u.len u.bytes ∈ t.out)
    ∧ (s.halfLive (linkHalf l.val) = true →
      (x.staged.find? (s.maySend l.val) = none → exec (.fragmentSend l) s = .next s)
      ∧ (∀ m, x.staged.find? (s.maySend l.val) = some m → m.dstDev ≠ s.selfDev →
        let d := s.linkDir l.val true
        let f := sealFrame (Config.linkKey x.nextTx d) (lnkNonce d x.nextEpoch.1 x.nextEpoch.2) (x.word true).bits m
        ∃ u : State, exec (.fragmentSend l) s = .next u.enginesGo ∧ (u.link l.val).staged = x.staged.erase m ∧ (u.link l.val).tx = x.tx + 1
          ∧ (u.link l.val).unacked = x.unacked ++ [⟨x.tx, some m, 0, f.1, f.2⟩] ∧ .lframe l.val x.tx m ∈ u.out ∧ .lbytes l.val f.1 f.2 ∈ u.out
          ∧ (u.link l.val).epoch = x.nextEpoch.1 ∧ (u.link l.val).frames = x.nextEpoch.2 ∧ (u.link l.val).txSecret = x.nextTx
          ∧ (u.link l.val).dataCr = (if m.type = .put ∨ m.type = .putRed then x.dataCr - 1 else x.dataCr)
          ∧ (u.link l.val).getCr = (if m.type = .get then x.getCr - 1 else x.getCr)))

/-- A fragment counts once: one whose MSN its window holds does nothing; another enters the window, and is refused with the reason of its handle, collected
into its slot, or served (R349, R354, R357, R359). -/
def Obligations.FragmentsCountOnce : Prop :=
  ∀ (s : State) (m : LMsg) (c : Instr), (c, m.type) ∈ [(Instr.lnkPut m, LType.put), (.lnkPutred m, .putRed)] → m.link ∈ s.upLinks → m.dstDev = s.selfDev →
    let e := s.handle m.handle
    let r := hndRefusal e (if m.type = .putRed then Hnd.wRed e else Hnd.wPut e) m.dtag m.srcDev m.offset m.nbytes
    (s.duplicate m = true → exec c s = .next s.enginesGo)
    ∧ (s.duplicate m = false → (s.sawMsn m).duplicate m = true ∧ State.onlyIn [.lan] s (s.sawMsn m)
      ∧ (m.isGetData = false →
        (r ≠ 0 → exec c s = .next ((s.sawMsn m).refuseMsg m r).enginesGo)
        ∧ (r = 0 → (m.type = .put ∨ Hnd.coll e = false) → exec c s = .next ((s.sawMsn m).serveFrag e m).enginesGo)
        ∧ (r = 0 → m.type = .putRed → Hnd.coll e = true →
          let n := m.offset / 512 % max 1 s.engines
          (s.engCut m n = true → exec c s = .next ((s.sawMsn m).refuseMsg m 8).enginesGo)
          ∧ (s.engCut m n = false → 1 < Hnd.ncontrib e → s.lan.slots.filter (fun y => y.eng == n) = [] →
            ∃ (u : State) (y : CollSlot), exec c s = .next u.enginesGo ∧ u.lan.slots = s.lan.slots ++ [y] ∧ y.msgs = [{ m with link := 2 * n }]
              ∧ y.eng = n ∧ y.handle = m.handle ∧ y.entry = e ∧ y.pos = m.offset / 512 ∧ y.red = m.red ∧ State.onlyIn [.lan] s u))))

/-- What a message does at its destination and at a relay, and how trackers and slots end: late answers are discarded with their event, a DONE covers its
bytes, a REFUSE ends its tracker, a GET is refused or read, a message for another device goes on over the bundle (R346, R350 to R352, R355 to R357,
R360). -/
def Obligations.LanyardMessagesTakeTheirEffect : Prop :=
  (∀ (s : State) (m : LMsg), m.link ∈ s.upLinks → m.dstDev = s.selfDev →
    let i := m.putid.toNat
    let x := s.tracker i
    (s.answers m = false →
      (m.type = .done → exec (.lnkDone m) s = .next (s.ev R.LNK_EVENT_LATE_REPLY 0).enginesGo)
      ∧ (m.type = .refuse → exec (.lnkRefuse m) s = .next (s.ev R.LNK_EVENT_LATE_REPLY 0).enginesGo))
    ∧ (s.answers m = true →
      (m.type = .done → x.isGet = false → x.covered + m.bytes < x.len →
        exec (.lnkDone m) s = .next (s.setTracker i { x with covered := x.covered + m.bytes }).enginesGo)
      ∧ (m.type = .done → x.isGet = false → x.len ≤ x.covered + m.bytes →
        exec (.lnkDone m) s = .next ((s.setTracker i { x with covered := x.covered + m.bytes }).endTracker i 0).enginesGo)
      ∧ (m.type = .refuse →
        exec (.lnkRefuse m) s = .next ((s.recordRefusal m.reason.toNat x.dev x.handle 1).endTracker i m.reason.toNat).enginesGo))
    ∧ (m.type = .get →
      let e := s.handle m.handle
      let r := hndRefusal e (Hnd.wGet e) m.dtag m.srcDev m.offset m.glen
      (r ≠ 0 → exec (.lnkGet m) s = .next (s.refuseMsg m r).enginesGo)
      ∧ (∀ dpas v, r = 0 →
        s.sectorDpas (engAgent m.eng) (Hnd.ctx e) (Hnd.base e + m.offset) .read (m.glen / 32) = (some dpas, v) →
        ∃ (u : State) (q : Nat → Pkt), exec (.lnkGet m) s = .next ((dpas.zipIdx).foldl (fun s (d, j) =>
            s.request (q d) (.getRd v.lan.fragCtr (32 * j)) (some ((Hnd.base e + m.offset + 32 * j) / 0x10000))) u).enginesGo
          ∧ (∀ d, (q d).addr = BitVec.ofNat 44 d ∧ (q d).ctx = Hnd.ctx e ∧ (q d).op = (if Hnd.cached e then .rdOnce else .memRd))
          ∧ u.lan.frags.any (fun f => f.id == v.lan.fragCtr && f.msgs == [m]) = true)))
  ∧ (∀ (s : State) (m : LMsg) (c : Instr), (c, m.type) ∈ [(Instr.lnkPut m, LType.put), (.lnkPutred m, .putRed), (.lnkGet m, .get), (.lnkDone m, .done),
      (.lnkRefuse m, .refuse)] → m.link ∈ s.upLinks → m.dstDev ≠ s.selfDev →
    (s.bundle m.dstDev ≠ [] → exec c s = .next (s.sendMsg m).enginesGo)
    ∧ (s.bundle m.dstDev = [] → exec c s = .next (s.refuseMsg m 9).enginesGo))
  ∧ (∀ (s : State) (m : LMsg), m.type = .route → s.bundle m.srcDev ≠ [] →
    ∃ u : State, exec (.lnkRoute m) s = .next u.routesGo ∧ tget (fun _ => 0#26) u.lan.reach m.srcDev = m.reach ∧ State.onlyIn [.lan] s u)
  ∧ (∀ (s : State) (l : Fin 24), s.hasLink l.val = true → s.lstate l.val = lsUp → exec (.lnkHalfDown l) s = .next (s.downLink l.val lrHalfReset))
  ∧ (∀ (s : State) (e : Fin 12) (h p : Nat) (y : CollSlot), s.hasEngine e.val = true →
    s.lan.slots.find? (fun c => c.eng == e.val && c.handle == h && c.pos == p) = some y →
    exec (.collIdleTimeout e h p) s = .next (s.writeOut y).enginesGo)
  ∧ (∀ (s : State) (e : Fin 12) (n : BitVec 11), s.hasEngine e.val = true →
    let i := e.val * 2048 + n.toNat
    let x := s.tracker i
    (x.busy = true → exec (.trackerTimeout e n) s = .next ((s.recordRefusal 12 x.dev x.handle 0).endTracker i 12).enginesGo)
    ∧ (x.quar = true → exec (.trackerQuarantineEnd e n) s = .next (s.setTracker i { x with quar := false }).enginesGo))

/-- A link goes through its states as R333 to R337 have it: trained wide enough it attests, too narrow it is withdrawn, the third failed training in succession ends
in DOWN; a report accepted gives its peer, one refused REFUSED; keys make it UP; lost lock makes it RECOVERING, from which it comes back with the
wavelengths that locked; lost light makes it DOWN.
LNK_LCTL and LNK_DOM2 and the fibre attach units: an OFF link ignores RETRAIN and RETIRE; a usable one trains, one withdrawn goes dark; START trains
every OFF link that the table uses, STOP ends new PUTs, and its end returns every link to OFF; a unit removed takes its links OFF, a unit fitted trains the
expected ones (R336, R339, R340, R357, R619). -/
def Obligations.LinksMoveThroughTheirStates : Prop :=
  ( (∀ (s : State) (l : Fin 24) (lanes : BitVec 4) (n₀ : BitVec 256), s.hasLink l.val = true →
      let x := s.link l.val
      let ends (c : Instr) (st reason : Nat) (ok : State → Prop) : Prop := ∃ t, exec c s = .next t ∧ t.lstate l.val = st
        ∧ t.fget R.LNK_LSTAT_REASON 0 l.val = reason ∧ ok t
      let n := ((List.range 4).filter fun w => lanes.toNat.testBit w).length
      let minw := s.fget R.LNK_CONF_MINW 0 0
      (s.lstate l.val = lsTraining →
        (minw ≤ n → ends (.linkTrained l lanes (some n₀)) lsAttesting 0 fun t => t.fget R.LNK_LSTAT_LANES 0 l.val = lanes.toNat
          ∧ t.fget R.LNK_LSTAT_WIDTH 0 l.val = n ∧ (t.link l.val).peerNonce = n₀ ∧ .lnonce l.val (t.link l.val).nonce ∈ t.out
          ∧ State.onlyIn [.freeCtr, .regs, .lan, .out] s t)
        ∧ (n < minw → ends (.linkTrained l lanes (some n₀)) lsRetired lrWidth fun t => (t.link l.val).lasers = false ∧ t.fbit R.LNK_EVENT_RETIRED 0 0 = true)
        ∧ (x.fails < 2 → ends (.linkTrained l lanes none) lsTraining 0 fun t => (t.link l.val).fails = x.fails + 1)
        ∧ (2 ≤ x.fails → ends (.linkTrained l lanes none) lsDown lrTrainFail fun t => t.fbit R.LNK_EVENT_DOWN 0 0 = true)
        ∧ ends (.linkNoLightTimeout l) lsDown lrNoLight fun t => t.fbit R.LNK_EVENT_DOWN 0 0 = true)
      ∧ (∀ f : PeerFacts, s.lstate l.val = lsAttesting → s.coreUp = true →
        let fw (d : Nat) : Bool := match s.lan.table with | none => false | some y => y.fwSet.contains d
        let test : Bool := match s.lan.table with | none => false | some y => y.allowTest
        let good := f.sigOk = true ∧ fw f.fwWest = true ∧ (f.flags.toNat.testBit 0 = true → fw f.fwEast = true)
          ∧ (f.life = 2 ∨ (f.life = 1 ∧ test = true)) ∧ f.ident.toNat = s.fget R.LNK_DOM0_IDENT 0 0 + 2 ^ 32 * s.fget R.LNK_DOM1_IDENT 0 0
        let wired := f.devNum.toNat = s.fget R.LNK_LCONF_EXPECT 0 l.val ∧ f.expects.toNat = s.selfDev
        (¬ good → ends (.peerReport l f) lsRefused lrAttestFail fun t => (t.link l.val).lasers = false)
        ∧ (good → ¬ wired → ends (.peerReport l f) lsRefused lrMiswired fun t => (t.link l.val).lasers = false)
        ∧ (good → wired →
          ∃ t v, exec (.peerReport l f) s = .next t ∧ t.fget R.LNK_LSTAT_PEER 0 l.val = f.devNum.toNat ∧ .keyEx l.val v ∈ t.out
            ∧ State.onlyIn [.freeCtr, .regs, .out] s t))
      ∧ (s.lstate l.val = lsAttesting → s.fget R.LNK_LSTAT_PEER 0 l.val ≠ 31 →
        let k := Config.linkSecret s.freeCtr
        ∃ u : State, u.lstate l.val = lsUp ∧ State.onlyIn [.freeCtr, .regs, .lan] s u
          ∧ (u.link l.val) = { x with keys := true, epoch := 0, frames := 0, txSecret := k, rxSecret := k, rxOld := none, rxEpoch := 0, rxFrames := 0 }
          ∧ exec (.linkKeysInstalled l) s = .next (if u.routesGo.shownReach = s.shownReach then u.routesGo.sendRoute l.val else u.routesGo))
      ∧ (∀ w : Fin 4, s.lstate l.val = lsUp → s.fvec R.LNK_LSTAT_LANES 0 l.val w.val = true →
        ((s.window lnkWindow x.recs).length < 3 → x.staged = [] →
          ∃ u : State, exec (.wavelengthLockLost l w) s = .next u.routesGo ∧ u.lstate l.val = lsRecovering
            ∧ (u.link l.val) = { x with recs := s.window lnkWindow x.recs ++ [s.tally] })
        ∧ (3 ≤ (s.window lnkWindow x.recs).length →
          ∃ u : State, exec (.wavelengthLockLost l w) s = .next (u.retireLink l.val lrRecoveries) ∧ State.onlyIn [.lan] s u))
      ∧ (s.lstate l.val = lsRecovering →
        let old := s.fget R.LNK_LSTAT_LANES 0 l.val
        let now := lanes.toNat &&& old
        let up (u : State) : Prop := u.lstate l.val = lsUp ∧ u.fbit R.LNK_EVENT_RECOVERED 0 0 = true
          ∧ exec (.linkRecoveryDone l lanes) s = .next (if u.routesGo.shownReach = u.shownReach then u.routesGo.sendRoute l.val else u.routesGo)
        (now = old → ∃ u : State, up u)
        ∧ (now ≠ old → minw ≤ ((List.range 4).filter fun w => now.testBit w).length →
          ∃ u : State, up u ∧ u.fget R.LNK_LSTAT_LANES 0 l.val = now
            ∧ (u.link l.val).narrow = true ∧ u.fbit R.LNK_EVENT_NARROWED 0 0 = true))
      ∧ (s.lstate l.val = lsAttesting → ends (.linkLightLost l) lsDown lrNoLight fun _ => True)
      ∧ (s.lstate l.val = lsUp → exec (.linkLightLost l) s = .next (s.downLink l.val lrNoLight))
      ∧ ∃ t, exec (.linkNarrowingDone l) s = .next t ∧ (t.link l.val) = { x with narrow := false } ∧ State.onlyIn [.lan] s t)
    ∧ (∀ s : State, s.fbit R.LNK_CONF_AUTO 0 0 = true → s.sec.halted = false →
      ∃ t, exec .linkAutoTrain s = .next t
        ∧ ∀ l, l < s.nLinks → t.lstate l = if s.lstate l = lsDown ∧ s.linkUsable l = true then lsTraining else s.lstate l))
  ∧ ( (∀ (s : State) (l : Fin 24) (path : Path), s.hasLink l.val = true → s.pathReaches path .lnk 0 (0x10C + 16 * l.val) = true →
        (s.lstate l.val = lsOff → exec (.lnkLctlRetrain l path) s = .next s ∧ exec (.lnkLctlRetire l path) s = .next s)
        ∧ (s.lstate l.val ≠ lsOff → s.lstate l.val ≠ lsUp → s.lstate l.val ≠ lsRecovering →
          (s.linkUsable l.val = true → (path = .west ∨ (s.lstate l.val ≠ lsRetired ∧ s.lstate l.val ≠ lsRefused)) → ∃ t, exec (.lnkLctlRetrain l path) s = .next t ∧ t.lstate l.val = lsTraining ∧ (t.link l.val).lasers = true
            ∧ (t.link l.val).rx = 0 ∧ (t.link l.val).tx = 0 ∧ (t.link l.val).staged = (s.link l.val).staged)
          ∧ (s.linkUsable l.val = false → exec (.lnkLctlRetrain l path) s = .next s)
          ∧ (path ≠ .west → (s.lstate l.val = lsRetired ∨ s.lstate l.val = lsRefused) → exec (.lnkLctlRetrain l path) s = .next s)
          ∧ ∃ t, exec (.lnkLctlRetire l path) s = .next t ∧ t.lstate l.val = lsRetired ∧ t.fget R.LNK_LSTAT_REASON 0 l.val = lrOperator
            ∧ (t.link l.val).lasers = false)
        ∧ ((s.lstate l.val = lsUp ∨ s.lstate l.val = lsRecovering) → exec (.lnkLctlRetire l path) s = .next (s.retireLink l.val lrOperator)))
      ∧ (∀ (s : State) (path : Path), s.pathReaches path .lnk 0 0x00C = true →
        (s.lan.stopping = true → exec (.lnkDom2Start path) s = .next s ∧ exec (.lnkDom2Stop path) s = .next s)
        ∧ (s.lan.stopping = false →
          (∃ u : State, exec (.lnkDom2Start path) s = .next u.routesGo ∧ u.lan.started = true ∧ u.fget R.LNK_DOM2_START 0 0 = 1
            ∧ ∀ l, l < s.nLinks → s.lstate l = lsOff → (s.setStarted true).linkUsable l = true → u.lstate l = lsTraining)
          ∧ ∃ u : State, exec (.lnkDom2Stop path) s = .next u.enginesGo ∧ u.lan.started = false ∧ u.lan.stopping = true
            ∧ u.fget R.LNK_DOM2_START 0 0 = 0 ∧ u.fget R.LNK_DOM2_FORMED 0 0 = 0))
      ∧ (∀ s : State, s.lan.stopping = true → (∀ e ∈ s.lan.trackers, (s.tracker e.1).busy = false) →
        ∃ u : State, u.lan.stopping = false ∧ (∀ l, l < s.nLinks → u.lstate l = lsOff ∧ u.fget R.LNK_LSTAT_REASON 0 l = lrDomainStop ∧ (u.link l).keys = false)
          ∧ u.lan.msnTx = [] ∧ u.lan.msnRx = []
          ∧ exec .domainStopResume s = .next (match u.routesGo.lan.pending with
            | none => u.routesGo
            | some t => if u.routesGo.coreUp then u.routesGo.applyTable t else u.routesGo))
      ∧ (∀ (s : State) (u : Fin 6), s.hasLink (4 * u.val) = true → (∀ l ∈ fauLinks u.val, s.lstate l ≠ lsUp ∧ s.lstate l ≠ lsRecovering) →
        (∃ t, exec (.fauRemoved u) s = .next t ∧ t.lan.fau.toNat.testBit u.val = false
          ∧ (∀ l ∈ fauLinks u.val, t.lstate l = lsOff ∧ t.fget R.LNK_LSTAT_REASON 0 l = lrNoFau ∧ (t.link l).lasers = false)
          ∧ State.onlyIn [.regs, .lan] s t)
        ∧ ∃ t, exec (.fauFitted u) s = .next t ∧ t.lan.fau.toNat.testBit u.val = true
          ∧ (∀ l ∈ fauLinks u.val, s.lstate l ≠ lsOff → t.lstate l = s.lstate l)
          ∧ (∀ l ∈ fauLinks u.val, s.lstate l = lsOff → s.linkHalfUp (linkHalf l) = true → s.fget R.LNK_LCONF_EXPECT 0 l ≠ 31 → s.lan.started = true →
            t.lstate l = (if s.fbit R.LNK_CONF_AUTO 0 0 then lsTraining else lsDown))))

/-! ## Command windows -/

/-- A write of a lane is performed, held behind a full lane in its port's order, or refused; a packet is sealed where its sealing word is right, and read once
its lane has no head (R369, R370, R372 to R374). -/
def Obligations.LanesTakeSealAndRead : Prop :=
  ∀ (s : State) (w : Win) (lane : Fin 4), s.fnThere w.idx = true →
    let i := laneIdx w lane.val
    let l := s.lane i
    (∀ (off : BitVec 14) data, off.toNat + data.length ≤ laneSize w →
      (s.inD3 w.idx = true → ∀ p, exec (.laneWrite w lane off data p) s = .next (s.barUr w.idx false))
      ∧ (s.inD3 w.idx = false → exec (.laneWrite w lane off data true) s = .next (s.poisonIn w.idx))
      ∧ (s.inD3 w.idx = false → s.winOpen w.idx = false → exec (.laneWrite w lane off data false) s = .next s)
      ∧ (s.inD3 w.idx = false → s.winOpen w.idx = true → (s.heldAt w.port ≠ [] ∨ s.laneFull w lane.val off.toNat data.length = true) →
        ∃ t, exec (.laneWrite w lane off data false) s = .next t ∧ t.heldAt w.port = s.heldAt w.port ++ [.lane w lane.val off.toNat data]
          ∧ t.cmds.lanes = s.cmds.lanes ∧ State.onlyIn [.cmds] s t)
      ∧ (s.inD3 w.idx = false → s.winOpen w.idx = true → s.heldAt w.port = [] → s.laneFull w lane.val off.toNat data.length = false →
        l.shut = false →
        ∃ v : State, exec (.laneWrite w lane off data false) s = .next (v.sealCheck w lane.val off.toNat data) ∧ State.onlyIn [.cmds] s v
          ∧ v.lane i = { l with ring := (v.lane i).ring }
          ∧ (∀ j b, data[j]? = some b → memByte (v.lane i).ring (off.toNat + j) = b)
          ∧ (∀ a, a < off.toNat ∨ off.toNat + data.length ≤ a → memByte (v.lane i).ring a = memByte l.ring a)))
    ∧ (∀ off data, data.length = 8 → 5 ≤ (l.hdr (laneSize w)).2 →
      let len := (l.hdr (laneSize w)).2
      let word := ringRead l (laneSize w) off 8
      off = (l.e + 8 * len + laneSize w - 8) % laneSize w → l.fault = 0 → (l.hdr (laneSize w)).1 = l.x.toNat → bitsOf word 15 0 = l.x.toNat →
      bitsOf word 31 16 = len → bitsOf word 39 32 = 0xA5 →
      (s.sealCheck w lane.val off data).lane i = { l with
        e := (l.e + 8 * len) % laneSize w, full := l.full + 8 * len, x := l.x + 1, sealed := l.sealed ++ [(8 * len, s.cmds.seals + 1, s.fab.serial)] })
    ∧ (∀ n order mark r, l.sealed = (n, order, mark) :: r → s.pseqUp w = true → s.laneGated w lane.val = false →
      (l.heads ≠ [] → exec (.packetRead w lane) s = .next s)
      ∧ (l.heads = [] → ∃ v : State, exec (.packetRead w lane) s = .next (v.retryPort w.port) ∧ State.onlyIn [.cmds] s v
          ∧ v.lane i = { l with h := (l.h + n) % laneSize w, full := l.full - n, sealed := r,
                                heads := [⟨ringBytes l (laneSize w) l.h n, order, mark, s.tally⟩] }))

/-- Flushes, resets and the overflow guard of lanes: a flush takes effect with a FLUSHED run for every packet that it discards, ABORT halts the commands that
run; a reset lane starts anew at RSEQ; the guard faults the lane whose write has waited and flushes the window's lanes (R376, R394, R395, R398). -/
def Obligations.LanesFlushAndReset : Prop :=
  (∀ (s : State) (w : Win) (lane : Fin 4),
    let i := laneIdx w lane.val
    let l := s.lane i
    (l.flush = none → exec (.laneFlushEffect w lane) s = .next s)
    ∧ (∀ abort cause upTo, l.flush = some (abort, cause, upTo) → l.heads = [] →
      ∃ (v : State) (dead : List Run), exec (.laneFlushEffect w lane) s = .next (((if abort then
            (v.cmds.runs.filter fun r => !r.halyard && r.win == w && r.lane == lane.val && r.status.isNone).foldl
              (fun s r => s.haltRun r.id stFlushed cause) v else v).evWin R.CMD_WEVENT_FLUSH_DONE w.idx).retryPort w.port)
        ∧ (v.lane i).sealed = l.sealed.filter (fun e => upTo < e.2.1) ∧ (v.lane i).flush = none ∧ v.cmds.runs = s.cmds.runs ++ dead
        ∧ dead.length = (l.sealed.filter fun e => e.2.1 ≤ upTo).length ∧ (∀ r ∈ dead, r.status = some stFlushed ∧ r.win = w ∧ r.tStart = 0)
        ∧ State.onlyIn [.cmds] s v)
    ∧ (∀ h r, s.heldAt w.port = h :: r → (∃ off data, h = .lane w lane.val off data) →
      ∃ v : State, exec (.overflowGuard w lane) s = .next ((v.ev R.CMD_EVENT_OVF_GUARD 0).retryPort w.port) ∧ (v.lane i).fault = 1
        ∧ (∀ k, k < 4 → ∃ a, (v.lane (laneIdx w k)).flush = some (a, 2, s.cmds.seals)) ∧ v.fget R.CMD_EVENT_PORT 0 0 = w.port.num))
  ∧ (∀ (s : State) (w : Win) (x : W32), s.fnThere w.idx = true → s.inD3 w.idx = false → s.winOpen w.idx = true → s.heldAt w.port = [] →
    let n := x.toNat
    exec (.laneFlush w x) s = .next (s.writeWctl w x) ∧ exec (.laneReset w x) s = .next (s.writeWctl w x)
    ∧ (bitsOf n 11 8 = 0 → State.onlyIn [.regs, .cmds] s (s.writeWctl w x) ∧ ∀ k, k < 4 →
      (n.testBit k = true → ∃ a, ((s.writeWctl w x).lane (laneIdx w k)).flush = some (a, 1, s.cmds.seals) ∧ (n.testBit 4 = true → a = true))
      ∧ (n.testBit k = false → (s.writeWctl w x).lane (laneIdx w k) = s.lane (laneIdx w k)))
    ∧ (bitsOf n 3 0 = 0 → (∀ k, k < 4 → (s.lane (laneIdx w k)).heads = []) → ∀ k, k < 4 →
      (n.testBit (8 + k) = true → s.laneRuns w k = 0 →
        (s.writeWctl w x).lane (laneIdx w k) = { ring := (s.lane (laneIdx w k)).ring, x := BitVec.ofNat 16 (n / 65536), flush := (s.lane (laneIdx w k)).flush })
      ∧ ((n.testBit (8 + k) = false ∨ s.laneRuns w k ≠ 0) → (s.writeWctl w x).lane (laneIdx w k) = s.lane (laneIdx w k))))
  ∧ (∀ (s : State) (path : Path) (x : W32), s.pathReaches path .cmdDev 0 8 = true →
    ∃ t, exec (.cmdXflush path x) s = .next t ∧ State.onlyIn [.regs, .cmds] s t
      ∧ (x.toNat.testBit 31 = false → t.cmds = s.cmds)
      ∧ ∀ w : Win, w.fn.val = bitsOf x.toNat 2 0 + 1 →
        w.port = (match path with | .portW => .w | .portE => .e | _ => if x.toNat.testBit 8 then .e else .w) →
        ∀ k, k < 4 → x.toNat.testBit 31 = true → x.toNat.testBit (3 + k) = true →
        ∃ a, (t.lane (laneIdx w k)).flush = some (a, 1, s.cmds.seals))

/-- A lane's head starts once its checks pass, its order holds and there is room; a failed check ends it with its status without a start; one that another lane's head
outranks, or that must wait, stays. A started command ends once its work is done and the events that release it have occurred: T_END and the guard counts are taken, then the reply follows
(R262, R378, R385, R386, R390, R393). -/
def Obligations.CommandsStartAndEnd : Prop :=
  (∀ (s : State) (w : Win) (lane : Fin 4) (p : Packet) (r : List Packet), (s.lane (laneIdx w lane.val)).heads = p :: r →
    let c := Instr.commandStart w lane
    (s.outranked w lane.val = true → exec c s = .next s)
    ∧ (s.outranked w lane.val = false →
      let op := pktOpcode p.bytes
      let gs := cmdGroups p.bytes
      let part := (s.partOfWin w).getD 8
      let base := s.fget R.PWR_PBASE_BASE_W 0 part
      let charge := s.charge p.bytes + s.charged part
      let core := (s.half .west).core = false ∧ s.halfLive .west = true ∧ s.coreUp = true ∧ s.coreBusy = false
      (s.halfLive (s.portHalf w.port) = true → s.laneGated w lane.val = false → s.roomToRun w = true → s.orderHolds w lane.val p = true →
        s.postedDone w p.mark = true → s.startFail w p.bytes = none →
        (op ≠ 1 → (op = 2 → (s.site (pktBits p.bytes 258 256)).works.length < 16) → (isControl op = true → core) → s.headNext w lane.val p = .start)
        ∧ (op = 1 → (∀ r ∈ s.cmds.runs, ∀ g ∈ r.groups, g ∉ gs) →
          (pktField p.bytes 36 4 = 0 → charge ≤ base → s.headNext w lane.val p = .start)
          ∧ (pktField p.bytes 36 4 ≠ 0 → (s.pwr.grants.any fun g => g.1 == LeaveWho.cmd p.order) = true → charge ≤ base + pktField p.bytes 36 4 →
            s.headNext w lane.val p = .start)))
      ∧ (s.headNext w lane.val p = .wait → exec c s = .next s)
      ∧ (s.headNext w lane.val p = .start →
        s.startFail w p.bytes = none ∧ s.roomToRun w = true ∧ s.orderHolds w lane.val p = true ∧ s.postedDone w p.mark = true
        ∧ ∃ (v : State) (y : Run), exec c s = .next (if y.groups = [] then v else v.quadChange ((y.groups.map groupStack).eraseDups))
          ∧ v.cmds.runs = s.cmds.runs ++ [y] ∧ y.id = p.order ∧ y.bytes = p.bytes ∧ y.win = w ∧ y.lane = lane.val ∧ y.tStart = s.tally ∧ y.body = false
          ∧ y.status = none ∧ y.groups = (if op = 1 then gs else []) ∧ (v.lane (laneIdx w lane.val)).heads = (p :: r).filter (fun q => q.order != p.order)
          ∧ tget (fun _ => none) v.cmds.turn (s.portHalf w.port).num = some w.idx)
      ∧ (∀ f, s.headNext w lane.val p = .fail f →
        exec c s = .next ((((s.took w (pktOpcode p.bytes)).unqueueLeave (.cmd p.order) false).returnLeave (.cmd p.order)).completeHead w lane.val p f.1 f.2))
      ∧ (s.headNext w lane.val p = .ask → pktOpcode p.bytes = 1
        ∧ exec c s = .next (s.askLeave (.cmd p.order) 0 (pktField p.bytes 36 4) 0 (s.portHalf w.port)))))
  ∧ (∀ (s : State) (w : Win) (lane : Nat) (p : Packet) (st : BitVec 8) (d : Nat),
    ∃ y, (s.completeHead w lane p st d).cmds.runs = s.cmds.runs ++ [y] ∧ y.status = some st ∧ y.detail = BitVec.ofNat 24 d ∧ y.tStart = 0 ∧ y.id = p.order)
  ∧ (∀ (s : State) (id : Nat) (r : Run), s.run id = some r →
    (r.replied = true → exec (.commandEnd id) s = .next s)
    ∧ (r.replied = false → s.workEnd r = none → exec (.commandEnd id) s = .next s)
    ∧ ((pktOpcode r.bytes = 1 → r.halyard = true ∨ s.tilesDone r = true) → (pktOpcode r.bytes = 0xC2 → r.left = 0) →
      (r.status ≠ none ∨ (r.body = true ∧ pktOpcode r.bytes = 1) → s.workEnd r = some r)
      ∧ (r.status = none → r.body = true →
        ((pktOpcode r.bytes = 0x45 ∨ pktOpcode r.bytes = 0x46) →
          s.workEnd r = if s.handleBusy (pktField r.bytes 32 2) r.mark then none else some (r.finish stOk 0))
        ∧ ((pktOpcode r.bytes = 0x47 ∨ pktOpcode r.bytes = 0xC4) → s.workEnd r = if s.invalDone r then some (r.finish stOk 0) else none)))
    ∧ (∀ y, r.replied = false → s.workEnd r = some y →
      (s.releaseClear y = false → exec (.commandEnd id) s = .next s)
      ∧ (s.releaseClear y = true →
        ∃ (x : Run) (v : State), exec (.commandEnd id) s = .next (v.reply x) ∧ x.id = y.id ∧ x.tEnd = some s.tally ∧ x.guard = s.sumGuards y
          ∧ x.status = (if y.status = none then some stOk else y.status) ∧ x.leave = false))
    ∧ (r.mute = false → r.halyard = false → r.win.fn.val = 0 →
        ∃ v : State, s.reply r = v.retireRun r ∧ tget (fun _ => 0#512) v.cmds.slots (r.win.port.num * 64 + pktReply r.bytes % 64) = replyRecord r
          ∧ State.onlyIn [.cmds] s v)
    ∧ (r.halyard = false → pktTmo r.bytes ≠ 0 → exec (.commandTimeout id) s = .next (s.haltRun id stTimeout 0)))

/-- DISPATCH gives its tiles their records, SITE_WORK sends Work under a free tag, COPY and FILL issue an access for each sector, PUT and GET become trackers, and the
handle commands write their entry (R379 to R382). -/
def Obligations.WorkCommandsStartTheirWork : Prop :=
  ∀ (s : State) (id : Nat) (r : Run),
    (s.started id 0x01 r → r.groups.Nodup →
      ∃ (t : State) (svc : BitVec 3), exec (.dispatch id) s = .next t
        ∧ (∀ g k i, r.groups[k]? = some g → i < 4 →
          t.tile (4 * g + i) = { s.tile (4 * g + i) with inbox := some (dispRec r svc k i) })
        ∧ (∀ n, n / 4 ∉ r.groups → t.tile n = s.tile n) ∧ State.onlyIn [.regs, .tiles, .cmds] s t)
    ∧ (s.started id 0x02 r →
      let k := pktBits r.bytes 258 256
      (∀ f, s.workFail (s.runPart r) r.bytes = some f → s.endsRun (.siteWork id) id f.1 f.2)
      ∧ (s.workFail (s.runPart r) r.bytes = none →
        ∃ (v : State) (o : BitVec 512), exec (.siteWork id) s = .next (v.siteOut k (s.pseqOf r.win) (.ctl k 0x52 0 o))
          ∧ (v.site k).works = (s.site k).works ++ [(BitVec.ofNat 4 (s.freeWorkTag k), some id)]
          ∧ o.toNat % 2 ^ 52 = pktDva r.bytes 40 ∧ State.onlyIn [.regs, .sites, .cmds] s v))
    ∧ (s.started id 0x41 r →
      let n := pktField r.bytes 48 8 / 32
      ∃ (v : State) (f : Nat → DvaAcc), exec (.copy id) s = .next (v.issueAccs (some id) ((List.range n).map f)) ∧ State.onlyIn [.regs, .cmds] s v
        ∧ (∃ y, v.run id = some y ∧ y.left = n ∧ y.body = true)
        ∧ ∀ i, (f i).dva = BitVec.ofNat 52 (pktDva r.bytes 32 + 32 * i) ∧ (f i).op = (if moveCached r then .rdOnce else .memRd) ∧ (f i).ctx = runCtx r
          ∧ (f i).purp = .copyRd id (BitVec.ofNat 52 (pktDva r.bytes 40 + 32 * i)) (moveCached r))
    ∧ (s.started id 0x42 r →
      let n := pktField r.bytes 48 8 / 32
      ∃ (v : State) (f : Nat → DvaAcc), exec (.fill id) s = .next (v.issueAccs (some id) ((List.range n).map f)) ∧ State.onlyIn [.regs, .cmds] s v
        ∧ (∃ y, v.run id = some y ∧ y.left = n)
        ∧ ∀ i, (f i).dva = BitVec.ofNat 52 (pktDva r.bytes 32 + 32 * i) ∧ (f i).op = (if moveCached r then .wrThrough else .memWr) ∧ (f i).purp = .cmdWr id
          ∧ ∀ q, q < 4 → (f i).data.toNat / 2 ^ (64 * q) % 2 ^ 64 = pktField r.bytes 40 8)
    ∧ (∀ c op, (c, op) ∈ [(Instr.putCmd id, 0x43), (.getCmd id, 0x44)] → s.started id op r →
      ∃ (v : State) (x : Tracker), exec c s = .next (v.startPutFor x) ∧ State.onlyIn [.regs, .cmds] s v ∧ x.dev = pktBits r.bytes 260 256
        ∧ x.handle = pktBits r.bytes 276 261 ∧ x.off = pktField r.bytes 40 5 ∧ x.len = pktField r.bytes 48 3 ∧ x.isGet = decide (op = 0x44)
        ∧ x.owner = some (.cmd id) ∧ x.ctx = runCtx r
        ∧ (op = 0x43 → x.srcAt = pktDva r.bytes 56) ∧ (op = 0x44 → x.rhandle = pktField r.bytes 56 2 ∧ x.roff = pktField r.bytes 64 5))
    ∧ (∀ p, s.partOfWin r.win = some p →
      let h := pktField r.bytes 32 2
      (s.started id 0x45 r → ∃ t, exec (.handleSet id) s = .next t ∧ Hnd.valid (t.handle h) = true ∧ Hnd.part (t.handle h) = p
        ∧ (t.handle h).toNat / 16 = (pktEntry r.bytes).toNat / 16 ∧ (∀ j, j ≠ h → t.handle j = s.handle j) ∧ State.onlyIn [.lan, .cmds] s t)
      ∧ (s.started id 0x46 r → ∃ t, exec (.handleClear id) s = .next t ∧ Hnd.valid (t.handle h) = false
        ∧ (t.handle h).toNat / 2 = (s.handle h).toNat / 2 ∧ (∀ j, j ≠ h → t.handle j = s.handle j) ∧ State.onlyIn [.lan, .cmds] s t))

/-- XLT_INVAL and the context commands drop the cached entries of their context and await every InvAck; the synchronisation commands act on their Cleat, and SEQDIR's
records on their slots, in order (R383, R384, R402, R420). -/
def Obligations.ContextsCleatsAndSlotsTakeTheirCommands : Prop :=
  ∀ (s : State) (id : Nat) (r : Run),
    (∀ op c, (c, op) ∈ [(Instr.xltInval id, 0x47), (.ctxSet id, 0xC4), (.ctxClear id, 0xC4)] → s.started id op r →
      let x := invalCtx r
      let p := pktField r.bytes 40 8 % 2 ^ 44
      (op = 0xC4 → s.ctxOurs r = false → (c = .ctxClear id ↔ pktField r.bytes 34 1 = 1) → s.endsRun c id stCtxOwner 32)
      ∧ ((op = 0xC4 → s.ctxOurs r = true ∧ (c = .ctxSet id → pktField r.bytes 34 1 = 0 ∧ p % 16 = 0 ∧ p % 0x10000000 + 16400 ≤ 0x10000000)
          ∧ (c = .ctxClear id → pktField r.bytes 34 1 = 1)) →
        ∃ t, exec c s = .next t
          ∧ (∀ e ∈ t.xlt.caches, e ∈ s.xlt.caches ∧ ¬ (e.ctx.toNat = x ∧ e.start < (invalPages r).2 ∧ (invalPages r).1 < e.start + e.len))
          ∧ (∃ y, t.run id = some y ∧ y.left = (s.sitesWith x).length ∧ y.mark = s.fab.serial)
          ∧ tget (fun _ => none) t.xlt.tables x = (if op = 0x47 then tget (fun _ => none) s.xlt.tables x
              else if c = .ctxClear id then none else some (BitVec.ofNat 44 p))
          ∧ ∀ k m, (k, m) ∈ s.sitesWith x → (t.site k).invals = (s.site k).invals ++ [id]))
    ∧ (s.started id 0x80 r → s.endsRun (.nopCmd id) id stOk 0)
    ∧ (s.started id 0x81 r →
      ∃ v u : State, exec (.cleatSet id) s = .next ((v.kickTiles u).finish id stOk 0) ∧ (v.cleat (runCleat r).toNat).val = runValue r
        ∧ ∀ d, d ≠ (runCleat r).toNat → v.cleat d = s.cleat d)
    ∧ (s.started id 0x82 r →
      ∃ v u : State, exec (.cleatAdd id) s = .next ((v.kickTiles u).finish id stOk 0)
        ∧ (v.cleat (runCleat r).toNat).val = (s.cleat (runCleat r).toNat).val + runValue r ∧ ∀ d, d ≠ (runCleat r).toNat → v.cleat d = s.cleat d)
    ∧ (s.started id 0x83 r →
      ((runValue r).toNat ≤ (s.cleat (runCleat r).toNat).val.toNat → s.endsRun (.cleatWait id) id stOk 0)
      ∧ ((s.cleat (runCleat r).toNat).val.toNat < (runValue r).toNat →
        ∃ t y, exec (.cleatWait id) s = .next t ∧ t.run id = some y ∧ y.body = true ∧ y.status = none ∧ State.onlyIn [.regs, .cmds, .fid] s t))
    ∧ (∀ y, s.run id = some y → pktOpcode y.bytes = 0x83 → y.body = true → y.status = none → pktField y.bytes 46 2 ≠ 0 →
      s.endsRun (.cleatWaitTimeout id) id stTimeout 0)
    ∧ (s.started id 0x84 r →
      (exec (.seqdir id) s = .next ((s.setRun { r with body := true }).seqRecords { r with body := true } 0 (pktField r.bytes 32 2)))
      ∧ ∀ (v : State) (i n : Nat),
        let w := pktField r.bytes (40 + 24 * i) 8
        let slot := bitsOf w 9 0
        let old := (tget (fun _ => 0#128) v.cmds.seqdir slot).toNat
        let res := seqRecord (v.runPart r) (bitsOf w 11 10) old (pktField r.bytes (48 + 24 * i) 16)
        (∀ st, res = .error st → v.seqRecords r i (n + 1) = v.finish r.id st (2 ^ 23 + i))
        ∧ (∀ e, res = .ok e → ∃ u : State, v.seqRecords r i (n + 1) = u.seqRecords r (i + 1) n ∧ tget (fun _ => 0#128) u.cmds.seqdir slot = BitVec.ofNat 128 e
          ∧ ∀ j, j ≠ slot → tget (fun _ => 0#128) u.cmds.seqdir j = tget (fun _ => 0#128) v.cmds.seqdir j)
        ∧ (old.testBit 59 = true → bitsOf old 58 56 ≠ v.runPart r → res = .error stSlotOwner))

/-- PART_CREATE and the grants: a partition comes to exist with its key, mask, allowances and classes, and a grant takes what its records name: groups, granules, Cleats, shared
sets and their shares and seals, each only where it is free; a partition that does not exist, or is being whipped, gets NO_PARTITION (R453 to R458, R485).
What one record of a grant does: it takes a thing that is free, and none that is not (R454 to R456). -/
def Obligations.PartitionsAreCreatedAndGranted : Prop :=
  ( (∀ (s : State) (id : Nat) (r : Run), s.started id 0xC1 r → s.flrRuns (createOf r.bytes).win = false →
      let c := createOf r.bytes
      (∀ f, s.createFail c = some f → s.endsRun (.partCreate id) id f.1 f.2)
      ∧ (s.createFail c = none → s.endsRun (.partCreate id) id stOk 0
        ∧ ∃ t, exec (.partCreate id) s = .next t ∧ t.partExists c.part = true ∧ tget (fun _ => 0) t.hank.slots c.part = s.hank.nextKey
          ∧ t.fvec R.SEC_KEYSLOT_LOADED 0 0 c.part = true ∧ t.fget R.COH_WAYMASK_MASK 0 c.part = c.mask ∧ t.fget R.PWR_PBASE_BASE_W 0 c.part = c.base
          ∧ t.fget R.HUB_SVCPART_ALLOWED 0 c.part = c.allow ∧ (t.part c.part).win = some c.win ∧ (t.part c.part).dtag = BitVec.ofNat 16 c.dtag))
    ∧ (∀ (s : State) (id : Nat) (r : Run), s.started id 0xC2 r →
      let p := grantPart r
      let n := grantN r
      let b := { r with body := true }
      let v := (s.setRun b).tdiError p
      let rows := [(Instr.partGrantGroups id, 0), (.partGrantGranules id, 1), (.partGrantCleats id, 2), (.partGrantSharedNew id, 3), (.partGrantShareAdd id, 4),
        (.partGrantSeal id, 5), (.partGrantRelease id, 6), (.partGrantSharedRetire id, 7)]
      let k := grantSet r
      (∀ c op, (c, op) ∈ rows → grantOp r = op → s.partReady p = false → s.endsRun c id stNoPartition 0)
      ∧ (s.partReady p = true →
        (grantOp r = 0 → exec (.partGrantGroups id) s = .next ((v.grantRecs b (State.grantGroup p) 0 n).grantEnd id))
        ∧ (8 ≤ grantOp r → s.endsRun (.partGrantGroups id) id stBadField 33)
        ∧ (grantOp r = 1 → exec (.partGrantGranules id) s = .next ((v.grantRecs b (State.grantGran id p) 0 n).grantEnd id))
        ∧ (grantOp r = 2 → exec (.partGrantCleats id) s = .next ((v.grantRecs b (State.grantBlock p) 0 n).grantEnd id))
        ∧ (grantOp r = 3 → (21 < k ∨ ((s.sset k).live = true ∧ ((s.sset k).sealed = true ∨ (s.sset k).writer ≠ p))) →
          s.endsRun (.partGrantSharedNew id) id stBadField 36)
        ∧ (grantOp r = 3 → k ≤ 21 → ((s.sset k).live = true → (s.sset k).sealed = false ∧ (s.sset k).writer = p) →
          exec (.partGrantSharedNew id) s = .next ((v.grantRecs b (State.grantShared id p k) 0 n).grantEnd id))
        ∧ (grantOp r = 4 → (s.sset k).live = true → exec (.partGrantShareAdd id) s = .next ((v.grantRecs b (State.grantShare k) 0 n).grantEnd id))
        ∧ (grantOp r = 5 → (s.sset k).live = true → (s.sset k).writer = p → (s.sset k).sealed = false → pktBits r.bytes 296 296 = 0 → b.left = 0 →
          s.endsRun (.partGrantSeal id) id stOk 0
          ∧ ∃ t, exec (.partGrantSeal id) s = .next t ∧ (t.sset k).sealed = true ∧ ∀ g ∈ s.setGrans k, (t.own g).ro = true)
        ∧ (grantOp r = 6 → exec (.partGrantRelease id) s = .next ((v.grantRecs b (State.releaseGran id p) 0 n).grantEnd id))
        ∧ (grantOp r = 7 → (s.sset k).live = true → exec (.partGrantSharedRetire id) s = .next ((v.retireSet k).finish id stOk 0))
        ∧ (∀ c op, (c, op) ∈ [(Instr.partGrantShareAdd id, 4), (.partGrantSeal id, 5), (.partGrantSharedRetire id, 7)] → grantOp r = op →
          (s.sset k).live = false → s.endsRun c id stBadField 36))))
  ∧ ( ∀ (s : State) (id p v : Nat), p < 8 →
        let g := bitsOf v 4 0
        let b := bitsOf v 5 0
        let gs := rangeOf v
        (∀ u, State.grantGroup p s v = some u → s.groupOwner g = none ∧ g < s.nGroups ∧ u.groupOwner g = some p ∧ ∀ h, h ≠ g → h < 24 → u.groupOwner h = s.groupOwner h)
        ∧ (s.groupOwner g ≠ none → State.grantGroup p s v = none)
        ∧ (∀ u, State.grantGran id p s v = some u → (∀ x ∈ gs, s.own x = freeRec) ∧ gs ≠ []
          ∧ (∀ x ∈ gs, u.own x = { owner := BitVec.ofNat 4 p, slot := BitVec.ofNat 5 p }) ∧ (∀ x, x ∉ gs → u.own x = s.own x)
          ∧ (∀ x ∈ gs, (⟨x, p, some id⟩ : ZJob) ∈ u.hank.zfill) ∧ memByte u.hank.mem = memByte s.hank.mem)
        ∧ (gs.any (fun x => !s.granFree x) = true → State.grantGran id p s v = none)
        ∧ (∀ u, State.grantBlock p s v = some u → s.blockPart b = none ∧ u.blockPart b = some p ∧ (∀ c, c / 1024 = b → u.cleat c = {})
          ∧ ∀ c, c / 1024 ≠ b → u.cleat c = s.cleat c ∧ u.cleatOwner c = s.cleatOwner c)
        ∧ (s.blockPart b ≠ none → State.grantBlock p s v = none)
        ∧ (∀ k u, k ≤ 21 → State.grantShared id p k s v = some u → (∀ x ∈ gs, s.own x = freeRec) ∧ (u.sset k).live = true ∧ (u.sset k).writer = p
          ∧ ∀ x ∈ gs, (u.own x).owner = 8 ∧ (u.own x).slot = BitVec.ofNat 5 (sharedSlot k) ∧ (u.own x).writer = BitVec.ofNat 3 p)
        ∧ (∀ k u, State.grantShare k s v = some u → (s.sset k).sealed = true ∧ s.partExists (bitsOf v 2 0) = true
          ∧ ∀ x ∈ s.setGrans k, (u.own x).share.getLsbD (bitsOf v 2 0) = true)
        ∧ (∀ u, State.releaseGran id p s v = some u → (∀ x ∈ gs, (s.own x).owner.toNat = p) ∧ (∀ x ∈ gs, (⟨x, p, some id⟩ : ZJob) ∈ u.hank.zfill) ∧ u.hank.own = s.hank.own)
        ∧ (gs.any (fun x => (s.own x).owner.toNat != p) = true → State.releaseGran id p s v = none))

/-- PART_DESTROY starts a destruction, whose end frees or renews the partition and leaves its record; sites are bound and unbound with the statuses of R387; ATTEST waits for the
West core and writes its report by sectors; QUERY, MARGIN and LINK_CTL act as R388 has them (R308, R311, R387, R388, R462, R471, R571). -/
def Obligations.ControlCommandsTakeTheirEffect : Prop :=
  (∀ (s : State) (id : Nat) (r : Run),
    let b := { r with body := true }
    (s.started id 0xC3 r →
      let p := grantPart r
      (s.partExists p = false → s.endsRun (.partDestroy id) id stNoPartition 0)
      ∧ (s.partExists p = true → exec (.partDestroy id) s = .next ((s.setRun b).destroyPart p (.destroy id)))
      ∧ (∀ w, s.partExists p = true → (s.part p).win = some w → (s.part p).whip = none →
        ∃ v : State, exec (.partDestroy id) s = .next (v.whipItems p) ∧ (v.part p).whip = some (.destroy id)
          ∧ v.fbit R.SEC_PART_WHIPPING 0 p = true))
    ∧ (s.started id 0xC5 r →
      let k := bindSite r
      let p := bindPart r
      (∀ f, s.bindFail r = some f → s.endsRun (.siteBind id) id f.1 f.2)
      ∧ (s.partExists p = true → (s.part p).whip = none → s.siteState k = 3 → (∀ n, n < 16 → (bindSlot r n).2 = true → (bindSlot r n).1 / 512 = p) →
        (pktField r.bytes 33 1).testBit (pktBits r.bytes 274 272) = true →
        (pktBits r.bytes 263 263 = 1 → pktField r.bytes 104 64 = (((s.site k).digests).headD 0).toNat) →
        s.endsRun (.siteBind id) id stOk 0
        ∧ ∃ t, exec (.siteBind id) s = .next t ∧ t.siteState k = 4 ∧ t.fget R.SITE_STAT_PART k 0 = p
          ∧ t.fget R.SITE_SVC_ALLOWED k 0 = pktField r.bytes 33 1 ∧ t.fget R.SITE_SVC_DEFAULT k 0 = pktBits r.bytes 274 272
          ∧ ∀ n, n < 16 → t.slotCtx k n = if (bindSlot r n).2 then some (BitVec.ofNat 12 (bindSlot r n).1) else none))
    ∧ (s.started id 0xC6 r →
      let k := bindSite r
      (s.siteState k ≠ 4 → s.endsRun (.siteUnbind id) id stSiteState (s.siteState k))
      ∧ (s.siteState k = 4 →
        ∃ v : State, exec (.siteUnbind id) s = .next ((v.dropSiteLeave k true).unbindGo k) ∧ v.siteState k = 5
          ∧ v.fget R.SITE_STAT_PART k 0 = s.fget R.SITE_STAT_PART k 0 ∧ (v.site k).unbind = some (some id)
          ∧ (v.site k).held = (s.site k).held ++ (s.cleats.watches.filter fun w => w.site == k).map (fun w =>
              SiteMsg.watch w.slot ⟨w.tag, 0⟩ w.cleat w.target w.scope w.tmo)
          ∧ v.cleats.watches = s.cleats.watches.filter (fun w => w.site != k)))
    ∧ (s.started id 0xC7 r →
      let p := s.runPart r
      let signs := s.coreUp = true ∧ (s.fget R.SEC_LC_STATE 0 0 = 1 ∨ s.fget R.SEC_LC_STATE 0 0 = 2)
      let there := s.partExists p = true ∧ (s.part p).whip = none
      (¬ signs → exec (.attest id) s = .next s)
      ∧ (signs → ¬ there → s.endsRun (.attest id) id stNoPartition 0)
      ∧ (signs → there → pktDva r.bytes 32 % 64 ≠ 0 → s.endsRun (.attest id) id stBadField 32)
      ∧ (signs → there → pktDva r.bytes 32 % 64 = 0 →
        let x := s.report p (pktField r.bytes 40 32) ((pktField r.bytes 72 1).testBit 0)
        ∃ (v : State) (b : Run) (f : Nat → DvaAcc), exec (.attest id) s = .next (v.sendReport b ((List.range ((x.2 + 31) / 32)).map f))
          ∧ v.run id = some b ∧ b.left = (x.2 + 31) / 32 ∧ b.res = [BitVec.ofNat 64 x.2] ∧ State.onlyIn [.freeCtr, .regs, .cmds] s v
          ∧ ∀ i, (f i).dva = BitVec.ofNat 52 (pktDva r.bytes 32 + 32 * i)
            ∧ (32 * i + 32 ≤ x.2 → (f i).data = BitVec.ofNat 256 ((x.1 >>> (256 * i)) % 2 ^ 256))))
    ∧ (s.started id 0xC8 r →
      let item := pktField r.bytes 32 1
      ((3 < item ∨ (item = 2 ∧ r.win.fn.val = 0)) → s.endsRun (.query id) id stBadField 32)
      ∧ (item ≤ 3 → (item = 2 → r.win.fn.val ≠ 0) → s.endsRun (.query id) id stOk 0
        ∧ ∃ t y l, exec (.query id) s = .next t ∧ s.queryItem r item = some l ∧ t.run id = some y ∧ y.res = l.map (BitVec.ofNat 64)
          ∧ State.onlyIn [.cmds] s t))
    ∧ (s.started id 0xC9 r →
      let k := pktBits r.bytes 258 256
      let w := BitVec.ofNat 32 (pktField r.bytes 36 4)
      let kind := bitsOf w.toNat 9 7
      let u := (s.setRun b).marginFields k w
      (s.nStacks ≤ k → s.endsRun (.marginCmd id) id stBadField 32)
      ∧ (k < s.nStacks → s.halfLive (stackHalf k) = false → s.endsRun (.marginCmd id) id stBusy 0)
      ∧ (k < s.nStacks → s.halfLive (stackHalf k) = true → u.marginRefusal k w ≠ 0 → s.endsRun (.marginCmd id) id stMarginRefused (u.marginRefusal k w))
      ∧ (∀ l, k < s.nStacks → s.halfLive (stackHalf k) = true → kind ≤ 4 → bitsOf w.toNat 27 18 ≠ 0 → marginMax (s.fget R.SEC_LC_STATE 0 0) kind = some l → marginSteps w ≤ l →
        (2 ≤ kind → s.anyPart = false) → (∀ c, c < 128 → s.chState (128 * k + c) ≠ 1) → s.fbit R.MEM_MARGIN_STAT_BUSY k 0 = false →
        s.fbit R.MEM_MARCH_STAT_BUSY k 0 = false →
        exec (.marginCmd id) s = .next (u.startMargin k w (some id))
        ∧ (kind ≠ 4 → (u.startMargin k w (some id)).fbit R.MEM_MARGIN_STAT_BUSY k 0 = true
          ∧ ((u.startMargin k w (some id)).srun k).marginCmd = some id)))
    ∧ (s.started id 0xCA r →
      let l := pktField r.bytes 32 1
      let act := pktField r.bytes 33 1
      (s.seizedAway 5 = true → ∃ t, exec (.linkCtl id) s = .next t ∧ id ∈ t.fid.waiting ∧ State.onlyIn [.fid] s t)
      ∧ (s.seizedAway 5 = false →
        let dark := act = 1 ∧ s.halfLive (linkHalf l) = false
        (l < s.nLinks → dark → s.endsRun (.linkCtl id) id stBusy 0)
        ∧ ((s.nLinks ≤ l ∨ (s.lstate l = lsOff ∧ ¬ dark)) → s.endsRun (.linkCtl id) id stBadField 32)
        ∧ (l < s.nLinks → s.lstate l ≠ lsOff → act ≠ 1 → act ≠ 2 → s.endsRun (.linkCtl id) id stBadField 33)
        ∧ (l < s.nLinks → s.lstate l ≠ lsOff → ¬ dark → act = 1 ∨ act = 2 →
          ∃ u : State, exec (.linkCtl id) s = .next ((if act = 1 then u.retrain l else u.retireOp l).finish id stOk 0) ∧ State.onlyIn [.cmds, .fid] s u))))
  ∧ (∀ (s : State) (p : Fin 8) (us : BitVec 16) (w : Win) (y : WhipFor), (s.part p.val).win = some w → (s.part p.val).whip = some y →
    (∀ k, k < 8 → s.fget R.SITE_STAT_PART k 0 = p.val → s.siteState k ≠ 4 ∧ s.siteState k ≠ 5) → (s.half .west).warm = none → (s.half .east).warm = none →
    (∀ q ∈ s.hank.cold, q.ctx.toNat / 512 ≠ p.val) → (∀ q ∈ s.ports.posted, ∀ x ∈ q.accs, x.1.ctx.toNat / 512 ≠ p.val) →
    let x := s.part p.val
    ∃ v : State, exec (.whippingComplete p us) s = .next ((((if WhipFor.destroys x.whip || WhipFor.destroys x.also then v.freePart p.val else v.renewPart p.val w).destroyDone
        p.val x.whip).destroyDone p.val x.also).flrDone w)
      ∧ v.fget R.SEC_WHIP_US 0 0 = us.toNat ∧ v.fget R.SEC_WHIP_PART 0 0 = p.val ∧ v.fget R.SEC_WHIP_DONE 0 0 = 1
      ∧ v.fget R.SEC_WHIP_SEVERED 0 0 = b2n x.sev ∧ v.fbit R.SEC_PART_WHIPPING 0 p.val = false
      ∧ (v.part p.val).whip = none ∧ (v.part p.val).whipAt = s.tally ∧ (v.part p.val).whipUs = us.toNat
      ∧ State.onlyIn [.regs, .sec, .sites, .xlt, .ports, .out] s v)

/-! ## Translation -/

/-- A master's translation looks in its own cache, then in its half's walker's, then walks the table, and fills the caches that it missed; a fault is
held with its record: a free one taken for it, the one of its kind joined, or with none free the event FULL. A context without a table gives the fault of
kind 5 (R406 to R412).
A RETRY or CANCEL written by its window is performed after the port's earlier posted writes: each valid record named is freed, and its held requests are made
again or cancelled. An access of an aperture needs its partition, its EN and its translation; what a port holds goes before it, a write waits for the port's
earlier ones, and a read asks for each of its sectors (R251, R413, R414, R421, R422). -/
def Obligations.FaultsRecordsAndApertures : Prop :=
  ( ∀ (s : State) (m : Agent) (ctx : BitVec 12) (dva : Dva) (acc : BitVec 3) (hold : Bool),
      let c := Instr.rangeWalk m ctx dva acc hold
      let need := needOfCode acc
      let page := dva.toNat / 0x10000
      let p := ctx.toNat / 512
      let w₀ := s.walkerOf m
      let u := s.walked m ctx dva.toNat
      (∀ e, s.cached m ctx page need = some e → exec c s = .next (s.cacheEnt e) ∧ State.onlyIn [.xlt] s (s.cacheEnt e))
      ∧ (∀ e, s.cached m ctx page need = none → s.cached w₀ ctx page need = some e →
        exec c s = .next ((s.cacheEnt e).cacheEnt { e with owner := m }))
      ∧ (∀ e raw, s.cached m ctx page need = none → s.cached w₀ ctx page need = none → s.walk m ctx dva.toNat need = .ok e raw →
        exec c s = .next ((u.cacheEnt { e with owner := w₀ }).cacheEnt { e with owner := m }))
      ∧ (tget (fun _ => none) s.xlt.tables ctx.toNat = none → s.walk m ctx dva.toNat need = .fault 5 0x7FF ∧ u = s)
      ∧ (∀ k i (w : Win), s.cached m ctx page need = none → s.cached w₀ ctx page need = none → s.walk m ctx dva.toNat need = .fault k i →
        (u.part p).win = some w →
        (∀ r, u.sameRecord w.idx ctx k i = some r →
          (hold = false → exec c s = .next u)
          ∧ (hold = true → ∃ t, exec c s = .next t ∧ t.fbit R.XLT_FREC_JOINED w.idx r = true
            ∧ t.xlt.held = u.xlt.held ++ [⟨p, some r, ctx, k, i, dva, m, none, .accs []⟩]
            ∧ t.fget R.XLT_FREC_HOLDERS w.idx r = min (u.holders p r + 1) 1023))
        ∧ (∀ r, u.sameRecord w.idx ctx k i = none → u.freeRecord w.idx = some r →
          ∃ t, exec c s = .next t ∧ t.fbit R.XLT_FREC_VALID w.idx r = true
            ∧ t.fget R.XLT_FREC_KIND w.idx r = k % R.XLT_FREC_KIND.size ∧ t.fget R.XLT_FREC_INDEX w.idx r = i % R.XLT_FREC_INDEX.size
            ∧ t.fget R.XLT_FREC_CTX w.idx r = ctx.toNat ∧ t.fget R.XLT_FREC_DVA_LO w.idx r = dva.toNat % R.XLT_FREC_DVA_LO.size
            ∧ t.fget R.XLT_FREC_HOLDERS w.idx r = (if hold then 1 else 0) ∧ t.fbit R.XLT_FEVENT_NEW w.idx 0 = true
            ∧ t.xlt.held = (if hold then u.xlt.held ++ [⟨p, some r, ctx, k, i, dva, m, none, .accs []⟩] else u.xlt.held))
        ∧ (u.sameRecord w.idx ctx k i = none → u.freeRecord w.idx = none →
          (hold = false → exec c s = .next u)
          ∧ (hold = true → ∃ t, exec c s = .next t ∧ t.fbit R.XLT_FEVENT_FULL w.idx 0 = true
            ∧ t.xlt.held = u.xlt.held ++ [⟨p, none, ctx, k, i, dva, m, none, .accs []⟩] ∧ State.onlyIn [.regs, .xlt] u t))))
  ∧ ( (∀ (s : State) (w : Win) (v : W32) (p : Nat), s.fnThere w.idx = true → s.inD3 w.idx = false → s.winOpen w.idx = true → s.heldAt w.port = [] →
        s.partOfWin w = some p →
        let u := { s with fab := { s.fab with serial := s.fab.serial + 1 } }
        let x (b : Bool) := { u with ports := { u.ports with posted := s.ports.posted ++ [⟨w.idx, s.fab.serial, [], some (b, v)⟩] } }
        (s.postOut w.port.num = true → exec (.xltRetry w v) s = .next (x true) ∧ exec (.xltCancel w v) s = .next (x false))
        ∧ (s.postOut w.port.num = false → (∀ q ∈ s.ports.posted, q.win / 9 ≠ w.port.num) →
          exec (.xltRetry w v) s = .next (((namedRecords v).foldl (State.retryRecord w.idx p) u).postsGo w.port.num s.ports.posted.length)
          ∧ exec (.xltCancel w v) s = .next (((namedRecords v).foldl (State.cancelRecord w.idx p) u).postsGo w.port.num s.ports.posted.length))
        ∧ ∀ r, r < 32 →
          let mine := s.xlt.held.filter fun h => h.part == p && h.rcd == some r
          (s.fbit R.XLT_FREC_VALID w.idx r = false → State.retryRecord w.idx p s r = s ∧ State.cancelRecord w.idx p s r = s)
          ∧ (s.fbit R.XLT_FREC_VALID w.idx r = true → (∀ h ∈ s.xlt.held, h.part = p → h.rcd ≠ none) →
            ∃ u x : State, State.retryRecord w.idx p s r = mine.foldl State.reissue u ∧ State.cancelRecord w.idx p s r = mine.foldl State.cancelHeld x
              ∧ u.fbit R.XLT_FREC_VALID w.idx r = false ∧ x.fbit R.XLT_FREC_VALID w.idx r = false
              ∧ u.xlt.held = s.xlt.held.filter (fun h => !(h.part == p && h.rcd == some r)) ∧ x.xlt.held = u.xlt.held))
      ∧ (∀ (s : State) (w : Win) (n : Fin 4) (off : BitVec 34) (write : Option (List (BitVec 8))) (len : Nat),
        let c := Instr.hostApertureAccess w n off write len false
        let m : Agent := ⟨.port, w.port.num⟩
        let read := write.isNone
        ((w.fn.val = 0 ∨ s.fnThere w.idx = false) → ∀ b, exec (.hostApertureAccess w n off write len b) s = .next s)
        ∧ (w.fn.val ≠ 0 → s.fnThere w.idx = true → s.inD3 w.idx = true → ∀ b, exec (.hostApertureAccess w n off write len b) s = .next (s.barUr w.idx read))
        ∧ (w.fn.val ≠ 0 → s.fnThere w.idx = true → s.inD3 w.idx = false →
          (s.winOpen w.idx = false → exec (.hostApertureAccess w n off write len true) s = .next ((s.poisonIn w.idx).apRefuse w.idx read))
          ∧ (s.winOpen w.idx = true → s.heldAt w.port = [] →
            exec (.hostApertureAccess w n off write len true) s = .next ((s.poisonIn w.idx).apAccess w n.val off.toNat write len true)))
        ∧ (w.fn.val ≠ 0 → s.fnThere w.idx = true → s.inD3 w.idx = false →
          (s.winOpen w.idx = false → exec c s = .next (s.apRefuse w.idx read))
          ∧ (s.winOpen w.idx = true → s.heldAt w.port ≠ [] →
            ∃ t, exec c s = .next t ∧ t.heldAt w.port = s.heldAt w.port ++ [.aper w n.val off.toNat write len false] ∧ State.onlyIn [.cmds] s t)
          ∧ (s.winOpen w.idx = true → s.heldAt w.port = [] →
            (s.partOfWin w = none → exec c s = .next (s.apRefuse w.idx read))
            ∧ (∀ p, s.partOfWin w = some p →
              let ctx := BitVec.ofNat 12 (s.fget R.XLT_AP_HI_CTX w.idx n.val)
              let svc := BitVec.ofNat 3 (s.fget R.HUB_SVCPART_APERTURE 0 p)
              let dva := s.apDva w.idx n.val off.toNat
              let ds := sectorsOf dva len
              (s.fbit R.XLT_AP_LO_EN w.idx n.val = false → exec c s = .next (s.apNo w.idx read))
              ∧ (s.fbit R.XLT_AP_LO_EN w.idx n.val = true →
                (∀ k i d u, s.apDpas m ctx (if read then .read else .write) ds = (.error (k, i, d), u) →
                  exec c s = .next ((u.xltFaultLoose m ctx k i d).apNo w.idx read))
                ∧ (∀ as u data, write = some data → s.apDpas m ctx .write ds = (.ok as, u) →
                  let f (e : Nat × Nat) : DvaAcc × Nat := (apWrite m ctx svc dva w.idx data false u.fab.serial e.1, e.2)
                  let x := { u with fab := { u.fab with serial := u.fab.serial + 1 } }
                  (u.postOut w.port.num = true →
                    exec c s = .next { x with ports := { u.ports with posted := u.ports.posted ++ [⟨w.idx, u.fab.serial, (ds.zip as).map f, none⟩] } })
                  ∧ (u.postOut w.port.num = false → (∀ q ∈ u.ports.posted, q.win / 9 ≠ w.port.num) →
                    exec c s = .next ((((ds.zip as).map f).foldl (fun s e => s.sendAcc e.1 e.2) x).postsGo w.port.num u.ports.posted.length)))
                ∧ (∀ as u, write = none → s.apDpas m ctx .read ds = (.ok as, u) →
                  ∃ v : State, exec c s = .next (((ds.zip as).zipIdx).foldl (fun s e => s.sendAcc ⟨m, ctx, svc,
                      BitVec.ofNat 52 e.1.1, .rdOnce, 0, false, false, 0, .apRd u.ports.readCtr e.2⟩ e.1.2) v)
                    ∧ v.ports.reads = u.ports.reads ++ [⟨u.ports.readCtr, w.idx, u.fab.serial, dva % 32, len, (ds.zip as).length, [], false, false⟩]
                    ∧ State.onlyIn [.ports] u v)))))))

/-! ## Power -/

/-- A request of leave is decided at once, in this order: barred, refused for its quadrant, granted, queued, refused by the full queue; the queue's head is refused at its
timeout, and leave that expires goes back to the pool. A site's request comes through a valid slot, and one of an op that R294 does not list is a bad
field (R294, R309, R311, R317, R437 to R443, R447). -/
def Obligations.LeaveIsGrantedQueuedAndReturned : Prop :=
  (∀ (s : State) (k : Fin 8) (tag : CtlTag) (watts : BitVec 16) (us : BitVec 32), s.hasSite k.val = true → (tag.op = 0x54 ∨ tag.op.toNat ∉ ctlOps) →
    let c := Instr.leaveReq (.site k) tag watts us
    let w := watts.toNat
    let rsp (r : State) (st : BitVec 3) : Res := .next (r.siteRsp k.val (siteAgent k.val) ⟨tag.slot.val, tag.tag, 0, 0⟩ st 0 0 none)
    let v := s.modSite k.val fun x => { x with leaveTag := tag.tag }
    ((s.siteState k.val = 1 ∨ s.siteState k.val = 2 ∨ s.siteState k.val = 3) → exec c s = rsp s 2)
    ∧ (s.siteState k.val = 5 →
      ∃ t, exec c s = .next t ∧ (t.site k.val).held = (s.site k.val).held ++ [.ctl tag.slot.val tag.op tag.tag] ∧ State.onlyIn [.sites] s t)
    ∧ (s.siteState k.val = 4 → s.slotCtx k.val tag.slot.val = none → exec c s = rsp (s.ev R.SITE_EVENT_BAD_SLOT k.val) 2)
    ∧ (s.siteState k.val = 4 → s.slotCtx k.val tag.slot.val ≠ none → tag.op ≠ 0x54 → exec c s = rsp s 5)
    ∧ (s.siteState k.val = 4 → s.slotCtx k.val tag.slot.val ≠ none → tag.op = 0x54 →
      (s.leaveBarred (.site k) w us.toNat = true → exec c s = .next ((s.ev R.PWR_EVENT_LEAVE_REFUSED 0).tellSite (.site k) tag.tag 2))
      ∧ (s.leaveBarred (.site k) w us.toNat = false →
        (v.leaveOver (.site k) w = true → exec c s = .next ((v.ev R.PWR_EVENT_LEAVE_REFUSED 0).tellSite (.site k) tag.tag 2))
        ∧ (v.leaveOver (.site k) w = false → s.pwr.queue = [] → w ≤ v.freeW →
          exec c s = .next (v.grantLeave (.site k) w) ∧ (v.grantLeave (.site k) w).pwr.grants = s.pwr.grants ++ [(.site k, w)])
        ∧ (v.leaveOver (.site k) w = false → (s.pwr.queue ≠ [] ∨ v.freeW < w) →
          (s.pwr.queue.length < 32 → ∃ t q, exec c s = .next t ∧ q ∈ t.pwr.queue ∧ q.who = .site k ∧ q.watts = w ∧ t.pwr.queue.length = s.pwr.queue.length + 1
            ∧ t.pwr.grants = s.pwr.grants)
          ∧ (32 ≤ s.pwr.queue.length → ∃ t, exec c s = .next t ∧ t.fbit R.PWR_EVENT_QUEUE_FULL 0 0 = true ∧ t.pwr = s.pwr)))))
  ∧ (∀ (s : State) (id l : Nat) (p : Packet) tag watts us, s.headOf id = some (l, p) → s.headNext (winOf (l / 4)) (l % 4) p = .ask →
    exec (.leaveReq (.cmd id) tag watts us) s = .next (s.askLeave (.cmd id) 0 (pktField p.bytes 36 4) 0 (s.portHalf (winOf (l / 4)).port)))
  ∧ (∀ s : State,
    (s.pwr.queue = [] → exec .leaveQueueTimeout s = .next s)
    ∧ ∀ h r, s.pwr.queue = h :: r → ∃ v : State, exec .leaveQueueTimeout s = .next ((v.refuseLeave h.who).decideQueue 32) ∧ v.pwr.queue = r ∧ State.onlyIn [.pwr] s v)
  ∧ (∀ (s : State) (k : Fin 8), s.hasSite k.val = true →
    ((s.pwr.grants.any fun g => g.1 == LeaveWho.site k) = false → exec (.leaveExpire k) s = .next s)
    ∧ ((s.pwr.grants.any fun g => g.1 == LeaveWho.site k) = true →
      ∃ v : State, exec (.leaveExpire k) s = .next (v.decideQueue 32) ∧ v.pwr.grants = s.pwr.grants.filter (fun g => g.1 != .site k) ∧ v.pwr.queue = s.pwr.queue))

/-- The throttles of R445: a draw above PKG_W lowers the rails by a step, then the gates, and ten samples in a row below 0.95 of it end that; a junction above 100 °C lowers its half's
rail by a step, one above 105 °C to the lowest with gate 8, each until 3 °C below; a stack's temperature caps its gate; each release takes one step. -/
def Obligations.ThrottlesStepDownAndBack : Prop :=
  (∀ (s : State) (watts : BitVec 12),
    let lim := s.fget R.PWR_LIMIT_PKG_W 0 0
    let p := s.pwr
    ∃ t, exec (.packageDrawSample watts) s = .next t ∧ t.fget R.PWR_DRAW_PKG_W 0 0 = watts.toNat ∧ State.onlyIn [.regs, .pwr, .ports, .unread, .out] s t
      ∧ (lim < watts.toNat → p.pkgSteps < p.vNow → t.pwr = { p with pkgOn := true, calm := 0, pkgSteps := p.pkgSteps + 1 })
      ∧ (lim < watts.toNat → p.vNow ≤ p.pkgSteps → t.pwr = { p with pkgOn := true, calm := 0, pkgGate := max 4 (p.pkgGate - 1) })
      ∧ (watts.toNat ≤ lim → 20 * watts.toNat < 19 * lim → t.pwr = { p with calm := min 10 (p.calm + 1), pkgOn := p.pkgOn && decide (min 10 (p.calm + 1) < 10) })
      ∧ (watts.toNat ≤ lim → 19 * lim ≤ 20 * watts.toNat → t.pwr = { p with calm := 0 }))
  ∧ (∀ (s : State) (temp : Int),
    let p := s.pwr
    let hot := decide (105 < temp) || (p.jHotW && decide (102 < temp))
    let on := decide (100 < temp) || (p.jOnW && decide (97 < temp))
    ∃ t, exec (.junctionTempChange .west temp) s = .next t ∧ t.pwr = { p with
      junW := if hot then p.vNow else if on then min p.vNow (p.junW + 1) else p.junW, jgateW := if hot then min 8 p.jgateW else p.jgateW, jOnW := on, jHotW := hot })
  ∧ (∀ (s : State) (temp : Int), s.fuse.small = false →
    let p := s.pwr
    let hot := decide (105 < temp) || (p.jHotE && decide (102 < temp))
    let on := decide (100 < temp) || (p.jOnE && decide (97 < temp))
    ∃ t, exec (.junctionTempChange .east temp) s = .next t ∧ t.pwr = { p with
      junE := if hot then p.vNow else if on then min p.vNow (p.junE + 1) else p.junE, jgateE := if hot then min 8 p.jgateE else p.jgateE, jOnE := on, jHotE := hot })
  ∧ (∀ (s : State) (k : Fin 8) (temp : BitVec 8), k.val < s.nStacks →
    let old := tget (fun _ => 16) s.pwr.stkWant k.val
    ∃ t, exec (.stackTemperatureThrottle k temp) s = .next t ∧ t.fget R.MEM_STKTEMP_T k.val 0 = temp.toNat
      ∧ t.stkGate k.val = min (s.stkGate k.val) (tget (fun _ => 16) t.pwr.stkWant k.val)
      ∧ (93 < temp.toNat → tget (fun _ => 16) t.pwr.stkWant k.val = 8) ∧ (temp.toNat ≤ 87 → tget (fun _ => 16) t.pwr.stkWant k.val = 16)
      ∧ (90 < temp.toNat → temp.toNat ≤ 93 → old ≠ 8 → tget (fun _ => 16) t.pwr.stkWant k.val = 12)
      ∧ ∀ j, j ≠ k.val → t.stkGate j = s.stkGate j)
  ∧ (∀ s : State,
    let p := s.pwr
    ∃ t, exec .throttleReleaseStep s = .next t ∧ State.onlyIn [.regs, .pwr, .ports, .unread, .out] s t
      ∧ (p.pkgOn = true → t.pwr.pkgGate = p.pkgGate ∧ t.pwr.pkgSteps = p.pkgSteps)
      ∧ (p.pkgOn = false → p.pkgGate < 16 → t.pwr.pkgGate = p.pkgGate + 1 ∧ t.pwr.pkgSteps = p.pkgSteps)
      ∧ (p.pkgOn = false → 16 ≤ p.pkgGate → t.pwr.pkgSteps = p.pkgSteps - 1)
      ∧ t.pwr.junW = (if p.jOnW || p.jHotW then p.junW else p.junW - 1) ∧ t.pwr.jgateW = (if p.jHotW then p.jgateW else min 16 (p.jgateW + 1))
      ∧ ∀ k, k < 8 → t.stkGate k = min (tget (fun _ => 16) p.stkWant k) (s.stkGate k + 1))

/-- The governor's registers: PKG_W is taken only between the committed sum and what the part can draw, a base only where the sum fits, VTARGET once no DISPATCH runs, and tag minimums
only while no partition exists and within the pools (R428, R432, R434, R436, R566). -/
def Obligations.GovernorRegistersKeepTheirBounds : Prop :=
  ∀ (s : State) (path : Path) (w : W32),
    let n := w.toNat
    (s.pathReaches path .pwr 0 0x000 = true →
      let v := bitsOf n 11 0
      ((s.topPkg < v ∨ v < s.committed ∨ (s.coolAir = true ∧ 900 < v)) → exec (.pwrLimitWrite path w) s = .next (s.ev R.PWR_EVENT_LIMIT_REFUSED 0))
      ∧ (v ≤ s.topPkg → s.committed ≤ v → (s.coolAir = true → v ≤ 900) →
        ∃ u : State, exec (.pwrLimitWrite path w) s = .next (u.decideQueue 32) ∧ u.fget R.PWR_LIMIT_PKG_W 0 0 = v ∧ State.onlyIn [.regs] s u))
    ∧ (∀ p : Fin 8, s.pathReaches path .pwr 0 (0x010 + 4 * p.val) = true →
      let t := (s.fset R.PWR_PBASE_BASE_W 0 p.val (bitsOf n 11 0)).fset R.PWR_PBASE_LEAVE_MAX 0 p.val (bitsOf n 23 12)
      (s.fget R.PWR_LIMIT_PKG_W 0 0 < t.committed →
        ∃ u, exec (.pwrPbaseWrite p path w) s = .next u ∧ u.fbit R.PWR_EVENT_BASE_REFUSED 0 0 = true ∧ u.fget R.PWR_PBASE_BASE_W 0 p.val = s.fget R.PWR_PBASE_BASE_W 0 p.val)
      ∧ (t.committed ≤ s.fget R.PWR_LIMIT_PKG_W 0 0 →
        ∃ u : State, exec (.pwrPbaseWrite p path w) s = .next (u.decideQueue 32) ∧ u.fget R.PWR_PBASE_BASE_W 0 p.val = bitsOf n 11 0
          ∧ u.fget R.PWR_PBASE_LEAVE_MAX 0 p.val = bitsOf n 23 12))
    ∧ (s.pathReaches path .pwr 0 0x004 = true →
      let vt := bitsOf n 2 0
      ∃ t, exec (.pwrConfWrite path w) s = .next t
        ∧ t.fget R.PWR_CONF_QWAIT_MS 0 0 = (if bitsOf n 10 3 = 0 then s.fget R.PWR_CONF_QWAIT_MS 0 0 else bitsOf n 10 3)
        ∧ t.fget R.PWR_CONF_MAXDUR_MS 0 0 = (if bitsOf n 20 11 = 0 then s.fget R.PWR_CONF_MAXDUR_MS 0 0 else bitsOf n 20 11)
        ∧ (4 < vt → t.fget R.PWR_CONF_VTARGET 0 0 = s.fget R.PWR_CONF_VTARGET 0 0 ∧ t.pwr = s.pwr)
        ∧ (vt ≤ 4 → s.cmds.runs.any Run.dispatching = true → t.pwr = { s.pwr with vStaged := some vt })
        ∧ (vt ≤ 4 → s.cmds.runs.any Run.dispatching = false → t.pwr = { s.pwr with vStaged := none, vNow := vt } ∧ t.fget R.PWR_CONF_VTARGET 0 0 = vt))
    ∧ (∀ k : Fin 3, s.pathReaches path .hub 0 (0x120 + 4 * k.val) = true →
      let t := (tagminFields k.val).foldl (fun t f => t.fset f.1 0 0 (bitsOf n f.1.hi f.1.lo)) s
      (s.anyPart = true → ∃ u, exec (.hubTagminWrite k path w) s = .next u ∧ u.fbit R.HUB_SVCEVENT_MIN_REFUSED 0 0 = true
        ∧ ∀ f ∈ tagminFields k.val, u.fget f.1 0 0 = s.fget f.1 0 0)
      ∧ (s.anyPart = false → ((tagminFields k.val).any fun f => decide (f.2 < bitsOf n f.1.hi f.1.lo)) = true →
        ∃ u, exec (.hubTagminWrite k path w) s = .next u ∧ u.fbit R.HUB_SVCEVENT_MIN_REFUSED 0 0 = true ∧ State.onlyIn [.regs] s u
          ∧ ∀ f ∈ tagminFields k.val, u.fget f.1 0 0 = s.fget f.1 0 0)
      ∧ (s.anyPart = false → ((tagminFields k.val).any fun f => decide (f.2 < bitsOf n f.1.hi f.1.lo)) = false → t.sumMin .west ≤ 32768 →
        (s.fuse.small = true ∨ t.sumMin .east ≤ 32768) →
        ∃ u : State, exec (.hubTagminWrite k path w) s = .next u.pump ∧ ∀ f ∈ tagminFields k.val, u.fget f.1 0 0 = bitsOf n f.1.hi f.1.lo))

/-! ## Security -/

/-- An alarm is deferred while a transition burns; else its source and level are recorded and each level adds its actions: level 2 ends sessions,
shared sets and secured streams, level 3 the identity keys and the cores, level 4 begins scrapping (R480, R481, R483).
A write of SEC_LCTRANS begins a transition of R483, or is ignored with LC_REFUSED; the end of the burn brings the new state, the creation counts at zero, scrapping's
erasures, and the alarms deferred meanwhile (R469, R483, R485, R486). -/
def Obligations.AlarmsAndLifeCycle : Prop :=
  ( (∀ (s : State) (n : Fin 2),
      let cfg := s.fget (if n.val = 0 then R.SEC_ALARMCFG_TAMPER0 else R.SEC_ALARMCFG_TAMPER1) 0 0
      let rows : List (Instr × Nat × Nat) :=
        [(.tamperAssert n, alTamper, cfg), (.crystalFault, alCrystal, 3), (.railGlitch, alGlitch, 3), (.junctionCold, alCold, 3)]
      ∀ c row level, (c, row, level) ∈ rows →
        (s.fbit R.SEC_LC_BUSY 0 0 = true →
          ∃ t, exec c s = .next t ∧ t.sec = { s.sec with deferred := s.sec.deferred ++ [(row, level)] } ∧ State.onlyIn [.sec] s t)
        ∧ (s.fbit R.SEC_LC_BUSY 0 0 = false →
          ∃ u : State, State.onlyIn [.regs] s u ∧ (u.fget R.SEC_ALARM_SOURCES 0 0).testBit row = true
            ∧ u.fget R.SEC_ALARM_LEVEL 0 0 = max level (s.fget R.SEC_ALARM_LEVEL 0 0) % 8
            ∧ (level < 2 → exec c s = .next u) ∧ (level = 2 → exec c s = .next u.alarmTwo)
            ∧ (level = 3 → exec c s = .next u.alarmTwo.alarmThree) ∧ (4 ≤ level → exec c s = .next (u.alarmTwo.alarmThree.beginBurn 3))))
    ∧ ∀ u : State,
      (u.alarmTwo.sec.session = false ∧ u.alarmTwo.sec.ide = [] ∧ u.alarmTwo.sec.spdm = [] ∧ u.alarmTwo.sec.keyEx = [] ∧ u.alarmTwo.sec.alarm2 = true
        ∧ (∀ r ∈ u.alarmTwo.cmds.runs, r.halyard = true → r.mute = true) ∧ ∀ k, k < 22 → (u.alarmTwo.sset k).live = false)
      ∧ (u.alarmThree.sec.idKeys = false ∧ u.alarmThree.sec.halted = true ∧ u.alarmThree.boot.attn = true
        ∧ ∀ h, u.alarmThree.coreRuns h = false)
      ∧ ((u.beginBurn 3).sec.burning = some 3 ∧ (u.beginBurn 3).fbit R.SEC_LC_BUSY 0 0 = true))
  ∧ ( (∀ (s : State) (path : Path) (w : W32), s.pathReaches path .sec 0 0x004 = true →
        let target := bitsOf w.toNat 1 0
        ((bitsOf w.toNat 31 16 ≠ 0xC1A7 ∨ s.fget R.SEC_LC_STATE 0 0 = 2 ∨ s.lcMay target = false) → exec (.secLctransWrite path w) s = .next (s.ev R.SEC_EVENT_LC_REFUSED 0))
        ∧ (bitsOf w.toNat 31 16 = 0xC1A7 → s.fget R.SEC_LC_STATE 0 0 ≠ 2 → s.lcMay target = true →
          ∃ t, exec (.secLctransWrite path w) s = .next t ∧ t.fbit R.SEC_LC_BUSY 0 0 = true ∧ t.sec = { s.sec with burning := some target }
            ∧ State.onlyIn [.regs, .sec] s t))
      ∧ (∀ (s : State) (target : Nat), s.lcMay target = true →
          s.fget R.SEC_LC_STATE 0 0 < target ∧ target ≤ 3 ∧ s.anyPart = false ∧ s.fbit R.SEC_LC_BUSY 0 0 = false)
      ∧ (∀ s : State,
        (s.sec.burning = none → exec .lcBurnDone s = .next s)
        ∧ ∀ target, s.sec.burning = some target → ∃ u : State, exec .lcBurnDone s = .next (s.sec.deferred.foldl (fun s a => s.alarm a.1 a.2) u)
          ∧ u.fget R.SEC_LC_STATE 0 0 = target % 4 ∧ u.fbit R.SEC_LC_BUSY 0 0 = false ∧ (∀ p, p < 8 → u.fget R.SEC_PART_GEN 0 p = 0)
          ∧ (target ≠ 3 → u.fuse = s.fuse ∧ u.sec = { s.sec with burning := none, deferred := [] })
          ∧ (target = 3 → u.sec = { s.sec with burning := none, deferred := [], anchor := none, fwPend := none }
            ∧ ∃ n, u.fuse = { s.fuse with svnMin := n })))

/-- One Halyard session at a time: a connection is refused at TCP while one is open, while the port is shut or without the core; a client of the enrolled
anchor opens it; the first client enrols itself; a failed handshake is counted and the third in 60 s shuts the port; idling or closing ends it
(R477, R478, R480, R485).
What the messages of an open session do: COMMAND starts a run, REPORT answers a device-level report, DOMAIN hands over its table, the two FW messages
fill and verify the inactive slot, LC begins a transition of R483 or refuses, DEBUG opens or counts a failure, ANCHOR enrols, and REG reads or writes a register
of its blocks (R471, R476, R478, R479, R483 to R485, R571). -/
def Obligations.HalyardSessionAndMessages : Prop :=
  ( ∀ (s : State) (c : Client),
      let e := exec (.halyardConnect c) s
      ((s.sec.session = true ∨ s.shut = true ∨ s.coreUp = false) → ∃ t, e = .next t ∧ t.out = s.out ++ [.tcpRefused] ∧ State.onlyIn [.out] s t)
      ∧ (s.sec.session = false → s.shut = false → s.coreUp = true →
        let fails := c.suiteOk = false ∨ c.keyOk = false ∨ (s.sec.anchor.isSome = true ∧ c.chainOk = false) ∨ (s.sec.anchor = none ∧ c.selfSigned = false)
        (∀ d, s.sec.anchor = some d → c.suiteOk = true → c.keyOk = true → c.chainOk = true →
          ∃ t, e = .next t ∧ t.sec = { s.sec with session := true } ∧ State.onlyIn [.sec] s t)
        ∧ (s.sec.anchor = none → c.suiteOk = true → c.keyOk = true → c.selfSigned = true →
          ∃ t, e = .next t ∧ t.sec = { s.sec with session := true, anchor := some c.digest } ∧ t.fbit R.SEC_EVENT_ANCHOR_SET 0 0 = true)
        ∧ (fails → (s.window handshakeSpan s.sec.hsFails).length < 2 →
          ∃ t, e = .next t ∧ t.sec = { s.sec with hsFails := s.window handshakeSpan s.sec.hsFails ++ [s.tally] } ∧ State.onlyIn [.sec] s t)
        ∧ (fails → 2 ≤ (s.window handshakeSpan s.sec.hsFails).length →
          ∃ u : State, e = .next (u.alarm alHandshake 1) ∧ u.sec = { s.sec with hsFails := [], hsShut := some s.tally } ∧ State.onlyIn [.sec] s u
            ∧ (u.alarm alHandshake 1).shut = true))
      ∧ (∀ d, d = Instr.halyardIdleTimeout ∨ d = Instr.halyardSessionClose →
        (s.sec.session = false → exec d s = .next s)
        ∧ (s.sec.session = true → ∃ t, exec d s = .next t ∧ t.sec = { s.sec with session := false } ∧ (∀ r ∈ t.cmds.runs, r.halyard = true → r.mute = true)
          ∧ t.cmds.runs.length = s.cmds.runs.length ∧ State.onlyIn [.sec, .cmds] s t)))
  ∧ ( (∀ (s : State) (b : List (BitVec 8)) (nonce : BitVec 256) (ch : Bool) (d : DomainTable) (off : BitVec 32) (data : List (BitVec 8)) (len : BitVec 32)
          (rs ok : Bool) (svn : Nat) (dg : BitVec 512) (tg : BitVec 2) (tok : DebugToken) (a : Client) (m : RegMsg),
        (s.sec.session = false ∨ s.coreUp = false) →
        ∀ c ∈ [Instr.halyardCommand b, .halyardReport nonce ch, .halyardDomain d, .halyardFwData off data, .halyardFwCommit len rs ok svn dg, .halyardLc tg,
          .halyardDebug tok, .halyardAnchor a, .halyardReg m], exec c s = .next s)
      ∧ ∀ s : State, s.sec.session = true → s.coreUp = true →
        let busy := s.fbit R.SEC_LC_BUSY 0 0
        let puts (c : Instr) (st : State) (type status : Nat) (body : List (BitVec 8)) : Prop := exec c s = .next (st.hAnswer type status body)
        (∀ b, s.coreBusy = false → ∃ t r, exec (.halyardCommand b) s = .next t ∧ t.cmds.runs = s.cmds.runs ++ [r] ∧ r.bytes = b ∧ r.halyard = true
          ∧ r.id = s.cmds.seals + 1 ∧ (b.length ≠ 8 * pktLen b → r.status = some stBadField)
          ∧ (b.length = 8 * pktLen b → s.headerFail ⟨.w, 0⟩ b = none →
            r.status = if isControl (pktOpcode b) then none else some stNotPermitted)
          ∧ State.onlyIn [.cmds] s t)
        ∧ (∀ nonce ch, (s.signs = false → puts (.halyardReport nonce ch) s 2 1 [])
          ∧ (s.signs = true → puts (.halyardReport nonce ch) s.bump 2 0 (docBytes (s.report 0xFF nonce.toNat ch).1 0 (s.report 0xFF nonce.toNat ch).2)))
        ∧ (∀ d, (s.linksOff = true → s.lan.stopping = false → puts (.halyardDomain d) (s.applyTable d) 3 0 [])
          ∧ (s.lan.stopping = true → ∃ u : State, puts (.halyardDomain d) u 3 0 [] ∧ u.lan = { s.lan with pending := some d } ∧ State.onlyIn [.lan] s u)
          ∧ (s.linksOff = false → s.lan.stopping = false → ∃ u : State, puts (.halyardDomain d) u.stopDomain 3 0 [] ∧ u.lan = { s.lan with pending := some d }
            ∧ State.onlyIn [.lan] s u))
        ∧ (∀ off data, (busy = true → data.length ≤ 65536 → puts (.halyardFwData off data) s 4 hBusy [])
          ∧ (busy = false → data.length ≤ 65536 → ∃ u : State, puts (.halyardFwData off data) u 4 0 [] ∧ State.onlyIn [.sec] s u
            ∧ u.sec = { s.sec with fwBusy := true, fwPend := none, fwData := s.sec.fwData ++ [(off.toNat, data.length)] })
          ∧ (65536 < data.length → puts (.halyardFwData off data) s 4 1 []))
        ∧ (∀ (len : BitVec 32) rs ok svn dg, ((busy = true ∨ s.resetting = true) → puts (.halyardFwCommit len rs ok svn dg) s 5 hBusy [])
          ∧ (busy = false → s.resetting = false →
            let good := s.sec.fwBusy && (ok && len != 0) && decide (s.fuse.svnMin ≤ svn)
            ∃ u : State, puts (.halyardFwCommit len rs ok svn dg) u 5 (if good then 0 else 1) [] ∧ State.onlyIn [.sec] s u
              ∧ u.sec = { s.sec with fwBusy := false, fwData := [], fwPend := if good then some (dg, svn, rs) else s.sec.fwPend }))
        ∧ (∀ tg : BitVec 2, (s.lcMay tg.toNat = true → puts (.halyardLc tg) (s.beginBurn tg.toNat) 6 0 [])
          ∧ (s.lcMay tg.toNat = false → puts (.halyardLc tg) (s.ev R.SEC_EVENT_LC_REFUSED 0) 6 1 []))
        ∧ (∀ t : DebugToken, ((s.anyPart = true ∨ s.fget R.SEC_LC_STATE 0 0 ≠ 2) → puts (.halyardDebug t) s 7 1 [])
          ∧ (s.anyPart = false → s.fget R.SEC_LC_STATE 0 0 = 2 →
            (t.sigOk = true → t.dikOk = true → t.nonce = s.dbgNonce → ∃ u : State, puts (.halyardDebug t) u 7 0 [] ∧ u.fget R.SEC_DBG_OPEN 0 0 = t.bits.toNat
              ∧ u.sec = { s.sec with dbgEver := true } ∧ u.fbit R.SEC_EVENT_DBG_OPEN 0 0 = true)
            ∧ ((t.sigOk = false ∨ t.dikOk = false ∨ t.nonce ≠ s.dbgNonce) →
              ∃ u : State, State.onlyIn [.regs, .freeCtr] s u ∧ u.fget R.SEC_DBG_FAILS 0 0 = min (s.fget R.SEC_DBG_FAILS 0 0 + 1) 3
                ∧ u.fget R.SEC_DBG_OPEN 0 0 = s.fget R.SEC_DBG_OPEN 0 0
                ∧ puts (.halyardDebug t) (if s.fget R.SEC_DBG_FAILS 0 0 = 2 then u.alarm alDebug 1 else u) 7 1 [])))
        ∧ (∀ a : Client, ((a.selfSigned = false ∨ a.keyOk = false) → puts (.halyardAnchor a) s 8 1 [])
          ∧ (a.selfSigned = true → a.keyOk = true → ∃ u : State, puts (.halyardAnchor a) u 8 0 [] ∧ u.sec.anchor = some a.digest
            ∧ u.fbit R.SEC_EVENT_ANCHOR_SET 0 0 = true ∧ State.onlyIn [.sec, .regs, .ports, .out] s u))
        ∧ (∀ m : RegMsg, (s.sec.regWait = none ∨ s.sec.regWait = some m) →
          ((∀ b i off, regAt m.addr ≠ some (.reg b i off)) → puts (.halyardReg m) s 9 1 [])
          ∧ ∀ b i off, regAt m.addr = some (.reg b i off) →
            (b ∉ regBlocks → puts (.halyardReg m) s 9 1 [])
            ∧ (b ∈ regBlocks →
              (m.value = none → puts (.halyardReg m) (s.readReg .west b i off).2 9 0 (docBytes (s.readReg .west b i off).1 0 4))
              ∧ (∀ v, m.value = some v →
                let go (t : State) : State := ({ t with sec := { t.sec with regWait := none } }.writeReg .west b i off v.toNat)
                (needsSeize b off v.toNat = none → puts (.halyardReg m) (go s) 9 0 [])
                ∧ (∀ n, needsSeize b off v.toNat = some n →
                  (s.seizer n = none → puts (.halyardReg m) ((go (s.setSeizer n (some .west))).giveSeize n .west) 9 0 [])
                  ∧ (∀ p, s.seizer n = some p → p ≠ .west → ∃ t, exec (.halyardReg m) s = .next t ∧ t.sec.regWait = some m ∧ State.onlyIn [.sec] s t))))))

/-- A function's mailbox answers each SPDM request by the function's session and the state of its interface, the blocks of a measurement, and the interface report:
nothing once the keys are gone, ResponseNotReady without the core (R473 to R476). -/
def Obligations.MailboxesAnswer : Prop :=
  ∀ (s : State) (w : Win) (i : BitVec 8) (nonce : BitVec 256),
    let ask (r : SpdmReq) := exec (.spdmRequest w r) s
    let fails (x : Host.Outcome State Fault Refusal) (e : BitVec 8) : Prop := x = .next (s.spdmFail w.idx e)
    let onlySec (x : Host.Outcome State Fault Refusal) (code : Nat) (y : Security) : Prop :=
      ∃ u : State, x = .next (u.spdmOk w.idx code) ∧ u.sec = y ∧ State.onlyIn [.sec] s u
    ((s.fnThere w.idx = false ∨ s.sec.halted = true) →
      (∀ r, ask r = .next s) ∧ exec (.getMeasurements w i nonce) s = .next s ∧ exec (.getDeviceInterfaceReport w nonce) s = .next s)
    ∧ (s.fnThere w.idx = true → s.sec.halted = false → s.coreUp = false →
      (∀ r, fails (ask r) spdmNotReady) ∧ fails (exec (.getMeasurements w i nonce) s) spdmNotReady ∧ fails (exec (.getDeviceInterfaceReport w nonce) s) spdmNotReady)
    ∧ (s.fnThere w.idx = true → s.sec.halted = false → s.coreUp = true →
      (∀ e ∈ [(SpdmReq.getVersion, 0x04), (.getCapabilities, 0x61), (.negotiateAlgorithms, 0x63), (.getDigests, 0x01), (.getCertificate, 0x02), (.challenge, 0x03)],
        onlySec (ask e.1) e.2 s.sec)
      ∧ onlySec (ask .keyExchange) 0x64 { s.sec with keyEx := addOnce w.idx s.sec.keyEx }
      ∧ (w.idx ∈ s.sec.keyEx → onlySec (ask .finish) 0x65
        { s.sec with keyEx := s.sec.keyEx.filter (fun j => j != w.idx), spdm := addOnce w.idx s.sec.spdm })
      ∧ (w.idx ∉ s.sec.keyEx → fails (ask .finish) spdmUnexpected)
      ∧ (∀ r ∈ [SpdmReq.pskExchange, .mutualAuth, .provisioning, .other], fails (ask r) spdmUnsupported)
      ∧ (w.idx ∉ s.sec.spdm → ∀ r ∈ [SpdmReq.heartbeat, .keyUpdate, .endSession, .ideKm, .tdispLock, .tdispStart, .tdispStop], fails (ask r) spdmUnexpected)
      ∧ (w.idx ∈ s.sec.spdm →
        onlySec (ask .heartbeat) 0x68 s.sec ∧ onlySec (ask .keyUpdate) 0x69 s.sec
        ∧ onlySec (ask .endSession) 0x6C { s.sec with spdm := s.sec.spdm.filter (fun j => j != w.idx) }
        ∧ onlySec (ask .ideKm) 0x7E { s.sec with ide := addOnce w.idx s.sec.ide }
        ∧ ((w.fn.val = 0 ∨ s.partOfWin w = none) → ∀ r ∈ [SpdmReq.tdispLock, .tdispStart, .tdispStop], fails (ask r) spdmUnsupported)
        ∧ (w.fn.val ≠ 0 → s.partOfWin w ≠ none →
          let moves (r : SpdmReq) (y : Tdi) : Prop := ∃ u : State, ask r = .next (u.spdmOk w.idx 0x7E) ∧ u.tdi w = y ∧ State.onlyIn [.sec] s u
          (s.tdi w = .unlocked → moves .tdispLock .locked) ∧ (s.tdi w ≠ .unlocked → fails (ask .tdispLock) spdmInvalid)
          ∧ (s.tdi w = .locked → moves .tdispStart .run) ∧ (s.tdi w ≠ .locked → fails (ask .tdispStart) spdmInvalid)
          ∧ moves .tdispStop .unlocked))
      ∧ (∀ b, i ≠ 7 → s.measureBlock i.toNat = some b → exec (.getMeasurements w i nonce) s = .next (s.pushOut (.spdm w.idx 0x60 b)))
      ∧ ((i = 0 ∨ 8 ≤ i.toNat) → fails (exec (.getMeasurements w i nonce) s) spdmInvalid)
      ∧ (∀ p, s.reqPart w = some p → s.signs = true →
        exec (.getMeasurements w 7 nonce) s = .next (s.bump.pushOut (.spdm w.idx 0x60 (docBytes (s.report p nonce.toNat false).1 0 11000)))
        ∧ (w.fn.val ≠ 0 →
          exec (.getDeviceInterfaceReport w nonce) s = .next (s.bump.pushOut (.spdm w.idx 0x7E (docBytes (s.report p nonce.toNat false).1 0 11000)))))
      ∧ (w.fn.val = 0 → fails (exec (.getDeviceInterfaceReport w nonce) s) spdmUnsupported))

/-! ## Host ports -/

/-- A reset of a virtual function clears its configuration, its interface state and its keys, and whips its partition; clearing VF Enable resets all of them; a reset of
the physical function frees its Seizings, flushes its lanes and discards its records; a port's own reset counts and takes the link down; training brings it
up (R487, R488, R493, R505 to R509, R513, R570). -/
def Obligations.FunctionsAndPortsReset : Prop :=
  (∀ (s : State) (w : Win),
    let c := Instr.vfFlr w
    ((w.fn.val = 0 ∨ s.cfgReach w = false ∨ s.flrRuns w = true) → exec c s = .next s)
    ∧ (w.fn.val ≠ 0 → s.cfgReach w = true → s.flrRuns w = false →
      ∃ u : State, u.tdi w = .unlocked ∧ w.idx ∉ u.sec.ide ∧ w.idx ∉ u.ports.d3
        ∧ (∀ n, n < 128 → u.cfgBit w.idx n = (decide (96 ≤ n) && decide (n < 115) && s.cfgBit w.idx n))
        ∧ (∀ i n, i ≠ w.idx → n < 128 → u.cfgBit i n = s.cfgBit i n)
        ∧ (s.partOfWin w = none → exec c s = .next u ∧ State.onlyIn [.sec, .ports] s u)
        ∧ (∀ p, s.partOfWin w = some p → u.flrRuns w = true ∧ State.onlyIn [.regs, .sec, .ports] s u
          ∧ ((s.part p).whip.isSome = true → exec c s = .next u)
          ∧ ((s.part p).whip = none → exec c s = .next ((u.silence p w false 3).beginWhip p .flr)))))
  ∧ (∀ (s : State) (p : Port),
    let pf : Win := ⟨p, 0⟩
    (s.cfgReach pf = true →
      (s.cfgBit pf.idx 1 = false → exec (.vfEnableClear p) s = .next s)
      ∧ (s.cfgBit pf.idx 1 = true → ∃ u : State, exec (.vfEnableClear p) s = .next ((vfsOf p).foldl State.resetVf u) ∧ u.cfgBit pf.idx 1 = false
        ∧ State.onlyIn [.ports] s u)
      ∧ (s.fbit (flrPf p) 0 0 = true → exec (.pfFlr p) s = .next s)
      ∧ (s.fbit (flrPf p) 0 0 = false → ∃ u x : State,
        exec (.pfFlr p) s = .next (((List.range 4).foldl (fun s l => s.orderReset pf l) x).pfDone p)
        ∧ u.fbit (flrPf p) 0 0 = true ∧ p.num ∈ u.ports.pfWait ∧ (∀ n, n < 16 → u.seizer n ≠ some (portPath p))
        ∧ (∀ n, n < 96 → u.cfgBit pf.idx n = false)
        ∧ (let y := (List.range 4).foldl (fun s l => (s.flushLane pf l false 3).flushEffect pf l true) u
          State.onlyIn [.cmds] y x ∧ x.cmds.runs.map Run.id = y.cmds.runs.map Run.id
            ∧ (∀ r ∈ x.cmds.runs, r.halyard = false → r.win = pf → r.mute = true) ∧ ∀ e ∈ x.cmds.slots, e.1 / 64 ≠ p.num)))
    ∧ (∃ t, exec (.perstDeassert p) s = .next t ∧ t.perst p = false ∧ (∀ q, q ≠ p → t.perst q = s.perst q) ∧ State.onlyIn [.ports] s t)
    ∧ (let up := s.halfLive (s.portHalf p) && s.portUp p
      let downs (c : Instr) (v : State) : Prop := ∃ u : State, exec c s = .next ((u.resetPf p).linkGone p) ∧ State.onlyIn [.regs, .ports, .out] v u
        ∧ u.fget R.PCI_LINK_DOWNS 0 p.num = min (s.fget R.PCI_LINK_DOWNS 0 p.num + 1) R.PCI_LINK_DOWNS.top
        ∧ u.fbit (match p with | .w => R.PCI_EVENT_DOWN_W | .e => R.PCI_EVENT_DOWN_E) 0 0 = true ∧ ∀ q, u.perst q = v.perst q
      (∀ k, k = PortResetKind.hot ∨ k = PortResetKind.linkDown → (up = false → exec (.portReset p k) s = .next s) ∧ (up = true → downs (.portReset p k) s))
      ∧ ((s.halfLive (s.portHalf p) = false ∨ s.perst p = true) →
        ∃ t, exec (.portReset p .perst) s = .next t ∧ t.perst p = true ∧ State.onlyIn [.ports] s t)
      ∧ (s.halfLive (s.portHalf p) = true → s.perst p = false → ∃ v : State, v.perst p = true ∧ State.onlyIn [.ports] s v ∧ downs (.portReset p .perst) v)
      ∧ ∀ v : State, (v.linkGone p).portUp p = false ∧ (v.linkGone p).crs p = true ∧ ∀ w : Win, w.port = p → (v.linkGone p).cfgReach w = false)
    ∧ ∀ (speed : BitVec 3) (width : BitVec 5) (flit : Bool),
      let en := s.portReady p && !s.perst p && s.portTrains speed.toNat width.toNat
      (en = false → exec (.hostLinkTrained p speed width flit) s = .next s)
      ∧ (en = true → ∃ t, exec (.hostLinkTrained p speed width flit) s = .next t ∧ State.onlyIn [.regs, .ports] s t ∧ t.crs p = false
        ∧ t.fget R.PCI_LINK_SPEED 0 p.num = speed.toNat ∧ t.fget R.PCI_LINK_WIDTH 0 p.num = width.toNat
        ∧ t.fbit R.PCI_LINK_FLIT 0 p.num = (decide (speed.toNat = 6) || (flit && decide (3 ≤ speed.toNat)))
        ∧ t.fbit R.PCI_LINK_SLOW 0 p.num = decide (speed.toNat < 3)))

/-- Configuration writes take their bit, errors are recorded and reported with the right severity, power states hold and release messages, a non-posted request held
too long is given up, and the module's button and its register act as their table says (R493, R496, R498, R499, R502, R510 to R512, R516 to R518). -/
def Obligations.ConfigurationErrorsAndModule : Prop :=
  (∀ (s : State) (w : Win) (r : CfgReg) (v : Bool),
    let c := Instr.configWrite w r v
    let takes (t : State) (b : Bool) : Prop := t.cfgBit w.idx r.num = b ∧ (∀ i n, n < 128 → (i ≠ w.idx ∨ n ≠ r.num) → t.cfgBit i n = s.cfgBit i n)
      ∧ State.onlyIn [.ports] s t
    ((s.cfgReach w = false ∨ cfgHas w r = false) → exec c s = .next s)
    ∧ (s.cfgReach w = true → cfgHas w r = true →
      (∀ i, r = .aerStatus i → (v = false → exec c s = .next s) ∧ (v = true → ∃ t, exec c s = .next t ∧ takes t false
        ∧ t.aerLog w.idx = if s.firstError w.idx = some i.val then (s.aerLog w.idx).tail else s.aerLog w.idx))
      ∧ (∀ i, r = .aerSeverity i → ∃ t, exec c s = .next t ∧ t.aerIsFatal w.idx i.val = v ∧ takes t (v != aerFatal i.val))
      ∧ (∀ i, r = .msixMask i → ∃ u : State, exec c s = .next (u.sendPending w.idx) ∧ takes u (!v))
      ∧ ((r = .busMaster ∨ r = .pmeEn ∨ r = .msixEnable ∨ ∃ i, r = .aerMask i) → ∃ u : State, exec c s = .next (u.sendPending w.idx) ∧ takes u v)
      ∧ (r = .vfEnable → v = false → exec c s = exec (.vfEnableClear w.port) s)
      ∧ (r = .vfEnable → v = true → s.fget (flrVf w.port) 0 0 = 0 → ∃ t, exec c s = .next t ∧ takes t true)
      ∧ (r = .vfEnable → v = true → s.fget (flrVf w.port) 0 0 ≠ 0 →
        ∃ t, exec c s = .next t ∧ t.fbit R.PCI_EVENT_VFEN_REFUSED 0 0 = true ∧ t.ports.cfg = s.ports.cfg))
    ∧ (s.cfgReach w = true →
      (∃ t, exec (.pmcsrWrite w true) s = .next t ∧ t.inD3 w.idx = true ∧ State.onlyIn [.regs, .ports] s t
        ∧ (w.fn.val = 0 → t.fbit R.PCI_LINK_D3 0 w.port.num = true))
      ∧ (∃ u : State, exec (.pmcsrWrite w false) s = .next (u.sendPendings w) ∧ w.idx ∉ u.ports.d3 ∧ (∀ i, i ≠ w.idx → (i ∈ u.ports.d3 ↔ i ∈ s.ports.d3))
        ∧ State.onlyIn [.regs, .ports] s u ∧ (w.fn.val = 0 → u.fbit R.PCI_LINK_D3 0 w.port.num = false))))
  ∧ (∀ (s : State) (w : Win) (posted : Bool),
    (s.fnThere w.idx = false → exec (.unsupportedRequest w posted) s = .next s)
    ∧ (s.fnThere w.idx = true → ∃ t l, exec (.unsupportedRequest w posted) s = .next t ∧ t.out = s.out ++ l ∧ t.cfgBit w.idx (96 + aerUr) = true
      ∧ (posted = true → Out.cplUr w.idx ∉ l) ∧ (posted = false → l.head? = some (.cplUr w.idx)) ∧ State.onlyIn [.ports, .out] s t
      ∧ (s.cfgBit w.idx (32 + aerUr) = true → Out.aer w.idx aerUr ∉ l)
      ∧ (s.cfgBit w.idx (32 + aerUr) = false →
        ((posted = true ∨ s.aerIsFatal w.idx aerUr = true) → Out.aer w.idx aerUr ∈ l)
        ∧ (posted = false → s.aerIsFatal w.idx aerUr = false → Out.aer w.idx aerUr ∉ l ∧ t.cfgBit w.idx (96 + aerAdvisory) = true
          ∧ (s.cfgBit w.idx (32 + aerAdvisory) = false → Out.aer w.idx aerAdvisory ∈ l))
        ∧ ((s.aerLog w.idx).length < 4 → t.aerLog w.idx = s.aerLog w.idx ++ [aerUr]))))
  ∧ (∀ (s : State) (p : Port),
    let w : Win := ⟨p, 0⟩
    (s.fnThere w.idx = false → exec (.unexpectedCompletion p) s = .next s)
    ∧ (s.fnThere w.idx = true → ∃ t, exec (.unexpectedCompletion p) s = .next t ∧ t.cfgBit w.idx (96 + aerUc) = true ∧ State.onlyIn [.ports, .out] s t
      ∧ (s.aerIsFatal w.idx aerUc = false → s.aerMasked w.idx aerUc = false → t.cfgBit w.idx (96 + aerAdvisory) = true))
    ∧ (∀ r, s.ports.reads.find? (fun r => r.win / 9 == p.num) = some r →
      ∃ u : State, exec (.npTimeout p) s = .next (u.apRefuse r.win true) ∧ u.fbit R.PCI_EVENT_NP_TMO 0 0 = true
        ∧ u.ports.reads = s.ports.reads.filter (fun x => x.id != r.id) ∧ ∀ x ∈ u.fab.txs, ∀ n, x.purp ≠ .apRd r.id n)
    ∧ (s.ports.reads.find? (fun r => r.win / 9 == p.num) = none →
      ((s.heldAt p).find? (fun h => h.reads.isSome) = none → exec (.npTimeout p) s = .next s)
      ∧ ∀ h i, (s.heldAt p).find? (fun h => h.reads.isSome) = some h → h.reads = some i →
        ∃ u : State, exec (.npTimeout p) s = .next (u.apRefuse i true) ∧ u.fbit R.PCI_EVENT_NP_TMO 0 0 = true ∧ u.heldAt p = (s.heldAt p).erase h))
  ∧ (∀ (s : State) (pressed : Bool),
    let c := Instr.attentionButton pressed
    let was := s.fbit R.PCI_MODULE_BUTTON 0 0
    ∃ t, exec c s = .next t ∧ t.fbit R.PCI_MODULE_BUTTON 0 0 = pressed ∧ State.onlyIn [.regs, .ports, .out] s t
      ∧ ((pressed = false ∨ was = true) → State.onlyIn [.regs] s t)
      ∧ (pressed = true → was = false → s.ports.railsOff = true →
        t.ports.wakeAt = (if s.fbit R.PCI_MODULE_WAKE_EN 0 0 then some s.tally else s.ports.wakeAt) ∧ t.out = s.out)
      ∧ (pressed = true → was = false → s.ports.railsOff = false → s.boot.run = true → t.fbit R.PCI_EVENT_BUTTON 0 0 = true
        ∧ ∀ p : Port, (Win.idx ⟨p, 0⟩) ∈ s.ports.d3 → s.cfgBit (Win.idx ⟨p, 0⟩) 2 = true → s.halfLive (s.portHalf p) = true → Out.pme p.num ∈ t.out))
  ∧ (∀ (s : State) (path : Path) (w : W32), s.pathReaches path .pci 0 0x018 = true →
    ∃ t, exec (.pciModuleWrite path w) s = .next t ∧ State.onlyIn [.regs, .ports, .out] s t
      ∧ t.fget R.PCI_MODULE_PWR_LED 0 0 = bitsOf w.toNat 1 0 ∧ t.fget R.PCI_MODULE_ATTN_LED 0 0 = bitsOf w.toNat 3 2
      ∧ t.fget R.PCI_MODULE_WAKE_EN 0 0 = bitsOf w.toNat 6 6
      ∧ (w.toNat.testBit 4 = true → t.fbit R.PCI_MODULE_PWREN 0 0 = true)
      ∧ (w.toNat.testBit 4 = false → s.anyPart = false → s.fbit R.SEC_LC_BUSY 0 0 = false → t.fbit R.PCI_MODULE_PWREN 0 0 = false)
      ∧ (w.toNat.testBit 4 = false → (s.anyPart = true ∨ s.fbit R.SEC_LC_BUSY 0 0 = true) →
        t.fget R.PCI_MODULE_PWREN 0 0 = s.fget R.PCI_MODULE_PWREN 0 0 ∧ t.fbit R.PCI_EVENT_PWREN_REFUSED 0 0 = true))

/-! ## Bring-up and faults -/

/-- A cold boot, RESET_N and the always-on rail leave the machine at reset but for its fuses, its flash and what the always-on domain keeps; the cold boot takes the valid
image of slot A or else B, or stops; THERMTRIP_N is driven above its temperature (R451, R478, R479, R483, R511, R521, R522, R527, R583, R610, R615). -/
def Obligations.ColdBootStartsFromReset : Prop :=
  ∀ s : State,
    let fresh (t : State) : Prop := t.hank.mem = [] ∧ t.tiles = []
      ∧ t.sites = (s.sites.filterMap fun e => if e.2.severed then some (e.1, { severed := true }) else none) ∧ t.cmds = State.reset.cmds ∧ t.cleats = State.reset.cleats ∧ t.fab = State.reset.fab
      ∧ t.xlt = State.reset.xlt ∧ t.pwr = State.reset.pwr ∧ t.sec.parts = [] ∧ t.sec.session = false ∧ t.anyPart = false ∧ t.fuse = s.fuse ∧ t.pending = s.pending
      ∧ t.out = s.out ∧ t.lan.fau = s.lan.fau ∧ t.boot.record = s.boot.record ∧ t.boot.board = s.boot.board ∧ (∀ p, t.perst p = s.perst p) ∧ (∀ p, t.crs p = true)
      ∧ (∀ n, n < 16 → t.seizer n = none)
    (∀ e : BootEnv,
      (s.boot.run = true → exec (.coldBoot e) s = .next s)
      ∧ (s.boot.run = false → ∃ t, exec (.coldBoot e) s = .next t ∧ fresh t ∧ t.tally = s.tally ∧ t.boot.run = true ∧ (t.half .west).live = true
        ∧ (∀ f ∈ moduleFields, t.fget f 0 0 = s.fget f 0 0 % f.size) ∧ t.fget R.SEC_LC_STATE 0 0 = s.fget R.SEC_LC_STATE 0 0 % 4
        ∧ t.sec.anchor = (if e.anchorClrN then s.sec.anchor else none)
        ∧ (s.tornNow = true → t.fget R.MGT_BOOT_STAGE 0 0 = 6 ∧ t.fget R.MGT_BOOT_STATUS 0 0 = 0x10 ∧ t.boot.attn = true)
        ∧ (s.tornNow = false →
          let a := e.aValid && decide (s.fuse.svnMin ≤ e.aSvn)
          let b := e.bValid && decide (s.fuse.svnMin ≤ e.bSvn)
          (a = true → t.fget R.MGT_BOOT_SLOT 0 0 = 0 ∧ t.sec.fwRun.2 = e.aSvn ∧ (∀ d v r, s.sec.fwPend = some (d, v, r) → t.sec.fwRun.1 = d ∧ t.sec.fwPend = none))
          ∧ (a = false → b = true → t.fget R.MGT_BOOT_SLOT 0 0 = 1 ∧ t.sec.fwRun.2 = e.bSvn ∧ t.fbit R.MGT_WARN_FW_FALLBACK 0 0 = true)
          ∧ (a = false → b = false → t.fget R.MGT_BOOT_STAGE 0 0 = 6 ∧ t.fget R.MGT_BOOT_STATUS 0 0 = 0x12 ∧ t.boot.attn = true))))
    ∧ (∃ t, exec .resetAssert s = .next t ∧ fresh t ∧ t.tally = s.tally ∧ t.boot.run = false ∧ t.ports.railsOff = true ∧ t.boot.trip = false
      ∧ ∀ f ∈ moduleFields, t.fget f 0 0 = s.fget f 0 0 % f.size)
    ∧ (∃ t, exec .alwaysOnRailUp s = .next t ∧ fresh t ∧ t.tally = 0 ∧ t.boot.run = false ∧ t.ports.wakeAt = none
      ∧ ∀ f ∈ moduleFields, t.fget f 0 0 = f.reset)
    ∧ ∀ (dram : Bool) (temp : Nat), ∃ t, exec (.thermtrip dram temp) s = .next t ∧ State.onlyIn [.boot] s t
      ∧ t.boot.trip = (s.boot.trip || decide ((if dram then 115 else 118) < temp))

/-- The end of a stage moves its half to the next, of a cold boot in the order of R521, or holds the half or stops bring-up with the status of its failure; the West half's last
stage makes the device ready; a warm reset goes through its stages (R182, R460, R521 to R523, R527, R529, R531, R547, R553). -/
def Obligations.StagesGoInOrder : Prop :=
  (∀ (s : State) (h : Half) (f : StageFacts),
    let c := Instr.bootStageDone h f
    let stops (st : Nat) : Prop := ∃ t, exec c s = .next t ∧ t.fget R.MGT_BOOT_STAGE 0 0 = 6 ∧ t.fget R.MGT_BOOT_STATUS 0 0 = st ∧ t.boot.attn = true
    let held (cause : Nat) : Prop := ∃ t, exec c s = .next t ∧ t.fget (rstState h) 0 0 = 2 ∧ t.halfLive h = false ∧ t.halfUp h = false
      ∧ (h = .east → t.fbit R.MGT_WARN_EAST_HELD 0 0 = true ∧ t.fget R.MGT_WARN_EAST_CAUSE 0 0 = cause)
      ∧ (h = .west → t.fget R.MGT_BOOT_STAGE 0 0 = 6 ∧ t.fget R.MGT_BOOT_STATUS 0 0 = 0x16)
    let moves (n : Nat) (P : State → Prop) : Prop := ∃ t, exec c s = .next t ∧ (t.half h).stage = n ∧ P t
    let ups (t : State) : Prop := t.halfUp h = true
      ∧ (s.halfUp h.other = true → f.rowsOk = 0xFF → f.pairsOk = 0xFFFF → t.fbit R.HUB_SPLICE_OPEN 0 0 = true)
      ∧ (s.halfUp h.other = true → (f.rowsOk ≠ 0xFF ∨ f.pairsOk ≠ 0xFFFF) → t.fget (rstState .east) 0 0 = 2)
    (s.hasHalf h = false → exec c s = .fault .absentUnit)
    ∧ (s.hasHalf h = true → s.working h = false → exec c s = .next s)
    ∧ (s.hasHalf h = true → s.working h = true → (s.half h).warm = none →
      (h = .west → (s.half h).stage = 0 → s.fget R.SEC_LC_STATE 0 0 = 3 → stops 0x11)
      ∧ (h = .west → (s.half h).stage = 0 → s.fget R.SEC_LC_STATE 0 0 ≠ 3 → moves 1 fun t => t.sec.idKeys = decide (s.fget R.SEC_LC_STATE 0 0 ≠ 0)
        ∧ t.fget R.MGT_BOOT_STAGE 0 0 = 1 ∧ (s.fuse.small = false → f.eastImage = true → (t.half .east).live = true ∧ (t.half .east).stage = 1)
        ∧ (s.fuse.small = false → f.eastImage = false → t.fget R.MGT_WARN_EAST_CAUSE 0 0 = 2 ∧ (t.half .east).live = false)
        ∧ (f.recordOk = false → t.boot.record = [] ∧ t.boot.full = true ∧ t.fbit R.MGT_WARN_RECORD_REBUILT 0 0 = true))
      ∧ ((s.half h).stage = 1 → f.ok = false → (h = .west → stops 0x14) ∧ (h = .east → held 3))
      ∧ ((s.half h).stage = 1 → f.ok = true → ∃ t, exec c s = .next t ∧ (h = .west → (t.half .west).stage = 2 ∧ t.hank.memStage = true
          ∧ t.hank.reserve = s.fget R.MEM_CONF_RESERVE 0 0) ∧ (h = .west → ups t)
        ∧ (h = .east → (s.halfUp .west = false ∨ (f.rowsOk = 0xFF ∧ f.pairsOk = 0xFFFF)) → ups t ∧ (t.half .east).stage = 2))
      ∧ (h = .east → (s.half h).stage = 1 → f.ok = true → s.halfUp .west = true → (f.rowsOk ≠ 0xFF ∨ f.pairsOk ≠ 0xFFFF) → held 1)
      ∧ ((s.half h).stage = 2 →
        let failed := s.hank.retired.length + (s.newlyFailed h f.failedCh).length
        (raiseReserve s.hank.reserve failed = none → stops 0x15)
        ∧ ∀ r, raiseReserve s.hank.reserve failed = some r → moves 3 fun t => t.hank.reserve = r)
      ∧ ((s.half h).stage = 3 → moves 4 fun t => s.linksPartial h = true → t.fbit R.MGT_WARN_LINKS_PARTIAL 0 0 = true)
      ∧ ((s.half h).stage = 4 → moves 5 fun t => (h = .west → t.fget R.MGT_BOOT_STAGE 0 0 = 5 ∧ t.fget R.MGT_BOOT_STATUS 0 0 = 1
          ∧ t.fbit R.PCI_SENTINEL_READY 0 0 = true)
        ∧ ∀ g, g < s.nGroups → groupHalf g = h → g ∉ s.boot.gone → (f.groups.toNat.testBit g = true → g ∈ t.boot.groups) ∧ (f.groups.toNat.testBit g = false → g ∈ t.boot.gone)))
    ∧ (∀ u, s.hasHalf h = true → s.working h = true → (s.half h).warm = some u →
      ((s.half h).stage = 0 → moves 1 fun _ => True)
      ∧ ((s.half h).stage = 1 → f.ok = false → held 3)
      ∧ ((s.half h).stage = 1 → f.ok = true → (s.halfUp h.other = false ∨ (f.rowsOk = 0xFF ∧ f.pairsOk = 0xFFFF)) → moves 2 ups)
      ∧ ((s.half h).stage = 2 → moves 3 fun _ => True)
      ∧ ((s.half h).stage = 3 → moves 4 fun _ => True)
      ∧ ((s.half h).stage = 4 → (s.half h.other).heldReq = none → moves 5 fun t => t.halfLive h = true)))
  ∧ (∀ s : State,
    let e := s.half .east
    (s.boot.run = true → s.bootStopped = false → e.live = true → e.warm = none → e.stage ≤ 1 → 2 ≤ (s.half .west).stage →
      ∃ t, exec .eastLateTimeout s = .next t ∧ t.fget (rstState .east) 0 0 = 2 ∧ t.fget R.MGT_WARN_EAST_CAUSE 0 0 = 4 ∧ (t.half .east).live = false)
    ∧ ((s.boot.run = false ∨ s.bootStopped = true ∨ e.live = false ∨ e.warm ≠ none ∨ 1 < e.stage ∨ (s.half .west).stage < 2) → exec .eastLateTimeout s = .next s))
  ∧ (∀ (s : State) (h : Half), s.hasHalf h = true →
    let x := s.half h
    ((s.boot.run = false ∨ s.bootStopped = true ∨ x.live = false ∨ x.stage ≠ 1) → exec (.clockLockTimeout h) s = .next s)
    ∧ (s.boot.run = true → s.bootStopped = false → x.live = true → x.stage = 1 → ∃ t, exec (.clockLockTimeout h) s = .next t
      ∧ (h = .west → x.warm = none → t.fget R.MGT_BOOT_STATUS 0 0 = 0x13 ∧ t.fget R.MGT_BOOT_STAGE 0 0 = 6)
      ∧ (h = .west → x.warm ≠ none → t.fget R.MGT_BOOT_STATUS 0 0 = 0x16 ∧ t.halfLive .west = false)
      ∧ (h = .east → t.fget R.MGT_WARN_EAST_CAUSE 0 0 = 5 ∧ t.halfLive .east = false)))

/-- A march is started or refused with the first reason that holds, a destructive one once it has its leave; a row that fails a preserving run goes to a spare or counts
against its channel; its end reports, and after a destructive run the failed channels are retired and the stack's granules queued for zero-fill
(R528, R533 to R537). -/
def Obligations.MarchesStartAndEnd : Prop :=
  (∀ (s : State) (k : Fin 8) (path : Path) (w : W32), s.pathReaches path .stack k.val 0x210 = true →
    let c := Instr.marchStart k path w
    let n := w.toNat
    let kept (t : State) : Prop := t.fget R.MEM_MARCH_CTL_MODE k.val 0 = bitsOf n 0 0 ∧ t.fget R.MEM_MARCH_CTL_RETENTION k.val 0 = bitsOf n 1 1
      ∧ t.fget R.MEM_MARCH_CTL_SHARE k.val 0 = bitsOf n 6 2
    let r := s.marchRefusal k.val n
    (n.testBit 31 = false → ∃ t, exec c s = .next t ∧ kept t ∧ State.onlyIn [.regs] s t)
    ∧ (n.testBit 31 = true → r ≠ 0 → ∃ t, exec c s = .next t ∧ kept t ∧ State.onlyIn [.regs] s t
      ∧ t.fbit R.MEM_MARCH_STAT_REFUSED k.val 0 = true ∧ t.fget R.MEM_MARCH_STAT_REASON k.val 0 = r
      ∧ t.fget R.MEM_MARCH_STAT_BUSY k.val 0 = s.fget R.MEM_MARCH_STAT_BUSY k.val 0)
    ∧ (n.testBit 31 = true → r = 0 → ∃ u : State, kept u ∧ State.onlyIn [.regs, .hank] s u ∧ u.fbit R.MEM_MARCH_STAT_BUSY k.val 0 = true
      ∧ u.fbit R.MEM_MARCH_STAT_REFUSED k.val 0 = false ∧ u.fget R.MEM_MARCH_STAT_PROGRESS k.val 0 = 0
      ∧ u.srun k.val = { s.srun k.val with marchWait := n.testBit 0, march := !n.testBit 0, destr := n.testBit 0 }
      ∧ (n.testBit 0 = false → exec c s = .next u) ∧ (n.testBit 0 = true → exec c s = .next (u.askRun k.val 60))))
  ∧ (∀ (s : State) (k : Fin 8) (ch : Fin 128) (ok spare : Bool),
    let c := Instr.preserveRowTest k ch ok spare
    let runs := (s.srun k.val).march && !(s.srun k.val).destr
    (s.nStacks ≤ k.val → exec c s = .fault .absentUnit)
    ∧ (k.val < s.nStacks → (runs = false ∨ ok = true) → exec c s = .next s)
    ∧ (k.val < s.nStacks → runs = true → ok = false →
      let more (f : Fld) (a b : State) : Prop := b.fget f k.val 0 = min (a.fget f k.val 0 + 1) f.top
      (spare = true → ∃ t, exec c s = .next t ∧ more R.MEM_MARCH_RES_FAILROWS s t ∧ more R.MEM_MARCH_RES_SOFT s t ∧ t.fbit R.MGT_WARN_SOFT_REPAIR 0 0 = true
        ∧ (s.boot.record.length < 8192 → t.boot.record = s.boot.record ++ [.soft (128 * k.val + ch.val)]) ∧ State.onlyIn [.regs, .boot] s t)
      ∧ (spare = false → ∃ u : State, more R.MEM_MARCH_RES_FAILROWS s u ∧ State.onlyIn [.regs] s u
        ∧ (let b := u.bucketAdd (128 * k.val + ch.val) 1024
          exec c s = .next (if s.chState (128 * k.val + ch.val) = 0 ∧ b.chState (128 * k.val + ch.val) = 1
            ∧ b.fget R.MEM_RETIRE_REMAIN 0 0 < s.fget R.MEM_RETIRE_REMAIN 0 0 then b.fadd R.MEM_MARCH_RES_RETIRED k.val 0 1 else b)))))
  ∧ (∀ (s : State) (k : Fin 8) (rows : BitVec 16) (failed : List (Fin 128)), k.val < s.nStacks →
    let c := Instr.marchDone k rows failed
    let r := s.srun k.val
    (r.march = false → exec c s = .next s)
    ∧ (r.march = true → s.fbit R.MEM_MARCH_STAT_BUSY k.val 0 = true → ∃ v x : State, exec c s = .next ((x.unqueueLeave (.run k) false).returnLeave (.run k))
      ∧ x.srun k.val = { v.srun k.val with marchWait := false, march := false } ∧ x.fbit R.MEM_MARCH_STAT_BUSY k.val 0 = false
      ∧ x.fbit R.MEM_MARCH_STAT_DONE k.val 0 = true ∧ x.fget R.MEM_MARCH_STAT_REASON k.val 0 = 0 ∧ x.fget R.MEM_MARCH_STAT_PROGRESS k.val 0 = 100
      ∧ (r.destr = false → v = s ∧ State.onlyIn [.regs, .hank] s x)
      ∧ (r.destr = true → x.hank.zfill = v.hank.zfill ++ ((List.range v.visGranules).filter fun g => v.granOn g k.val).map (fun g => ⟨g, 15, none⟩)
        ∧ ∃ y : State, y.fget R.MEM_MARCH_RES_FAILROWS k.val 0 = rows.toNat ∧ State.onlyIn [.regs] s y
          ∧ v = (failed.map fun j => 128 * k.val + j.val).foldl (State.marchRetire k.val) y)))
  ∧ ∀ (s : State) (k c : Nat), s.chState c ≠ 2 →
    (s.fget R.MEM_RETIRE_REMAIN 0 0 ≠ 0 → c ∈ (State.marchRetire k s c).hank.retired)
    ∧ (s.fget R.MEM_RETIRE_REMAIN 0 0 = 0 → (State.marchRetire k s c).hank = s.hank ∧ (State.marchRetire k s c).fbit R.MEM_EVENT_RESERVE_EMPTY 0 0 = true)

/-- A half enters warm reset for a cause: refused or held as R550 and R551 say, a device reset where there is no other half, and the third in 600 s holds it; a core that expires
restarts, and its third restart in 60 s resets its half; a rail outside its range acts on what it feeds (R542 to R545, R550, R551, R554, R570, R608). -/
def Obligations.HalvesResetAndCoresRestart : Prop :=
  (∀ (s : State) (h : Half),
    (s.hasHalf h = true → exec (.memclkLoss h) s = .next (s.startWarm h 2) ∧ exec (.halfUnresponsive h) s = .next (s.startWarm h 4))
    ∧ (s.hasHalf h = false → ∀ c ∈ [Instr.memclkLoss h, .halfUnresponsive h, .watchdogExpire h, .mgmtSramUecc h, .coreRestartDone h], exec c s = .fault .absentUnit))
  ∧ (∀ (s : State) (path : Path) (w : W32), s.pathReaches path .hub 0 0x020 = true →
    let z := s.fset R.HUB_HALFRST_REFUSED 0 0 0
    (w.toNat.testBit 0 = false → w.toNat.testBit 1 = false → exec (.hubHalfrstWrite path w) s = .next s)
    ∧ (w.toNat.testBit 0 = true → w.toNat.testBit 1 = false → exec (.hubHalfrstWrite path w) s = .next (z.startWarm .west 1))
    ∧ (w.toNat.testBit 0 = false → w.toNat.testBit 1 = true → s.fuse.small = false → exec (.hubHalfrstWrite path w) s = .next (z.startWarm .east 1))
    ∧ (w.toNat.testBit 0 = false → w.toNat.testBit 1 = true → s.fuse.small = true → exec (.hubHalfrstWrite path w) s = .next s)
    ∧ (w.toNat.testBit 0 = true → w.toNat.testBit 1 = true → s.fuse.small = false →
      exec (.hubHalfrstWrite path w) s = .next ((z.startWarm .west 1).startWarm .east 1)))
  ∧ (∀ (s : State) (h : Half) (cause : Nat), cause < 8 →
    let t := s.startWarm h cause
    let busy := s.fbit R.SEC_LC_BUSY 0 0
    (s.halfLive h = false → t = s)
    ∧ (s.halfLive h = true → isPlanned cause = true → busy = true → (cause = 1 → t.fbit R.HUB_HALFRST_REFUSED 0 0 = true) ∧ (cause ≠ 1 → t = s) ∧ State.onlyIn [.regs] s t)
    ∧ (s.halfLive h = true → s.fuse.small = false → s.halfLive h.other = false → isPlanned cause = true → busy = false →
      (cause = 1 → t.fbit R.HUB_HALFRST_REFUSED 0 0 = true) ∧ (t.half h).heldReq = some cause ∧ t.halfLive h = true ∧ State.onlyIn [.regs, .boot] s t)
    ∧ (s.halfLive h = true → (isPlanned cause = false ∨ busy = false) → (s.fuse.small = true ∨ (s.halfLive h.other = false ∧ isPlanned cause = false)) →
      t = s.deviceReset)
    ∧ (s.halfLive h = true → (isPlanned cause = false ∨ busy = false) → s.fuse.small = false → s.halfLive h.other = true →
      let l := s.window resetSpan (s.half h).resets ++ [s.tally]
      ∃ u : State, u.fget (rstState h) 0 0 = 1 ∧ u.fget (rstCause h) 0 0 = cause ∧ u.fget (rstCount h) 0 0 ≠ 0 ∧ u.halfUp h = false
        ∧ (u.half h).stage = 0 ∧ (u.half h).live = true ∧ (u.half h).warm = some (!isPlanned cause) ∧ u.halfLive h.other = true
        ∧ (∀ g ∈ u.boot.groups, groupHalf g ≠ h) ∧ (∀ e ∈ u.xlt.caches, u.agentHalf e.owner ≠ h) ∧ (∀ p ∈ u.fab.net, u.agentHalf p.src ≠ h ∧ u.agentHalf p.dst ≠ h)
        ∧ (let v := ((u.updGates).decideQueue 32).pump
          let x := v.setHalf h { v.half h with resets := l }
          (l.length < 3 → t = x) ∧ (3 ≤ l.length → t = x.hold h 6))))
  ∧ (∀ (s : State) (h : Half) (c : Instr), (c = .watchdogExpire h ∨ c = .mgmtSramUecc h) → s.hasHalf h = true →
    let x := s.half h
    let l := s.window restartSpan x.restarts ++ [s.tally]
    let once := l.length < 3 ∨ s.fbit R.SEC_LC_BUSY 0 0 = true
    ((s.halfLive h = false ∨ x.core = true ∨ s.sec.halted = true) → exec c s = .next s)
    ∧ (s.halfLive h = true → x.core = false → s.sec.halted = false →
      (once → ∃ t, exec c s = .next t ∧ t.half h = { x with restarts := l, core := true } ∧ (∀ n, n < 16 → t.seizer n ≠ some (corePath h))
        ∧ t.coreRuns h = false
        ∧ (h = .west → t.sec = { s.sec with session := false, regWait := none, spdm := [], keyEx := [] }))
      ∧ (¬ once → ∃ u : State, exec c s = .next (u.startWarm h 3) ∧ u.half h = { x with restarts := l } ∧ State.onlyIn [.regs, .boot] s u
        ∧ u.fget (restartCount h) 0 0 = min (s.fget (restartCount h) 0 0 + 1) 255)))
  ∧ (∀ (s : State) (h : Half), s.hasHalf h = true →
    ((s.half h).core = false → exec (.coreRestartDone h) s = .next s)
    ∧ ((s.half h).core = true → ∃ u : State, u.half h = { s.half h with core := false } ∧ State.onlyIn [.freeCtr, .boot, .lan, .out] s u
      ∧ (∀ n, (s.link n).owes = false → u.link n = s.link n)
      ∧ ((h = .east ∨ s.lan.pending = none ∨ s.linksOff = false ∨ s.lan.stopping = true ∨ u.coreUp = false) → exec (.coreRestartDone h) s = .next u)
      ∧ (∀ d, h = .west → s.lan.pending = some d → s.linksOff = true → s.lan.stopping = false → u.coreUp = true →
        exec (.coreRestartDone h) s = .next (u.applyTable d))))
  ∧ ∀ (s : State) (r : Rail),
    (s.hasRail r = false → exec (.mainRailFault r) s = .fault .absentUnit)
    ∧ (s.hasRail r = true → s.boot.run = false → exec (.mainRailFault r) s = .next s)
    ∧ (s.hasRail r = true → s.boot.run = true →
      ((∃ k, r = .hank k) ∨ (∃ h, r = .vpp h ∨ r = .hphy h) → exec (.mainRailFault r) s = .next s)
      ∧ (∀ h, r = .ser h → (∀ p, s.portHalf p = h → s.portUp p = false) → exec (.mainRailFault r) s = .next s)
      ∧ (∀ h, r = .ser h → exec (.mainRailFault r) s = .next ((s.halfPorts h).foldl (fun s p => if s.portUp p then s.resetPort p else s) s))
      ∧ (∀ h, r = .opt h → exec (.mainRailFault r) s = .next (((List.range s.nLinks).filter fun l => linkHalf l == h && s.lstate l == lsUp).foldl State.recoverLink s))
      ∧ (∀ k, r = .site k → exec (.mainRailFault r) s = .next (s.sever k.val rsLinkLost))
      ∧ (r = .io → exec (.mainRailFault r) s = .next ((s.restartCore .west).restartCore .east)))

/-! ## Registers and the Fid -/

/-- A write of a register passes the conventions in order: the path, the size, BLOCKID, presence, the half, the reservation to the West core, the Seizing; what it then does is its
register's, and a field with a legal range takes only a legal value (R557, R559 to R562, R564, R569, R578, R590). -/
def Obligations.RegisterWritesPassTheirGate : Prop :=
  (∀ (s : State) (p : Path) (addr : Nat) (v : W32) (sized : Bool),
    let c := Instr.registerWrite p addr v sized
    (regAt addr = none → exec c s = .next s)
    ∧ ∀ b i off, regAt addr = some (.reg b i off) → b ≠ .cmdWin → b ≠ .xltWin →
      ((p = .west ∨ p = .east) → s.pathReaches p .hub 0 0 = false → exec c s = .next s)
      ∧ (s.pathReaches p .hub 0 0 = true →
        let ev (f : Fld) : Prop := exec c s = .next (s.regEvent f b.kindCode i p.num) ∧ (s.regEvent f b.kindCode i p.num).fbit f 0 0 = true
          ∧ State.onlyIn [.regs] s (s.regEvent f b.kindCode i p.num)
        (sized = false → ev R.HUB_REGEVENT_BADSIZE)
        ∧ (sized = true → off = blockIdOff → s.instDown b i = false → exec c s = .next s)
        ∧ (sized = true → off ≠ blockIdOff → s.lacks b i = true → exec c s = .next s)
        ∧ (sized = true → s.instDown b i = true → ev R.HUB_REGEVENT_HALF_DOWN)
        ∧ (sized = true → off ≠ blockIdOff → s.lacks b i = false → s.instDown b i = false →
          (reservedReg b off = true → p ≠ .west → ev R.HUB_REGEVENT_RESERVED_W)
          ∧ (∀ n, (reservedReg b off = false ∨ p = .west) → guardOf b off = some n → s.seizer n ≠ some p → ev R.HUB_REGEVENT_UNSEIZED)
          ∧ (s.pathReaches p b i off = true → exec c s = .next (s.writeBlk p b i off v.toNat)))))
  ∧ (∀ (s : State) (p : Path) (v : Nat) (e : Blk × Nat × Fld × (Nat → Bool)),
    e ∈ ([(.pci, 0x004, R.PCI_CONF_NP_MS, fun x => decide (1 ≤ x ∧ x ≤ 50)), (.mgt, 0x024, R.MGT_WDOG_PERIOD_MS, fun x => decide (10 ≤ x ∧ x ≤ 255)),
      (.cmdDev, 0x000, R.CMD_CONF_OVF_US, fun x => x != 0), (.coh, 0x004, R.COH_TMO_SNOOP, fun x => x != 0), (.coh, 0x004, R.COH_TMO_MEM, fun x => x != 0),
      (.mem, 0x004, R.MEM_RETIRE_THRESH, fun x => decide (1024 ≤ x)), (.lnk, 0x000, R.LNK_CONF_MINW, fun x => decide (1 ≤ x ∧ x ≤ 4)),
      (.lnk, 0x000, R.LNK_CONF_PUT_TMO, fun x => x != 0), (.lnk, 0x000, R.LNK_CONF_COLL_IDLE, fun x => x != 0),
      (.fid, 0x000, R.FID_CONF_PERIOD, fun x => decide (10 ≤ x))] : List (Blk × Nat × Fld × (Nat → Bool))) →
    let t := s.writeBlk p e.1 0 e.2.1 v
    let x := bitsOf v e.2.2.1.hi e.2.2.1.lo
    t.fget e.2.2.1 0 0 = (if e.2.2.2 x then x else s.fget e.2.2.1 0 0) ∧ State.onlyIn [.regs] s t)
  ∧ (∀ (s : State) (p : Path) (v : Nat), (1 ≤ (s.half .west).stage → s.writeBlk p .sec 0 0x00C v = s.regRefused p .sec 0)
    ∧ ∀ v, 1 ≤ v → v ≤ 60 → (s.writeBlk p .mem 0 0 (v * 2 ^ R.MEM_CONF_ZFILL_SHARE.lo)).fget R.MEM_CONF_ZFILL_SHARE 0 0 = v)

/-- A read answers its path with the register's word, clears its RC fields in the same step, and latches the high word of a pair, which the path's next read of it gives;
absent units and halves in reset read zero; after an alarm of level 3 a port's read is a Completer Abort (R481, R559, R560, R562, R563, R573, R586). -/
def Obligations.ReadsAnswerLatchAndClear : Prop :=
  ∀ (s : State) (p : Path) (addr : Nat) (c : Instr), c = .registerReadClear p addr ∨ c = .lowWordRead p addr →
    let gives (v : Nat) (t : State) : Prop := exec c s = .next t ∧ t.out = s.out ++ [.regData p (BitVec.ofNat 32 v)]
    (∀ b i off, regAt addr = some (.reg b i off) → b ≠ .cmdWin → b ≠ .xltWin →
      (s.pathReaches p .hub 0 0 = true →
        (off = blockIdOff → s.instDown b i = false → ∃ t, gives (b.idWord i) t ∧ State.onlyIn [.out] s t)
        ∧ (off ≠ blockIdOff → s.lacks b i = true → ∃ t, gives 0 t ∧ State.onlyIn [.out] s t)
        ∧ (s.instDown b i = true →
          ∃ t, gives (if off = blockIdOff then b.idWord i else 0) t ∧ t.fbit R.HUB_REGEVENT_HALF_DOWN 0 0 = true ∧ State.onlyIn [.regs, .out] s t)
        ∧ (off ≠ blockIdOff → s.lacks b i = false → s.instDown b i = false →
          (s.hides b i off = true → ∃ t, gives 0 t ∧ t.fbit R.HUB_REGEVENT_HIDDEN 0 0 = true)
          ∧ (s.hides b i off = false → ∃ t, gives ((tget (fun _ => none) s.fid.latch (latchKey p b i off)).getD (s.regNow p b i off)) t
            ∧ (∀ hi, highOf b off = some hi → tget (fun _ => none) t.fid.latch (latchKey p b i hi) = some (s.regNow p b i hi))
            ∧ (highOf b off = none → tget (fun _ => none) t.fid.latch (latchKey p b i off) = none)
            ∧ (∀ e ∈ b.at off, e.1.acc = .rc → (s.views p = false ∨ (b.at off).any (fun e => e.1.counter) = false) → t.fget e.1 i e.2 = 0)
            ∧ ((∀ e ∈ b.at off, e.1.acc ≠ .rc) → alsoCleared b off = ([], none) → State.onlyIn [.fid, .out] s t))))
      ∧ ((p = .west ∨ p = .east) → s.pathReaches p .hub 0 0 = false → exec c s = .next s)
      ∧ (∀ q : Port, p = portPath q → s.fnThere (Win.idx ⟨q, 0⟩) = true → s.inD3 (Win.idx ⟨q, 0⟩) = false → s.sec.halted = true →
        ∃ t l, exec c s = .next t ∧ t.out = s.out ++ .cplAbort (Win.idx ⟨q, 0⟩) :: l ∧ t.cfgBit (Win.idx ⟨q, 0⟩) (96 + aerCa) = true))
    ∧ (∀ port off, regAt addr = some (.slots port off) →
      (pathPort p ≠ some port → exec c s = .next s)
      ∧ (pathPort p = some port → s.pathReaches p .hub 0 0 = true → ∃ t, exec c s = .next t ∧ State.onlyIn [.out] s t
        ∧ t.out = s.out ++ [.cplData (9 * port.num) ((recBytes (tget (fun _ => 0) s.cmds.slots (port.num * 64 + off / 64))).drop (off % 64)) false]))
    ∧ (regAt addr = none → s.pathReaches p .hub 0 0 = true → (addr < 0x1000000 ∨ p = .portW ∨ p = .portE) →
      ∃ t, gives 0 t ∧ State.onlyIn [.out] s t)
    ∧ (∀ a, regAt a = regAt addr → (∃ b i off, regAt addr = some (.reg b i off)) → exec (.registerReadClear p a) s = exec (.lowWordRead p addr) s)

/-- A Seizing has one owner: TAKE succeeds only where it is free, GIVE only from its owner, BREAK only from the West core; what waited too long for one completes with BUSY
(R568, R570, R571).
A snapshot copies every counter of a running half at one instant and marks the halves that do not answer; a commit arms the seal, a write of its reference disarms it, and a
pass that meets another CRC than the reference while armed raises an alarm of level 2 (R480, R569, R572, R574, R576 to R580, R597). -/
def Obligations.SeizingsSnapshotAndSeal : Prop :=
  ( (∀ (s : State) (n : Fin 16) (p : Path), s.pathReaches p .hub 0 (0x080 + 4 * n.val) = true →
      let owns (t : State) (o : Option Path) : Prop := t.seizer n.val = o ∧ ∀ m, m ≠ n.val → t.seizer m = s.seizer m
      (s.seizer n.val = none → ∃ t, exec (.hubSeizeTake n p) s = .next t ∧ owns t (some p) ∧ State.onlyIn [.fid] s t)
      ∧ (s.seizer n.val ≠ none → exec (.hubSeizeTake n p) s = .next s)
      ∧ (s.seizer n.val = some p → ∃ t, exec (.hubSeizeGive n p) s = .next t ∧ owns t none ∧ State.onlyIn [.fid] s t)
      ∧ (s.seizer n.val ≠ some p → exec (.hubSeizeGive n p) s = .next s)
      ∧ (p = .west → s.seizer n.val ≠ none → ∃ t, exec (.hubSeizeBreak n p) s = .next t ∧ owns t none ∧ t.fbit R.HUB_REGEVENT_SEIZE_LOST 0 0 = true
        ∧ State.onlyIn [.fid, .regs] s t)
      ∧ ((p ≠ .west ∨ s.seizer n.val = none) → exec (.hubSeizeBreak n p) s = .next s))
    ∧ ∀ s : State,
      (s.sec.regWait = none → exec (.seizingWaitTimeout 0) s = .next s)
      ∧ (∀ m, s.sec.regWait = some m → ∃ t, exec (.seizingWaitTimeout 0) s = .next t ∧ t.sec = { s.sec with regWait := none }
        ∧ t.out = s.out ++ [.halyard 0x8009 hBusy []] ∧ State.onlyIn [.sec, .out] s t)
      ∧ ∀ id, id ≠ 0 →
        (id ∉ s.fid.waiting → exec (.seizingWaitTimeout id) s = .next s)
        ∧ (id ∈ s.fid.waiting → ∃ u : State, exec (.seizingWaitTimeout id) s = .next (u.finish id stBusy 0) ∧ id ∉ u.fid.waiting ∧ State.onlyIn [.fid] s u
          ∧ ∀ r, s.run id = some r → r.status = none → State.endsRun s (.seizingWaitTimeout id) id stBusy 0))
  ∧ ( (∀ (s : State) (p : Path), s.pathReaches p .hub 0 0x040 = true →
        (s.seizer 12 ≠ some p → ∃ t, exec (.hubSnapTake p) s = .next t ∧ t.fbit R.HUB_REGEVENT_UNSEIZED 0 0 = true ∧ t.fid = s.fid ∧ State.onlyIn [.regs] s t)
        ∧ (s.seizer 12 = some p → ∃ t, exec (.hubSnapTake p) s = .next t ∧ State.onlyIn [.regs, .fid] s t
          ∧ t.fget R.HUB_SNAPT_LO 0 0 = s.tally.toNat % 2 ^ 32 ∧ t.fget R.HUB_SNAPT_HI 0 0 = s.tally.toNat / 2 ^ 32 % R.HUB_SNAPT_HI.size
          ∧ t.fget R.HUB_SNAP_MISSING 0 0 = 0
          ∧ t.fbit R.HUB_SNAP_BUSY 0 0 = (!s.halfLive .west || (s.hasHalf .east && !s.halfLive .east))
          ∧ ∀ e ∈ counterPlaces,
            let k := e.1.key e.2.1 e.2.2
            (s.halfLive (s.counterHalf e.1 e.2.1 e.2.2) = true → tget (fun _ => 0) t.fid.snap k = s.fieldNow .west e.1 e.2.1 e.2.2 % e.1.size)
            ∧ (s.halfLive (s.counterHalf e.1 e.2.1 e.2.2) = false → tget (fun _ => 0) t.fid.snap k = tget (fun _ => 0) s.fid.snap k)))
      ∧ (∀ (s : State) (h : Half), s.hasHalf h = true →
        (h ∉ s.fid.snapOut → exec (.snapRegionTimeout h) s = .next s)
        ∧ (h ∈ s.fid.snapOut → ∃ t, exec (.snapRegionTimeout h) s = .next t ∧ State.onlyIn [.regs, .fid] s t ∧ t.fvec R.HUB_SNAP_MISSING 0 0 h.num = true
          ∧ t.fid.snap = s.fid.snap ∧ h ∉ t.fid.snapOut ∧ t.fbit R.HUB_SNAP_BUSY 0 0 = !t.fid.snapOut.isEmpty))
      ∧ (∀ (s : State) (p : Path), s.pathReaches p .hub 0 0x050 = true →
        ∃ t, exec (.hubSealctlCommit p) s = .next t ∧ t.fbit R.HUB_SEALCTL_ARMED 0 0 = true ∧ t.fget R.HUB_SEALCTL_PASSES 0 0 = 0 ∧ t.fid = { s.fid with passOk := true }
          ∧ State.onlyIn [.regs, .fid] s t)
      ∧ (∀ (s : State) (p : Path) (w : W32), s.pathReaches p .hub 0 0x054 = true →
        ∃ t, exec (.hubSealrefWrite p w) s = .next t ∧ t.fget R.HUB_SEALREF_REF 0 0 = w.toNat ∧ t.fbit R.HUB_SEALCTL_ARMED 0 0 = false
          ∧ t.fbit R.HUB_SEALCTL_DISARMED 0 0 = true ∧ State.onlyIn [.regs] s t)
      ∧ ∀ s : State,
        (s.halfLive .west = false → exec .sealPassDone s = .next s)
        ∧ (s.halfLive .west = true → s.fid.passOk = false → ∃ t, exec .sealPassDone s = .next t ∧ t.fid = { s.fid with passOk := true } ∧ State.onlyIn [.fid] s t)
        ∧ (s.halfLive .west = true → s.fid.passOk = true →
          let bad := s.fbit R.HUB_SEALCTL_ARMED 0 0 = true ∧ s.sealCrc ≠ s.fget R.HUB_SEALREF_REF 0 0
          ∃ u : State, u.fget R.HUB_SEALCRC_CRC 0 0 = s.sealCrc % 2 ^ 32
            ∧ u.fget R.HUB_SEALCTL_PASSES 0 0 = min (s.fget R.HUB_SEALCTL_PASSES 0 0 + 1) R.HUB_SEALCTL_PASSES.top ∧ State.onlyIn [.regs] s u
            ∧ (¬ bad → exec .sealPassDone s = .next u)
            ∧ (bad → exec .sealPassDone s = .next (u.alarm alSeal 2) ∧ u.fbit R.HUB_SEALCTL_MISMATCH 0 0 = true)))

/-- A counter's selection is taken with the counter at zero, refused for a unit that its half lacks or an event hidden from its path; a buffer's words are the partition's own; a
sample period counts each buffer's sequence; the armed trigger fires once, with its stamp; a rate window shows each half's rate (R46, R51, R584, R586 to R590, R595, R598). -/
def Obligations.FidCountsSamplesAndTriggers : Prop :=
  (∀ (s : State) (h : Half) (n : Fin 64) (p : Path) (w : W32), s.pathReaches p .fidc h.num (4 * n.val) = true →
    let c := Instr.fidSelWrite h n p w
    let get (f : Fld) := bitsOf w.toNat f.hi f.lo
    let unit := get R.FID_SEL_UNIT
    let ev := get R.FID_SEL_EVENT
    let open_ := !fidClassD unit ev && get R.FID_SEL_PFILT == 0
    let bad := (fidUnit unit).1 ≤ ev ∨ (fidUnit unit).2 (get R.FID_SEL_INST) ≠ some h ∨ (open_ = true ∧ s.fidHidden unit ev = true)
    let mixed := get R.FID_SEL_SAMPLE = 1 ∧ fidClassD unit ev = false ∧ (get R.FID_SEL_PFILT = 0 ∨ get R.FID_SEL_PART ≠ get R.FID_SEL_BUF)
    (bad → exec c s = .next (s.regRefused p .fidc h.num))
    ∧ (¬ bad → mixed → exec c s = .next s)
    ∧ (¬ bad → ¬ mixed → ∃ t, exec c s = .next t ∧ (∀ f ∈ selFields, t.fget f h.num n.val = get f ∧ ∀ m : Fin 64, m ≠ n → t.fget f h.num m.val = s.fget f h.num m.val)
      ∧ t.fget R.FID_VAL_LO h.num n.val = 0 ∧ t.fget R.FID_VAL_HI h.num n.val = 0 ∧ t.fget R.FID_VAL_WRAP h.num n.val = 0 ∧ State.onlyIn [.regs] s t))
  ∧ (∀ (s : State) (q word : Fin 8) (p : Path) (w : W32), s.pathReaches p .fid 0 (0x040 + 0x20 * q.val + 4 * word.val) = true →
    let c := Instr.fidBufWrite q word p w
    let wd := word.val
    let foreign := (wd = 1 ∨ wd = 5) ∧ bitsOf w.toNat 31 20 / 512 ≠ q.val
    let v := if wd = 0 ∨ wd = 4 then w.toNat / 64 * 64 else w.toNat
    ((wd = 3 ∨ wd = 7) → exec c s = .next s)
    ∧ (wd ≠ 3 → wd ≠ 7 → (foreign ∨ s.tdiFixed q.val = true) → exec c s = .next (s.regRefused p .fid 0))
    ∧ (wd ≠ 3 → wd ≠ 7 → ¬ foreign → s.tdiFixed q.val = false → ∃ t, exec c s = .next t ∧ (∀ f ∈ (bufWord wd).1, t.fget f 0 q.val = bitsOf v f.hi f.lo)
      ∧ (∀ f, (bufWord wd).2 = some f → t.fget f 0 q.val = 0) ∧ tget (fun _ => 0) t.fid.seqs q.val = 0 ∧ State.onlyIn [.regs, .fid] s t))
  ∧ (∀ s : State,
    (s.halfLive .west = false → exec .fidSamplePeriod s = .next s)
    ∧ (s.halfLive .west = true → exec .fidSamplePeriod s = .next ((List.range 8).foldl State.samplePart s))
    ∧ ∀ q : Fin 8,
      let on := s.fvec R.FID_CONF_SAMPLE_EN 0 0 q.val = true ∧ s.fget R.FID_BUF_SSIZE 0 q.val ≠ 0
      let t := s.samplePart q.val
      (¬ on → t = s)
      ∧ (on → tget (fun _ => 0) t.fid.seqs q.val = tget (fun _ => 0) s.fid.seqs q.val + 1 ∧ (q.val ∈ t.fid.late ↔ s.sampleBusy q.val = true)
        ∧ (s.sampleBusy q.val = true → t.fbit R.FID_EVENT_SAMPLE_LATE 0 0 = true ∧ State.onlyIn [.regs, .fid] s t)
        ∧ (s.sampleBusy q.val = false → ∃ u : State, State.onlyIn [.fid] s u ∧ t = u.sampleSectors q.val (s.sampleRecord q.val).1 (s.sampleRecord q.val).2)))
  ∧ (∀ (s : State) (p : Path), s.pathReaches p .fid 0 0x014 = true →
    let fires (c : Instr) (kind : Nat) (h : Half) (q : Option (BitVec 16)) : Prop :=
      let armed := s.fid.armed = true ∧ s.fget R.FID_TRSTAT_STATE 0 0 = 1 ∧ s.fget R.FID_TRIG_KIND 0 0 = kind
      (¬ armed → exec c s = .next s)
      ∧ (armed → ∃ t, exec c s = .next t ∧ t.fid.armed = false ∧ t.fbit R.FID_EVENT_TRIGGERED 0 0 = true ∧ t.fget R.FID_TRTIME_LO 0 0 = s.tally.toNat % 2 ^ 32
        ∧ t.fget R.FID_TRSTAT_POSTLEFT 0 0 = s.fget R.FID_TRCONF_POST 0 0 % 4096
        ∧ t.fget R.FID_TRSTAT_STATE 0 0 = (if s.fget R.FID_TRCONF_POST 0 0 = 0 then 3 else 2) ∧ State.onlyIn [.regs, .fid] s t
        ∧ ((s.traceQ h).length < 512 → ∃ r, t.traceQ h = s.traceQ h ++ [r] ∧ r.kind = 10 ∧ r.tally = s.tally ∧ r.trig = true
          ∧ r.cleat = q.getD 0 ∧ r.value = (match q with | none => 0 | some n => (s.cleat n.toNat).val)))
    (∃ t, exec (.fidTrigArm p) s = .next t ∧ t.fid = { s.fid with armed := true } ∧ t.fget R.FID_TRSTAT_STATE 0 0 = 1 ∧ State.onlyIn [.regs, .fid] s t)
    ∧ fires (.fidTrigFire p) 7 .west none
    ∧ (s.waitsOf (s.fget R.FID_TRIG_PART 0 0) = [] → exec .traceWaitThreshold s = .next s)
    ∧ ∀ n l, s.waitsOf (s.fget R.FID_TRIG_PART 0 0) = n :: l → fires .traceWaitThreshold 1 (cleatHalf n) (some n))
  ∧ ∀ (s : State) (we ea : BitVec 16), ∃ t, exec (.hubRateWindow we ea) s = .next t ∧ State.onlyIn [.regs, .boot] s t
    ∧ t.fget R.HUB_RATE_WEST_RATE 0 0 = (if s.halfUp .west && (s.half .west).window then we.toNat else 0)
    ∧ t.fget R.HUB_RATE_EAST_RATE 0 0 = (if s.halfUp .east && (s.half .east).window then ea.toNat else 0)
    ∧ ∀ h, t.half h = { s.half h with window := s.halfUp h && s.hasHalf h }
end

