-- ==== Sys2Proof/Laws/Access.lean ====
section
/-! SUPPORT. A register write whose path reaches the register is what the register does with it. -/

namespace Sys2Proof.Machine
/-- A write that reaches its register is taken by it. -/
theorem State.regWrite_reaches {s : State} {p : Path} {b : Blk} {inst off : Nat} (h : s.pathReaches p b inst off = true) (k : State → State) :
    s.regWrite p b inst off k = k s := by
  unfold State.pathReaches at h
  simp only [Bool.and_eq_true, Bool.not_eq_true', Bool.or_eq_true] at h
  obtain ⟨⟨⟨⟨hp, hl⟩, hd⟩, hr⟩, hg⟩ := h
  have hgate : s.regGate p b inst off k = k s := by
    unfold State.regGate
    rw [if_neg (by simp [hl]), if_neg (by simp [hd]), if_neg, if_neg]
    · revert hg; cases guardOf b off <;> simp
    · intro hh; rcases hr with hr | hr <;> simp_all
  unfold State.regWrite
  have bar : ∀ (q : Port), s.fnThere (⟨q, 0⟩ : Win).idx = true → s.inD3 (⟨q, 0⟩ : Win).idx = false → s.sec.halted = false →
      (s.heldAt q).isEmpty = true → s.barAccess ⟨q, 0⟩ false (fun s => s.regGate p b inst off k) = k s := by
    intro q h1 h2 h3 h4
    unfold State.barAccess; dsimp only
    rw [if_neg (by simp [h1]), if_neg (by simp [h2]), if_neg (by simp [h3]), if_neg (by simp [h4]), hgate]
  unfold State.byPath
  cases p <;> simp only [Bool.and_eq_true, Bool.not_eq_true'] at hp ⊢
  · exact bar .w hp.1.1.1 hp.1.1.2 hp.1.2 hp.2
  · exact bar .e hp.1.1.1 hp.1.1.2 hp.1.2 hp.2
  · rw [if_pos hp, hgate]
  · rw [if_pos hp, hgate]
end Sys2Proof.Machine
end

