-- ==== Sys2Proof/Laws/Only.lean ====
section
/-! SUPPORT. How State.onlyIn composes: the lemmas from which the frame of every operation follows. -/

namespace Sys2Proof.Machine

/-- Every part of the first list is one of the second. -/
def Comp.sub (u l : List Comp) : Bool := u.all fun c => l.contains c

theorem Comp.sub_mem {u l : List Comp} (h : Comp.sub u l = true) {c : Comp} (hc : c ∈ u) : c ∈ l := by
  have := List.all_eq_true.mp h c hc
  simpa using this

theorem Comp.sub_ok {u l : List Comp} (h : Comp.sub u l = true) : Comp.sub u l = true := h

theorem Comp.sub_trans {u v l : List Comp} (h : Comp.sub u v = true) (h2 : Comp.sub v l = true) : Comp.sub u l = true := by
  refine List.all_eq_true.mpr fun c hc => ?_
  have := Comp.sub_mem h2 (Comp.sub_mem h hc)
  simpa using this

theorem State.onlyIn.refl {l : List Comp} {s : State} : State.onlyIn l s s := ⟨by intro c _; cases c <;> rfl⟩

theorem State.onlyIn.trans {l : List Comp} {s x t : State} (h : State.onlyIn l s x) (h2 : State.onlyIn l x t) : State.onlyIn l s t := by
  refine ⟨fun c hc => ?_⟩
  have a := h.eq c hc
  have b := h2.eq c hc
  cases c <;> exact Eq.trans b a

theorem State.onlyIn.mono {u l : List Comp} {s t : State} (h : State.onlyIn u s t) (hu : Comp.sub u l = true) : State.onlyIn l s t :=
  ⟨fun c hc => h.eq c fun hm => hc (Comp.sub_mem hu hm)⟩

/-- One more operation on a state already reached. -/
theorem State.onlyIn.step {u l : List Comp} {s x t : State} (h2 : State.onlyIn u x t) (hu : Comp.sub u l = true)
    (h : State.onlyIn l s x) : State.onlyIn l s t := h.trans (h2.mono hu)

theorem State.onlyIn.foldl {α : Type} {l : List Comp} {g : State → α → State} {s x : State} {xs : List α}
    (hg : ∀ s a, State.onlyIn l s (g s a)) (h : State.onlyIn l s x) : State.onlyIn l s (xs.foldl g x) := by
  induction xs generalizing x with
  | nil => exact h
  | cons a r ih => exact ih (h.trans (hg x a))

theorem State.onlyIn.foldl2 {α β : Type} {l : List Comp} {g : β × State → α → β × State} {s : State} {x : β × State} {xs : List α}
    (hg : ∀ p a, State.onlyIn l p.2 (g p a).2) (h : State.onlyIn l s x.2) : State.onlyIn l s (xs.foldl g x).2 := by
  induction xs generalizing x with
  | nil => exact h
  | cons a r ih => exact ih (h.trans (hg x a))

theorem State.onlyIn.ite {l : List Comp} {s x y : State} {p : Prop} [Decidable p] (hx : State.onlyIn l s x) (hy : State.onlyIn l s y) :
    State.onlyIn l s (if p then x else y) := by split <;> assumption

theorem State.onlyIn.pending {l : List Comp} (hc : Comp.sub [.pending] l = true) {s x : State} {v} :
    State.onlyIn l s { x with pending := v } ↔ State.onlyIn l s x := by
  have := Comp.sub_mem hc (List.mem_singleton.mpr rfl)
  constructor <;> intro h <;> refine ⟨fun c hn => ?_⟩ <;> have a := h.eq c hn <;> cases c <;> first | exact a | exact absurd this hn

theorem State.onlyIn.fuse {l : List Comp} (hc : Comp.sub [.fuse] l = true) {s x : State} {v} :
    State.onlyIn l s { x with fuse := v } ↔ State.onlyIn l s x := by
  have := Comp.sub_mem hc (List.mem_singleton.mpr rfl)
  constructor <;> intro h <;> refine ⟨fun c hn => ?_⟩ <;> have a := h.eq c hn <;> cases c <;> first | exact a | exact absurd this hn

theorem State.onlyIn.tally {l : List Comp} (hc : Comp.sub [.tally] l = true) {s x : State} {v} :
    State.onlyIn l s { x with tally := v } ↔ State.onlyIn l s x := by
  have := Comp.sub_mem hc (List.mem_singleton.mpr rfl)
  constructor <;> intro h <;> refine ⟨fun c hn => ?_⟩ <;> have a := h.eq c hn <;> cases c <;> first | exact a | exact absurd this hn

theorem State.onlyIn.freeCtr {l : List Comp} (hc : Comp.sub [.freeCtr] l = true) {s x : State} {v} :
    State.onlyIn l s { x with freeCtr := v } ↔ State.onlyIn l s x := by
  have := Comp.sub_mem hc (List.mem_singleton.mpr rfl)
  constructor <;> intro h <;> refine ⟨fun c hn => ?_⟩ <;> have a := h.eq c hn <;> cases c <;> first | exact a | exact absurd this hn

theorem State.onlyIn.regs {l : List Comp} (hc : Comp.sub [.regs] l = true) {s x : State} {v} :
    State.onlyIn l s { x with regs := v } ↔ State.onlyIn l s x := by
  have := Comp.sub_mem hc (List.mem_singleton.mpr rfl)
  constructor <;> intro h <;> refine ⟨fun c hn => ?_⟩ <;> have a := h.eq c hn <;> cases c <;> first | exact a | exact absurd this hn

theorem State.onlyIn.fab {l : List Comp} (hc : Comp.sub [.fab] l = true) {s x : State} {v} :
    State.onlyIn l s { x with fab := v } ↔ State.onlyIn l s x := by
  have := Comp.sub_mem hc (List.mem_singleton.mpr rfl)
  constructor <;> intro h <;> refine ⟨fun c hn => ?_⟩ <;> have a := h.eq c hn <;> cases c <;> first | exact a | exact absurd this hn

theorem State.onlyIn.tiles {l : List Comp} (hc : Comp.sub [.tiles] l = true) {s x : State} {v} :
    State.onlyIn l s { x with tiles := v } ↔ State.onlyIn l s x := by
  have := Comp.sub_mem hc (List.mem_singleton.mpr rfl)
  constructor <;> intro h <;> refine ⟨fun c hn => ?_⟩ <;> have a := h.eq c hn <;> cases c <;> first | exact a | exact absurd this hn

theorem State.onlyIn.cleats {l : List Comp} (hc : Comp.sub [.cleats] l = true) {s x : State} {v} :
    State.onlyIn l s { x with cleats := v } ↔ State.onlyIn l s x := by
  have := Comp.sub_mem hc (List.mem_singleton.mpr rfl)
  constructor <;> intro h <;> refine ⟨fun c hn => ?_⟩ <;> have a := h.eq c hn <;> cases c <;> first | exact a | exact absurd this hn

theorem State.onlyIn.sites {l : List Comp} (hc : Comp.sub [.sites] l = true) {s x : State} {v} :
    State.onlyIn l s { x with sites := v } ↔ State.onlyIn l s x := by
  have := Comp.sub_mem hc (List.mem_singleton.mpr rfl)
  constructor <;> intro h <;> refine ⟨fun c hn => ?_⟩ <;> have a := h.eq c hn <;> cases c <;> first | exact a | exact absurd this hn

theorem State.onlyIn.lan {l : List Comp} (hc : Comp.sub [.lan] l = true) {s x : State} {v} :
    State.onlyIn l s { x with lan := v } ↔ State.onlyIn l s x := by
  have := Comp.sub_mem hc (List.mem_singleton.mpr rfl)
  constructor <;> intro h <;> refine ⟨fun c hn => ?_⟩ <;> have a := h.eq c hn <;> cases c <;> first | exact a | exact absurd this hn

theorem State.onlyIn.cmds {l : List Comp} (hc : Comp.sub [.cmds] l = true) {s x : State} {v} :
    State.onlyIn l s { x with cmds := v } ↔ State.onlyIn l s x := by
  have := Comp.sub_mem hc (List.mem_singleton.mpr rfl)
  constructor <;> intro h <;> refine ⟨fun c hn => ?_⟩ <;> have a := h.eq c hn <;> cases c <;> first | exact a | exact absurd this hn

theorem State.onlyIn.xlt {l : List Comp} (hc : Comp.sub [.xlt] l = true) {s x : State} {v} :
    State.onlyIn l s { x with xlt := v } ↔ State.onlyIn l s x := by
  have := Comp.sub_mem hc (List.mem_singleton.mpr rfl)
  constructor <;> intro h <;> refine ⟨fun c hn => ?_⟩ <;> have a := h.eq c hn <;> cases c <;> first | exact a | exact absurd this hn

theorem State.onlyIn.pwr {l : List Comp} (hc : Comp.sub [.pwr] l = true) {s x : State} {v} :
    State.onlyIn l s { x with pwr := v } ↔ State.onlyIn l s x := by
  have := Comp.sub_mem hc (List.mem_singleton.mpr rfl)
  constructor <;> intro h <;> refine ⟨fun c hn => ?_⟩ <;> have a := h.eq c hn <;> cases c <;> first | exact a | exact absurd this hn

theorem State.onlyIn.sec {l : List Comp} (hc : Comp.sub [.sec] l = true) {s x : State} {v} :
    State.onlyIn l s { x with sec := v } ↔ State.onlyIn l s x := by
  have := Comp.sub_mem hc (List.mem_singleton.mpr rfl)
  constructor <;> intro h <;> refine ⟨fun c hn => ?_⟩ <;> have a := h.eq c hn <;> cases c <;> first | exact a | exact absurd this hn

theorem State.onlyIn.ports {l : List Comp} (hc : Comp.sub [.ports] l = true) {s x : State} {v} :
    State.onlyIn l s { x with ports := v } ↔ State.onlyIn l s x := by
  have := Comp.sub_mem hc (List.mem_singleton.mpr rfl)
  constructor <;> intro h <;> refine ⟨fun c hn => ?_⟩ <;> have a := h.eq c hn <;> cases c <;> first | exact a | exact absurd this hn

theorem State.onlyIn.boot {l : List Comp} (hc : Comp.sub [.boot] l = true) {s x : State} {v} :
    State.onlyIn l s { x with boot := v } ↔ State.onlyIn l s x := by
  have := Comp.sub_mem hc (List.mem_singleton.mpr rfl)
  constructor <;> intro h <;> refine ⟨fun c hn => ?_⟩ <;> have a := h.eq c hn <;> cases c <;> first | exact a | exact absurd this hn

theorem State.onlyIn.fid {l : List Comp} (hc : Comp.sub [.fid] l = true) {s x : State} {v} :
    State.onlyIn l s { x with fid := v } ↔ State.onlyIn l s x := by
  have := Comp.sub_mem hc (List.mem_singleton.mpr rfl)
  constructor <;> intro h <;> refine ⟨fun c hn => ?_⟩ <;> have a := h.eq c hn <;> cases c <;> first | exact a | exact absurd this hn

theorem State.onlyIn.unread {l : List Comp} (hc : Comp.sub [.unread] l = true) {s x : State} {v} :
    State.onlyIn l s { x with unread := v } ↔ State.onlyIn l s x := by
  have := Comp.sub_mem hc (List.mem_singleton.mpr rfl)
  constructor <;> intro h <;> refine ⟨fun c hn => ?_⟩ <;> have a := h.eq c hn <;> cases c <;> first | exact a | exact absurd this hn

theorem State.onlyIn.out {l : List Comp} (hc : Comp.sub [.out] l = true) {s x : State} {v} :
    State.onlyIn l s { x with out := v } ↔ State.onlyIn l s x := by
  have := Comp.sub_mem hc (List.mem_singleton.mpr rfl)
  constructor <;> intro h <;> refine ⟨fun c hn => ?_⟩ <;> have a := h.eq c hn <;> cases c <;> first | exact a | exact absurd this hn

theorem State.onlyIn.hankAll {l : List Comp} {s x : State} {v} (hc : Comp.sub [.hank, .mem] l = true) (h : State.onlyIn l s x) :
    State.onlyIn l s { x with hank := v } := by
  refine h.trans ⟨fun c hn => ?_⟩
  have h1 := Comp.sub_mem hc (c := .hank) (by decide)
  have h2 := Comp.sub_mem hc (c := .mem) (by decide)
  cases c <;> first | rfl | exact absurd h1 hn | exact absurd h2 hn

theorem State.onlyIn.hankRest {l : List Comp} {s x : State} {v} (hc : Comp.sub [.hank] l = true) (hm : v.mem = x.hank.mem)
    (h : State.onlyIn l s x) : State.onlyIn l s { x with hank := v } := by
  refine h.trans ⟨fun c hn => ?_⟩
  have h1 := Comp.sub_mem hc (c := .hank) (by decide)
  cases c <;> first | rfl | exact hm | exact absurd h1 hn

theorem atUnit_only {l : List Comp} {b : Bool} {s x t : State} (h : atUnit b x = .next t) (hx : State.onlyIn l s x) : State.onlyIn l s t := by
  unfold atUnit at h
  split at h
  · cases h; exact hx
  · cases h

theorem whenever_only {l : List Comp} {b : Bool} {s x t : State} (h : whenever s b x = .next t) (hx : State.onlyIn l s x) :
    State.onlyIn l s t := by
  unfold whenever at h
  split at h
  · cases h; exact hx
  · cases h; exact .refl

theorem next_only {l : List Comp} {s x t : State} (h : (Host.Outcome.next x : Res) = .next t) (hx : State.onlyIn l s x) :
    State.onlyIn l s t := by
  cases h; exact hx

end Sys2Proof.Machine
end

