-- ==== Sys2Proof/Laws/OnlyOps.lean ====
section
/-! SUPPORT. What each operation of Machine/Ops.lean can change: the parts of the state outside the list are as before. -/

set_option linter.all false

namespace Sys2Proof.Machine

theorem State.fset_only (s : State) (f : Fld) (inst : Nat) (n : Nat) (v : Nat) :
    State.onlyIn [.regs] s (State.fset s f inst n v) := by
  unfold State.fset
  repeat' (first
    | intro _
    | ((with_reducible apply Comp.sub_ok); exact rfl)
    | with_reducible apply State.onlyIn.refl
    | with_reducible assumption
    | (simp only [State.onlyIn.regs (l := [.regs]) rfl])
    | with_reducible apply State.onlyIn.foldl
    | dsimp only
    | split
    | (refine ⟨fun c hc => ?_⟩; cases c <;> first | rfl | exact absurd (by decide) hc))

theorem State.fadd_only (s : State) (f : Fld) (inst : Nat) (n : Nat) (k : Nat) :
    State.onlyIn [.regs] s (State.fadd s f inst n k) := by
  unfold State.fadd
  repeat' (first
    | intro _
    | ((with_reducible apply Comp.sub_ok); exact rfl)
    | with_reducible apply State.onlyIn.refl
    | with_reducible assumption
    | with_reducible apply State.onlyIn.foldl
    | dsimp only
    | split
    | with_reducible apply State.onlyIn.step (State.fset_only _ _ _ _ _))

theorem State.fsetBit_only (s : State) (f : Fld) (inst : Nat) (n : Nat) (i : Nat) (b : Bool) :
    State.onlyIn [.regs] s (State.fsetBit s f inst n i b) := by
  unfold State.fsetBit
  repeat' (first
    | intro _
    | ((with_reducible apply Comp.sub_ok); exact rfl)
    | with_reducible apply State.onlyIn.refl
    | with_reducible assumption
    | with_reducible apply State.onlyIn.foldl
    | dsimp only
    | split
    | with_reducible apply State.onlyIn.step (State.fset_only _ _ _ _ _))

theorem State.fresetAll_only (s : State) (inst : Nat) (n : Nat) (x3 : List Fld) :
    State.onlyIn [.regs] s (State.fresetAll s inst n x3) := by
  induction x3 generalizing s inst n with
  | nil =>
    rw [State.fresetAll]
    repeat' (first
      | intro _
      | ((with_reducible apply Comp.sub_ok); exact rfl)
      | with_reducible apply State.onlyIn.refl
      | with_reducible assumption
      | with_reducible apply State.onlyIn.foldl
      | dsimp only
      | split
      | with_reducible apply State.onlyIn.step (State.fset_only _ _ _ _ _)
      | with_reducible refine .trans ?_ (ih _ _ _))
  | cons a r ih =>
    rw [State.fresetAll]
    repeat' (first
      | intro _
      | ((with_reducible apply Comp.sub_ok); exact rfl)
      | with_reducible apply State.onlyIn.refl
      | with_reducible assumption
      | with_reducible apply State.onlyIn.foldl
      | dsimp only
      | split
      | with_reducible apply State.onlyIn.step (State.fset_only _ _ _ _ _)
      | with_reducible refine .trans ?_ (ih _ _ _))

theorem State.setHalf_only (s : State) (h : Half) (x : HalfSt) :
    State.onlyIn [.boot] s (State.setHalf s h x) := by
  unfold State.setHalf
  repeat' (first
    | intro _
    | ((with_reducible apply Comp.sub_ok); exact rfl)
    | with_reducible apply State.onlyIn.refl
    | with_reducible assumption
    | (simp only [State.onlyIn.boot (l := [.boot]) rfl])
    | with_reducible apply State.onlyIn.foldl
    | dsimp only
    | split
    | (refine ⟨fun c hc => ?_⟩; cases c <;> first | rfl | exact absurd (by decide) hc))

theorem State.setTile_only (s : State) (t : Nat) (x : Tile) :
    State.onlyIn [.tiles] s (State.setTile s t x) := by
  unfold State.setTile
  repeat' (first
    | intro _
    | ((with_reducible apply Comp.sub_ok); exact rfl)
    | with_reducible apply State.onlyIn.refl
    | with_reducible assumption
    | (simp only [State.onlyIn.tiles (l := [.tiles]) rfl])
    | with_reducible apply State.onlyIn.foldl
    | dsimp only
    | split
    | (refine ⟨fun c hc => ?_⟩; cases c <;> first | rfl | exact absurd (by decide) hc))

theorem State.setSite_only (s : State) (k : Nat) (x : Site) :
    State.onlyIn [.sites] s (State.setSite s k x) := by
  unfold State.setSite
  repeat' (first
    | intro _
    | ((with_reducible apply Comp.sub_ok); exact rfl)
    | with_reducible apply State.onlyIn.refl
    | with_reducible assumption
    | (simp only [State.onlyIn.sites (l := [.sites]) rfl])
    | with_reducible apply State.onlyIn.foldl
    | dsimp only
    | split
    | (refine ⟨fun c hc => ?_⟩; cases c <;> first | rfl | exact absurd (by decide) hc))

theorem State.setLink_only (s : State) (l : Nat) (x : Link) :
    State.onlyIn [.lan] s (State.setLink s l x) := by
  unfold State.setLink
  repeat' (first
    | intro _
    | ((with_reducible apply Comp.sub_ok); exact rfl)
    | with_reducible apply State.onlyIn.refl
    | with_reducible assumption
    | (simp only [State.onlyIn.lan (l := [.lan]) rfl])
    | with_reducible apply State.onlyIn.foldl
    | dsimp only
    | split
    | (refine ⟨fun c hc => ?_⟩; cases c <;> first | rfl | exact absurd (by decide) hc))

theorem State.setPart_only (s : State) (p : Nat) (x : Part) :
    State.onlyIn [.sec] s (State.setPart s p x) := by
  unfold State.setPart
  repeat' (first
    | intro _
    | ((with_reducible apply Comp.sub_ok); exact rfl)
    | with_reducible apply State.onlyIn.refl
    | with_reducible assumption
    | (simp only [State.onlyIn.sec (l := [.sec]) rfl])
    | with_reducible apply State.onlyIn.foldl
    | dsimp only
    | split
    | (refine ⟨fun c hc => ?_⟩; cases c <;> first | rfl | exact absurd (by decide) hc))

theorem State.setLane_only (s : State) (i : Nat) (x : Lane) :
    State.onlyIn [.cmds] s (State.setLane s i x) := by
  unfold State.setLane
  repeat' (first
    | intro _
    | ((with_reducible apply Comp.sub_ok); exact rfl)
    | with_reducible apply State.onlyIn.refl
    | with_reducible assumption
    | (simp only [State.onlyIn.cmds (l := [.cmds]) rfl])
    | with_reducible apply State.onlyIn.foldl
    | dsimp only
    | split
    | (refine ⟨fun c hc => ?_⟩; cases c <;> first | rfl | exact absurd (by decide) hc))

theorem State.setLine_only (s : State) (l : Nat) (x : Line) :
    State.onlyIn [.fab] s (State.setLine s l x) := by
  unfold State.setLine
  repeat' (first
    | intro _
    | ((with_reducible apply Comp.sub_ok); exact rfl)
    | with_reducible apply State.onlyIn.refl
    | with_reducible assumption
    | (simp only [State.onlyIn.fab (l := [.fab]) rfl])
    | with_reducible apply State.onlyIn.foldl
    | dsimp only
    | split
    | (refine ⟨fun c hc => ?_⟩; cases c <;> first | rfl | exact absurd (by decide) hc))

theorem State.setPline_only (s : State) (l : Nat) (x : PLine) :
    State.onlyIn [.fab] s (State.setPline s l x) := by
  unfold State.setPline
  repeat' (first
    | intro _
    | ((with_reducible apply Comp.sub_ok); exact rfl)
    | with_reducible apply State.onlyIn.refl
    | with_reducible assumption
    | (simp only [State.onlyIn.fab (l := [.fab]) rfl])
    | with_reducible apply State.onlyIn.foldl
    | dsimp only
    | split
    | (refine ⟨fun c hc => ?_⟩; cases c <;> first | rfl | exact absurd (by decide) hc))

theorem State.setCleat_only (s : State) (c : Nat) (x : Cleat) :
    State.onlyIn [.cleats] s (State.setCleat s c x) := by
  unfold State.setCleat
  repeat' (first
    | intro _
    | ((with_reducible apply Comp.sub_ok); exact rfl)
    | with_reducible apply State.onlyIn.refl
    | with_reducible assumption
    | (simp only [State.onlyIn.cleats (l := [.cleats]) rfl])
    | with_reducible apply State.onlyIn.foldl
    | dsimp only
    | split
    | (refine ⟨fun c hc => ?_⟩; cases c <;> first | rfl | exact absurd (by decide) hc))

theorem State.setRun_only (s : State) (r : Run) :
    State.onlyIn [.cmds] s (State.setRun s r) := by
  unfold State.setRun
  repeat' (first
    | intro _
    | ((with_reducible apply Comp.sub_ok); exact rfl)
    | with_reducible apply State.onlyIn.refl
    | with_reducible assumption
    | (simp only [State.onlyIn.cmds (l := [.cmds]) rfl])
    | with_reducible apply State.onlyIn.foldl
    | dsimp only
    | split
    | (refine ⟨fun c hc => ?_⟩; cases c <;> first | rfl | exact absurd (by decide) hc))

theorem State.pushOut_only (s : State) (o : Out) :
    State.onlyIn [.out] s (State.pushOut s o) := by
  unfold State.pushOut
  repeat' (first
    | intro _
    | ((with_reducible apply Comp.sub_ok); exact rfl)
    | with_reducible apply State.onlyIn.refl
    | with_reducible assumption
    | (simp only [State.onlyIn.out (l := [.out]) rfl])
    | with_reducible apply State.onlyIn.foldl
    | dsimp only
    | split
    | (refine ⟨fun c hc => ?_⟩; cases c <;> first | rfl | exact absurd (by decide) hc))

theorem State.bump_only (s : State) :
    State.onlyIn [.freeCtr] s (State.bump s) := by
  unfold State.bump
  repeat' (first
    | intro _
    | ((with_reducible apply Comp.sub_ok); exact rfl)
    | with_reducible apply State.onlyIn.refl
    | with_reducible assumption
    | (simp only [State.onlyIn.freeCtr (l := [.freeCtr]) rfl])
    | with_reducible apply State.onlyIn.foldl
    | dsimp only
    | split
    | (refine ⟨fun c hc => ?_⟩; cases c <;> first | rfl | exact absurd (by decide) hc))

theorem State.setCfg_only (s : State) (win : Nat) (n : Nat) (b : Bool) :
    State.onlyIn [.ports] s (State.setCfg s win n b) := by
  unfold State.setCfg
  repeat' (first
    | intro _
    | ((with_reducible apply Comp.sub_ok); exact rfl)
    | with_reducible apply State.onlyIn.refl
    | with_reducible assumption
    | (simp only [State.onlyIn.ports (l := [.ports]) rfl])
    | with_reducible apply State.onlyIn.foldl
    | dsimp only
    | split
    | (refine ⟨fun c hc => ?_⟩; cases c <;> first | rfl | exact absurd (by decide) hc))

theorem State.msix_only (s : State) (win : Nat) (vec : Nat) :
    State.onlyIn [.ports, .out] s (State.msix s win vec) := by
  unfold State.msix
  repeat' (first
    | intro _
    | ((with_reducible apply Comp.sub_ok); exact rfl)
    | with_reducible apply State.onlyIn.refl
    | with_reducible assumption
    | (simp only [State.onlyIn.ports (l := [.ports, .out]) rfl, State.onlyIn.out (l := [.ports, .out]) rfl])
    | with_reducible apply State.onlyIn.foldl
    | dsimp only
    | split
    | with_reducible apply State.onlyIn.step (State.pushOut_only _ _)
    | (refine ⟨fun c hc => ?_⟩; cases c <;> first | rfl | exact absurd (by decide) hc))

theorem State.msixBoth_only (s : State) (vec : Nat) :
    State.onlyIn [.ports, .out] s (State.msixBoth s vec) := by
  unfold State.msixBoth
  repeat' (first
    | intro _
    | ((with_reducible apply Comp.sub_ok); exact rfl)
    | with_reducible apply State.onlyIn.refl
    | with_reducible assumption
    | with_reducible apply State.onlyIn.foldl
    | dsimp only
    | split
    | with_reducible apply State.onlyIn.step (State.msix_only _ _ _))

theorem State.ev_only (s : State) (f : Fld) (inst : Nat) :
    State.onlyIn [.regs, .ports, .out] s (State.ev s f inst) := by
  unfold State.ev
  repeat' (first
    | intro _
    | ((with_reducible apply Comp.sub_ok); exact rfl)
    | with_reducible apply State.onlyIn.refl
    | with_reducible assumption
    | with_reducible apply State.onlyIn.foldl
    | dsimp only
    | split
    | with_reducible apply State.onlyIn.step (State.msixBoth_only _ _)
    | with_reducible apply State.onlyIn.step (State.fset_only _ _ _ _ _))

theorem State.evPci_only (s : State) (f : Fld) :
    State.onlyIn [.regs, .ports, .out] s (State.evPci s f) := by
  unfold State.evPci
  repeat' (first
    | intro _
    | ((with_reducible apply Comp.sub_ok); exact rfl)
    | with_reducible apply State.onlyIn.refl
    | with_reducible assumption
    | with_reducible apply State.onlyIn.foldl
    | dsimp only
    | split
    | with_reducible apply State.onlyIn.step (State.msixBoth_only _ _)
    | with_reducible apply State.onlyIn.step (State.fset_only _ _ _ _ _))

theorem State.evWin_only (s : State) (f : Fld) (win : Nat) :
    State.onlyIn [.regs, .ports, .out] s (State.evWin s f win) := by
  unfold State.evWin
  repeat' (first
    | intro _
    | ((with_reducible apply Comp.sub_ok); exact rfl)
    | with_reducible apply State.onlyIn.refl
    | with_reducible assumption
    | with_reducible apply State.onlyIn.foldl
    | dsimp only
    | split
    | with_reducible apply State.onlyIn.step (State.msix_only _ _ _)
    | with_reducible apply State.onlyIn.step (State.fset_only _ _ _ _ _))

theorem State.regEvent_only (s : State) (f : Fld) (kind : Nat) (inst : Nat) (p : Nat) :
    State.onlyIn [.regs] s (State.regEvent s f kind inst p) := by
  unfold State.regEvent
  repeat' (first
    | intro _
    | ((with_reducible apply Comp.sub_ok); exact rfl)
    | with_reducible apply State.onlyIn.refl
    | with_reducible assumption
    | with_reducible apply State.onlyIn.foldl
    | dsimp only
    | split
    | with_reducible apply State.onlyIn.step (State.fset_only _ _ _ _ _))

theorem State.takeLoc_only (s : State) (n : Nat) :
    State.onlyIn [.unread] s (State.takeLoc s n).2 := by
  unfold State.takeLoc
  repeat' (first
    | intro _
    | ((with_reducible apply Comp.sub_ok); exact rfl)
    | with_reducible apply State.onlyIn.refl
    | with_reducible assumption
    | (simp only [State.onlyIn.unread (l := [.unread]) rfl])
    | with_reducible apply State.onlyIn.foldl
    | with_reducible apply State.onlyIn.foldl2
    | dsimp only
    | split
    | (refine ⟨fun c hc => ?_⟩; cases c <;> first | rfl | exact absurd (by decide) hc))

theorem State.deny_only (s : State) (src : Agent) (ctx : BitVec 12) (a : Nat) (cause : Nat) :
    State.onlyIn [.regs, .unread] s (State.deny s src ctx a cause) := by
  unfold State.deny
  repeat' (first
    | intro _
    | ((with_reducible apply Comp.sub_ok); exact rfl)
    | with_reducible apply State.onlyIn.refl
    | with_reducible assumption
    | with_reducible apply State.onlyIn.foldl
    | with_reducible apply State.onlyIn.foldl2
    | dsimp only
    | (split <;> first | (rename_i heq; have hx := congrArg (fun z => z.2) heq; dsimp only at hx; subst hx) | (rename_i heq; have hx := congrArg (fun z => z.2.2) heq; dsimp only at hx; subst hx) | skip)
    | split
    | with_reducible apply State.onlyIn.step (State.takeLoc_only _ _)
    | with_reducible apply State.onlyIn.step (State.fset_only _ _ _ _ _))

theorem State.disarm_only (s : State) :
    State.onlyIn [.regs, .fid] s (State.disarm s) := by
  unfold State.disarm
  repeat' (first
    | intro _
    | ((with_reducible apply Comp.sub_ok); exact rfl)
    | with_reducible apply State.onlyIn.refl
    | with_reducible assumption
    | (simp only [State.onlyIn.regs (l := [.regs, .fid]) rfl, State.onlyIn.fid (l := [.regs, .fid]) rfl])
    | with_reducible apply State.onlyIn.foldl
    | dsimp only
    | split
    | with_reducible apply State.onlyIn.step (State.fset_only _ _ _ _ _)
    | (refine ⟨fun c hc => ?_⟩; cases c <;> first | rfl | exact absurd (by decide) hc))

theorem State.setOwn_only (s : State) (g : Nat) (r : OwnRec) :
    State.onlyIn [.regs, .hank, .fid] s (State.setOwn s g r) := by
  unfold State.setOwn
  repeat' (first
    | intro _
    | ((with_reducible apply Comp.sub_ok); exact rfl)
    | with_reducible apply State.onlyIn.refl
    | with_reducible assumption
    | (simp only [State.onlyIn.regs (l := [.regs, .hank, .fid]) rfl, State.onlyIn.fid (l := [.regs, .hank, .fid]) rfl])
    | with_reducible apply State.onlyIn.foldl
    | dsimp only
    | split
    | with_reducible apply State.onlyIn.step (State.disarm_only _)
    | with_reducible refine .hankRest ?_ (by rfl) ?_
    | (refine ⟨fun c hc => ?_⟩; cases c <;> first | rfl | exact absurd (by decide) hc))

theorem State.writeSec_only (s : State) (sec : Nat) (d : BitVec 256) (mask : Nat) (poison : Bool) :
    State.onlyIn [.mem, .hank] s (State.writeSec s sec d mask poison) := by
  unfold State.writeSec
  repeat' (first
    | intro _
    | ((with_reducible apply Comp.sub_ok); exact rfl)
    | with_reducible apply State.onlyIn.refl
    | with_reducible assumption
    | with_reducible apply State.onlyIn.foldl
    | dsimp only
    | split
    | with_reducible refine .hankRest ?_ (by rfl) ?_
    | with_reducible refine .hankAll ?_ ?_
    | (refine ⟨fun c hc => ?_⟩; cases c <;> first | rfl | exact absurd (by decide) hc))

theorem State.poisonSec_only (s : State) (sec : Nat) :
    State.onlyIn [.hank] s (State.poisonSec s sec) := by
  unfold State.poisonSec
  repeat' (first
    | intro _
    | ((with_reducible apply Comp.sub_ok); exact rfl)
    | with_reducible apply State.onlyIn.refl
    | with_reducible assumption
    | with_reducible apply State.onlyIn.foldl
    | dsimp only
    | split
    | with_reducible refine .hankRest ?_ (by rfl) ?_
    | (refine ⟨fun c hc => ?_⟩; cases c <;> first | rfl | exact absurd (by decide) hc))

theorem State.zeroGranule_only (s : State) (g : Nat) :
    State.onlyIn [.mem, .hank] s (State.zeroGranule s g) := by
  unfold State.zeroGranule
  repeat' (first
    | intro _
    | ((with_reducible apply Comp.sub_ok); exact rfl)
    | with_reducible apply State.onlyIn.refl
    | with_reducible assumption
    | with_reducible apply State.onlyIn.foldl
    | dsimp only
    | split
    | with_reducible refine .hankRest ?_ (by rfl) ?_
    | with_reducible refine .hankAll ?_ ?_
    | (refine ⟨fun c hc => ?_⟩; cases c <;> first | rfl | exact absurd (by decide) hc))

theorem State.scramble_only (s : State) (chs : List Nat) :
    State.onlyIn [.hank] s (State.scramble s chs) := by
  unfold State.scramble
  repeat' (first
    | intro _
    | ((with_reducible apply Comp.sub_ok); exact rfl)
    | with_reducible apply State.onlyIn.refl
    | with_reducible assumption
    | with_reducible apply State.onlyIn.foldl
    | dsimp only
    | split
    | with_reducible refine .hankRest ?_ (by rfl) ?_
    | (refine ⟨fun c hc => ?_⟩; cases c <;> first | rfl | exact absurd (by decide) hc))

theorem State.copyGranule_only (s : State) (src : Nat) (dst : Nat) :
    State.onlyIn [.mem, .hank] s (State.copyGranule s src dst) := by
  unfold State.copyGranule
  repeat' (first
    | intro _
    | ((with_reducible apply Comp.sub_ok); exact rfl)
    | with_reducible apply State.onlyIn.refl
    | with_reducible assumption
    | with_reducible apply State.onlyIn.foldl
    | dsimp only
    | split
    | with_reducible refine .hankRest ?_ (by rfl) ?_
    | with_reducible refine .hankAll ?_ ?_
    | (refine ⟨fun c hc => ?_⟩; cases c <;> first | rfl | exact absurd (by decide) hc))

end Sys2Proof.Machine
end

