-- ==== Sys2Proof/Laws/OnlyRequests.lean ====
section
/-! SUPPORT. What each operation of Machine/Requests.lean can change: the parts of the state outside the list are as before. -/

set_option linter.all false

namespace Sys2Proof.Machine

theorem State.fidAdd_only (s : State) (h : Nat) (n : Nat) (k : Nat) :
    State.onlyIn [.regs] s (State.fidAdd s h n k) := by
  unfold State.fidAdd
  repeat' (first
    | intro _
    | ((with_reducible apply Comp.sub_ok); exact rfl)
    | with_reducible apply State.onlyIn.refl
    | with_reducible assumption
    | with_reducible apply State.onlyIn.foldl
    | dsimp only
    | split
    | with_reducible apply State.onlyIn.step (State.fset_only _ _ _ _ _))

theorem State.fidEvent_only (s : State) (hf : Half) (unit : Nat) (inst : Nat) (ev : Nat) (part : Option Nat) (k : Nat) :
    State.onlyIn [.regs] s (State.fidEvent s hf unit inst ev part k) := by
  unfold State.fidEvent
  repeat' (first
    | intro _
    | ((with_reducible apply Comp.sub_ok); exact rfl)
    | with_reducible apply State.onlyIn.refl
    | with_reducible assumption
    | with_reducible apply State.onlyIn.foldl
    | dsimp only
    | split
    | with_reducible apply State.onlyIn.step (State.fidAdd_only _ _ _ _))

theorem State.sendPkt_only (s : State) (p : Pkt) :
    State.onlyIn [.fab] s (State.sendPkt s p) := by
  unfold State.sendPkt
  repeat' (first
    | intro _
    | ((with_reducible apply Comp.sub_ok); exact rfl)
    | with_reducible apply State.onlyIn.refl
    | with_reducible assumption
    | (simp only [State.onlyIn.fab (l := [.fab]) rfl])
    | with_reducible apply State.onlyIn.foldl
    | dsimp only
    | split
    | (refine ⟨fun c hc => ?_⟩; cases c <;> first | rfl | exact absurd (by decide) hc))

theorem State.takePkt_only (s : State) (p : Pkt) :
    State.onlyIn [.fab] s (State.takePkt s p) := by
  unfold State.takePkt
  repeat' (first
    | intro _
    | ((with_reducible apply Comp.sub_ok); exact rfl)
    | with_reducible apply State.onlyIn.refl
    | with_reducible assumption
    | (simp only [State.onlyIn.fab (l := [.fab]) rfl])
    | with_reducible apply State.onlyIn.foldl
    | dsimp only
    | split
    | (refine ⟨fun c hc => ?_⟩; cases c <;> first | rfl | exact absurd (by decide) hc))

theorem State.addBw_only (s : State) (h : Half) (c : Nat) (k : Nat) :
    State.onlyIn [.regs] s (State.addBw s h c k) := by
  unfold State.addBw
  repeat' (first
    | intro _
    | ((with_reducible apply Comp.sub_ok); exact rfl)
    | with_reducible apply State.onlyIn.refl
    | with_reducible assumption
    | with_reducible apply State.onlyIn.foldl
    | dsimp only
    | split
    | with_reducible apply State.onlyIn.step (State.fset_only _ _ _ _ _))

theorem State.inject_only (s : State) (x : HeldTx) (sh : Bool) :
    State.onlyIn [.regs, .fab] s (State.inject s x sh) := by
  unfold State.inject
  repeat' (first
    | intro _
    | ((with_reducible apply Comp.sub_ok); exact rfl)
    | with_reducible apply State.onlyIn.refl
    | with_reducible assumption
    | (simp only [State.onlyIn.regs (l := [.regs, .fab]) rfl, State.onlyIn.fab (l := [.regs, .fab]) rfl])
    | with_reducible apply State.onlyIn.foldl
    | dsimp only
    | split
    | with_reducible apply State.onlyIn.step (State.addBw_only _ _ _ _)
    | with_reducible apply State.onlyIn.step (State.sendPkt_only _ _)
    | (refine ⟨fun c hc => ?_⟩; cases c <;> first | rfl | exact absurd (by decide) hc))

theorem State.pump1_only (s : State) (x : HeldTx) :
    State.onlyIn [.regs, .fab] s (State.pump1 s x) := by
  unfold State.pump1
  repeat' (first
    | intro _
    | ((with_reducible apply Comp.sub_ok); exact rfl)
    | with_reducible apply State.onlyIn.refl
    | with_reducible assumption
    | (simp only [State.onlyIn.regs (l := [.regs, .fab]) rfl, State.onlyIn.fab (l := [.regs, .fab]) rfl])
    | with_reducible apply State.onlyIn.foldl
    | dsimp only
    | split
    | with_reducible apply State.onlyIn.step (State.inject_only _ _ _)
    | (refine ⟨fun c hc => ?_⟩; cases c <;> first | rfl | exact absurd (by decide) hc))

theorem State.pump_only (s : State) :
    State.onlyIn [.regs, .fab] s (State.pump s) := by
  unfold State.pump
  repeat' (first
    | intro _
    | ((with_reducible apply Comp.sub_ok); exact rfl)
    | with_reducible apply State.onlyIn.refl
    | with_reducible assumption
    | (simp only [State.onlyIn.regs (l := [.regs, .fab]) rfl, State.onlyIn.fab (l := [.regs, .fab]) rfl])
    | with_reducible apply State.onlyIn.foldl
    | dsimp only
    | split
    | with_reducible apply State.onlyIn.step (State.pump1_only _ _)
    | (refine ⟨fun c hc => ?_⟩; cases c <;> first | rfl | exact absurd (by decide) hc))

theorem State.request_only (s : State) (p : Pkt) (purp : Purpose) (page : Option Nat) :
    State.onlyIn [.regs, .fab] s (State.request s p purp page) := by
  unfold State.request
  repeat' (first
    | intro _
    | ((with_reducible apply Comp.sub_ok); exact rfl)
    | with_reducible apply State.onlyIn.refl
    | with_reducible assumption
    | (simp only [State.onlyIn.regs (l := [.regs, .fab]) rfl, State.onlyIn.fab (l := [.regs, .fab]) rfl])
    | with_reducible apply State.onlyIn.foldl
    | dsimp only
    | split
    | with_reducible apply State.onlyIn.step (State.inject_only _ _ _)
    | with_reducible apply State.onlyIn.step (State.fidEvent_only _ _ _ _ _ _ _)
    | (refine ⟨fun c hc => ?_⟩; cases c <;> first | rfl | exact absurd (by decide) hc))

theorem State.releaseTag_only (s : State) (t : Tx) :
    State.onlyIn [.regs, .fab] s (State.releaseTag s t) := by
  unfold State.releaseTag
  repeat' (first
    | intro _
    | ((with_reducible apply Comp.sub_ok); exact rfl)
    | with_reducible apply State.onlyIn.refl
    | with_reducible assumption
    | (simp only [State.onlyIn.regs (l := [.regs, .fab]) rfl, State.onlyIn.fab (l := [.regs, .fab]) rfl])
    | with_reducible apply State.onlyIn.foldl
    | dsimp only
    | split
    | with_reducible apply State.onlyIn.step (State.pump_only _)
    | (refine ⟨fun c hc => ?_⟩; cases c <;> first | rfl | exact absurd (by decide) hc))

end Sys2Proof.Machine
end

