-- ==== Sys2Proof/Laws/OnlyAccess.lean ====
section
/-! SUPPORT. What each operation of Machine/Access.lean can change: the parts of the state outside the list are as before. -/

set_option linter.all false

namespace Sys2Proof.Machine

theorem State.aer1_only (s : State) (win : Nat) (e : Nat) :
    State.onlyIn [.ports, .out] s (State.aer1 s win e) := by
  unfold State.aer1
  repeat' (first
    | intro _
    | ((with_reducible apply Comp.sub_ok); exact rfl)
    | with_reducible apply State.onlyIn.refl
    | with_reducible assumption
    | with_reducible apply State.onlyIn.foldl
    | dsimp only
    | split
    | with_reducible apply State.onlyIn.step (State.msix_only _ _ _)
    | with_reducible apply State.onlyIn.step (State.setCfg_only _ _ _ _)
    | with_reducible apply State.onlyIn.step (State.pushOut_only _ _))

theorem State.setAerLog_only (s : State) (win : Nat) (l : List Nat) :
    State.onlyIn [.ports] s (State.setAerLog s win l) := by
  unfold State.setAerLog
  repeat' (first
    | intro _
    | ((with_reducible apply Comp.sub_ok); exact rfl)
    | with_reducible apply State.onlyIn.refl
    | with_reducible assumption
    | (simp only [State.onlyIn.ports (l := [.ports]) rfl])
    | with_reducible apply State.onlyIn.foldl
    | dsimp only
    | split
    | (refine ⟨fun c hc => ?_⟩; cases c <;> first | rfl | exact absurd (by decide) hc))

theorem State.logHeader_only (s : State) (win : Nat) (e : Nat) :
    State.onlyIn [.ports, .out] s (State.logHeader s win e) := by
  unfold State.logHeader
  repeat' (first
    | intro _
    | ((with_reducible apply Comp.sub_ok); exact rfl)
    | with_reducible apply State.onlyIn.refl
    | with_reducible assumption
    | with_reducible apply State.onlyIn.foldl
    | dsimp only
    | split
    | with_reducible apply State.onlyIn.step (State.setAerLog_only _ _ _)
    | with_reducible apply State.onlyIn.step (State.aer1_only _ _ _))

theorem State.aerErr_only (s : State) (win : Nat) (e : Nat) (completed : Bool) :
    State.onlyIn [.ports, .out] s (State.aerErr s win e completed) := by
  unfold State.aerErr
  repeat' (first
    | intro _
    | ((with_reducible apply Comp.sub_ok); exact rfl)
    | with_reducible apply State.onlyIn.refl
    | with_reducible assumption
    | with_reducible apply State.onlyIn.foldl
    | dsimp only
    | split
    | with_reducible apply State.onlyIn.step (State.logHeader_only _ _ _)
    | with_reducible apply State.onlyIn.step (State.aer1_only _ _ _)
    | with_reducible apply State.onlyIn.step (State.setCfg_only _ _ _ _))

theorem State.barUr_only (s : State) (win : Nat) (read : Bool) :
    State.onlyIn [.ports, .out] s (State.barUr s win read) := by
  unfold State.barUr
  repeat' (first
    | intro _
    | ((with_reducible apply Comp.sub_ok); exact rfl)
    | with_reducible apply State.onlyIn.refl
    | with_reducible assumption
    | with_reducible apply State.onlyIn.foldl
    | dsimp only
    | split
    | with_reducible apply State.onlyIn.step (State.aerErr_only _ _ _ _)
    | with_reducible apply State.onlyIn.step (State.pushOut_only _ _))

theorem State.barAccess_only {l : List Comp} {s : State} {w : Win} {read : Bool} {k : State → State} (hl : Comp.sub [.ports, .out] l = true) (hk_k : ∀ y0, State.onlyIn l y0 (k y0)) :
    State.onlyIn l s (State.barAccess s w read k) := by
  unfold State.barAccess
  repeat' (first
    | intro _
    | ((with_reducible refine Comp.sub_trans ?_ hl); exact rfl)
    | ((with_reducible apply Comp.sub_ok); exact rfl)
    | with_reducible apply State.onlyIn.refl
    | with_reducible assumption
    | with_reducible apply State.onlyIn.foldl
    | dsimp only
    | split
    | with_reducible apply State.onlyIn.step (State.barUr_only _ _ _)
    | with_reducible apply State.onlyIn.step (State.aerErr_only _ _ _ _)
    | with_reducible apply State.onlyIn.step (State.pushOut_only _ _)
    | with_reducible refine .trans ?_ (hk_k _))

theorem State.barAccess_onlyStep {l : List Comp} {s0 : State} {s : State} {w : Win} {read : Bool} {k : State → State} (hl : Comp.sub [.ports, .out] l = true) (hk_k : ∀ y0, State.onlyIn l y0 (k y0)) (h0 : State.onlyIn l s0 s) :
    State.onlyIn l s0 (State.barAccess s w read k) := h0.trans (State.barAccess_only hl hk_k)

theorem State.byPath_only {l : List Comp} {s : State} {p : Path} {read : Bool} {k : State → State} (hl : Comp.sub [.ports, .out] l = true) (hk_k : ∀ y0, State.onlyIn l y0 (k y0)) :
    State.onlyIn l s (State.byPath s p read k) := by
  unfold State.byPath
  repeat' (first
    | intro _
    | ((with_reducible refine Comp.sub_trans ?_ hl); exact rfl)
    | ((with_reducible apply Comp.sub_ok); exact rfl)
    | with_reducible apply State.onlyIn.refl
    | with_reducible assumption
    | with_reducible apply State.onlyIn.foldl
    | dsimp only
    | split
    | with_reducible apply State.barAccess_onlyStep
    | with_reducible refine .trans ?_ (hk_k _))

theorem State.byPath_onlyStep {l : List Comp} {s0 : State} {s : State} {p : Path} {read : Bool} {k : State → State} (hl : Comp.sub [.ports, .out] l = true) (hk_k : ∀ y0, State.onlyIn l y0 (k y0)) (h0 : State.onlyIn l s0 s) :
    State.onlyIn l s0 (State.byPath s p read k) := h0.trans (State.byPath_only hl hk_k)

theorem State.regGate_only {l : List Comp} {s : State} {p : Path} {b : Blk} {inst : Nat} {off : Nat} {k : State → State} (hl : Comp.sub [.regs] l = true) (hk_k : ∀ y0, State.onlyIn l y0 (k y0)) :
    State.onlyIn l s (State.regGate s p b inst off k) := by
  unfold State.regGate
  repeat' (first
    | intro _
    | ((with_reducible refine Comp.sub_trans ?_ hl); exact rfl)
    | ((with_reducible apply Comp.sub_ok); exact rfl)
    | with_reducible apply State.onlyIn.refl
    | with_reducible assumption
    | with_reducible apply State.onlyIn.foldl
    | dsimp only
    | split
    | with_reducible apply State.onlyIn.step (State.regEvent_only _ _ _ _ _)
    | with_reducible refine .trans ?_ (hk_k _))

theorem State.regGate_onlyStep {l : List Comp} {s0 : State} {s : State} {p : Path} {b : Blk} {inst : Nat} {off : Nat} {k : State → State} (hl : Comp.sub [.regs] l = true) (hk_k : ∀ y0, State.onlyIn l y0 (k y0)) (h0 : State.onlyIn l s0 s) :
    State.onlyIn l s0 (State.regGate s p b inst off k) := h0.trans (State.regGate_only hl hk_k)

theorem State.regWrite_only {l : List Comp} {s : State} {p : Path} {b : Blk} {inst : Nat} {off : Nat} {k : State → State} (hl : Comp.sub [.regs, .ports, .out] l = true) (hk_k : ∀ y0, State.onlyIn l y0 (k y0)) :
    State.onlyIn l s (State.regWrite s p b inst off k) := by
  unfold State.regWrite
  repeat' (first
    | intro _
    | ((with_reducible refine Comp.sub_trans ?_ hl); exact rfl)
    | ((with_reducible apply Comp.sub_ok); exact rfl)
    | with_reducible apply State.onlyIn.refl
    | with_reducible assumption
    | with_reducible apply State.onlyIn.foldl
    | dsimp only
    | split
    | with_reducible apply State.regGate_onlyStep
    | with_reducible apply State.byPath_onlyStep
    | with_reducible refine .trans ?_ (hk_k _))

theorem State.regWrite_onlyStep {l : List Comp} {s0 : State} {s : State} {p : Path} {b : Blk} {inst : Nat} {off : Nat} {k : State → State} (hl : Comp.sub [.regs, .ports, .out] l = true) (hk_k : ∀ y0, State.onlyIn l y0 (k y0)) (h0 : State.onlyIn l s0 s) :
    State.onlyIn l s0 (State.regWrite s p b inst off k) := h0.trans (State.regWrite_only hl hk_k)

theorem State.regRefused_only (s : State) (p : Path) (b : Blk) (inst : Nat) :
    State.onlyIn [.regs] s (State.regRefused s p b inst) := by
  unfold State.regRefused
  repeat' (first
    | intro _
    | ((with_reducible apply Comp.sub_ok); exact rfl)
    | with_reducible apply State.onlyIn.refl
    | with_reducible assumption
    | with_reducible apply State.onlyIn.foldl
    | dsimp only
    | split
    | with_reducible apply State.onlyIn.step (State.regEvent_only _ _ _ _ _))

end Sys2Proof.Machine
end

