-- ==== Sys2Proof/Laws/OnlySiteOut.lean ====
section
/-! SUPPORT. What each operation of Machine/SiteOut.lean can change: the parts of the state outside the list are as before. -/

set_option linter.all false

namespace Sys2Proof.Machine

theorem State.modSite_only (s : State) (k : Nat) (f : Site → Site) :
    State.onlyIn [.sites] s (State.modSite s k f) := by
  unfold State.modSite
  repeat' (first
    | intro _
    | ((with_reducible apply Comp.sub_ok); exact rfl)
    | with_reducible apply State.onlyIn.refl
    | with_reducible assumption
    | with_reducible apply State.onlyIn.foldl
    | dsimp only
    | split
    | with_reducible apply State.onlyIn.step (State.setSite_only _ _ _))

theorem State.setAp_only (s : State) (k : Nat) (j : Nat) (a : Attp) :
    State.onlyIn [.sites] s (State.setAp s k j a) := by
  unfold State.setAp
  repeat' (first
    | intro _
    | ((with_reducible apply Comp.sub_ok); exact rfl)
    | with_reducible apply State.onlyIn.refl
    | with_reducible assumption
    | with_reducible apply State.onlyIn.foldl
    | dsimp only
    | split
    | with_reducible apply State.onlyIn.step (State.modSite_only _ _ _))

theorem State.frameOut_only (s : State) (k : Nat) (j : Nat) (m : Option (Agent × Out)) :
    State.onlyIn [.sites, .out] s (State.frameOut s k j m) := by
  unfold State.frameOut
  repeat' (first
    | intro _
    | ((with_reducible apply Comp.sub_ok); exact rfl)
    | with_reducible apply State.onlyIn.refl
    | with_reducible assumption
    | with_reducible apply State.onlyIn.foldl
    | dsimp only
    | split
    | with_reducible apply State.onlyIn.step (State.setAp_only _ _ _ _)
    | with_reducible apply State.onlyIn.step (State.pushOut_only _ _))

theorem State.frameAgain_only (s : State) (k : Nat) (j : Nat) (e : BitVec 12 × Option (Agent × Out)) :
    State.onlyIn [.out] s (State.frameAgain s k j e) := by
  unfold State.frameAgain
  repeat' (first
    | intro _
    | ((with_reducible apply Comp.sub_ok); exact rfl)
    | with_reducible apply State.onlyIn.refl
    | with_reducible assumption
    | with_reducible apply State.onlyIn.foldl
    | dsimp only
    | split
    | with_reducible apply State.onlyIn.step (State.pushOut_only _ _))

theorem State.idleFrame_only (s : State) (k : Nat) (j : Nat) :
    State.onlyIn [.sites, .out] s (State.idleFrame s k j) := by
  unfold State.idleFrame
  repeat' (first
    | intro _
    | ((with_reducible apply Comp.sub_ok); exact rfl)
    | with_reducible apply State.onlyIn.refl
    | with_reducible assumption
    | with_reducible apply State.onlyIn.foldl
    | dsimp only
    | split
    | with_reducible apply State.onlyIn.step (State.frameOut_only _ _ _ _))

theorem State.flushAp_only (s : State) (k : Nat) (j : Nat) (x3 : Nat) :
    State.onlyIn [.sites, .out] s (State.flushAp s k j x3) := by
  induction x3 generalizing s k j with
  | zero =>
    rw [State.flushAp]
    repeat' (first
      | intro _
      | ((with_reducible apply Comp.sub_ok); exact rfl)
      | with_reducible apply State.onlyIn.refl
      | with_reducible assumption
      | with_reducible apply State.onlyIn.foldl
      | dsimp only
      | split
      | with_reducible apply State.onlyIn.step (State.frameOut_only _ _ _ _)
      | with_reducible apply State.onlyIn.step (State.setAp_only _ _ _ _)
      | with_reducible refine .trans ?_ (ih _ _ _))
  | succ k ih =>
    rw [State.flushAp]
    repeat' (first
      | intro _
      | ((with_reducible apply Comp.sub_ok); exact rfl)
      | with_reducible apply State.onlyIn.refl
      | with_reducible assumption
      | with_reducible apply State.onlyIn.foldl
      | dsimp only
      | split
      | with_reducible apply State.onlyIn.step (State.frameOut_only _ _ _ _)
      | with_reducible apply State.onlyIn.step (State.setAp_only _ _ _ _)
      | with_reducible refine .trans ?_ (ih _ _ _))

theorem State.apEmit_only (s : State) (k : Nat) (j : Nat) (src : Agent) (o : Out) :
    State.onlyIn [.sites, .out] s (State.apEmit s k j src o) := by
  unfold State.apEmit
  repeat' (first
    | intro _
    | ((with_reducible apply Comp.sub_ok); exact rfl)
    | with_reducible apply State.onlyIn.refl
    | with_reducible assumption
    | with_reducible apply State.onlyIn.foldl
    | dsimp only
    | split
    | with_reducible apply State.onlyIn.step (State.frameOut_only _ _ _ _)
    | with_reducible apply State.onlyIn.step (State.setAp_only _ _ _ _))

theorem State.apQueue_only (s : State) (k : Nat) (j : Nat) (src : Agent) (o : Out) :
    State.onlyIn [.sites, .out] s (State.apQueue s k j src o) := by
  unfold State.apQueue
  repeat' (first
    | intro _
    | ((with_reducible apply Comp.sub_ok); exact rfl)
    | with_reducible apply State.onlyIn.refl
    | with_reducible assumption
    | with_reducible apply State.onlyIn.foldl
    | dsimp only
    | split
    | with_reducible apply State.onlyIn.step (State.flushAp_only _ _ _ _)
    | with_reducible apply State.onlyIn.step (State.setAp_only _ _ _ _))

theorem State.siteOut_only (s : State) (k : Nat) (src : Agent) (o : Out) :
    State.onlyIn [.sites, .out] s (State.siteOut s k src o) := by
  unfold State.siteOut
  repeat' (first
    | intro _
    | ((with_reducible apply Comp.sub_ok); exact rfl)
    | with_reducible apply State.onlyIn.refl
    | with_reducible assumption
    | with_reducible apply State.onlyIn.foldl
    | dsimp only
    | split
    | with_reducible apply State.onlyIn.step (State.apQueue_only _ _ _ _ _))

theorem State.siteBack_only (s : State) (k : Nat) (j : Nat) (src : Agent) (o : Out) :
    State.onlyIn [.sites, .out] s (State.siteBack s k j src o) := by
  unfold State.siteBack
  repeat' (first
    | intro _
    | ((with_reducible apply Comp.sub_ok); exact rfl)
    | with_reducible apply State.onlyIn.refl
    | with_reducible assumption
    | with_reducible apply State.onlyIn.foldl
    | dsimp only
    | split
    | with_reducible apply State.onlyIn.step (State.siteOut_only _ _ _ _)
    | with_reducible apply State.onlyIn.step (State.apQueue_only _ _ _ _ _))

theorem State.siteRsp_only (s : State) (k : Nat) (src : Agent) (rt : RspTo) (status : BitVec 3) (grant : BitVec 2) (poison : BitVec 2) (data : Option LineData) :
    State.onlyIn [.sites, .out] s (State.siteRsp s k src rt status grant poison data) := by
  unfold State.siteRsp
  repeat' (first
    | intro _
    | ((with_reducible apply Comp.sub_ok); exact rfl)
    | with_reducible apply State.onlyIn.refl
    | with_reducible assumption
    | with_reducible apply State.onlyIn.foldl
    | dsimp only
    | split
    | with_reducible apply State.onlyIn.step (State.siteOut_only _ _ _ _))

theorem State.siteRspAt_only (s : State) (k : Nat) (j : Nat) (src : Agent) (rt : RspTo) (status : BitVec 3) (grant : BitVec 2) (poison : BitVec 2) (data : Option LineData) :
    State.onlyIn [.sites, .out] s (State.siteRspAt s k j src rt status grant poison data) := by
  unfold State.siteRspAt
  repeat' (first
    | intro _
    | ((with_reducible apply Comp.sub_ok); exact rfl)
    | with_reducible apply State.onlyIn.refl
    | with_reducible assumption
    | with_reducible apply State.onlyIn.foldl
    | dsimp only
    | split
    | with_reducible apply State.onlyIn.step (State.siteBack_only _ _ _ _ _))

theorem State.answerMsg_only (s : State) (k : Nat) (m : SiteMsg) (status : BitVec 3) :
    State.onlyIn [.sites, .out] s (State.answerMsg s k m status) := by
  unfold State.answerMsg
  repeat' (first
    | intro _
    | ((with_reducible apply Comp.sub_ok); exact rfl)
    | with_reducible apply State.onlyIn.refl
    | with_reducible assumption
    | with_reducible apply State.onlyIn.foldl
    | dsimp only
    | split
    | with_reducible apply State.onlyIn.step (State.siteRspAt_only _ _ _ _ _ _ _ _ _)
    | with_reducible apply State.onlyIn.step (State.siteRsp_only _ _ _ _ _ _ _ _))

end Sys2Proof.Machine
end

