-- ==== Sys2Proof/Laws/OnlyShared.lean ====
section
/-! SUPPORT. What each operation of Machine/Shared.lean can change: the parts of the state outside the list are as before. -/

set_option linter.all false

namespace Sys2Proof.Machine

theorem State.traceDrop_only (s : State) (part : Nat) :
    State.onlyIn [.regs, .fid] s (State.traceDrop s part) := by
  unfold State.traceDrop
  repeat' (first
    | intro _
    | ((with_reducible apply Comp.sub_ok); exact rfl)
    | with_reducible apply State.onlyIn.refl
    | with_reducible assumption
    | (simp only [State.onlyIn.regs (l := [.regs, .fid]) rfl, State.onlyIn.fid (l := [.regs, .fid]) rfl])
    | with_reducible apply State.onlyIn.foldl
    | dsimp only
    | split
    | with_reducible apply State.onlyIn.step (State.fadd_only _ _ _ _ _)
    | with_reducible apply State.onlyIn.step (State.fset_only _ _ _ _ _)
    | (refine ⟨fun c hc => ?_⟩; cases c <;> first | rfl | exact absurd (by decide) hc))

theorem State.sampleDrop_only (s : State) (p : Nat) :
    State.onlyIn [.regs] s (State.sampleDrop s p) := by
  unfold State.sampleDrop
  repeat' (first
    | intro _
    | ((with_reducible apply Comp.sub_ok); exact rfl)
    | with_reducible apply State.onlyIn.refl
    | with_reducible assumption
    | with_reducible apply State.onlyIn.foldl
    | dsimp only
    | split
    | with_reducible apply State.onlyIn.step (State.fset_only _ _ _ _ _))

theorem State.postCount_only (s : State) (part : Nat) :
    State.onlyIn [.regs] s (State.postCount s part) := by
  unfold State.postCount
  repeat' (first
    | intro _
    | ((with_reducible apply Comp.sub_ok); exact rfl)
    | with_reducible apply State.onlyIn.refl
    | with_reducible assumption
    | with_reducible apply State.onlyIn.foldl
    | dsimp only
    | split
    | with_reducible apply State.onlyIn.step (State.fset_only _ _ _ _ _))

theorem State.stage_only (s : State) (hf : Half) (r : TraceRec) :
    State.onlyIn [.regs, .fid] s (State.stage s hf r) := by
  unfold State.stage
  repeat' (first
    | intro _
    | ((with_reducible apply Comp.sub_ok); exact rfl)
    | with_reducible apply State.onlyIn.refl
    | with_reducible assumption
    | (simp only [State.onlyIn.regs (l := [.regs, .fid]) rfl, State.onlyIn.fid (l := [.regs, .fid]) rfl])
    | with_reducible apply State.onlyIn.foldl
    | dsimp only
    | split
    | with_reducible apply State.onlyIn.step (State.traceDrop_only _ _)
    | (refine ⟨fun c hc => ?_⟩; cases c <;> first | rfl | exact absurd (by decide) hc))

theorem State.fireTrigger_only (s : State) (hf : Half) (c : Option (BitVec 16)) :
    State.onlyIn [.regs, .fid] s (State.fireTrigger s hf c) := by
  unfold State.fireTrigger
  repeat' (first
    | intro _
    | ((with_reducible apply Comp.sub_ok); exact rfl)
    | with_reducible apply State.onlyIn.refl
    | with_reducible assumption
    | (simp only [State.onlyIn.regs (l := [.regs, .fid]) rfl, State.onlyIn.fid (l := [.regs, .fid]) rfl])
    | with_reducible apply State.onlyIn.foldl
    | dsimp only
    | split
    | with_reducible apply State.onlyIn.step (State.stage_only _ _ _)
    | with_reducible apply State.onlyIn.step (State.fset_only _ _ _ _ _)
    | (refine ⟨fun c hc => ?_⟩; cases c <;> first | rfl | exact absurd (by decide) hc))

theorem State.trigger_only (s : State) (hf : Half) (kind : Nat) (part : Nat) (cond : Bool) (c : optParam (Option (BitVec 16)) none) :
    State.onlyIn [.regs, .fid] s (State.trigger s hf kind part cond c) := by
  unfold State.trigger
  repeat' (first
    | intro _
    | ((with_reducible apply Comp.sub_ok); exact rfl)
    | with_reducible apply State.onlyIn.refl
    | with_reducible assumption
    | with_reducible apply State.onlyIn.foldl
    | dsimp only
    | split
    | with_reducible apply State.onlyIn.step (State.fireTrigger_only _ _ _))

theorem State.trace_only (s : State) (hf : Half) (kind : Nat) (agent : Agent) (cleat : BitVec 16) (value : CleatVal) (arg : CleatVal) (waker : Option Agent) (part : Nat) :
    State.onlyIn [.regs, .fid] s (State.trace s hf kind agent cleat value arg waker part) := by
  unfold State.trace
  repeat' (first
    | intro _
    | ((with_reducible apply Comp.sub_ok); exact rfl)
    | with_reducible apply State.onlyIn.refl
    | with_reducible assumption
    | with_reducible apply State.onlyIn.foldl
    | dsimp only
    | split
    | with_reducible apply State.onlyIn.step (State.trigger_only _ _ _ _ _ _)
    | with_reducible apply State.onlyIn.step (State.stage_only _ _ _)
    | with_reducible apply State.onlyIn.step (State.postCount_only _ _)
    | with_reducible apply State.onlyIn.step (State.traceDrop_only _ _))

theorem State.finish_only (s : State) (id : Nat) (st : BitVec 8) (detail : Nat) :
    State.onlyIn [.cmds] s (State.finish s id st detail) := by
  unfold State.finish
  repeat' (first
    | intro _
    | ((with_reducible apply Comp.sub_ok); exact rfl)
    | with_reducible apply State.onlyIn.refl
    | with_reducible assumption
    | with_reducible apply State.onlyIn.foldl
    | dsimp only
    | split
    | with_reducible apply State.onlyIn.step (State.setRun_only _ _))

theorem State.dropHead_only (s : State) (lane : Nat) (order : Nat) :
    State.onlyIn [.cmds] s (State.dropHead s lane order) := by
  unfold State.dropHead
  repeat' (first
    | intro _
    | ((with_reducible apply Comp.sub_ok); exact rfl)
    | with_reducible apply State.onlyIn.refl
    | with_reducible assumption
    | with_reducible apply State.onlyIn.foldl
    | dsimp only
    | split
    | with_reducible apply State.onlyIn.step (State.setLane_only _ _ _))

theorem State.completeHead_only (s : State) (w : Win) (lane : Nat) (p : Packet) (st : BitVec 8) (detail : Nat) :
    State.onlyIn [.cmds] s (State.completeHead s w lane p st detail) := by
  unfold State.completeHead
  repeat' (first
    | intro _
    | ((with_reducible apply Comp.sub_ok); exact rfl)
    | with_reducible apply State.onlyIn.refl
    | with_reducible assumption
    | (simp only [State.onlyIn.cmds (l := [.cmds]) rfl])
    | with_reducible apply State.onlyIn.foldl
    | dsimp only
    | split
    | with_reducible apply State.onlyIn.step (State.dropHead_only _ _ _)
    | (refine ⟨fun c hc => ?_⟩; cases c <;> first | rfl | exact absurd (by decide) hc))

theorem State.updGate_only (s : State) (q : Nat) :
    State.onlyIn [.regs, .ports, .out] s (State.updGate s q) := by
  unfold State.updGate
  repeat' (first
    | intro _
    | ((with_reducible apply Comp.sub_ok); exact rfl)
    | with_reducible apply State.onlyIn.refl
    | with_reducible assumption
    | with_reducible apply State.onlyIn.foldl
    | dsimp only
    | split
    | with_reducible apply State.onlyIn.step (State.ev_only _ _ _)
    | with_reducible apply State.onlyIn.step (State.fset_only _ _ _ _ _))

theorem State.updGates_only (s : State) :
    State.onlyIn [.regs, .ports, .out] s (State.updGates s) := by
  unfold State.updGates
  repeat' (first
    | intro _
    | ((with_reducible apply Comp.sub_ok); exact rfl)
    | with_reducible apply State.onlyIn.refl
    | with_reducible assumption
    | with_reducible apply State.onlyIn.foldl
    | dsimp only
    | split
    | with_reducible apply State.onlyIn.step (State.updGate_only _ _))

theorem State.showRails_only (s : State) :
    State.onlyIn [.regs] s (State.showRails s) := by
  unfold State.showRails
  repeat' (first
    | intro _
    | ((with_reducible apply Comp.sub_ok); exact rfl)
    | with_reducible apply State.onlyIn.refl
    | with_reducible assumption
    | with_reducible apply State.onlyIn.foldl
    | dsimp only
    | split
    | with_reducible apply State.onlyIn.step (State.fset_only _ _ _ _ _))

theorem State.quadChange_only (s : State) (qs : List Nat) :
    State.onlyIn [.regs, .ports, .out] s (State.quadChange s qs) := by
  unfold State.quadChange
  repeat' (first
    | intro _
    | ((with_reducible apply Comp.sub_ok); exact rfl)
    | with_reducible apply State.onlyIn.refl
    | with_reducible assumption
    | with_reducible apply State.onlyIn.foldl
    | dsimp only
    | split
    | with_reducible apply State.onlyIn.step (State.updGates_only _)
    | with_reducible apply State.onlyIn.step (State.ev_only _ _ _))

theorem State.traceLeave_only (s : State) (kind : Nat) (w : LeaveWho) (watts : Nat) :
    State.onlyIn [.regs, .fid] s (State.traceLeave s kind w watts) := by
  unfold State.traceLeave
  repeat' (first
    | intro _
    | ((with_reducible apply Comp.sub_ok); exact rfl)
    | with_reducible apply State.onlyIn.refl
    | with_reducible assumption
    | with_reducible apply State.onlyIn.foldl
    | dsimp only
    | split
    | with_reducible apply State.onlyIn.step (State.trace_only _ _ _ _ _ _ _ _ _))

theorem State.setSrun_only (s : State) (k : Nat) (r : StackRun) :
    State.onlyIn [.hank] s (State.setSrun s k r) := by
  unfold State.setSrun
  repeat' (first
    | intro _
    | ((with_reducible apply Comp.sub_ok); exact rfl)
    | with_reducible apply State.onlyIn.refl
    | with_reducible assumption
    | with_reducible apply State.onlyIn.foldl
    | dsimp only
    | split
    | with_reducible refine .hankRest ?_ (by rfl) ?_
    | (refine ⟨fun c hc => ?_⟩; cases c <;> first | rfl | exact absurd (by decide) hc))

theorem State.startRun_only (s : State) (k : Nat) :
    State.onlyIn [.hank] s (State.startRun s k) := by
  unfold State.startRun
  repeat' (first
    | intro _
    | ((with_reducible apply Comp.sub_ok); exact rfl)
    | with_reducible apply State.onlyIn.refl
    | with_reducible assumption
    | with_reducible apply State.onlyIn.foldl
    | dsimp only
    | split
    | with_reducible apply State.onlyIn.step (State.setSrun_only _ _ _)
    | with_reducible apply State.onlyIn.step (State.scramble_only _ _))

theorem State.refuseRun_only (s : State) (k : Nat) :
    State.onlyIn [.freeCtr, .regs, .hank, .cmds] s (State.refuseRun s k) := by
  unfold State.refuseRun
  repeat' (first
    | intro _
    | ((with_reducible apply Comp.sub_ok); exact rfl)
    | with_reducible apply State.onlyIn.refl
    | with_reducible assumption
    | with_reducible apply State.onlyIn.foldl
    | dsimp only
    | split
    | with_reducible apply State.onlyIn.step (State.setSrun_only _ _ _)
    | with_reducible apply State.onlyIn.step (State.finish_only _ _ _ _)
    | with_reducible apply State.onlyIn.step (State.bump_only _)
    | with_reducible apply State.onlyIn.step (State.fset_only _ _ _ _ _))

theorem State.grantLeave_only (s : State) (w : LeaveWho) (watts : Nat) :
    State.onlyIn [.regs, .hank, .sites, .pwr, .ports, .fid, .out] s (State.grantLeave s w watts) := by
  unfold State.grantLeave
  repeat' (first
    | intro _
    | ((with_reducible apply Comp.sub_ok); exact rfl)
    | with_reducible apply State.onlyIn.refl
    | with_reducible assumption
    | (simp only [State.onlyIn.regs (l := [.regs, .hank, .sites, .pwr, .ports, .fid, .out]) rfl, State.onlyIn.sites (l := [.regs, .hank, .sites, .pwr, .ports, .fid, .out]) rfl, State.onlyIn.pwr (l := [.regs, .hank, .sites, .pwr, .ports, .fid, .out]) rfl, State.onlyIn.ports (l := [.regs, .hank, .sites, .pwr, .ports, .fid, .out]) rfl, State.onlyIn.fid (l := [.regs, .hank, .sites, .pwr, .ports, .fid, .out]) rfl, State.onlyIn.out (l := [.regs, .hank, .sites, .pwr, .ports, .fid, .out]) rfl])
    | with_reducible apply State.onlyIn.foldl
    | dsimp only
    | split
    | with_reducible apply State.onlyIn.step (State.startRun_only _ _)
    | with_reducible apply State.onlyIn.step (State.traceLeave_only _ _ _ _)
    | with_reducible apply State.onlyIn.step (State.updGates_only _)
    | with_reducible apply State.onlyIn.step (State.siteOut_only _ _ _ _)
    | with_reducible refine .hankRest ?_ (by rfl) ?_
    | (refine ⟨fun c hc => ?_⟩; cases c <;> first | rfl | exact absurd (by decide) hc))

theorem State.refuseLeave_only (s : State) (w : LeaveWho) :
    State.onlyIn [.freeCtr, .regs, .hank, .sites, .cmds, .ports, .out] s (State.refuseLeave s w) := by
  unfold State.refuseLeave
  repeat' (first
    | intro _
    | ((with_reducible apply Comp.sub_ok); exact rfl)
    | with_reducible apply State.onlyIn.refl
    | with_reducible assumption
    | with_reducible apply State.onlyIn.foldl
    | dsimp only
    | split
    | with_reducible apply State.onlyIn.step (State.refuseRun_only _ _)
    | with_reducible apply State.onlyIn.step (State.completeHead_only _ _ _ _ _ _)
    | with_reducible apply State.onlyIn.step (State.siteOut_only _ _ _ _)
    | with_reducible apply State.onlyIn.step (State.ev_only _ _ _))

theorem State.decideQueue_only (s : State) (x1 : Nat) :
    State.onlyIn [.freeCtr, .regs, .hank, .sites, .cmds, .pwr, .ports, .fid, .out] s (State.decideQueue s x1) := by
  induction x1 generalizing s with
  | zero =>
    rw [State.decideQueue]
    repeat' (first
      | intro _
      | ((with_reducible apply Comp.sub_ok); exact rfl)
      | with_reducible apply State.onlyIn.refl
      | with_reducible assumption
      | (simp only [State.onlyIn.freeCtr (l := [.freeCtr, .regs, .hank, .sites, .cmds, .pwr, .ports, .fid, .out]) rfl, State.onlyIn.regs (l := [.freeCtr, .regs, .hank, .sites, .cmds, .pwr, .ports, .fid, .out]) rfl, State.onlyIn.sites (l := [.freeCtr, .regs, .hank, .sites, .cmds, .pwr, .ports, .fid, .out]) rfl, State.onlyIn.cmds (l := [.freeCtr, .regs, .hank, .sites, .cmds, .pwr, .ports, .fid, .out]) rfl, State.onlyIn.pwr (l := [.freeCtr, .regs, .hank, .sites, .cmds, .pwr, .ports, .fid, .out]) rfl, State.onlyIn.ports (l := [.freeCtr, .regs, .hank, .sites, .cmds, .pwr, .ports, .fid, .out]) rfl, State.onlyIn.fid (l := [.freeCtr, .regs, .hank, .sites, .cmds, .pwr, .ports, .fid, .out]) rfl, State.onlyIn.out (l := [.freeCtr, .regs, .hank, .sites, .cmds, .pwr, .ports, .fid, .out]) rfl])
      | with_reducible apply State.onlyIn.foldl
      | dsimp only
      | split
      | with_reducible apply State.onlyIn.step (State.refuseLeave_only _ _)
      | with_reducible apply State.onlyIn.step (State.grantLeave_only _ _ _)
      | with_reducible refine .trans ?_ (ih _)
      | with_reducible refine .hankRest ?_ (by rfl) ?_
      | (refine ⟨fun c hc => ?_⟩; cases c <;> first | rfl | exact absurd (by decide) hc))
  | succ k ih =>
    rw [State.decideQueue]
    repeat' (first
      | intro _
      | ((with_reducible apply Comp.sub_ok); exact rfl)
      | with_reducible apply State.onlyIn.refl
      | with_reducible assumption
      | (simp only [State.onlyIn.freeCtr (l := [.freeCtr, .regs, .hank, .sites, .cmds, .pwr, .ports, .fid, .out]) rfl, State.onlyIn.regs (l := [.freeCtr, .regs, .hank, .sites, .cmds, .pwr, .ports, .fid, .out]) rfl, State.onlyIn.sites (l := [.freeCtr, .regs, .hank, .sites, .cmds, .pwr, .ports, .fid, .out]) rfl, State.onlyIn.cmds (l := [.freeCtr, .regs, .hank, .sites, .cmds, .pwr, .ports, .fid, .out]) rfl, State.onlyIn.pwr (l := [.freeCtr, .regs, .hank, .sites, .cmds, .pwr, .ports, .fid, .out]) rfl, State.onlyIn.ports (l := [.freeCtr, .regs, .hank, .sites, .cmds, .pwr, .ports, .fid, .out]) rfl, State.onlyIn.fid (l := [.freeCtr, .regs, .hank, .sites, .cmds, .pwr, .ports, .fid, .out]) rfl, State.onlyIn.out (l := [.freeCtr, .regs, .hank, .sites, .cmds, .pwr, .ports, .fid, .out]) rfl])
      | with_reducible apply State.onlyIn.foldl
      | dsimp only
      | split
      | with_reducible apply State.onlyIn.step (State.refuseLeave_only _ _)
      | with_reducible apply State.onlyIn.step (State.grantLeave_only _ _ _)
      | with_reducible refine .trans ?_ (ih _)
      | with_reducible refine .hankRest ?_ (by rfl) ?_
      | (refine ⟨fun c hc => ?_⟩; cases c <;> first | rfl | exact absurd (by decide) hc))

theorem State.returnLeave_only (s : State) (w : LeaveWho) :
    State.onlyIn [.freeCtr, .regs, .hank, .sites, .cmds, .pwr, .ports, .fid, .out] s (State.returnLeave s w) := by
  unfold State.returnLeave
  repeat' (first
    | intro _
    | ((with_reducible apply Comp.sub_ok); exact rfl)
    | with_reducible apply State.onlyIn.refl
    | with_reducible assumption
    | (simp only [State.onlyIn.freeCtr (l := [.freeCtr, .regs, .hank, .sites, .cmds, .pwr, .ports, .fid, .out]) rfl, State.onlyIn.regs (l := [.freeCtr, .regs, .hank, .sites, .cmds, .pwr, .ports, .fid, .out]) rfl, State.onlyIn.sites (l := [.freeCtr, .regs, .hank, .sites, .cmds, .pwr, .ports, .fid, .out]) rfl, State.onlyIn.cmds (l := [.freeCtr, .regs, .hank, .sites, .cmds, .pwr, .ports, .fid, .out]) rfl, State.onlyIn.pwr (l := [.freeCtr, .regs, .hank, .sites, .cmds, .pwr, .ports, .fid, .out]) rfl, State.onlyIn.ports (l := [.freeCtr, .regs, .hank, .sites, .cmds, .pwr, .ports, .fid, .out]) rfl, State.onlyIn.fid (l := [.freeCtr, .regs, .hank, .sites, .cmds, .pwr, .ports, .fid, .out]) rfl, State.onlyIn.out (l := [.freeCtr, .regs, .hank, .sites, .cmds, .pwr, .ports, .fid, .out]) rfl])
    | with_reducible apply State.onlyIn.foldl
    | dsimp only
    | split
    | with_reducible apply State.onlyIn.step (State.decideQueue_only _ _)
    | with_reducible apply State.onlyIn.step (State.updGates_only _)
    | with_reducible refine .hankRest ?_ (by rfl) ?_
    | (refine ⟨fun c hc => ?_⟩; cases c <;> first | rfl | exact absurd (by decide) hc))

theorem State.unqueueLeave_only (s : State) (w : LeaveWho) (tell : Bool) :
    State.onlyIn [.freeCtr, .regs, .hank, .sites, .cmds, .pwr, .ports, .fid, .out] s (State.unqueueLeave s w tell) := by
  unfold State.unqueueLeave
  repeat' (first
    | intro _
    | ((with_reducible apply Comp.sub_ok); exact rfl)
    | with_reducible apply State.onlyIn.refl
    | with_reducible assumption
    | (simp only [State.onlyIn.freeCtr (l := [.freeCtr, .regs, .hank, .sites, .cmds, .pwr, .ports, .fid, .out]) rfl, State.onlyIn.regs (l := [.freeCtr, .regs, .hank, .sites, .cmds, .pwr, .ports, .fid, .out]) rfl, State.onlyIn.sites (l := [.freeCtr, .regs, .hank, .sites, .cmds, .pwr, .ports, .fid, .out]) rfl, State.onlyIn.cmds (l := [.freeCtr, .regs, .hank, .sites, .cmds, .pwr, .ports, .fid, .out]) rfl, State.onlyIn.pwr (l := [.freeCtr, .regs, .hank, .sites, .cmds, .pwr, .ports, .fid, .out]) rfl, State.onlyIn.ports (l := [.freeCtr, .regs, .hank, .sites, .cmds, .pwr, .ports, .fid, .out]) rfl, State.onlyIn.fid (l := [.freeCtr, .regs, .hank, .sites, .cmds, .pwr, .ports, .fid, .out]) rfl, State.onlyIn.out (l := [.freeCtr, .regs, .hank, .sites, .cmds, .pwr, .ports, .fid, .out]) rfl])
    | with_reducible apply State.onlyIn.foldl
    | dsimp only
    | split
    | with_reducible apply State.onlyIn.step (State.decideQueue_only _ _)
    | with_reducible apply State.onlyIn.step (State.siteOut_only _ _ _ _)
    | with_reducible refine .hankRest ?_ (by rfl) ?_
    | (refine ⟨fun c hc => ?_⟩; cases c <;> first | rfl | exact absurd (by decide) hc))

theorem State.wakeTiles_only (s : State) (c : BitVec 16) :
    State.onlyIn [.regs, .tiles, .fid] s (State.wakeTiles s c) := by
  unfold State.wakeTiles
  repeat' (first
    | intro _
    | ((with_reducible apply Comp.sub_ok); exact rfl)
    | with_reducible apply State.onlyIn.refl
    | with_reducible assumption
    | with_reducible apply State.onlyIn.foldl
    | dsimp only
    | split
    | with_reducible apply State.onlyIn.step (State.trace_only _ _ _ _ _ _ _ _ _)
    | with_reducible apply State.onlyIn.step (State.fidEvent_only _ _ _ _ _ _ _)
    | with_reducible apply State.onlyIn.step (State.setTile_only _ _ _))

theorem State.wakeWatches_only (s : State) (c : BitVec 16) :
    State.onlyIn [.regs, .cleats, .sites, .fid, .out] s (State.wakeWatches s c) := by
  unfold State.wakeWatches
  repeat' (first
    | intro _
    | ((with_reducible apply Comp.sub_ok); exact rfl)
    | with_reducible apply State.onlyIn.refl
    | with_reducible assumption
    | (simp only [State.onlyIn.regs (l := [.regs, .cleats, .sites, .fid, .out]) rfl, State.onlyIn.cleats (l := [.regs, .cleats, .sites, .fid, .out]) rfl, State.onlyIn.sites (l := [.regs, .cleats, .sites, .fid, .out]) rfl, State.onlyIn.fid (l := [.regs, .cleats, .sites, .fid, .out]) rfl, State.onlyIn.out (l := [.regs, .cleats, .sites, .fid, .out]) rfl])
    | with_reducible apply State.onlyIn.foldl
    | dsimp only
    | split
    | with_reducible apply State.onlyIn.step (State.trace_only _ _ _ _ _ _ _ _ _)
    | with_reducible apply State.onlyIn.step (State.siteRsp_only _ _ _ _ _ _ _ _)
    | (refine ⟨fun c hc => ?_⟩; cases c <;> first | rfl | exact absurd (by decide) hc))

theorem State.wakeCmds_only (s : State) (c : BitVec 16) :
    State.onlyIn [.regs, .cmds, .fid] s (State.wakeCmds s c) := by
  unfold State.wakeCmds
  repeat' (first
    | intro _
    | ((with_reducible apply Comp.sub_ok); exact rfl)
    | with_reducible apply State.onlyIn.refl
    | with_reducible assumption
    | with_reducible apply State.onlyIn.foldl
    | dsimp only
    | split
    | with_reducible apply State.onlyIn.step (State.finish_only _ _ _ _)
    | with_reducible apply State.onlyIn.step (State.trace_only _ _ _ _ _ _ _ _ _))

theorem State.wake_only (s : State) (c : BitVec 16) :
    State.onlyIn [.regs, .tiles, .cleats, .sites, .cmds, .fid, .out] s (State.wake s c) := by
  unfold State.wake
  repeat' (first
    | intro _
    | ((with_reducible apply Comp.sub_ok); exact rfl)
    | with_reducible apply State.onlyIn.refl
    | with_reducible assumption
    | with_reducible apply State.onlyIn.foldl
    | dsimp only
    | split
    | with_reducible apply State.onlyIn.step (State.wakeCmds_only _ _)
    | with_reducible apply State.onlyIn.step (State.wakeWatches_only _ _)
    | with_reducible apply State.onlyIn.step (State.wakeTiles_only _ _)
    | with_reducible apply State.onlyIn.step (State.trigger_only _ _ _ _ _ _))

theorem State.applyInc_only (s : State) (c : BitVec 16) (inc : CleatVal) (a : Agent) :
    State.onlyIn [.regs, .tiles, .cleats, .sites, .cmds, .fid, .out] s (State.applyInc s c inc a) := by
  unfold State.applyInc
  repeat' (first
    | intro _
    | ((with_reducible apply Comp.sub_ok); exact rfl)
    | with_reducible apply State.onlyIn.refl
    | with_reducible assumption
    | with_reducible apply State.onlyIn.foldl
    | dsimp only
    | split
    | with_reducible apply State.onlyIn.step (State.wake_only _ _)
    | with_reducible apply State.onlyIn.step (State.trace_only _ _ _ _ _ _ _ _ _)
    | with_reducible apply State.onlyIn.step (State.setCleat_only _ _ _))

theorem State.sendInc_only (s : State) (c : BitVec 16) (inc : CleatVal) (a : Agent) :
    State.onlyIn [.cleats] s (State.sendInc s c inc a) := by
  unfold State.sendInc
  repeat' (first
    | intro _
    | ((with_reducible apply Comp.sub_ok); exact rfl)
    | with_reducible apply State.onlyIn.refl
    | with_reducible assumption
    | (simp only [State.onlyIn.cleats (l := [.cleats]) rfl])
    | with_reducible apply State.onlyIn.foldl
    | dsimp only
    | split
    | (refine ⟨fun c hc => ?_⟩; cases c <;> first | rfl | exact absurd (by decide) hc))

end Sys2Proof.Machine
end

