-- ==== Sys2Proof/Laws/OnlyLeave.lean ====
section
/-! SUPPORT. What each operation of Machine/Leave.lean can change: the parts of the state outside the list are as before. -/

set_option linter.all false

namespace Sys2Proof.Machine

theorem State.tellSite_only (s : State) (w : LeaveWho) (tag : BitVec 12) (code : Nat) :
    State.onlyIn [.sites, .out] s (State.tellSite s w tag code) := by
  unfold State.tellSite
  repeat' (first
    | intro _
    | ((with_reducible apply Comp.sub_ok); exact rfl)
    | with_reducible apply State.onlyIn.refl
    | with_reducible assumption
    | with_reducible apply State.onlyIn.foldl
    | dsimp only
    | split
    | with_reducible apply State.onlyIn.step (State.siteOut_only _ _ _ _))

theorem State.refuseNew_only (s : State) (w : LeaveWho) (tag : BitVec 12) :
    State.onlyIn [.freeCtr, .regs, .hank, .sites, .cmds, .ports, .out] s (State.refuseNew s w tag) := by
  unfold State.refuseNew
  repeat' (first
    | intro _
    | ((with_reducible apply Comp.sub_ok); exact rfl)
    | with_reducible apply State.onlyIn.refl
    | with_reducible assumption
    | with_reducible apply State.onlyIn.foldl
    | dsimp only
    | split
    | with_reducible apply State.onlyIn.step (State.tellSite_only _ _ _ _)
    | with_reducible apply State.onlyIn.step (State.refuseLeave_only _ _)
    | with_reducible apply State.onlyIn.step (State.ev_only _ _ _))

theorem State.askLeave_only (s : State) (w : LeaveWho) (tag : BitVec 12) (watts : Nat) (durUs : Nat) (hf : Half) :
    State.onlyIn [.freeCtr, .regs, .hank, .sites, .cmds, .pwr, .ports, .fid, .out] s (State.askLeave s w tag watts durUs hf) := by
  unfold State.askLeave
  repeat' (first
    | intro _
    | ((with_reducible apply Comp.sub_ok); exact rfl)
    | with_reducible apply State.onlyIn.refl
    | with_reducible assumption
    | (simp only [State.onlyIn.freeCtr (l := [.freeCtr, .regs, .hank, .sites, .cmds, .pwr, .ports, .fid, .out]) rfl, State.onlyIn.regs (l := [.freeCtr, .regs, .hank, .sites, .cmds, .pwr, .ports, .fid, .out]) rfl, State.onlyIn.sites (l := [.freeCtr, .regs, .hank, .sites, .cmds, .pwr, .ports, .fid, .out]) rfl, State.onlyIn.cmds (l := [.freeCtr, .regs, .hank, .sites, .cmds, .pwr, .ports, .fid, .out]) rfl, State.onlyIn.pwr (l := [.freeCtr, .regs, .hank, .sites, .cmds, .pwr, .ports, .fid, .out]) rfl, State.onlyIn.ports (l := [.freeCtr, .regs, .hank, .sites, .cmds, .pwr, .ports, .fid, .out]) rfl, State.onlyIn.fid (l := [.freeCtr, .regs, .hank, .sites, .cmds, .pwr, .ports, .fid, .out]) rfl, State.onlyIn.out (l := [.freeCtr, .regs, .hank, .sites, .cmds, .pwr, .ports, .fid, .out]) rfl])
    | with_reducible apply State.onlyIn.foldl
    | dsimp only
    | split
    | with_reducible apply State.onlyIn.step (State.refuseNew_only _ _ _)
    | with_reducible apply State.onlyIn.step (State.tellSite_only _ _ _ _)
    | with_reducible apply State.onlyIn.step (State.grantLeave_only _ _ _)
    | with_reducible apply State.onlyIn.step (State.traceLeave_only _ _ _ _)
    | with_reducible apply State.onlyIn.step (State.modSite_only _ _ _)
    | with_reducible apply State.onlyIn.step (State.ev_only _ _ _)
    | with_reducible refine .hankRest ?_ (by rfl) ?_
    | (refine ⟨fun c hc => ?_⟩; cases c <;> first | rfl | exact absurd (by decide) hc))

end Sys2Proof.Machine
end

