-- ==== Sys2Proof/Laws/OnlyHank.lean ====
section
/-! SUPPORT. What each operation of Machine/Hank.lean can change: the parts of the state outside the list are as before. -/

set_option linter.all false

namespace Sys2Proof.Machine

theorem State.memLoc_only (s : State) (cause : Nat) (ch : Nat) (sector : Nat) :
    State.onlyIn [.regs, .unread] s (State.memLoc s cause ch sector) := by
  unfold State.memLoc
  repeat' (first
    | intro _
    | ((with_reducible apply Comp.sub_ok); exact rfl)
    | with_reducible apply State.onlyIn.refl
    | with_reducible assumption
    | with_reducible apply State.onlyIn.foldl
    | with_reducible apply State.onlyIn.foldl2
    | dsimp only
    | (split <;> first | (rename_i heq; have hx := congrArg (fun z => z.2) heq; dsimp only at hx; subst hx) | (rename_i heq; have hx := congrArg (fun z => z.2.2) heq; dsimp only at hx; subst hx) | skip)
    | split
    | with_reducible apply State.onlyIn.step (State.takeLoc_only _ _)
    | with_reducible apply State.onlyIn.step (State.fset_only _ _ _ _ _))

theorem State.marginRes_only (s : State) (k : Nat) (m : MarginRun) :
    State.onlyIn [.regs] s (State.marginRes s k m) := by
  unfold State.marginRes
  repeat' (first
    | intro _
    | ((with_reducible apply Comp.sub_ok); exact rfl)
    | with_reducible apply State.onlyIn.refl
    | with_reducible assumption
    | with_reducible apply State.onlyIn.foldl
    | dsimp only
    | split
    | with_reducible apply State.onlyIn.step (State.fset_only _ _ _ _ _))

theorem State.endMargin_only (s : State) (k : Nat) :
    State.onlyIn [.freeCtr, .regs, .hank, .sites, .cmds, .pwr, .ports, .fid, .out] s (State.endMargin s k) := by
  unfold State.endMargin
  repeat' (first
    | intro _
    | ((with_reducible apply Comp.sub_ok); exact rfl)
    | with_reducible apply State.onlyIn.refl
    | with_reducible assumption
    | with_reducible apply State.onlyIn.foldl
    | dsimp only
    | split
    | with_reducible apply State.onlyIn.step (State.marginRes_only _ _ _)
    | with_reducible apply State.onlyIn.step (State.unqueueLeave_only _ _ _)
    | with_reducible apply State.onlyIn.step (State.returnLeave_only _ _)
    | with_reducible apply State.onlyIn.step (State.setSrun_only _ _ _)
    | with_reducible apply State.onlyIn.step (State.scramble_only _ _)
    | with_reducible apply State.onlyIn.step (State.setRun_only _ _)
    | with_reducible apply State.onlyIn.step (State.fset_only _ _ _ _ _))

theorem State.endMarch_only (s : State) (k : Nat) (reason : Nat) :
    State.onlyIn [.freeCtr, .regs, .hank, .sites, .cmds, .pwr, .ports, .fid, .out] s (State.endMarch s k reason) := by
  unfold State.endMarch
  repeat' (first
    | intro _
    | ((with_reducible apply Comp.sub_ok); exact rfl)
    | with_reducible apply State.onlyIn.refl
    | with_reducible assumption
    | with_reducible apply State.onlyIn.foldl
    | dsimp only
    | split
    | with_reducible apply State.onlyIn.step (State.unqueueLeave_only _ _ _)
    | with_reducible apply State.onlyIn.step (State.returnLeave_only _ _)
    | with_reducible apply State.onlyIn.step (State.setSrun_only _ _ _)
    | with_reducible apply State.onlyIn.step (State.fset_only _ _ _ _ _))

theorem State.addRepair_only (s : State) (r : Repair) :
    State.onlyIn [.regs, .boot] s (State.addRepair s r) := by
  unfold State.addRepair
  repeat' (first
    | intro _
    | ((with_reducible apply Comp.sub_ok); exact rfl)
    | with_reducible apply State.onlyIn.refl
    | with_reducible assumption
    | (simp only [State.onlyIn.regs (l := [.regs, .boot]) rfl, State.onlyIn.boot (l := [.regs, .boot]) rfl])
    | with_reducible apply State.onlyIn.foldl
    | dsimp only
    | split
    | with_reducible apply State.onlyIn.step (State.fset_only _ _ _ _ _)
    | (refine ⟨fun c hc => ?_⟩; cases c <;> first | rfl | exact absurd (by decide) hc))

theorem State.withdraw_only (s : State) (g : Nat) :
    State.onlyIn [.regs, .boot] s (State.withdraw s g) := by
  unfold State.withdraw
  repeat' (first
    | intro _
    | ((with_reducible apply Comp.sub_ok); exact rfl)
    | with_reducible apply State.onlyIn.refl
    | with_reducible assumption
    | (simp only [State.onlyIn.regs (l := [.regs, .boot]) rfl, State.onlyIn.boot (l := [.regs, .boot]) rfl])
    | with_reducible apply State.onlyIn.foldl
    | dsimp only
    | split
    | with_reducible apply State.onlyIn.step (State.addRepair_only _ _)
    | with_reducible apply State.onlyIn.step (State.fset_only _ _ _ _ _)
    | (refine ⟨fun c hc => ?_⟩; cases c <;> first | rfl | exact absurd (by decide) hc))

theorem State.startRetire_only (s : State) (ch : Nat) :
    State.onlyIn [.freeCtr, .regs, .hank, .sites, .cmds, .pwr, .ports, .fid, .unread, .out] s (State.startRetire s ch) := by
  unfold State.startRetire
  repeat' (first
    | intro _
    | ((with_reducible apply Comp.sub_ok); exact rfl)
    | with_reducible apply State.onlyIn.refl
    | with_reducible assumption
    | (simp only [State.onlyIn.freeCtr (l := [.freeCtr, .regs, .hank, .sites, .cmds, .pwr, .ports, .fid, .unread, .out]) rfl, State.onlyIn.regs (l := [.freeCtr, .regs, .hank, .sites, .cmds, .pwr, .ports, .fid, .unread, .out]) rfl, State.onlyIn.sites (l := [.freeCtr, .regs, .hank, .sites, .cmds, .pwr, .ports, .fid, .unread, .out]) rfl, State.onlyIn.cmds (l := [.freeCtr, .regs, .hank, .sites, .cmds, .pwr, .ports, .fid, .unread, .out]) rfl, State.onlyIn.pwr (l := [.freeCtr, .regs, .hank, .sites, .cmds, .pwr, .ports, .fid, .unread, .out]) rfl, State.onlyIn.ports (l := [.freeCtr, .regs, .hank, .sites, .cmds, .pwr, .ports, .fid, .unread, .out]) rfl, State.onlyIn.fid (l := [.freeCtr, .regs, .hank, .sites, .cmds, .pwr, .ports, .fid, .unread, .out]) rfl, State.onlyIn.unread (l := [.freeCtr, .regs, .hank, .sites, .cmds, .pwr, .ports, .fid, .unread, .out]) rfl, State.onlyIn.out (l := [.freeCtr, .regs, .hank, .sites, .cmds, .pwr, .ports, .fid, .unread, .out]) rfl])
    | with_reducible apply State.onlyIn.foldl
    | dsimp only
    | split
    | with_reducible apply State.onlyIn.step (State.endMargin_only _ _)
    | with_reducible apply State.onlyIn.step (State.memLoc_only _ _ _ _)
    | with_reducible apply State.onlyIn.step (State.ev_only _ _ _)
    | with_reducible apply State.onlyIn.step (State.bump_only _)
    | with_reducible apply State.onlyIn.step (State.fset_only _ _ _ _ _)
    | with_reducible refine .hankRest ?_ (by rfl) ?_
    | (refine ⟨fun c hc => ?_⟩; cases c <;> first | rfl | exact absurd (by decide) hc))

theorem State.nextRetire_only (s : State) (x1 : Nat) :
    State.onlyIn [.freeCtr, .regs, .hank, .sites, .cmds, .pwr, .ports, .fid, .unread, .out] s (State.nextRetire s x1) := by
  induction x1 generalizing s with
  | zero =>
    rw [State.nextRetire]
    repeat' (first
      | intro _
      | ((with_reducible apply Comp.sub_ok); exact rfl)
      | with_reducible apply State.onlyIn.refl
      | with_reducible assumption
      | (simp only [State.onlyIn.freeCtr (l := [.freeCtr, .regs, .hank, .sites, .cmds, .pwr, .ports, .fid, .unread, .out]) rfl, State.onlyIn.regs (l := [.freeCtr, .regs, .hank, .sites, .cmds, .pwr, .ports, .fid, .unread, .out]) rfl, State.onlyIn.sites (l := [.freeCtr, .regs, .hank, .sites, .cmds, .pwr, .ports, .fid, .unread, .out]) rfl, State.onlyIn.cmds (l := [.freeCtr, .regs, .hank, .sites, .cmds, .pwr, .ports, .fid, .unread, .out]) rfl, State.onlyIn.pwr (l := [.freeCtr, .regs, .hank, .sites, .cmds, .pwr, .ports, .fid, .unread, .out]) rfl, State.onlyIn.ports (l := [.freeCtr, .regs, .hank, .sites, .cmds, .pwr, .ports, .fid, .unread, .out]) rfl, State.onlyIn.fid (l := [.freeCtr, .regs, .hank, .sites, .cmds, .pwr, .ports, .fid, .unread, .out]) rfl, State.onlyIn.unread (l := [.freeCtr, .regs, .hank, .sites, .cmds, .pwr, .ports, .fid, .unread, .out]) rfl, State.onlyIn.out (l := [.freeCtr, .regs, .hank, .sites, .cmds, .pwr, .ports, .fid, .unread, .out]) rfl])
      | with_reducible apply State.onlyIn.foldl
      | dsimp only
      | split
      | with_reducible apply State.onlyIn.step (State.startRetire_only _ _)
      | with_reducible refine .trans ?_ (ih _)
      | with_reducible refine .hankRest ?_ (by rfl) ?_
      | (refine ⟨fun c hc => ?_⟩; cases c <;> first | rfl | exact absurd (by decide) hc))
  | succ k ih =>
    rw [State.nextRetire]
    repeat' (first
      | intro _
      | ((with_reducible apply Comp.sub_ok); exact rfl)
      | with_reducible apply State.onlyIn.refl
      | with_reducible assumption
      | (simp only [State.onlyIn.freeCtr (l := [.freeCtr, .regs, .hank, .sites, .cmds, .pwr, .ports, .fid, .unread, .out]) rfl, State.onlyIn.regs (l := [.freeCtr, .regs, .hank, .sites, .cmds, .pwr, .ports, .fid, .unread, .out]) rfl, State.onlyIn.sites (l := [.freeCtr, .regs, .hank, .sites, .cmds, .pwr, .ports, .fid, .unread, .out]) rfl, State.onlyIn.cmds (l := [.freeCtr, .regs, .hank, .sites, .cmds, .pwr, .ports, .fid, .unread, .out]) rfl, State.onlyIn.pwr (l := [.freeCtr, .regs, .hank, .sites, .cmds, .pwr, .ports, .fid, .unread, .out]) rfl, State.onlyIn.ports (l := [.freeCtr, .regs, .hank, .sites, .cmds, .pwr, .ports, .fid, .unread, .out]) rfl, State.onlyIn.fid (l := [.freeCtr, .regs, .hank, .sites, .cmds, .pwr, .ports, .fid, .unread, .out]) rfl, State.onlyIn.unread (l := [.freeCtr, .regs, .hank, .sites, .cmds, .pwr, .ports, .fid, .unread, .out]) rfl, State.onlyIn.out (l := [.freeCtr, .regs, .hank, .sites, .cmds, .pwr, .ports, .fid, .unread, .out]) rfl])
      | with_reducible apply State.onlyIn.foldl
      | dsimp only
      | split
      | with_reducible apply State.onlyIn.step (State.startRetire_only _ _)
      | with_reducible refine .trans ?_ (ih _)
      | with_reducible refine .hankRest ?_ (by rfl) ?_
      | (refine ⟨fun c hc => ?_⟩; cases c <;> first | rfl | exact absurd (by decide) hc))

theorem State.atThreshold_only (s : State) (ch : Nat) :
    State.onlyIn [.freeCtr, .regs, .hank, .sites, .cmds, .pwr, .ports, .fid, .unread, .out] s (State.atThreshold s ch) := by
  unfold State.atThreshold
  repeat' (first
    | intro _
    | ((with_reducible apply Comp.sub_ok); exact rfl)
    | with_reducible apply State.onlyIn.refl
    | with_reducible assumption
    | (simp only [State.onlyIn.freeCtr (l := [.freeCtr, .regs, .hank, .sites, .cmds, .pwr, .ports, .fid, .unread, .out]) rfl, State.onlyIn.regs (l := [.freeCtr, .regs, .hank, .sites, .cmds, .pwr, .ports, .fid, .unread, .out]) rfl, State.onlyIn.sites (l := [.freeCtr, .regs, .hank, .sites, .cmds, .pwr, .ports, .fid, .unread, .out]) rfl, State.onlyIn.cmds (l := [.freeCtr, .regs, .hank, .sites, .cmds, .pwr, .ports, .fid, .unread, .out]) rfl, State.onlyIn.pwr (l := [.freeCtr, .regs, .hank, .sites, .cmds, .pwr, .ports, .fid, .unread, .out]) rfl, State.onlyIn.ports (l := [.freeCtr, .regs, .hank, .sites, .cmds, .pwr, .ports, .fid, .unread, .out]) rfl, State.onlyIn.fid (l := [.freeCtr, .regs, .hank, .sites, .cmds, .pwr, .ports, .fid, .unread, .out]) rfl, State.onlyIn.unread (l := [.freeCtr, .regs, .hank, .sites, .cmds, .pwr, .ports, .fid, .unread, .out]) rfl, State.onlyIn.out (l := [.freeCtr, .regs, .hank, .sites, .cmds, .pwr, .ports, .fid, .unread, .out]) rfl])
    | with_reducible apply State.onlyIn.foldl
    | dsimp only
    | split
    | with_reducible apply State.onlyIn.step (State.nextRetire_only _ _)
    | with_reducible apply State.onlyIn.step (State.endMarch_only _ _ _)
    | with_reducible apply State.onlyIn.step (State.ev_only _ _ _)
    | with_reducible apply State.onlyIn.step (State.fset_only _ _ _ _ _)
    | with_reducible refine .hankRest ?_ (by rfl) ?_
    | (refine ⟨fun c hc => ?_⟩; cases c <;> first | rfl | exact absurd (by decide) hc))

theorem State.bucketAdd_only (s : State) (ch : Nat) (w : Nat) :
    State.onlyIn [.freeCtr, .regs, .hank, .sites, .cmds, .pwr, .ports, .fid, .unread, .out] s (State.bucketAdd s ch w) := by
  unfold State.bucketAdd
  repeat' (first
    | intro _
    | ((with_reducible apply Comp.sub_ok); exact rfl)
    | with_reducible apply State.onlyIn.refl
    | with_reducible assumption
    | with_reducible apply State.onlyIn.foldl
    | dsimp only
    | split
    | with_reducible apply State.onlyIn.step (State.atThreshold_only _ _)
    | with_reducible apply State.onlyIn.step (State.fset_only _ _ _ _ _))

theorem State.switchChunk_only (s : State) (ch : Nat) (b : Nat) :
    State.onlyIn [.hank] s (State.switchChunk s ch b) := by
  unfold State.switchChunk
  repeat' (first
    | intro _
    | ((with_reducible apply Comp.sub_ok); exact rfl)
    | with_reducible apply State.onlyIn.refl
    | with_reducible assumption
    | with_reducible apply State.onlyIn.foldl
    | dsimp only
    | split
    | with_reducible refine .hankRest ?_ (by rfl) ?_
    | (refine ⟨fun c hc => ?_⟩; cases c <;> first | rfl | exact absurd (by decide) hc))

theorem State.retireDone_only (s : State) (ch : Nat) :
    State.onlyIn [.freeCtr, .regs, .hank, .sites, .cmds, .pwr, .ports, .boot, .fid, .unread, .out] s (State.retireDone s ch) := by
  unfold State.retireDone
  repeat' (first
    | intro _
    | ((with_reducible apply Comp.sub_ok); exact rfl)
    | with_reducible apply State.onlyIn.refl
    | with_reducible assumption
    | (simp only [State.onlyIn.freeCtr (l := [.freeCtr, .regs, .hank, .sites, .cmds, .pwr, .ports, .boot, .fid, .unread, .out]) rfl, State.onlyIn.regs (l := [.freeCtr, .regs, .hank, .sites, .cmds, .pwr, .ports, .boot, .fid, .unread, .out]) rfl, State.onlyIn.sites (l := [.freeCtr, .regs, .hank, .sites, .cmds, .pwr, .ports, .boot, .fid, .unread, .out]) rfl, State.onlyIn.cmds (l := [.freeCtr, .regs, .hank, .sites, .cmds, .pwr, .ports, .boot, .fid, .unread, .out]) rfl, State.onlyIn.pwr (l := [.freeCtr, .regs, .hank, .sites, .cmds, .pwr, .ports, .boot, .fid, .unread, .out]) rfl, State.onlyIn.ports (l := [.freeCtr, .regs, .hank, .sites, .cmds, .pwr, .ports, .boot, .fid, .unread, .out]) rfl, State.onlyIn.boot (l := [.freeCtr, .regs, .hank, .sites, .cmds, .pwr, .ports, .boot, .fid, .unread, .out]) rfl, State.onlyIn.fid (l := [.freeCtr, .regs, .hank, .sites, .cmds, .pwr, .ports, .boot, .fid, .unread, .out]) rfl, State.onlyIn.unread (l := [.freeCtr, .regs, .hank, .sites, .cmds, .pwr, .ports, .boot, .fid, .unread, .out]) rfl, State.onlyIn.out (l := [.freeCtr, .regs, .hank, .sites, .cmds, .pwr, .ports, .boot, .fid, .unread, .out]) rfl])
    | with_reducible apply State.onlyIn.foldl
    | dsimp only
    | split
    | with_reducible apply State.onlyIn.step (State.nextRetire_only _ _)
    | with_reducible apply State.onlyIn.step (State.addRepair_only _ _)
    | with_reducible apply State.onlyIn.step (State.ev_only _ _ _)
    | with_reducible apply State.onlyIn.step (State.fadd_only _ _ _ _ _)
    | with_reducible apply State.onlyIn.step (State.fset_only _ _ _ _ _)
    | with_reducible refine .hankRest ?_ (by rfl) ?_
    | (refine ⟨fun c hc => ?_⟩; cases c <;> first | rfl | exact absurd (by decide) hc))

theorem State.retireEvents_only (s : State) (ch : Nat) :
    State.onlyIn [.freeCtr, .regs, .ports, .unread, .out] s (State.retireEvents s ch) := by
  unfold State.retireEvents
  repeat' (first
    | intro _
    | ((with_reducible apply Comp.sub_ok); exact rfl)
    | with_reducible apply State.onlyIn.refl
    | with_reducible assumption
    | with_reducible apply State.onlyIn.foldl
    | dsimp only
    | split
    | with_reducible apply State.onlyIn.step (State.memLoc_only _ _ _ _)
    | with_reducible apply State.onlyIn.step (State.ev_only _ _ _)
    | with_reducible apply State.onlyIn.step (State.bump_only _))

theorem State.retireNow_only (s : State) (ch : Nat) :
    State.onlyIn [.regs, .hank] s (State.retireNow s ch) := by
  unfold State.retireNow
  repeat' (first
    | intro _
    | ((with_reducible apply Comp.sub_ok); exact rfl)
    | with_reducible apply State.onlyIn.refl
    | with_reducible assumption
    | (simp only [State.onlyIn.regs (l := [.regs, .hank]) rfl])
    | with_reducible apply State.onlyIn.foldl
    | dsimp only
    | split
    | with_reducible apply State.onlyIn.step (State.switchChunk_only _ _ _)
    | with_reducible apply State.onlyIn.step (State.fadd_only _ _ _ _ _)
    | with_reducible apply State.onlyIn.step (State.fset_only _ _ _ _ _)
    | with_reducible refine .hankRest ?_ (by rfl) ?_
    | (refine ⟨fun c hc => ?_⟩; cases c <;> first | rfl | exact absurd (by decide) hc))

theorem State.corrected_only (s : State) (ch : Nat) (n : Nat) :
    State.onlyIn [.regs, .hank] s (State.corrected s ch n) := by
  unfold State.corrected
  repeat' (first
    | intro _
    | ((with_reducible apply Comp.sub_ok); exact rfl)
    | with_reducible apply State.onlyIn.refl
    | with_reducible assumption
    | (simp only [State.onlyIn.regs (l := [.regs, .hank]) rfl])
    | with_reducible apply State.onlyIn.foldl
    | dsimp only
    | split
    | with_reducible apply State.onlyIn.step (State.fidEvent_only _ _ _ _ _ _ _)
    | with_reducible refine .hankRest ?_ (by rfl) ?_
    | (refine ⟨fun c hc => ?_⟩; cases c <;> first | rfl | exact absurd (by decide) hc))

theorem State.writeFound_only (s : State) (sec : Nat) (other : Option (BitVec 256)) :
    State.onlyIn [.mem, .hank] s (State.writeFound s sec other) := by
  unfold State.writeFound
  repeat' (first
    | intro _
    | ((with_reducible apply Comp.sub_ok); exact rfl)
    | with_reducible apply State.onlyIn.refl
    | with_reducible assumption
    | with_reducible apply State.onlyIn.foldl
    | dsimp only
    | split
    | with_reducible refine .hankRest ?_ (by rfl) ?_
    | with_reducible refine .hankAll ?_ ?_
    | (refine ⟨fun c hc => ?_⟩; cases c <;> first | rfl | exact absurd (by decide) hc))

theorem State.reading_only (s : State) (sec : Nat) (ch : Nat) (rcv : Bool) (l : List Dec) :
    State.onlyIn [.freeCtr, .regs, .mem, .hank, .sites, .cmds, .pwr, .ports, .fid, .unread, .out] s (State.reading s sec ch rcv l).st := by
  unfold State.reading
  repeat' (first
    | intro _
    | ((with_reducible apply Comp.sub_ok); exact rfl)
    | with_reducible apply State.onlyIn.refl
    | with_reducible assumption
    | with_reducible apply State.onlyIn.foldl
    | dsimp only
    | split
    | with_reducible apply State.onlyIn.step (State.writeFound_only _ _ _)
    | with_reducible apply State.onlyIn.step (State.corrected_only _ _ _)
    | with_reducible apply State.onlyIn.step (State.bucketAdd_only _ _ _)
    | with_reducible apply State.onlyIn.step (State.fidEvent_only _ _ _ _ _ _ _)
    | with_reducible apply State.onlyIn.step (State.fadd_only _ _ _ _ _))

theorem State.lost_only (s : State) (ch : Nat) (sec : Nat) :
    State.onlyIn [.regs, .ports, .unread, .out] s (State.lost s ch sec) := by
  unfold State.lost
  repeat' (first
    | intro _
    | ((with_reducible apply Comp.sub_ok); exact rfl)
    | with_reducible apply State.onlyIn.refl
    | with_reducible assumption
    | with_reducible apply State.onlyIn.foldl
    | dsimp only
    | split
    | with_reducible apply State.onlyIn.step (State.memLoc_only _ _ _ _)
    | with_reducible apply State.onlyIn.step (State.ev_only _ _ _)
    | with_reducible apply State.onlyIn.step (State.fadd_only _ _ _ _ _))

theorem State.mirrorRead_only (s : State) (m : Nat) (sec : Nat) (ch : Nat) (l : List Dec) :
    State.onlyIn [.freeCtr, .regs, .mem, .hank, .sites, .cmds, .pwr, .ports, .fid, .unread, .out] s (State.mirrorRead s m sec ch l).st := by
  unfold State.mirrorRead
  repeat' (first
    | intro _
    | ((with_reducible apply Comp.sub_ok); exact rfl)
    | with_reducible apply State.onlyIn.refl
    | with_reducible assumption
    | (simp only [State.onlyIn.freeCtr (l := [.freeCtr, .regs, .mem, .hank, .sites, .cmds, .pwr, .ports, .fid, .unread, .out]) rfl, State.onlyIn.regs (l := [.freeCtr, .regs, .mem, .hank, .sites, .cmds, .pwr, .ports, .fid, .unread, .out]) rfl, State.onlyIn.sites (l := [.freeCtr, .regs, .mem, .hank, .sites, .cmds, .pwr, .ports, .fid, .unread, .out]) rfl, State.onlyIn.cmds (l := [.freeCtr, .regs, .mem, .hank, .sites, .cmds, .pwr, .ports, .fid, .unread, .out]) rfl, State.onlyIn.pwr (l := [.freeCtr, .regs, .mem, .hank, .sites, .cmds, .pwr, .ports, .fid, .unread, .out]) rfl, State.onlyIn.ports (l := [.freeCtr, .regs, .mem, .hank, .sites, .cmds, .pwr, .ports, .fid, .unread, .out]) rfl, State.onlyIn.fid (l := [.freeCtr, .regs, .mem, .hank, .sites, .cmds, .pwr, .ports, .fid, .unread, .out]) rfl, State.onlyIn.unread (l := [.freeCtr, .regs, .mem, .hank, .sites, .cmds, .pwr, .ports, .fid, .unread, .out]) rfl, State.onlyIn.out (l := [.freeCtr, .regs, .mem, .hank, .sites, .cmds, .pwr, .ports, .fid, .unread, .out]) rfl])
    | with_reducible apply State.onlyIn.foldl
    | dsimp only
    | split
    | with_reducible apply State.onlyIn.step (State.lost_only _ _ _)
    | with_reducible apply State.onlyIn.step (State.reading_only _ _ _ _ _)
    | with_reducible apply State.onlyIn.step (State.poisonSec_only _ _)
    | with_reducible apply State.onlyIn.step (State.ev_only _ _ _)
    | with_reducible apply State.onlyIn.step (State.bump_only _)
    | with_reducible refine .hankRest ?_ (by rfl) ?_
    | with_reducible refine .hankAll ?_ ?_
    | (refine ⟨fun c hc => ?_⟩; cases c <;> first | rfl | exact absurd (by decide) hc))

theorem State.shadowRead_only (s : State) (sec : Nat) (ch : Nat) (first : Found) (l : List Dec) :
    State.onlyIn [.freeCtr, .regs, .hank, .sites, .cmds, .pwr, .ports, .fid, .out] s (State.shadowRead s sec ch first l).2 := by
  unfold State.shadowRead
  repeat' (first
    | intro _
    | ((with_reducible apply Comp.sub_ok); exact rfl)
    | with_reducible apply State.onlyIn.refl
    | with_reducible assumption
    | with_reducible apply State.onlyIn.foldl
    | with_reducible apply State.onlyIn.foldl2
    | dsimp only
    | split
    | with_reducible apply State.onlyIn.step (State.endMargin_only _ _)
    | with_reducible apply State.onlyIn.step (State.setSrun_only _ _ _))

theorem State.secReadBy_only (s : State) (twin : Option Nat) (sec : Nat) (l : List Dec) :
    State.onlyIn [.freeCtr, .regs, .mem, .hank, .sites, .cmds, .pwr, .ports, .fid, .unread, .out] s (State.secReadBy s twin sec l).st := by
  unfold State.secReadBy
  repeat' (first
    | intro _
    | ((with_reducible apply Comp.sub_ok); exact rfl)
    | with_reducible apply State.onlyIn.refl
    | with_reducible assumption
    | with_reducible apply State.onlyIn.foldl
    | with_reducible apply State.onlyIn.foldl2
    | dsimp only
    | (split <;> first | (rename_i heq; have hx := congrArg (fun z => z.2) heq; dsimp only at hx; subst hx) | (rename_i heq; have hx := congrArg (fun z => z.2.2) heq; dsimp only at hx; subst hx) | skip)
    | split
    | with_reducible apply State.onlyIn.step (State.shadowRead_only _ _ _ _ _)
    | with_reducible apply State.onlyIn.step (State.mirrorRead_only _ _ _ _ _)
    | with_reducible apply State.onlyIn.step (State.lost_only _ _ _)
    | with_reducible apply State.onlyIn.step (State.reading_only _ _ _ _ _)
    | with_reducible apply State.onlyIn.step (State.poisonSec_only _ _)
    | with_reducible apply State.onlyIn.step (State.bump_only _))

theorem State.secRead_only (s : State) (sec : Nat) (l : List Dec) :
    State.onlyIn [.freeCtr, .regs, .mem, .hank, .sites, .cmds, .pwr, .ports, .fid, .unread, .out] s (State.secRead s sec l).st := by
  unfold State.secRead
  repeat' (first
    | intro _
    | ((with_reducible apply Comp.sub_ok); exact rfl)
    | with_reducible apply State.onlyIn.refl
    | with_reducible assumption
    | with_reducible apply State.onlyIn.foldl
    | dsimp only
    | split
    | with_reducible apply State.onlyIn.step (State.secReadBy_only _ _ _ _))

theorem State.lineRead_only (s : State) (line : Nat) (sect : BitVec 2) (l : List Dec) :
    State.onlyIn [.freeCtr, .regs, .mem, .hank, .sites, .cmds, .pwr, .ports, .fid, .unread, .out] s (State.lineRead s line sect l).2.2.2 := by
  unfold State.lineRead
  repeat' (first
    | intro _
    | ((with_reducible apply Comp.sub_ok); exact rfl)
    | with_reducible apply State.onlyIn.refl
    | with_reducible assumption
    | with_reducible apply State.onlyIn.foldl
    | with_reducible apply State.onlyIn.foldl2
    | dsimp only
    | split
    | with_reducible apply State.onlyIn.step (State.secRead_only _ _ _))

theorem State.queueFill_only (s : State) (gs : List Nat) (owner : Nat) (cmd : Option Nat) :
    State.onlyIn [.hank] s (State.queueFill s gs owner cmd) := by
  unfold State.queueFill
  repeat' (first
    | intro _
    | ((with_reducible apply Comp.sub_ok); exact rfl)
    | with_reducible apply State.onlyIn.refl
    | with_reducible assumption
    | with_reducible apply State.onlyIn.foldl
    | dsimp only
    | split
    | with_reducible refine .hankRest ?_ (by rfl) ?_
    | (refine ⟨fun c hc => ?_⟩; cases c <;> first | rfl | exact absurd (by decide) hc))

theorem State.unqueueFill_only (s : State) (gs : List Nat) :
    State.onlyIn [.hank] s (State.unqueueFill s gs) := by
  unfold State.unqueueFill
  repeat' (first
    | intro _
    | ((with_reducible apply Comp.sub_ok); exact rfl)
    | with_reducible apply State.onlyIn.refl
    | with_reducible assumption
    | with_reducible apply State.onlyIn.foldl
    | dsimp only
    | split
    | with_reducible refine .hankRest ?_ (by rfl) ?_
    | (refine ⟨fun c hc => ?_⟩; cases c <;> first | rfl | exact absurd (by decide) hc))

end Sys2Proof.Machine
end

