-- ==== Sys2Proof/Laws/OnlyHankMem.lean ====
section
/-! SUPPORT. What each operation of Machine/HankMem.lean can change: the parts of the state outside the list are as before. -/

set_option linter.all false

namespace Sys2Proof.Machine

theorem State.forward_only (s : State) (p : Pkt) :
    State.onlyIn [.fab] s (State.forward s p) := by
  unfold State.forward
  repeat' (first
    | intro _
    | ((with_reducible apply Comp.sub_ok); exact rfl)
    | with_reducible apply State.onlyIn.refl
    | with_reducible assumption
    | with_reducible apply State.onlyIn.foldl
    | dsimp only
    | split
    | with_reducible apply State.onlyIn.step (State.sendPkt_only _ _))

theorem State.takeCtl_only (s : State) (p : Pkt) :
    State.onlyIn [.fab, .hank] s (State.takeCtl s p) := by
  unfold State.takeCtl
  repeat' (first
    | intro _
    | ((with_reducible apply Comp.sub_ok); exact rfl)
    | with_reducible apply State.onlyIn.refl
    | with_reducible assumption
    | (simp only [State.onlyIn.fab (l := [.fab, .hank]) rfl])
    | with_reducible apply State.onlyIn.foldl
    | dsimp only
    | split
    | with_reducible apply State.onlyIn.step (State.takePkt_only _ _)
    | with_reducible refine .hankRest ?_ (by rfl) ?_
    | (refine ⟨fun c hc => ?_⟩; cases c <;> first | rfl | exact absurd (by decide) hc))

theorem State.holdCold_only (s : State) (p : Pkt) :
    State.onlyIn [.hank] s (State.holdCold s p) := by
  unfold State.holdCold
  repeat' (first
    | intro _
    | ((with_reducible apply Comp.sub_ok); exact rfl)
    | with_reducible apply State.onlyIn.refl
    | with_reducible assumption
    | with_reducible apply State.onlyIn.foldl
    | dsimp only
    | split
    | with_reducible refine .hankRest ?_ (by rfl) ?_
    | (refine ⟨fun c hc => ?_⟩; cases c <;> first | rfl | exact absurd (by decide) hc))

theorem State.atChannel_only {l : List Comp} {s : State} {p : Pkt} {op : Op} {k : State → State} (hl : Comp.sub [.regs, .fab, .hank, .unread] l = true) (hk_k : ∀ y0, State.onlyIn l y0 (k y0)) :
    State.onlyIn l s (State.atChannel s p op k) := by
  unfold State.atChannel
  repeat' (first
    | intro _
    | ((with_reducible refine Comp.sub_trans ?_ hl); exact rfl)
    | ((with_reducible apply Comp.sub_ok); exact rfl)
    | with_reducible apply State.onlyIn.refl
    | with_reducible assumption
    | with_reducible apply State.onlyIn.foldl
    | dsimp only
    | split
    | with_reducible apply State.onlyIn.step (State.holdCold_only _ _)
    | with_reducible apply State.onlyIn.step (State.forward_only _ _)
    | with_reducible apply State.onlyIn.step (State.sendPkt_only _ _)
    | with_reducible apply State.onlyIn.step (State.deny_only _ _ _ _ _)
    | with_reducible refine .trans ?_ (hk_k _))

theorem State.atChannel_onlyStep {l : List Comp} {s0 : State} {s : State} {p : Pkt} {op : Op} {k : State → State} (hl : Comp.sub [.regs, .fab, .hank, .unread] l = true) (hk_k : ∀ y0, State.onlyIn l y0 (k y0)) (h0 : State.onlyIn l s0 s) :
    State.onlyIn l s0 (State.atChannel s p op k) := h0.trans (State.atChannel_only hl hk_k)

theorem State.fromHome_only {l : List Comp} {s : State} {p : Pkt} {op : Op} {k : State → State} (hl : Comp.sub [.fab, .hank] l = true) (hk_k : ∀ y0, State.onlyIn l y0 (k y0)) :
    State.onlyIn l s (State.fromHome s p op k) := by
  unfold State.fromHome
  repeat' (first
    | intro _
    | ((with_reducible refine Comp.sub_trans ?_ hl); exact rfl)
    | ((with_reducible apply Comp.sub_ok); exact rfl)
    | with_reducible apply State.onlyIn.refl
    | with_reducible assumption
    | with_reducible apply State.onlyIn.foldl
    | dsimp only
    | split
    | with_reducible apply State.onlyIn.step (State.holdCold_only _ _)
    | with_reducible apply State.onlyIn.step (State.forward_only _ _)
    | with_reducible apply State.onlyIn.step (State.sendPkt_only _ _)
    | with_reducible refine .trans ?_ (hk_k _))

theorem State.fromHome_onlyStep {l : List Comp} {s0 : State} {s : State} {p : Pkt} {op : Op} {k : State → State} (hl : Comp.sub [.fab, .hank] l = true) (hk_k : ∀ y0, State.onlyIn l y0 (k y0)) (h0 : State.onlyIn l s0 s) :
    State.onlyIn l s0 (State.fromHome s p op k) := h0.trans (State.fromHome_only hl hk_k)

theorem State.secEvent_only (s : State) (p : Pkt) (ev : Nat) (n : Nat) :
    State.onlyIn [.regs] s (State.secEvent s p ev n) := by
  unfold State.secEvent
  repeat' (first
    | intro _
    | ((with_reducible apply Comp.sub_ok); exact rfl)
    | with_reducible apply State.onlyIn.refl
    | with_reducible assumption
    | with_reducible apply State.onlyIn.foldl
    | dsimp only
    | split
    | with_reducible apply State.onlyIn.step (State.fidEvent_only _ _ _ _ _ _ _))

theorem State.endJoin_only (s : State) (p : Pkt) :
    State.onlyIn [.fab] s (State.endJoin s p) := by
  unfold State.endJoin
  repeat' (first
    | intro _
    | ((with_reducible apply Comp.sub_ok); exact rfl)
    | with_reducible apply State.onlyIn.refl
    | with_reducible assumption
    | (simp only [State.onlyIn.fab (l := [.fab]) rfl])
    | with_reducible apply State.onlyIn.foldl
    | dsimp only
    | split
    | (refine ⟨fun c hc => ?_⟩; cases c <;> first | rfl | exact absurd (by decide) hc))

theorem State.chanRead_only (s : State) (p : Pkt) (phys : List Dec) :
    State.onlyIn [.freeCtr, .regs, .fab, .mem, .hank, .sites, .cmds, .pwr, .ports, .fid, .unread, .out] s (State.chanRead s p phys) := by
  unfold State.chanRead
  repeat' (first
    | intro _
    | ((with_reducible apply Comp.sub_ok); exact rfl)
    | with_reducible apply State.onlyIn.refl
    | with_reducible assumption
    | (simp only [State.onlyIn.freeCtr (l := [.freeCtr, .regs, .fab, .mem, .hank, .sites, .cmds, .pwr, .ports, .fid, .unread, .out]) rfl, State.onlyIn.regs (l := [.freeCtr, .regs, .fab, .mem, .hank, .sites, .cmds, .pwr, .ports, .fid, .unread, .out]) rfl, State.onlyIn.fab (l := [.freeCtr, .regs, .fab, .mem, .hank, .sites, .cmds, .pwr, .ports, .fid, .unread, .out]) rfl, State.onlyIn.sites (l := [.freeCtr, .regs, .fab, .mem, .hank, .sites, .cmds, .pwr, .ports, .fid, .unread, .out]) rfl, State.onlyIn.cmds (l := [.freeCtr, .regs, .fab, .mem, .hank, .sites, .cmds, .pwr, .ports, .fid, .unread, .out]) rfl, State.onlyIn.pwr (l := [.freeCtr, .regs, .fab, .mem, .hank, .sites, .cmds, .pwr, .ports, .fid, .unread, .out]) rfl, State.onlyIn.ports (l := [.freeCtr, .regs, .fab, .mem, .hank, .sites, .cmds, .pwr, .ports, .fid, .unread, .out]) rfl, State.onlyIn.fid (l := [.freeCtr, .regs, .fab, .mem, .hank, .sites, .cmds, .pwr, .ports, .fid, .unread, .out]) rfl, State.onlyIn.unread (l := [.freeCtr, .regs, .fab, .mem, .hank, .sites, .cmds, .pwr, .ports, .fid, .unread, .out]) rfl, State.onlyIn.out (l := [.freeCtr, .regs, .fab, .mem, .hank, .sites, .cmds, .pwr, .ports, .fid, .unread, .out]) rfl])
    | with_reducible apply State.onlyIn.foldl
    | with_reducible apply State.onlyIn.foldl2
    | dsimp only
    | (split <;> first | (rename_i heq; have hx := congrArg (fun z => z.2) heq; dsimp only at hx; subst hx) | (rename_i heq; have hx := congrArg (fun z => z.2.2) heq; dsimp only at hx; subst hx) | skip)
    | split
    | with_reducible apply State.onlyIn.step (State.secEvent_only _ _ _ _)
    | with_reducible apply State.onlyIn.step (State.lineRead_only _ _ _ _)
    | with_reducible apply State.onlyIn.step (State.sendPkt_only _ _)
    | with_reducible refine .hankRest ?_ (by rfl) ?_
    | with_reducible refine .hankAll ?_ ?_
    | (refine ⟨fun c hc => ?_⟩; cases c <;> first | rfl | exact absurd (by decide) hc))

theorem State.secWrite_only (s : State) (p : Pkt) (i : Nat) (l : List Dec) :
    State.onlyIn [.freeCtr, .regs, .mem, .hank, .sites, .cmds, .pwr, .ports, .fid, .unread, .out] s (State.secWrite s p i l).2.2 := by
  unfold State.secWrite
  repeat' (first
    | intro _
    | ((with_reducible apply Comp.sub_ok); exact rfl)
    | with_reducible apply State.onlyIn.refl
    | with_reducible assumption
    | with_reducible apply State.onlyIn.foldl
    | with_reducible apply State.onlyIn.foldl2
    | dsimp only
    | split
    | with_reducible apply State.onlyIn.step (State.secRead_only _ _ _)
    | with_reducible apply State.onlyIn.step (State.writeSec_only _ _ _ _ _))

theorem State.lineWrite_only (s : State) (p : Pkt) (l : List Dec) :
    State.onlyIn [.freeCtr, .regs, .mem, .hank, .sites, .cmds, .pwr, .ports, .fid, .unread, .out] s (State.lineWrite s p l).2 := by
  unfold State.lineWrite
  repeat' (first
    | intro _
    | ((with_reducible apply Comp.sub_ok); exact rfl)
    | with_reducible apply State.onlyIn.refl
    | with_reducible assumption
    | with_reducible apply State.onlyIn.foldl
    | with_reducible apply State.onlyIn.foldl2
    | dsimp only
    | (split <;> first | (rename_i heq; have hx := congrArg (fun z => z.2) heq; dsimp only at hx; subst hx) | (rename_i heq; have hx := congrArg (fun z => z.2.2) heq; dsimp only at hx; subst hx) | skip)
    | split
    | with_reducible apply State.onlyIn.step (State.secWrite_only _ _ _ _))

theorem State.chanWrite_only (s : State) (p : Pkt) (phys : List Dec) :
    State.onlyIn [.freeCtr, .regs, .fab, .mem, .hank, .sites, .cmds, .pwr, .ports, .fid, .unread, .out] s (State.chanWrite s p phys) := by
  unfold State.chanWrite
  repeat' (first
    | intro _
    | ((with_reducible apply Comp.sub_ok); exact rfl)
    | with_reducible apply State.onlyIn.refl
    | with_reducible assumption
    | with_reducible apply State.onlyIn.foldl
    | with_reducible apply State.onlyIn.foldl2
    | dsimp only
    | (split <;> first | (rename_i heq; have hx := congrArg (fun z => z.2) heq; dsimp only at hx; subst hx) | (rename_i heq; have hx := congrArg (fun z => z.2.2) heq; dsimp only at hx; subst hx) | skip)
    | split
    | with_reducible apply State.onlyIn.step (State.lineWrite_only _ _ _)
    | with_reducible apply State.onlyIn.step (State.endJoin_only _ _)
    | with_reducible apply State.onlyIn.step (State.secEvent_only _ _ _ _)
    | with_reducible apply State.onlyIn.step (State.sendPkt_only _ _))

theorem State.chanAtomic_only (s : State) (p : Pkt) (phys : List Dec) :
    State.onlyIn [.freeCtr, .regs, .fab, .mem, .hank, .sites, .cmds, .pwr, .ports, .fid, .unread, .out] s (State.chanAtomic s p phys) := by
  unfold State.chanAtomic
  repeat' (first
    | intro _
    | ((with_reducible apply Comp.sub_ok); exact rfl)
    | with_reducible apply State.onlyIn.refl
    | with_reducible assumption
    | with_reducible apply State.onlyIn.foldl
    | dsimp only
    | split
    | with_reducible apply State.onlyIn.step (State.endJoin_only _ _)
    | with_reducible apply State.onlyIn.step (State.secEvent_only _ _ _ _)
    | with_reducible apply State.onlyIn.step (State.secRead_only _ _ _)
    | with_reducible apply State.onlyIn.step (State.sendPkt_only _ _)
    | with_reducible apply State.onlyIn.step (State.writeSec_only _ _ _ _ _)
    | with_reducible apply State.onlyIn.step (State.bump_only _))

theorem execMemRd_only {p : Pkt} {phys : List Dec} {s : State} {t1 : State} (h1 : execMemRd p phys s = .next t1) :
    State.onlyIn [.freeCtr, .regs, .fab, .mem, .hank, .sites, .cmds, .pwr, .ports, .fid, .unread, .out] s t1 := by
  unfold execMemRd at h1
  repeat' (first | with_reducible apply atUnit_only h1 | with_reducible apply whenever_only h1 | with_reducible apply next_only h1 | (dsimp only at h1) | split at h1 | (simp only [reduceCtorEq] at h1; done))
  all_goals
    repeat' (first
      | intro _
      | ((with_reducible apply Comp.sub_ok); exact rfl)
      | with_reducible apply State.onlyIn.refl
      | with_reducible assumption
      | with_reducible apply State.onlyIn.foldl
      | dsimp only
      | split
      | with_reducible apply State.onlyIn.step (State.chanRead_only _ _ _)
      | with_reducible apply State.atChannel_onlyStep
      | with_reducible apply State.onlyIn.step (State.takeCtl_only _ _))

theorem execMemWr_only {p : Pkt} {phys : List Dec} {s : State} {t1 : State} (h1 : execMemWr p phys s = .next t1) :
    State.onlyIn [.freeCtr, .regs, .fab, .mem, .hank, .sites, .cmds, .pwr, .ports, .fid, .unread, .out] s t1 := by
  unfold execMemWr at h1
  repeat' (first | with_reducible apply atUnit_only h1 | with_reducible apply whenever_only h1 | with_reducible apply next_only h1 | (dsimp only at h1) | split at h1 | (simp only [reduceCtorEq] at h1; done))
  all_goals
    repeat' (first
      | intro _
      | ((with_reducible apply Comp.sub_ok); exact rfl)
      | with_reducible apply State.onlyIn.refl
      | with_reducible assumption
      | with_reducible apply State.onlyIn.foldl
      | dsimp only
      | split
      | with_reducible apply State.onlyIn.step (State.chanWrite_only _ _ _)
      | with_reducible apply State.atChannel_onlyStep
      | with_reducible apply State.onlyIn.step (State.takeCtl_only _ _))

theorem execAtomM_only {p : Pkt} {phys : List Dec} {s : State} {t1 : State} (h1 : execAtomM p phys s = .next t1) :
    State.onlyIn [.freeCtr, .regs, .fab, .mem, .hank, .sites, .cmds, .pwr, .ports, .fid, .unread, .out] s t1 := by
  unfold execAtomM at h1
  repeat' (first | with_reducible apply atUnit_only h1 | with_reducible apply whenever_only h1 | with_reducible apply next_only h1 | (dsimp only at h1) | split at h1 | (simp only [reduceCtorEq] at h1; done))
  all_goals
    repeat' (first
      | intro _
      | ((with_reducible apply Comp.sub_ok); exact rfl)
      | with_reducible apply State.onlyIn.refl
      | with_reducible assumption
      | with_reducible apply State.onlyIn.foldl
      | dsimp only
      | split
      | with_reducible apply State.onlyIn.step (State.chanAtomic_only _ _ _)
      | with_reducible apply State.atChannel_onlyStep
      | with_reducible apply State.onlyIn.step (State.takeCtl_only _ _))

theorem State.chanFill_only (s : State) (p : Pkt) (phys : List Dec) :
    State.onlyIn [.freeCtr, .regs, .fab, .mem, .hank, .sites, .cmds, .pwr, .ports, .fid, .unread, .out] s (State.chanFill s p phys) := by
  unfold State.chanFill
  repeat' (first
    | intro _
    | ((with_reducible apply Comp.sub_ok); exact rfl)
    | with_reducible apply State.onlyIn.refl
    | with_reducible assumption
    | with_reducible apply State.onlyIn.foldl
    | with_reducible apply State.onlyIn.foldl2
    | dsimp only
    | (split <;> first | (rename_i heq; have hx := congrArg (fun z => z.2) heq; dsimp only at hx; subst hx) | (rename_i heq; have hx := congrArg (fun z => z.2.2) heq; dsimp only at hx; subst hx) | skip)
    | split
    | with_reducible apply State.onlyIn.step (State.secEvent_only _ _ _ _)
    | with_reducible apply State.onlyIn.step (State.lineRead_only _ _ _ _)
    | with_reducible apply State.onlyIn.step (State.sendPkt_only _ _))

theorem execMfill_only {p : Pkt} {phys : List Dec} {s : State} {t1 : State} (h1 : execMfill p phys s = .next t1) :
    State.onlyIn [.freeCtr, .regs, .fab, .mem, .hank, .sites, .cmds, .pwr, .ports, .fid, .unread, .out] s t1 := by
  unfold execMfill at h1
  repeat' (first | with_reducible apply atUnit_only h1 | with_reducible apply whenever_only h1 | with_reducible apply next_only h1 | (dsimp only at h1) | split at h1 | (simp only [reduceCtorEq] at h1; done))
  all_goals
    repeat' (first
      | intro _
      | ((with_reducible apply Comp.sub_ok); exact rfl)
      | with_reducible apply State.onlyIn.refl
      | with_reducible assumption
      | with_reducible apply State.onlyIn.foldl
      | dsimp only
      | split
      | with_reducible apply State.onlyIn.step (State.chanFill_only _ _ _)
      | with_reducible apply State.fromHome_onlyStep
      | with_reducible apply State.onlyIn.step (State.takeCtl_only _ _))

theorem execMwb_only {p : Pkt} {phys : List Dec} {s : State} {t1 : State} (h1 : execMwb p phys s = .next t1) :
    State.onlyIn [.freeCtr, .regs, .fab, .mem, .hank, .sites, .cmds, .pwr, .ports, .fid, .unread, .out] s t1 := by
  unfold execMwb at h1
  repeat' (first | with_reducible apply atUnit_only h1 | with_reducible apply whenever_only h1 | with_reducible apply next_only h1 | (dsimp only at h1) | split at h1 | (simp only [reduceCtorEq] at h1; done))
  all_goals
    repeat' (first
      | intro _
      | ((with_reducible apply Comp.sub_ok); exact rfl)
      | with_reducible apply State.onlyIn.refl
      | with_reducible assumption
      | with_reducible apply State.onlyIn.foldl
      | dsimp only
      | split
      | with_reducible apply State.onlyIn.step (State.chanWrite_only _ _ _)
      | with_reducible apply State.fromHome_onlyStep
      | with_reducible apply State.onlyIn.step (State.takeCtl_only _ _)
      | with_reducible apply State.onlyIn.step (State.sendPkt_only _ _))

theorem State.chanPoison_only (s : State) (p : Pkt) :
    State.onlyIn [.regs, .fab, .mem, .hank] s (State.chanPoison s p) := by
  unfold State.chanPoison
  repeat' (first
    | intro _
    | ((with_reducible apply Comp.sub_ok); exact rfl)
    | with_reducible apply State.onlyIn.refl
    | with_reducible assumption
    | with_reducible apply State.onlyIn.foldl
    | dsimp only
    | split
    | with_reducible apply State.onlyIn.step (State.endJoin_only _ _)
    | with_reducible apply State.onlyIn.step (State.secEvent_only _ _ _ _)
    | with_reducible apply State.onlyIn.step (State.sendPkt_only _ _)
    | with_reducible apply State.onlyIn.step (State.writeSec_only _ _ _ _ _))

theorem execMpoison_only {p : Pkt} {s : State} {t1 : State} (h1 : execMpoison p s = .next t1) :
    State.onlyIn [.regs, .fab, .mem, .hank, .unread] s t1 := by
  unfold execMpoison at h1
  repeat' (first | with_reducible apply atUnit_only h1 | with_reducible apply whenever_only h1 | with_reducible apply next_only h1 | (dsimp only at h1) | split at h1 | (simp only [reduceCtorEq] at h1; done))
  all_goals
    repeat' (first
      | intro _
      | ((with_reducible apply Comp.sub_ok); exact rfl)
      | with_reducible apply State.onlyIn.refl
      | with_reducible assumption
      | with_reducible apply State.onlyIn.foldl
      | dsimp only
      | split
      | with_reducible apply State.onlyIn.step (State.chanPoison_only _ _)
      | with_reducible apply State.fromHome_onlyStep
      | with_reducible apply State.atChannel_onlyStep
      | with_reducible apply State.onlyIn.step (State.takeCtl_only _ _)
      | with_reducible apply State.onlyIn.step (State.sendPkt_only _ _))

theorem State.copyReads_only (s : State) (key : Nat) (ch : Nat) (reads : List (Nat × List Dec)) :
    State.onlyIn [.freeCtr, .regs, .mem, .hank, .sites, .cmds, .pwr, .ports, .fid, .unread, .out] s (State.copyReads s key ch reads) := by
  unfold State.copyReads
  repeat' (first
    | intro _
    | ((with_reducible apply Comp.sub_ok); exact rfl)
    | with_reducible apply State.onlyIn.refl
    | with_reducible assumption
    | with_reducible apply State.onlyIn.foldl
    | dsimp only
    | split
    | with_reducible apply State.onlyIn.step (State.reading_only _ _ _ _ _)
    | with_reducible apply State.onlyIn.step (State.memLoc_only _ _ _ _)
    | with_reducible apply State.onlyIn.step (State.poisonSec_only _ _)
    | with_reducible apply State.onlyIn.step (State.ev_only _ _ _))

theorem execRetireChunkDone_only {reads : List (Nat × List Dec)} {s : State} {t1 : State} (h1 : execRetireChunkDone reads s = .next t1) :
    State.onlyIn [.freeCtr, .regs, .mem, .hank, .sites, .cmds, .pwr, .ports, .boot, .fid, .unread, .out] s t1 := by
  unfold execRetireChunkDone at h1
  repeat' (first | with_reducible apply atUnit_only h1 | with_reducible apply whenever_only h1 | with_reducible apply next_only h1 | (dsimp only at h1) | split at h1 | (simp only [reduceCtorEq] at h1; done))
  all_goals
    repeat' (first
      | intro _
      | ((with_reducible apply Comp.sub_ok); exact rfl)
      | with_reducible apply State.onlyIn.refl
      | with_reducible assumption
      | (simp only [State.onlyIn.freeCtr (l := [.freeCtr, .regs, .mem, .hank, .sites, .cmds, .pwr, .ports, .boot, .fid, .unread, .out]) rfl, State.onlyIn.regs (l := [.freeCtr, .regs, .mem, .hank, .sites, .cmds, .pwr, .ports, .boot, .fid, .unread, .out]) rfl, State.onlyIn.sites (l := [.freeCtr, .regs, .mem, .hank, .sites, .cmds, .pwr, .ports, .boot, .fid, .unread, .out]) rfl, State.onlyIn.cmds (l := [.freeCtr, .regs, .mem, .hank, .sites, .cmds, .pwr, .ports, .boot, .fid, .unread, .out]) rfl, State.onlyIn.pwr (l := [.freeCtr, .regs, .mem, .hank, .sites, .cmds, .pwr, .ports, .boot, .fid, .unread, .out]) rfl, State.onlyIn.ports (l := [.freeCtr, .regs, .mem, .hank, .sites, .cmds, .pwr, .ports, .boot, .fid, .unread, .out]) rfl, State.onlyIn.boot (l := [.freeCtr, .regs, .mem, .hank, .sites, .cmds, .pwr, .ports, .boot, .fid, .unread, .out]) rfl, State.onlyIn.fid (l := [.freeCtr, .regs, .mem, .hank, .sites, .cmds, .pwr, .ports, .boot, .fid, .unread, .out]) rfl, State.onlyIn.unread (l := [.freeCtr, .regs, .mem, .hank, .sites, .cmds, .pwr, .ports, .boot, .fid, .unread, .out]) rfl, State.onlyIn.out (l := [.freeCtr, .regs, .mem, .hank, .sites, .cmds, .pwr, .ports, .boot, .fid, .unread, .out]) rfl])
      | with_reducible apply State.onlyIn.foldl
      | dsimp only
      | split
      | with_reducible apply State.onlyIn.step (State.copyReads_only _ _ _ _)
      | with_reducible apply State.onlyIn.step (State.retireDone_only _ _)
      | with_reducible apply State.onlyIn.step (State.switchChunk_only _ _ _)
      | with_reducible refine .hankRest ?_ (by rfl) ?_
      | with_reducible refine .hankAll ?_ ?_
      | (refine ⟨fun c hc => ?_⟩; cases c <;> first | rfl | exact absurd (by decide) hc))

theorem execBucketDecay_only {s : State} {t1 : State} (h1 : execBucketDecay s = .next t1) :
    State.onlyIn [.regs] s t1 := by
  unfold execBucketDecay at h1
  repeat' (first | with_reducible apply atUnit_only h1 | with_reducible apply whenever_only h1 | with_reducible apply next_only h1 | (dsimp only at h1) | split at h1 | (simp only [reduceCtorEq] at h1; done))
  all_goals
    repeat' (first
      | intro _
      | ((with_reducible apply Comp.sub_ok); exact rfl)
      | with_reducible apply State.onlyIn.refl
      | with_reducible assumption
      | with_reducible apply State.onlyIn.foldl
      | dsimp only
      | split
      | with_reducible apply State.onlyIn.step (State.fset_only _ _ _ _ _))

theorem execPatrolRead_only {ch : Fin 1024} {sec : Nat} {phys : List Dec} {s : State} {t1 : State} (h1 : execPatrolRead ch sec phys s = .next t1) :
    State.onlyIn [.freeCtr, .regs, .mem, .hank, .sites, .cmds, .pwr, .ports, .fid, .unread, .out] s t1 := by
  unfold execPatrolRead at h1
  repeat' (first | with_reducible apply atUnit_only h1 | with_reducible apply whenever_only h1 | with_reducible apply next_only h1 | (dsimp only at h1) | split at h1 | (simp only [reduceCtorEq] at h1; done))
  all_goals
    repeat' (first
      | intro _
      | ((with_reducible apply Comp.sub_ok); exact rfl)
      | with_reducible apply State.onlyIn.refl
      | with_reducible assumption
      | (simp only [State.onlyIn.freeCtr (l := [.freeCtr, .regs, .mem, .hank, .sites, .cmds, .pwr, .ports, .fid, .unread, .out]) rfl, State.onlyIn.regs (l := [.freeCtr, .regs, .mem, .hank, .sites, .cmds, .pwr, .ports, .fid, .unread, .out]) rfl, State.onlyIn.sites (l := [.freeCtr, .regs, .mem, .hank, .sites, .cmds, .pwr, .ports, .fid, .unread, .out]) rfl, State.onlyIn.cmds (l := [.freeCtr, .regs, .mem, .hank, .sites, .cmds, .pwr, .ports, .fid, .unread, .out]) rfl, State.onlyIn.pwr (l := [.freeCtr, .regs, .mem, .hank, .sites, .cmds, .pwr, .ports, .fid, .unread, .out]) rfl, State.onlyIn.ports (l := [.freeCtr, .regs, .mem, .hank, .sites, .cmds, .pwr, .ports, .fid, .unread, .out]) rfl, State.onlyIn.fid (l := [.freeCtr, .regs, .mem, .hank, .sites, .cmds, .pwr, .ports, .fid, .unread, .out]) rfl, State.onlyIn.unread (l := [.freeCtr, .regs, .mem, .hank, .sites, .cmds, .pwr, .ports, .fid, .unread, .out]) rfl, State.onlyIn.out (l := [.freeCtr, .regs, .mem, .hank, .sites, .cmds, .pwr, .ports, .fid, .unread, .out]) rfl])
      | with_reducible apply State.onlyIn.foldl
      | dsimp only
      | split
      | with_reducible apply State.onlyIn.step (State.secReadBy_only _ _ _ _)
      | with_reducible refine .hankRest ?_ (by rfl) ?_
      | with_reducible refine .hankAll ?_ ?_
      | (refine ⟨fun c hc => ?_⟩; cases c <;> first | rfl | exact absurd (by decide) hc))

theorem execPhyRecalibrate_only {ch : Fin 1024} {s : State} {t1 : State} (h1 : execPhyRecalibrate ch s = .next t1) :
    State.onlyIn [.hank] s t1 := by
  unfold execPhyRecalibrate at h1
  repeat' (first | with_reducible apply atUnit_only h1 | with_reducible apply whenever_only h1 | with_reducible apply next_only h1 | (dsimp only at h1) | split at h1 | (simp only [reduceCtorEq] at h1; done))
  all_goals
    repeat' (first
      | intro _
      | ((with_reducible apply Comp.sub_ok); exact rfl)
      | with_reducible apply State.onlyIn.refl
      | with_reducible assumption
      | with_reducible apply State.onlyIn.foldl
      | dsimp only
      | split
      | with_reducible refine .hankRest ?_ (by rfl) ?_
      | (refine ⟨fun c hc => ?_⟩; cases c <;> first | rfl | exact absurd (by decide) hc))

theorem State.fillDone_only (s : State) (j : ZJob) :
    State.onlyIn [.regs, .hank, .cmds, .sec, .fid] s (State.fillDone s j) := by
  unfold State.fillDone
  repeat' (first
    | intro _
    | ((with_reducible apply Comp.sub_ok); exact rfl)
    | with_reducible apply State.onlyIn.refl
    | with_reducible assumption
    | with_reducible apply State.onlyIn.foldl
    | dsimp only
    | split
    | with_reducible apply State.onlyIn.step (State.setOwn_only _ _ _)
    | with_reducible apply State.onlyIn.step (State.setRun_only _ _)
    | with_reducible apply State.onlyIn.step (State.setPart_only _ _ _))

theorem execZfillGranuleDone_only {s : State} {t1 : State} (h1 : execZfillGranuleDone s = .next t1) :
    State.onlyIn [.regs, .mem, .hank, .cmds, .sec, .fid] s t1 := by
  unfold execZfillGranuleDone at h1
  repeat' (first | with_reducible apply atUnit_only h1 | with_reducible apply whenever_only h1 | with_reducible apply next_only h1 | (dsimp only at h1) | split at h1 | (simp only [reduceCtorEq] at h1; done))
  all_goals
    repeat' (first
      | intro _
      | ((with_reducible apply Comp.sub_ok); exact rfl)
      | with_reducible apply State.onlyIn.refl
      | with_reducible assumption
      | (simp only [State.onlyIn.regs (l := [.regs, .mem, .hank, .cmds, .sec, .fid]) rfl, State.onlyIn.cmds (l := [.regs, .mem, .hank, .cmds, .sec, .fid]) rfl, State.onlyIn.sec (l := [.regs, .mem, .hank, .cmds, .sec, .fid]) rfl, State.onlyIn.fid (l := [.regs, .mem, .hank, .cmds, .sec, .fid]) rfl])
      | with_reducible apply State.onlyIn.foldl
      | dsimp only
      | split
      | with_reducible apply State.onlyIn.step (State.fillDone_only _ _)
      | with_reducible apply State.onlyIn.step (State.zeroGranule_only _ _)
      | with_reducible refine .hankRest ?_ (by rfl) ?_
      | with_reducible refine .hankAll ?_ ?_
      | (refine ⟨fun c hc => ?_⟩; cases c <;> first | rfl | exact absurd (by decide) hc))

theorem State.newRegime_only (s : State) (k : Nat) (temp : Nat) :
    State.onlyIn [.regs, .ports, .out] s (State.newRegime s k temp) := by
  unfold State.newRegime
  repeat' (first
    | intro _
    | ((with_reducible apply Comp.sub_ok); exact rfl)
    | with_reducible apply State.onlyIn.refl
    | with_reducible assumption
    | with_reducible apply State.onlyIn.foldl
    | dsimp only
    | split
    | with_reducible apply State.onlyIn.step (State.ev_only _ _ _)
    | with_reducible apply State.onlyIn.step (State.fset_only _ _ _ _ _))

theorem State.stackHeat_only (s : State) (k : Nat) (t : Nat) :
    State.onlyIn [.regs, .pwr, .ports, .out] s (State.stackHeat s k t) := by
  unfold State.stackHeat
  repeat' (first
    | intro _
    | ((with_reducible apply Comp.sub_ok); exact rfl)
    | with_reducible apply State.onlyIn.refl
    | with_reducible assumption
    | (simp only [State.onlyIn.regs (l := [.regs, .pwr, .ports, .out]) rfl, State.onlyIn.pwr (l := [.regs, .pwr, .ports, .out]) rfl, State.onlyIn.ports (l := [.regs, .pwr, .ports, .out]) rfl, State.onlyIn.out (l := [.regs, .pwr, .ports, .out]) rfl])
    | with_reducible apply State.onlyIn.foldl
    | dsimp only
    | split
    | with_reducible apply State.onlyIn.step (State.newRegime_only _ _ _)
    | with_reducible apply State.onlyIn.step (State.updGates_only _)
    | (refine ⟨fun c hc => ?_⟩; cases c <;> first | rfl | exact absurd (by decide) hc))

theorem execThermalRegimeChange_only {k : Fin 8} {temp : BitVec 8} {s : State} {t1 : State} (h1 : execThermalRegimeChange k temp s = .next t1) :
    State.onlyIn [.regs, .pwr, .ports, .out] s t1 := by
  unfold execThermalRegimeChange at h1
  repeat' (first | with_reducible apply atUnit_only h1 | with_reducible apply whenever_only h1 | with_reducible apply next_only h1 | (dsimp only at h1) | split at h1 | (simp only [reduceCtorEq] at h1; done))
  all_goals
    repeat' (first
      | intro _
      | ((with_reducible apply Comp.sub_ok); exact rfl)
      | with_reducible apply State.onlyIn.refl
      | with_reducible assumption
      | with_reducible apply State.onlyIn.foldl
      | dsimp only
      | split
      | with_reducible apply State.onlyIn.step (State.stackHeat_only _ _ _))

theorem State.marginFields_only (s : State) (k : Nat) (w : W32) :
    State.onlyIn [.regs] s (State.marginFields s k w) := by
  unfold State.marginFields
  repeat' (first
    | intro _
    | ((with_reducible apply Comp.sub_ok); exact rfl)
    | with_reducible apply State.onlyIn.refl
    | with_reducible assumption
    | with_reducible apply State.onlyIn.foldl
    | dsimp only
    | split
    | with_reducible apply State.onlyIn.step (State.fset_only _ _ _ _ _))

theorem State.askRun_only (s : State) (k : Nat) (watts : Nat) :
    State.onlyIn [.freeCtr, .regs, .hank, .sites, .cmds, .pwr, .ports, .fid, .out] s (State.askRun s k watts) := by
  unfold State.askRun
  repeat' (first
    | intro _
    | ((with_reducible apply Comp.sub_ok); exact rfl)
    | with_reducible apply State.onlyIn.refl
    | with_reducible assumption
    | with_reducible apply State.onlyIn.foldl
    | dsimp only
    | split
    | with_reducible apply State.onlyIn.step (State.askLeave_only _ _ _ _ _ _))

theorem State.startMargin_only (s : State) (k : Nat) (w : W32) (cmd : Option Nat) :
    State.onlyIn [.freeCtr, .regs, .hank, .sites, .cmds, .pwr, .ports, .fid, .out] s (State.startMargin s k w cmd) := by
  unfold State.startMargin
  repeat' (first
    | intro _
    | ((with_reducible apply Comp.sub_ok); exact rfl)
    | with_reducible apply State.onlyIn.refl
    | with_reducible assumption
    | with_reducible apply State.onlyIn.foldl
    | dsimp only
    | split
    | with_reducible apply State.onlyIn.step (State.askRun_only _ _ _)
    | with_reducible apply State.onlyIn.step (State.marginRes_only _ _ _)
    | with_reducible apply State.onlyIn.step (State.setSrun_only _ _ _)
    | with_reducible apply State.onlyIn.step (State.scramble_only _ _)
    | with_reducible apply State.onlyIn.step (State.fset_only _ _ _ _ _))

theorem State.tryMargin_only (s : State) (k : Nat) (w : W32) (cmd : Option Nat) :
    State.onlyIn [.freeCtr, .regs, .hank, .sites, .cmds, .pwr, .ports, .fid, .out] s (State.tryMargin s k w cmd).2 := by
  unfold State.tryMargin
  repeat' (first
    | intro _
    | ((with_reducible apply Comp.sub_ok); exact rfl)
    | with_reducible apply State.onlyIn.refl
    | with_reducible assumption
    | with_reducible apply State.onlyIn.foldl
    | with_reducible apply State.onlyIn.foldl2
    | dsimp only
    | split
    | with_reducible apply State.onlyIn.step (State.startMargin_only _ _ _ _)
    | with_reducible apply State.onlyIn.step (State.fset_only _ _ _ _ _))

theorem State.writeMargin_only (s : State) (k : Nat) (w : W32) :
    State.onlyIn [.freeCtr, .regs, .hank, .sites, .cmds, .pwr, .ports, .fid, .out] s (State.writeMargin s k w) := by
  unfold State.writeMargin
  repeat' (first
    | intro _
    | ((with_reducible apply Comp.sub_ok); exact rfl)
    | with_reducible apply State.onlyIn.refl
    | with_reducible assumption
    | with_reducible apply State.onlyIn.foldl
    | with_reducible apply State.onlyIn.foldl2
    | dsimp only
    | (split <;> first | (rename_i heq; have hx := congrArg (fun z => z.2) heq; dsimp only at hx; subst hx) | (rename_i heq; have hx := congrArg (fun z => z.2.2) heq; dsimp only at hx; subst hx) | skip)
    | split
    | with_reducible apply State.onlyIn.step (State.tryMargin_only _ _ _ _)
    | with_reducible apply State.onlyIn.step (State.marginFields_only _ _ _))

theorem execMarginStart_only {k : Fin 8} {path : Path} {w : W32} {s : State} {t1 : State} (h1 : execMarginStart k path w s = .next t1) :
    State.onlyIn [.freeCtr, .regs, .hank, .sites, .cmds, .pwr, .ports, .fid, .out] s t1 := by
  unfold execMarginStart at h1
  repeat' (first | with_reducible apply atUnit_only h1 | with_reducible apply whenever_only h1 | with_reducible apply next_only h1 | (dsimp only at h1) | split at h1 | (simp only [reduceCtorEq] at h1; done))
  all_goals
    repeat' (first
      | intro _
      | ((with_reducible apply Comp.sub_ok); exact rfl)
      | with_reducible apply State.onlyIn.refl
      | with_reducible assumption
      | with_reducible apply State.onlyIn.foldl
      | dsimp only
      | split
      | with_reducible apply State.onlyIn.step (State.writeMargin_only _ _ _)
      | with_reducible apply State.regWrite_onlyStep)

theorem State.marginOwn_only (s : State) (k : Nat) (errs : Nat) (worst : Nat) :
    State.onlyIn [.hank] s (State.marginOwn s k errs worst) := by
  unfold State.marginOwn
  repeat' (first
    | intro _
    | ((with_reducible apply Comp.sub_ok); exact rfl)
    | with_reducible apply State.onlyIn.refl
    | with_reducible assumption
    | with_reducible apply State.onlyIn.foldl
    | dsimp only
    | split
    | with_reducible apply State.onlyIn.step (State.setSrun_only _ _ _))

theorem execMarginDone_only {k : Fin 8} {errs : BitVec 24} {worst : BitVec 3} {s : State} {t1 : State} (h1 : execMarginDone k errs worst s = .next t1) :
    State.onlyIn [.freeCtr, .regs, .hank, .sites, .cmds, .pwr, .ports, .fid, .out] s t1 := by
  unfold execMarginDone at h1
  repeat' (first | with_reducible apply atUnit_only h1 | with_reducible apply whenever_only h1 | with_reducible apply next_only h1 | (dsimp only at h1) | split at h1 | (simp only [reduceCtorEq] at h1; done))
  all_goals
    repeat' (first
      | intro _
      | ((with_reducible apply Comp.sub_ok); exact rfl)
      | with_reducible apply State.onlyIn.refl
      | with_reducible assumption
      | with_reducible apply State.onlyIn.foldl
      | dsimp only
      | split
      | with_reducible apply State.onlyIn.step (State.marginOwn_only _ _ _ _)
      | with_reducible apply State.onlyIn.step (State.endMargin_only _ _))

theorem State.writeScope_only (s : State) (n : Nat) (path : Path) (w : W32) :
    State.onlyIn [.regs, .ports, .fid, .out] s (State.writeScope s n path w) := by
  unfold State.writeScope
  repeat' (first
    | intro _
    | ((with_reducible apply Comp.sub_ok); exact rfl)
    | with_reducible apply State.onlyIn.refl
    | with_reducible assumption
    | with_reducible apply State.onlyIn.foldl
    | dsimp only
    | split
    | with_reducible apply State.onlyIn.step (State.regRefused_only _ _ _ _)
    | with_reducible apply State.onlyIn.step (State.disarm_only _)
    | with_reducible apply State.onlyIn.step (State.ev_only _ _ _)
    | with_reducible apply State.onlyIn.step (State.fset_only _ _ _ _ _))

theorem execMemScopeWrite_only {n : Fin 24} {path : Path} {w : W32} {s : State} {t1 : State} (h1 : execMemScopeWrite n path w s = .next t1) :
    State.onlyIn [.regs, .ports, .fid, .out] s t1 := by
  unfold execMemScopeWrite at h1
  repeat' (first | with_reducible apply atUnit_only h1 | with_reducible apply whenever_only h1 | with_reducible apply next_only h1 | (dsimp only at h1) | split at h1 | (simp only [reduceCtorEq] at h1; done))
  all_goals
    repeat' (first
      | intro _
      | ((with_reducible apply Comp.sub_ok); exact rfl)
      | with_reducible apply State.onlyIn.refl
      | with_reducible assumption
      | with_reducible apply State.onlyIn.foldl
      | dsimp only
      | split
      | with_reducible apply State.onlyIn.step (State.writeScope_only _ _ _ _)
      | with_reducible apply State.regWrite_onlyStep)

end Sys2Proof.Machine
end

