-- ==== Sys2Proof/Laws/OnlyCoh.lean ====
section
/-! SUPPORT. What each operation of Machine/Coh.lean can change: the parts of the state outside the list are as before. -/

set_option linter.all false

namespace Sys2Proof.Machine

theorem State.cohLoc_only (s : State) (cause : Nat) (slice : Nat) (n : Nat) (agent : Nat) :
    State.onlyIn [.regs, .unread] s (State.cohLoc s cause slice n agent) := by
  unfold State.cohLoc
  repeat' (first
    | intro _
    | ((with_reducible apply Comp.sub_ok); exact rfl)
    | with_reducible apply State.onlyIn.refl
    | with_reducible assumption
    | with_reducible apply State.onlyIn.foldl
    | with_reducible apply State.onlyIn.foldl2
    | dsimp only
    | (split <;> first | (rename_i heq; have hx := congrArg (fun z => z.2) heq; dsimp only at hx; subst hx) | (rename_i heq; have hx := congrArg (fun z => z.2.2) heq; dsimp only at hx; subst hx) | skip)
    | split
    | with_reducible apply State.onlyIn.step (State.takeLoc_only _ _)
    | with_reducible apply State.onlyIn.step (State.fset_only _ _ _ _ _))

theorem State.sliceEvent_only (s : State) (slice : Nat) (ev : Nat) (p : Pkt) (k : Nat) :
    State.onlyIn [.regs] s (State.sliceEvent s slice ev p k) := by
  unfold State.sliceEvent
  repeat' (first
    | intro _
    | ((with_reducible apply Comp.sub_ok); exact rfl)
    | with_reducible apply State.onlyIn.refl
    | with_reducible assumption
    | with_reducible apply State.onlyIn.foldl
    | dsimp only
    | split
    | with_reducible apply State.onlyIn.step (State.fidEvent_only _ _ _ _ _ _ _))

theorem State.tick_only (s : State) :
    State.onlyIn [.fab] s (State.tick s).2 := by
  unfold State.tick
  repeat' (first
    | intro _
    | ((with_reducible apply Comp.sub_ok); exact rfl)
    | with_reducible apply State.onlyIn.refl
    | with_reducible assumption
    | (simp only [State.onlyIn.fab (l := [.fab]) rfl])
    | with_reducible apply State.onlyIn.foldl
    | with_reducible apply State.onlyIn.foldl2
    | dsimp only
    | split
    | (refine ⟨fun c hc => ?_⟩; cases c <;> first | rfl | exact absurd (by decide) hc))

theorem State.sendSnoop_only (s : State) (op : Op) (src : Agent) (n : Nat) (id : Nat) (who : Option Agent) (a : Agent) :
    State.onlyIn [.fab] s (State.sendSnoop s op src n id who a) := by
  unfold State.sendSnoop
  repeat' (first
    | intro _
    | ((with_reducible apply Comp.sub_ok); exact rfl)
    | with_reducible apply State.onlyIn.refl
    | with_reducible assumption
    | with_reducible apply State.onlyIn.foldl
    | dsimp only
    | split
    | with_reducible apply State.onlyIn.step (State.sendPkt_only _ _))

theorem State.answer_only (s : State) (p : Pkt) (home : Agent) (status : BitVec 3) (poison : BitVec 2) :
    State.onlyIn [.fab] s (State.answer s p home status poison) := by
  unfold State.answer
  repeat' (first
    | intro _
    | ((with_reducible apply Comp.sub_ok); exact rfl)
    | with_reducible apply State.onlyIn.refl
    | with_reducible assumption
    | with_reducible apply State.onlyIn.foldl
    | dsimp only
    | split
    | with_reducible apply State.onlyIn.step (State.sendPkt_only _ _))

theorem State.nack_only (s : State) (p : Pkt) (slice : Nat) :
    State.onlyIn [.regs, .fab] s (State.nack s p slice) := by
  unfold State.nack
  repeat' (first
    | intro _
    | ((with_reducible apply Comp.sub_ok); exact rfl)
    | with_reducible apply State.onlyIn.refl
    | with_reducible assumption
    | with_reducible apply State.onlyIn.foldl
    | dsimp only
    | split
    | with_reducible apply State.onlyIn.step (State.answer_only _ _ _ _ _)
    | with_reducible apply State.onlyIn.step (State.sliceEvent_only _ _ _ _ _))

theorem State.turnAway_only (s : State) (p : Pkt) (slice : Nat) (n : Nat) :
    State.onlyIn [.regs, .fab, .ports, .out] s (State.turnAway s p slice n) := by
  unfold State.turnAway
  repeat' (first
    | intro _
    | ((with_reducible apply Comp.sub_ok); exact rfl)
    | with_reducible apply State.onlyIn.refl
    | with_reducible assumption
    | with_reducible apply State.onlyIn.foldl
    | dsimp only
    | split
    | with_reducible apply State.onlyIn.step (State.nack_only _ _ _)
    | with_reducible apply State.onlyIn.step (State.sliceEvent_only _ _ _ _ _)
    | with_reducible apply State.onlyIn.step (State.ev_only _ _ _)
    | with_reducible apply State.onlyIn.step (State.setLine_only _ _ _))

theorem State.countErrs_only (s : State) (slice : Nat) (k : Nat) :
    State.onlyIn [.fab] s (State.countErrs s slice k) := by
  unfold State.countErrs
  repeat' (first
    | intro _
    | ((with_reducible apply Comp.sub_ok); exact rfl)
    | with_reducible apply State.onlyIn.refl
    | with_reducible assumption
    | (simp only [State.onlyIn.fab (l := [.fab]) rfl])
    | with_reducible apply State.onlyIn.foldl
    | dsimp only
    | split
    | (refine ⟨fun c hc => ?_⟩; cases c <;> first | rfl | exact absurd (by decide) hc))

theorem State.meetErrs_only (s : State) (slice : Nat) (n : Nat) (l : Line) (read : BitVec 2) (agent : Nat) :
    State.onlyIn [.regs, .fab, .ports, .unread, .out] s (State.meetErrs s slice n l read agent).2 := by
  unfold State.meetErrs
  repeat' (first
    | intro _
    | ((with_reducible apply Comp.sub_ok); exact rfl)
    | with_reducible apply State.onlyIn.refl
    | with_reducible assumption
    | with_reducible apply State.onlyIn.foldl
    | with_reducible apply State.onlyIn.foldl2
    | dsimp only
    | split
    | with_reducible apply State.onlyIn.step (State.countErrs_only _ _ _)
    | with_reducible apply State.onlyIn.step (State.cohLoc_only _ _ _ _ _)
    | with_reducible apply State.onlyIn.step (State.ev_only _ _ _))

theorem State.writeBack_only (s : State) (slice : Nat) (n : Nat) (l : Line) :
    State.onlyIn [.regs, .fab, .ports, .unread, .out] s (State.writeBack s slice n l) := by
  unfold State.writeBack
  repeat' (first
    | intro _
    | ((with_reducible apply Comp.sub_ok); exact rfl)
    | with_reducible apply State.onlyIn.refl
    | with_reducible assumption
    | with_reducible apply State.onlyIn.foldl
    | with_reducible apply State.onlyIn.foldl2
    | dsimp only
    | (split <;> first | (rename_i heq; have hx := congrArg (fun z => z.2) heq; dsimp only at hx; subst hx) | (rename_i heq; have hx := congrArg (fun z => z.2.2) heq; dsimp only at hx; subst hx) | skip)
    | split
    | with_reducible apply State.onlyIn.step (State.meetErrs_only _ _ _ _ _ _)
    | with_reducible apply State.onlyIn.step (State.sendPkt_only _ _))

theorem State.startEvict_only (s : State) (n : Nat) :
    State.onlyIn [.regs, .fab, .ports, .unread, .out] s (State.startEvict s n) := by
  unfold State.startEvict
  repeat' (first
    | intro _
    | ((with_reducible apply Comp.sub_ok); exact rfl)
    | with_reducible apply State.onlyIn.refl
    | with_reducible assumption
    | with_reducible apply State.onlyIn.foldl
    | with_reducible apply State.onlyIn.foldl2
    | dsimp only
    | (split <;> first | (rename_i heq; have hx := congrArg (fun z => z.2) heq; dsimp only at hx; subst hx) | (rename_i heq; have hx := congrArg (fun z => z.2.2) heq; dsimp only at hx; subst hx) | skip)
    | split
    | with_reducible apply State.onlyIn.step (State.writeBack_only _ _ _ _)
    | with_reducible apply State.onlyIn.step (State.sendSnoop_only _ _ _ _ _ _ _)
    | with_reducible apply State.onlyIn.step (State.tick_only _)
    | with_reducible apply State.onlyIn.step (State.setLine_only _ _ _))

theorem State.takeWay_only (s : State) (slice : Nat) (n : Nat) (ways : List Nat) :
    State.onlyIn [.regs, .fab, .ports, .unread, .out] s (State.takeWay s slice n ways).2 := by
  unfold State.takeWay
  repeat' (first
    | intro _
    | ((with_reducible apply Comp.sub_ok); exact rfl)
    | with_reducible apply State.onlyIn.refl
    | with_reducible assumption
    | with_reducible apply State.onlyIn.foldl
    | with_reducible apply State.onlyIn.foldl2
    | dsimp only
    | split
    | with_reducible apply State.onlyIn.step (State.startEvict_only _ _))

theorem State.finishRow_only (s : State) (n : Nat) (l : Line) (t : Txn) :
    State.onlyIn [.freeCtr, .regs, .fab, .ports, .unread, .out] s (State.finishRow s n l t) := by
  unfold State.finishRow
  repeat' (first
    | intro _
    | ((with_reducible apply Comp.sub_ok); exact rfl)
    | with_reducible apply State.onlyIn.refl
    | with_reducible assumption
    | with_reducible apply State.onlyIn.foldl
    | dsimp only
    | split
    | with_reducible apply State.onlyIn.step (State.writeBack_only _ _ _ _)
    | with_reducible apply State.onlyIn.step (State.answer_only _ _ _ _ _)
    | with_reducible apply State.onlyIn.step (State.sendPkt_only _ _)
    | with_reducible apply State.onlyIn.step (State.bump_only _)
    | with_reducible apply State.onlyIn.step (State.setLine_only _ _ _))

theorem State.startRow_only (s : State) (n : Nat) (p : Pkt) (freshLn : Bool) :
    State.onlyIn [.freeCtr, .regs, .fab, .ports, .unread, .out] s (State.startRow s n p freshLn) := by
  unfold State.startRow
  repeat' (first
    | intro _
    | ((with_reducible apply Comp.sub_ok); exact rfl)
    | with_reducible apply State.onlyIn.refl
    | with_reducible assumption
    | with_reducible apply State.onlyIn.foldl
    | with_reducible apply State.onlyIn.foldl2
    | dsimp only
    | (split <;> first | (rename_i heq; have hx := congrArg (fun z => z.2) heq; dsimp only at hx; subst hx) | (rename_i heq; have hx := congrArg (fun z => z.2.2) heq; dsimp only at hx; subst hx) | skip)
    | split
    | with_reducible apply State.onlyIn.step (State.finishRow_only _ _ _ _)
    | with_reducible apply State.onlyIn.step (State.sendSnoop_only _ _ _ _ _ _ _)
    | with_reducible apply State.onlyIn.step (State.tick_only _)
    | with_reducible apply State.onlyIn.step (State.sliceEvent_only _ _ _ _ _)
    | with_reducible apply State.onlyIn.step (State.sendPkt_only _ _)
    | with_reducible apply State.onlyIn.step (State.setLine_only _ _ _))

theorem State.serveUncached_only (s : State) (n : Nat) (p : Pkt) :
    State.onlyIn [.fab] s (State.serveUncached s n p) := by
  unfold State.serveUncached
  repeat' (first
    | intro _
    | ((with_reducible apply Comp.sub_ok); exact rfl)
    | with_reducible apply State.onlyIn.refl
    | with_reducible assumption
    | with_reducible apply State.onlyIn.foldl
    | with_reducible apply State.onlyIn.foldl2
    | dsimp only
    | (split <;> first | (rename_i heq; have hx := congrArg (fun z => z.2) heq; dsimp only at hx; subst hx) | (rename_i heq; have hx := congrArg (fun z => z.2.2) heq; dsimp only at hx; subst hx) | skip)
    | split
    | with_reducible apply State.onlyIn.step (State.tick_only _)
    | with_reducible apply State.onlyIn.step (State.sendPkt_only _ _)
    | with_reducible apply State.onlyIn.step (State.setLine_only _ _ _))

theorem State.serve_only (s : State) (n : Nat) (p : Pkt) :
    State.onlyIn [.freeCtr, .regs, .fab, .ports, .unread, .out] s (State.serve s n p) := by
  unfold State.serve
  repeat' (first
    | intro _
    | ((with_reducible apply Comp.sub_ok); exact rfl)
    | with_reducible apply State.onlyIn.refl
    | with_reducible assumption
    | with_reducible apply State.onlyIn.foldl
    | with_reducible apply State.onlyIn.foldl2
    | dsimp only
    | (split <;> first | (rename_i heq; have hx := congrArg (fun z => z.2) heq; dsimp only at hx; subst hx) | (rename_i heq; have hx := congrArg (fun z => z.2.2) heq; dsimp only at hx; subst hx) | skip)
    | split
    | with_reducible apply State.onlyIn.step (State.serveUncached_only _ _ _)
    | with_reducible apply State.onlyIn.step (State.startRow_only _ _ _ _)
    | with_reducible apply State.onlyIn.step (State.takeWay_only _ _ _ _)
    | with_reducible apply State.onlyIn.step (State.turnAway_only _ _ _ _)
    | with_reducible apply State.onlyIn.step (State.setLine_only _ _ _))

theorem State.applyBack_only (s : State) (n : Nat) (p : Pkt) :
    State.onlyIn [.fab] s (State.applyBack s n p) := by
  unfold State.applyBack
  repeat' (first
    | intro _
    | ((with_reducible apply Comp.sub_ok); exact rfl)
    | with_reducible apply State.onlyIn.refl
    | with_reducible assumption
    | with_reducible apply State.onlyIn.foldl
    | dsimp only
    | split
    | with_reducible apply State.onlyIn.step (State.answer_only _ _ _ _ _)
    | with_reducible apply State.onlyIn.step (State.setLine_only _ _ _))

theorem State.applyHeld_only (s : State) (n : Nat) :
    State.onlyIn [.fab] s (State.applyHeld s n) := by
  unfold State.applyHeld
  repeat' (first
    | intro _
    | ((with_reducible apply Comp.sub_ok); exact rfl)
    | with_reducible apply State.onlyIn.refl
    | with_reducible assumption
    | with_reducible apply State.onlyIn.foldl
    | dsimp only
    | split
    | with_reducible apply State.onlyIn.step (State.applyBack_only _ _ _)
    | with_reducible apply State.onlyIn.step (State.setLine_only _ _ _))

theorem State.serveLine_only (s : State) (n : Nat) (x2 : Nat) :
    State.onlyIn [.freeCtr, .regs, .fab, .ports, .unread, .out] s (State.serveLine s n x2) := by
  induction x2 generalizing s n with
  | zero =>
    rw [State.serveLine]
    repeat' (first
      | intro _
      | ((with_reducible apply Comp.sub_ok); exact rfl)
      | with_reducible apply State.onlyIn.refl
      | with_reducible assumption
      | with_reducible apply State.onlyIn.foldl
      | dsimp only
      | split
      | with_reducible apply State.onlyIn.step (State.serve_only _ _ _)
      | with_reducible apply State.onlyIn.step (State.setLine_only _ _ _)
      | with_reducible refine .trans ?_ (ih _ _))
  | succ k ih =>
    rw [State.serveLine]
    repeat' (first
      | intro _
      | ((with_reducible apply Comp.sub_ok); exact rfl)
      | with_reducible apply State.onlyIn.refl
      | with_reducible assumption
      | with_reducible apply State.onlyIn.foldl
      | dsimp only
      | split
      | with_reducible apply State.onlyIn.step (State.serve_only _ _ _)
      | with_reducible apply State.onlyIn.step (State.setLine_only _ _ _)
      | with_reducible refine .trans ?_ (ih _ _))

theorem State.evictAgain_only (s : State) (slice : Nat) :
    State.onlyIn [.regs, .fab, .ports, .unread, .out] s (State.evictAgain s slice) := by
  unfold State.evictAgain
  repeat' (first
    | intro _
    | ((with_reducible apply Comp.sub_ok); exact rfl)
    | with_reducible apply State.onlyIn.refl
    | with_reducible assumption
    | with_reducible apply State.onlyIn.foldl
    | dsimp only
    | split
    | with_reducible apply State.onlyIn.step (State.startEvict_only _ _))

theorem State.unbusy_only (s : State) (n : Nat) :
    State.onlyIn [.freeCtr, .regs, .fab, .ports, .unread, .out] s (State.unbusy s n) := by
  unfold State.unbusy
  repeat' (first
    | intro _
    | ((with_reducible apply Comp.sub_ok); exact rfl)
    | with_reducible apply State.onlyIn.refl
    | with_reducible assumption
    | with_reducible apply State.onlyIn.foldl
    | dsimp only
    | split
    | with_reducible apply State.onlyIn.step (State.evictAgain_only _ _)
    | with_reducible apply State.onlyIn.step (State.serveLine_only _ _ _)
    | with_reducible apply State.onlyIn.step (State.applyHeld_only _ _))

theorem State.advanceTxn_only (s : State) (n : Nat) (l : Line) (t : Txn) :
    State.onlyIn [.freeCtr, .regs, .fab, .ports, .unread, .out] s (State.advanceTxn s n l t) := by
  unfold State.advanceTxn
  repeat' (first
    | intro _
    | ((with_reducible apply Comp.sub_ok); exact rfl)
    | with_reducible apply State.onlyIn.refl
    | with_reducible assumption
    | with_reducible apply State.onlyIn.foldl
    | dsimp only
    | split
    | with_reducible apply State.onlyIn.step (State.unbusy_only _ _)
    | with_reducible apply State.onlyIn.step (State.finishRow_only _ _ _ _)
    | with_reducible apply State.onlyIn.step (State.answer_only _ _ _ _ _)
    | with_reducible apply State.onlyIn.step (State.sendPkt_only _ _)
    | with_reducible apply State.onlyIn.step (State.setLine_only _ _ _))

theorem State.markErrs_only (s : State) (n : Nat) (ecc : BitVec 2) :
    State.onlyIn [.fab] s (State.markErrs s n ecc) := by
  unfold State.markErrs
  repeat' (first
    | intro _
    | ((with_reducible apply Comp.sub_ok); exact rfl)
    | with_reducible apply State.onlyIn.refl
    | with_reducible assumption
    | with_reducible apply State.onlyIn.foldl
    | dsimp only
    | split
    | with_reducible apply State.onlyIn.step (State.setLine_only _ _ _))

theorem State.sliceEcc_only (s : State) (slice : Nat) (n : Nat) (p : Pkt) :
    State.onlyIn [.regs, .fab, .ports, .unread, .out] s (State.sliceEcc s slice n p) := by
  unfold State.sliceEcc
  repeat' (first
    | intro _
    | ((with_reducible apply Comp.sub_ok); exact rfl)
    | with_reducible apply State.onlyIn.refl
    | with_reducible assumption
    | with_reducible apply State.onlyIn.foldl
    | with_reducible apply State.onlyIn.foldl2
    | dsimp only
    | (split <;> first | (rename_i heq; have hx := congrArg (fun z => z.2) heq; dsimp only at hx; subst hx) | (rename_i heq; have hx := congrArg (fun z => z.2.2) heq; dsimp only at hx; subst hx) | skip)
    | split
    | with_reducible apply State.onlyIn.step (State.meetErrs_only _ _ _ _ _ _)
    | with_reducible apply State.onlyIn.step (State.setLine_only _ _ _))

theorem State.uncache_only (s : State) (slice : Nat) :
    State.onlyIn [.regs, .fab, .ports, .boot, .unread, .out] s (State.uncache s slice) := by
  unfold State.uncache
  repeat' (first
    | intro _
    | ((with_reducible apply Comp.sub_ok); exact rfl)
    | with_reducible apply State.onlyIn.refl
    | with_reducible assumption
    | (simp only [State.onlyIn.regs (l := [.regs, .fab, .ports, .boot, .unread, .out]) rfl, State.onlyIn.fab (l := [.regs, .fab, .ports, .boot, .unread, .out]) rfl, State.onlyIn.ports (l := [.regs, .fab, .ports, .boot, .unread, .out]) rfl, State.onlyIn.boot (l := [.regs, .fab, .ports, .boot, .unread, .out]) rfl, State.onlyIn.unread (l := [.regs, .fab, .ports, .boot, .unread, .out]) rfl, State.onlyIn.out (l := [.regs, .fab, .ports, .boot, .unread, .out]) rfl])
    | with_reducible apply State.onlyIn.foldl
    | dsimp only
    | split
    | with_reducible apply State.onlyIn.step (State.startEvict_only _ _)
    | with_reducible apply State.onlyIn.step (State.addRepair_only _ _)
    | with_reducible apply State.onlyIn.step (State.fset_only _ _ _ _ _)
    | (refine ⟨fun c hc => ?_⟩; cases c <;> first | rfl | exact absurd (by decide) hc))

theorem State.checkSlice_only (s : State) (slice : Nat) :
    State.onlyIn [.regs, .fab, .ports, .boot, .unread, .out] s (State.checkSlice s slice) := by
  unfold State.checkSlice
  repeat' (first
    | intro _
    | ((with_reducible apply Comp.sub_ok); exact rfl)
    | with_reducible apply State.onlyIn.refl
    | with_reducible assumption
    | (simp only [State.onlyIn.regs (l := [.regs, .fab, .ports, .boot, .unread, .out]) rfl, State.onlyIn.fab (l := [.regs, .fab, .ports, .boot, .unread, .out]) rfl, State.onlyIn.ports (l := [.regs, .fab, .ports, .boot, .unread, .out]) rfl, State.onlyIn.boot (l := [.regs, .fab, .ports, .boot, .unread, .out]) rfl, State.onlyIn.unread (l := [.regs, .fab, .ports, .boot, .unread, .out]) rfl, State.onlyIn.out (l := [.regs, .fab, .ports, .boot, .unread, .out]) rfl])
    | with_reducible apply State.onlyIn.foldl
    | dsimp only
    | split
    | with_reducible apply State.onlyIn.step (State.uncache_only _ _)
    | (refine ⟨fun c hc => ?_⟩; cases c <;> first | rfl | exact absurd (by decide) hc))

theorem State.atHome_only (s : State) (p : Pkt) (ecc : BitVec 2) :
    State.onlyIn [.freeCtr, .regs, .fab, .ports, .boot, .unread, .out] s (State.atHome s p ecc) := by
  unfold State.atHome
  repeat' (first
    | intro _
    | ((with_reducible apply Comp.sub_ok); exact rfl)
    | with_reducible apply State.onlyIn.refl
    | with_reducible assumption
    | with_reducible apply State.onlyIn.foldl
    | dsimp only
    | split
    | with_reducible apply State.onlyIn.step (State.checkSlice_only _ _)
    | with_reducible apply State.onlyIn.step (State.sliceEcc_only _ _ _ _)
    | with_reducible apply State.onlyIn.step (State.markErrs_only _ _ _)
    | with_reducible apply State.onlyIn.step (State.applyBack_only _ _ _)
    | with_reducible apply State.onlyIn.step (State.serve_only _ _ _)
    | with_reducible apply State.onlyIn.step (State.turnAway_only _ _ _ _)
    | with_reducible apply State.onlyIn.step (State.answer_only _ _ _ _ _)
    | with_reducible apply State.onlyIn.step (State.sliceEvent_only _ _ _ _ _)
    | with_reducible apply State.onlyIn.step (State.deny_only _ _ _ _ _)
    | with_reducible apply State.onlyIn.step (State.setLine_only _ _ _))

theorem State.proxyGone_only (s : State) (n : Nat) :
    State.onlyIn [.fab] s (State.proxyGone s n) := by
  unfold State.proxyGone
  repeat' (first
    | intro _
    | ((with_reducible apply Comp.sub_ok); exact rfl)
    | with_reducible apply State.onlyIn.refl
    | with_reducible assumption
    | with_reducible apply State.onlyIn.foldl
    | dsimp only
    | split
    | with_reducible apply State.onlyIn.step (State.sendPkt_only _ _)
    | with_reducible apply State.onlyIn.step (State.setPline_only _ _ _))

theorem State.proxyDrop_only (s : State) (n : Nat) :
    State.onlyIn [.fab] s (State.proxyDrop s n) := by
  unfold State.proxyDrop
  repeat' (first
    | intro _
    | ((with_reducible apply Comp.sub_ok); exact rfl)
    | with_reducible apply State.onlyIn.refl
    | with_reducible assumption
    | with_reducible apply State.onlyIn.foldl
    | dsimp only
    | split
    | with_reducible apply State.onlyIn.step (State.proxyGone_only _ _)
    | with_reducible apply State.onlyIn.step (State.sendSnoop_only _ _ _ _ _ _ _)
    | with_reducible apply State.onlyIn.step (State.setPline_only _ _ _))

theorem State.proxyEvict_only (s : State) (n : Nat) :
    State.onlyIn [.fab] s (State.proxyEvict s n) := by
  unfold State.proxyEvict
  repeat' (first
    | intro _
    | ((with_reducible apply Comp.sub_ok); exact rfl)
    | with_reducible apply State.onlyIn.refl
    | with_reducible assumption
    | with_reducible apply State.onlyIn.foldl
    | dsimp only
    | split
    | with_reducible apply State.onlyIn.step (State.proxyDrop_only _ _)
    | with_reducible apply State.onlyIn.step (State.setPline_only _ _ _))

theorem State.proxyServe_only (s : State) (n : Nat) (p : Pkt) :
    State.onlyIn [.fab] s (State.proxyServe s n p) := by
  unfold State.proxyServe
  repeat' (first
    | intro _
    | ((with_reducible apply Comp.sub_ok); exact rfl)
    | with_reducible apply State.onlyIn.refl
    | with_reducible assumption
    | with_reducible apply State.onlyIn.foldl
    | with_reducible apply State.onlyIn.foldl2
    | dsimp only
    | (split <;> first | (rename_i heq; have hx := congrArg (fun z => z.2) heq; dsimp only at hx; subst hx) | (rename_i heq; have hx := congrArg (fun z => z.2.2) heq; dsimp only at hx; subst hx) | skip)
    | split
    | with_reducible apply State.onlyIn.step (State.tick_only _)
    | with_reducible apply State.onlyIn.step (State.sendPkt_only _ _)
    | with_reducible apply State.onlyIn.step (State.setPline_only _ _ _))

theorem State.proxyWay_only (s : State) (slice : Nat) (n : Nat) (ways : List Nat) :
    State.onlyIn [.fab] s (State.proxyWay s slice n ways).2 := by
  unfold State.proxyWay
  repeat' (first
    | intro _
    | ((with_reducible apply Comp.sub_ok); exact rfl)
    | with_reducible apply State.onlyIn.refl
    | with_reducible assumption
    | with_reducible apply State.onlyIn.foldl
    | with_reducible apply State.onlyIn.foldl2
    | dsimp only
    | split
    | with_reducible apply State.onlyIn.step (State.proxyEvict_only _ _))

theorem State.relay_only (s : State) (p : Pkt) :
    State.onlyIn [.fab] s (State.relay s p) := by
  unfold State.relay
  repeat' (first
    | intro _
    | ((with_reducible apply Comp.sub_ok); exact rfl)
    | with_reducible apply State.onlyIn.refl
    | with_reducible assumption
    | with_reducible apply State.onlyIn.foldl
    | dsimp only
    | split
    | with_reducible apply State.onlyIn.step (State.sendPkt_only _ _))

theorem State.relayBack_only (s : State) (p : Pkt) (a : Agent) :
    State.onlyIn [.fab] s (State.relayBack s p a) := by
  unfold State.relayBack
  repeat' (first
    | intro _
    | ((with_reducible apply Comp.sub_ok); exact rfl)
    | with_reducible apply State.onlyIn.refl
    | with_reducible assumption
    | with_reducible apply State.onlyIn.foldl
    | dsimp only
    | split
    | with_reducible apply State.onlyIn.step (State.sendPkt_only _ _))

theorem State.proxyRefill_only (s : State) (n : Nat) (p : Pkt) :
    State.onlyIn [.regs, .fab, .ports, .unread, .out] s (State.proxyRefill s n p) := by
  unfold State.proxyRefill
  repeat' (first
    | intro _
    | ((with_reducible apply Comp.sub_ok); exact rfl)
    | with_reducible apply State.onlyIn.refl
    | with_reducible assumption
    | with_reducible apply State.onlyIn.foldl
    | dsimp only
    | split
    | with_reducible apply State.onlyIn.step (State.countErrs_only _ _ _)
    | with_reducible apply State.onlyIn.step (State.cohLoc_only _ _ _ _ _)
    | with_reducible apply State.onlyIn.step (State.sendPkt_only _ _)
    | with_reducible apply State.onlyIn.step (State.ev_only _ _ _)
    | with_reducible apply State.onlyIn.step (State.setPline_only _ _ _))

theorem State.proxyTakes_only (s : State) (p : Pkt) :
    State.onlyIn [.regs, .fab, .ports, .boot, .unread, .out] s (State.proxyTakes s p) := by
  unfold State.proxyTakes
  repeat' (first
    | intro _
    | ((with_reducible apply Comp.sub_ok); exact rfl)
    | with_reducible apply State.onlyIn.refl
    | with_reducible assumption
    | with_reducible apply State.onlyIn.foldl
    | with_reducible apply State.onlyIn.foldl2
    | dsimp only
    | (split <;> first | (rename_i heq; have hx := congrArg (fun z => z.2) heq; dsimp only at hx; subst hx) | (rename_i heq; have hx := congrArg (fun z => z.2.2) heq; dsimp only at hx; subst hx) | skip)
    | split
    | with_reducible apply State.onlyIn.step (State.proxyRefill_only _ _ _)
    | with_reducible apply State.onlyIn.step (State.relay_only _ _)
    | with_reducible apply State.onlyIn.step (State.proxyWay_only _ _ _ _)
    | with_reducible apply State.onlyIn.step (State.proxyServe_only _ _ _)
    | with_reducible apply State.onlyIn.step (State.checkSlice_only _ _)
    | with_reducible apply State.onlyIn.step (State.answer_only _ _ _ _ _)
    | with_reducible apply State.onlyIn.step (State.sliceEvent_only _ _ _ _ _)
    | with_reducible apply State.onlyIn.step (State.sendPkt_only _ _)
    | with_reducible apply State.onlyIn.step (State.setPline_only _ _ _))

theorem State.atProxy_only (s : State) (p : Pkt) (ecc : BitVec 2) :
    State.onlyIn [.regs, .fab, .ports, .boot, .unread, .out] s (State.atProxy s p ecc) := by
  unfold State.atProxy
  repeat' (first
    | intro _
    | ((with_reducible apply Comp.sub_ok); exact rfl)
    | with_reducible apply State.onlyIn.refl
    | with_reducible assumption
    | with_reducible apply State.onlyIn.foldl
    | dsimp only
    | split
    | with_reducible apply State.onlyIn.step (State.proxyTakes_only _ _)
    | with_reducible apply State.onlyIn.step (State.answer_only _ _ _ _ _)
    | with_reducible apply State.onlyIn.step (State.sliceEvent_only _ _ _ _ _)
    | with_reducible apply State.onlyIn.step (State.deny_only _ _ _ _ _)
    | with_reducible apply State.onlyIn.step (State.setPline_only _ _ _))

theorem State.proxyFilled_only (s : State) (p : Pkt) :
    State.onlyIn [.fab] s (State.proxyFilled s p) := by
  unfold State.proxyFilled
  repeat' (first
    | intro _
    | ((with_reducible apply Comp.sub_ok); exact rfl)
    | with_reducible apply State.onlyIn.refl
    | with_reducible assumption
    | with_reducible apply State.onlyIn.foldl
    | dsimp only
    | split
    | with_reducible apply State.onlyIn.step (State.proxyServe_only _ _ _)
    | with_reducible apply State.onlyIn.step (State.proxyEvict_only _ _)
    | with_reducible apply State.onlyIn.step (State.answer_only _ _ _ _ _)
    | with_reducible apply State.onlyIn.step (State.sendPkt_only _ _)
    | with_reducible apply State.onlyIn.step (State.setPline_only _ _ _))

theorem State.setSiteLine_only (s : State) (k : Nat) (n : Nat) (c : CSt) :
    State.onlyIn [.sites] s (State.setSiteLine s k n c) := by
  unfold State.setSiteLine
  repeat' (first
    | intro _
    | ((with_reducible apply Comp.sub_ok); exact rfl)
    | with_reducible apply State.onlyIn.refl
    | with_reducible assumption
    | with_reducible apply State.onlyIn.foldl
    | dsimp only
    | split
    | with_reducible apply State.onlyIn.step (State.setSite_only _ _ _))

theorem State.snooped_only (s : State) (p : Pkt) :
    State.onlyIn [.freeCtr, .fab, .tiles, .sites, .out] s (State.snooped s p) := by
  unfold State.snooped
  repeat' (first
    | intro _
    | ((with_reducible apply Comp.sub_ok); exact rfl)
    | with_reducible apply State.onlyIn.refl
    | with_reducible assumption
    | with_reducible apply State.onlyIn.foldl
    | dsimp only
    | split
    | with_reducible apply State.onlyIn.step (State.setSiteLine_only _ _ _ _)
    | with_reducible apply State.onlyIn.step (State.proxyDrop_only _ _)
    | with_reducible apply State.onlyIn.step (State.apEmit_only _ _ _ _ _)
    | with_reducible apply State.onlyIn.step (State.sendPkt_only _ _)
    | with_reducible apply State.onlyIn.step (State.bump_only _)
    | with_reducible apply State.onlyIn.step (State.setPline_only _ _ _)
    | with_reducible apply State.onlyIn.step (State.setTile_only _ _ _))

theorem State.proxyAnswer_only (s : State) (p : Pkt) :
    State.onlyIn [.fab] s (State.proxyAnswer s p) := by
  unfold State.proxyAnswer
  repeat' (first
    | intro _
    | ((with_reducible apply Comp.sub_ok); exact rfl)
    | with_reducible apply State.onlyIn.refl
    | with_reducible assumption
    | with_reducible apply State.onlyIn.foldl
    | dsimp only
    | split
    | with_reducible apply State.onlyIn.step (State.proxyDrop_only _ _)
    | with_reducible apply State.onlyIn.step (State.proxyGone_only _ _)
    | with_reducible apply State.onlyIn.step (State.setPline_only _ _ _))

theorem State.homeAnswer_only (s : State) (p : Pkt) :
    State.onlyIn [.freeCtr, .regs, .fab, .ports, .unread, .out] s (State.homeAnswer s p) := by
  unfold State.homeAnswer
  repeat' (first
    | intro _
    | ((with_reducible apply Comp.sub_ok); exact rfl)
    | with_reducible apply State.onlyIn.refl
    | with_reducible assumption
    | with_reducible apply State.onlyIn.foldl
    | dsimp only
    | split
    | with_reducible apply State.onlyIn.step (State.advanceTxn_only _ _ _ _))

theorem State.homeData_only (s : State) (p : Pkt) :
    State.onlyIn [.freeCtr, .regs, .fab, .ports, .unread, .out] s (State.homeData s p) := by
  unfold State.homeData
  repeat' (first
    | intro _
    | ((with_reducible apply Comp.sub_ok); exact rfl)
    | with_reducible apply State.onlyIn.refl
    | with_reducible assumption
    | with_reducible apply State.onlyIn.foldl
    | dsimp only
    | split
    | with_reducible apply State.onlyIn.step (State.advanceTxn_only _ _ _ _))

theorem State.homeAck_only (s : State) (n : Nat) :
    State.onlyIn [.freeCtr, .regs, .fab, .ports, .unread, .out] s (State.homeAck s n) := by
  unfold State.homeAck
  repeat' (first
    | intro _
    | ((with_reducible apply Comp.sub_ok); exact rfl)
    | with_reducible apply State.onlyIn.refl
    | with_reducible assumption
    | with_reducible apply State.onlyIn.foldl
    | dsimp only
    | split
    | with_reducible apply State.onlyIn.step (State.unbusy_only _ _)
    | with_reducible apply State.onlyIn.step (State.setLine_only _ _ _))

theorem State.proxyAck_only (s : State) (p : Pkt) :
    State.onlyIn [.fab] s (State.proxyAck s p) := by
  unfold State.proxyAck
  repeat' (first
    | intro _
    | ((with_reducible apply Comp.sub_ok); exact rfl)
    | with_reducible apply State.onlyIn.refl
    | with_reducible assumption
    | with_reducible apply State.onlyIn.foldl
    | dsimp only
    | split
    | with_reducible apply State.onlyIn.step (State.proxyDrop_only _ _)
    | with_reducible apply State.onlyIn.step (State.setPline_only _ _ _))

theorem State.snoopLost_only (s : State) (n : Nat) (a : Agent) (status : BitVec 3) :
    State.onlyIn [.freeCtr, .regs, .fab, .ports, .unread, .out] s (State.snoopLost s n a status) := by
  unfold State.snoopLost
  repeat' (first
    | intro _
    | ((with_reducible apply Comp.sub_ok); exact rfl)
    | with_reducible apply State.onlyIn.refl
    | with_reducible assumption
    | with_reducible apply State.onlyIn.foldl
    | dsimp only
    | split
    | with_reducible apply State.onlyIn.step (State.advanceTxn_only _ _ _ _))

theorem State.fillLost_only (s : State) (n : Nat) :
    State.onlyIn [.freeCtr, .regs, .fab, .ports, .unread, .out] s (State.fillLost s n) := by
  unfold State.fillLost
  repeat' (first
    | intro _
    | ((with_reducible apply Comp.sub_ok); exact rfl)
    | with_reducible apply State.onlyIn.refl
    | with_reducible assumption
    | with_reducible apply State.onlyIn.foldl
    | dsimp only
    | split
    | with_reducible apply State.onlyIn.step (State.advanceTxn_only _ _ _ _)
    | with_reducible apply State.onlyIn.step (State.cohLoc_only _ _ _ _ _)
    | with_reducible apply State.onlyIn.step (State.ev_only _ _ _))

theorem State.evictSelected_only (s : State) :
    State.onlyIn [.regs, .fab, .ports, .unread, .out] s (State.evictSelected s) := by
  unfold State.evictSelected
  repeat' (first
    | intro _
    | ((with_reducible apply Comp.sub_ok); exact rfl)
    | with_reducible apply State.onlyIn.refl
    | with_reducible assumption
    | with_reducible apply State.onlyIn.foldl
    | dsimp only
    | split
    | with_reducible apply State.onlyIn.step (State.proxyEvict_only _ _)
    | with_reducible apply State.onlyIn.step (State.startEvict_only _ _))

theorem State.snoopDropped_only (s : State) (test : Nat → Bool) :
    State.onlyIn [.fab] s (State.snoopDropped s test) := by
  unfold State.snoopDropped
  repeat' (first
    | intro _
    | ((with_reducible apply Comp.sub_ok); exact rfl)
    | with_reducible apply State.onlyIn.refl
    | with_reducible assumption
    | with_reducible apply State.onlyIn.foldl
    | with_reducible apply State.onlyIn.foldl2
    | dsimp only
    | (split <;> first | (rename_i heq; have hx := congrArg (fun z => z.2) heq; dsimp only at hx; subst hx) | (rename_i heq; have hx := congrArg (fun z => z.2.2) heq; dsimp only at hx; subst hx) | skip)
    | split
    | with_reducible apply State.onlyIn.step (State.sendSnoop_only _ _ _ _ _ _ _)
    | with_reducible apply State.onlyIn.step (State.tick_only _))

theorem State.dropLines_only (s : State) (test : Nat → Bool) :
    State.onlyIn [.fab, .tiles, .sites] s (State.dropLines s test) := by
  unfold State.dropLines
  repeat' (first
    | intro _
    | ((with_reducible apply Comp.sub_ok); exact rfl)
    | with_reducible apply State.onlyIn.refl
    | with_reducible assumption
    | (simp only [State.onlyIn.fab (l := [.fab, .tiles, .sites]) rfl, State.onlyIn.tiles (l := [.fab, .tiles, .sites]) rfl, State.onlyIn.sites (l := [.fab, .tiles, .sites]) rfl])
    | with_reducible apply State.onlyIn.foldl
    | dsimp only
    | split
    | with_reducible apply State.onlyIn.step (State.snoopDropped_only _ _)
    | with_reducible apply State.onlyIn.step (State.answer_only _ _ _ _ _)
    | with_reducible apply State.onlyIn.step (State.sendPkt_only _ _)
    | with_reducible apply State.onlyIn.step (State.setSite_only _ _ _)
    | with_reducible apply State.onlyIn.step (State.setTile_only _ _ _)
    | (refine ⟨fun c hc => ?_⟩; cases c <;> first | rfl | exact absurd (by decide) hc))

theorem State.loseAgents_only (s : State) (gone : Agent → Bool) (status : BitVec 3) (always : Bool) (cut : Bool) :
    State.onlyIn [.freeCtr, .regs, .fab, .ports, .unread, .out] s (State.loseAgents s gone status always cut).2 := by
  unfold State.loseAgents
  repeat' (first
    | intro _
    | ((with_reducible apply Comp.sub_ok); exact rfl)
    | with_reducible apply State.onlyIn.refl
    | with_reducible assumption
    | with_reducible apply State.onlyIn.foldl
    | with_reducible apply State.onlyIn.foldl2
    | dsimp only
    | split
    | with_reducible apply State.onlyIn.step (State.advanceTxn_only _ _ _ _)
    | with_reducible apply State.onlyIn.step (State.unbusy_only _ _)
    | with_reducible apply State.onlyIn.step (State.setLine_only _ _ _))

theorem State.sweepAgents_only (s : State) (gone : Agent → Bool) :
    State.onlyIn [.fab] s (State.sweepAgents s gone) := by
  unfold State.sweepAgents
  repeat' (first
    | intro _
    | ((with_reducible apply Comp.sub_ok); exact rfl)
    | with_reducible apply State.onlyIn.refl
    | with_reducible assumption
    | with_reducible apply State.onlyIn.foldl
    | dsimp only
    | split
    | with_reducible apply State.onlyIn.step (State.setLine_only _ _ _))

theorem State.loseAtProxies_only (s : State) (gone : Agent → Bool) :
    State.onlyIn [.fab] s (State.loseAtProxies s gone) := by
  unfold State.loseAtProxies
  repeat' (first
    | intro _
    | ((with_reducible apply Comp.sub_ok); exact rfl)
    | with_reducible apply State.onlyIn.refl
    | with_reducible assumption
    | with_reducible apply State.onlyIn.foldl
    | dsimp only
    | split
    | with_reducible apply State.onlyIn.step (State.proxyDrop_only _ _)
    | with_reducible apply State.onlyIn.step (State.proxyGone_only _ _)
    | with_reducible apply State.onlyIn.step (State.setPline_only _ _ _))

theorem State.scanSite_only (s : State) (k : Nat) :
    State.onlyIn [.fab] s (State.scanSite s k) := by
  unfold State.scanSite
  repeat' (first
    | intro _
    | ((with_reducible apply Comp.sub_ok); exact rfl)
    | with_reducible apply State.onlyIn.refl
    | with_reducible assumption
    | with_reducible apply State.onlyIn.foldl
    | with_reducible apply State.onlyIn.foldl2
    | dsimp only
    | (split <;> first | (rename_i heq; have hx := congrArg (fun z => z.2) heq; dsimp only at hx; subst hx) | (rename_i heq; have hx := congrArg (fun z => z.2.2) heq; dsimp only at hx; subst hx) | skip)
    | split
    | with_reducible apply State.onlyIn.step (State.sendSnoop_only _ _ _ _ _ _ _)
    | with_reducible apply State.onlyIn.step (State.tick_only _)
    | with_reducible apply State.onlyIn.step (State.setPline_only _ _ _)
    | with_reducible apply State.onlyIn.step (State.setLine_only _ _ _))

theorem State.askNow_only (s : State) (l : Line) (n : Nat) (op : Op) :
    State.onlyIn [.freeCtr, .sites] s (State.askNow s l n op).2.2 := by
  unfold State.askNow
  repeat' (first
    | intro _
    | ((with_reducible apply Comp.sub_ok); exact rfl)
    | with_reducible apply State.onlyIn.refl
    | with_reducible assumption
    | with_reducible apply State.onlyIn.foldl
    | with_reducible apply State.onlyIn.foldl2
    | dsimp only
    | split
    | with_reducible apply State.onlyIn.step (State.setSiteLine_only _ _ _ _)
    | with_reducible apply State.onlyIn.step (State.bump_only _))

theorem State.rowAt_only (s : State) (n : Nat) (op : Op) (who : Agent) (sect : BitVec 2) (way : Nat) :
    State.onlyIn [.freeCtr, .regs, .fab, .sites, .ports, .boot, .unread, .out] s (State.rowAt s n op who sect way).2 := by
  unfold State.rowAt
  repeat' (first
    | intro _
    | ((with_reducible apply Comp.sub_ok); exact rfl)
    | with_reducible apply State.onlyIn.refl
    | with_reducible assumption
    | with_reducible apply State.onlyIn.foldl
    | with_reducible apply State.onlyIn.foldl2
    | dsimp only
    | (split <;> first | (rename_i heq; have hx := congrArg (fun z => z.2) heq; dsimp only at hx; subst hx) | (rename_i heq; have hx := congrArg (fun z => z.2.2) heq; dsimp only at hx; subst hx) | skip)
    | split
    | with_reducible apply State.onlyIn.step (State.askNow_only _ _ _ _)
    | with_reducible apply State.onlyIn.step (State.checkSlice_only _ _)
    | with_reducible apply State.onlyIn.step (State.meetErrs_only _ _ _ _ _ _)
    | with_reducible apply State.onlyIn.step (State.tick_only _)
    | with_reducible apply State.onlyIn.step (State.setLine_only _ _ _))

theorem State.rowNow_only (s : State) (n : Nat) (op : Op) (who : Agent) (sect : BitVec 2) :
    State.onlyIn [.freeCtr, .regs, .fab, .sites, .ports, .boot, .unread, .out] s (State.rowNow s n op who sect).2 := by
  unfold State.rowNow
  repeat' (first
    | intro _
    | ((with_reducible apply Comp.sub_ok); exact rfl)
    | with_reducible apply State.onlyIn.refl
    | with_reducible assumption
    | with_reducible apply State.onlyIn.foldl
    | with_reducible apply State.onlyIn.foldl2
    | dsimp only
    | (split <;> first | (rename_i heq; have hx := congrArg (fun z => z.2) heq; dsimp only at hx; subst hx) | (rename_i heq; have hx := congrArg (fun z => z.2.2) heq; dsimp only at hx; subst hx) | skip)
    | split
    | with_reducible apply State.onlyIn.step (State.rowAt_only _ _ _ _ _ _)
    | with_reducible apply State.onlyIn.step (State.takeWay_only _ _ _ _))

theorem State.cohTouch_only (s : State) (src : Agent) (ctx : BitVec 12) (a : Nat) (keep : Bool) :
    State.onlyIn [.freeCtr, .regs, .fab, .sites, .ports, .boot, .unread, .out] s (State.cohTouch s src ctx a keep).2 := by
  unfold State.cohTouch
  repeat' (first
    | intro _
    | ((with_reducible apply Comp.sub_ok); exact rfl)
    | with_reducible apply State.onlyIn.refl
    | with_reducible assumption
    | with_reducible apply State.onlyIn.foldl
    | with_reducible apply State.onlyIn.foldl2
    | dsimp only
    | (split <;> first | (rename_i heq; have hx := congrArg (fun z => z.2) heq; dsimp only at hx; subst hx) | (rename_i heq; have hx := congrArg (fun z => z.2.2) heq; dsimp only at hx; subst hx) | skip)
    | split
    | with_reducible apply State.onlyIn.step (State.rowNow_only _ _ _ _ _)
    | with_reducible apply State.onlyIn.step (State.proxyWay_only _ _ _ _)
    | with_reducible apply State.onlyIn.step (State.tick_only _)
    | with_reducible apply State.onlyIn.step (State.deny_only _ _ _ _ _)
    | with_reducible apply State.onlyIn.step (State.setPline_only _ _ _))

theorem State.cohTouchAll_only (s : State) (src : Agent) (ctx : BitVec 12) (l : List Nat) :
    State.onlyIn [.freeCtr, .regs, .fab, .sites, .ports, .boot, .unread, .out] s (State.cohTouchAll s src ctx l) := by
  unfold State.cohTouchAll
  repeat' (first
    | intro _
    | ((with_reducible apply Comp.sub_ok); exact rfl)
    | with_reducible apply State.onlyIn.refl
    | with_reducible assumption
    | with_reducible apply State.onlyIn.foldl
    | with_reducible apply State.onlyIn.foldl2
    | dsimp only
    | (split <;> first | (rename_i heq; have hx := congrArg (fun z => z.2) heq; dsimp only at hx; subst hx) | (rename_i heq; have hx := congrArg (fun z => z.2.2) heq; dsimp only at hx; subst hx) | skip)
    | split
    | with_reducible apply State.onlyIn.step (State.cohTouch_only _ _ _ _ _))

end Sys2Proof.Machine
end

