-- ==== Sys2Proof/Laws/OnlyTranslate.lean ====
section
/-! SUPPORT. What each operation of Machine/Translate.lean can change: the parts of the state outside the list are as before. -/

set_option linter.all false

namespace Sys2Proof.Machine

theorem State.walked_only (s : State) (src : Agent) (ctx : BitVec 12) (dva : Nat) :
    State.onlyIn [.freeCtr, .regs, .fab, .sites, .ports, .boot, .unread, .out] s (State.walked s src ctx dva) := by
  unfold State.walked
  repeat' (first
    | intro _
    | ((with_reducible apply Comp.sub_ok); exact rfl)
    | with_reducible apply State.onlyIn.refl
    | with_reducible assumption
    | with_reducible apply State.onlyIn.foldl
    | dsimp only
    | split
    | with_reducible apply State.onlyIn.step (State.cohTouchAll_only _ _ _ _))

theorem State.cacheEnt_only (s : State) (e : RangeEnt) :
    State.onlyIn [.xlt] s (State.cacheEnt s e) := by
  unfold State.cacheEnt
  repeat' (first
    | intro _
    | ((with_reducible apply Comp.sub_ok); exact rfl)
    | with_reducible apply State.onlyIn.refl
    | with_reducible assumption
    | (simp only [State.onlyIn.xlt (l := [.xlt]) rfl])
    | with_reducible apply State.onlyIn.foldl
    | dsimp only
    | split
    | (refine ⟨fun c hc => ?_⟩; cases c <;> first | rfl | exact absurd (by decide) hc))

theorem State.translate_only (s : State) (m : Agent) (ctx : BitVec 12) (dva : Nat) (need : Need) :
    State.onlyIn [.freeCtr, .regs, .fab, .sites, .xlt, .ports, .boot, .unread, .out] s (State.translate s m ctx dva need).2 := by
  unfold State.translate
  repeat' (first
    | intro _
    | ((with_reducible apply Comp.sub_ok); exact rfl)
    | with_reducible apply State.onlyIn.refl
    | with_reducible assumption
    | with_reducible apply State.onlyIn.foldl
    | with_reducible apply State.onlyIn.foldl2
    | dsimp only
    | split
    | with_reducible apply State.onlyIn.step (State.cacheEnt_only _ _)
    | with_reducible apply State.onlyIn.step (State.walked_only _ _ _ _))

theorem State.dropWalker_only (s : State) (m : Agent) (ctx : BitVec 12) (page : Nat) :
    State.onlyIn [.xlt] s (State.dropWalker s m ctx page) := by
  unfold State.dropWalker
  repeat' (first
    | intro _
    | ((with_reducible apply Comp.sub_ok); exact rfl)
    | with_reducible apply State.onlyIn.refl
    | with_reducible assumption
    | (simp only [State.onlyIn.xlt (l := [.xlt]) rfl])
    | with_reducible apply State.onlyIn.foldl
    | dsimp only
    | split
    | (refine ⟨fun c hc => ?_⟩; cases c <;> first | rfl | exact absurd (by decide) hc))

theorem State.showHolders_only (s : State) (w : Nat) (p : Nat) (r : Nat) :
    State.onlyIn [.regs] s (State.showHolders s w p r) := by
  unfold State.showHolders
  repeat' (first
    | intro _
    | ((with_reducible apply Comp.sub_ok); exact rfl)
    | with_reducible apply State.onlyIn.refl
    | with_reducible assumption
    | with_reducible apply State.onlyIn.foldl
    | dsimp only
    | split
    | with_reducible apply State.onlyIn.step (State.fset_only _ _ _ _ _))

theorem State.takeRecord_only (s : State) (w : Nat) (r : Nat) (ctx : BitVec 12) (kind : Nat) (index : Nat) (dva : Nat) (a : Agent) (holds : Nat) :
    State.onlyIn [.regs, .ports, .out] s (State.takeRecord s w r ctx kind index dva a holds) := by
  unfold State.takeRecord
  repeat' (first
    | intro _
    | ((with_reducible apply Comp.sub_ok); exact rfl)
    | with_reducible apply State.onlyIn.refl
    | with_reducible assumption
    | with_reducible apply State.onlyIn.foldl
    | dsimp only
    | split
    | with_reducible apply State.onlyIn.step (State.msix_only _ _ _)
    | with_reducible apply State.onlyIn.step (State.fset_only _ _ _ _ _))

theorem State.xltFaultLoose_only (s : State) (a : Agent) (ctx : BitVec 12) (kind : Nat) (index : Nat) (dva : Nat) :
    State.onlyIn [.regs, .ports, .out] s (State.xltFaultLoose s a ctx kind index dva) := by
  unfold State.xltFaultLoose
  repeat' (first
    | intro _
    | ((with_reducible apply Comp.sub_ok); exact rfl)
    | with_reducible apply State.onlyIn.refl
    | with_reducible assumption
    | with_reducible apply State.onlyIn.foldl
    | dsimp only
    | split
    | with_reducible apply State.onlyIn.step (State.takeRecord_only _ _ _ _ _ _ _ _ _))

theorem State.xltFault_only (s : State) (a : Agent) (ctx : BitVec 12) (kind : Nat) (index : Nat) (dva : Nat) (cmd : Option Nat) (what : HeldWhat) :
    State.onlyIn [.regs, .xlt, .ports, .out] s (State.xltFault s a ctx kind index dva cmd what) := by
  unfold State.xltFault
  repeat' (first
    | intro _
    | ((with_reducible apply Comp.sub_ok); exact rfl)
    | with_reducible apply State.onlyIn.refl
    | with_reducible assumption
    | (simp only [State.onlyIn.regs (l := [.regs, .xlt, .ports, .out]) rfl, State.onlyIn.xlt (l := [.regs, .xlt, .ports, .out]) rfl, State.onlyIn.ports (l := [.regs, .xlt, .ports, .out]) rfl, State.onlyIn.out (l := [.regs, .xlt, .ports, .out]) rfl])
    | with_reducible apply State.onlyIn.foldl
    | dsimp only
    | split
    | with_reducible apply State.onlyIn.step (State.takeRecord_only _ _ _ _ _ _ _ _ _)
    | with_reducible apply State.onlyIn.step (State.showHolders_only _ _ _ _)
    | with_reducible apply State.onlyIn.step (State.fset_only _ _ _ _ _)
    | (refine ⟨fun c hc => ?_⟩; cases c <;> first | rfl | exact absurd (by decide) hc))

theorem State.dropRecord_only (s : State) (w : Nat) (p : Nat) (r : Nat) :
    State.onlyIn [.regs, .xlt, .ports, .out] s (State.dropRecord s w p r) := by
  unfold State.dropRecord
  repeat' (first
    | intro _
    | ((with_reducible apply Comp.sub_ok); exact rfl)
    | with_reducible apply State.onlyIn.refl
    | with_reducible assumption
    | (simp only [State.onlyIn.regs (l := [.regs, .xlt, .ports, .out]) rfl, State.onlyIn.xlt (l := [.regs, .xlt, .ports, .out]) rfl, State.onlyIn.ports (l := [.regs, .xlt, .ports, .out]) rfl, State.onlyIn.out (l := [.regs, .xlt, .ports, .out]) rfl])
    | with_reducible apply State.onlyIn.foldl
    | dsimp only
    | split
    | with_reducible apply State.onlyIn.step (State.takeRecord_only _ _ _ _ _ _ _ _ _)
    | with_reducible apply State.onlyIn.step (State.fresetAll_only _ _ _ _)
    | (refine ⟨fun c hc => ?_⟩; cases c <;> first | rfl | exact absurd (by decide) hc))

theorem State.dropHeld_only (s : State) (test : XHeld → Bool) :
    State.onlyIn [.regs, .xlt, .ports, .out] s (State.dropHeld s test) := by
  unfold State.dropHeld
  repeat' (first
    | intro _
    | ((with_reducible apply Comp.sub_ok); exact rfl)
    | with_reducible apply State.onlyIn.refl
    | with_reducible assumption
    | (simp only [State.onlyIn.regs (l := [.regs, .xlt, .ports, .out]) rfl, State.onlyIn.xlt (l := [.regs, .xlt, .ports, .out]) rfl, State.onlyIn.ports (l := [.regs, .xlt, .ports, .out]) rfl, State.onlyIn.out (l := [.regs, .xlt, .ports, .out]) rfl])
    | with_reducible apply State.onlyIn.foldl
    | dsimp only
    | split
    | with_reducible apply State.onlyIn.step (State.dropRecord_only _ _ _ _)
    | with_reducible apply State.onlyIn.step (State.showHolders_only _ _ _ _)
    | (refine ⟨fun c hc => ?_⟩; cases c <;> first | rfl | exact absurd (by decide) hc))

theorem State.refuseLocal_only (s : State) (p : Pkt) (purp : Purpose) (status : BitVec 3) :
    State.onlyIn [.fab] s (State.refuseLocal s p purp status) := by
  unfold State.refuseLocal
  repeat' (first
    | intro _
    | ((with_reducible apply Comp.sub_ok); exact rfl)
    | with_reducible apply State.onlyIn.refl
    | with_reducible assumption
    | (simp only [State.onlyIn.fab (l := [.fab]) rfl])
    | with_reducible apply State.onlyIn.foldl
    | dsimp only
    | split
    | with_reducible apply State.onlyIn.step (State.sendPkt_only _ _)
    | (refine ⟨fun c hc => ?_⟩; cases c <;> first | rfl | exact absurd (by decide) hc))

theorem State.sendAcc_only (s : State) (x : DvaAcc) (a : Nat) :
    State.onlyIn [.regs, .fab, .unread] s (State.sendAcc s x a) := by
  unfold State.sendAcc
  repeat' (first
    | intro _
    | ((with_reducible apply Comp.sub_ok); exact rfl)
    | with_reducible apply State.onlyIn.refl
    | with_reducible assumption
    | with_reducible apply State.onlyIn.foldl
    | dsimp only
    | split
    | with_reducible apply State.onlyIn.step (State.refuseLocal_only _ _ _ _)
    | with_reducible apply State.onlyIn.step (State.request_only _ _ _ _)
    | with_reducible apply State.onlyIn.step (State.deny_only _ _ _ _ _))

theorem State.issueAccs_only (s : State) (cmd : Option Nat) (x2 : List DvaAcc) :
    State.onlyIn [.freeCtr, .regs, .fab, .sites, .xlt, .ports, .boot, .unread, .out] s (State.issueAccs s cmd x2) := by
  induction x2 generalizing s cmd with
  | nil =>
    rw [State.issueAccs]
    repeat' (first
      | intro _
      | ((with_reducible apply Comp.sub_ok); exact rfl)
      | with_reducible apply State.onlyIn.refl
      | with_reducible assumption
      | with_reducible apply State.onlyIn.foldl
      | with_reducible apply State.onlyIn.foldl2
      | dsimp only
      | (split <;> first | (rename_i heq; have hx := congrArg (fun z => z.2) heq; dsimp only at hx; subst hx) | (rename_i heq; have hx := congrArg (fun z => z.2.2) heq; dsimp only at hx; subst hx) | skip)
      | split
      | with_reducible apply State.onlyIn.step (State.sendAcc_only _ _ _)
      | with_reducible apply State.onlyIn.step (State.xltFault_only _ _ _ _ _ _ _ _)
      | with_reducible apply State.onlyIn.step (State.translate_only _ _ _ _ _)
      | with_reducible refine .trans ?_ (ih _ _))
  | cons a r ih =>
    rw [State.issueAccs]
    repeat' (first
      | intro _
      | ((with_reducible apply Comp.sub_ok); exact rfl)
      | with_reducible apply State.onlyIn.refl
      | with_reducible assumption
      | with_reducible apply State.onlyIn.foldl
      | with_reducible apply State.onlyIn.foldl2
      | dsimp only
      | (split <;> first | (rename_i heq; have hx := congrArg (fun z => z.2) heq; dsimp only at hx; subst hx) | (rename_i heq; have hx := congrArg (fun z => z.2.2) heq; dsimp only at hx; subst hx) | skip)
      | split
      | with_reducible apply State.onlyIn.step (State.sendAcc_only _ _ _)
      | with_reducible apply State.onlyIn.step (State.xltFault_only _ _ _ _ _ _ _ _)
      | with_reducible apply State.onlyIn.step (State.translate_only _ _ _ _ _)
      | with_reducible refine .trans ?_ (ih _ _))

end Sys2Proof.Machine
end

