-- ==== Sys2Proof/Laws/OnlyIdle.lean ====
section
/-! SUPPORT. What each operation of Machine/Idle.lean can change: the parts of the state outside the list are as before. -/

set_option linter.all false

namespace Sys2Proof.Machine

theorem State.quietWrite_only (s : State) (h : Half) (ctx : BitVec 12) (dva : Nat) (d : BitVec 256) (purp : Purpose) :
    State.onlyIn [.freeCtr, .regs, .fab, .sites, .xlt, .ports, .boot, .unread, .out] s (State.quietWrite s h ctx dva d purp).2 := by
  unfold State.quietWrite
  repeat' (first
    | intro _
    | ((with_reducible apply Comp.sub_ok); exact rfl)
    | with_reducible apply State.onlyIn.refl
    | with_reducible assumption
    | with_reducible apply State.onlyIn.foldl
    | with_reducible apply State.onlyIn.foldl2
    | dsimp only
    | (split <;> first | (rename_i heq; have hx := congrArg (fun z => z.2) heq; dsimp only at hx; subst hx) | (rename_i heq; have hx := congrArg (fun z => z.2.2) heq; dsimp only at hx; subst hx) | skip)
    | split
    | with_reducible apply State.onlyIn.step (State.sendAcc_only _ _ _)
    | with_reducible apply State.onlyIn.step (State.translate_only _ _ _ _ _))

theorem State.passTrace_only (s : State) (part : Nat) (next : Nat) (size : Nat) :
    State.onlyIn [.regs] s (State.passTrace s part next size) := by
  unfold State.passTrace
  repeat' (first
    | intro _
    | ((with_reducible apply Comp.sub_ok); exact rfl)
    | with_reducible apply State.onlyIn.refl
    | with_reducible assumption
    | with_reducible apply State.onlyIn.foldl
    | dsimp only
    | split
    | with_reducible apply State.onlyIn.step (State.fset_only _ _ _ _ _))

theorem State.writeTrace_only (s : State) (h : Half) (r : TraceRec) :
    State.onlyIn [.freeCtr, .regs, .fab, .sites, .xlt, .ports, .boot, .fid, .unread, .out] s (State.writeTrace s h r) := by
  unfold State.writeTrace
  repeat' (first
    | intro _
    | ((with_reducible apply Comp.sub_ok); exact rfl)
    | with_reducible apply State.onlyIn.refl
    | with_reducible assumption
    | with_reducible apply State.onlyIn.foldl
    | with_reducible apply State.onlyIn.foldl2
    | dsimp only
    | (split <;> first | (rename_i heq; have hx := congrArg (fun z => z.2) heq; dsimp only at hx; subst hx) | (rename_i heq; have hx := congrArg (fun z => z.2.2) heq; dsimp only at hx; subst hx) | skip)
    | split
    | with_reducible apply State.onlyIn.step (State.passTrace_only _ _ _ _)
    | with_reducible apply State.onlyIn.step (State.quietWrite_only _ _ _ _ _ _)
    | with_reducible apply State.onlyIn.step (State.traceDrop_only _ _))

theorem State.setTraceQ_only (s : State) (h : Half) (q : List TraceRec) :
    State.onlyIn [.fid] s (State.setTraceQ s h q) := by
  unfold State.setTraceQ
  repeat' (first
    | intro _
    | ((with_reducible apply Comp.sub_ok); exact rfl)
    | with_reducible apply State.onlyIn.refl
    | with_reducible assumption
    | (simp only [State.onlyIn.fid (l := [.fid]) rfl])
    | with_reducible apply State.onlyIn.foldl
    | dsimp only
    | split
    | (refine ⟨fun c hc => ?_⟩; cases c <;> first | rfl | exact absurd (by decide) hc))

theorem State.drainTrace_only (s : State) (h : Half) :
    State.onlyIn [.freeCtr, .regs, .fab, .sites, .xlt, .ports, .boot, .fid, .unread, .out] s (State.drainTrace s h) := by
  unfold State.drainTrace
  repeat' (first
    | intro _
    | ((with_reducible apply Comp.sub_ok); exact rfl)
    | with_reducible apply State.onlyIn.refl
    | with_reducible assumption
    | with_reducible apply State.onlyIn.foldl
    | dsimp only
    | split
    | with_reducible apply State.onlyIn.step (State.setTraceQ_only _ _ _)
    | with_reducible apply State.onlyIn.step (State.writeTrace_only _ _ _))

theorem State.idle_only (s : State) :
    State.onlyIn [.tally, .freeCtr, .regs, .fab, .sites, .xlt, .ports, .boot, .fid, .unread, .out] s (State.idle s) := by
  unfold State.idle
  repeat' (first
    | intro _
    | ((with_reducible apply Comp.sub_ok); exact rfl)
    | with_reducible apply State.onlyIn.refl
    | with_reducible assumption
    | (simp only [State.onlyIn.tally (l := [.tally, .freeCtr, .regs, .fab, .sites, .xlt, .ports, .boot, .fid, .unread, .out]) rfl, State.onlyIn.freeCtr (l := [.tally, .freeCtr, .regs, .fab, .sites, .xlt, .ports, .boot, .fid, .unread, .out]) rfl, State.onlyIn.regs (l := [.tally, .freeCtr, .regs, .fab, .sites, .xlt, .ports, .boot, .fid, .unread, .out]) rfl, State.onlyIn.fab (l := [.tally, .freeCtr, .regs, .fab, .sites, .xlt, .ports, .boot, .fid, .unread, .out]) rfl, State.onlyIn.sites (l := [.tally, .freeCtr, .regs, .fab, .sites, .xlt, .ports, .boot, .fid, .unread, .out]) rfl, State.onlyIn.xlt (l := [.tally, .freeCtr, .regs, .fab, .sites, .xlt, .ports, .boot, .fid, .unread, .out]) rfl, State.onlyIn.ports (l := [.tally, .freeCtr, .regs, .fab, .sites, .xlt, .ports, .boot, .fid, .unread, .out]) rfl, State.onlyIn.boot (l := [.tally, .freeCtr, .regs, .fab, .sites, .xlt, .ports, .boot, .fid, .unread, .out]) rfl, State.onlyIn.fid (l := [.tally, .freeCtr, .regs, .fab, .sites, .xlt, .ports, .boot, .fid, .unread, .out]) rfl, State.onlyIn.unread (l := [.tally, .freeCtr, .regs, .fab, .sites, .xlt, .ports, .boot, .fid, .unread, .out]) rfl, State.onlyIn.out (l := [.tally, .freeCtr, .regs, .fab, .sites, .xlt, .ports, .boot, .fid, .unread, .out]) rfl])
    | with_reducible apply State.onlyIn.foldl
    | dsimp only
    | split
    | with_reducible apply State.onlyIn.step (State.drainTrace_only _ _)
    | (refine ⟨fun c hc => ?_⟩; cases c <;> first | rfl | exact absurd (by decide) hc))

end Sys2Proof.Machine
end

