-- ==== Sys2Proof/Laws/OnlyTransport.lean ====
section
/-! SUPPORT. What each operation of Machine/Transport.lean can change: the parts of the state outside the list are as before. -/

set_option linter.all false

namespace Sys2Proof.Machine

theorem State.stageOn_only (s : State) (l : Nat) (m : LMsg) :
    State.onlyIn [.lan] s (State.stageOn s l m) := by
  unfold State.stageOn
  repeat' (first
    | intro _
    | ((with_reducible apply Comp.sub_ok); exact rfl)
    | with_reducible apply State.onlyIn.refl
    | with_reducible assumption
    | with_reducible apply State.onlyIn.foldl
    | dsimp only
    | split
    | with_reducible apply State.onlyIn.step (State.setLink_only _ _ _))

theorem State.stepTurn_only (s : State) (hop : Nat) :
    State.onlyIn [.lan] s (State.stepTurn s hop) := by
  unfold State.stepTurn
  repeat' (first
    | intro _
    | ((with_reducible apply Comp.sub_ok); exact rfl)
    | with_reducible apply State.onlyIn.refl
    | with_reducible assumption
    | (simp only [State.onlyIn.lan (l := [.lan]) rfl])
    | with_reducible apply State.onlyIn.foldl
    | dsimp only
    | split
    | (refine ⟨fun c hc => ?_⟩; cases c <;> first | rfl | exact absurd (by decide) hc))

theorem State.passTurn_only (s : State) (dev : Nat) :
    State.onlyIn [.lan] s (State.passTurn s dev) := by
  unfold State.passTurn
  repeat' (first
    | intro _
    | ((with_reducible apply Comp.sub_ok); exact rfl)
    | with_reducible apply State.onlyIn.refl
    | with_reducible assumption
    | with_reducible apply State.onlyIn.foldl
    | dsimp only
    | split
    | with_reducible apply State.onlyIn.step (State.stepTurn_only _ _))

theorem State.sendMsg_only (s : State) (m : LMsg) :
    State.onlyIn [.lan] s (State.sendMsg s m) := by
  unfold State.sendMsg
  repeat' (first
    | intro _
    | ((with_reducible apply Comp.sub_ok); exact rfl)
    | with_reducible apply State.onlyIn.refl
    | with_reducible assumption
    | (simp only [State.onlyIn.lan (l := [.lan]) rfl])
    | with_reducible apply State.onlyIn.foldl
    | dsimp only
    | split
    | with_reducible apply State.onlyIn.step (State.passTurn_only _ _)
    | with_reducible apply State.onlyIn.step (State.stageOn_only _ _ _)
    | (refine ⟨fun c hc => ?_⟩; cases c <;> first | rfl | exact absurd (by decide) hc))

theorem State.recordRefusal_only (s : State) (reason : Nat) (dev : Nat) (handle : Nat) (dir : Nat) :
    State.onlyIn [.regs, .ports, .unread, .out] s (State.recordRefusal s reason dev handle dir) := by
  unfold State.recordRefusal
  repeat' (first
    | intro _
    | ((with_reducible apply Comp.sub_ok); exact rfl)
    | with_reducible apply State.onlyIn.refl
    | with_reducible assumption
    | with_reducible apply State.onlyIn.foldl
    | with_reducible apply State.onlyIn.foldl2
    | dsimp only
    | (split <;> first | (rename_i heq; have hx := congrArg (fun z => z.2) heq; dsimp only at hx; subst hx) | (rename_i heq; have hx := congrArg (fun z => z.2.2) heq; dsimp only at hx; subst hx) | skip)
    | split
    | with_reducible apply State.onlyIn.step (State.takeLoc_only _ _)
    | with_reducible apply State.onlyIn.step (State.ev_only _ _ _)
    | with_reducible apply State.onlyIn.step (State.fset_only _ _ _ _ _))

theorem State.setTracker_only (s : State) (i : Nat) (t : Tracker) :
    State.onlyIn [.lan] s (State.setTracker s i t) := by
  unfold State.setTracker
  repeat' (first
    | intro _
    | ((with_reducible apply Comp.sub_ok); exact rfl)
    | with_reducible apply State.onlyIn.refl
    | with_reducible assumption
    | (simp only [State.onlyIn.lan (l := [.lan]) rfl])
    | with_reducible apply State.onlyIn.foldl
    | dsimp only
    | split
    | (refine ⟨fun c hc => ?_⟩; cases c <;> first | rfl | exact absurd (by decide) hc))

theorem State.takeTracker_only {s : State} {t : Tracker} {a1} {t1 : State} (h1 : State.takeTracker s t = some (a1, t1)) :
    State.onlyIn [.lan] s t1 := by
  unfold State.takeTracker at h1
  repeat' (first | (simp only [reduceCtorEq] at h1; done) | (dsimp only at h1) | split at h1)
  all_goals (first | (simp only [Option.some.injEq] at h1; subst h1) | (simp only [Option.some.injEq, Prod.mk.injEq] at h1; obtain ⟨_, hq⟩ := h1; subst hq) | skip)
  all_goals
    repeat' (first
    | intro _
    | ((with_reducible apply Comp.sub_ok); exact rfl)
    | with_reducible apply State.onlyIn.refl
    | with_reducible assumption
    | with_reducible apply State.onlyIn.foldl
    | with_reducible apply State.onlyIn.foldl2
    | dsimp only
    | split
    | with_reducible apply State.onlyIn.step (State.setTracker_only _ _ _)
    | with_reducible apply State.onlyIn.step (State.passTurn_only _ _))

theorem State.takeMsn_only (s : State) (dev : Nat) :
    State.onlyIn [.lan] s (State.takeMsn s dev).2 := by
  unfold State.takeMsn
  repeat' (first
    | intro _
    | ((with_reducible apply Comp.sub_ok); exact rfl)
    | with_reducible apply State.onlyIn.refl
    | with_reducible assumption
    | (simp only [State.onlyIn.lan (l := [.lan]) rfl])
    | with_reducible apply State.onlyIn.foldl
    | with_reducible apply State.onlyIn.foldl2
    | dsimp only
    | split
    | (refine ⟨fun c hc => ?_⟩; cases c <;> first | rfl | exact absurd (by decide) hc))

theorem State.srcDone_only (s : State) (i : Nat) :
    State.onlyIn [.cleats, .lan] s (State.srcDone s i) := by
  unfold State.srcDone
  repeat' (first
    | intro _
    | ((with_reducible apply Comp.sub_ok); exact rfl)
    | with_reducible apply State.onlyIn.refl
    | with_reducible assumption
    | with_reducible apply State.onlyIn.foldl
    | dsimp only
    | split
    | with_reducible apply State.onlyIn.step (State.setTracker_only _ _ _)
    | with_reducible apply State.onlyIn.step (State.sendInc_only _ _ _ _))

theorem State.pumpPut_only (s : State) (i : Nat) (x2 : Nat) :
    State.onlyIn [.cleats, .lan] s (State.pumpPut s i x2) := by
  induction x2 generalizing s i with
  | zero =>
    rw [State.pumpPut]
    repeat' (first
      | intro _
      | ((with_reducible apply Comp.sub_ok); exact rfl)
      | with_reducible apply State.onlyIn.refl
      | with_reducible assumption
      | with_reducible apply State.onlyIn.foldl
      | with_reducible apply State.onlyIn.foldl2
      | dsimp only
      | (split <;> first | (rename_i heq; have hx := congrArg (fun z => z.2) heq; dsimp only at hx; subst hx) | (rename_i heq; have hx := congrArg (fun z => z.2.2) heq; dsimp only at hx; subst hx) | skip)
      | split
      | with_reducible apply State.onlyIn.step (State.srcDone_only _ _)
      | with_reducible apply State.onlyIn.step (State.takeMsn_only _ _)
      | with_reducible apply State.onlyIn.step (State.setTracker_only _ _ _)
      | with_reducible apply State.onlyIn.step (State.passTurn_only _ _)
      | with_reducible apply State.onlyIn.step (State.stageOn_only _ _ _)
      | with_reducible refine .trans ?_ (ih _ _))
  | succ k ih =>
    rw [State.pumpPut]
    repeat' (first
      | intro _
      | ((with_reducible apply Comp.sub_ok); exact rfl)
      | with_reducible apply State.onlyIn.refl
      | with_reducible assumption
      | with_reducible apply State.onlyIn.foldl
      | with_reducible apply State.onlyIn.foldl2
      | dsimp only
      | (split <;> first | (rename_i heq; have hx := congrArg (fun z => z.2) heq; dsimp only at hx; subst hx) | (rename_i heq; have hx := congrArg (fun z => z.2.2) heq; dsimp only at hx; subst hx) | skip)
      | split
      | with_reducible apply State.onlyIn.step (State.srcDone_only _ _)
      | with_reducible apply State.onlyIn.step (State.takeMsn_only _ _)
      | with_reducible apply State.onlyIn.step (State.setTracker_only _ _ _)
      | with_reducible apply State.onlyIn.step (State.passTurn_only _ _)
      | with_reducible apply State.onlyIn.step (State.stageOn_only _ _ _)
      | with_reducible refine .trans ?_ (ih _ _))

theorem State.pumpPuts_only (s : State) :
    State.onlyIn [.cleats, .lan] s (State.pumpPuts s) := by
  unfold State.pumpPuts
  repeat' (first
    | intro _
    | ((with_reducible apply Comp.sub_ok); exact rfl)
    | with_reducible apply State.onlyIn.refl
    | with_reducible assumption
    | with_reducible apply State.onlyIn.foldl
    | dsimp only
    | split
    | with_reducible apply State.onlyIn.step (State.pumpPut_only _ _ _))

theorem State.freeTrk_only (s : State) (i : Nat) (lost : Bool) :
    State.onlyIn [.lan] s (State.freeTrk s i lost) := by
  unfold State.freeTrk
  repeat' (first
    | intro _
    | ((with_reducible apply Comp.sub_ok); exact rfl)
    | with_reducible apply State.onlyIn.refl
    | with_reducible assumption
    | with_reducible apply State.onlyIn.foldl
    | dsimp only
    | split
    | with_reducible apply State.onlyIn.step (State.setTracker_only _ _ _))

theorem State.setHandle_only (s : State) (h : Nat) (e : BitVec 256) :
    State.onlyIn [.lan] s (State.setHandle s h e) := by
  unfold State.setHandle
  repeat' (first
    | intro _
    | ((with_reducible apply Comp.sub_ok); exact rfl)
    | with_reducible apply State.onlyIn.refl
    | with_reducible assumption
    | (simp only [State.onlyIn.lan (l := [.lan]) rfl])
    | with_reducible apply State.onlyIn.foldl
    | dsimp only
    | split
    | (refine ⟨fun c hc => ?_⟩; cases c <;> first | rfl | exact absurd (by decide) hc))

theorem State.labelOf_only (s : State) (part : Nat) (svc : BitVec 3) :
    State.onlyIn [.regs] s (State.labelOf s part svc).2 := by
  unfold State.labelOf
  repeat' (first
    | intro _
    | ((with_reducible apply Comp.sub_ok); exact rfl)
    | with_reducible apply State.onlyIn.refl
    | with_reducible assumption
    | with_reducible apply State.onlyIn.foldl
    | with_reducible apply State.onlyIn.foldl2
    | dsimp only
    | split
    | with_reducible apply State.onlyIn.step (State.fset_only _ _ _ _ _))

theorem State.refuseMsg_only (s : State) (m : LMsg) (reason : Nat) :
    State.onlyIn [.regs, .lan, .ports, .unread, .out] s (State.refuseMsg s m reason) := by
  unfold State.refuseMsg
  repeat' (first
    | intro _
    | ((with_reducible apply Comp.sub_ok); exact rfl)
    | with_reducible apply State.onlyIn.refl
    | with_reducible assumption
    | with_reducible apply State.onlyIn.foldl
    | dsimp only
    | split
    | with_reducible apply State.onlyIn.step (State.recordRefusal_only _ _ _ _ _)
    | with_reducible apply State.onlyIn.step (State.sendMsg_only _ _)
    | with_reducible apply State.onlyIn.step (State.fidEvent_only _ _ _ _ _ _ _))

theorem State.sectorDpas_only (s : State) (a : Agent) (ctx : BitVec 12) (dva : Nat) (need : Need) (x5 : Nat) :
    State.onlyIn [.freeCtr, .regs, .fab, .sites, .xlt, .ports, .boot, .unread, .out] s (State.sectorDpas s a ctx dva need x5).2 := by
  induction x5 generalizing s a ctx dva need with
  | zero =>
    rw [State.sectorDpas]
    repeat' (first
      | intro _
      | ((with_reducible apply Comp.sub_ok); exact rfl)
      | with_reducible apply State.onlyIn.refl
      | with_reducible assumption
      | with_reducible apply State.onlyIn.foldl
      | with_reducible apply State.onlyIn.foldl2
      | dsimp only
      | (split <;> first | (rename_i heq; have hx := congrArg (fun z => z.2) heq; dsimp only at hx; subst hx) | (rename_i heq; have hx := congrArg (fun z => z.2.2) heq; dsimp only at hx; subst hx) | skip)
      | split
      | with_reducible apply State.onlyIn.step (State.translate_only _ _ _ _ _)
      | with_reducible refine .trans ?_ (ih _ _ _ _ _))
  | succ k ih =>
    rw [State.sectorDpas]
    repeat' (first
      | intro _
      | ((with_reducible apply Comp.sub_ok); exact rfl)
      | with_reducible apply State.onlyIn.refl
      | with_reducible assumption
      | with_reducible apply State.onlyIn.foldl
      | with_reducible apply State.onlyIn.foldl2
      | dsimp only
      | (split <;> first | (rename_i heq; have hx := congrArg (fun z => z.2) heq; dsimp only at hx; subst hx) | (rename_i heq; have hx := congrArg (fun z => z.2.2) heq; dsimp only at hx; subst hx) | skip)
      | split
      | with_reducible apply State.onlyIn.step (State.translate_only _ _ _ _ _)
      | with_reducible refine .trans ?_ (ih _ _ _ _ _))

theorem State.fragFault_only (s : State) (a : Agent) (ctx : BitVec 12) (need : Need) (x4 : List Nat) :
    State.onlyIn [.regs, .ports, .out] s (State.fragFault s a ctx need x4) := by
  induction x4 generalizing s a ctx need with
  | nil =>
    rw [State.fragFault]
    repeat' (first
      | intro _
      | ((with_reducible apply Comp.sub_ok); exact rfl)
      | with_reducible apply State.onlyIn.refl
      | with_reducible assumption
      | with_reducible apply State.onlyIn.foldl
      | dsimp only
      | split
      | with_reducible apply State.onlyIn.step (State.xltFaultLoose_only _ _ _ _ _ _)
      | with_reducible refine .trans ?_ (ih _ _ _ _))
  | cons a r ih =>
    rw [State.fragFault]
    repeat' (first
      | intro _
      | ((with_reducible apply Comp.sub_ok); exact rfl)
      | with_reducible apply State.onlyIn.refl
      | with_reducible assumption
      | with_reducible apply State.onlyIn.foldl
      | dsimp only
      | split
      | with_reducible apply State.onlyIn.step (State.xltFaultLoose_only _ _ _ _ _ _)
      | with_reducible refine .trans ?_ (ih _ _ _ _))

theorem State.issueFrag_only (s : State) (eng : Nat) (e : BitVec 256) (msgs : List LMsg) (ws : List SecWr) :
    State.onlyIn [.regs, .fab, .lan, .ports, .unread, .out] s (State.issueFrag s eng e msgs ws) := by
  unfold State.issueFrag
  repeat' (first
    | intro _
    | ((with_reducible apply Comp.sub_ok); exact rfl)
    | with_reducible apply State.onlyIn.refl
    | with_reducible assumption
    | (simp only [State.onlyIn.regs (l := [.regs, .fab, .lan, .ports, .unread, .out]) rfl, State.onlyIn.fab (l := [.regs, .fab, .lan, .ports, .unread, .out]) rfl, State.onlyIn.lan (l := [.regs, .fab, .lan, .ports, .unread, .out]) rfl, State.onlyIn.ports (l := [.regs, .fab, .lan, .ports, .unread, .out]) rfl, State.onlyIn.unread (l := [.regs, .fab, .lan, .ports, .unread, .out]) rfl, State.onlyIn.out (l := [.regs, .fab, .lan, .ports, .unread, .out]) rfl])
    | with_reducible apply State.onlyIn.foldl
    | with_reducible apply State.onlyIn.foldl2
    | dsimp only
    | (split <;> first | (rename_i heq; have hx := congrArg (fun z => z.2) heq; dsimp only at hx; subst hx) | (rename_i heq; have hx := congrArg (fun z => z.2.2) heq; dsimp only at hx; subst hx) | skip)
    | split
    | with_reducible apply State.onlyIn.step (State.refuseMsg_only _ _ _)
    | with_reducible apply State.onlyIn.step (State.labelOf_only _ _ _)
    | with_reducible apply State.onlyIn.step (State.request_only _ _ _ _)
    | with_reducible apply State.onlyIn.step (State.deny_only _ _ _ _ _)
    | with_reducible apply State.onlyIn.step (State.ev_only _ _ _)
    | (refine ⟨fun c hc => ?_⟩; cases c <;> first | rfl | exact absurd (by decide) hc))

theorem State.serveFrag_only (s : State) (e : BitVec 256) (m : LMsg) :
    State.onlyIn [.freeCtr, .regs, .fab, .sites, .lan, .xlt, .ports, .boot, .unread, .out] s (State.serveFrag s e m) := by
  unfold State.serveFrag
  repeat' (first
    | intro _
    | ((with_reducible apply Comp.sub_ok); exact rfl)
    | with_reducible apply State.onlyIn.refl
    | with_reducible assumption
    | with_reducible apply State.onlyIn.foldl
    | with_reducible apply State.onlyIn.foldl2
    | dsimp only
    | (split <;> first | (rename_i heq; have hx := congrArg (fun z => z.2) heq; dsimp only at hx; subst hx) | (rename_i heq; have hx := congrArg (fun z => z.2.2) heq; dsimp only at hx; subst hx) | skip)
    | split
    | with_reducible apply State.onlyIn.step (State.issueFrag_only _ _ _ _ _)
    | with_reducible apply State.onlyIn.step (State.fragFault_only _ _ _ _ _)
    | with_reducible apply State.onlyIn.step (State.sectorDpas_only _ _ _ _ _ _)
    | with_reducible apply State.onlyIn.step (State.refuseMsg_only _ _ _))

theorem State.slotDpas_only (s : State) (a : Agent) (c : CollSlot) (x3 : List Nat) :
    State.onlyIn [.freeCtr, .regs, .fab, .sites, .xlt, .ports, .boot, .unread, .out] s (State.slotDpas s a c x3).2 := by
  induction x3 generalizing s a c with
  | nil =>
    rw [State.slotDpas]
    repeat' (first
      | intro _
      | ((with_reducible apply Comp.sub_ok); exact rfl)
      | with_reducible apply State.onlyIn.refl
      | with_reducible assumption
      | with_reducible apply State.onlyIn.foldl
      | with_reducible apply State.onlyIn.foldl2
      | dsimp only
      | (split <;> first | (rename_i heq; have hx := congrArg (fun z => z.2) heq; dsimp only at hx; subst hx) | (rename_i heq; have hx := congrArg (fun z => z.2.2) heq; dsimp only at hx; subst hx) | skip)
      | split
      | with_reducible apply State.onlyIn.step (State.translate_only _ _ _ _ _)
      | with_reducible refine .trans ?_ (ih _ _ _))
  | cons a r ih =>
    rw [State.slotDpas]
    repeat' (first
      | intro _
      | ((with_reducible apply Comp.sub_ok); exact rfl)
      | with_reducible apply State.onlyIn.refl
      | with_reducible assumption
      | with_reducible apply State.onlyIn.foldl
      | with_reducible apply State.onlyIn.foldl2
      | dsimp only
      | (split <;> first | (rename_i heq; have hx := congrArg (fun z => z.2) heq; dsimp only at hx; subst hx) | (rename_i heq; have hx := congrArg (fun z => z.2.2) heq; dsimp only at hx; subst hx) | skip)
      | split
      | with_reducible apply State.onlyIn.step (State.translate_only _ _ _ _ _)
      | with_reducible refine .trans ?_ (ih _ _ _))

theorem State.writeOut_only (s : State) (c : CollSlot) :
    State.onlyIn [.freeCtr, .regs, .fab, .sites, .lan, .xlt, .ports, .boot, .unread, .out] s (State.writeOut s c) := by
  unfold State.writeOut
  repeat' (first
    | intro _
    | ((with_reducible apply Comp.sub_ok); exact rfl)
    | with_reducible apply State.onlyIn.refl
    | with_reducible assumption
    | (simp only [State.onlyIn.freeCtr (l := [.freeCtr, .regs, .fab, .sites, .lan, .xlt, .ports, .boot, .unread, .out]) rfl, State.onlyIn.regs (l := [.freeCtr, .regs, .fab, .sites, .lan, .xlt, .ports, .boot, .unread, .out]) rfl, State.onlyIn.fab (l := [.freeCtr, .regs, .fab, .sites, .lan, .xlt, .ports, .boot, .unread, .out]) rfl, State.onlyIn.sites (l := [.freeCtr, .regs, .fab, .sites, .lan, .xlt, .ports, .boot, .unread, .out]) rfl, State.onlyIn.lan (l := [.freeCtr, .regs, .fab, .sites, .lan, .xlt, .ports, .boot, .unread, .out]) rfl, State.onlyIn.xlt (l := [.freeCtr, .regs, .fab, .sites, .lan, .xlt, .ports, .boot, .unread, .out]) rfl, State.onlyIn.ports (l := [.freeCtr, .regs, .fab, .sites, .lan, .xlt, .ports, .boot, .unread, .out]) rfl, State.onlyIn.boot (l := [.freeCtr, .regs, .fab, .sites, .lan, .xlt, .ports, .boot, .unread, .out]) rfl, State.onlyIn.unread (l := [.freeCtr, .regs, .fab, .sites, .lan, .xlt, .ports, .boot, .unread, .out]) rfl, State.onlyIn.out (l := [.freeCtr, .regs, .fab, .sites, .lan, .xlt, .ports, .boot, .unread, .out]) rfl])
    | with_reducible apply State.onlyIn.foldl
    | with_reducible apply State.onlyIn.foldl2
    | dsimp only
    | (split <;> first | (rename_i heq; have hx := congrArg (fun z => z.2) heq; dsimp only at hx; subst hx) | (rename_i heq; have hx := congrArg (fun z => z.2.2) heq; dsimp only at hx; subst hx) | skip)
    | split
    | with_reducible apply State.onlyIn.step (State.slotDpas_only _ _ _ _)
    | with_reducible apply State.onlyIn.step (State.issueFrag_only _ _ _ _ _)
    | with_reducible apply State.onlyIn.step (State.fragFault_only _ _ _ _ _)
    | with_reducible apply State.onlyIn.step (State.refuseMsg_only _ _ _)
    | (refine ⟨fun c hc => ?_⟩; cases c <;> first | rfl | exact absurd (by decide) hc))

theorem State.collect_only (s : State) (e : BitVec 256) (m : LMsg) :
    State.onlyIn [.freeCtr, .regs, .fab, .sites, .lan, .xlt, .ports, .boot, .unread, .out] s (State.collect s e m) := by
  unfold State.collect
  repeat' (first
    | intro _
    | ((with_reducible apply Comp.sub_ok); exact rfl)
    | with_reducible apply State.onlyIn.refl
    | with_reducible assumption
    | (simp only [State.onlyIn.freeCtr (l := [.freeCtr, .regs, .fab, .sites, .lan, .xlt, .ports, .boot, .unread, .out]) rfl, State.onlyIn.regs (l := [.freeCtr, .regs, .fab, .sites, .lan, .xlt, .ports, .boot, .unread, .out]) rfl, State.onlyIn.fab (l := [.freeCtr, .regs, .fab, .sites, .lan, .xlt, .ports, .boot, .unread, .out]) rfl, State.onlyIn.sites (l := [.freeCtr, .regs, .fab, .sites, .lan, .xlt, .ports, .boot, .unread, .out]) rfl, State.onlyIn.lan (l := [.freeCtr, .regs, .fab, .sites, .lan, .xlt, .ports, .boot, .unread, .out]) rfl, State.onlyIn.xlt (l := [.freeCtr, .regs, .fab, .sites, .lan, .xlt, .ports, .boot, .unread, .out]) rfl, State.onlyIn.ports (l := [.freeCtr, .regs, .fab, .sites, .lan, .xlt, .ports, .boot, .unread, .out]) rfl, State.onlyIn.boot (l := [.freeCtr, .regs, .fab, .sites, .lan, .xlt, .ports, .boot, .unread, .out]) rfl, State.onlyIn.unread (l := [.freeCtr, .regs, .fab, .sites, .lan, .xlt, .ports, .boot, .unread, .out]) rfl, State.onlyIn.out (l := [.freeCtr, .regs, .fab, .sites, .lan, .xlt, .ports, .boot, .unread, .out]) rfl])
    | with_reducible apply State.onlyIn.foldl
    | dsimp only
    | split
    | with_reducible apply State.onlyIn.step (State.writeOut_only _ _)
    | with_reducible apply State.onlyIn.step (State.refuseMsg_only _ _ _)
    | (refine ⟨fun c hc => ?_⟩; cases c <;> first | rfl | exact absurd (by decide) hc))

theorem State.sawMsn_only (s : State) (m : LMsg) :
    State.onlyIn [.lan] s (State.sawMsn s m) := by
  unfold State.sawMsn
  repeat' (first
    | intro _
    | ((with_reducible apply Comp.sub_ok); exact rfl)
    | with_reducible apply State.onlyIn.refl
    | with_reducible assumption
    | (simp only [State.onlyIn.lan (l := [.lan]) rfl])
    | with_reducible apply State.onlyIn.foldl
    | dsimp only
    | split
    | (refine ⟨fun c hc => ?_⟩; cases c <;> first | rfl | exact absurd (by decide) hc))

theorem State.lateReply_only (s : State) :
    State.onlyIn [.regs, .ports, .out] s (State.lateReply s) := by
  unfold State.lateReply
  repeat' (first
    | intro _
    | ((with_reducible apply Comp.sub_ok); exact rfl)
    | with_reducible apply State.onlyIn.refl
    | with_reducible assumption
    | with_reducible apply State.onlyIn.foldl
    | dsimp only
    | split
    | with_reducible apply State.onlyIn.step (State.ev_only _ _ _))

theorem State.arriveFrag_only (s : State) (m : LMsg) :
    State.onlyIn [.freeCtr, .regs, .fab, .sites, .lan, .xlt, .ports, .boot, .unread, .out] s (State.arriveFrag s m) := by
  unfold State.arriveFrag
  repeat' (first
    | intro _
    | ((with_reducible apply Comp.sub_ok); exact rfl)
    | with_reducible apply State.onlyIn.refl
    | with_reducible assumption
    | with_reducible apply State.onlyIn.foldl
    | dsimp only
    | split
    | with_reducible apply State.onlyIn.step (State.lateReply_only _)
    | with_reducible apply State.onlyIn.step (State.sawMsn_only _ _)
    | with_reducible apply State.onlyIn.step (State.collect_only _ _ _)
    | with_reducible apply State.onlyIn.step (State.serveFrag_only _ _ _)
    | with_reducible apply State.onlyIn.step (State.refuseMsg_only _ _ _))

theorem State.arriveGet_only (s : State) (m : LMsg) :
    State.onlyIn [.freeCtr, .regs, .fab, .sites, .lan, .xlt, .ports, .boot, .unread, .out] s (State.arriveGet s m) := by
  unfold State.arriveGet
  repeat' (first
    | intro _
    | ((with_reducible apply Comp.sub_ok); exact rfl)
    | with_reducible apply State.onlyIn.refl
    | with_reducible assumption
    | (simp only [State.onlyIn.freeCtr (l := [.freeCtr, .regs, .fab, .sites, .lan, .xlt, .ports, .boot, .unread, .out]) rfl, State.onlyIn.regs (l := [.freeCtr, .regs, .fab, .sites, .lan, .xlt, .ports, .boot, .unread, .out]) rfl, State.onlyIn.fab (l := [.freeCtr, .regs, .fab, .sites, .lan, .xlt, .ports, .boot, .unread, .out]) rfl, State.onlyIn.sites (l := [.freeCtr, .regs, .fab, .sites, .lan, .xlt, .ports, .boot, .unread, .out]) rfl, State.onlyIn.lan (l := [.freeCtr, .regs, .fab, .sites, .lan, .xlt, .ports, .boot, .unread, .out]) rfl, State.onlyIn.xlt (l := [.freeCtr, .regs, .fab, .sites, .lan, .xlt, .ports, .boot, .unread, .out]) rfl, State.onlyIn.ports (l := [.freeCtr, .regs, .fab, .sites, .lan, .xlt, .ports, .boot, .unread, .out]) rfl, State.onlyIn.boot (l := [.freeCtr, .regs, .fab, .sites, .lan, .xlt, .ports, .boot, .unread, .out]) rfl, State.onlyIn.unread (l := [.freeCtr, .regs, .fab, .sites, .lan, .xlt, .ports, .boot, .unread, .out]) rfl, State.onlyIn.out (l := [.freeCtr, .regs, .fab, .sites, .lan, .xlt, .ports, .boot, .unread, .out]) rfl])
    | with_reducible apply State.onlyIn.foldl
    | with_reducible apply State.onlyIn.foldl2
    | dsimp only
    | (split <;> first | (rename_i heq; have hx := congrArg (fun z => z.2) heq; dsimp only at hx; subst hx) | (rename_i heq; have hx := congrArg (fun z => z.2.2) heq; dsimp only at hx; subst hx) | skip)
    | split
    | with_reducible apply State.onlyIn.step (State.fragFault_only _ _ _ _ _)
    | with_reducible apply State.onlyIn.step (State.sectorDpas_only _ _ _ _ _ _)
    | with_reducible apply State.onlyIn.step (State.refuseMsg_only _ _ _)
    | with_reducible apply State.onlyIn.step (State.labelOf_only _ _ _)
    | with_reducible apply State.onlyIn.step (State.request_only _ _ _ _)
    | (refine ⟨fun c hc => ?_⟩; cases c <;> first | rfl | exact absurd (by decide) hc))

theorem State.pumpGet_only (s : State) (id : Nat) (x2 : Nat) :
    State.onlyIn [.lan] s (State.pumpGet s id x2) := by
  induction x2 generalizing s id with
  | zero =>
    rw [State.pumpGet]
    repeat' (first
      | intro _
      | ((with_reducible apply Comp.sub_ok); exact rfl)
      | with_reducible apply State.onlyIn.refl
      | with_reducible assumption
      | (simp only [State.onlyIn.lan (l := [.lan]) rfl])
      | with_reducible apply State.onlyIn.foldl
      | with_reducible apply State.onlyIn.foldl2
      | dsimp only
      | (split <;> first | (rename_i heq; have hx := congrArg (fun z => z.2) heq; dsimp only at hx; subst hx) | (rename_i heq; have hx := congrArg (fun z => z.2.2) heq; dsimp only at hx; subst hx) | skip)
      | split
      | with_reducible apply State.onlyIn.step (State.takeMsn_only _ _)
      | with_reducible apply State.onlyIn.step (State.sendMsg_only _ _)
      | with_reducible refine .trans ?_ (ih _ _)
      | (refine ⟨fun c hc => ?_⟩; cases c <;> first | rfl | exact absurd (by decide) hc))
  | succ k ih =>
    rw [State.pumpGet]
    repeat' (first
      | intro _
      | ((with_reducible apply Comp.sub_ok); exact rfl)
      | with_reducible apply State.onlyIn.refl
      | with_reducible assumption
      | (simp only [State.onlyIn.lan (l := [.lan]) rfl])
      | with_reducible apply State.onlyIn.foldl
      | with_reducible apply State.onlyIn.foldl2
      | dsimp only
      | (split <;> first | (rename_i heq; have hx := congrArg (fun z => z.2) heq; dsimp only at hx; subst hx) | (rename_i heq; have hx := congrArg (fun z => z.2.2) heq; dsimp only at hx; subst hx) | skip)
      | split
      | with_reducible apply State.onlyIn.step (State.takeMsn_only _ _)
      | with_reducible apply State.onlyIn.step (State.sendMsg_only _ _)
      | with_reducible refine .trans ?_ (ih _ _)
      | (refine ⟨fun c hc => ?_⟩; cases c <;> first | rfl | exact absurd (by decide) hc))

theorem State.pumpGets_only (s : State) :
    State.onlyIn [.lan] s (State.pumpGets s) := by
  unfold State.pumpGets
  repeat' (first
    | intro _
    | ((with_reducible apply Comp.sub_ok); exact rfl)
    | with_reducible apply State.onlyIn.refl
    | with_reducible assumption
    | with_reducible apply State.onlyIn.foldl
    | dsimp only
    | split
    | with_reducible apply State.onlyIn.step (State.pumpGet_only _ _ _))

theorem State.resendMsg_only (s : State) (m : LMsg) :
    State.onlyIn [.regs, .lan, .ports, .unread, .out] s (State.resendMsg s m) := by
  unfold State.resendMsg
  repeat' (first
    | intro _
    | ((with_reducible apply Comp.sub_ok); exact rfl)
    | with_reducible apply State.onlyIn.refl
    | with_reducible assumption
    | with_reducible apply State.onlyIn.foldl
    | dsimp only
    | split
    | with_reducible apply State.onlyIn.step (State.refuseMsg_only _ _ _)
    | with_reducible apply State.onlyIn.step (State.sendMsg_only _ _))

theorem State.pumpMsgs_only (s : State) :
    State.onlyIn [.regs, .lan, .ports, .unread, .out] s (State.pumpMsgs s) := by
  unfold State.pumpMsgs
  repeat' (first
    | intro _
    | ((with_reducible apply Comp.sub_ok); exact rfl)
    | with_reducible apply State.onlyIn.refl
    | with_reducible assumption
    | (simp only [State.onlyIn.regs (l := [.regs, .lan, .ports, .unread, .out]) rfl, State.onlyIn.lan (l := [.regs, .lan, .ports, .unread, .out]) rfl, State.onlyIn.ports (l := [.regs, .lan, .ports, .unread, .out]) rfl, State.onlyIn.unread (l := [.regs, .lan, .ports, .unread, .out]) rfl, State.onlyIn.out (l := [.regs, .lan, .ports, .unread, .out]) rfl])
    | with_reducible apply State.onlyIn.foldl
    | dsimp only
    | split
    | with_reducible apply State.onlyIn.step (State.resendMsg_only _ _)
    | (refine ⟨fun c hc => ?_⟩; cases c <;> first | rfl | exact absurd (by decide) hc))

theorem State.pumpEngines_only (s : State) :
    State.onlyIn [.regs, .cleats, .lan, .ports, .unread, .out] s (State.pumpEngines s) := by
  unfold State.pumpEngines
  repeat' (first
    | intro _
    | ((with_reducible apply Comp.sub_ok); exact rfl)
    | with_reducible apply State.onlyIn.refl
    | with_reducible assumption
    | with_reducible apply State.onlyIn.foldl
    | dsimp only
    | split
    | with_reducible apply State.onlyIn.step (State.pumpMsgs_only _)
    | with_reducible apply State.onlyIn.step (State.pumpGets_only _)
    | with_reducible apply State.onlyIn.step (State.pumpPuts_only _))

end Sys2Proof.Machine
end

