-- ==== Sys2Proof/Laws/OnlyLnkFrames.lean ====
section
/-! SUPPORT. What each operation of Machine/LnkFrames.lean can change: the parts of the state outside the list are as before. -/

set_option linter.all false

namespace Sys2Proof.Machine

theorem State.linkFrame_only (s : State) (l : Nat) (m : Option LMsg) :
    State.onlyIn [.regs, .lan, .out] s (State.linkFrame s l m) := by
  unfold State.linkFrame
  repeat' (first
    | intro _
    | ((with_reducible apply Comp.sub_ok); exact rfl)
    | with_reducible apply State.onlyIn.refl
    | with_reducible assumption
    | with_reducible apply State.onlyIn.foldl
    | dsimp only
    | split
    | with_reducible apply State.onlyIn.step (State.pushOut_only _ _)
    | with_reducible apply State.onlyIn.step (State.setLink_only _ _ _)
    | with_reducible apply State.onlyIn.step (State.fset_only _ _ _ _ _))

theorem State.idleLnk_only (s : State) (l : Nat) :
    State.onlyIn [.regs, .lan, .out] s (State.idleLnk s l) := by
  unfold State.idleLnk
  repeat' (first
    | intro _
    | ((with_reducible apply Comp.sub_ok); exact rfl)
    | with_reducible apply State.onlyIn.refl
    | with_reducible assumption
    | with_reducible apply State.onlyIn.foldl
    | dsimp only
    | split
    | with_reducible apply State.onlyIn.step (State.linkFrame_only _ _ _))

end Sys2Proof.Machine
end

