-- ==== Sys2Proof/Laws/OnlyTileOps.lean ====
section
/-! SUPPORT. What each operation of Machine/TileOps.lean can change: the parts of the state outside the list are as before. -/

set_option linter.all false

namespace Sys2Proof.Machine

theorem State.modTile_only (s : State) (t : Nat) (f : Tile → Tile) :
    State.onlyIn [.tiles] s (State.modTile s t f) := by
  unfold State.modTile
  repeat' (first
    | intro _
    | ((with_reducible apply Comp.sub_ok); exact rfl)
    | with_reducible apply State.onlyIn.refl
    | with_reducible assumption
    | with_reducible apply State.onlyIn.foldl
    | dsimp only
    | split
    | with_reducible apply State.onlyIn.step (State.setTile_only _ _ _))

theorem State.opFaultRun_only (s : State) (id : Nat) (code : Nat) (idx : Nat) (t : Nat) (dva : Nat) :
    State.onlyIn [.cmds] s (State.opFaultRun s id code idx t dva) := by
  unfold State.opFaultRun
  repeat' (first
    | intro _
    | ((with_reducible apply Comp.sub_ok); exact rfl)
    | with_reducible apply State.onlyIn.refl
    | with_reducible assumption
    | with_reducible apply State.onlyIn.foldl
    | dsimp only
    | split
    | with_reducible apply State.onlyIn.step (State.setRun_only _ _))

theorem State.faultRecord_only (s : State) (t : Nat) (code : Nat) (idx : Nat) (dva : Nat) :
    State.onlyIn [.regs] s (State.faultRecord s t code idx dva) := by
  unfold State.faultRecord
  repeat' (first
    | intro _
    | ((with_reducible apply Comp.sub_ok); exact rfl)
    | with_reducible apply State.onlyIn.refl
    | with_reducible assumption
    | with_reducible apply State.onlyIn.foldl
    | dsimp only
    | split
    | with_reducible apply State.onlyIn.step (State.fset_only _ _ _ _ _))

theorem State.dropTileReqs_only (s : State) (t : Nat) :
    State.onlyIn [.regs, .fab, .xlt, .ports, .out] s (State.dropTileReqs s t) := by
  unfold State.dropTileReqs
  repeat' (first
    | intro _
    | ((with_reducible apply Comp.sub_ok); exact rfl)
    | with_reducible apply State.onlyIn.refl
    | with_reducible assumption
    | (simp only [State.onlyIn.regs (l := [.regs, .fab, .xlt, .ports, .out]) rfl, State.onlyIn.fab (l := [.regs, .fab, .xlt, .ports, .out]) rfl, State.onlyIn.xlt (l := [.regs, .fab, .xlt, .ports, .out]) rfl, State.onlyIn.ports (l := [.regs, .fab, .xlt, .ports, .out]) rfl, State.onlyIn.out (l := [.regs, .fab, .xlt, .ports, .out]) rfl])
    | with_reducible apply State.onlyIn.foldl
    | dsimp only
    | split
    | with_reducible apply State.onlyIn.step (State.dropHeld_only _ _)
    | (refine ⟨fun c hc => ?_⟩; cases c <;> first | rfl | exact absurd (by decide) hc))

theorem State.faultOne_only (s : State) (t : Nat) (code : Nat) (idx : Nat) (dva : Nat) :
    State.onlyIn [.regs, .fab, .tiles, .cmds, .xlt, .ports, .fid, .out] s (State.faultOne s t code idx dva) := by
  unfold State.faultOne
  repeat' (first
    | intro _
    | ((with_reducible apply Comp.sub_ok); exact rfl)
    | with_reducible apply State.onlyIn.refl
    | with_reducible assumption
    | with_reducible apply State.onlyIn.foldl
    | dsimp only
    | split
    | with_reducible apply State.onlyIn.step (State.dropTileReqs_only _ _)
    | with_reducible apply State.onlyIn.step (State.faultRecord_only _ _ _ _ _)
    | with_reducible apply State.onlyIn.step (State.opFaultRun_only _ _ _ _ _ _)
    | with_reducible apply State.onlyIn.step (State.trigger_only _ _ _ _ _ _)
    | with_reducible apply State.onlyIn.step (State.setTile_only _ _ _))

theorem State.abortMates_only (s : State) (t : Nat) :
    State.onlyIn [.regs, .fab, .tiles, .cmds, .xlt, .ports, .fid, .out] s (State.abortMates s t) := by
  unfold State.abortMates
  repeat' (first
    | intro _
    | ((with_reducible apply Comp.sub_ok); exact rfl)
    | with_reducible apply State.onlyIn.refl
    | with_reducible assumption
    | with_reducible apply State.onlyIn.foldl
    | dsimp only
    | split
    | with_reducible apply State.onlyIn.step (State.faultOne_only _ _ _ _ _))

theorem State.tileFault_only (s : State) (t : Nat) (code : Nat) (idx : Nat) (dva : Nat) :
    State.onlyIn [.regs, .fab, .tiles, .cmds, .xlt, .ports, .fid, .out] s (State.tileFault s t code idx dva) := by
  unfold State.tileFault
  repeat' (first
    | intro _
    | ((with_reducible apply Comp.sub_ok); exact rfl)
    | with_reducible apply State.onlyIn.refl
    | with_reducible assumption
    | with_reducible apply State.onlyIn.foldl
    | dsimp only
    | split
    | with_reducible apply State.onlyIn.step (State.abortMates_only _ _)
    | with_reducible apply State.onlyIn.step (State.faultOne_only _ _ _ _ _))

theorem State.lateFault_only (s : State) (t : Nat) (code : Nat) (idx : Nat) (dva : Nat) :
    State.onlyIn [.regs, .fab, .tiles, .cmds, .xlt, .ports, .fid, .out] s (State.lateFault s t code idx dva) := by
  unfold State.lateFault
  repeat' (first
    | intro _
    | ((with_reducible apply Comp.sub_ok); exact rfl)
    | with_reducible apply State.onlyIn.refl
    | with_reducible assumption
    | with_reducible apply State.onlyIn.foldl
    | dsimp only
    | split
    | with_reducible apply State.onlyIn.step (State.abortMates_only _ _)
    | with_reducible apply State.onlyIn.step (State.faultRecord_only _ _ _ _ _)
    | with_reducible apply State.onlyIn.step (State.opFaultRun_only _ _ _ _ _ _)
    | with_reducible apply State.onlyIn.step (State.setTile_only _ _ _))

theorem State.tileFetch_only (s : State) (t : Nat) (x2 : Nat) :
    State.onlyIn [.freeCtr, .regs, .fab, .tiles, .sites, .cmds, .xlt, .ports, .boot, .fid, .unread, .out] s (State.tileFetch s t x2) := by
  induction x2 generalizing s t with
  | zero =>
    rw [State.tileFetch]
    repeat' (first
      | intro _
      | ((with_reducible apply Comp.sub_ok); exact rfl)
      | with_reducible apply State.onlyIn.refl
      | with_reducible assumption
      | with_reducible apply State.onlyIn.foldl
      | with_reducible apply State.onlyIn.foldl2
      | dsimp only
      | (split <;> first | (rename_i heq; have hx := congrArg (fun z => z.2) heq; dsimp only at hx; subst hx) | (rename_i heq; have hx := congrArg (fun z => z.2.2) heq; dsimp only at hx; subst hx) | skip)
      | split
      | with_reducible apply State.onlyIn.step (State.tileFault_only _ _ _ _ _)
      | with_reducible apply State.onlyIn.step (State.sendAcc_only _ _ _)
      | with_reducible apply State.onlyIn.step (State.xltFault_only _ _ _ _ _ _ _ _)
      | with_reducible apply State.onlyIn.step (State.translate_only _ _ _ _ _)
      | with_reducible apply State.onlyIn.step (State.setTile_only _ _ _)
      | with_reducible refine .trans ?_ (ih _ _))
  | succ k ih =>
    rw [State.tileFetch]
    repeat' (first
      | intro _
      | ((with_reducible apply Comp.sub_ok); exact rfl)
      | with_reducible apply State.onlyIn.refl
      | with_reducible assumption
      | with_reducible apply State.onlyIn.foldl
      | with_reducible apply State.onlyIn.foldl2
      | dsimp only
      | (split <;> first | (rename_i heq; have hx := congrArg (fun z => z.2) heq; dsimp only at hx; subst hx) | (rename_i heq; have hx := congrArg (fun z => z.2.2) heq; dsimp only at hx; subst hx) | skip)
      | split
      | with_reducible apply State.onlyIn.step (State.tileFault_only _ _ _ _ _)
      | with_reducible apply State.onlyIn.step (State.sendAcc_only _ _ _)
      | with_reducible apply State.onlyIn.step (State.xltFault_only _ _ _ _ _ _ _ _)
      | with_reducible apply State.onlyIn.step (State.translate_only _ _ _ _ _)
      | with_reducible apply State.onlyIn.step (State.setTile_only _ _ _)
      | with_reducible refine .trans ?_ (ih _ _))

theorem State.tileNext_only (s : State) (t : Nat) :
    State.onlyIn [.freeCtr, .regs, .fab, .tiles, .sites, .cmds, .xlt, .ports, .boot, .fid, .unread, .out] s (State.tileNext s t) := by
  unfold State.tileNext
  repeat' (first
    | intro _
    | ((with_reducible apply Comp.sub_ok); exact rfl)
    | with_reducible apply State.onlyIn.refl
    | with_reducible assumption
    | with_reducible apply State.onlyIn.foldl
    | dsimp only
    | split
    | with_reducible apply State.onlyIn.step (State.tileFetch_only _ _ _))

end Sys2Proof.Machine
end

