-- ==== Sys2Proof/Laws/OnlyTileRun.lean ====
section
/-! SUPPORT. What each operation of Machine/TileRun.lean can change: the parts of the state outside the list are as before. -/

set_option linter.all false

namespace Sys2Proof.Machine

theorem State.pageRead_only (t : Nat) (s : State) (dva : Nat) :
    State.onlyIn [.freeCtr, .regs, .fab, .tiles, .sites, .xlt, .ports, .boot, .unread, .out] s (State.pageRead t s dva) := by
  unfold State.pageRead
  repeat' (first
    | intro _
    | ((with_reducible apply Comp.sub_ok); exact rfl)
    | with_reducible apply State.onlyIn.refl
    | with_reducible assumption
    | with_reducible apply State.onlyIn.foldl
    | with_reducible apply State.onlyIn.foldl2
    | dsimp only
    | (split <;> first | (rename_i heq; have hx := congrArg (fun z => z.2) heq; dsimp only at hx; subst hx) | (rename_i heq; have hx := congrArg (fun z => z.2.2) heq; dsimp only at hx; subst hx) | skip)
    | split
    | with_reducible apply State.onlyIn.step (State.translate_only _ _ _ _ _)
    | with_reducible apply State.onlyIn.step (State.cohTouch_only _ _ _ _ _)
    | with_reducible apply State.onlyIn.step (State.setTile_only _ _ _))

theorem State.tileAccs_only (s : State) (t : Nat) (l : List DvaAcc) (bytes : Nat) :
    State.onlyIn [.freeCtr, .regs, .fab, .sites, .xlt, .ports, .boot, .unread, .out] s (State.tileAccs s t l bytes) := by
  unfold State.tileAccs
  repeat' (first
    | intro _
    | ((with_reducible apply Comp.sub_ok); exact rfl)
    | with_reducible apply State.onlyIn.refl
    | with_reducible assumption
    | with_reducible apply State.onlyIn.foldl
    | dsimp only
    | split
    | with_reducible apply State.onlyIn.step (State.issueAccs_only _ _ _)
    | with_reducible apply State.onlyIn.step (State.fidEvent_only _ _ _ _ _ _ _))

theorem State.kvStop_only (s : State) (t : Nat) (idx : Nat) (r : PageRes) :
    State.onlyIn [.regs, .fab, .tiles, .cmds, .xlt, .ports, .fid, .unread, .out] s (State.kvStop s t idx r) := by
  unfold State.kvStop
  repeat' (first
    | intro _
    | ((with_reducible apply Comp.sub_ok); exact rfl)
    | with_reducible apply State.onlyIn.refl
    | with_reducible assumption
    | with_reducible apply State.onlyIn.foldl
    | dsimp only
    | split
    | with_reducible apply State.onlyIn.step (State.tileFault_only _ _ _ _ _)
    | with_reducible apply State.onlyIn.step (State.xltFault_only _ _ _ _ _ _ _ _)
    | with_reducible apply State.onlyIn.step (State.deny_only _ _ _ _ _))

theorem State.startLoad_only (s : State) (t : Nat) (o : IssuedOp) :
    State.onlyIn [.freeCtr, .regs, .fab, .tiles, .sites, .xlt, .ports, .boot, .unread, .out] s (State.startLoad s t o) := by
  unfold State.startLoad
  repeat' (first
    | intro _
    | ((with_reducible apply Comp.sub_ok); exact rfl)
    | with_reducible apply State.onlyIn.refl
    | with_reducible assumption
    | with_reducible apply State.onlyIn.foldl
    | dsimp only
    | split
    | with_reducible apply State.onlyIn.step (State.tileAccs_only _ _ _ _)
    | with_reducible apply State.onlyIn.step (State.bump_only _)
    | with_reducible apply State.onlyIn.step (State.setTile_only _ _ _))

theorem State.startStore_only (s : State) (t : Nat) (o : IssuedOp) :
    State.onlyIn [.freeCtr, .regs, .fab, .tiles, .sites, .xlt, .ports, .boot, .unread, .out] s (State.startStore s t o) := by
  unfold State.startStore
  repeat' (first
    | intro _
    | ((with_reducible apply Comp.sub_ok); exact rfl)
    | with_reducible apply State.onlyIn.refl
    | with_reducible assumption
    | with_reducible apply State.onlyIn.foldl
    | dsimp only
    | split
    | with_reducible apply State.onlyIn.step (State.tileAccs_only _ _ _ _)
    | with_reducible apply State.onlyIn.step (State.setTile_only _ _ _))

theorem State.startStoreKv_only (s : State) (t : Nat) (o : IssuedOp) :
    State.onlyIn [.freeCtr, .regs, .fab, .tiles, .sites, .cmds, .xlt, .ports, .boot, .fid, .unread, .out] s (State.startStoreKv s t o) := by
  unfold State.startStoreKv
  repeat' (first
    | intro _
    | ((with_reducible apply Comp.sub_ok); exact rfl)
    | with_reducible apply State.onlyIn.refl
    | with_reducible assumption
    | with_reducible apply State.onlyIn.foldl
    | dsimp only
    | split
    | with_reducible apply State.onlyIn.step (State.kvStop_only _ _ _ _)
    | with_reducible apply State.onlyIn.step (State.tileAccs_only _ _ _ _)
    | with_reducible apply State.onlyIn.step (State.pageRead_only _ _ _)
    | with_reducible apply State.onlyIn.step (State.tileFault_only _ _ _ _ _)
    | with_reducible apply State.onlyIn.step (State.setTile_only _ _ _))

theorem State.startGather0_only (s : State) (t : Nat) (o : IssuedOp) :
    State.onlyIn [.freeCtr, .regs, .fab, .tiles, .sites, .xlt, .ports, .boot, .unread, .out] s (State.startGather0 s t o) := by
  unfold State.startGather0
  repeat' (first
    | intro _
    | ((with_reducible apply Comp.sub_ok); exact rfl)
    | with_reducible apply State.onlyIn.refl
    | with_reducible assumption
    | with_reducible apply State.onlyIn.foldl
    | dsimp only
    | split
    | with_reducible apply State.onlyIn.step (State.tileAccs_only _ _ _ _)
    | with_reducible apply State.onlyIn.step (State.setTile_only _ _ _))

theorem State.startGather1_only (s : State) (t : Nat) (o : IssuedOp) :
    State.onlyIn [.freeCtr, .regs, .fab, .tiles, .sites, .cmds, .xlt, .ports, .boot, .fid, .unread, .out] s (State.startGather1 s t o) := by
  unfold State.startGather1
  repeat' (first
    | intro _
    | ((with_reducible apply Comp.sub_ok); exact rfl)
    | with_reducible apply State.onlyIn.refl
    | with_reducible assumption
    | with_reducible apply State.onlyIn.foldl
    | dsimp only
    | split
    | with_reducible apply State.onlyIn.step (State.kvStop_only _ _ _ _)
    | with_reducible apply State.onlyIn.step (State.tileAccs_only _ _ _ _)
    | with_reducible apply State.onlyIn.step (State.pageRead_only _ _ _)
    | with_reducible apply State.onlyIn.step (State.tileFault_only _ _ _ _ _)
    | with_reducible apply State.onlyIn.step (State.setTile_only _ _ _))

theorem State.startAtom_only (s : State) (t : Nat) (o : IssuedOp) :
    State.onlyIn [.tiles] s (State.startAtom s t o) := by
  unfold State.startAtom
  repeat' (first
    | intro _
    | ((with_reducible apply Comp.sub_ok); exact rfl)
    | with_reducible apply State.onlyIn.refl
    | with_reducible assumption
    | with_reducible apply State.onlyIn.foldl
    | dsimp only
    | split
    | with_reducible apply State.onlyIn.step (State.modTile_only _ _ _)
    | with_reducible apply State.onlyIn.step (State.setTile_only _ _ _))

theorem State.startSignal_only (s : State) (t : Nat) (o : IssuedOp) :
    State.onlyIn [.regs, .fab, .tiles, .cleats, .cmds, .xlt, .ports, .fid, .out] s (State.startSignal s t o) := by
  unfold State.startSignal
  repeat' (first
    | intro _
    | ((with_reducible apply Comp.sub_ok); exact rfl)
    | with_reducible apply State.onlyIn.refl
    | with_reducible assumption
    | with_reducible apply State.onlyIn.foldl
    | dsimp only
    | split
    | with_reducible apply State.onlyIn.step (State.tileFault_only _ _ _ _ _)
    | with_reducible apply State.onlyIn.step (State.sendInc_only _ _ _ _)
    | with_reducible apply State.onlyIn.step (State.setTile_only _ _ _))

theorem State.tryPut_only (s : State) (t : Nat) (o : IssuedOp) :
    State.onlyIn [.tiles, .cleats, .lan] s (State.tryPut s t o) := by
  unfold State.tryPut
  repeat' (first
    | intro _
    | ((with_reducible apply Comp.sub_ok); exact rfl)
    | with_reducible apply State.onlyIn.refl
    | with_reducible assumption
    | with_reducible apply State.onlyIn.foldl
    | with_reducible apply State.onlyIn.foldl2
    | dsimp only
    | (split <;> first | (rename_i heq; have hx := congrArg (fun z => z.2) heq; dsimp only at hx; subst hx) | (rename_i heq; have hx := congrArg (fun z => z.2.2) heq; dsimp only at hx; subst hx) | skip)
    | split
    | with_reducible apply State.onlyIn.step (State.pumpPut_only _ _ _)
    | with_reducible apply State.onlyIn.step (State.takeTracker_only (by assumption))
    | with_reducible apply State.onlyIn.step (State.setTile_only _ _ _))

theorem State.startPut_only (s : State) (t : Nat) (o : IssuedOp) :
    State.onlyIn [.regs, .fab, .tiles, .cleats, .lan, .cmds, .xlt, .ports, .fid, .unread, .out] s (State.startPut s t o) := by
  unfold State.startPut
  repeat' (first
    | intro _
    | ((with_reducible apply Comp.sub_ok); exact rfl)
    | with_reducible apply State.onlyIn.refl
    | with_reducible assumption
    | with_reducible apply State.onlyIn.foldl
    | dsimp only
    | split
    | with_reducible apply State.onlyIn.step (State.tryPut_only _ _ _)
    | with_reducible apply State.onlyIn.step (State.tileFault_only _ _ _ _ _)
    | with_reducible apply State.onlyIn.step (State.recordRefusal_only _ _ _ _ _)
    | with_reducible apply State.onlyIn.step (State.sendInc_only _ _ _ _)
    | with_reducible apply State.onlyIn.step (State.setTile_only _ _ _))

theorem State.startOp_only (s : State) (t : Nat) (o : IssuedOp) :
    State.onlyIn [.freeCtr, .regs, .fab, .tiles, .cleats, .sites, .lan, .cmds, .xlt, .ports, .boot, .fid, .unread, .out] s (State.startOp s t o) := by
  unfold State.startOp
  repeat' (first
    | intro _
    | ((with_reducible apply Comp.sub_ok); exact rfl)
    | with_reducible apply State.onlyIn.refl
    | with_reducible assumption
    | with_reducible apply State.onlyIn.foldl
    | dsimp only
    | split
    | with_reducible apply State.onlyIn.step (State.startPut_only _ _ _)
    | with_reducible apply State.onlyIn.step (State.startSignal_only _ _ _)
    | with_reducible apply State.onlyIn.step (State.startAtom_only _ _ _)
    | with_reducible apply State.onlyIn.step (State.startGather1_only _ _ _)
    | with_reducible apply State.onlyIn.step (State.startGather0_only _ _ _)
    | with_reducible apply State.onlyIn.step (State.startStoreKv_only _ _ _)
    | with_reducible apply State.onlyIn.step (State.startStore_only _ _ _)
    | with_reducible apply State.onlyIn.step (State.startLoad_only _ _ _)
    | with_reducible apply State.onlyIn.step (State.setTile_only _ _ _))

theorem State.startReady_only (s : State) (t : Nat) :
    State.onlyIn [.freeCtr, .regs, .fab, .tiles, .cleats, .sites, .lan, .cmds, .xlt, .ports, .boot, .fid, .unread, .out] s (State.startReady s t) := by
  unfold State.startReady
  repeat' (first
    | intro _
    | ((with_reducible apply Comp.sub_ok); exact rfl)
    | with_reducible apply State.onlyIn.refl
    | with_reducible assumption
    | with_reducible apply State.onlyIn.foldl
    | dsimp only
    | split
    | with_reducible apply State.onlyIn.step (State.startOp_only _ _ _))

theorem State.retryPuts_only (s : State) :
    State.onlyIn [.regs, .fab, .tiles, .cleats, .lan, .cmds, .xlt, .ports, .fid, .unread, .out] s (State.retryPuts s) := by
  unfold State.retryPuts
  repeat' (first
    | intro _
    | ((with_reducible apply Comp.sub_ok); exact rfl)
    | with_reducible apply State.onlyIn.refl
    | with_reducible assumption
    | with_reducible apply State.onlyIn.foldl
    | dsimp only
    | split
    | with_reducible apply State.onlyIn.step (State.tryPut_only _ _ _)
    | with_reducible apply State.onlyIn.step (State.tileFault_only _ _ _ _ _)
    | with_reducible apply State.onlyIn.step (State.recordRefusal_only _ _ _ _ _))

theorem State.guardStop_only (s : State) (t : Nat) :
    State.onlyIn [.tiles, .cmds] s (State.guardStop s t) := by
  unfold State.guardStop
  repeat' (first
    | intro _
    | ((with_reducible apply Comp.sub_ok); exact rfl)
    | with_reducible apply State.onlyIn.refl
    | with_reducible assumption
    | with_reducible apply State.onlyIn.foldl
    | dsimp only
    | split
    | with_reducible apply State.onlyIn.step (State.finish_only _ _ _ _)
    | with_reducible apply State.onlyIn.step (State.setTile_only _ _ _))

theorem State.actTrip_only (s : State) (t : Nat) (idx : Nat) :
    State.onlyIn [.tiles, .cmds] s (State.actTrip s t idx) := by
  unfold State.actTrip
  repeat' (first
    | intro _
    | ((with_reducible apply Comp.sub_ok); exact rfl)
    | with_reducible apply State.onlyIn.refl
    | with_reducible assumption
    | with_reducible apply State.onlyIn.foldl
    | dsimp only
    | split
    | with_reducible apply State.onlyIn.step (State.guardStop_only _ _)
    | with_reducible apply State.onlyIn.step (State.setTile_only _ _ _))

theorem State.evalSeg_only (s : State) (t : Nat) (q : Nat) (idx : Nat) :
    State.onlyIn [.regs, .tiles, .cmds, .fid] s (State.evalSeg s t q idx) := by
  unfold State.evalSeg
  repeat' (first
    | intro _
    | ((with_reducible apply Comp.sub_ok); exact rfl)
    | with_reducible apply State.onlyIn.refl
    | with_reducible assumption
    | with_reducible apply State.onlyIn.foldl
    | dsimp only
    | split
    | with_reducible apply State.onlyIn.step (State.actTrip_only _ _ _)
    | with_reducible apply State.onlyIn.step (State.trigger_only _ _ _ _ _ _)
    | with_reducible apply State.onlyIn.step (State.fidEvent_only _ _ _ _ _ _ _)
    | with_reducible apply State.onlyIn.step (State.setTile_only _ _ _))

theorem State.settle_only (s : State) (t : Nat) :
    State.onlyIn [.regs, .fab, .tiles, .cmds, .xlt, .ports, .fid, .out] s (State.settle s t) := by
  unfold State.settle
  repeat' (first
    | intro _
    | ((with_reducible apply Comp.sub_ok); exact rfl)
    | with_reducible apply State.onlyIn.refl
    | with_reducible assumption
    | with_reducible apply State.onlyIn.foldl
    | dsimp only
    | split
    | with_reducible apply State.onlyIn.step (State.tileFault_only _ _ _ _ _)
    | with_reducible apply State.onlyIn.step (State.dropTileReqs_only _ _)
    | with_reducible apply State.onlyIn.step (State.setTile_only _ _ _))

theorem State.tileGo_only (s : State) (t : Nat) :
    State.onlyIn [.freeCtr, .regs, .fab, .tiles, .cleats, .sites, .lan, .cmds, .xlt, .ports, .boot, .fid, .unread, .out] s (State.tileGo s t) := by
  unfold State.tileGo
  repeat' (first
    | intro _
    | ((with_reducible apply Comp.sub_ok); exact rfl)
    | with_reducible apply State.onlyIn.refl
    | with_reducible assumption
    | with_reducible apply State.onlyIn.foldl
    | dsimp only
    | split
    | with_reducible apply State.onlyIn.step (State.settle_only _ _)
    | with_reducible apply State.onlyIn.step (State.startReady_only _ _)
    | with_reducible apply State.onlyIn.step (State.tileNext_only _ _))

theorem State.spEcc_only (s : State) (t : Nat) (idx : Nat) :
    State.onlyIn [.regs, .fab, .tiles, .cmds, .xlt, .ports, .boot, .fid, .out] s (State.spEcc s t idx) := by
  unfold State.spEcc
  repeat' (first
    | intro _
    | ((with_reducible apply Comp.sub_ok); exact rfl)
    | with_reducible apply State.onlyIn.refl
    | with_reducible assumption
    | with_reducible apply State.onlyIn.foldl
    | dsimp only
    | split
    | with_reducible apply State.onlyIn.step (State.tileFault_only _ _ _ _ _)
    | with_reducible apply State.onlyIn.step (State.modTile_only _ _ _)
    | with_reducible apply State.onlyIn.step (State.withdraw_only _ _))

theorem State.issueOp_only (s : State) (t : Nat) (c : Nat × Entry) :
    State.onlyIn [.freeCtr, .regs, .fab, .tiles, .cleats, .sites, .lan, .cmds, .xlt, .ports, .boot, .fid, .unread, .out] s (State.issueOp s t c) := by
  unfold State.issueOp
  repeat' (first
    | intro _
    | ((with_reducible apply Comp.sub_ok); exact rfl)
    | with_reducible apply State.onlyIn.refl
    | with_reducible assumption
    | with_reducible apply State.onlyIn.foldl
    | dsimp only
    | split
    | with_reducible apply State.onlyIn.step (State.spEcc_only _ _ _)
    | with_reducible apply State.onlyIn.step (State.tileGo_only _ _)
    | with_reducible apply State.onlyIn.step (State.tileFault_only _ _ _ _ _)
    | with_reducible apply State.onlyIn.step (State.setTile_only _ _ _))

theorem State.issueRow_only (s : State) (t : Nat) (op : Nat) :
    State.onlyIn [.freeCtr, .regs, .fab, .tiles, .cleats, .sites, .lan, .cmds, .xlt, .ports, .boot, .fid, .unread, .out] s (State.issueRow s t op) := by
  unfold State.issueRow
  repeat' (first
    | intro _
    | ((with_reducible apply Comp.sub_ok); exact rfl)
    | with_reducible apply State.onlyIn.refl
    | with_reducible assumption
    | with_reducible apply State.onlyIn.foldl
    | dsimp only
    | split
    | with_reducible apply State.onlyIn.step (State.issueOp_only _ _ _))

theorem State.eccRow_only (s : State) (t : Nat) (op : Nat) :
    State.onlyIn [.freeCtr, .regs, .fab, .tiles, .cleats, .sites, .lan, .cmds, .xlt, .ports, .boot, .fid, .unread, .out] s (State.eccRow s t op) := by
  unfold State.eccRow
  repeat' (first
    | intro _
    | ((with_reducible apply Comp.sub_ok); exact rfl)
    | with_reducible apply State.onlyIn.refl
    | with_reducible assumption
    | with_reducible apply State.onlyIn.foldl
    | dsimp only
    | split
    | with_reducible apply State.onlyIn.step (State.issueOp_only _ _ _)
    | with_reducible apply State.onlyIn.step (State.spEcc_only _ _ _)
    | with_reducible apply State.onlyIn.step (State.modTile_only _ _ _))

theorem State.countOp_only (s : State) (t : Nat) (o : IssuedOp) (waits : Nat) :
    State.onlyIn [.regs] s (State.countOp s t o waits) := by
  unfold State.countOp
  repeat' (first
    | intro _
    | ((with_reducible apply Comp.sub_ok); exact rfl)
    | with_reducible apply State.onlyIn.refl
    | with_reducible assumption
    | with_reducible apply State.onlyIn.foldl
    | dsimp only
    | split
    | with_reducible apply State.onlyIn.step (State.fidEvent_only _ _ _ _ _ _ _)
    | with_reducible apply State.onlyIn.step (State.fadd_only _ _ _ _ _))

theorem State.completeOp_only (s : State) (t : Nat) (o : IssuedOp) (waits : Nat) :
    State.onlyIn [.freeCtr, .regs, .fab, .tiles, .cleats, .sites, .lan, .cmds, .xlt, .ports, .boot, .fid, .unread, .out] s (State.completeOp s t o waits) := by
  unfold State.completeOp
  repeat' (first
    | intro _
    | ((with_reducible apply Comp.sub_ok); exact rfl)
    | with_reducible apply State.onlyIn.refl
    | with_reducible assumption
    | with_reducible apply State.onlyIn.foldl
    | dsimp only
    | split
    | with_reducible apply State.onlyIn.step (State.countOp_only _ _ _ _)
    | with_reducible apply State.onlyIn.step (State.tileGo_only _ _)
    | with_reducible apply State.onlyIn.step (State.evalSeg_only _ _ _ _)
    | with_reducible apply State.onlyIn.step (State.modTile_only _ _ _)
    | with_reducible apply State.onlyIn.step (State.bump_only _)
    | with_reducible apply State.onlyIn.step (State.setTile_only _ _ _))

end Sys2Proof.Machine
end

