-- ==== Sys2Proof/Laws/OnlyTiles.lean ====
section
/-! SUPPORT. What each operation of Machine/Tiles.lean can change: the parts of the state outside the list are as before. -/

set_option linter.all false

namespace Sys2Proof.Machine

theorem State.beginWindow_only (s : State) (h : Half) :
    State.onlyIn [.boot] s (State.beginWindow s h) := by
  unfold State.beginWindow
  repeat' (first
    | intro _
    | ((with_reducible apply Comp.sub_ok); exact rfl)
    | with_reducible apply State.onlyIn.refl
    | with_reducible assumption
    | with_reducible apply State.onlyIn.foldl
    | dsimp only
    | split
    | with_reducible apply State.onlyIn.step (State.setHalf_only _ _ _))

theorem execHubRateWindow_only {west : BitVec 16} {east : BitVec 16} {s : State} {t1 : State} (h1 : execHubRateWindow west east s = .next t1) :
    State.onlyIn [.regs, .boot] s t1 := by
  unfold execHubRateWindow at h1
  repeat' (first | with_reducible apply atUnit_only h1 | with_reducible apply whenever_only h1 | with_reducible apply next_only h1 | (dsimp only at h1) | split at h1 | (simp only [reduceCtorEq] at h1; done))
  all_goals
    repeat' (first
      | intro _
      | ((with_reducible apply Comp.sub_ok); exact rfl)
      | with_reducible apply State.onlyIn.refl
      | with_reducible assumption
      | with_reducible apply State.onlyIn.foldl
      | dsimp only
      | split
      | with_reducible apply State.onlyIn.step (State.beginWindow_only _ _)
      | with_reducible apply State.onlyIn.step (State.fset_only _ _ _ _ _))

theorem execDispatchRecord_only {t : Fin 96} {s : State} {t1 : State} (h1 : execDispatchRecord t s = .next t1) :
    State.onlyIn [.freeCtr, .regs, .fab, .tiles, .sites, .cmds, .xlt, .ports, .boot, .fid, .unread, .out] s t1 := by
  unfold execDispatchRecord at h1
  repeat' (first | with_reducible apply atUnit_only h1 | with_reducible apply whenever_only h1 | with_reducible apply next_only h1 | (dsimp only at h1) | split at h1 | (simp only [reduceCtorEq] at h1; done))
  all_goals
    repeat' (first
      | intro _
      | ((with_reducible apply Comp.sub_ok); exact rfl)
      | with_reducible apply State.onlyIn.refl
      | with_reducible assumption
      | with_reducible apply State.onlyIn.foldl
      | dsimp only
      | split
      | with_reducible apply State.onlyIn.step (State.tileNext_only _ _)
      | with_reducible apply State.onlyIn.step (State.setTile_only _ _ _))

theorem execNop_only {t : Fin 96} {s : State} {t1 : State} (h1 : execNop t s = .next t1) :
    State.onlyIn [.freeCtr, .regs, .fab, .tiles, .cleats, .sites, .lan, .cmds, .xlt, .ports, .boot, .fid, .unread, .out] s t1 := by
  unfold execNop at h1
  repeat' (first | with_reducible apply atUnit_only h1 | with_reducible apply whenever_only h1 | with_reducible apply next_only h1 | (dsimp only at h1) | split at h1 | (simp only [reduceCtorEq] at h1; done))
  all_goals
    repeat' (first
      | intro _
      | ((with_reducible apply Comp.sub_ok); exact rfl)
      | with_reducible apply State.onlyIn.refl
      | with_reducible assumption
      | with_reducible apply State.onlyIn.foldl
      | dsimp only
      | split
      | with_reducible apply State.onlyIn.step (State.issueRow_only _ _ _))

theorem execLoad_only {t : Fin 96} {s : State} {t1 : State} (h1 : execLoad t s = .next t1) :
    State.onlyIn [.freeCtr, .regs, .fab, .tiles, .cleats, .sites, .lan, .cmds, .xlt, .ports, .boot, .fid, .unread, .out] s t1 := by
  unfold execLoad at h1
  repeat' (first | with_reducible apply atUnit_only h1 | with_reducible apply whenever_only h1 | with_reducible apply next_only h1 | (dsimp only at h1) | split at h1 | (simp only [reduceCtorEq] at h1; done))
  all_goals
    repeat' (first
      | intro _
      | ((with_reducible apply Comp.sub_ok); exact rfl)
      | with_reducible apply State.onlyIn.refl
      | with_reducible assumption
      | with_reducible apply State.onlyIn.foldl
      | dsimp only
      | split
      | with_reducible apply State.onlyIn.step (State.issueRow_only _ _ _))

theorem execStore_only {t : Fin 96} {ecc : Bool} {s : State} {t1 : State} (h1 : execStore t ecc s = .next t1) :
    State.onlyIn [.freeCtr, .regs, .fab, .tiles, .cleats, .sites, .lan, .cmds, .xlt, .ports, .boot, .fid, .unread, .out] s t1 := by
  unfold execStore at h1
  repeat' (first | with_reducible apply atUnit_only h1 | with_reducible apply whenever_only h1 | with_reducible apply next_only h1 | (dsimp only at h1) | split at h1 | (simp only [reduceCtorEq] at h1; done))
  all_goals
    repeat' (first
      | intro _
      | ((with_reducible apply Comp.sub_ok); exact rfl)
      | with_reducible apply State.onlyIn.refl
      | with_reducible assumption
      | with_reducible apply State.onlyIn.foldl
      | dsimp only
      | split
      | with_reducible apply State.onlyIn.step (State.eccRow_only _ _ _)
      | with_reducible apply State.onlyIn.step (State.issueRow_only _ _ _))

theorem execGather_only {t : Fin 96} {s : State} {t1 : State} (h1 : execGather t s = .next t1) :
    State.onlyIn [.freeCtr, .regs, .fab, .tiles, .cleats, .sites, .lan, .cmds, .xlt, .ports, .boot, .fid, .unread, .out] s t1 := by
  unfold execGather at h1
  repeat' (first | with_reducible apply atUnit_only h1 | with_reducible apply whenever_only h1 | with_reducible apply next_only h1 | (dsimp only at h1) | split at h1 | (simp only [reduceCtorEq] at h1; done))
  all_goals
    repeat' (first
      | intro _
      | ((with_reducible apply Comp.sub_ok); exact rfl)
      | with_reducible apply State.onlyIn.refl
      | with_reducible assumption
      | with_reducible apply State.onlyIn.foldl
      | dsimp only
      | split
      | with_reducible apply State.onlyIn.step (State.issueRow_only _ _ _))

theorem execMma_only {t : Fin 96} {ecc : Bool} {s : State} {t1 : State} (h1 : execMma t ecc s = .next t1) :
    State.onlyIn [.freeCtr, .regs, .fab, .tiles, .cleats, .sites, .lan, .cmds, .xlt, .ports, .boot, .fid, .unread, .out] s t1 := by
  unfold execMma at h1
  repeat' (first | with_reducible apply atUnit_only h1 | with_reducible apply whenever_only h1 | with_reducible apply next_only h1 | (dsimp only at h1) | split at h1 | (simp only [reduceCtorEq] at h1; done))
  all_goals
    repeat' (first
      | intro _
      | ((with_reducible apply Comp.sub_ok); exact rfl)
      | with_reducible apply State.onlyIn.refl
      | with_reducible assumption
      | with_reducible apply State.onlyIn.foldl
      | dsimp only
      | split
      | with_reducible apply State.onlyIn.step (State.eccRow_only _ _ _)
      | with_reducible apply State.onlyIn.step (State.issueRow_only _ _ _))

theorem execVec_only {t : Fin 96} {ecc : Bool} {s : State} {t1 : State} (h1 : execVec t ecc s = .next t1) :
    State.onlyIn [.freeCtr, .regs, .fab, .tiles, .cleats, .sites, .lan, .cmds, .xlt, .ports, .boot, .fid, .unread, .out] s t1 := by
  unfold execVec at h1
  repeat' (first | with_reducible apply atUnit_only h1 | with_reducible apply whenever_only h1 | with_reducible apply next_only h1 | (dsimp only at h1) | split at h1 | (simp only [reduceCtorEq] at h1; done))
  all_goals
    repeat' (first
      | intro _
      | ((with_reducible apply Comp.sub_ok); exact rfl)
      | with_reducible apply State.onlyIn.refl
      | with_reducible assumption
      | with_reducible apply State.onlyIn.foldl
      | dsimp only
      | split
      | with_reducible apply State.onlyIn.step (State.eccRow_only _ _ _)
      | with_reducible apply State.onlyIn.step (State.issueRow_only _ _ _))

theorem execQuant_only {t : Fin 96} {ecc : Bool} {s : State} {t1 : State} (h1 : execQuant t ecc s = .next t1) :
    State.onlyIn [.freeCtr, .regs, .fab, .tiles, .cleats, .sites, .lan, .cmds, .xlt, .ports, .boot, .fid, .unread, .out] s t1 := by
  unfold execQuant at h1
  repeat' (first | with_reducible apply atUnit_only h1 | with_reducible apply whenever_only h1 | with_reducible apply next_only h1 | (dsimp only at h1) | split at h1 | (simp only [reduceCtorEq] at h1; done))
  all_goals
    repeat' (first
      | intro _
      | ((with_reducible apply Comp.sub_ok); exact rfl)
      | with_reducible apply State.onlyIn.refl
      | with_reducible assumption
      | with_reducible apply State.onlyIn.foldl
      | dsimp only
      | split
      | with_reducible apply State.onlyIn.step (State.eccRow_only _ _ _)
      | with_reducible apply State.onlyIn.step (State.issueRow_only _ _ _))

theorem State.reduceRow_only (s : State) (t : Nat) :
    State.onlyIn [.freeCtr, .regs, .fab, .tiles, .cleats, .sites, .lan, .cmds, .xlt, .ports, .boot, .fid, .unread, .out] s (State.reduceRow s t) := by
  unfold State.reduceRow
  repeat' (first
    | intro _
    | ((with_reducible apply Comp.sub_ok); exact rfl)
    | with_reducible apply State.onlyIn.refl
    | with_reducible assumption
    | with_reducible apply State.onlyIn.foldl
    | dsimp only
    | split
    | with_reducible apply State.onlyIn.step (State.issueOp_only _ _ _)
    | with_reducible apply State.onlyIn.step (State.tileFault_only _ _ _ _ _))

theorem execReduce_only {t : Fin 96} {s : State} {t1 : State} (h1 : execReduce t s = .next t1) :
    State.onlyIn [.freeCtr, .regs, .fab, .tiles, .cleats, .sites, .lan, .cmds, .xlt, .ports, .boot, .fid, .unread, .out] s t1 := by
  unfold execReduce at h1
  repeat' (first | with_reducible apply atUnit_only h1 | with_reducible apply whenever_only h1 | with_reducible apply next_only h1 | (dsimp only at h1) | split at h1 | (simp only [reduceCtorEq] at h1; done))
  all_goals
    repeat' (first
      | intro _
      | ((with_reducible apply Comp.sub_ok); exact rfl)
      | with_reducible apply State.onlyIn.refl
      | with_reducible assumption
      | with_reducible apply State.onlyIn.foldl
      | dsimp only
      | split
      | with_reducible apply State.onlyIn.step (State.reduceRow_only _ _))

theorem execAtom_only {t : Fin 96} {s : State} {t1 : State} (h1 : execAtom t s = .next t1) :
    State.onlyIn [.freeCtr, .regs, .fab, .tiles, .cleats, .sites, .lan, .cmds, .xlt, .ports, .boot, .fid, .unread, .out] s t1 := by
  unfold execAtom at h1
  repeat' (first | with_reducible apply atUnit_only h1 | with_reducible apply whenever_only h1 | with_reducible apply next_only h1 | (dsimp only at h1) | split at h1 | (simp only [reduceCtorEq] at h1; done))
  all_goals
    repeat' (first
      | intro _
      | ((with_reducible apply Comp.sub_ok); exact rfl)
      | with_reducible apply State.onlyIn.refl
      | with_reducible assumption
      | with_reducible apply State.onlyIn.foldl
      | dsimp only
      | split
      | with_reducible apply State.onlyIn.step (State.issueRow_only _ _ _))

theorem State.passOp_only (s : State) (t : Nat) (c : Nat × Entry) (next : Nat) :
    State.onlyIn [.freeCtr, .regs, .fab, .tiles, .cleats, .sites, .lan, .cmds, .xlt, .ports, .boot, .fid, .unread, .out] s (State.passOp s t c next) := by
  unfold State.passOp
  repeat' (first
    | intro _
    | ((with_reducible apply Comp.sub_ok); exact rfl)
    | with_reducible apply State.onlyIn.refl
    | with_reducible assumption
    | with_reducible apply State.onlyIn.foldl
    | dsimp only
    | split
    | with_reducible apply State.onlyIn.step (State.tileGo_only _ _)
    | with_reducible apply State.onlyIn.step (State.evalSeg_only _ _ _ _)
    | with_reducible apply State.onlyIn.step (State.setTile_only _ _ _))

theorem State.waitRow_only (s : State) (t : Nat) :
    State.onlyIn [.freeCtr, .regs, .fab, .tiles, .cleats, .sites, .lan, .cmds, .xlt, .ports, .boot, .fid, .unread, .out] s (State.waitRow s t) := by
  unfold State.waitRow
  repeat' (first
    | intro _
    | ((with_reducible apply Comp.sub_ok); exact rfl)
    | with_reducible apply State.onlyIn.refl
    | with_reducible assumption
    | with_reducible apply State.onlyIn.foldl
    | dsimp only
    | split
    | with_reducible apply State.onlyIn.step (State.passOp_only _ _ _ _)
    | with_reducible apply State.onlyIn.step (State.tileFault_only _ _ _ _ _)
    | with_reducible apply State.onlyIn.step (State.modTile_only _ _ _)
    | with_reducible apply State.onlyIn.step (State.trace_only _ _ _ _ _ _ _ _ _))

theorem execWait_only {t : Fin 96} {s : State} {t1 : State} (h1 : execWait t s = .next t1) :
    State.onlyIn [.freeCtr, .regs, .fab, .tiles, .cleats, .sites, .lan, .cmds, .xlt, .ports, .boot, .fid, .unread, .out] s t1 := by
  unfold execWait at h1
  repeat' (first | with_reducible apply atUnit_only h1 | with_reducible apply whenever_only h1 | with_reducible apply next_only h1 | (dsimp only at h1) | split at h1 | (simp only [reduceCtorEq] at h1; done))
  all_goals
    repeat' (first
      | intro _
      | ((with_reducible apply Comp.sub_ok); exact rfl)
      | with_reducible apply State.onlyIn.refl
      | with_reducible assumption
      | with_reducible apply State.onlyIn.foldl
      | dsimp only
      | split
      | with_reducible apply State.onlyIn.step (State.waitRow_only _ _))

theorem State.signalRow_only (s : State) (t : Nat) :
    State.onlyIn [.freeCtr, .regs, .fab, .tiles, .cleats, .sites, .lan, .cmds, .xlt, .ports, .boot, .fid, .unread, .out] s (State.signalRow s t) := by
  unfold State.signalRow
  repeat' (first
    | intro _
    | ((with_reducible apply Comp.sub_ok); exact rfl)
    | with_reducible apply State.onlyIn.refl
    | with_reducible assumption
    | with_reducible apply State.onlyIn.foldl
    | dsimp only
    | split
    | with_reducible apply State.onlyIn.step (State.issueOp_only _ _ _)
    | with_reducible apply State.onlyIn.step (State.tileFault_only _ _ _ _ _))

theorem execSignal_only {t : Fin 96} {s : State} {t1 : State} (h1 : execSignal t s = .next t1) :
    State.onlyIn [.freeCtr, .regs, .fab, .tiles, .cleats, .sites, .lan, .cmds, .xlt, .ports, .boot, .fid, .unread, .out] s t1 := by
  unfold execSignal at h1
  repeat' (first | with_reducible apply atUnit_only h1 | with_reducible apply whenever_only h1 | with_reducible apply next_only h1 | (dsimp only at h1) | split at h1 | (simp only [reduceCtorEq] at h1; done))
  all_goals
    repeat' (first
      | intro _
      | ((with_reducible apply Comp.sub_ok); exact rfl)
      | with_reducible apply State.onlyIn.refl
      | with_reducible assumption
      | with_reducible apply State.onlyIn.foldl
      | dsimp only
      | split
      | with_reducible apply State.onlyIn.step (State.signalRow_only _ _))

theorem State.fenceRow_only (s : State) (t : Nat) :
    State.onlyIn [.freeCtr, .regs, .fab, .tiles, .cleats, .sites, .lan, .cmds, .xlt, .ports, .boot, .fid, .unread, .out] s (State.fenceRow s t) := by
  unfold State.fenceRow
  repeat' (first
    | intro _
    | ((with_reducible apply Comp.sub_ok); exact rfl)
    | with_reducible apply State.onlyIn.refl
    | with_reducible assumption
    | with_reducible apply State.onlyIn.foldl
    | dsimp only
    | split
    | with_reducible apply State.onlyIn.step (State.issueOp_only _ _ _)
    | with_reducible apply State.onlyIn.step (State.modTile_only _ _ _))

theorem execFence_only {t : Fin 96} {s : State} {t1 : State} (h1 : execFence t s = .next t1) :
    State.onlyIn [.freeCtr, .regs, .fab, .tiles, .cleats, .sites, .lan, .cmds, .xlt, .ports, .boot, .fid, .unread, .out] s t1 := by
  unfold execFence at h1
  repeat' (first | with_reducible apply atUnit_only h1 | with_reducible apply whenever_only h1 | with_reducible apply next_only h1 | (dsimp only at h1) | split at h1 | (simp only [reduceCtorEq] at h1; done))
  all_goals
    repeat' (first
      | intro _
      | ((with_reducible apply Comp.sub_ok); exact rfl)
      | with_reducible apply State.onlyIn.refl
      | with_reducible assumption
      | with_reducible apply State.onlyIn.foldl
      | dsimp only
      | split
      | with_reducible apply State.onlyIn.step (State.fenceRow_only _ _))

theorem execPut_only {t : Fin 96} {s : State} {t1 : State} (h1 : execPut t s = .next t1) :
    State.onlyIn [.freeCtr, .regs, .fab, .tiles, .cleats, .sites, .lan, .cmds, .xlt, .ports, .boot, .fid, .unread, .out] s t1 := by
  unfold execPut at h1
  repeat' (first | with_reducible apply atUnit_only h1 | with_reducible apply whenever_only h1 | with_reducible apply next_only h1 | (dsimp only at h1) | split at h1 | (simp only [reduceCtorEq] at h1; done))
  all_goals
    repeat' (first
      | intro _
      | ((with_reducible apply Comp.sub_ok); exact rfl)
      | with_reducible apply State.onlyIn.refl
      | with_reducible assumption
      | with_reducible apply State.onlyIn.foldl
      | dsimp only
      | split
      | with_reducible apply State.onlyIn.step (State.issueRow_only _ _ _))

theorem State.loopRow_only (s : State) (t : Nat) :
    State.onlyIn [.freeCtr, .regs, .fab, .tiles, .cleats, .sites, .lan, .cmds, .xlt, .ports, .boot, .fid, .unread, .out] s (State.loopRow s t) := by
  unfold State.loopRow
  repeat' (first
    | intro _
    | ((with_reducible apply Comp.sub_ok); exact rfl)
    | with_reducible apply State.onlyIn.refl
    | with_reducible assumption
    | with_reducible apply State.onlyIn.foldl
    | dsimp only
    | split
    | with_reducible apply State.onlyIn.step (State.passOp_only _ _ _ _)
    | with_reducible apply State.onlyIn.step (State.tileGo_only _ _)
    | with_reducible apply State.onlyIn.step (State.evalSeg_only _ _ _ _)
    | with_reducible apply State.onlyIn.step (State.tileFault_only _ _ _ _ _)
    | with_reducible apply State.onlyIn.step (State.setTile_only _ _ _))

theorem execLoop_only {t : Fin 96} {s : State} {t1 : State} (h1 : execLoop t s = .next t1) :
    State.onlyIn [.freeCtr, .regs, .fab, .tiles, .cleats, .sites, .lan, .cmds, .xlt, .ports, .boot, .fid, .unread, .out] s t1 := by
  unfold execLoop at h1
  repeat' (first | with_reducible apply atUnit_only h1 | with_reducible apply whenever_only h1 | with_reducible apply next_only h1 | (dsimp only at h1) | split at h1 | (simp only [reduceCtorEq] at h1; done))
  all_goals
    repeat' (first
      | intro _
      | ((with_reducible apply Comp.sub_ok); exact rfl)
      | with_reducible apply State.onlyIn.refl
      | with_reducible assumption
      | with_reducible apply State.onlyIn.foldl
      | dsimp only
      | split
      | with_reducible apply State.onlyIn.step (State.loopRow_only _ _))

theorem State.skipRow_only (s : State) (t : Nat) :
    State.onlyIn [.freeCtr, .regs, .fab, .tiles, .cleats, .sites, .lan, .cmds, .xlt, .ports, .boot, .fid, .unread, .out] s (State.skipRow s t) := by
  unfold State.skipRow
  repeat' (first
    | intro _
    | ((with_reducible apply Comp.sub_ok); exact rfl)
    | with_reducible apply State.onlyIn.refl
    | with_reducible assumption
    | with_reducible apply State.onlyIn.foldl
    | dsimp only
    | split
    | with_reducible apply State.onlyIn.step (State.passOp_only _ _ _ _)
    | with_reducible apply State.onlyIn.step (State.tileFault_only _ _ _ _ _)
    | with_reducible apply State.onlyIn.step (State.trace_only _ _ _ _ _ _ _ _ _))

theorem execSkip_only {t : Fin 96} {s : State} {t1 : State} (h1 : execSkip t s = .next t1) :
    State.onlyIn [.freeCtr, .regs, .fab, .tiles, .cleats, .sites, .lan, .cmds, .xlt, .ports, .boot, .fid, .unread, .out] s t1 := by
  unfold execSkip at h1
  repeat' (first | with_reducible apply atUnit_only h1 | with_reducible apply whenever_only h1 | with_reducible apply next_only h1 | (dsimp only at h1) | split at h1 | (simp only [reduceCtorEq] at h1; done))
  all_goals
    repeat' (first
      | intro _
      | ((with_reducible apply Comp.sub_ok); exact rfl)
      | with_reducible apply State.onlyIn.refl
      | with_reducible assumption
      | with_reducible apply State.onlyIn.foldl
      | dsimp only
      | split
      | with_reducible apply State.onlyIn.step (State.skipRow_only _ _))

theorem State.endRow_only (s : State) (t : Nat) :
    State.onlyIn [.freeCtr, .regs, .fab, .tiles, .cleats, .sites, .lan, .cmds, .xlt, .ports, .boot, .fid, .unread, .out] s (State.endRow s t) := by
  unfold State.endRow
  repeat' (first
    | intro _
    | ((with_reducible apply Comp.sub_ok); exact rfl)
    | with_reducible apply State.onlyIn.refl
    | with_reducible assumption
    | with_reducible apply State.onlyIn.foldl
    | dsimp only
    | split
    | with_reducible apply State.onlyIn.step (State.tileGo_only _ _)
    | with_reducible apply State.onlyIn.step (State.evalSeg_only _ _ _ _)
    | with_reducible apply State.onlyIn.step (State.setTile_only _ _ _))

theorem execEndOp_only {t : Fin 96} {s : State} {t1 : State} (h1 : execEndOp t s = .next t1) :
    State.onlyIn [.freeCtr, .regs, .fab, .tiles, .cleats, .sites, .lan, .cmds, .xlt, .ports, .boot, .fid, .unread, .out] s t1 := by
  unfold execEndOp at h1
  repeat' (first | with_reducible apply atUnit_only h1 | with_reducible apply whenever_only h1 | with_reducible apply next_only h1 | (dsimp only at h1) | split at h1 | (simp only [reduceCtorEq] at h1; done))
  all_goals
    repeat' (first
      | intro _
      | ((with_reducible apply Comp.sub_ok); exact rfl)
      | with_reducible apply State.onlyIn.refl
      | with_reducible assumption
      | with_reducible apply State.onlyIn.foldl
      | dsimp only
      | split
      | with_reducible apply State.onlyIn.step (State.endRow_only _ _))

theorem State.opCompleteRow_only (s : State) (t : Nat) (op : Nat) (waits : Nat) :
    State.onlyIn [.freeCtr, .regs, .fab, .tiles, .cleats, .sites, .lan, .cmds, .xlt, .ports, .boot, .fid, .unread, .out] s (State.opCompleteRow s t op waits) := by
  unfold State.opCompleteRow
  repeat' (first
    | intro _
    | ((with_reducible apply Comp.sub_ok); exact rfl)
    | with_reducible apply State.onlyIn.refl
    | with_reducible assumption
    | with_reducible apply State.onlyIn.foldl
    | dsimp only
    | split
    | with_reducible apply State.onlyIn.step (State.completeOp_only _ _ _ _))

theorem execOpComplete_only {t : Fin 96} {op : Nat} {waits : Nat} {s : State} {t1 : State} (h1 : execOpComplete t op waits s = .next t1) :
    State.onlyIn [.freeCtr, .regs, .fab, .tiles, .cleats, .sites, .lan, .cmds, .xlt, .ports, .boot, .fid, .unread, .out] s t1 := by
  unfold execOpComplete at h1
  repeat' (first | with_reducible apply atUnit_only h1 | with_reducible apply whenever_only h1 | with_reducible apply next_only h1 | (dsimp only at h1) | split at h1 | (simp only [reduceCtorEq] at h1; done))
  all_goals
    repeat' (first
      | intro _
      | ((with_reducible apply Comp.sub_ok); exact rfl)
      | with_reducible apply State.onlyIn.refl
      | with_reducible assumption
      | with_reducible apply State.onlyIn.foldl
      | dsimp only
      | split
      | with_reducible apply State.onlyIn.step (State.opCompleteRow_only _ _ _ _))

theorem State.reduceGroup_only (s : State) (g : Nat) :
    State.onlyIn [.tiles] s (State.reduceGroup s g) := by
  unfold State.reduceGroup
  repeat' (first
    | intro _
    | ((with_reducible apply Comp.sub_ok); exact rfl)
    | with_reducible apply State.onlyIn.refl
    | with_reducible assumption
    | with_reducible apply State.onlyIn.foldl
    | dsimp only
    | split
    | with_reducible apply State.onlyIn.step (State.setTile_only _ _ _))

theorem State.reduceArrive_only (s : State) (t : Nat) :
    State.onlyIn [.tiles] s (State.reduceArrive s t) := by
  unfold State.reduceArrive
  repeat' (first
    | intro _
    | ((with_reducible apply Comp.sub_ok); exact rfl)
    | with_reducible apply State.onlyIn.refl
    | with_reducible assumption
    | with_reducible apply State.onlyIn.foldl
    | dsimp only
    | split
    | with_reducible apply State.onlyIn.step (State.reduceGroup_only _ _)
    | with_reducible apply State.onlyIn.step (State.setTile_only _ _ _))

theorem execReduceSourceArrive_only {t : Fin 96} {s : State} {t1 : State} (h1 : execReduceSourceArrive t s = .next t1) :
    State.onlyIn [.tiles] s t1 := by
  unfold execReduceSourceArrive at h1
  repeat' (first | with_reducible apply atUnit_only h1 | with_reducible apply whenever_only h1 | with_reducible apply next_only h1 | (dsimp only at h1) | split at h1 | (simp only [reduceCtorEq] at h1; done))
  all_goals
    repeat' (first
      | intro _
      | ((with_reducible apply Comp.sub_ok); exact rfl)
      | with_reducible apply State.onlyIn.refl
      | with_reducible assumption
      | with_reducible apply State.onlyIn.foldl
      | dsimp only
      | split
      | with_reducible apply State.onlyIn.step (State.reduceArrive_only _ _))

theorem State.waitTimeoutRow_only (s : State) (t : Nat) :
    State.onlyIn [.regs, .fab, .tiles, .cmds, .xlt, .ports, .fid, .out] s (State.waitTimeoutRow s t) := by
  unfold State.waitTimeoutRow
  repeat' (first
    | intro _
    | ((with_reducible apply Comp.sub_ok); exact rfl)
    | with_reducible apply State.onlyIn.refl
    | with_reducible assumption
    | with_reducible apply State.onlyIn.foldl
    | dsimp only
    | split
    | with_reducible apply State.onlyIn.step (State.tileFault_only _ _ _ _ _)
    | with_reducible apply State.onlyIn.step (State.trace_only _ _ _ _ _ _ _ _ _)
    | with_reducible apply State.onlyIn.step (State.fidEvent_only _ _ _ _ _ _ _))

theorem execWaitTimeout_only {t : Fin 96} {s : State} {t1 : State} (h1 : execWaitTimeout t s = .next t1) :
    State.onlyIn [.regs, .fab, .tiles, .cmds, .xlt, .ports, .fid, .out] s t1 := by
  unfold execWaitTimeout at h1
  repeat' (first | with_reducible apply atUnit_only h1 | with_reducible apply whenever_only h1 | with_reducible apply next_only h1 | (dsimp only at h1) | split at h1 | (simp only [reduceCtorEq] at h1; done))
  all_goals
    repeat' (first
      | intro _
      | ((with_reducible apply Comp.sub_ok); exact rfl)
      | with_reducible apply State.onlyIn.refl
      | with_reducible assumption
      | with_reducible apply State.onlyIn.foldl
      | dsimp only
      | split
      | with_reducible apply State.onlyIn.step (State.waitTimeoutRow_only _ _))

theorem State.stopTile_only (s : State) (t : Nat) :
    State.onlyIn [.regs, .fab, .tiles, .cmds, .xlt, .ports, .fid, .out] s (State.stopTile s t) := by
  unfold State.stopTile
  repeat' (first
    | intro _
    | ((with_reducible apply Comp.sub_ok); exact rfl)
    | with_reducible apply State.onlyIn.refl
    | with_reducible assumption
    | with_reducible apply State.onlyIn.foldl
    | dsimp only
    | split
    | with_reducible apply State.onlyIn.step (State.settle_only _ _)
    | with_reducible apply State.onlyIn.step (State.dropTileReqs_only _ _)
    | with_reducible apply State.onlyIn.step (State.setTile_only _ _ _))

theorem State.stopDispatch_only (s : State) (id : Nat) :
    State.onlyIn [.regs, .fab, .tiles, .cmds, .xlt, .ports, .fid, .out] s (State.stopDispatch s id) := by
  unfold State.stopDispatch
  repeat' (first
    | intro _
    | ((with_reducible apply Comp.sub_ok); exact rfl)
    | with_reducible apply State.onlyIn.refl
    | with_reducible assumption
    | with_reducible apply State.onlyIn.foldl
    | dsimp only
    | split
    | with_reducible apply State.onlyIn.step (State.stopTile_only _ _)
    | with_reducible apply State.onlyIn.step (State.setTile_only _ _ _))

theorem execDispatchStop_only {t : Fin 96} {s : State} {t1 : State} (h1 : execDispatchStop t s = .next t1) :
    State.onlyIn [.regs, .fab, .tiles, .cmds, .xlt, .ports, .fid, .out] s t1 := by
  unfold execDispatchStop at h1
  repeat' (first | with_reducible apply atUnit_only h1 | with_reducible apply whenever_only h1 | with_reducible apply next_only h1 | (dsimp only at h1) | split at h1 | (simp only [reduceCtorEq] at h1; done))
  all_goals
    repeat' (first
      | intro _
      | ((with_reducible apply Comp.sub_ok); exact rfl)
      | with_reducible apply State.onlyIn.refl
      | with_reducible assumption
      | with_reducible apply State.onlyIn.foldl
      | dsimp only
      | split
      | with_reducible apply State.onlyIn.step (State.stopDispatch_only _ _))

end Sys2Proof.Machine
end

