-- ==== Sys2Proof/Laws/OnlySiteOps.lean ====
section
/-! SUPPORT. What each operation of Machine/SiteOps.lean can change: the parts of the state outside the list are as before. -/

set_option linter.all false

namespace Sys2Proof.Machine

theorem State.setSiteState_only (s : State) (k : Nat) (st : Nat) :
    State.onlyIn [.regs] s (State.setSiteState s k st) := by
  unfold State.setSiteState
  repeat' (first
    | intro _
    | ((with_reducible apply Comp.sub_ok); exact rfl)
    | with_reducible apply State.onlyIn.refl
    | with_reducible assumption
    | with_reducible apply State.onlyIn.foldl
    | dsimp only
    | split
    | with_reducible apply State.onlyIn.step (State.fsetBit_only _ _ _ _ _ _)
    | with_reducible apply State.onlyIn.step (State.fset_only _ _ _ _ _))

theorem State.setSlot_only (s : State) (k : Nat) (slot : Nat) (ctx : Nat) (valid : Bool) :
    State.onlyIn [.regs] s (State.setSlot s k slot ctx valid) := by
  unfold State.setSlot
  repeat' (first
    | intro _
    | ((with_reducible apply Comp.sub_ok); exact rfl)
    | with_reducible apply State.onlyIn.refl
    | with_reducible assumption
    | with_reducible apply State.onlyIn.foldl
    | dsimp only
    | split
    | with_reducible apply State.onlyIn.step (State.fset_only _ _ _ _ _))

theorem State.clearSlots_only (s : State) (k : Nat) :
    State.onlyIn [.regs, .fid] s (State.clearSlots s k) := by
  unfold State.clearSlots
  repeat' (first
    | intro _
    | ((with_reducible apply Comp.sub_ok); exact rfl)
    | with_reducible apply State.onlyIn.refl
    | with_reducible assumption
    | with_reducible apply State.onlyIn.foldl
    | dsimp only
    | split
    | with_reducible apply State.onlyIn.step (State.setSlot_only _ _ _ _ _)
    | with_reducible apply State.onlyIn.step (State.disarm_only _))

theorem State.tdiError_only (s : State) (p : Nat) :
    State.onlyIn [.sec] s (State.tdiError s p) := by
  unfold State.tdiError
  repeat' (first
    | intro _
    | ((with_reducible apply Comp.sub_ok); exact rfl)
    | with_reducible apply State.onlyIn.refl
    | with_reducible assumption
    | (simp only [State.onlyIn.sec (l := [.sec]) rfl])
    | with_reducible apply State.onlyIn.foldl
    | dsimp only
    | split
    | (refine ⟨fun c hc => ?_⟩; cases c <;> first | rfl | exact absurd (by decide) hc))

theorem State.darken_only (s : State) (k : Nat) :
    State.onlyIn [.regs, .fab, .sites] s (State.darken s k) := by
  unfold State.darken
  repeat' (first
    | intro _
    | ((with_reducible apply Comp.sub_ok); exact rfl)
    | with_reducible apply State.onlyIn.refl
    | with_reducible assumption
    | (simp only [State.onlyIn.regs (l := [.regs, .fab, .sites]) rfl, State.onlyIn.fab (l := [.regs, .fab, .sites]) rfl, State.onlyIn.sites (l := [.regs, .fab, .sites]) rfl])
    | with_reducible apply State.onlyIn.foldl
    | dsimp only
    | split
    | with_reducible apply State.onlyIn.step (State.modSite_only _ _ _)
    | with_reducible apply State.onlyIn.step (State.fset_only _ _ _ _ _)
    | (refine ⟨fun c hc => ?_⟩; cases c <;> first | rfl | exact absurd (by decide) hc))

theorem State.failLink_only (s : State) (k : Nat) (reason : Nat) :
    State.onlyIn [.regs, .fab, .sites] s (State.failLink s k reason) := by
  unfold State.failLink
  repeat' (first
    | intro _
    | ((with_reducible apply Comp.sub_ok); exact rfl)
    | with_reducible apply State.onlyIn.refl
    | with_reducible assumption
    | with_reducible apply State.onlyIn.foldl
    | dsimp only
    | split
    | with_reducible apply State.onlyIn.step (State.darken_only _ _)
    | with_reducible apply State.onlyIn.step (State.setSiteState_only _ _ _)
    | with_reducible apply State.onlyIn.step (State.modSite_only _ _ _)
    | with_reducible apply State.onlyIn.step (State.fset_only _ _ _ _ _))

theorem State.sideMsg_only (s : State) (k : Nat) (ws : List Nat) :
    State.onlyIn [.out] s (State.sideMsg s k ws) := by
  unfold State.sideMsg
  repeat' (first
    | intro _
    | ((with_reducible apply Comp.sub_ok); exact rfl)
    | with_reducible apply State.onlyIn.refl
    | with_reducible assumption
    | with_reducible apply State.onlyIn.foldl
    | dsimp only
    | split
    | with_reducible apply State.onlyIn.step (State.pushOut_only _ _))

theorem State.askMeasure_only (s : State) (k : Nat) :
    State.onlyIn [.freeCtr, .sites, .out] s (State.askMeasure s k) := by
  unfold State.askMeasure
  repeat' (first
    | intro _
    | ((with_reducible apply Comp.sub_ok); exact rfl)
    | with_reducible apply State.onlyIn.refl
    | with_reducible assumption
    | with_reducible apply State.onlyIn.foldl
    | dsimp only
    | split
    | with_reducible apply State.onlyIn.step (State.sideMsg_only _ _ _)
    | with_reducible apply State.onlyIn.step (State.modSite_only _ _ _)
    | with_reducible apply State.onlyIn.step (State.bump_only _))

theorem State.remeasure_only (s : State) (k : Nat) :
    State.onlyIn [.freeCtr, .regs, .sites, .out] s (State.remeasure s k) := by
  unfold State.remeasure
  repeat' (first
    | intro _
    | ((with_reducible apply Comp.sub_ok); exact rfl)
    | with_reducible apply State.onlyIn.refl
    | with_reducible assumption
    | with_reducible apply State.onlyIn.foldl
    | dsimp only
    | split
    | with_reducible apply State.onlyIn.step (State.askMeasure_only _ _)
    | with_reducible apply State.onlyIn.step (State.setSiteState_only _ _ _)
    | with_reducible apply State.onlyIn.step (State.modSite_only _ _ _))

theorem State.dropSiteLeave_only (s : State) (k : Nat) (tell : Bool) :
    State.onlyIn [.freeCtr, .regs, .hank, .sites, .cmds, .pwr, .ports, .fid, .out] s (State.dropSiteLeave s k tell) := by
  unfold State.dropSiteLeave
  repeat' (first
    | intro _
    | ((with_reducible apply Comp.sub_ok); exact rfl)
    | with_reducible apply State.onlyIn.refl
    | with_reducible assumption
    | with_reducible apply State.onlyIn.foldl
    | dsimp only
    | split
    | with_reducible apply State.onlyIn.step (State.unqueueLeave_only _ _ _)
    | with_reducible apply State.onlyIn.step (State.returnLeave_only _ _))

theorem State.ackInval_only (s : State) (id : Nat) :
    State.onlyIn [.cmds] s (State.ackInval s id) := by
  unfold State.ackInval
  repeat' (first
    | intro _
    | ((with_reducible apply Comp.sub_ok); exact rfl)
    | with_reducible apply State.onlyIn.refl
    | with_reducible assumption
    | with_reducible apply State.onlyIn.foldl
    | dsimp only
    | split
    | with_reducible apply State.onlyIn.step (State.setRun_only _ _))

theorem State.dropSiteReqs_only (s : State) (k : Nat) :
    State.onlyIn [.regs, .fab, .cleats, .lan, .xlt, .ports, .out] s (State.dropSiteReqs s k) := by
  unfold State.dropSiteReqs
  repeat' (first
    | intro _
    | ((with_reducible apply Comp.sub_ok); exact rfl)
    | with_reducible apply State.onlyIn.refl
    | with_reducible assumption
    | (simp only [State.onlyIn.regs (l := [.regs, .fab, .cleats, .lan, .xlt, .ports, .out]) rfl, State.onlyIn.fab (l := [.regs, .fab, .cleats, .lan, .xlt, .ports, .out]) rfl, State.onlyIn.cleats (l := [.regs, .fab, .cleats, .lan, .xlt, .ports, .out]) rfl, State.onlyIn.lan (l := [.regs, .fab, .cleats, .lan, .xlt, .ports, .out]) rfl, State.onlyIn.xlt (l := [.regs, .fab, .cleats, .lan, .xlt, .ports, .out]) rfl, State.onlyIn.ports (l := [.regs, .fab, .cleats, .lan, .xlt, .ports, .out]) rfl, State.onlyIn.out (l := [.regs, .fab, .cleats, .lan, .xlt, .ports, .out]) rfl])
    | with_reducible apply State.onlyIn.foldl
    | dsimp only
    | split
    | with_reducible apply State.onlyIn.step (State.dropHeld_only _ _)
    | with_reducible apply State.onlyIn.step (State.pump_only _)
    | (refine ⟨fun c hc => ?_⟩; cases c <;> first | rfl | exact absurd (by decide) hc))

theorem State.failWorks_only (s : State) (k : Nat) (st : BitVec 8) (detail : Nat) :
    State.onlyIn [.cmds] s (State.failWorks s k st detail) := by
  unfold State.failWorks
  repeat' (first
    | intro _
    | ((with_reducible apply Comp.sub_ok); exact rfl)
    | with_reducible apply State.onlyIn.refl
    | with_reducible assumption
    | with_reducible apply State.onlyIn.foldl
    | dsimp only
    | split
    | with_reducible apply State.onlyIn.step (State.ackInval_only _ _)
    | with_reducible apply State.onlyIn.step (State.finish_only _ _ _ _))

theorem State.sever_only (s : State) (k : Nat) (reason : Nat) :
    State.onlyIn [.freeCtr, .regs, .fab, .hank, .cleats, .sites, .lan, .cmds, .xlt, .pwr, .sec, .ports, .fid, .unread, .out] s (State.sever s k reason) := by
  unfold State.sever
  repeat' (first
    | intro _
    | ((with_reducible apply Comp.sub_ok); exact rfl)
    | with_reducible apply State.onlyIn.refl
    | with_reducible assumption
    | with_reducible apply State.onlyIn.foldl
    | with_reducible apply State.onlyIn.foldl2
    | dsimp only
    | (split <;> first | (rename_i heq; have hx := congrArg (fun z => z.2) heq; dsimp only at hx; subst hx) | (rename_i heq; have hx := congrArg (fun z => z.2.2) heq; dsimp only at hx; subst hx) | skip)
    | split
    | with_reducible apply State.onlyIn.step (State.failWorks_only _ _ _ _)
    | with_reducible apply State.onlyIn.step (State.dropSiteReqs_only _ _)
    | with_reducible apply State.onlyIn.step (State.dropSiteLeave_only _ _ _)
    | with_reducible apply State.onlyIn.step (State.darken_only _ _)
    | with_reducible apply State.onlyIn.step (State.clearSlots_only _ _)
    | with_reducible apply State.onlyIn.step (State.setSiteState_only _ _ _)
    | with_reducible apply State.onlyIn.step (State.loseAtProxies_only _ _)
    | with_reducible apply State.onlyIn.step (State.sweepAgents_only _ _)
    | with_reducible apply State.onlyIn.step (State.loseAgents_only _ _ _ _ _)
    | with_reducible apply State.onlyIn.step (State.modSite_only _ _ _)
    | with_reducible apply State.onlyIn.step (State.ev_only _ _ _)
    | with_reducible apply State.onlyIn.step (State.setPart_only _ _ _)
    | with_reducible apply State.onlyIn.step (State.fset_only _ _ _ _ _))

theorem State.answerHeld_only (s : State) (k : Nat) (m : SiteMsg) (status : BitVec 3) :
    State.onlyIn [.sites, .out] s (State.answerHeld s k m status) := by
  unfold State.answerHeld
  repeat' (first
    | intro _
    | ((with_reducible apply Comp.sub_ok); exact rfl)
    | with_reducible apply State.onlyIn.refl
    | with_reducible assumption
    | with_reducible apply State.onlyIn.foldl
    | dsimp only
    | split
    | with_reducible apply State.onlyIn.step (State.answerMsg_only _ _ _ _))

theorem State.unbindEnd_only (s : State) (k : Nat) :
    State.onlyIn [.freeCtr, .regs, .sites, .cmds, .xlt, .ports, .fid, .out] s (State.unbindEnd s k) := by
  unfold State.unbindEnd
  repeat' (first
    | intro _
    | ((with_reducible apply Comp.sub_ok); exact rfl)
    | with_reducible apply State.onlyIn.refl
    | with_reducible assumption
    | with_reducible apply State.onlyIn.foldl
    | dsimp only
    | split
    | with_reducible apply State.onlyIn.step (State.answerHeld_only _ _ _ _)
    | with_reducible apply State.onlyIn.step (State.remeasure_only _ _)
    | with_reducible apply State.onlyIn.step (State.clearSlots_only _ _)
    | with_reducible apply State.onlyIn.step (State.setSiteState_only _ _ _)
    | with_reducible apply State.onlyIn.step (State.dropHeld_only _ _)
    | with_reducible apply State.onlyIn.step (State.finish_only _ _ _ _)
    | with_reducible apply State.onlyIn.step (State.modSite_only _ _ _)
    | with_reducible apply State.onlyIn.step (State.fset_only _ _ _ _ _))

theorem State.unbindGo_only (s : State) (k : Nat) :
    State.onlyIn [.fab, .sites, .out] s (State.unbindGo s k) := by
  unfold State.unbindGo
  repeat' (first
    | intro _
    | ((with_reducible apply Comp.sub_ok); exact rfl)
    | with_reducible apply State.onlyIn.refl
    | with_reducible assumption
    | with_reducible apply State.onlyIn.foldl
    | dsimp only
    | split
    | with_reducible apply State.onlyIn.step (State.scanSite_only _ _)
    | with_reducible apply State.onlyIn.step (State.siteOut_only _ _ _ _)
    | with_reducible apply State.onlyIn.step (State.modSite_only _ _ _))

theorem State.unbindAll_only (s : State) :
    State.onlyIn [.fab, .sites, .out] s (State.unbindAll s) := by
  unfold State.unbindAll
  repeat' (first
    | intro _
    | ((with_reducible apply Comp.sub_ok); exact rfl)
    | with_reducible apply State.onlyIn.refl
    | with_reducible assumption
    | with_reducible apply State.onlyIn.foldl
    | dsimp only
    | split
    | with_reducible apply State.onlyIn.step (State.unbindGo_only _ _))

theorem State.unbindStart_only (s : State) (k : Nat) (cmd : Option Nat) :
    State.onlyIn [.freeCtr, .regs, .fab, .hank, .cleats, .sites, .cmds, .pwr, .ports, .fid, .out] s (State.unbindStart s k cmd) := by
  unfold State.unbindStart
  repeat' (first
    | intro _
    | ((with_reducible apply Comp.sub_ok); exact rfl)
    | with_reducible apply State.onlyIn.refl
    | with_reducible assumption
    | (simp only [State.onlyIn.freeCtr (l := [.freeCtr, .regs, .fab, .hank, .cleats, .sites, .cmds, .pwr, .ports, .fid, .out]) rfl, State.onlyIn.regs (l := [.freeCtr, .regs, .fab, .hank, .cleats, .sites, .cmds, .pwr, .ports, .fid, .out]) rfl, State.onlyIn.fab (l := [.freeCtr, .regs, .fab, .hank, .cleats, .sites, .cmds, .pwr, .ports, .fid, .out]) rfl, State.onlyIn.cleats (l := [.freeCtr, .regs, .fab, .hank, .cleats, .sites, .cmds, .pwr, .ports, .fid, .out]) rfl, State.onlyIn.sites (l := [.freeCtr, .regs, .fab, .hank, .cleats, .sites, .cmds, .pwr, .ports, .fid, .out]) rfl, State.onlyIn.cmds (l := [.freeCtr, .regs, .fab, .hank, .cleats, .sites, .cmds, .pwr, .ports, .fid, .out]) rfl, State.onlyIn.pwr (l := [.freeCtr, .regs, .fab, .hank, .cleats, .sites, .cmds, .pwr, .ports, .fid, .out]) rfl, State.onlyIn.ports (l := [.freeCtr, .regs, .fab, .hank, .cleats, .sites, .cmds, .pwr, .ports, .fid, .out]) rfl, State.onlyIn.fid (l := [.freeCtr, .regs, .fab, .hank, .cleats, .sites, .cmds, .pwr, .ports, .fid, .out]) rfl, State.onlyIn.out (l := [.freeCtr, .regs, .fab, .hank, .cleats, .sites, .cmds, .pwr, .ports, .fid, .out]) rfl])
    | with_reducible apply State.onlyIn.foldl
    | dsimp only
    | split
    | with_reducible apply State.onlyIn.step (State.unbindGo_only _ _)
    | with_reducible apply State.onlyIn.step (State.dropSiteLeave_only _ _ _)
    | with_reducible apply State.onlyIn.step (State.setSiteState_only _ _ _)
    | with_reducible apply State.onlyIn.step (State.modSite_only _ _ _)
    | with_reducible apply State.onlyIn.step (State.fset_only _ _ _ _ _)
    | with_reducible refine .hankRest ?_ (by rfl) ?_
    | (refine ⟨fun c hc => ?_⟩; cases c <;> first | rfl | exact absurd (by decide) hc))

theorem State.showLive_only (s : State) (k : Nat) (live : Nat) :
    State.onlyIn [.regs] s (State.showLive s k live) := by
  unfold State.showLive
  repeat' (first
    | intro _
    | ((with_reducible apply Comp.sub_ok); exact rfl)
    | with_reducible apply State.onlyIn.refl
    | with_reducible assumption
    | with_reducible apply State.onlyIn.foldl
    | dsimp only
    | split
    | with_reducible apply State.onlyIn.step (State.fset_only _ _ _ _ _))

theorem State.turnSnoops_only (s : State) (k : Nat) (j : Nat) :
    State.onlyIn [.fab] s (State.turnSnoops s k j) := by
  unfold State.turnSnoops
  repeat' (first
    | intro _
    | ((with_reducible apply Comp.sub_ok); exact rfl)
    | with_reducible apply State.onlyIn.refl
    | with_reducible assumption
    | (simp only [State.onlyIn.fab (l := [.fab]) rfl])
    | with_reducible apply State.onlyIn.foldl
    | dsimp only
    | split
    | (refine ⟨fun c hc => ?_⟩; cases c <;> first | rfl | exact absurd (by decide) hc))

theorem State.apDown_only (s : State) (k : Nat) (j : Nat) :
    State.onlyIn [.freeCtr, .regs, .fab, .hank, .cleats, .sites, .lan, .cmds, .xlt, .pwr, .sec, .ports, .fid, .unread, .out] s (State.apDown s k j) := by
  unfold State.apDown
  repeat' (first
    | intro _
    | ((with_reducible apply Comp.sub_ok); exact rfl)
    | with_reducible apply State.onlyIn.refl
    | with_reducible assumption
    | with_reducible apply State.onlyIn.foldl
    | dsimp only
    | split
    | with_reducible apply State.onlyIn.step (State.turnSnoops_only _ _ _)
    | with_reducible apply State.onlyIn.step (State.showLive_only _ _ _)
    | with_reducible apply State.onlyIn.step (State.sever_only _ _ _)
    | with_reducible apply State.onlyIn.step (State.sideMsg_only _ _ _)
    | with_reducible apply State.onlyIn.step (State.siteOut_only _ _ _ _)
    | with_reducible apply State.onlyIn.step (State.setAp_only _ _ _ _)
    | with_reducible apply State.onlyIn.step (State.ev_only _ _ _)
    | with_reducible apply State.onlyIn.step (State.fset_only _ _ _ _ _))

theorem State.apRetrain_only (s : State) (k : Nat) (j : Nat) :
    State.onlyIn [.freeCtr, .regs, .fab, .hank, .cleats, .sites, .lan, .cmds, .xlt, .pwr, .sec, .ports, .fid, .unread, .out] s (State.apRetrain s k j) := by
  unfold State.apRetrain
  repeat' (first
    | intro _
    | ((with_reducible apply Comp.sub_ok); exact rfl)
    | with_reducible apply State.onlyIn.refl
    | with_reducible assumption
    | with_reducible apply State.onlyIn.foldl
    | dsimp only
    | split
    | with_reducible apply State.onlyIn.step (State.apDown_only _ _ _)
    | with_reducible apply State.onlyIn.step (State.setAp_only _ _ _ _)
    | with_reducible apply State.onlyIn.step (State.ev_only _ _ _)
    | with_reducible apply State.onlyIn.step (State.fset_only _ _ _ _ _))

theorem State.apReplay_only (s : State) (k : Nat) (j : Nat) :
    State.onlyIn [.freeCtr, .regs, .fab, .hank, .cleats, .sites, .lan, .cmds, .xlt, .pwr, .sec, .ports, .fid, .unread, .out] s (State.apReplay s k j) := by
  unfold State.apReplay
  repeat' (first
    | intro _
    | ((with_reducible apply Comp.sub_ok); exact rfl)
    | with_reducible apply State.onlyIn.refl
    | with_reducible assumption
    | with_reducible apply State.onlyIn.foldl
    | dsimp only
    | split
    | with_reducible apply State.onlyIn.step (State.apRetrain_only _ _ _)
    | with_reducible apply State.onlyIn.step (State.frameAgain_only _ _ _ _)
    | with_reducible apply State.onlyIn.step (State.setAp_only _ _ _ _)
    | with_reducible apply State.onlyIn.step (State.fidEvent_only _ _ _ _ _ _ _)
    | with_reducible apply State.onlyIn.step (State.ev_only _ _ _)
    | with_reducible apply State.onlyIn.step (State.pushOut_only _ _)
    | with_reducible apply State.onlyIn.step (State.fadd_only _ _ _ _ _))

theorem State.releaseHeld_only {l : List Comp} {s : State} {k : Nat} {issue : State → SiteMsg → State} (hl : Comp.sub [.sites] l = true) (hk_issue : ∀ y0 y1, State.onlyIn l y0 (issue y0 y1)) :
    State.onlyIn l s (State.releaseHeld s k issue) := by
  unfold State.releaseHeld
  repeat' (first
    | intro _
    | ((with_reducible refine Comp.sub_trans ?_ hl); exact rfl)
    | ((with_reducible apply Comp.sub_ok); exact rfl)
    | with_reducible apply State.onlyIn.refl
    | with_reducible assumption
    | with_reducible apply State.onlyIn.foldl
    | dsimp only
    | split
    | with_reducible apply State.onlyIn.step (State.modSite_only _ _ _)
    | with_reducible refine .trans ?_ (hk_issue _ _))

theorem State.releaseHeld_onlyStep {l : List Comp} {s0 : State} {s : State} {k : Nat} {issue : State → SiteMsg → State} (hl : Comp.sub [.sites] l = true) (hk_issue : ∀ y0 y1, State.onlyIn l y0 (issue y0 y1)) (h0 : State.onlyIn l s0 s) :
    State.onlyIn l s0 (State.releaseHeld s k issue) := h0.trans (State.releaseHeld_only hl hk_issue)

end Sys2Proof.Machine
end

