-- ==== Sys2Proof/Laws/OnlyEngine.lean ====
section
/-! SUPPORT. What each operation of Machine/Engine.lean can change: the parts of the state outside the list are as before. -/

set_option linter.all false

namespace Sys2Proof.Machine

theorem State.readSource_only (s : State) (i : Nat) (t : Tracker) :
    State.onlyIn [.freeCtr, .regs, .fab, .sites, .xlt, .ports, .boot, .unread, .out] s (State.readSource s i t) := by
  unfold State.readSource
  repeat' (first
    | intro _
    | ((with_reducible apply Comp.sub_ok); exact rfl)
    | with_reducible apply State.onlyIn.refl
    | with_reducible assumption
    | with_reducible apply State.onlyIn.foldl
    | dsimp only
    | split
    | with_reducible apply State.onlyIn.step (State.issueAccs_only _ _ _)
    | with_reducible apply State.onlyIn.step (State.request_only _ _ _ _))

theorem State.sendGet_only (s : State) (i : Nat) (t : Tracker) :
    State.onlyIn [.lan] s (State.sendGet s i t) := by
  unfold State.sendGet
  repeat' (first
    | intro _
    | ((with_reducible apply Comp.sub_ok); exact rfl)
    | with_reducible apply State.onlyIn.refl
    | with_reducible assumption
    | with_reducible apply State.onlyIn.foldl
    | dsimp only
    | split
    | with_reducible apply State.onlyIn.step (State.stageOn_only _ _ _))

theorem State.beginPut_only (s : State) (t : Tracker) :
    State.onlyIn [.freeCtr, .regs, .fab, .sites, .lan, .xlt, .ports, .boot, .unread, .out] s (State.beginPut s t) := by
  unfold State.beginPut
  repeat' (first
    | intro _
    | ((with_reducible apply Comp.sub_ok); exact rfl)
    | with_reducible apply State.onlyIn.refl
    | with_reducible assumption
    | (simp only [State.onlyIn.freeCtr (l := [.freeCtr, .regs, .fab, .sites, .lan, .xlt, .ports, .boot, .unread, .out]) rfl, State.onlyIn.regs (l := [.freeCtr, .regs, .fab, .sites, .lan, .xlt, .ports, .boot, .unread, .out]) rfl, State.onlyIn.fab (l := [.freeCtr, .regs, .fab, .sites, .lan, .xlt, .ports, .boot, .unread, .out]) rfl, State.onlyIn.sites (l := [.freeCtr, .regs, .fab, .sites, .lan, .xlt, .ports, .boot, .unread, .out]) rfl, State.onlyIn.lan (l := [.freeCtr, .regs, .fab, .sites, .lan, .xlt, .ports, .boot, .unread, .out]) rfl, State.onlyIn.xlt (l := [.freeCtr, .regs, .fab, .sites, .lan, .xlt, .ports, .boot, .unread, .out]) rfl, State.onlyIn.ports (l := [.freeCtr, .regs, .fab, .sites, .lan, .xlt, .ports, .boot, .unread, .out]) rfl, State.onlyIn.boot (l := [.freeCtr, .regs, .fab, .sites, .lan, .xlt, .ports, .boot, .unread, .out]) rfl, State.onlyIn.unread (l := [.freeCtr, .regs, .fab, .sites, .lan, .xlt, .ports, .boot, .unread, .out]) rfl, State.onlyIn.out (l := [.freeCtr, .regs, .fab, .sites, .lan, .xlt, .ports, .boot, .unread, .out]) rfl])
    | with_reducible apply State.onlyIn.foldl
    | with_reducible apply State.onlyIn.foldl2
    | dsimp only
    | (split <;> first | (rename_i heq; have hx := congrArg (fun z => z.2) heq; dsimp only at hx; subst hx) | (rename_i heq; have hx := congrArg (fun z => z.2.2) heq; dsimp only at hx; subst hx) | skip)
    | split
    | with_reducible apply State.onlyIn.step (State.sendGet_only _ _ _)
    | with_reducible apply State.onlyIn.step (State.readSource_only _ _ _)
    | with_reducible apply State.onlyIn.step (State.takeTracker_only (by assumption))
    | (refine ⟨fun c hc => ?_⟩; cases c <;> first | rfl | exact absurd (by decide) hc))

theorem State.putDone_only (s : State) (k : Nat) (i : Nat) (tag : BitVec 12) (code : Nat) :
    State.onlyIn [.sites, .out] s (State.putDone s k i tag code) := by
  unfold State.putDone
  repeat' (first
    | intro _
    | ((with_reducible apply Comp.sub_ok); exact rfl)
    | with_reducible apply State.onlyIn.refl
    | with_reducible assumption
    | with_reducible apply State.onlyIn.foldl
    | dsimp only
    | split
    | with_reducible apply State.onlyIn.step (State.siteOut_only _ _ _ _))

theorem State.tellOwner_only (s : State) (i : Nat) (t : Tracker) (reason : Nat) :
    State.onlyIn [.regs, .fab, .tiles, .sites, .cmds, .xlt, .ports, .fid, .out] s (State.tellOwner s i t reason) := by
  unfold State.tellOwner
  repeat' (first
    | intro _
    | ((with_reducible apply Comp.sub_ok); exact rfl)
    | with_reducible apply State.onlyIn.refl
    | with_reducible assumption
    | with_reducible apply State.onlyIn.foldl
    | dsimp only
    | split
    | with_reducible apply State.onlyIn.step (State.putDone_only _ _ _ _ _)
    | with_reducible apply State.onlyIn.step (State.settle_only _ _)
    | with_reducible apply State.onlyIn.step (State.lateFault_only _ _ _ _ _)
    | with_reducible apply State.onlyIn.step (State.modTile_only _ _ _)
    | with_reducible apply State.onlyIn.step (State.finish_only _ _ _ _)
    | with_reducible apply State.onlyIn.step (State.setTile_only _ _ _))

theorem State.startPutFor_only (s : State) (t : Tracker) :
    State.onlyIn [.freeCtr, .regs, .fab, .tiles, .sites, .lan, .cmds, .xlt, .ports, .boot, .fid, .unread, .out] s (State.startPutFor s t) := by
  unfold State.startPutFor
  repeat' (first
    | intro _
    | ((with_reducible apply Comp.sub_ok); exact rfl)
    | with_reducible apply State.onlyIn.refl
    | with_reducible assumption
    | with_reducible apply State.onlyIn.foldl
    | dsimp only
    | split
    | with_reducible apply State.onlyIn.step (State.tellOwner_only _ _ _ _)
    | with_reducible apply State.onlyIn.step (State.beginPut_only _ _)
    | with_reducible apply State.onlyIn.step (State.recordRefusal_only _ _ _ _ _))

theorem State.retryWaits_only (s : State) :
    State.onlyIn [.freeCtr, .regs, .fab, .tiles, .sites, .lan, .cmds, .xlt, .ports, .boot, .fid, .unread, .out] s (State.retryWaits s) := by
  unfold State.retryWaits
  repeat' (first
    | intro _
    | ((with_reducible apply Comp.sub_ok); exact rfl)
    | with_reducible apply State.onlyIn.refl
    | with_reducible assumption
    | (simp only [State.onlyIn.freeCtr (l := [.freeCtr, .regs, .fab, .tiles, .sites, .lan, .cmds, .xlt, .ports, .boot, .fid, .unread, .out]) rfl, State.onlyIn.regs (l := [.freeCtr, .regs, .fab, .tiles, .sites, .lan, .cmds, .xlt, .ports, .boot, .fid, .unread, .out]) rfl, State.onlyIn.fab (l := [.freeCtr, .regs, .fab, .tiles, .sites, .lan, .cmds, .xlt, .ports, .boot, .fid, .unread, .out]) rfl, State.onlyIn.tiles (l := [.freeCtr, .regs, .fab, .tiles, .sites, .lan, .cmds, .xlt, .ports, .boot, .fid, .unread, .out]) rfl, State.onlyIn.sites (l := [.freeCtr, .regs, .fab, .tiles, .sites, .lan, .cmds, .xlt, .ports, .boot, .fid, .unread, .out]) rfl, State.onlyIn.lan (l := [.freeCtr, .regs, .fab, .tiles, .sites, .lan, .cmds, .xlt, .ports, .boot, .fid, .unread, .out]) rfl, State.onlyIn.cmds (l := [.freeCtr, .regs, .fab, .tiles, .sites, .lan, .cmds, .xlt, .ports, .boot, .fid, .unread, .out]) rfl, State.onlyIn.xlt (l := [.freeCtr, .regs, .fab, .tiles, .sites, .lan, .cmds, .xlt, .ports, .boot, .fid, .unread, .out]) rfl, State.onlyIn.ports (l := [.freeCtr, .regs, .fab, .tiles, .sites, .lan, .cmds, .xlt, .ports, .boot, .fid, .unread, .out]) rfl, State.onlyIn.boot (l := [.freeCtr, .regs, .fab, .tiles, .sites, .lan, .cmds, .xlt, .ports, .boot, .fid, .unread, .out]) rfl, State.onlyIn.fid (l := [.freeCtr, .regs, .fab, .tiles, .sites, .lan, .cmds, .xlt, .ports, .boot, .fid, .unread, .out]) rfl, State.onlyIn.unread (l := [.freeCtr, .regs, .fab, .tiles, .sites, .lan, .cmds, .xlt, .ports, .boot, .fid, .unread, .out]) rfl, State.onlyIn.out (l := [.freeCtr, .regs, .fab, .tiles, .sites, .lan, .cmds, .xlt, .ports, .boot, .fid, .unread, .out]) rfl])
    | with_reducible apply State.onlyIn.foldl
    | dsimp only
    | split
    | with_reducible apply State.onlyIn.step (State.startPutFor_only _ _)
    | (refine ⟨fun c hc => ?_⟩; cases c <;> first | rfl | exact absurd (by decide) hc))

theorem State.sigsGo_only (s : State) :
    State.onlyIn [.cleats] s (State.sigsGo s) := by
  unfold State.sigsGo
  repeat' (first
    | intro _
    | ((with_reducible apply Comp.sub_ok); exact rfl)
    | with_reducible apply State.onlyIn.refl
    | with_reducible assumption
    | (simp only [State.onlyIn.cleats (l := [.cleats]) rfl])
    | with_reducible apply State.onlyIn.foldl
    | dsimp only
    | split
    | (refine ⟨fun c hc => ?_⟩; cases c <;> first | rfl | exact absurd (by decide) hc))

theorem State.endTracker_only (s : State) (i : Nat) (reason : Nat) :
    State.onlyIn [.freeCtr, .regs, .fab, .tiles, .cleats, .sites, .lan, .cmds, .xlt, .ports, .boot, .fid, .unread, .out] s (State.endTracker s i reason) := by
  unfold State.endTracker
  repeat' (first
    | intro _
    | ((with_reducible apply Comp.sub_ok); exact rfl)
    | with_reducible apply State.onlyIn.refl
    | with_reducible assumption
    | with_reducible apply State.onlyIn.foldl
    | dsimp only
    | split
    | with_reducible apply State.onlyIn.step (State.sigsGo_only _)
    | with_reducible apply State.onlyIn.step (State.retryWaits_only _)
    | with_reducible apply State.onlyIn.step (State.tellOwner_only _ _ _ _)
    | with_reducible apply State.onlyIn.step (State.tileGo_only _ _)
    | with_reducible apply State.onlyIn.step (State.retryPuts_only _)
    | with_reducible apply State.onlyIn.step (State.freeTrk_only _ _ _))

theorem State.checkTracker_only (s : State) (i : Nat) :
    State.onlyIn [.freeCtr, .regs, .fab, .tiles, .cleats, .sites, .lan, .cmds, .xlt, .ports, .boot, .fid, .unread, .out] s (State.checkTracker s i) := by
  unfold State.checkTracker
  repeat' (first
    | intro _
    | ((with_reducible apply Comp.sub_ok); exact rfl)
    | with_reducible apply State.onlyIn.refl
    | with_reducible assumption
    | with_reducible apply State.onlyIn.foldl
    | dsimp only
    | split
    | with_reducible apply State.onlyIn.step (State.endTracker_only _ _ _))

theorem State.sourceRead_only (s : State) (i : Nat) (off : Nat) (status : BitVec 3) (d : BitVec 256) (poison : Bool) :
    State.onlyIn [.freeCtr, .regs, .fab, .tiles, .cleats, .sites, .lan, .cmds, .xlt, .ports, .boot, .fid, .unread, .out] s (State.sourceRead s i off status d poison) := by
  unfold State.sourceRead
  repeat' (first
    | intro _
    | ((with_reducible apply Comp.sub_ok); exact rfl)
    | with_reducible apply State.onlyIn.refl
    | with_reducible assumption
    | with_reducible apply State.onlyIn.foldl
    | dsimp only
    | split
    | with_reducible apply State.onlyIn.step (State.checkTracker_only _ _)
    | with_reducible apply State.onlyIn.step (State.putDone_only _ _ _ _ _)
    | with_reducible apply State.onlyIn.step (State.pumpPut_only _ _ _)
    | with_reducible apply State.onlyIn.step (State.setTracker_only _ _ _))

theorem State.countMsg_only (s : State) (e : BitVec 256) (m : LMsg) :
    State.onlyIn [.freeCtr, .regs, .fab, .tiles, .cleats, .sites, .lan, .cmds, .xlt, .ports, .boot, .fid, .unread, .out] s (State.countMsg s e m) := by
  unfold State.countMsg
  repeat' (first
    | intro _
    | ((with_reducible apply Comp.sub_ok); exact rfl)
    | with_reducible apply State.onlyIn.refl
    | with_reducible assumption
    | with_reducible apply State.onlyIn.foldl
    | dsimp only
    | split
    | with_reducible apply State.onlyIn.step (State.checkTracker_only _ _)
    | with_reducible apply State.onlyIn.step (State.setTracker_only _ _ _)
    | with_reducible apply State.onlyIn.step (State.sendMsg_only _ _)
    | with_reducible apply State.onlyIn.step (State.sendInc_only _ _ _ _)
    | with_reducible apply State.onlyIn.step (State.fidEvent_only _ _ _ _ _ _ _))

theorem State.fragWritten_only (s : State) (id : Nat) (status : BitVec 3) (poisoned : Bool) :
    State.onlyIn [.freeCtr, .regs, .fab, .tiles, .cleats, .sites, .lan, .cmds, .xlt, .ports, .boot, .fid, .unread, .out] s (State.fragWritten s id status poisoned) := by
  unfold State.fragWritten
  repeat' (first
    | intro _
    | ((with_reducible apply Comp.sub_ok); exact rfl)
    | with_reducible apply State.onlyIn.refl
    | with_reducible assumption
    | (simp only [State.onlyIn.freeCtr (l := [.freeCtr, .regs, .fab, .tiles, .cleats, .sites, .lan, .cmds, .xlt, .ports, .boot, .fid, .unread, .out]) rfl, State.onlyIn.regs (l := [.freeCtr, .regs, .fab, .tiles, .cleats, .sites, .lan, .cmds, .xlt, .ports, .boot, .fid, .unread, .out]) rfl, State.onlyIn.fab (l := [.freeCtr, .regs, .fab, .tiles, .cleats, .sites, .lan, .cmds, .xlt, .ports, .boot, .fid, .unread, .out]) rfl, State.onlyIn.tiles (l := [.freeCtr, .regs, .fab, .tiles, .cleats, .sites, .lan, .cmds, .xlt, .ports, .boot, .fid, .unread, .out]) rfl, State.onlyIn.cleats (l := [.freeCtr, .regs, .fab, .tiles, .cleats, .sites, .lan, .cmds, .xlt, .ports, .boot, .fid, .unread, .out]) rfl, State.onlyIn.sites (l := [.freeCtr, .regs, .fab, .tiles, .cleats, .sites, .lan, .cmds, .xlt, .ports, .boot, .fid, .unread, .out]) rfl, State.onlyIn.lan (l := [.freeCtr, .regs, .fab, .tiles, .cleats, .sites, .lan, .cmds, .xlt, .ports, .boot, .fid, .unread, .out]) rfl, State.onlyIn.cmds (l := [.freeCtr, .regs, .fab, .tiles, .cleats, .sites, .lan, .cmds, .xlt, .ports, .boot, .fid, .unread, .out]) rfl, State.onlyIn.xlt (l := [.freeCtr, .regs, .fab, .tiles, .cleats, .sites, .lan, .cmds, .xlt, .ports, .boot, .fid, .unread, .out]) rfl, State.onlyIn.ports (l := [.freeCtr, .regs, .fab, .tiles, .cleats, .sites, .lan, .cmds, .xlt, .ports, .boot, .fid, .unread, .out]) rfl, State.onlyIn.boot (l := [.freeCtr, .regs, .fab, .tiles, .cleats, .sites, .lan, .cmds, .xlt, .ports, .boot, .fid, .unread, .out]) rfl, State.onlyIn.fid (l := [.freeCtr, .regs, .fab, .tiles, .cleats, .sites, .lan, .cmds, .xlt, .ports, .boot, .fid, .unread, .out]) rfl, State.onlyIn.unread (l := [.freeCtr, .regs, .fab, .tiles, .cleats, .sites, .lan, .cmds, .xlt, .ports, .boot, .fid, .unread, .out]) rfl, State.onlyIn.out (l := [.freeCtr, .regs, .fab, .tiles, .cleats, .sites, .lan, .cmds, .xlt, .ports, .boot, .fid, .unread, .out]) rfl])
    | with_reducible apply State.onlyIn.foldl
    | dsimp only
    | split
    | with_reducible apply State.onlyIn.step (State.countMsg_only _ _ _)
    | with_reducible apply State.onlyIn.step (State.refuseMsg_only _ _ _)
    | with_reducible apply State.onlyIn.step (State.ev_only _ _ _)
    | (refine ⟨fun c hc => ?_⟩; cases c <;> first | rfl | exact absurd (by decide) hc))

theorem State.getRead_only (s : State) (id : Nat) (off : Nat) (status : BitVec 3) (d : BitVec 256) (poison : Bool) :
    State.onlyIn [.regs, .lan, .ports, .unread, .out] s (State.getRead s id off status d poison) := by
  unfold State.getRead
  repeat' (first
    | intro _
    | ((with_reducible apply Comp.sub_ok); exact rfl)
    | with_reducible apply State.onlyIn.refl
    | with_reducible assumption
    | (simp only [State.onlyIn.regs (l := [.regs, .lan, .ports, .unread, .out]) rfl, State.onlyIn.lan (l := [.regs, .lan, .ports, .unread, .out]) rfl, State.onlyIn.ports (l := [.regs, .lan, .ports, .unread, .out]) rfl, State.onlyIn.unread (l := [.regs, .lan, .ports, .unread, .out]) rfl, State.onlyIn.out (l := [.regs, .lan, .ports, .unread, .out]) rfl])
    | with_reducible apply State.onlyIn.foldl
    | dsimp only
    | split
    | with_reducible apply State.onlyIn.step (State.pumpGet_only _ _ _)
    | with_reducible apply State.onlyIn.step (State.refuseMsg_only _ _ _)
    | (refine ⟨fun c hc => ?_⟩; cases c <;> first | rfl | exact absurd (by decide) hc))

end Sys2Proof.Machine
end

