-- ==== Sys2Proof/Laws/OnlyCleats.lean ====
section
/-! SUPPORT. What each operation of Machine/Cleats.lean can change: the parts of the state outside the list are as before. -/

set_option linter.all false

namespace Sys2Proof.Machine

theorem State.kickTiles_only (s : State) (old : State) :
    State.onlyIn [.freeCtr, .regs, .fab, .tiles, .cleats, .sites, .lan, .cmds, .xlt, .ports, .boot, .fid, .unread, .out] s (State.kickTiles s old) := by
  unfold State.kickTiles
  repeat' (first
    | intro _
    | ((with_reducible apply Comp.sub_ok); exact rfl)
    | with_reducible apply State.onlyIn.refl
    | with_reducible assumption
    | with_reducible apply State.onlyIn.foldl
    | dsimp only
    | split
    | with_reducible apply State.onlyIn.step (State.tileGo_only _ _))

theorem State.bankInc_only (s : State) (c : BitVec 16) (inc : CleatVal) (a : Agent) :
    State.onlyIn [.freeCtr, .regs, .fab, .tiles, .cleats, .sites, .lan, .cmds, .xlt, .ports, .boot, .fid, .unread, .out] s (State.bankInc s c inc a) := by
  unfold State.bankInc
  repeat' (first
    | intro _
    | ((with_reducible apply Comp.sub_ok); exact rfl)
    | with_reducible apply State.onlyIn.refl
    | with_reducible assumption
    | with_reducible apply State.onlyIn.foldl
    | dsimp only
    | split
    | with_reducible apply State.onlyIn.step (State.kickTiles_only _ _)
    | with_reducible apply State.onlyIn.step (State.applyInc_only _ _ _ _))

theorem State.incDone_only (s : State) (m : IncMsg) (status : BitVec 3) :
    State.onlyIn [.sites, .out] s (State.incDone s m status) := by
  unfold State.incDone
  repeat' (first
    | intro _
    | ((with_reducible apply Comp.sub_ok); exact rfl)
    | with_reducible apply State.onlyIn.refl
    | with_reducible assumption
    | with_reducible apply State.onlyIn.foldl
    | dsimp only
    | split
    | with_reducible apply State.onlyIn.step (State.siteRsp_only _ _ _ _ _ _ _ _))

theorem State.cleatArrive_only (s : State) (m : IncMsg) :
    State.onlyIn [.freeCtr, .regs, .fab, .tiles, .cleats, .sites, .lan, .cmds, .xlt, .ports, .boot, .fid, .unread, .out] s (State.cleatArrive s m) := by
  unfold State.cleatArrive
  repeat' (first
    | intro _
    | ((with_reducible apply Comp.sub_ok); exact rfl)
    | with_reducible apply State.onlyIn.refl
    | with_reducible assumption
    | (simp only [State.onlyIn.freeCtr (l := [.freeCtr, .regs, .fab, .tiles, .cleats, .sites, .lan, .cmds, .xlt, .ports, .boot, .fid, .unread, .out]) rfl, State.onlyIn.regs (l := [.freeCtr, .regs, .fab, .tiles, .cleats, .sites, .lan, .cmds, .xlt, .ports, .boot, .fid, .unread, .out]) rfl, State.onlyIn.fab (l := [.freeCtr, .regs, .fab, .tiles, .cleats, .sites, .lan, .cmds, .xlt, .ports, .boot, .fid, .unread, .out]) rfl, State.onlyIn.tiles (l := [.freeCtr, .regs, .fab, .tiles, .cleats, .sites, .lan, .cmds, .xlt, .ports, .boot, .fid, .unread, .out]) rfl, State.onlyIn.cleats (l := [.freeCtr, .regs, .fab, .tiles, .cleats, .sites, .lan, .cmds, .xlt, .ports, .boot, .fid, .unread, .out]) rfl, State.onlyIn.sites (l := [.freeCtr, .regs, .fab, .tiles, .cleats, .sites, .lan, .cmds, .xlt, .ports, .boot, .fid, .unread, .out]) rfl, State.onlyIn.lan (l := [.freeCtr, .regs, .fab, .tiles, .cleats, .sites, .lan, .cmds, .xlt, .ports, .boot, .fid, .unread, .out]) rfl, State.onlyIn.cmds (l := [.freeCtr, .regs, .fab, .tiles, .cleats, .sites, .lan, .cmds, .xlt, .ports, .boot, .fid, .unread, .out]) rfl, State.onlyIn.xlt (l := [.freeCtr, .regs, .fab, .tiles, .cleats, .sites, .lan, .cmds, .xlt, .ports, .boot, .fid, .unread, .out]) rfl, State.onlyIn.ports (l := [.freeCtr, .regs, .fab, .tiles, .cleats, .sites, .lan, .cmds, .xlt, .ports, .boot, .fid, .unread, .out]) rfl, State.onlyIn.boot (l := [.freeCtr, .regs, .fab, .tiles, .cleats, .sites, .lan, .cmds, .xlt, .ports, .boot, .fid, .unread, .out]) rfl, State.onlyIn.fid (l := [.freeCtr, .regs, .fab, .tiles, .cleats, .sites, .lan, .cmds, .xlt, .ports, .boot, .fid, .unread, .out]) rfl, State.onlyIn.unread (l := [.freeCtr, .regs, .fab, .tiles, .cleats, .sites, .lan, .cmds, .xlt, .ports, .boot, .fid, .unread, .out]) rfl, State.onlyIn.out (l := [.freeCtr, .regs, .fab, .tiles, .cleats, .sites, .lan, .cmds, .xlt, .ports, .boot, .fid, .unread, .out]) rfl])
    | with_reducible apply State.onlyIn.foldl
    | dsimp only
    | split
    | with_reducible apply State.onlyIn.step (State.incDone_only _ _ _)
    | with_reducible apply State.onlyIn.step (State.bankInc_only _ _ _ _)
    | (refine ⟨fun c hc => ?_⟩; cases c <;> first | rfl | exact absurd (by decide) hc))

theorem execCleatIncrement_only {c : BitVec 16} {inc : CleatVal} {a : Agent} {s : State} {t1 : State} (h1 : execCleatIncrement c inc a s = .next t1) :
    State.onlyIn [.freeCtr, .regs, .fab, .tiles, .cleats, .sites, .lan, .cmds, .xlt, .ports, .boot, .fid, .unread, .out] s t1 := by
  unfold execCleatIncrement at h1
  repeat' (first | with_reducible apply atUnit_only h1 | with_reducible apply whenever_only h1 | with_reducible apply next_only h1 | (dsimp only at h1) | split at h1 | (simp only [reduceCtorEq] at h1; done))
  all_goals
    repeat' (first
      | intro _
      | ((with_reducible apply Comp.sub_ok); exact rfl)
      | with_reducible apply State.onlyIn.refl
      | with_reducible assumption
      | with_reducible apply State.onlyIn.foldl
      | dsimp only
      | split
      | with_reducible apply State.onlyIn.step (State.cleatArrive_only _ _))

theorem State.siteGate_only {l : List Comp} {s : State} {k : Nat} {slot : Nat} {tag : BitVec 12} {m : SiteMsg} {go : BitVec 12 → State → State} (hl : Comp.sub [.regs, .sites, .ports, .out] l = true) (hk_go : ∀ y0 y1, State.onlyIn l y1 (go y0 y1)) :
    State.onlyIn l s (State.siteGate s k slot tag m go) := by
  unfold State.siteGate
  repeat' (first
    | intro _
    | ((with_reducible refine Comp.sub_trans ?_ hl); exact rfl)
    | ((with_reducible apply Comp.sub_ok); exact rfl)
    | with_reducible apply State.onlyIn.refl
    | with_reducible assumption
    | with_reducible apply State.onlyIn.foldl
    | dsimp only
    | split
    | with_reducible apply State.onlyIn.step (State.answerMsg_only _ _ _ _)
    | with_reducible apply State.onlyIn.step (State.modSite_only _ _ _)
    | with_reducible apply State.onlyIn.step (State.ev_only _ _ _)
    | with_reducible refine .trans ?_ (hk_go _ _))

theorem State.siteGate_onlyStep {l : List Comp} {s0 : State} {s : State} {k : Nat} {slot : Nat} {tag : BitVec 12} {m : SiteMsg} {go : BitVec 12 → State → State} (hl : Comp.sub [.regs, .sites, .ports, .out] l = true) (hk_go : ∀ y0 y1, State.onlyIn l y1 (go y0 y1)) (h0 : State.onlyIn l s0 s) :
    State.onlyIn l s0 (State.siteGate s k slot tag m go) := h0.trans (State.siteGate_only hl hk_go)

theorem State.siteSvc_only (s : State) (k : Nat) (svc : BitVec 3) :
    State.onlyIn [.regs, .ports, .out] s (State.siteSvc s k svc).2 := by
  unfold State.siteSvc
  repeat' (first
    | intro _
    | ((with_reducible apply Comp.sub_ok); exact rfl)
    | with_reducible apply State.onlyIn.refl
    | with_reducible assumption
    | with_reducible apply State.onlyIn.foldl
    | with_reducible apply State.onlyIn.foldl2
    | dsimp only
    | split
    | with_reducible apply State.onlyIn.step (State.ev_only _ _ _))

theorem State.cleatSvc_only (s : State) (k : Nat) (svc : BitVec 3) :
    State.onlyIn [.regs, .ports, .out] s (State.cleatSvc s k svc) := by
  unfold State.cleatSvc
  repeat' (first
    | intro _
    | ((with_reducible apply Comp.sub_ok); exact rfl)
    | with_reducible apply State.onlyIn.refl
    | with_reducible assumption
    | with_reducible apply State.onlyIn.foldl
    | with_reducible apply State.onlyIn.foldl2
    | dsimp only
    | (split <;> first | (rename_i heq; have hx := congrArg (fun z => z.2) heq; dsimp only at hx; subst hx) | (rename_i heq; have hx := congrArg (fun z => z.2.2) heq; dsimp only at hx; subst hx) | skip)
    | split
    | with_reducible apply State.onlyIn.step (State.siteSvc_only _ _ _))

theorem State.doSig_only (s : State) (k : Nat) (slot : Nat) (tag : BitVec 12) (c : BitVec 16) (inc : CleatVal) (scope : BitVec 2) :
    State.onlyIn [.cleats, .sites, .out] s (State.doSig s k slot tag c inc scope) := by
  unfold State.doSig
  repeat' (first
    | intro _
    | ((with_reducible apply Comp.sub_ok); exact rfl)
    | with_reducible apply State.onlyIn.refl
    | with_reducible assumption
    | (simp only [State.onlyIn.cleats (l := [.cleats, .sites, .out]) rfl, State.onlyIn.sites (l := [.cleats, .sites, .out]) rfl, State.onlyIn.out (l := [.cleats, .sites, .out]) rfl])
    | with_reducible apply State.onlyIn.foldl
    | dsimp only
    | split
    | with_reducible apply State.onlyIn.step (State.sigsGo_only _)
    | with_reducible apply State.onlyIn.step (State.siteRsp_only _ _ _ _ _ _ _ _)
    | (refine ⟨fun c hc => ?_⟩; cases c <;> first | rfl | exact absurd (by decide) hc))

theorem State.doRd_only (s : State) (k : Nat) (slot : Nat) (tag : BitVec 12) (c : BitVec 16) :
    State.onlyIn [.sites, .out] s (State.doRd s k slot tag c) := by
  unfold State.doRd
  repeat' (first
    | intro _
    | ((with_reducible apply Comp.sub_ok); exact rfl)
    | with_reducible apply State.onlyIn.refl
    | with_reducible assumption
    | with_reducible apply State.onlyIn.foldl
    | dsimp only
    | split
    | with_reducible apply State.onlyIn.step (State.siteRsp_only _ _ _ _ _ _ _ _))

theorem State.doWatch_only (s : State) (k : Nat) (slot : Nat) (tag : BitVec 12) (c : BitVec 16) (target : CleatVal) (scope : BitVec 2) (tmo : BitVec 16) :
    State.onlyIn [.regs, .cleats, .sites, .fid, .out] s (State.doWatch s k slot tag c target scope tmo) := by
  unfold State.doWatch
  repeat' (first
    | intro _
    | ((with_reducible apply Comp.sub_ok); exact rfl)
    | with_reducible apply State.onlyIn.refl
    | with_reducible assumption
    | (simp only [State.onlyIn.regs (l := [.regs, .cleats, .sites, .fid, .out]) rfl, State.onlyIn.cleats (l := [.regs, .cleats, .sites, .fid, .out]) rfl, State.onlyIn.sites (l := [.regs, .cleats, .sites, .fid, .out]) rfl, State.onlyIn.fid (l := [.regs, .cleats, .sites, .fid, .out]) rfl, State.onlyIn.out (l := [.regs, .cleats, .sites, .fid, .out]) rfl])
    | with_reducible apply State.onlyIn.foldl
    | dsimp only
    | split
    | with_reducible apply State.onlyIn.step (State.trace_only _ _ _ _ _ _ _ _ _)
    | with_reducible apply State.onlyIn.step (State.siteRsp_only _ _ _ _ _ _ _ _)
    | (refine ⟨fun c hc => ?_⟩; cases c <;> first | rfl | exact absurd (by decide) hc))

theorem execCleatSig_only {k : Fin 8} {slot : Fin 16} {tag : SiteTag} {c : BitVec 16} {inc : CleatVal} {scope : BitVec 2} {s : State} {t1 : State} (h1 : execCleatSig k slot tag c inc scope s = .next t1) :
    State.onlyIn [.regs, .cleats, .sites, .ports, .out] s t1 := by
  unfold execCleatSig at h1
  repeat' (first | with_reducible apply atUnit_only h1 | with_reducible apply whenever_only h1 | with_reducible apply next_only h1 | (dsimp only at h1) | split at h1 | (simp only [reduceCtorEq] at h1; done))
  all_goals
    repeat' (first
      | intro _
      | ((with_reducible apply Comp.sub_ok); exact rfl)
      | with_reducible apply State.onlyIn.refl
      | with_reducible assumption
      | with_reducible apply State.onlyIn.foldl
      | dsimp only
      | split
      | with_reducible apply State.onlyIn.step (State.doSig_only _ _ _ _ _ _ _)
      | with_reducible apply State.onlyIn.step (State.cleatSvc_only _ _ _)
      | with_reducible apply State.siteGate_onlyStep)

theorem execCleatRd_only {k : Fin 8} {slot : Fin 16} {tag : SiteTag} {c : BitVec 16} {s : State} {t1 : State} (h1 : execCleatRd k slot tag c s = .next t1) :
    State.onlyIn [.regs, .sites, .ports, .out] s t1 := by
  unfold execCleatRd at h1
  repeat' (first | with_reducible apply atUnit_only h1 | with_reducible apply whenever_only h1 | with_reducible apply next_only h1 | (dsimp only at h1) | split at h1 | (simp only [reduceCtorEq] at h1; done))
  all_goals
    repeat' (first
      | intro _
      | ((with_reducible apply Comp.sub_ok); exact rfl)
      | with_reducible apply State.onlyIn.refl
      | with_reducible assumption
      | with_reducible apply State.onlyIn.foldl
      | dsimp only
      | split
      | with_reducible apply State.onlyIn.step (State.doRd_only _ _ _ _ _)
      | with_reducible apply State.onlyIn.step (State.cleatSvc_only _ _ _)
      | with_reducible apply State.siteGate_onlyStep)

theorem execCleatWatch_only {k : Fin 8} {slot : Fin 16} {tag : SiteTag} {c : BitVec 16} {target : CleatVal} {scope : BitVec 2} {tmo : BitVec 16} {s : State} {t1 : State} (h1 : execCleatWatch k slot tag c target scope tmo s = .next t1) :
    State.onlyIn [.regs, .cleats, .sites, .ports, .fid, .out] s t1 := by
  unfold execCleatWatch at h1
  repeat' (first | with_reducible apply atUnit_only h1 | with_reducible apply whenever_only h1 | with_reducible apply next_only h1 | (dsimp only at h1) | split at h1 | (simp only [reduceCtorEq] at h1; done))
  all_goals
    repeat' (first
      | intro _
      | ((with_reducible apply Comp.sub_ok); exact rfl)
      | with_reducible apply State.onlyIn.refl
      | with_reducible assumption
      | with_reducible apply State.onlyIn.foldl
      | dsimp only
      | split
      | with_reducible apply State.onlyIn.step (State.doWatch_only _ _ _ _ _ _ _ _)
      | with_reducible apply State.onlyIn.step (State.cleatSvc_only _ _ _)
      | with_reducible apply State.siteGate_onlyStep)

theorem execCleatWatchTimeout_only {k : Fin 8} {tag : BitVec 12} {s : State} {t1 : State} (h1 : execCleatWatchTimeout k tag s = .next t1) :
    State.onlyIn [.regs, .cleats, .sites, .fid, .out] s t1 := by
  unfold execCleatWatchTimeout at h1
  repeat' (first | with_reducible apply atUnit_only h1 | with_reducible apply whenever_only h1 | with_reducible apply next_only h1 | (dsimp only at h1) | split at h1 | (simp only [reduceCtorEq] at h1; done))
  all_goals
    repeat' (first
      | intro _
      | ((with_reducible apply Comp.sub_ok); exact rfl)
      | with_reducible apply State.onlyIn.refl
      | with_reducible assumption
      | (simp only [State.onlyIn.regs (l := [.regs, .cleats, .sites, .fid, .out]) rfl, State.onlyIn.cleats (l := [.regs, .cleats, .sites, .fid, .out]) rfl, State.onlyIn.sites (l := [.regs, .cleats, .sites, .fid, .out]) rfl, State.onlyIn.fid (l := [.regs, .cleats, .sites, .fid, .out]) rfl, State.onlyIn.out (l := [.regs, .cleats, .sites, .fid, .out]) rfl])
      | with_reducible apply State.onlyIn.foldl
      | dsimp only
      | split
      | with_reducible apply State.onlyIn.step (State.trace_only _ _ _ _ _ _ _ _ _)
      | with_reducible apply State.onlyIn.step (State.siteRsp_only _ _ _ _ _ _ _ _)
      | (refine ⟨fun c hc => ?_⟩; cases c <;> first | rfl | exact absurd (by decide) hc))

end Sys2Proof.Machine
end

