-- ==== Sys2Proof/Laws/OnlySites.lean ====
section
/-! SUPPORT. What each operation of Machine/Sites.lean can change: the parts of the state outside the list are as before. -/

set_option linter.all false

namespace Sys2Proof.Machine

theorem State.linkupStart_only (s : State) (k : Nat) :
    State.onlyIn [.regs, .fab, .sites] s (State.linkupStart s k) := by
  unfold State.linkupStart
  repeat' (first
    | intro _
    | ((with_reducible apply Comp.sub_ok); exact rfl)
    | with_reducible apply State.onlyIn.refl
    | with_reducible assumption
    | with_reducible apply State.onlyIn.foldl
    | dsimp only
    | split
    | with_reducible apply State.onlyIn.step (State.darken_only _ _)
    | with_reducible apply State.onlyIn.step (State.setSiteState_only _ _ _)
    | with_reducible apply State.onlyIn.step (State.modSite_only _ _ _)
    | with_reducible apply State.onlyIn.step (State.fset_only _ _ _ _ _))

theorem execSiteLinkupStart_only {k : Fin 8} {s : State} {t1 : State} (h1 : execSiteLinkupStart k s = .next t1) :
    State.onlyIn [.regs, .fab, .sites] s t1 := by
  unfold execSiteLinkupStart at h1
  repeat' (first | with_reducible apply atUnit_only h1 | with_reducible apply whenever_only h1 | with_reducible apply next_only h1 | (dsimp only at h1) | split at h1 | (simp only [reduceCtorEq] at h1; done))
  all_goals
    repeat' (first
      | intro _
      | ((with_reducible apply Comp.sub_ok); exact rfl)
      | with_reducible apply State.onlyIn.refl
      | with_reducible assumption
      | with_reducible apply State.onlyIn.foldl
      | dsimp only
      | split
      | with_reducible apply State.onlyIn.step (State.linkupStart_only _ _))

theorem State.atStep_only {l : List Comp} {s : State} {k : Nat} {step : LinkStep} {t t1 : State} (h1 : State.atStep s k step t = .next t1)
    (h : State.onlyIn l s t) : State.onlyIn l s t1 := by
  unfold State.atStep at h1
  refine atUnit_only h1 ?_
  split
  · exact h
  · exact .refl

theorem execSidebandTrained_only {k : Fin 8} {refusedPart : Bool} {s : State} {t1 : State} (h1 : execSidebandTrained k refusedPart s = .next t1) :
    State.onlyIn [.regs, .fab, .sites] s t1 := by
  unfold execSidebandTrained at h1
  repeat' (first | with_reducible apply atUnit_only h1 | with_reducible apply whenever_only h1 | with_reducible apply next_only h1 | refine State.atStep_only h1 ?_ | (dsimp only at h1) | split at h1 | (simp only [reduceCtorEq] at h1; done))
  all_goals
    repeat' (first
      | intro _
      | ((with_reducible apply Comp.sub_ok); exact rfl)
      | with_reducible apply State.onlyIn.refl
      | with_reducible assumption
      | with_reducible apply State.onlyIn.foldl
      | dsimp only
      | split
      | with_reducible apply State.onlyIn.step (State.failLink_only _ _ _)
      | with_reducible apply State.onlyIn.step (State.modSite_only _ _ _))

theorem State.modulesDown_only (s : State) (k : Nat) (live : Nat) :
    State.onlyIn [.regs, .ports, .out] s (State.modulesDown s k live) := by
  unfold State.modulesDown
  repeat' (first
    | intro _
    | ((with_reducible apply Comp.sub_ok); exact rfl)
    | with_reducible apply State.onlyIn.refl
    | with_reducible assumption
    | with_reducible apply State.onlyIn.foldl
    | dsimp only
    | split
    | with_reducible apply State.onlyIn.step (State.ev_only _ _ _)
    | with_reducible apply State.onlyIn.step (State.fset_only _ _ _ _ _))

theorem execMainbandTrained_only {k : Fin 8} {live : BitVec 16} {gts : BitVec 6} {s : State} {t1 : State} (h1 : execMainbandTrained k live gts s = .next t1) :
    State.onlyIn [.regs, .fab, .sites, .ports, .out] s t1 := by
  unfold execMainbandTrained at h1
  repeat' (first | with_reducible apply atUnit_only h1 | with_reducible apply whenever_only h1 | with_reducible apply next_only h1 | refine State.atStep_only h1 ?_ | (dsimp only at h1) | split at h1 | (simp only [reduceCtorEq] at h1; done))
  all_goals
    repeat' (first
      | intro _
      | ((with_reducible apply Comp.sub_ok); exact rfl)
      | with_reducible apply State.onlyIn.refl
      | with_reducible assumption
      | with_reducible apply State.onlyIn.foldl
      | dsimp only
      | split
      | with_reducible apply State.onlyIn.step (State.modulesDown_only _ _ _)
      | with_reducible apply State.onlyIn.step (State.showLive_only _ _ _)
      | with_reducible apply State.onlyIn.step (State.sideMsg_only _ _ _)
      | with_reducible apply State.onlyIn.step (State.failLink_only _ _ _)
      | with_reducible apply State.onlyIn.step (State.modSite_only _ _ _)
      | with_reducible apply State.onlyIn.step (State.fset_only _ _ _ _ _))

theorem State.hubTerms_only (s : State) (k : Nat) (h : Hello) :
    State.onlyIn [.regs, .sites, .ports, .out] s (State.hubTerms s k h) := by
  unfold State.hubTerms
  repeat' (first
    | intro _
    | ((with_reducible apply Comp.sub_ok); exact rfl)
    | with_reducible apply State.onlyIn.refl
    | with_reducible assumption
    | with_reducible apply State.onlyIn.foldl
    | dsimp only
    | split
    | with_reducible apply State.onlyIn.step (State.sideMsg_only _ _ _)
    | with_reducible apply State.onlyIn.step (State.setSiteState_only _ _ _)
    | with_reducible apply State.onlyIn.step (State.updGates_only _)
    | with_reducible apply State.onlyIn.step (State.setAp_only _ _ _ _)
    | with_reducible apply State.onlyIn.step (State.modSite_only _ _ _)
    | with_reducible apply State.onlyIn.step (State.fset_only _ _ _ _ _))

theorem execChipHello_only {k : Fin 8} {h : Hello} {s : State} {t1 : State} (h1 : execChipHello k h s = .next t1) :
    State.onlyIn [.regs, .fab, .sites, .ports, .out] s t1 := by
  unfold execChipHello at h1
  repeat' (first | with_reducible apply atUnit_only h1 | with_reducible apply whenever_only h1 | with_reducible apply next_only h1 | refine State.atStep_only h1 ?_ | (dsimp only at h1) | split at h1 | (simp only [reduceCtorEq] at h1; done))
  all_goals
    repeat' (first
      | intro _
      | ((with_reducible apply Comp.sub_ok); exact rfl)
      | with_reducible apply State.onlyIn.refl
      | with_reducible assumption
      | with_reducible apply State.onlyIn.foldl
      | dsimp only
      | split
      | with_reducible apply State.onlyIn.step (State.hubTerms_only _ _ _)
      | with_reducible apply State.onlyIn.step (State.failLink_only _ _ _)
      | with_reducible apply State.onlyIn.step (State.modSite_only _ _ _)
      | with_reducible apply State.onlyIn.step (State.fset_only _ _ _ _ _))

theorem execChipAccept_only {k : Fin 8} {accept : Bool} {s : State} {t1 : State} (h1 : execChipAccept k accept s = .next t1) :
    State.onlyIn [.freeCtr, .regs, .fab, .sites, .out] s t1 := by
  unfold execChipAccept at h1
  repeat' (first | with_reducible apply atUnit_only h1 | with_reducible apply whenever_only h1 | with_reducible apply next_only h1 | refine State.atStep_only h1 ?_ | (dsimp only at h1) | split at h1 | (simp only [reduceCtorEq] at h1; done))
  all_goals
    repeat' (first
      | intro _
      | ((with_reducible apply Comp.sub_ok); exact rfl)
      | with_reducible apply State.onlyIn.refl
      | with_reducible assumption
      | with_reducible apply State.onlyIn.foldl
      | dsimp only
      | split
      | with_reducible apply State.onlyIn.step (State.askMeasure_only _ _)
      | with_reducible apply State.onlyIn.step (State.failLink_only _ _ _))

theorem execLinkupTimeout_only {k : Fin 8} {s : State} {t1 : State} (h1 : execLinkupTimeout k s = .next t1) :
    State.onlyIn [.regs, .fab, .sites] s t1 := by
  unfold execLinkupTimeout at h1
  repeat' (first | with_reducible apply atUnit_only h1 | with_reducible apply whenever_only h1 | with_reducible apply next_only h1 | (dsimp only at h1) | split at h1 | (simp only [reduceCtorEq] at h1; done))
  all_goals
    repeat' (first
      | intro _
      | ((with_reducible apply Comp.sub_ok); exact rfl)
      | with_reducible apply State.onlyIn.refl
      | with_reducible assumption
      | with_reducible apply State.onlyIn.foldl
      | dsimp only
      | split
      | with_reducible apply State.onlyIn.step (State.failLink_only _ _ _))

theorem execMeasureRsp_only {k : Fin 8} {digests : MeasRsp} {leaf : BitVec 512} {s : State} {t1 : State} (h1 : execMeasureRsp k digests leaf s = .next t1) :
    State.onlyIn [.regs, .fab, .sites] s t1 := by
  unfold execMeasureRsp at h1
  repeat' (first | with_reducible apply atUnit_only h1 | with_reducible apply whenever_only h1 | with_reducible apply next_only h1 | refine State.atStep_only h1 ?_ | (dsimp only at h1) | split at h1 | (simp only [reduceCtorEq] at h1; done))
  all_goals
    repeat' (first
      | intro _
      | ((with_reducible apply Comp.sub_ok); exact rfl)
      | with_reducible apply State.onlyIn.refl
      | with_reducible assumption
      | with_reducible apply State.onlyIn.foldl
      | dsimp only
      | split
      | with_reducible apply State.onlyIn.step (State.failLink_only _ _ _)
      | with_reducible apply State.onlyIn.step (State.modSite_only _ _ _))

theorem State.measured_only (s : State) (k : Nat) :
    State.onlyIn [.regs, .sites, .out] s (State.measured s k) := by
  unfold State.measured
  repeat' (first
    | intro _
    | ((with_reducible apply Comp.sub_ok); exact rfl)
    | with_reducible apply State.onlyIn.refl
    | with_reducible assumption
    | with_reducible apply State.onlyIn.foldl
    | dsimp only
    | split
    | with_reducible apply State.onlyIn.step (State.sideMsg_only _ _ _)
    | with_reducible apply State.onlyIn.step (State.setSiteState_only _ _ _)
    | with_reducible apply State.onlyIn.step (State.modSite_only _ _ _)
    | with_reducible apply State.onlyIn.step (State.fset_only _ _ _ _ _))

theorem execMeasureVerified_only {k : Fin 8} {chainOk : Bool} {identOk : Bool} {sigOk : Bool} {s : State} {t1 : State} (h1 : execMeasureVerified k chainOk identOk sigOk s = .next t1) :
    State.onlyIn [.regs, .fab, .sites, .out] s t1 := by
  unfold execMeasureVerified at h1
  repeat' (first | with_reducible apply atUnit_only h1 | with_reducible apply whenever_only h1 | with_reducible apply next_only h1 | refine State.atStep_only h1 ?_ | (dsimp only at h1) | split at h1 | (simp only [reduceCtorEq] at h1; done))
  all_goals
    repeat' (first
      | intro _
      | ((with_reducible apply Comp.sub_ok); exact rfl)
      | with_reducible apply State.onlyIn.refl
      | with_reducible assumption
      | with_reducible apply State.onlyIn.foldl
      | dsimp only
      | split
      | with_reducible apply State.onlyIn.step (State.measured_only _ _)
      | with_reducible apply State.onlyIn.step (State.failLink_only _ _ _))

theorem execMeasureChanged_only {k : Fin 8} {s : State} {t1 : State} (h1 : execMeasureChanged k s = .next t1) :
    State.onlyIn [.freeCtr, .regs, .fab, .hank, .cleats, .sites, .cmds, .pwr, .ports, .fid, .out] s t1 := by
  unfold execMeasureChanged at h1
  repeat' (first | with_reducible apply atUnit_only h1 | with_reducible apply whenever_only h1 | with_reducible apply next_only h1 | (dsimp only at h1) | split at h1 | (simp only [reduceCtorEq] at h1; done))
  all_goals
    repeat' (first
      | intro _
      | ((with_reducible apply Comp.sub_ok); exact rfl)
      | with_reducible apply State.onlyIn.refl
      | with_reducible assumption
      | with_reducible apply State.onlyIn.foldl
      | dsimp only
      | split
      | with_reducible apply State.onlyIn.step (State.unbindStart_only _ _ _)
      | with_reducible apply State.onlyIn.step (State.remeasure_only _ _)
      | with_reducible apply State.onlyIn.step (State.modSite_only _ _ _)
      | with_reducible apply State.onlyIn.step (State.ev_only _ _ _))

theorem State.badFrame_only (s : State) (k : Nat) (j : Nat) :
    State.onlyIn [.regs, .sites, .ports, .out] s (State.badFrame s k j) := by
  unfold State.badFrame
  repeat' (first
    | intro _
    | ((with_reducible apply Comp.sub_ok); exact rfl)
    | with_reducible apply State.onlyIn.refl
    | with_reducible assumption
    | with_reducible apply State.onlyIn.foldl
    | dsimp only
    | split
    | with_reducible apply State.onlyIn.step (State.idleFrame_only _ _ _)
    | with_reducible apply State.onlyIn.step (State.setAp_only _ _ _ _)
    | with_reducible apply State.onlyIn.step (State.ev_only _ _ _)
    | with_reducible apply State.onlyIn.step (State.pushOut_only _ _)
    | with_reducible apply State.onlyIn.step (State.fadd_only _ _ _ _ _))

theorem State.goodFrame_only (s : State) (k : Nat) (j : Nat) (f : Frame) :
    State.onlyIn [.freeCtr, .regs, .fab, .hank, .cleats, .sites, .lan, .cmds, .xlt, .pwr, .sec, .ports, .fid, .unread, .out] s (State.goodFrame s k j f) := by
  unfold State.goodFrame
  repeat' (first
    | intro _
    | ((with_reducible apply Comp.sub_ok); exact rfl)
    | with_reducible apply State.onlyIn.refl
    | with_reducible assumption
    | with_reducible apply State.onlyIn.foldl
    | dsimp only
    | split
    | with_reducible apply State.onlyIn.step (State.apReplay_only _ _ _)
    | with_reducible apply State.onlyIn.step (State.flushAp_only _ _ _ _)
    | with_reducible apply State.onlyIn.step (State.idleFrame_only _ _ _)
    | with_reducible apply State.onlyIn.step (State.setAp_only _ _ _ _))

theorem execTspFrame_only {k : Fin 8} {j : Fin 16} {f : Frame} {vcOk : Bool} {s : State} {t1 : State} (h1 : execTspFrame k j f vcOk s = .next t1) :
    State.onlyIn [.freeCtr, .regs, .fab, .hank, .cleats, .sites, .lan, .cmds, .xlt, .pwr, .sec, .ports, .fid, .unread, .out] s t1 := by
  unfold execTspFrame at h1
  repeat' (first | with_reducible apply atUnit_only h1 | with_reducible apply whenever_only h1 | with_reducible apply next_only h1 | (dsimp only at h1) | split at h1 | (simp only [reduceCtorEq] at h1; done))
  all_goals
    repeat' (first
      | intro _
      | ((with_reducible apply Comp.sub_ok); exact rfl)
      | with_reducible apply State.onlyIn.refl
      | with_reducible assumption
      | with_reducible apply State.onlyIn.foldl
      | dsimp only
      | split
      | with_reducible apply State.onlyIn.step (State.goodFrame_only _ _ _ _)
      | with_reducible apply State.onlyIn.step (State.badFrame_only _ _ _))

theorem execTspReplayTimeout_only {k : Fin 8} {j : Fin 16} {s : State} {t1 : State} (h1 : execTspReplayTimeout k j s = .next t1) :
    State.onlyIn [.freeCtr, .regs, .fab, .hank, .cleats, .sites, .lan, .cmds, .xlt, .pwr, .sec, .ports, .fid, .unread, .out] s t1 := by
  unfold execTspReplayTimeout at h1
  repeat' (first | with_reducible apply atUnit_only h1 | with_reducible apply whenever_only h1 | with_reducible apply next_only h1 | (dsimp only at h1) | split at h1 | (simp only [reduceCtorEq] at h1; done))
  all_goals
    repeat' (first
      | intro _
      | ((with_reducible apply Comp.sub_ok); exact rfl)
      | with_reducible apply State.onlyIn.refl
      | with_reducible assumption
      | with_reducible apply State.onlyIn.foldl
      | dsimp only
      | split
      | with_reducible apply State.onlyIn.step (State.apReplay_only _ _ _))

theorem execAttachRetrainDone_only {k : Fin 8} {j : Fin 16} {ok : Bool} {s : State} {t1 : State} (h1 : execAttachRetrainDone k j ok s = .next t1) :
    State.onlyIn [.freeCtr, .regs, .fab, .hank, .cleats, .sites, .lan, .cmds, .xlt, .pwr, .sec, .ports, .fid, .unread, .out] s t1 := by
  unfold execAttachRetrainDone at h1
  repeat' (first | with_reducible apply atUnit_only h1 | with_reducible apply whenever_only h1 | with_reducible apply next_only h1 | (dsimp only at h1) | split at h1 | (simp only [reduceCtorEq] at h1; done))
  all_goals
    repeat' (first
      | intro _
      | ((with_reducible apply Comp.sub_ok); exact rfl)
      | with_reducible apply State.onlyIn.refl
      | with_reducible assumption
      | with_reducible apply State.onlyIn.foldl
      | dsimp only
      | split
      | with_reducible apply State.onlyIn.step (State.apDown_only _ _ _)
      | with_reducible apply State.onlyIn.step (State.flushAp_only _ _ _ _)
      | with_reducible apply State.onlyIn.step (State.setAp_only _ _ _ _))

theorem State.siteGives_only (s : State) (k : Nat) (p : Pkt) :
    State.onlyIn [.sites] s (State.siteGives s k p) := by
  unfold State.siteGives
  repeat' (first
    | intro _
    | ((with_reducible apply Comp.sub_ok); exact rfl)
    | with_reducible apply State.onlyIn.refl
    | with_reducible assumption
    | with_reducible apply State.onlyIn.foldl
    | dsimp only
    | split
    | with_reducible apply State.onlyIn.step (State.setSiteLine_only _ _ _ _))

theorem State.doReq_only (s : State) (k : Nat) (slot : Nat) (tag : BitVec 12) (ctx : BitVec 12) (p : Pkt) :
    State.onlyIn [.regs, .fab, .sites, .ports, .out] s (State.doReq s k slot tag ctx p) := by
  unfold State.doReq
  repeat' (first
    | intro _
    | ((with_reducible apply Comp.sub_ok); exact rfl)
    | with_reducible apply State.onlyIn.refl
    | with_reducible assumption
    | with_reducible apply State.onlyIn.foldl
    | with_reducible apply State.onlyIn.foldl2
    | dsimp only
    | (split <;> first | (rename_i heq; have hx := congrArg (fun z => z.2) heq; dsimp only at hx; subst hx) | (rename_i heq; have hx := congrArg (fun z => z.2.2) heq; dsimp only at hx; subst hx) | skip)
    | split
    | with_reducible apply State.onlyIn.step (State.siteGives_only _ _ _)
    | with_reducible apply State.onlyIn.step (State.siteSvc_only _ _ _)
    | with_reducible apply State.onlyIn.step (State.answerMsg_only _ _ _ _)
    | with_reducible apply State.onlyIn.step (State.request_only _ _ _ _)
    | with_reducible apply State.onlyIn.step (State.fidEvent_only _ _ _ _ _ _ _))

theorem State.replayHeld_only (k : Nat) (s : State) (m : SiteMsg) :
    State.onlyIn [.regs, .fab, .cleats, .sites, .ports, .fid, .out] s (State.replayHeld k s m) := by
  unfold State.replayHeld
  repeat' (first
    | intro _
    | ((with_reducible apply Comp.sub_ok); exact rfl)
    | with_reducible apply State.onlyIn.refl
    | with_reducible assumption
    | with_reducible apply State.onlyIn.foldl
    | dsimp only
    | split
    | with_reducible apply State.onlyIn.step (State.doReq_only _ _ _ _ _ _)
    | with_reducible apply State.onlyIn.step (State.doWatch_only _ _ _ _ _ _ _ _)
    | with_reducible apply State.onlyIn.step (State.doRd_only _ _ _ _ _)
    | with_reducible apply State.onlyIn.step (State.doSig_only _ _ _ _ _ _ _)
    | with_reducible apply State.onlyIn.step (State.cleatSvc_only _ _ _)
    | with_reducible apply State.siteGate_onlyStep)

theorem execSiteRequest_only {k : Fin 8} {j : Fin 16} {slot : Fin 16} {tag : BitVec 12} {p : Pkt} {s : State} {t1 : State} (h1 : execSiteRequest k j slot tag p s = .next t1) :
    State.onlyIn [.regs, .fab, .cleats, .sites, .ports, .out] s t1 := by
  unfold execSiteRequest at h1
  repeat' (first | with_reducible apply atUnit_only h1 | with_reducible apply whenever_only h1 | with_reducible apply next_only h1 | (dsimp only at h1) | split at h1 | (simp only [reduceCtorEq] at h1; done))
  all_goals
    repeat' (first
      | intro _
      | ((with_reducible apply Comp.sub_ok); exact rfl)
      | with_reducible apply State.onlyIn.refl
      | with_reducible assumption
      | with_reducible apply State.onlyIn.foldl
      | dsimp only
      | split
      | with_reducible apply State.onlyIn.step (State.doReq_only _ _ _ _ _ _)
      | with_reducible apply State.siteGate_onlyStep
      | with_reducible apply State.onlyIn.step (State.sigsGo_only _))

theorem State.ctlGate_only {l : List Comp} {s : State} {k : Nat} {slot : Nat} {op : BitVec 8} {tag : BitVec 12} {go : BitVec 12 → State → State} (hl : Comp.sub [.regs, .sites, .ports, .out] l = true) (hk_go : ∀ y0 y1, State.onlyIn l y1 (go y0 y1)) :
    State.onlyIn l s (State.ctlGate s k slot op tag go) := by
  unfold State.ctlGate
  repeat' (first
    | intro _
    | ((with_reducible refine Comp.sub_trans ?_ hl); exact rfl)
    | ((with_reducible apply Comp.sub_ok); exact rfl)
    | with_reducible apply State.onlyIn.refl
    | with_reducible assumption
    | with_reducible apply State.onlyIn.foldl
    | dsimp only
    | split
    | with_reducible apply State.onlyIn.step (State.answerMsg_only _ _ _ _)
    | with_reducible apply State.onlyIn.step (State.modSite_only _ _ _)
    | with_reducible apply State.onlyIn.step (State.ev_only _ _ _)
    | with_reducible refine .trans ?_ (hk_go _ _))

theorem State.ctlGate_onlyStep {l : List Comp} {s0 : State} {s : State} {k : Nat} {slot : Nat} {op : BitVec 8} {tag : BitVec 12} {go : BitVec 12 → State → State} (hl : Comp.sub [.regs, .sites, .ports, .out] l = true) (hk_go : ∀ y0 y1, State.onlyIn l y1 (go y0 y1)) (h0 : State.onlyIn l s0 s) :
    State.onlyIn l s0 (State.ctlGate s k slot op tag go) := h0.trans (State.ctlGate_only hl hk_go)

theorem State.xlateRsp_only (s : State) (k : Nat) (tag : BitVec 12) (raw : Nat) (result : Nat) :
    State.onlyIn [.sites, .out] s (State.xlateRsp s k tag raw result) := by
  unfold State.xlateRsp
  repeat' (first
    | intro _
    | ((with_reducible apply Comp.sub_ok); exact rfl)
    | with_reducible apply State.onlyIn.refl
    | with_reducible assumption
    | with_reducible apply State.onlyIn.foldl
    | dsimp only
    | split
    | with_reducible apply State.onlyIn.step (State.siteOut_only _ _ _ _))

theorem State.doXlate_only (s : State) (k : Nat) (slot : Nat) (tag : BitVec 12) (ctx : BitVec 12) (dva : Nat) :
    State.onlyIn [.freeCtr, .regs, .fab, .sites, .xlt, .ports, .boot, .unread, .out] s (State.doXlate s k slot tag ctx dva) := by
  unfold State.doXlate
  repeat' (first
    | intro _
    | ((with_reducible apply Comp.sub_ok); exact rfl)
    | with_reducible apply State.onlyIn.refl
    | with_reducible assumption
    | with_reducible apply State.onlyIn.foldl
    | dsimp only
    | split
    | with_reducible apply State.onlyIn.step (State.xlateRsp_only _ _ _ _ _)
    | with_reducible apply State.onlyIn.step (State.xltFault_only _ _ _ _ _ _ _ _)
    | with_reducible apply State.onlyIn.step (State.cacheEnt_only _ _)
    | with_reducible apply State.onlyIn.step (State.walked_only _ _ _ _))

theorem execXlate_only {k : Fin 8} {slot : Fin 16} {tag : BitVec 12} {dva : Dva} {s : State} {t1 : State} (h1 : execXlate k slot tag dva s = .next t1) :
    State.onlyIn [.freeCtr, .regs, .fab, .sites, .xlt, .ports, .boot, .unread, .out] s t1 := by
  unfold execXlate at h1
  repeat' (first | with_reducible apply atUnit_only h1 | with_reducible apply whenever_only h1 | with_reducible apply next_only h1 | (dsimp only at h1) | split at h1 | (simp only [reduceCtorEq] at h1; done))
  all_goals
    repeat' (first
      | intro _
      | ((with_reducible apply Comp.sub_ok); exact rfl)
      | with_reducible apply State.onlyIn.refl
      | with_reducible assumption
      | with_reducible apply State.onlyIn.foldl
      | dsimp only
      | split
      | with_reducible apply State.onlyIn.step (State.doXlate_only _ _ _ _ _ _)
      | with_reducible apply State.ctlGate_onlyStep)

theorem execInvAck_only {k : Fin 8} {s : State} {t1 : State} (h1 : execInvAck k s = .next t1) :
    State.onlyIn [.sites, .cmds] s t1 := by
  unfold execInvAck at h1
  repeat' (first | with_reducible apply atUnit_only h1 | with_reducible apply whenever_only h1 | with_reducible apply next_only h1 | (dsimp only at h1) | split at h1 | (simp only [reduceCtorEq] at h1; done))
  all_goals
    repeat' (first
      | intro _
      | ((with_reducible apply Comp.sub_ok); exact rfl)
      | with_reducible apply State.onlyIn.refl
      | with_reducible assumption
      | with_reducible apply State.onlyIn.foldl
      | dsimp only
      | split
      | with_reducible apply State.onlyIn.step (State.ackInval_only _ _)
      | with_reducible apply State.onlyIn.step (State.modSite_only _ _ _))

theorem execInvTimeout_only {k : Fin 8} {s : State} {t1 : State} (h1 : execInvTimeout k s = .next t1) :
    State.onlyIn [.freeCtr, .regs, .fab, .hank, .cleats, .sites, .lan, .cmds, .xlt, .pwr, .sec, .ports, .fid, .unread, .out] s t1 := by
  unfold execInvTimeout at h1
  repeat' (first | with_reducible apply atUnit_only h1 | with_reducible apply whenever_only h1 | with_reducible apply next_only h1 | (dsimp only at h1) | split at h1 | (simp only [reduceCtorEq] at h1; done))
  all_goals
    repeat' (first
      | intro _
      | ((with_reducible apply Comp.sub_ok); exact rfl)
      | with_reducible apply State.onlyIn.refl
      | with_reducible assumption
      | with_reducible apply State.onlyIn.foldl
      | dsimp only
      | split
      | with_reducible apply State.onlyIn.step (State.sever_only _ _ _))

theorem State.workDone_only (s : State) (k : Nat) (wtag : BitVec 4) (status : BitVec 8) (result : BitVec 8) :
    State.onlyIn [.fab, .sites, .cmds, .out] s (State.workDone s k wtag status result) := by
  unfold State.workDone
  repeat' (first
    | intro _
    | ((with_reducible apply Comp.sub_ok); exact rfl)
    | with_reducible apply State.onlyIn.refl
    | with_reducible assumption
    | with_reducible apply State.onlyIn.foldl
    | dsimp only
    | split
    | with_reducible apply State.onlyIn.step (State.unbindGo_only _ _)
    | with_reducible apply State.onlyIn.step (State.modSite_only _ _ _)
    | with_reducible apply State.onlyIn.step (State.setRun_only _ _))

theorem execWorkDone_only {k : Fin 8} {wtag : BitVec 4} {status : BitVec 8} {result : BitVec 8} {s : State} {t1 : State} (h1 : execWorkDone k wtag status result s = .next t1) :
    State.onlyIn [.fab, .sites, .cmds, .out] s t1 := by
  unfold execWorkDone at h1
  repeat' (first | with_reducible apply atUnit_only h1 | with_reducible apply whenever_only h1 | with_reducible apply next_only h1 | (dsimp only at h1) | split at h1 | (simp only [reduceCtorEq] at h1; done))
  all_goals
    repeat' (first
      | intro _
      | ((with_reducible apply Comp.sub_ok); exact rfl)
      | with_reducible apply State.onlyIn.refl
      | with_reducible assumption
      | with_reducible apply State.onlyIn.foldl
      | dsimp only
      | split
      | with_reducible apply State.onlyIn.step (State.workDone_only _ _ _ _ _))

theorem execPutReq_only {k : Fin 8} {slot : Fin 16} {tag : BitVec 12} {dev : BitVec 5} {handle : BitVec 16} {offset : BitVec 40} {len : BitVec 24} {src : Dpa} {red : BitVec 2} {cached : Bool} {s : State} {t1 : State} (h1 : execPutReq k slot tag dev handle offset len src red cached s = .next t1) :
    State.onlyIn [.freeCtr, .regs, .fab, .tiles, .sites, .lan, .cmds, .xlt, .ports, .boot, .fid, .unread, .out] s t1 := by
  unfold execPutReq at h1
  repeat' (first | with_reducible apply atUnit_only h1 | with_reducible apply whenever_only h1 | with_reducible apply next_only h1 | (dsimp only at h1) | split at h1 | (simp only [reduceCtorEq] at h1; done))
  all_goals
    repeat' (first
      | intro _
      | ((with_reducible apply Comp.sub_ok); exact rfl)
      | with_reducible apply State.onlyIn.refl
      | with_reducible assumption
      | (simp only [State.onlyIn.freeCtr (l := [.freeCtr, .regs, .fab, .tiles, .sites, .lan, .cmds, .xlt, .ports, .boot, .fid, .unread, .out]) rfl, State.onlyIn.regs (l := [.freeCtr, .regs, .fab, .tiles, .sites, .lan, .cmds, .xlt, .ports, .boot, .fid, .unread, .out]) rfl, State.onlyIn.fab (l := [.freeCtr, .regs, .fab, .tiles, .sites, .lan, .cmds, .xlt, .ports, .boot, .fid, .unread, .out]) rfl, State.onlyIn.tiles (l := [.freeCtr, .regs, .fab, .tiles, .sites, .lan, .cmds, .xlt, .ports, .boot, .fid, .unread, .out]) rfl, State.onlyIn.sites (l := [.freeCtr, .regs, .fab, .tiles, .sites, .lan, .cmds, .xlt, .ports, .boot, .fid, .unread, .out]) rfl, State.onlyIn.lan (l := [.freeCtr, .regs, .fab, .tiles, .sites, .lan, .cmds, .xlt, .ports, .boot, .fid, .unread, .out]) rfl, State.onlyIn.cmds (l := [.freeCtr, .regs, .fab, .tiles, .sites, .lan, .cmds, .xlt, .ports, .boot, .fid, .unread, .out]) rfl, State.onlyIn.xlt (l := [.freeCtr, .regs, .fab, .tiles, .sites, .lan, .cmds, .xlt, .ports, .boot, .fid, .unread, .out]) rfl, State.onlyIn.ports (l := [.freeCtr, .regs, .fab, .tiles, .sites, .lan, .cmds, .xlt, .ports, .boot, .fid, .unread, .out]) rfl, State.onlyIn.boot (l := [.freeCtr, .regs, .fab, .tiles, .sites, .lan, .cmds, .xlt, .ports, .boot, .fid, .unread, .out]) rfl, State.onlyIn.fid (l := [.freeCtr, .regs, .fab, .tiles, .sites, .lan, .cmds, .xlt, .ports, .boot, .fid, .unread, .out]) rfl, State.onlyIn.unread (l := [.freeCtr, .regs, .fab, .tiles, .sites, .lan, .cmds, .xlt, .ports, .boot, .fid, .unread, .out]) rfl, State.onlyIn.out (l := [.freeCtr, .regs, .fab, .tiles, .sites, .lan, .cmds, .xlt, .ports, .boot, .fid, .unread, .out]) rfl])
      | with_reducible apply State.onlyIn.foldl
      | dsimp only
      | split
      | with_reducible apply State.ctlGate_onlyStep
      | with_reducible apply State.onlyIn.step (State.startPutFor_only _ _)
      | with_reducible apply State.onlyIn.step (State.answerMsg_only _ _ _ _)
      | (refine ⟨fun c hc => ?_⟩; cases c <;> first | rfl | exact absurd (by decide) hc))

theorem execScrubDone_only {k : Fin 8} {s : State} {t1 : State} (h1 : execScrubDone k s = .next t1) :
    State.onlyIn [.freeCtr, .regs, .sites, .cmds, .xlt, .ports, .fid, .out] s t1 := by
  unfold execScrubDone at h1
  repeat' (first | with_reducible apply atUnit_only h1 | with_reducible apply whenever_only h1 | with_reducible apply next_only h1 | (dsimp only at h1) | split at h1 | (simp only [reduceCtorEq] at h1; done))
  all_goals
    repeat' (first
      | intro _
      | ((with_reducible apply Comp.sub_ok); exact rfl)
      | with_reducible apply State.onlyIn.refl
      | with_reducible assumption
      | with_reducible apply State.onlyIn.foldl
      | dsimp only
      | split
      | with_reducible apply State.onlyIn.step (State.unbindEnd_only _ _))

theorem execScrubTimeout_only {k : Fin 8} {s : State} {t1 : State} (h1 : execScrubTimeout k s = .next t1) :
    State.onlyIn [.freeCtr, .regs, .fab, .hank, .cleats, .sites, .lan, .cmds, .xlt, .pwr, .sec, .ports, .fid, .unread, .out] s t1 := by
  unfold execScrubTimeout at h1
  repeat' (first | with_reducible apply atUnit_only h1 | with_reducible apply whenever_only h1 | with_reducible apply next_only h1 | (dsimp only at h1) | split at h1 | (simp only [reduceCtorEq] at h1; done))
  all_goals
    repeat' (first
      | intro _
      | ((with_reducible apply Comp.sub_ok); exact rfl)
      | with_reducible apply State.onlyIn.refl
      | with_reducible assumption
      | with_reducible apply State.onlyIn.foldl
      | dsimp only
      | split
      | with_reducible apply State.onlyIn.step (State.sever_only _ _ _))

theorem State.powerSample_only (s : State) (k : Nat) (draw : Nat) :
    State.onlyIn [.freeCtr, .regs, .fab, .hank, .cleats, .sites, .lan, .cmds, .xlt, .pwr, .sec, .ports, .fid, .unread, .out] s (State.powerSample s k draw) := by
  unfold State.powerSample
  repeat' (first
    | intro _
    | ((with_reducible apply Comp.sub_ok); exact rfl)
    | with_reducible apply State.onlyIn.refl
    | with_reducible assumption
    | with_reducible apply State.onlyIn.foldl
    | dsimp only
    | split
    | with_reducible apply State.onlyIn.step (State.replayHeld_only _ _ _)
    | with_reducible apply State.releaseHeld_onlyStep
    | with_reducible apply State.onlyIn.step (State.sever_only _ _ _)
    | with_reducible apply State.onlyIn.step (State.modSite_only _ _ _)
    | with_reducible apply State.onlyIn.step (State.ev_only _ _ _)
    | with_reducible apply State.onlyIn.step (State.setSite_only _ _ _)
    | with_reducible apply State.onlyIn.step (State.fset_only _ _ _ _ _))

theorem execSitePowerSample_only {k : Fin 8} {draw : BitVec 12} {s : State} {t1 : State} (h1 : execSitePowerSample k draw s = .next t1) :
    State.onlyIn [.freeCtr, .regs, .fab, .hank, .cleats, .sites, .lan, .cmds, .xlt, .pwr, .sec, .ports, .fid, .unread, .out] s t1 := by
  unfold execSitePowerSample at h1
  repeat' (first | with_reducible apply atUnit_only h1 | with_reducible apply whenever_only h1 | with_reducible apply next_only h1 | (dsimp only at h1) | split at h1 | (simp only [reduceCtorEq] at h1; done))
  all_goals
    repeat' (first
      | intro _
      | ((with_reducible apply Comp.sub_ok); exact rfl)
      | with_reducible apply State.onlyIn.refl
      | with_reducible assumption
      | with_reducible apply State.onlyIn.foldl
      | dsimp only
      | split
      | with_reducible apply State.onlyIn.step (State.powerSample_only _ _ _))

theorem State.ctlReset_only (s : State) (k : Nat) :
    State.onlyIn [.freeCtr, .regs, .fab, .hank, .sites, .cmds, .pwr, .ports, .fid, .out] s (State.ctlReset s k) := by
  unfold State.ctlReset
  repeat' (first
    | intro _
    | ((with_reducible apply Comp.sub_ok); exact rfl)
    | with_reducible apply State.onlyIn.refl
    | with_reducible assumption
    | with_reducible apply State.onlyIn.foldl
    | dsimp only
    | split
    | with_reducible apply State.onlyIn.step (State.dropSiteLeave_only _ _ _)
    | with_reducible apply State.onlyIn.step (State.darken_only _ _)
    | with_reducible apply State.onlyIn.step (State.setSiteState_only _ _ _)
    | with_reducible apply State.onlyIn.step (State.modSite_only _ _ _)
    | with_reducible apply State.onlyIn.step (State.ev_only _ _ _))

theorem State.ctlRemeasure_only (s : State) (k : Nat) :
    State.onlyIn [.freeCtr, .regs, .sites, .ports, .out] s (State.ctlRemeasure s k) := by
  unfold State.ctlRemeasure
  repeat' (first
    | intro _
    | ((with_reducible apply Comp.sub_ok); exact rfl)
    | with_reducible apply State.onlyIn.refl
    | with_reducible assumption
    | with_reducible apply State.onlyIn.foldl
    | dsimp only
    | split
    | with_reducible apply State.onlyIn.step (State.remeasure_only _ _)
    | with_reducible apply State.onlyIn.step (State.ev_only _ _ _))

theorem execSiteCtlReset_only {k : Fin 8} {path : Path} {s : State} {t1 : State} (h1 : execSiteCtlReset k path s = .next t1) :
    State.onlyIn [.freeCtr, .regs, .fab, .hank, .sites, .cmds, .pwr, .ports, .fid, .out] s t1 := by
  unfold execSiteCtlReset at h1
  repeat' (first | with_reducible apply atUnit_only h1 | with_reducible apply whenever_only h1 | with_reducible apply next_only h1 | (dsimp only at h1) | split at h1 | (simp only [reduceCtorEq] at h1; done))
  all_goals
    repeat' (first
      | intro _
      | ((with_reducible apply Comp.sub_ok); exact rfl)
      | with_reducible apply State.onlyIn.refl
      | with_reducible assumption
      | with_reducible apply State.onlyIn.foldl
      | dsimp only
      | split
      | with_reducible apply State.onlyIn.step (State.ctlReset_only _ _)
      | with_reducible apply State.regWrite_onlyStep)

theorem execSiteCtlRemeasure_only {k : Fin 8} {path : Path} {s : State} {t1 : State} (h1 : execSiteCtlRemeasure k path s = .next t1) :
    State.onlyIn [.freeCtr, .regs, .sites, .ports, .out] s t1 := by
  unfold execSiteCtlRemeasure at h1
  repeat' (first | with_reducible apply atUnit_only h1 | with_reducible apply whenever_only h1 | with_reducible apply next_only h1 | (dsimp only at h1) | split at h1 | (simp only [reduceCtorEq] at h1; done))
  all_goals
    repeat' (first
      | intro _
      | ((with_reducible apply Comp.sub_ok); exact rfl)
      | with_reducible apply State.onlyIn.refl
      | with_reducible assumption
      | with_reducible apply State.onlyIn.foldl
      | dsimp only
      | split
      | with_reducible apply State.onlyIn.step (State.ctlRemeasure_only _ _)
      | with_reducible apply State.regWrite_onlyStep)

theorem State.writeSitePwr_only (s : State) (k : Nat) (v : Nat) :
    State.onlyIn [.regs, .sites, .ports, .out] s (State.writeSitePwr s k v) := by
  unfold State.writeSitePwr
  repeat' (first
    | intro _
    | ((with_reducible apply Comp.sub_ok); exact rfl)
    | with_reducible apply State.onlyIn.refl
    | with_reducible assumption
    | with_reducible apply State.onlyIn.foldl
    | dsimp only
    | split
    | with_reducible apply State.onlyIn.step (State.modSite_only _ _ _)
    | with_reducible apply State.onlyIn.step (State.ev_only _ _ _)
    | with_reducible apply State.onlyIn.step (State.fset_only _ _ _ _ _))

theorem execSitePwrWrite_only {k : Fin 8} {path : Path} {w : W32} {s : State} {t1 : State} (h1 : execSitePwrWrite k path w s = .next t1) :
    State.onlyIn [.regs, .sites, .ports, .out] s t1 := by
  unfold execSitePwrWrite at h1
  repeat' (first | with_reducible apply atUnit_only h1 | with_reducible apply whenever_only h1 | with_reducible apply next_only h1 | (dsimp only at h1) | split at h1 | (simp only [reduceCtorEq] at h1; done))
  all_goals
    repeat' (first
      | intro _
      | ((with_reducible apply Comp.sub_ok); exact rfl)
      | with_reducible apply State.onlyIn.refl
      | with_reducible assumption
      | with_reducible apply State.onlyIn.foldl
      | dsimp only
      | split
      | with_reducible apply State.onlyIn.step (State.writeSitePwr_only _ _ _)
      | with_reducible apply State.regWrite_onlyStep)

end Sys2Proof.Machine
end

