-- ==== Sys2Proof/Laws/OnlyLanes.lean ====
section
/-! SUPPORT. What each operation of Machine/Lanes.lean can change: the parts of the state outside the list are as before. -/

set_option linter.all false

namespace Sys2Proof.Machine

theorem State.sealCheck_only (s : State) (w : Win) (lane : Nat) (off : Nat) (data : List (BitVec 8)) :
    State.onlyIn [.regs, .cmds, .ports, .out] s (State.sealCheck s w lane off data) := by
  unfold State.sealCheck
  repeat' (first
    | intro _
    | ((with_reducible apply Comp.sub_ok); exact rfl)
    | with_reducible apply State.onlyIn.refl
    | with_reducible assumption
    | (simp only [State.onlyIn.regs (l := [.regs, .cmds, .ports, .out]) rfl, State.onlyIn.cmds (l := [.regs, .cmds, .ports, .out]) rfl, State.onlyIn.ports (l := [.regs, .cmds, .ports, .out]) rfl, State.onlyIn.out (l := [.regs, .cmds, .ports, .out]) rfl])
    | with_reducible apply State.onlyIn.foldl
    | dsimp only
    | split
    | with_reducible apply State.onlyIn.step (State.evWin_only _ _ _)
    | with_reducible apply State.onlyIn.step (State.setLane_only _ _ _)
    | (refine ⟨fun c hc => ?_⟩; cases c <;> first | rfl | exact absurd (by decide) hc))

theorem State.lanePut_only (s : State) (w : Win) (lane : Nat) (off : Nat) (data : List (BitVec 8)) :
    State.onlyIn [.regs, .cmds, .ports, .out] s (State.lanePut s w lane off data) := by
  unfold State.lanePut
  repeat' (first
    | intro _
    | ((with_reducible apply Comp.sub_ok); exact rfl)
    | with_reducible apply State.onlyIn.refl
    | with_reducible assumption
    | with_reducible apply State.onlyIn.foldl
    | dsimp only
    | split
    | with_reducible apply State.onlyIn.step (State.sealCheck_only _ _ _ _ _)
    | with_reducible apply State.onlyIn.step (State.setLane_only _ _ _))

theorem State.setHeldAt_only (s : State) (p : Port) (l : List HeldAcc) :
    State.onlyIn [.cmds] s (State.setHeldAt s p l) := by
  unfold State.setHeldAt
  repeat' (first
    | intro _
    | ((with_reducible apply Comp.sub_ok); exact rfl)
    | with_reducible apply State.onlyIn.refl
    | with_reducible assumption
    | (simp only [State.onlyIn.cmds (l := [.cmds]) rfl])
    | with_reducible apply State.onlyIn.foldl
    | dsimp only
    | split
    | (refine ⟨fun c hc => ?_⟩; cases c <;> first | rfl | exact absurd (by decide) hc))

theorem State.cutPuts_only (s : State) (id : Nat) :
    State.onlyIn [.freeCtr, .regs, .fab, .tiles, .cleats, .sites, .lan, .cmds, .xlt, .ports, .boot, .fid, .unread, .out] s (State.cutPuts s id) := by
  unfold State.cutPuts
  repeat' (first
    | intro _
    | ((with_reducible apply Comp.sub_ok); exact rfl)
    | with_reducible apply State.onlyIn.refl
    | with_reducible assumption
    | (simp only [State.onlyIn.freeCtr (l := [.freeCtr, .regs, .fab, .tiles, .cleats, .sites, .lan, .cmds, .xlt, .ports, .boot, .fid, .unread, .out]) rfl, State.onlyIn.regs (l := [.freeCtr, .regs, .fab, .tiles, .cleats, .sites, .lan, .cmds, .xlt, .ports, .boot, .fid, .unread, .out]) rfl, State.onlyIn.fab (l := [.freeCtr, .regs, .fab, .tiles, .cleats, .sites, .lan, .cmds, .xlt, .ports, .boot, .fid, .unread, .out]) rfl, State.onlyIn.tiles (l := [.freeCtr, .regs, .fab, .tiles, .cleats, .sites, .lan, .cmds, .xlt, .ports, .boot, .fid, .unread, .out]) rfl, State.onlyIn.cleats (l := [.freeCtr, .regs, .fab, .tiles, .cleats, .sites, .lan, .cmds, .xlt, .ports, .boot, .fid, .unread, .out]) rfl, State.onlyIn.sites (l := [.freeCtr, .regs, .fab, .tiles, .cleats, .sites, .lan, .cmds, .xlt, .ports, .boot, .fid, .unread, .out]) rfl, State.onlyIn.lan (l := [.freeCtr, .regs, .fab, .tiles, .cleats, .sites, .lan, .cmds, .xlt, .ports, .boot, .fid, .unread, .out]) rfl, State.onlyIn.cmds (l := [.freeCtr, .regs, .fab, .tiles, .cleats, .sites, .lan, .cmds, .xlt, .ports, .boot, .fid, .unread, .out]) rfl, State.onlyIn.xlt (l := [.freeCtr, .regs, .fab, .tiles, .cleats, .sites, .lan, .cmds, .xlt, .ports, .boot, .fid, .unread, .out]) rfl, State.onlyIn.ports (l := [.freeCtr, .regs, .fab, .tiles, .cleats, .sites, .lan, .cmds, .xlt, .ports, .boot, .fid, .unread, .out]) rfl, State.onlyIn.boot (l := [.freeCtr, .regs, .fab, .tiles, .cleats, .sites, .lan, .cmds, .xlt, .ports, .boot, .fid, .unread, .out]) rfl, State.onlyIn.fid (l := [.freeCtr, .regs, .fab, .tiles, .cleats, .sites, .lan, .cmds, .xlt, .ports, .boot, .fid, .unread, .out]) rfl, State.onlyIn.unread (l := [.freeCtr, .regs, .fab, .tiles, .cleats, .sites, .lan, .cmds, .xlt, .ports, .boot, .fid, .unread, .out]) rfl, State.onlyIn.out (l := [.freeCtr, .regs, .fab, .tiles, .cleats, .sites, .lan, .cmds, .xlt, .ports, .boot, .fid, .unread, .out]) rfl])
    | with_reducible apply State.onlyIn.foldl
    | dsimp only
    | split
    | with_reducible apply State.onlyIn.step (State.checkTracker_only _ _)
    | with_reducible apply State.onlyIn.step (State.setTracker_only _ _ _)
    | (refine ⟨fun c hc => ?_⟩; cases c <;> first | rfl | exact absurd (by decide) hc))

theorem State.haltRun_only (s : State) (id : Nat) (st : BitVec 8) (detail : Nat) :
    State.onlyIn [.freeCtr, .regs, .fab, .hank, .tiles, .cleats, .sites, .lan, .cmds, .xlt, .pwr, .ports, .boot, .fid, .unread, .out] s (State.haltRun s id st detail) := by
  unfold State.haltRun
  repeat' (first
    | intro _
    | ((with_reducible apply Comp.sub_ok); exact rfl)
    | with_reducible apply State.onlyIn.refl
    | with_reducible assumption
    | with_reducible apply State.onlyIn.foldl
    | dsimp only
    | split
    | with_reducible apply State.onlyIn.step (State.cutPuts_only _ _)
    | with_reducible apply State.onlyIn.step (State.stopDispatch_only _ _)
    | with_reducible apply State.onlyIn.step (State.dropHeld_only _ _)
    | with_reducible apply State.onlyIn.step (State.returnLeave_only _ _)
    | with_reducible apply State.onlyIn.step (State.setRun_only _ _))

theorem State.reissue_only (s : State) (h : XHeld) :
    State.onlyIn [.freeCtr, .regs, .fab, .tiles, .cleats, .sites, .lan, .cmds, .xlt, .ports, .boot, .fid, .unread, .out] s (State.reissue s h) := by
  unfold State.reissue
  repeat' (first
    | intro _
    | ((with_reducible apply Comp.sub_ok); exact rfl)
    | with_reducible apply State.onlyIn.refl
    | with_reducible assumption
    | with_reducible apply State.onlyIn.foldl
    | dsimp only
    | split
    | with_reducible apply State.onlyIn.step (State.doXlate_only _ _ _ _ _ _)
    | with_reducible apply State.onlyIn.step (State.tileGo_only _ _)
    | with_reducible apply State.onlyIn.step (State.issueAccs_only _ _ _))

theorem State.openRecord_only (s : State) (w : Nat) (p : Nat) (r : Nat) :
    State.onlyIn [.regs, .xlt, .ports, .out] s (State.openRecord s w p r).2 := by
  unfold State.openRecord
  repeat' (first
    | intro _
    | ((with_reducible apply Comp.sub_ok); exact rfl)
    | with_reducible apply State.onlyIn.refl
    | with_reducible assumption
    | (simp only [State.onlyIn.regs (l := [.regs, .xlt, .ports, .out]) rfl, State.onlyIn.xlt (l := [.regs, .xlt, .ports, .out]) rfl, State.onlyIn.ports (l := [.regs, .xlt, .ports, .out]) rfl, State.onlyIn.out (l := [.regs, .xlt, .ports, .out]) rfl])
    | with_reducible apply State.onlyIn.foldl
    | with_reducible apply State.onlyIn.foldl2
    | dsimp only
    | split
    | with_reducible apply State.onlyIn.step (State.dropRecord_only _ _ _ _)
    | (refine ⟨fun c hc => ?_⟩; cases c <;> first | rfl | exact absurd (by decide) hc))

theorem State.retryRecord_only (w : Nat) (p : Nat) (s : State) (r : Nat) :
    State.onlyIn [.freeCtr, .regs, .fab, .tiles, .cleats, .sites, .lan, .cmds, .xlt, .ports, .boot, .fid, .unread, .out] s (State.retryRecord w p s r) := by
  unfold State.retryRecord
  repeat' (first
    | intro _
    | ((with_reducible apply Comp.sub_ok); exact rfl)
    | with_reducible apply State.onlyIn.refl
    | with_reducible assumption
    | with_reducible apply State.onlyIn.foldl
    | with_reducible apply State.onlyIn.foldl2
    | dsimp only
    | (split <;> first | (rename_i heq; have hx := congrArg (fun z => z.2) heq; dsimp only at hx; subst hx) | (rename_i heq; have hx := congrArg (fun z => z.2.2) heq; dsimp only at hx; subst hx) | skip)
    | split
    | with_reducible apply State.onlyIn.step (State.openRecord_only _ _ _ _)
    | with_reducible apply State.onlyIn.step (State.reissue_only _ _)
    | with_reducible apply State.onlyIn.step (State.dropWalker_only _ _ _ _))

theorem State.cancelHeld_only (s : State) (h : XHeld) :
    State.onlyIn [.freeCtr, .regs, .fab, .hank, .tiles, .cleats, .sites, .lan, .cmds, .xlt, .pwr, .ports, .boot, .fid, .unread, .out] s (State.cancelHeld s h) := by
  unfold State.cancelHeld
  repeat' (first
    | intro _
    | ((with_reducible apply Comp.sub_ok); exact rfl)
    | with_reducible apply State.onlyIn.refl
    | with_reducible assumption
    | with_reducible apply State.onlyIn.foldl
    | dsimp only
    | split
    | with_reducible apply State.onlyIn.step (State.haltRun_only _ _ _ _)
    | with_reducible apply State.onlyIn.step (State.xlateRsp_only _ _ _ _ _))

theorem State.cancelRecord_only (w : Nat) (p : Nat) (s : State) (r : Nat) :
    State.onlyIn [.freeCtr, .regs, .fab, .hank, .tiles, .cleats, .sites, .lan, .cmds, .xlt, .pwr, .ports, .boot, .fid, .unread, .out] s (State.cancelRecord w p s r) := by
  unfold State.cancelRecord
  repeat' (first
    | intro _
    | ((with_reducible apply Comp.sub_ok); exact rfl)
    | with_reducible apply State.onlyIn.refl
    | with_reducible assumption
    | with_reducible apply State.onlyIn.foldl
    | with_reducible apply State.onlyIn.foldl2
    | dsimp only
    | (split <;> first | (rename_i heq; have hx := congrArg (fun z => z.2) heq; dsimp only at hx; subst hx) | (rename_i heq; have hx := congrArg (fun z => z.2.2) heq; dsimp only at hx; subst hx) | skip)
    | split
    | with_reducible apply State.onlyIn.step (State.cancelHeld_only _ _)
    | with_reducible apply State.onlyIn.step (State.openRecord_only _ _ _ _))

theorem State.doRecords_only (s : State) (w : Win) (retry : Bool) (v : W32) :
    State.onlyIn [.freeCtr, .regs, .fab, .hank, .tiles, .cleats, .sites, .lan, .cmds, .xlt, .pwr, .ports, .boot, .fid, .unread, .out] s (State.doRecords s w retry v) := by
  unfold State.doRecords
  repeat' (first
    | intro _
    | ((with_reducible apply Comp.sub_ok); exact rfl)
    | with_reducible apply State.onlyIn.refl
    | with_reducible assumption
    | with_reducible apply State.onlyIn.foldl
    | dsimp only
    | split
    | with_reducible apply State.onlyIn.step (State.cancelRecord_only _ _ _ _)
    | with_reducible apply State.onlyIn.step (State.retryRecord_only _ _ _ _))

theorem State.apRefuse_only (s : State) (win : Nat) (read : Bool) :
    State.onlyIn [.ports, .out] s (State.apRefuse s win read) := by
  unfold State.apRefuse
  repeat' (first
    | intro _
    | ((with_reducible apply Comp.sub_ok); exact rfl)
    | with_reducible apply State.onlyIn.refl
    | with_reducible assumption
    | with_reducible apply State.onlyIn.foldl
    | dsimp only
    | split
    | with_reducible apply State.onlyIn.step (State.aerErr_only _ _ _ _)
    | with_reducible apply State.onlyIn.step (State.pushOut_only _ _))

theorem State.apDpas_only (s : State) (m : Agent) (ctx : BitVec 12) (need : Need) (x4 : List Nat) :
    State.onlyIn [.freeCtr, .regs, .fab, .sites, .xlt, .ports, .boot, .unread, .out] s (State.apDpas s m ctx need x4).2 := by
  induction x4 generalizing s m ctx need with
  | nil =>
    rw [State.apDpas]
    repeat' (first
      | intro _
      | ((with_reducible apply Comp.sub_ok); exact rfl)
      | with_reducible apply State.onlyIn.refl
      | with_reducible assumption
      | with_reducible apply State.onlyIn.foldl
      | with_reducible apply State.onlyIn.foldl2
      | dsimp only
      | (split <;> first | (rename_i heq; have hx := congrArg (fun z => z.2) heq; dsimp only at hx; subst hx) | (rename_i heq; have hx := congrArg (fun z => z.2.2) heq; dsimp only at hx; subst hx) | skip)
      | split
      | with_reducible apply State.onlyIn.step (State.translate_only _ _ _ _ _)
      | with_reducible refine .trans ?_ (ih _ _ _ _))
  | cons a r ih =>
    rw [State.apDpas]
    repeat' (first
      | intro _
      | ((with_reducible apply Comp.sub_ok); exact rfl)
      | with_reducible apply State.onlyIn.refl
      | with_reducible assumption
      | with_reducible apply State.onlyIn.foldl
      | with_reducible apply State.onlyIn.foldl2
      | dsimp only
      | (split <;> first | (rename_i heq; have hx := congrArg (fun z => z.2) heq; dsimp only at hx; subst hx) | (rename_i heq; have hx := congrArg (fun z => z.2.2) heq; dsimp only at hx; subst hx) | skip)
      | split
      | with_reducible apply State.onlyIn.step (State.translate_only _ _ _ _ _)
      | with_reducible refine .trans ?_ (ih _ _ _ _))

theorem State.apNo_only (s : State) (win : Nat) (read : Bool) :
    State.onlyIn [.regs, .ports, .out] s (State.apNo s win read) := by
  unfold State.apNo
  repeat' (first
    | intro _
    | ((with_reducible apply Comp.sub_ok); exact rfl)
    | with_reducible apply State.onlyIn.refl
    | with_reducible assumption
    | with_reducible apply State.onlyIn.foldl
    | dsimp only
    | split
    | with_reducible apply State.onlyIn.step (State.apRefuse_only _ _ _)
    | with_reducible apply State.onlyIn.step (State.fset_only _ _ _ _ _))

theorem State.postsGo_only (s : State) (port : Nat) (x2 : Nat) :
    State.onlyIn [.freeCtr, .regs, .fab, .hank, .tiles, .cleats, .sites, .lan, .cmds, .xlt, .pwr, .ports, .boot, .fid, .unread, .out] s (State.postsGo s port x2) := by
  induction x2 generalizing s port with
  | zero =>
    rw [State.postsGo]
    repeat' (first
      | intro _
      | ((with_reducible apply Comp.sub_ok); exact rfl)
      | with_reducible apply State.onlyIn.refl
      | with_reducible assumption
      | (simp only [State.onlyIn.freeCtr (l := [.freeCtr, .regs, .fab, .hank, .tiles, .cleats, .sites, .lan, .cmds, .xlt, .pwr, .ports, .boot, .fid, .unread, .out]) rfl, State.onlyIn.regs (l := [.freeCtr, .regs, .fab, .hank, .tiles, .cleats, .sites, .lan, .cmds, .xlt, .pwr, .ports, .boot, .fid, .unread, .out]) rfl, State.onlyIn.fab (l := [.freeCtr, .regs, .fab, .hank, .tiles, .cleats, .sites, .lan, .cmds, .xlt, .pwr, .ports, .boot, .fid, .unread, .out]) rfl, State.onlyIn.tiles (l := [.freeCtr, .regs, .fab, .hank, .tiles, .cleats, .sites, .lan, .cmds, .xlt, .pwr, .ports, .boot, .fid, .unread, .out]) rfl, State.onlyIn.cleats (l := [.freeCtr, .regs, .fab, .hank, .tiles, .cleats, .sites, .lan, .cmds, .xlt, .pwr, .ports, .boot, .fid, .unread, .out]) rfl, State.onlyIn.sites (l := [.freeCtr, .regs, .fab, .hank, .tiles, .cleats, .sites, .lan, .cmds, .xlt, .pwr, .ports, .boot, .fid, .unread, .out]) rfl, State.onlyIn.lan (l := [.freeCtr, .regs, .fab, .hank, .tiles, .cleats, .sites, .lan, .cmds, .xlt, .pwr, .ports, .boot, .fid, .unread, .out]) rfl, State.onlyIn.cmds (l := [.freeCtr, .regs, .fab, .hank, .tiles, .cleats, .sites, .lan, .cmds, .xlt, .pwr, .ports, .boot, .fid, .unread, .out]) rfl, State.onlyIn.xlt (l := [.freeCtr, .regs, .fab, .hank, .tiles, .cleats, .sites, .lan, .cmds, .xlt, .pwr, .ports, .boot, .fid, .unread, .out]) rfl, State.onlyIn.pwr (l := [.freeCtr, .regs, .fab, .hank, .tiles, .cleats, .sites, .lan, .cmds, .xlt, .pwr, .ports, .boot, .fid, .unread, .out]) rfl, State.onlyIn.ports (l := [.freeCtr, .regs, .fab, .hank, .tiles, .cleats, .sites, .lan, .cmds, .xlt, .pwr, .ports, .boot, .fid, .unread, .out]) rfl, State.onlyIn.boot (l := [.freeCtr, .regs, .fab, .hank, .tiles, .cleats, .sites, .lan, .cmds, .xlt, .pwr, .ports, .boot, .fid, .unread, .out]) rfl, State.onlyIn.fid (l := [.freeCtr, .regs, .fab, .hank, .tiles, .cleats, .sites, .lan, .cmds, .xlt, .pwr, .ports, .boot, .fid, .unread, .out]) rfl, State.onlyIn.unread (l := [.freeCtr, .regs, .fab, .hank, .tiles, .cleats, .sites, .lan, .cmds, .xlt, .pwr, .ports, .boot, .fid, .unread, .out]) rfl, State.onlyIn.out (l := [.freeCtr, .regs, .fab, .hank, .tiles, .cleats, .sites, .lan, .cmds, .xlt, .pwr, .ports, .boot, .fid, .unread, .out]) rfl])
      | with_reducible apply State.onlyIn.foldl
      | dsimp only
      | split
      | with_reducible apply State.onlyIn.step (State.doRecords_only _ _ _ _)
      | with_reducible apply State.onlyIn.step (State.sendAcc_only _ _ _)
      | with_reducible refine .trans ?_ (ih _ _)
      | with_reducible refine .hankRest ?_ (by rfl) ?_
      | (refine ⟨fun c hc => ?_⟩; cases c <;> first | rfl | exact absurd (by decide) hc))
  | succ k ih =>
    rw [State.postsGo]
    repeat' (first
      | intro _
      | ((with_reducible apply Comp.sub_ok); exact rfl)
      | with_reducible apply State.onlyIn.refl
      | with_reducible assumption
      | (simp only [State.onlyIn.freeCtr (l := [.freeCtr, .regs, .fab, .hank, .tiles, .cleats, .sites, .lan, .cmds, .xlt, .pwr, .ports, .boot, .fid, .unread, .out]) rfl, State.onlyIn.regs (l := [.freeCtr, .regs, .fab, .hank, .tiles, .cleats, .sites, .lan, .cmds, .xlt, .pwr, .ports, .boot, .fid, .unread, .out]) rfl, State.onlyIn.fab (l := [.freeCtr, .regs, .fab, .hank, .tiles, .cleats, .sites, .lan, .cmds, .xlt, .pwr, .ports, .boot, .fid, .unread, .out]) rfl, State.onlyIn.tiles (l := [.freeCtr, .regs, .fab, .hank, .tiles, .cleats, .sites, .lan, .cmds, .xlt, .pwr, .ports, .boot, .fid, .unread, .out]) rfl, State.onlyIn.cleats (l := [.freeCtr, .regs, .fab, .hank, .tiles, .cleats, .sites, .lan, .cmds, .xlt, .pwr, .ports, .boot, .fid, .unread, .out]) rfl, State.onlyIn.sites (l := [.freeCtr, .regs, .fab, .hank, .tiles, .cleats, .sites, .lan, .cmds, .xlt, .pwr, .ports, .boot, .fid, .unread, .out]) rfl, State.onlyIn.lan (l := [.freeCtr, .regs, .fab, .hank, .tiles, .cleats, .sites, .lan, .cmds, .xlt, .pwr, .ports, .boot, .fid, .unread, .out]) rfl, State.onlyIn.cmds (l := [.freeCtr, .regs, .fab, .hank, .tiles, .cleats, .sites, .lan, .cmds, .xlt, .pwr, .ports, .boot, .fid, .unread, .out]) rfl, State.onlyIn.xlt (l := [.freeCtr, .regs, .fab, .hank, .tiles, .cleats, .sites, .lan, .cmds, .xlt, .pwr, .ports, .boot, .fid, .unread, .out]) rfl, State.onlyIn.pwr (l := [.freeCtr, .regs, .fab, .hank, .tiles, .cleats, .sites, .lan, .cmds, .xlt, .pwr, .ports, .boot, .fid, .unread, .out]) rfl, State.onlyIn.ports (l := [.freeCtr, .regs, .fab, .hank, .tiles, .cleats, .sites, .lan, .cmds, .xlt, .pwr, .ports, .boot, .fid, .unread, .out]) rfl, State.onlyIn.boot (l := [.freeCtr, .regs, .fab, .hank, .tiles, .cleats, .sites, .lan, .cmds, .xlt, .pwr, .ports, .boot, .fid, .unread, .out]) rfl, State.onlyIn.fid (l := [.freeCtr, .regs, .fab, .hank, .tiles, .cleats, .sites, .lan, .cmds, .xlt, .pwr, .ports, .boot, .fid, .unread, .out]) rfl, State.onlyIn.unread (l := [.freeCtr, .regs, .fab, .hank, .tiles, .cleats, .sites, .lan, .cmds, .xlt, .pwr, .ports, .boot, .fid, .unread, .out]) rfl, State.onlyIn.out (l := [.freeCtr, .regs, .fab, .hank, .tiles, .cleats, .sites, .lan, .cmds, .xlt, .pwr, .ports, .boot, .fid, .unread, .out]) rfl])
      | with_reducible apply State.onlyIn.foldl
      | dsimp only
      | split
      | with_reducible apply State.onlyIn.step (State.doRecords_only _ _ _ _)
      | with_reducible apply State.onlyIn.step (State.sendAcc_only _ _ _)
      | with_reducible refine .trans ?_ (ih _ _)
      | with_reducible refine .hankRest ?_ (by rfl) ?_
      | (refine ⟨fun c hc => ?_⟩; cases c <;> first | rfl | exact absurd (by decide) hc))

theorem State.postGo_only (s : State) (port : Nat) :
    State.onlyIn [.freeCtr, .regs, .fab, .hank, .tiles, .cleats, .sites, .lan, .cmds, .xlt, .pwr, .ports, .boot, .fid, .unread, .out] s (State.postGo s port) := by
  unfold State.postGo
  repeat' (first
    | intro _
    | ((with_reducible apply Comp.sub_ok); exact rfl)
    | with_reducible apply State.onlyIn.refl
    | with_reducible assumption
    | with_reducible apply State.onlyIn.foldl
    | dsimp only
    | split
    | with_reducible apply State.onlyIn.step (State.postsGo_only _ _ _))

theorem State.apWrites_only (s : State) (m : Agent) (ctx : BitVec 12) (svc : BitVec 3) (dva : Nat) (win : Nat) (data : List (BitVec 8)) (poisoned : Bool) (ds : List (Nat × Nat)) :
    State.onlyIn [.freeCtr, .regs, .fab, .hank, .tiles, .cleats, .sites, .lan, .cmds, .xlt, .pwr, .ports, .boot, .fid, .unread, .out] s (State.apWrites s m ctx svc dva win data poisoned ds) := by
  unfold State.apWrites
  repeat' (first
    | intro _
    | ((with_reducible apply Comp.sub_ok); exact rfl)
    | with_reducible apply State.onlyIn.refl
    | with_reducible assumption
    | (simp only [State.onlyIn.freeCtr (l := [.freeCtr, .regs, .fab, .hank, .tiles, .cleats, .sites, .lan, .cmds, .xlt, .pwr, .ports, .boot, .fid, .unread, .out]) rfl, State.onlyIn.regs (l := [.freeCtr, .regs, .fab, .hank, .tiles, .cleats, .sites, .lan, .cmds, .xlt, .pwr, .ports, .boot, .fid, .unread, .out]) rfl, State.onlyIn.fab (l := [.freeCtr, .regs, .fab, .hank, .tiles, .cleats, .sites, .lan, .cmds, .xlt, .pwr, .ports, .boot, .fid, .unread, .out]) rfl, State.onlyIn.tiles (l := [.freeCtr, .regs, .fab, .hank, .tiles, .cleats, .sites, .lan, .cmds, .xlt, .pwr, .ports, .boot, .fid, .unread, .out]) rfl, State.onlyIn.cleats (l := [.freeCtr, .regs, .fab, .hank, .tiles, .cleats, .sites, .lan, .cmds, .xlt, .pwr, .ports, .boot, .fid, .unread, .out]) rfl, State.onlyIn.sites (l := [.freeCtr, .regs, .fab, .hank, .tiles, .cleats, .sites, .lan, .cmds, .xlt, .pwr, .ports, .boot, .fid, .unread, .out]) rfl, State.onlyIn.lan (l := [.freeCtr, .regs, .fab, .hank, .tiles, .cleats, .sites, .lan, .cmds, .xlt, .pwr, .ports, .boot, .fid, .unread, .out]) rfl, State.onlyIn.cmds (l := [.freeCtr, .regs, .fab, .hank, .tiles, .cleats, .sites, .lan, .cmds, .xlt, .pwr, .ports, .boot, .fid, .unread, .out]) rfl, State.onlyIn.xlt (l := [.freeCtr, .regs, .fab, .hank, .tiles, .cleats, .sites, .lan, .cmds, .xlt, .pwr, .ports, .boot, .fid, .unread, .out]) rfl, State.onlyIn.pwr (l := [.freeCtr, .regs, .fab, .hank, .tiles, .cleats, .sites, .lan, .cmds, .xlt, .pwr, .ports, .boot, .fid, .unread, .out]) rfl, State.onlyIn.ports (l := [.freeCtr, .regs, .fab, .hank, .tiles, .cleats, .sites, .lan, .cmds, .xlt, .pwr, .ports, .boot, .fid, .unread, .out]) rfl, State.onlyIn.boot (l := [.freeCtr, .regs, .fab, .hank, .tiles, .cleats, .sites, .lan, .cmds, .xlt, .pwr, .ports, .boot, .fid, .unread, .out]) rfl, State.onlyIn.fid (l := [.freeCtr, .regs, .fab, .hank, .tiles, .cleats, .sites, .lan, .cmds, .xlt, .pwr, .ports, .boot, .fid, .unread, .out]) rfl, State.onlyIn.unread (l := [.freeCtr, .regs, .fab, .hank, .tiles, .cleats, .sites, .lan, .cmds, .xlt, .pwr, .ports, .boot, .fid, .unread, .out]) rfl, State.onlyIn.out (l := [.freeCtr, .regs, .fab, .hank, .tiles, .cleats, .sites, .lan, .cmds, .xlt, .pwr, .ports, .boot, .fid, .unread, .out]) rfl])
    | with_reducible apply State.onlyIn.foldl
    | dsimp only
    | split
    | with_reducible apply State.onlyIn.step (State.postGo_only _ _)
    | with_reducible refine .hankRest ?_ (by rfl) ?_
    | (refine ⟨fun c hc => ?_⟩; cases c <;> first | rfl | exact absurd (by decide) hc))

theorem State.postRecords_only (s : State) (w : Win) (retry : Bool) (v : W32) :
    State.onlyIn [.freeCtr, .regs, .fab, .hank, .tiles, .cleats, .sites, .lan, .cmds, .xlt, .pwr, .ports, .boot, .fid, .unread, .out] s (State.postRecords s w retry v) := by
  unfold State.postRecords
  repeat' (first
    | intro _
    | ((with_reducible apply Comp.sub_ok); exact rfl)
    | with_reducible apply State.onlyIn.refl
    | with_reducible assumption
    | (simp only [State.onlyIn.freeCtr (l := [.freeCtr, .regs, .fab, .hank, .tiles, .cleats, .sites, .lan, .cmds, .xlt, .pwr, .ports, .boot, .fid, .unread, .out]) rfl, State.onlyIn.regs (l := [.freeCtr, .regs, .fab, .hank, .tiles, .cleats, .sites, .lan, .cmds, .xlt, .pwr, .ports, .boot, .fid, .unread, .out]) rfl, State.onlyIn.fab (l := [.freeCtr, .regs, .fab, .hank, .tiles, .cleats, .sites, .lan, .cmds, .xlt, .pwr, .ports, .boot, .fid, .unread, .out]) rfl, State.onlyIn.tiles (l := [.freeCtr, .regs, .fab, .hank, .tiles, .cleats, .sites, .lan, .cmds, .xlt, .pwr, .ports, .boot, .fid, .unread, .out]) rfl, State.onlyIn.cleats (l := [.freeCtr, .regs, .fab, .hank, .tiles, .cleats, .sites, .lan, .cmds, .xlt, .pwr, .ports, .boot, .fid, .unread, .out]) rfl, State.onlyIn.sites (l := [.freeCtr, .regs, .fab, .hank, .tiles, .cleats, .sites, .lan, .cmds, .xlt, .pwr, .ports, .boot, .fid, .unread, .out]) rfl, State.onlyIn.lan (l := [.freeCtr, .regs, .fab, .hank, .tiles, .cleats, .sites, .lan, .cmds, .xlt, .pwr, .ports, .boot, .fid, .unread, .out]) rfl, State.onlyIn.cmds (l := [.freeCtr, .regs, .fab, .hank, .tiles, .cleats, .sites, .lan, .cmds, .xlt, .pwr, .ports, .boot, .fid, .unread, .out]) rfl, State.onlyIn.xlt (l := [.freeCtr, .regs, .fab, .hank, .tiles, .cleats, .sites, .lan, .cmds, .xlt, .pwr, .ports, .boot, .fid, .unread, .out]) rfl, State.onlyIn.pwr (l := [.freeCtr, .regs, .fab, .hank, .tiles, .cleats, .sites, .lan, .cmds, .xlt, .pwr, .ports, .boot, .fid, .unread, .out]) rfl, State.onlyIn.ports (l := [.freeCtr, .regs, .fab, .hank, .tiles, .cleats, .sites, .lan, .cmds, .xlt, .pwr, .ports, .boot, .fid, .unread, .out]) rfl, State.onlyIn.boot (l := [.freeCtr, .regs, .fab, .hank, .tiles, .cleats, .sites, .lan, .cmds, .xlt, .pwr, .ports, .boot, .fid, .unread, .out]) rfl, State.onlyIn.fid (l := [.freeCtr, .regs, .fab, .hank, .tiles, .cleats, .sites, .lan, .cmds, .xlt, .pwr, .ports, .boot, .fid, .unread, .out]) rfl, State.onlyIn.unread (l := [.freeCtr, .regs, .fab, .hank, .tiles, .cleats, .sites, .lan, .cmds, .xlt, .pwr, .ports, .boot, .fid, .unread, .out]) rfl, State.onlyIn.out (l := [.freeCtr, .regs, .fab, .hank, .tiles, .cleats, .sites, .lan, .cmds, .xlt, .pwr, .ports, .boot, .fid, .unread, .out]) rfl])
    | with_reducible apply State.onlyIn.foldl
    | dsimp only
    | split
    | with_reducible apply State.onlyIn.step (State.postGo_only _ _)
    | with_reducible refine .hankRest ?_ (by rfl) ?_
    | (refine ⟨fun c hc => ?_⟩; cases c <;> first | rfl | exact absurd (by decide) hc))

theorem State.apReads_only (s : State) (m : Agent) (ctx : BitVec 12) (svc : BitVec 3) (dva : Nat) (win : Nat) (len : Nat) (ds : List (Nat × Nat)) :
    State.onlyIn [.regs, .fab, .ports, .unread] s (State.apReads s m ctx svc dva win len ds) := by
  unfold State.apReads
  repeat' (first
    | intro _
    | ((with_reducible apply Comp.sub_ok); exact rfl)
    | with_reducible apply State.onlyIn.refl
    | with_reducible assumption
    | (simp only [State.onlyIn.regs (l := [.regs, .fab, .ports, .unread]) rfl, State.onlyIn.fab (l := [.regs, .fab, .ports, .unread]) rfl, State.onlyIn.ports (l := [.regs, .fab, .ports, .unread]) rfl, State.onlyIn.unread (l := [.regs, .fab, .ports, .unread]) rfl])
    | with_reducible apply State.onlyIn.foldl
    | dsimp only
    | split
    | with_reducible apply State.onlyIn.step (State.sendAcc_only _ _ _)
    | (refine ⟨fun c hc => ?_⟩; cases c <;> first | rfl | exact absurd (by decide) hc))

theorem State.apAccess_only (s : State) (w : Win) (n : Nat) (off : Nat) (write : Option (List (BitVec 8))) (len : Nat) (poisoned : Bool) :
    State.onlyIn [.freeCtr, .regs, .fab, .hank, .tiles, .cleats, .sites, .lan, .cmds, .xlt, .pwr, .ports, .boot, .fid, .unread, .out] s (State.apAccess s w n off write len poisoned) := by
  unfold State.apAccess
  repeat' (first
    | intro _
    | ((with_reducible apply Comp.sub_ok); exact rfl)
    | with_reducible apply State.onlyIn.refl
    | with_reducible assumption
    | with_reducible apply State.onlyIn.foldl
    | with_reducible apply State.onlyIn.foldl2
    | dsimp only
    | (split <;> first | (rename_i heq; have hx := congrArg (fun z => z.2) heq; dsimp only at hx; subst hx) | (rename_i heq; have hx := congrArg (fun z => z.2.2) heq; dsimp only at hx; subst hx) | skip)
    | split
    | with_reducible apply State.onlyIn.step (State.apReads_only _ _ _ _ _ _ _ _)
    | with_reducible apply State.onlyIn.step (State.apWrites_only _ _ _ _ _ _ _ _ _)
    | with_reducible apply State.onlyIn.step (State.apNo_only _ _ _)
    | with_reducible apply State.onlyIn.step (State.apDpas_only _ _ _ _ _)
    | with_reducible apply State.onlyIn.step (State.apRefuse_only _ _ _)
    | with_reducible apply State.onlyIn.step (State.xltFaultLoose_only _ _ _ _ _ _))

theorem State.readsGo_only (s : State) :
    State.onlyIn [.regs, .ports, .out] s (State.readsGo s) := by
  unfold State.readsGo
  repeat' (first
    | intro _
    | ((with_reducible apply Comp.sub_ok); exact rfl)
    | with_reducible apply State.onlyIn.refl
    | with_reducible assumption
    | (simp only [State.onlyIn.regs (l := [.regs, .ports, .out]) rfl, State.onlyIn.ports (l := [.regs, .ports, .out]) rfl, State.onlyIn.out (l := [.regs, .ports, .out]) rfl])
    | with_reducible apply State.onlyIn.foldl
    | dsimp only
    | split
    | with_reducible apply State.onlyIn.step (State.apRefuse_only _ _ _)
    | with_reducible apply State.onlyIn.step (State.evPci_only _ _)
    | with_reducible apply State.onlyIn.step (State.pushOut_only _ _)
    | with_reducible apply State.onlyIn.step (State.fset_only _ _ _ _ _)
    | (refine ⟨fun c hc => ?_⟩; cases c <;> first | rfl | exact absurd (by decide) hc))

theorem State.apSector_only (s : State) (id : Nat) (i : Nat) (status : BitVec 3) (d : BitVec 256) (poison : Bool) :
    State.onlyIn [.regs, .ports, .out] s (State.apSector s id i status d poison) := by
  unfold State.apSector
  repeat' (first
    | intro _
    | ((with_reducible apply Comp.sub_ok); exact rfl)
    | with_reducible apply State.onlyIn.refl
    | with_reducible assumption
    | (simp only [State.onlyIn.regs (l := [.regs, .ports, .out]) rfl, State.onlyIn.ports (l := [.regs, .ports, .out]) rfl, State.onlyIn.out (l := [.regs, .ports, .out]) rfl])
    | with_reducible apply State.onlyIn.foldl
    | dsimp only
    | split
    | with_reducible apply State.onlyIn.step (State.readsGo_only _)
    | (refine ⟨fun c hc => ?_⟩; cases c <;> first | rfl | exact absurd (by decide) hc))

theorem State.giveUpRead_only (s : State) (id : Nat) :
    State.onlyIn [.fab, .ports] s (State.giveUpRead s id) := by
  unfold State.giveUpRead
  repeat' (first
    | intro _
    | ((with_reducible apply Comp.sub_ok); exact rfl)
    | with_reducible apply State.onlyIn.refl
    | with_reducible assumption
    | (simp only [State.onlyIn.fab (l := [.fab, .ports]) rfl, State.onlyIn.ports (l := [.fab, .ports]) rfl])
    | with_reducible apply State.onlyIn.foldl
    | dsimp only
    | split
    | (refine ⟨fun c hc => ?_⟩; cases c <;> first | rfl | exact absurd (by decide) hc))

theorem State.cutAccesses_only (s : State) (w : Win) (tell : Bool) :
    State.onlyIn [.freeCtr, .regs, .fab, .hank, .tiles, .cleats, .sites, .lan, .cmds, .xlt, .pwr, .ports, .boot, .fid, .unread, .out] s (State.cutAccesses s w tell) := by
  unfold State.cutAccesses
  repeat' (first
    | intro _
    | ((with_reducible apply Comp.sub_ok); exact rfl)
    | with_reducible apply State.onlyIn.refl
    | with_reducible assumption
    | (simp only [State.onlyIn.freeCtr (l := [.freeCtr, .regs, .fab, .hank, .tiles, .cleats, .sites, .lan, .cmds, .xlt, .pwr, .ports, .boot, .fid, .unread, .out]) rfl, State.onlyIn.regs (l := [.freeCtr, .regs, .fab, .hank, .tiles, .cleats, .sites, .lan, .cmds, .xlt, .pwr, .ports, .boot, .fid, .unread, .out]) rfl, State.onlyIn.fab (l := [.freeCtr, .regs, .fab, .hank, .tiles, .cleats, .sites, .lan, .cmds, .xlt, .pwr, .ports, .boot, .fid, .unread, .out]) rfl, State.onlyIn.tiles (l := [.freeCtr, .regs, .fab, .hank, .tiles, .cleats, .sites, .lan, .cmds, .xlt, .pwr, .ports, .boot, .fid, .unread, .out]) rfl, State.onlyIn.cleats (l := [.freeCtr, .regs, .fab, .hank, .tiles, .cleats, .sites, .lan, .cmds, .xlt, .pwr, .ports, .boot, .fid, .unread, .out]) rfl, State.onlyIn.sites (l := [.freeCtr, .regs, .fab, .hank, .tiles, .cleats, .sites, .lan, .cmds, .xlt, .pwr, .ports, .boot, .fid, .unread, .out]) rfl, State.onlyIn.lan (l := [.freeCtr, .regs, .fab, .hank, .tiles, .cleats, .sites, .lan, .cmds, .xlt, .pwr, .ports, .boot, .fid, .unread, .out]) rfl, State.onlyIn.cmds (l := [.freeCtr, .regs, .fab, .hank, .tiles, .cleats, .sites, .lan, .cmds, .xlt, .pwr, .ports, .boot, .fid, .unread, .out]) rfl, State.onlyIn.xlt (l := [.freeCtr, .regs, .fab, .hank, .tiles, .cleats, .sites, .lan, .cmds, .xlt, .pwr, .ports, .boot, .fid, .unread, .out]) rfl, State.onlyIn.pwr (l := [.freeCtr, .regs, .fab, .hank, .tiles, .cleats, .sites, .lan, .cmds, .xlt, .pwr, .ports, .boot, .fid, .unread, .out]) rfl, State.onlyIn.ports (l := [.freeCtr, .regs, .fab, .hank, .tiles, .cleats, .sites, .lan, .cmds, .xlt, .pwr, .ports, .boot, .fid, .unread, .out]) rfl, State.onlyIn.boot (l := [.freeCtr, .regs, .fab, .hank, .tiles, .cleats, .sites, .lan, .cmds, .xlt, .pwr, .ports, .boot, .fid, .unread, .out]) rfl, State.onlyIn.fid (l := [.freeCtr, .regs, .fab, .hank, .tiles, .cleats, .sites, .lan, .cmds, .xlt, .pwr, .ports, .boot, .fid, .unread, .out]) rfl, State.onlyIn.unread (l := [.freeCtr, .regs, .fab, .hank, .tiles, .cleats, .sites, .lan, .cmds, .xlt, .pwr, .ports, .boot, .fid, .unread, .out]) rfl, State.onlyIn.out (l := [.freeCtr, .regs, .fab, .hank, .tiles, .cleats, .sites, .lan, .cmds, .xlt, .pwr, .ports, .boot, .fid, .unread, .out]) rfl])
    | with_reducible apply State.onlyIn.foldl
    | dsimp only
    | split
    | with_reducible apply State.onlyIn.step (State.giveUpRead_only _ _)
    | with_reducible apply State.onlyIn.step (State.readsGo_only _)
    | with_reducible apply State.onlyIn.step (State.postGo_only _ _)
    | with_reducible apply State.onlyIn.step (State.apRefuse_only _ _ _)
    | with_reducible refine .hankRest ?_ (by rfl) ?_
    | (refine ⟨fun c hc => ?_⟩; cases c <;> first | rfl | exact absurd (by decide) hc))

theorem State.retryHeld_only (s : State) (p : Port) (x2 : Nat) :
    State.onlyIn [.freeCtr, .regs, .fab, .hank, .tiles, .cleats, .sites, .lan, .cmds, .xlt, .pwr, .ports, .boot, .fid, .unread, .out] s (State.retryHeld s p x2) := by
  induction x2 generalizing s p with
  | zero =>
    rw [State.retryHeld]
    repeat' (first
      | intro _
      | ((with_reducible apply Comp.sub_ok); exact rfl)
      | with_reducible apply State.onlyIn.refl
      | with_reducible assumption
      | with_reducible apply State.onlyIn.foldl
      | dsimp only
      | split
      | with_reducible apply State.onlyIn.step (State.apAccess_only _ _ _ _ _ _ _)
      | with_reducible apply State.onlyIn.step (State.setHeldAt_only _ _ _)
      | with_reducible apply State.onlyIn.step (State.lanePut_only _ _ _ _ _)
      | with_reducible refine .trans ?_ (ih _ _))
  | succ k ih =>
    rw [State.retryHeld]
    repeat' (first
      | intro _
      | ((with_reducible apply Comp.sub_ok); exact rfl)
      | with_reducible apply State.onlyIn.refl
      | with_reducible assumption
      | with_reducible apply State.onlyIn.foldl
      | dsimp only
      | split
      | with_reducible apply State.onlyIn.step (State.apAccess_only _ _ _ _ _ _ _)
      | with_reducible apply State.onlyIn.step (State.setHeldAt_only _ _ _)
      | with_reducible apply State.onlyIn.step (State.lanePut_only _ _ _ _ _)
      | with_reducible refine .trans ?_ (ih _ _))

theorem State.retryPort_only (s : State) (p : Port) :
    State.onlyIn [.freeCtr, .regs, .fab, .hank, .tiles, .cleats, .sites, .lan, .cmds, .xlt, .pwr, .ports, .boot, .fid, .unread, .out] s (State.retryPort s p) := by
  unfold State.retryPort
  repeat' (first
    | intro _
    | ((with_reducible apply Comp.sub_ok); exact rfl)
    | with_reducible apply State.onlyIn.refl
    | with_reducible assumption
    | with_reducible apply State.onlyIn.foldl
    | dsimp only
    | split
    | with_reducible apply State.onlyIn.step (State.retryHeld_only _ _ _))

theorem State.poisonIn_only (s : State) (win : Nat) :
    State.onlyIn [.regs, .ports, .out] s (State.poisonIn s win) := by
  unfold State.poisonIn
  repeat' (first
    | intro _
    | ((with_reducible apply Comp.sub_ok); exact rfl)
    | with_reducible apply State.onlyIn.refl
    | with_reducible assumption
    | with_reducible apply State.onlyIn.foldl
    | dsimp only
    | split
    | with_reducible apply State.onlyIn.step (State.aerErr_only _ _ _ _)
    | with_reducible apply State.onlyIn.step (State.evPci_only _ _))

theorem execLaneWrite_only {w : Win} {lane : Fin 4} {off : BitVec 14} {data : List (BitVec 8)} {poisoned : Bool} {s : State} {t1 : State} (h1 : execLaneWrite w lane off data poisoned s = .next t1) :
    State.onlyIn [.regs, .cmds, .ports, .out] s t1 := by
  unfold execLaneWrite at h1
  repeat' (first | with_reducible apply atUnit_only h1 | with_reducible apply whenever_only h1 | with_reducible apply next_only h1 | (dsimp only at h1) | split at h1 | (simp only [reduceCtorEq] at h1; done))
  all_goals
    repeat' (first
      | intro _
      | ((with_reducible apply Comp.sub_ok); exact rfl)
      | with_reducible apply State.onlyIn.refl
      | with_reducible assumption
      | with_reducible apply State.onlyIn.foldl
      | dsimp only
      | split
      | with_reducible apply State.onlyIn.step (State.poisonIn_only _ _)
      | with_reducible apply State.onlyIn.step (State.setHeldAt_only _ _ _)
      | with_reducible apply State.onlyIn.step (State.lanePut_only _ _ _ _ _)
      | with_reducible apply State.onlyIn.step (State.barUr_only _ _ _))

theorem execHostApertureAccess_only {w : Win} {n : Fin 4} {off : BitVec 34} {write : Option (List (BitVec 8))} {len : Nat} {poisoned : Bool} {s : State} {t1 : State} (h1 : execHostApertureAccess w n off write len poisoned s = .next t1) :
    State.onlyIn [.freeCtr, .regs, .fab, .hank, .tiles, .cleats, .sites, .lan, .cmds, .xlt, .pwr, .ports, .boot, .fid, .unread, .out] s t1 := by
  unfold execHostApertureAccess at h1
  repeat' (first | with_reducible apply atUnit_only h1 | with_reducible apply whenever_only h1 | with_reducible apply next_only h1 | (dsimp only at h1) | split at h1 | (simp only [reduceCtorEq] at h1; done))
  all_goals
    repeat' (first
      | intro _
      | ((with_reducible apply Comp.sub_ok); exact rfl)
      | with_reducible apply State.onlyIn.refl
      | with_reducible assumption
      | with_reducible apply State.onlyIn.foldl
      | dsimp only
      | split
      | with_reducible apply State.onlyIn.step (State.poisonIn_only _ _)
      | with_reducible apply State.onlyIn.step (State.apAccess_only _ _ _ _ _ _ _)
      | with_reducible apply State.onlyIn.step (State.apRefuse_only _ _ _)
      | with_reducible apply State.onlyIn.step (State.setHeldAt_only _ _ _)
      | with_reducible apply State.onlyIn.step (State.barUr_only _ _ _))

theorem State.packetRead_only (s : State) (w : Win) (lane : Nat) :
    State.onlyIn [.freeCtr, .regs, .fab, .hank, .tiles, .cleats, .sites, .lan, .cmds, .xlt, .pwr, .ports, .boot, .fid, .unread, .out] s (State.packetRead s w lane) := by
  unfold State.packetRead
  repeat' (first
    | intro _
    | ((with_reducible apply Comp.sub_ok); exact rfl)
    | with_reducible apply State.onlyIn.refl
    | with_reducible assumption
    | with_reducible apply State.onlyIn.foldl
    | dsimp only
    | split
    | with_reducible apply State.onlyIn.step (State.retryPort_only _ _)
    | with_reducible apply State.onlyIn.step (State.setLane_only _ _ _))

theorem execPacketRead_only {w : Win} {lane : Fin 4} {s : State} {t1 : State} (h1 : execPacketRead w lane s = .next t1) :
    State.onlyIn [.freeCtr, .regs, .fab, .hank, .tiles, .cleats, .sites, .lan, .cmds, .xlt, .pwr, .ports, .boot, .fid, .unread, .out] s t1 := by
  unfold execPacketRead at h1
  repeat' (first | with_reducible apply atUnit_only h1 | with_reducible apply whenever_only h1 | with_reducible apply next_only h1 | (dsimp only at h1) | split at h1 | (simp only [reduceCtorEq] at h1; done))
  all_goals
    repeat' (first
      | intro _
      | ((with_reducible apply Comp.sub_ok); exact rfl)
      | with_reducible apply State.onlyIn.refl
      | with_reducible assumption
      | with_reducible apply State.onlyIn.foldl
      | dsimp only
      | split
      | with_reducible apply State.onlyIn.step (State.packetRead_only _ _ _))

theorem State.discard_only (s : State) (w : Win) (lane : Nat) (upTo : Nat) (detail : Nat) (mute : Bool) :
    State.onlyIn [.freeCtr, .regs, .hank, .sites, .cmds, .pwr, .ports, .fid, .out] s (State.discard s w lane upTo detail mute) := by
  unfold State.discard
  repeat' (first
    | intro _
    | ((with_reducible apply Comp.sub_ok); exact rfl)
    | with_reducible apply State.onlyIn.refl
    | with_reducible assumption
    | (simp only [State.onlyIn.freeCtr (l := [.freeCtr, .regs, .hank, .sites, .cmds, .pwr, .ports, .fid, .out]) rfl, State.onlyIn.regs (l := [.freeCtr, .regs, .hank, .sites, .cmds, .pwr, .ports, .fid, .out]) rfl, State.onlyIn.sites (l := [.freeCtr, .regs, .hank, .sites, .cmds, .pwr, .ports, .fid, .out]) rfl, State.onlyIn.cmds (l := [.freeCtr, .regs, .hank, .sites, .cmds, .pwr, .ports, .fid, .out]) rfl, State.onlyIn.pwr (l := [.freeCtr, .regs, .hank, .sites, .cmds, .pwr, .ports, .fid, .out]) rfl, State.onlyIn.ports (l := [.freeCtr, .regs, .hank, .sites, .cmds, .pwr, .ports, .fid, .out]) rfl, State.onlyIn.fid (l := [.freeCtr, .regs, .hank, .sites, .cmds, .pwr, .ports, .fid, .out]) rfl, State.onlyIn.out (l := [.freeCtr, .regs, .hank, .sites, .cmds, .pwr, .ports, .fid, .out]) rfl])
    | with_reducible apply State.onlyIn.foldl
    | dsimp only
    | split
    | with_reducible apply State.onlyIn.step (State.unqueueLeave_only _ _ _)
    | with_reducible apply State.onlyIn.step (State.returnLeave_only _ _)
    | with_reducible apply State.onlyIn.step (State.setLane_only _ _ _)
    | with_reducible refine .hankRest ?_ (by rfl) ?_
    | (refine ⟨fun c hc => ?_⟩; cases c <;> first | rfl | exact absurd (by decide) hc))

theorem State.flushEffect_only (s : State) (w : Win) (lane : Nat) (mute : Bool) :
    State.onlyIn [.freeCtr, .regs, .fab, .hank, .tiles, .cleats, .sites, .lan, .cmds, .xlt, .pwr, .ports, .boot, .fid, .unread, .out] s (State.flushEffect s w lane mute) := by
  unfold State.flushEffect
  repeat' (first
    | intro _
    | ((with_reducible apply Comp.sub_ok); exact rfl)
    | with_reducible apply State.onlyIn.refl
    | with_reducible assumption
    | with_reducible apply State.onlyIn.foldl
    | dsimp only
    | split
    | with_reducible apply State.onlyIn.step (State.discard_only _ _ _ _ _ _)
    | with_reducible apply State.onlyIn.step (State.retryPort_only _ _)
    | with_reducible apply State.onlyIn.step (State.haltRun_only _ _ _ _)
    | with_reducible apply State.onlyIn.step (State.evWin_only _ _ _)
    | with_reducible apply State.onlyIn.step (State.setRun_only _ _)
    | with_reducible apply State.onlyIn.step (State.setLane_only _ _ _))

theorem execLaneFlushEffect_only {w : Win} {lane : Fin 4} {s : State} {t1 : State} (h1 : execLaneFlushEffect w lane s = .next t1) :
    State.onlyIn [.freeCtr, .regs, .fab, .hank, .tiles, .cleats, .sites, .lan, .cmds, .xlt, .pwr, .ports, .boot, .fid, .unread, .out] s t1 := by
  unfold execLaneFlushEffect at h1
  repeat' (first | with_reducible apply atUnit_only h1 | with_reducible apply whenever_only h1 | with_reducible apply next_only h1 | (dsimp only at h1) | split at h1 | (simp only [reduceCtorEq] at h1; done))
  all_goals
    repeat' (first
      | intro _
      | ((with_reducible apply Comp.sub_ok); exact rfl)
      | with_reducible apply State.onlyIn.refl
      | with_reducible assumption
      | with_reducible apply State.onlyIn.foldl
      | dsimp only
      | split
      | with_reducible apply State.onlyIn.step (State.flushEffect_only _ _ _ _))

theorem State.flushLane_only (s : State) (w : Win) (lane : Nat) (abort : Bool) (cause : Nat) :
    State.onlyIn [.cmds] s (State.flushLane s w lane abort cause) := by
  unfold State.flushLane
  repeat' (first
    | intro _
    | ((with_reducible apply Comp.sub_ok); exact rfl)
    | with_reducible apply State.onlyIn.refl
    | with_reducible assumption
    | with_reducible apply State.onlyIn.foldl
    | dsimp only
    | split
    | with_reducible apply State.onlyIn.step (State.setLane_only _ _ _))

theorem State.resetLane_only (s : State) (w : Win) (lane : Nat) (x : BitVec 16) :
    State.onlyIn [.freeCtr, .regs, .fab, .hank, .tiles, .cleats, .sites, .lan, .cmds, .xlt, .pwr, .ports, .boot, .fid, .unread, .out] s (State.resetLane s w lane x) := by
  unfold State.resetLane
  repeat' (first
    | intro _
    | ((with_reducible apply Comp.sub_ok); exact rfl)
    | with_reducible apply State.onlyIn.refl
    | with_reducible assumption
    | with_reducible apply State.onlyIn.foldl
    | dsimp only
    | split
    | with_reducible apply State.onlyIn.step (State.retryPort_only _ _)
    | with_reducible apply State.onlyIn.step (State.unqueueLeave_only _ _ _)
    | with_reducible apply State.onlyIn.step (State.returnLeave_only _ _)
    | with_reducible apply State.onlyIn.step (State.setLane_only _ _ _))

theorem State.orderReset_only (s : State) (w : Win) (lane : Nat) :
    State.onlyIn [.freeCtr, .regs, .fab, .hank, .tiles, .cleats, .sites, .lan, .cmds, .xlt, .pwr, .ports, .boot, .fid, .unread, .out] s (State.orderReset s w lane) := by
  unfold State.orderReset
  repeat' (first
    | intro _
    | ((with_reducible apply Comp.sub_ok); exact rfl)
    | with_reducible apply State.onlyIn.refl
    | with_reducible assumption
    | with_reducible apply State.onlyIn.foldl
    | dsimp only
    | split
    | with_reducible apply State.onlyIn.step (State.resetLane_only _ _ _ _)
    | with_reducible apply State.onlyIn.step (State.setLane_only _ _ _))

theorem State.pfDone_only (s : State) (p : Port) :
    State.onlyIn [.regs, .ports] s (State.pfDone s p) := by
  unfold State.pfDone
  repeat' (first
    | intro _
    | ((with_reducible apply Comp.sub_ok); exact rfl)
    | with_reducible apply State.onlyIn.refl
    | with_reducible assumption
    | (simp only [State.onlyIn.regs (l := [.regs, .ports]) rfl, State.onlyIn.ports (l := [.regs, .ports]) rfl])
    | with_reducible apply State.onlyIn.foldl
    | dsimp only
    | split
    | with_reducible apply State.onlyIn.step (State.fset_only _ _ _ _ _)
    | (refine ⟨fun c hc => ?_⟩; cases c <;> first | rfl | exact absurd (by decide) hc))

theorem State.laneResets_only (s : State) (w : Win) :
    State.onlyIn [.freeCtr, .regs, .fab, .hank, .tiles, .cleats, .sites, .lan, .cmds, .xlt, .pwr, .ports, .boot, .fid, .unread, .out] s (State.laneResets s w) := by
  unfold State.laneResets
  repeat' (first
    | intro _
    | ((with_reducible apply Comp.sub_ok); exact rfl)
    | with_reducible apply State.onlyIn.refl
    | with_reducible assumption
    | with_reducible apply State.onlyIn.foldl
    | dsimp only
    | split
    | with_reducible apply State.onlyIn.step (State.pfDone_only _ _)
    | with_reducible apply State.onlyIn.step (State.resetLane_only _ _ _ _))

theorem State.writeWctl_only (s : State) (w : Win) (v : W32) :
    State.onlyIn [.freeCtr, .regs, .fab, .hank, .tiles, .cleats, .sites, .lan, .cmds, .xlt, .pwr, .ports, .boot, .fid, .unread, .out] s (State.writeWctl s w v) := by
  unfold State.writeWctl
  repeat' (first
    | intro _
    | ((with_reducible apply Comp.sub_ok); exact rfl)
    | with_reducible apply State.onlyIn.refl
    | with_reducible assumption
    | with_reducible apply State.onlyIn.foldl
    | dsimp only
    | split
    | with_reducible apply State.onlyIn.step (State.resetLane_only _ _ _ _)
    | with_reducible apply State.onlyIn.step (State.flushLane_only _ _ _ _ _)
    | with_reducible apply State.onlyIn.step (State.fset_only _ _ _ _ _))

theorem State.wreg_only {l : List Comp} {s : State} {w : Win} {k : State → State} (hl : Comp.sub [.ports, .out] l = true) (hk_k : ∀ y0, State.onlyIn l y0 (k y0)) :
    State.onlyIn l s (State.wreg s w k) := by
  unfold State.wreg
  repeat' (first
    | intro _
    | ((with_reducible refine Comp.sub_trans ?_ hl); exact rfl)
    | ((with_reducible apply Comp.sub_ok); exact rfl)
    | with_reducible apply State.onlyIn.refl
    | with_reducible assumption
    | with_reducible apply State.onlyIn.foldl
    | dsimp only
    | split
    | with_reducible apply State.onlyIn.step (State.barUr_only _ _ _)
    | with_reducible refine .trans ?_ (hk_k _))

theorem State.wreg_onlyStep {l : List Comp} {s0 : State} {s : State} {w : Win} {k : State → State} (hl : Comp.sub [.ports, .out] l = true) (hk_k : ∀ y0, State.onlyIn l y0 (k y0)) (h0 : State.onlyIn l s0 s) :
    State.onlyIn l s0 (State.wreg s w k) := h0.trans (State.wreg_only hl hk_k)

theorem execLaneFlush_only {w : Win} {v : W32} {s : State} {t1 : State} (h1 : execLaneFlush w v s = .next t1) :
    State.onlyIn [.freeCtr, .regs, .fab, .hank, .tiles, .cleats, .sites, .lan, .cmds, .xlt, .pwr, .ports, .boot, .fid, .unread, .out] s t1 := by
  unfold execLaneFlush at h1
  repeat' (first | with_reducible apply atUnit_only h1 | with_reducible apply whenever_only h1 | with_reducible apply next_only h1 | (dsimp only at h1) | split at h1 | (simp only [reduceCtorEq] at h1; done))
  all_goals
    repeat' (first
      | intro _
      | ((with_reducible apply Comp.sub_ok); exact rfl)
      | with_reducible apply State.onlyIn.refl
      | with_reducible assumption
      | with_reducible apply State.onlyIn.foldl
      | dsimp only
      | split
      | with_reducible apply State.wreg_onlyStep
      | with_reducible apply State.onlyIn.step (State.writeWctl_only _ _ _))

theorem execLaneReset_only {w : Win} {v : W32} {s : State} {t1 : State} (h1 : execLaneReset w v s = .next t1) :
    State.onlyIn [.freeCtr, .regs, .fab, .hank, .tiles, .cleats, .sites, .lan, .cmds, .xlt, .pwr, .ports, .boot, .fid, .unread, .out] s t1 := by
  unfold execLaneReset at h1
  repeat' (first | with_reducible apply atUnit_only h1 | with_reducible apply whenever_only h1 | with_reducible apply next_only h1 | (dsimp only at h1) | split at h1 | (simp only [reduceCtorEq] at h1; done))
  all_goals
    repeat' (first
      | intro _
      | ((with_reducible apply Comp.sub_ok); exact rfl)
      | with_reducible apply State.onlyIn.refl
      | with_reducible assumption
      | with_reducible apply State.onlyIn.foldl
      | dsimp only
      | split
      | with_reducible apply State.wreg_onlyStep
      | with_reducible apply State.onlyIn.step (State.writeWctl_only _ _ _))

theorem State.overflow_only (s : State) (w : Win) (lane : Nat) :
    State.onlyIn [.freeCtr, .regs, .fab, .hank, .tiles, .cleats, .sites, .lan, .cmds, .xlt, .pwr, .ports, .boot, .fid, .unread, .out] s (State.overflow s w lane) := by
  unfold State.overflow
  repeat' (first
    | intro _
    | ((with_reducible apply Comp.sub_ok); exact rfl)
    | with_reducible apply State.onlyIn.refl
    | with_reducible assumption
    | with_reducible apply State.onlyIn.foldl
    | dsimp only
    | split
    | with_reducible apply State.onlyIn.step (State.flushLane_only _ _ _ _ _)
    | with_reducible apply State.onlyIn.step (State.retryPort_only _ _)
    | with_reducible apply State.onlyIn.step (State.setHeldAt_only _ _ _)
    | with_reducible apply State.onlyIn.step (State.evWin_only _ _ _)
    | with_reducible apply State.onlyIn.step (State.ev_only _ _ _)
    | with_reducible apply State.onlyIn.step (State.setLane_only _ _ _)
    | with_reducible apply State.onlyIn.step (State.fset_only _ _ _ _ _))

theorem execOverflowGuard_only {w : Win} {lane : Fin 4} {s : State} {t1 : State} (h1 : execOverflowGuard w lane s = .next t1) :
    State.onlyIn [.freeCtr, .regs, .fab, .hank, .tiles, .cleats, .sites, .lan, .cmds, .xlt, .pwr, .ports, .boot, .fid, .unread, .out] s t1 := by
  unfold execOverflowGuard at h1
  repeat' (first | with_reducible apply atUnit_only h1 | with_reducible apply whenever_only h1 | with_reducible apply next_only h1 | (dsimp only at h1) | split at h1 | (simp only [reduceCtorEq] at h1; done))
  all_goals
    repeat' (first
      | intro _
      | ((with_reducible apply Comp.sub_ok); exact rfl)
      | with_reducible apply State.onlyIn.refl
      | with_reducible assumption
      | with_reducible apply State.onlyIn.foldl
      | dsimp only
      | split
      | with_reducible apply State.onlyIn.step (State.overflow_only _ _ _))

theorem State.writeXflush_only (s : State) (path : Path) (v : W32) :
    State.onlyIn [.regs, .cmds] s (State.writeXflush s path v) := by
  unfold State.writeXflush
  repeat' (first
    | intro _
    | ((with_reducible apply Comp.sub_ok); exact rfl)
    | with_reducible apply State.onlyIn.refl
    | with_reducible assumption
    | with_reducible apply State.onlyIn.foldl
    | dsimp only
    | split
    | with_reducible apply State.onlyIn.step (State.flushLane_only _ _ _ _ _)
    | with_reducible apply State.onlyIn.step (State.fset_only _ _ _ _ _))

theorem execCmdXflush_only {path : Path} {v : W32} {s : State} {t1 : State} (h1 : execCmdXflush path v s = .next t1) :
    State.onlyIn [.regs, .cmds, .ports, .out] s t1 := by
  unfold execCmdXflush at h1
  repeat' (first | with_reducible apply atUnit_only h1 | with_reducible apply whenever_only h1 | with_reducible apply next_only h1 | (dsimp only at h1) | split at h1 | (simp only [reduceCtorEq] at h1; done))
  all_goals
    repeat' (first
      | intro _
      | ((with_reducible apply Comp.sub_ok); exact rfl)
      | with_reducible apply State.onlyIn.refl
      | with_reducible assumption
      | with_reducible apply State.onlyIn.foldl
      | dsimp only
      | split
      | with_reducible apply State.onlyIn.step (State.writeXflush_only _ _ _)
      | with_reducible apply State.regWrite_onlyStep)

end Sys2Proof.Machine
end

