-- ==== Sys2Proof/Laws/OnlyCommands.lean ====
section
/-! SUPPORT. What each operation of Machine/Commands.lean can change: the parts of the state outside the list are as before. -/

set_option linter.all false

namespace Sys2Proof.Machine

theorem State.took_only (s : State) (w : Win) (op : Nat) :
    State.onlyIn [.cmds] s (State.took s w op) := by
  unfold State.took
  repeat' (first
    | intro _
    | ((with_reducible apply Comp.sub_ok); exact rfl)
    | with_reducible apply State.onlyIn.refl
    | with_reducible assumption
    | (simp only [State.onlyIn.cmds (l := [.cmds]) rfl])
    | with_reducible apply State.onlyIn.foldl
    | dsimp only
    | split
    | (refine ⟨fun c hc => ?_⟩; cases c <;> first | rfl | exact absurd (by decide) hc))

theorem State.startRunOf_only (s : State) (w : Win) (lane : Nat) (p : Packet) :
    State.onlyIn [.regs, .cmds, .ports, .out] s (State.startRunOf s w lane p) := by
  unfold State.startRunOf
  repeat' (first
    | intro _
    | ((with_reducible apply Comp.sub_ok); exact rfl)
    | with_reducible apply State.onlyIn.refl
    | with_reducible assumption
    | (simp only [State.onlyIn.regs (l := [.regs, .cmds, .ports, .out]) rfl, State.onlyIn.cmds (l := [.regs, .cmds, .ports, .out]) rfl, State.onlyIn.ports (l := [.regs, .cmds, .ports, .out]) rfl, State.onlyIn.out (l := [.regs, .cmds, .ports, .out]) rfl])
    | with_reducible apply State.onlyIn.foldl
    | dsimp only
    | split
    | with_reducible apply State.onlyIn.step (State.quadChange_only _ _)
    | with_reducible apply State.onlyIn.step (State.dropHead_only _ _ _)
    | with_reducible apply State.onlyIn.step (State.fidEvent_only _ _ _ _ _ _ _)
    | (refine ⟨fun c hc => ?_⟩; cases c <;> first | rfl | exact absurd (by decide) hc))

theorem State.commandStart_only (s : State) (w : Win) (lane : Nat) :
    State.onlyIn [.freeCtr, .regs, .hank, .sites, .cmds, .pwr, .ports, .fid, .out] s (State.commandStart s w lane) := by
  unfold State.commandStart
  repeat' (first
    | intro _
    | ((with_reducible apply Comp.sub_ok); exact rfl)
    | with_reducible apply State.onlyIn.refl
    | with_reducible assumption
    | with_reducible apply State.onlyIn.foldl
    | dsimp only
    | split
    | with_reducible apply State.onlyIn.step (State.startRunOf_only _ _ _ _)
    | with_reducible apply State.onlyIn.step (State.took_only _ _ _)
    | with_reducible apply State.onlyIn.step (State.askLeave_only _ _ _ _ _ _)
    | with_reducible apply State.onlyIn.step (State.unqueueLeave_only _ _ _)
    | with_reducible apply State.onlyIn.step (State.returnLeave_only _ _)
    | with_reducible apply State.onlyIn.step (State.completeHead_only _ _ _ _ _ _))

theorem execCommandStart_only {w : Win} {lane : Fin 4} {s : State} {t1 : State} (h1 : execCommandStart w lane s = .next t1) :
    State.onlyIn [.freeCtr, .regs, .hank, .sites, .cmds, .pwr, .ports, .fid, .out] s t1 := by
  unfold execCommandStart at h1
  repeat' (first | with_reducible apply atUnit_only h1 | with_reducible apply whenever_only h1 | with_reducible apply next_only h1 | (dsimp only at h1) | split at h1 | (simp only [reduceCtorEq] at h1; done))
  all_goals
    repeat' (first
      | intro _
      | ((with_reducible apply Comp.sub_ok); exact rfl)
      | with_reducible apply State.onlyIn.refl
      | with_reducible assumption
      | with_reducible apply State.onlyIn.foldl
      | dsimp only
      | split
      | with_reducible apply State.onlyIn.step (State.commandStart_only _ _ _))

theorem State.cmdBody_only {l : List Comp} {s : State} {id : Nat} {op : Nat} {k : Run → State → State} (hl : Comp.sub [.cmds] l = true) (hk_k : ∀ y0 y1, State.onlyIn l y1 (k y0 y1)) :
    State.onlyIn l s (State.cmdBody s id op k) := by
  unfold State.cmdBody
  repeat' (first
    | intro _
    | ((with_reducible refine Comp.sub_trans ?_ hl); exact rfl)
    | ((with_reducible apply Comp.sub_ok); exact rfl)
    | with_reducible apply State.onlyIn.refl
    | with_reducible assumption
    | with_reducible apply State.onlyIn.foldl
    | dsimp only
    | split
    | with_reducible apply State.onlyIn.step (State.setRun_only _ _)
    | with_reducible refine .trans ?_ (hk_k _ _))

theorem State.cmdBody_onlyStep {l : List Comp} {s0 : State} {s : State} {id : Nat} {op : Nat} {k : Run → State → State} (hl : Comp.sub [.cmds] l = true) (hk_k : ∀ y0 y1, State.onlyIn l y1 (k y0 y1)) (h0 : State.onlyIn l s0 s) :
    State.onlyIn l s0 (State.cmdBody s id op k) := h0.trans (State.cmdBody_only hl hk_k)

theorem State.runSvc_only (s : State) (r : Run) :
    State.onlyIn [.regs] s (State.runSvc s r).2 := by
  unfold State.runSvc
  repeat' (first
    | intro _
    | ((with_reducible apply Comp.sub_ok); exact rfl)
    | with_reducible apply State.onlyIn.refl
    | with_reducible assumption
    | with_reducible apply State.onlyIn.foldl
    | with_reducible apply State.onlyIn.foldl2
    | dsimp only
    | (split <;> first | (rename_i heq; have hx := congrArg (fun z => z.2) heq; dsimp only at hx; subst hx) | (rename_i heq; have hx := congrArg (fun z => z.2.2) heq; dsimp only at hx; subst hx) | skip)
    | split
    | with_reducible apply State.onlyIn.step (State.labelOf_only _ _ _))

theorem State.doDispatch_only (s : State) (r : Run) :
    State.onlyIn [.regs, .tiles] s (State.doDispatch s r) := by
  unfold State.doDispatch
  repeat' (first
    | intro _
    | ((with_reducible apply Comp.sub_ok); exact rfl)
    | with_reducible apply State.onlyIn.refl
    | with_reducible assumption
    | with_reducible apply State.onlyIn.foldl
    | with_reducible apply State.onlyIn.foldl2
    | dsimp only
    | (split <;> first | (rename_i heq; have hx := congrArg (fun z => z.2) heq; dsimp only at hx; subst hx) | (rename_i heq; have hx := congrArg (fun z => z.2.2) heq; dsimp only at hx; subst hx) | skip)
    | split
    | with_reducible apply State.onlyIn.step (State.runSvc_only _ _)
    | with_reducible apply State.onlyIn.step (State.modTile_only _ _ _))

theorem execDispatch_only {id : Nat} {s : State} {t1 : State} (h1 : execDispatch id s = .next t1) :
    State.onlyIn [.regs, .tiles, .cmds] s t1 := by
  unfold execDispatch at h1
  repeat' (first | with_reducible apply atUnit_only h1 | with_reducible apply whenever_only h1 | with_reducible apply next_only h1 | (dsimp only at h1) | split at h1 | (simp only [reduceCtorEq] at h1; done))
  all_goals
    repeat' (first
      | intro _
      | ((with_reducible apply Comp.sub_ok); exact rfl)
      | with_reducible apply State.onlyIn.refl
      | with_reducible assumption
      | with_reducible apply State.onlyIn.foldl
      | dsimp only
      | split
      | with_reducible apply State.onlyIn.step (State.doDispatch_only _ _)
      | with_reducible apply State.cmdBody_onlyStep)

theorem State.doWork_only (s : State) (r : Run) :
    State.onlyIn [.regs, .sites, .cmds, .out] s (State.doWork s r) := by
  unfold State.doWork
  repeat' (first
    | intro _
    | ((with_reducible apply Comp.sub_ok); exact rfl)
    | with_reducible apply State.onlyIn.refl
    | with_reducible assumption
    | with_reducible apply State.onlyIn.foldl
    | with_reducible apply State.onlyIn.foldl2
    | dsimp only
    | (split <;> first | (rename_i heq; have hx := congrArg (fun z => z.2) heq; dsimp only at hx; subst hx) | (rename_i heq; have hx := congrArg (fun z => z.2.2) heq; dsimp only at hx; subst hx) | skip)
    | split
    | with_reducible apply State.onlyIn.step (State.runSvc_only _ _)
    | with_reducible apply State.onlyIn.step (State.finish_only _ _ _ _)
    | with_reducible apply State.onlyIn.step (State.siteOut_only _ _ _ _)
    | with_reducible apply State.onlyIn.step (State.modSite_only _ _ _))

theorem execSiteWork_only {id : Nat} {s : State} {t1 : State} (h1 : execSiteWork id s = .next t1) :
    State.onlyIn [.regs, .sites, .cmds, .out] s t1 := by
  unfold execSiteWork at h1
  repeat' (first | with_reducible apply atUnit_only h1 | with_reducible apply whenever_only h1 | with_reducible apply next_only h1 | (dsimp only at h1) | split at h1 | (simp only [reduceCtorEq] at h1; done))
  all_goals
    repeat' (first
      | intro _
      | ((with_reducible apply Comp.sub_ok); exact rfl)
      | with_reducible apply State.onlyIn.refl
      | with_reducible assumption
      | with_reducible apply State.onlyIn.foldl
      | dsimp only
      | split
      | with_reducible apply State.onlyIn.step (State.doWork_only _ _)
      | with_reducible apply State.cmdBody_onlyStep)

theorem State.doCopy_only (s : State) (r : Run) :
    State.onlyIn [.freeCtr, .regs, .fab, .sites, .cmds, .xlt, .ports, .boot, .unread, .out] s (State.doCopy s r) := by
  unfold State.doCopy
  repeat' (first
    | intro _
    | ((with_reducible apply Comp.sub_ok); exact rfl)
    | with_reducible apply State.onlyIn.refl
    | with_reducible assumption
    | with_reducible apply State.onlyIn.foldl
    | with_reducible apply State.onlyIn.foldl2
    | dsimp only
    | (split <;> first | (rename_i heq; have hx := congrArg (fun z => z.2) heq; dsimp only at hx; subst hx) | (rename_i heq; have hx := congrArg (fun z => z.2.2) heq; dsimp only at hx; subst hx) | skip)
    | split
    | with_reducible apply State.onlyIn.step (State.runSvc_only _ _)
    | with_reducible apply State.onlyIn.step (State.issueAccs_only _ _ _)
    | with_reducible apply State.onlyIn.step (State.setRun_only _ _))

theorem execCopy_only {id : Nat} {s : State} {t1 : State} (h1 : execCopy id s = .next t1) :
    State.onlyIn [.freeCtr, .regs, .fab, .sites, .cmds, .xlt, .ports, .boot, .unread, .out] s t1 := by
  unfold execCopy at h1
  repeat' (first | with_reducible apply atUnit_only h1 | with_reducible apply whenever_only h1 | with_reducible apply next_only h1 | (dsimp only at h1) | split at h1 | (simp only [reduceCtorEq] at h1; done))
  all_goals
    repeat' (first
      | intro _
      | ((with_reducible apply Comp.sub_ok); exact rfl)
      | with_reducible apply State.onlyIn.refl
      | with_reducible assumption
      | with_reducible apply State.onlyIn.foldl
      | dsimp only
      | split
      | with_reducible apply State.onlyIn.step (State.doCopy_only _ _)
      | with_reducible apply State.cmdBody_onlyStep)

theorem State.doFill_only (s : State) (r : Run) :
    State.onlyIn [.freeCtr, .regs, .fab, .sites, .cmds, .xlt, .ports, .boot, .unread, .out] s (State.doFill s r) := by
  unfold State.doFill
  repeat' (first
    | intro _
    | ((with_reducible apply Comp.sub_ok); exact rfl)
    | with_reducible apply State.onlyIn.refl
    | with_reducible assumption
    | with_reducible apply State.onlyIn.foldl
    | with_reducible apply State.onlyIn.foldl2
    | dsimp only
    | (split <;> first | (rename_i heq; have hx := congrArg (fun z => z.2) heq; dsimp only at hx; subst hx) | (rename_i heq; have hx := congrArg (fun z => z.2.2) heq; dsimp only at hx; subst hx) | skip)
    | split
    | with_reducible apply State.onlyIn.step (State.runSvc_only _ _)
    | with_reducible apply State.onlyIn.step (State.issueAccs_only _ _ _)
    | with_reducible apply State.onlyIn.step (State.setRun_only _ _))

theorem execFill_only {id : Nat} {s : State} {t1 : State} (h1 : execFill id s = .next t1) :
    State.onlyIn [.freeCtr, .regs, .fab, .sites, .cmds, .xlt, .ports, .boot, .unread, .out] s t1 := by
  unfold execFill at h1
  repeat' (first | with_reducible apply atUnit_only h1 | with_reducible apply whenever_only h1 | with_reducible apply next_only h1 | (dsimp only at h1) | split at h1 | (simp only [reduceCtorEq] at h1; done))
  all_goals
    repeat' (first
      | intro _
      | ((with_reducible apply Comp.sub_ok); exact rfl)
      | with_reducible apply State.onlyIn.refl
      | with_reducible assumption
      | with_reducible apply State.onlyIn.foldl
      | dsimp only
      | split
      | with_reducible apply State.onlyIn.step (State.doFill_only _ _)
      | with_reducible apply State.cmdBody_onlyStep)

theorem execPutCmd_only {id : Nat} {s : State} {t1 : State} (h1 : execPutCmd id s = .next t1) :
    State.onlyIn [.freeCtr, .regs, .fab, .tiles, .sites, .lan, .cmds, .xlt, .ports, .boot, .fid, .unread, .out] s t1 := by
  unfold execPutCmd at h1
  repeat' (first | with_reducible apply atUnit_only h1 | with_reducible apply whenever_only h1 | with_reducible apply next_only h1 | (dsimp only at h1) | (split at h1 <;> first | (rename_i heq; have hx := congrArg (fun z => z.2) heq; dsimp only at hx; subst hx) | (rename_i heq; have hx := congrArg (fun z => z.2.2) heq; dsimp only at hx; subst hx) | skip) | (dsimp only at h1) | split at h1 | (simp only [reduceCtorEq] at h1; done))
  all_goals
    repeat' (first
      | intro _
      | ((with_reducible apply Comp.sub_ok); exact rfl)
      | with_reducible apply State.onlyIn.refl
      | with_reducible assumption
      | with_reducible apply State.onlyIn.foldl
      | with_reducible apply State.onlyIn.foldl2
      | dsimp only
      | (split <;> first | (rename_i heq; have hx := congrArg (fun z => z.2) heq; dsimp only at hx; subst hx) | (rename_i heq; have hx := congrArg (fun z => z.2.2) heq; dsimp only at hx; subst hx) | skip)
      | split
      | with_reducible apply State.onlyIn.step (State.runSvc_only _ _)
      | with_reducible apply State.cmdBody_onlyStep
      | with_reducible apply State.onlyIn.step (State.startPutFor_only _ _))

theorem execGetCmd_only {id : Nat} {s : State} {t1 : State} (h1 : execGetCmd id s = .next t1) :
    State.onlyIn [.freeCtr, .regs, .fab, .tiles, .sites, .lan, .cmds, .xlt, .ports, .boot, .fid, .unread, .out] s t1 := by
  unfold execGetCmd at h1
  repeat' (first | with_reducible apply atUnit_only h1 | with_reducible apply whenever_only h1 | with_reducible apply next_only h1 | (dsimp only at h1) | (split at h1 <;> first | (rename_i heq; have hx := congrArg (fun z => z.2) heq; dsimp only at hx; subst hx) | (rename_i heq; have hx := congrArg (fun z => z.2.2) heq; dsimp only at hx; subst hx) | skip) | (dsimp only at h1) | split at h1 | (simp only [reduceCtorEq] at h1; done))
  all_goals
    repeat' (first
      | intro _
      | ((with_reducible apply Comp.sub_ok); exact rfl)
      | with_reducible apply State.onlyIn.refl
      | with_reducible assumption
      | with_reducible apply State.onlyIn.foldl
      | with_reducible apply State.onlyIn.foldl2
      | dsimp only
      | (split <;> first | (rename_i heq; have hx := congrArg (fun z => z.2) heq; dsimp only at hx; subst hx) | (rename_i heq; have hx := congrArg (fun z => z.2.2) heq; dsimp only at hx; subst hx) | skip)
      | split
      | with_reducible apply State.onlyIn.step (State.runSvc_only _ _)
      | with_reducible apply State.cmdBody_onlyStep
      | with_reducible apply State.onlyIn.step (State.startPutFor_only _ _))

theorem State.copyRead_only (s : State) (id : Nat) (dst : Dva) (cached : Bool) (d : BitVec 256) (poison : Bool) :
    State.onlyIn [.freeCtr, .regs, .fab, .sites, .cmds, .xlt, .ports, .boot, .unread, .out] s (State.copyRead s id dst cached d poison) := by
  unfold State.copyRead
  repeat' (first
    | intro _
    | ((with_reducible apply Comp.sub_ok); exact rfl)
    | with_reducible apply State.onlyIn.refl
    | with_reducible assumption
    | (simp only [State.onlyIn.freeCtr (l := [.freeCtr, .regs, .fab, .sites, .cmds, .xlt, .ports, .boot, .unread, .out]) rfl, State.onlyIn.regs (l := [.freeCtr, .regs, .fab, .sites, .cmds, .xlt, .ports, .boot, .unread, .out]) rfl, State.onlyIn.fab (l := [.freeCtr, .regs, .fab, .sites, .cmds, .xlt, .ports, .boot, .unread, .out]) rfl, State.onlyIn.sites (l := [.freeCtr, .regs, .fab, .sites, .cmds, .xlt, .ports, .boot, .unread, .out]) rfl, State.onlyIn.cmds (l := [.freeCtr, .regs, .fab, .sites, .cmds, .xlt, .ports, .boot, .unread, .out]) rfl, State.onlyIn.xlt (l := [.freeCtr, .regs, .fab, .sites, .cmds, .xlt, .ports, .boot, .unread, .out]) rfl, State.onlyIn.ports (l := [.freeCtr, .regs, .fab, .sites, .cmds, .xlt, .ports, .boot, .unread, .out]) rfl, State.onlyIn.boot (l := [.freeCtr, .regs, .fab, .sites, .cmds, .xlt, .ports, .boot, .unread, .out]) rfl, State.onlyIn.unread (l := [.freeCtr, .regs, .fab, .sites, .cmds, .xlt, .ports, .boot, .unread, .out]) rfl, State.onlyIn.out (l := [.freeCtr, .regs, .fab, .sites, .cmds, .xlt, .ports, .boot, .unread, .out]) rfl])
    | with_reducible apply State.onlyIn.foldl
    | with_reducible apply State.onlyIn.foldl2
    | dsimp only
    | (split <;> first | (rename_i heq; have hx := congrArg (fun z => z.2) heq; dsimp only at hx; subst hx) | (rename_i heq; have hx := congrArg (fun z => z.2.2) heq; dsimp only at hx; subst hx) | skip)
    | split
    | with_reducible apply State.onlyIn.step (State.runSvc_only _ _)
    | with_reducible apply State.onlyIn.step (State.issueAccs_only _ _ _)
    | with_reducible apply State.onlyIn.step (State.setRun_only _ _)
    | (refine ⟨fun c hc => ?_⟩; cases c <;> first | rfl | exact absurd (by decide) hc))

theorem State.dropMove_only (s : State) (id : Nat) :
    State.onlyIn [.regs, .fab, .xlt, .ports, .out] s (State.dropMove s id) := by
  unfold State.dropMove
  repeat' (first
    | intro _
    | ((with_reducible apply Comp.sub_ok); exact rfl)
    | with_reducible apply State.onlyIn.refl
    | with_reducible assumption
    | (simp only [State.onlyIn.regs (l := [.regs, .fab, .xlt, .ports, .out]) rfl, State.onlyIn.fab (l := [.regs, .fab, .xlt, .ports, .out]) rfl, State.onlyIn.xlt (l := [.regs, .fab, .xlt, .ports, .out]) rfl, State.onlyIn.ports (l := [.regs, .fab, .xlt, .ports, .out]) rfl, State.onlyIn.out (l := [.regs, .fab, .xlt, .ports, .out]) rfl])
    | with_reducible apply State.onlyIn.foldl
    | dsimp only
    | split
    | with_reducible apply State.onlyIn.step (State.dropHeld_only _ _)
    | (refine ⟨fun c hc => ?_⟩; cases c <;> first | rfl | exact absurd (by decide) hc))

theorem State.moveRefused_only (s : State) (id : Nat) (status : BitVec 3) :
    State.onlyIn [.regs, .fab, .cmds, .xlt, .ports, .out] s (State.moveRefused s id status) := by
  unfold State.moveRefused
  repeat' (first
    | intro _
    | ((with_reducible apply Comp.sub_ok); exact rfl)
    | with_reducible apply State.onlyIn.refl
    | with_reducible assumption
    | with_reducible apply State.onlyIn.foldl
    | dsimp only
    | split
    | with_reducible apply State.onlyIn.step (State.dropMove_only _ _)
    | with_reducible apply State.onlyIn.step (State.finish_only _ _ _ _))

theorem State.moveWritten_only (s : State) (id : Nat) (status : BitVec 3) :
    State.onlyIn [.regs, .fab, .cmds, .xlt, .ports, .out] s (State.moveWritten s id status) := by
  unfold State.moveWritten
  repeat' (first
    | intro _
    | ((with_reducible apply Comp.sub_ok); exact rfl)
    | with_reducible apply State.onlyIn.refl
    | with_reducible assumption
    | with_reducible apply State.onlyIn.foldl
    | dsimp only
    | split
    | with_reducible apply State.onlyIn.step (State.moveRefused_only _ _ _)
    | with_reducible apply State.onlyIn.step (State.setRun_only _ _))

theorem State.doHandleSet_only (s : State) (r : Run) :
    State.onlyIn [.lan, .cmds] s (State.doHandleSet s r) := by
  unfold State.doHandleSet
  repeat' (first
    | intro _
    | ((with_reducible apply Comp.sub_ok); exact rfl)
    | with_reducible apply State.onlyIn.refl
    | with_reducible assumption
    | with_reducible apply State.onlyIn.foldl
    | dsimp only
    | split
    | with_reducible apply State.onlyIn.step (State.setHandle_only _ _ _)
    | with_reducible apply State.onlyIn.step (State.setRun_only _ _))

theorem execHandleSet_only {id : Nat} {s : State} {t1 : State} (h1 : execHandleSet id s = .next t1) :
    State.onlyIn [.lan, .cmds] s t1 := by
  unfold execHandleSet at h1
  repeat' (first | with_reducible apply atUnit_only h1 | with_reducible apply whenever_only h1 | with_reducible apply next_only h1 | (dsimp only at h1) | split at h1 | (simp only [reduceCtorEq] at h1; done))
  all_goals
    repeat' (first
      | intro _
      | ((with_reducible apply Comp.sub_ok); exact rfl)
      | with_reducible apply State.onlyIn.refl
      | with_reducible assumption
      | with_reducible apply State.onlyIn.foldl
      | dsimp only
      | split
      | with_reducible apply State.onlyIn.step (State.doHandleSet_only _ _)
      | with_reducible apply State.cmdBody_onlyStep)

theorem State.doHandleClear_only (s : State) (r : Run) :
    State.onlyIn [.lan, .cmds] s (State.doHandleClear s r) := by
  unfold State.doHandleClear
  repeat' (first
    | intro _
    | ((with_reducible apply Comp.sub_ok); exact rfl)
    | with_reducible apply State.onlyIn.refl
    | with_reducible assumption
    | with_reducible apply State.onlyIn.foldl
    | dsimp only
    | split
    | with_reducible apply State.onlyIn.step (State.setHandle_only _ _ _)
    | with_reducible apply State.onlyIn.step (State.setRun_only _ _))

theorem execHandleClear_only {id : Nat} {s : State} {t1 : State} (h1 : execHandleClear id s = .next t1) :
    State.onlyIn [.lan, .cmds] s t1 := by
  unfold execHandleClear at h1
  repeat' (first | with_reducible apply atUnit_only h1 | with_reducible apply whenever_only h1 | with_reducible apply next_only h1 | (dsimp only at h1) | split at h1 | (simp only [reduceCtorEq] at h1; done))
  all_goals
    repeat' (first
      | intro _
      | ((with_reducible apply Comp.sub_ok); exact rfl)
      | with_reducible apply State.onlyIn.refl
      | with_reducible assumption
      | with_reducible apply State.onlyIn.foldl
      | dsimp only
      | split
      | with_reducible apply State.onlyIn.step (State.doHandleClear_only _ _)
      | with_reducible apply State.cmdBody_onlyStep)

theorem State.doInval_only (s : State) (r : Run) :
    State.onlyIn [.sites, .cmds, .xlt, .out] s (State.doInval s r) := by
  unfold State.doInval
  repeat' (first
    | intro _
    | ((with_reducible apply Comp.sub_ok); exact rfl)
    | with_reducible apply State.onlyIn.refl
    | with_reducible assumption
    | (simp only [State.onlyIn.sites (l := [.sites, .cmds, .xlt, .out]) rfl, State.onlyIn.cmds (l := [.sites, .cmds, .xlt, .out]) rfl, State.onlyIn.xlt (l := [.sites, .cmds, .xlt, .out]) rfl, State.onlyIn.out (l := [.sites, .cmds, .xlt, .out]) rfl])
    | with_reducible apply State.onlyIn.foldl
    | dsimp only
    | split
    | with_reducible apply State.onlyIn.step (State.siteOut_only _ _ _ _)
    | with_reducible apply State.onlyIn.step (State.modSite_only _ _ _)
    | with_reducible apply State.onlyIn.step (State.setRun_only _ _)
    | (refine ⟨fun c hc => ?_⟩; cases c <;> first | rfl | exact absurd (by decide) hc))

theorem execXltInval_only {id : Nat} {s : State} {t1 : State} (h1 : execXltInval id s = .next t1) :
    State.onlyIn [.sites, .cmds, .xlt, .out] s t1 := by
  unfold execXltInval at h1
  repeat' (first | with_reducible apply atUnit_only h1 | with_reducible apply whenever_only h1 | with_reducible apply next_only h1 | (dsimp only at h1) | split at h1 | (simp only [reduceCtorEq] at h1; done))
  all_goals
    repeat' (first
      | intro _
      | ((with_reducible apply Comp.sub_ok); exact rfl)
      | with_reducible apply State.onlyIn.refl
      | with_reducible assumption
      | with_reducible apply State.onlyIn.foldl
      | dsimp only
      | split
      | with_reducible apply State.onlyIn.step (State.doInval_only _ _)
      | with_reducible apply State.cmdBody_onlyStep)

theorem execNopCmd_only {id : Nat} {s : State} {t1 : State} (h1 : execNopCmd id s = .next t1) :
    State.onlyIn [.cmds] s t1 := by
  unfold execNopCmd at h1
  repeat' (first | with_reducible apply atUnit_only h1 | with_reducible apply whenever_only h1 | with_reducible apply next_only h1 | (dsimp only at h1) | split at h1 | (simp only [reduceCtorEq] at h1; done))
  all_goals
    repeat' (first
      | intro _
      | ((with_reducible apply Comp.sub_ok); exact rfl)
      | with_reducible apply State.onlyIn.refl
      | with_reducible assumption
      | with_reducible apply State.onlyIn.foldl
      | dsimp only
      | split
      | with_reducible apply State.cmdBody_onlyStep
      | with_reducible apply State.onlyIn.step (State.finish_only _ _ _ _))

theorem State.doCleatSet_only (s : State) (r : Run) :
    State.onlyIn [.freeCtr, .regs, .fab, .tiles, .cleats, .sites, .lan, .cmds, .xlt, .ports, .boot, .fid, .unread, .out] s (State.doCleatSet s r) := by
  unfold State.doCleatSet
  repeat' (first
    | intro _
    | ((with_reducible apply Comp.sub_ok); exact rfl)
    | with_reducible apply State.onlyIn.refl
    | with_reducible assumption
    | with_reducible apply State.onlyIn.foldl
    | dsimp only
    | split
    | with_reducible apply State.onlyIn.step (State.kickTiles_only _ _)
    | with_reducible apply State.onlyIn.step (State.wake_only _ _)
    | with_reducible apply State.onlyIn.step (State.finish_only _ _ _ _)
    | with_reducible apply State.onlyIn.step (State.setCleat_only _ _ _))

theorem execCleatSet_only {id : Nat} {s : State} {t1 : State} (h1 : execCleatSet id s = .next t1) :
    State.onlyIn [.freeCtr, .regs, .fab, .tiles, .cleats, .sites, .lan, .cmds, .xlt, .ports, .boot, .fid, .unread, .out] s t1 := by
  unfold execCleatSet at h1
  repeat' (first | with_reducible apply atUnit_only h1 | with_reducible apply whenever_only h1 | with_reducible apply next_only h1 | (dsimp only at h1) | split at h1 | (simp only [reduceCtorEq] at h1; done))
  all_goals
    repeat' (first
      | intro _
      | ((with_reducible apply Comp.sub_ok); exact rfl)
      | with_reducible apply State.onlyIn.refl
      | with_reducible assumption
      | with_reducible apply State.onlyIn.foldl
      | dsimp only
      | split
      | with_reducible apply State.onlyIn.step (State.doCleatSet_only _ _)
      | with_reducible apply State.cmdBody_onlyStep)

theorem execCleatAdd_only {id : Nat} {s : State} {t1 : State} (h1 : execCleatAdd id s = .next t1) :
    State.onlyIn [.freeCtr, .regs, .fab, .tiles, .cleats, .sites, .lan, .cmds, .xlt, .ports, .boot, .fid, .unread, .out] s t1 := by
  unfold execCleatAdd at h1
  repeat' (first | with_reducible apply atUnit_only h1 | with_reducible apply whenever_only h1 | with_reducible apply next_only h1 | (dsimp only at h1) | split at h1 | (simp only [reduceCtorEq] at h1; done))
  all_goals
    repeat' (first
      | intro _
      | ((with_reducible apply Comp.sub_ok); exact rfl)
      | with_reducible apply State.onlyIn.refl
      | with_reducible assumption
      | with_reducible apply State.onlyIn.foldl
      | dsimp only
      | split
      | with_reducible apply State.cmdBody_onlyStep
      | with_reducible apply State.onlyIn.step (State.bankInc_only _ _ _ _)
      | with_reducible apply State.onlyIn.step (State.finish_only _ _ _ _))

theorem State.doCleatWait_only (s : State) (r : Run) :
    State.onlyIn [.regs, .cmds, .fid] s (State.doCleatWait s r) := by
  unfold State.doCleatWait
  repeat' (first
    | intro _
    | ((with_reducible apply Comp.sub_ok); exact rfl)
    | with_reducible apply State.onlyIn.refl
    | with_reducible assumption
    | with_reducible apply State.onlyIn.foldl
    | dsimp only
    | split
    | with_reducible apply State.onlyIn.step (State.finish_only _ _ _ _)
    | with_reducible apply State.onlyIn.step (State.trace_only _ _ _ _ _ _ _ _ _))

theorem execCleatWait_only {id : Nat} {s : State} {t1 : State} (h1 : execCleatWait id s = .next t1) :
    State.onlyIn [.regs, .cmds, .fid] s t1 := by
  unfold execCleatWait at h1
  repeat' (first | with_reducible apply atUnit_only h1 | with_reducible apply whenever_only h1 | with_reducible apply next_only h1 | (dsimp only at h1) | split at h1 | (simp only [reduceCtorEq] at h1; done))
  all_goals
    repeat' (first
      | intro _
      | ((with_reducible apply Comp.sub_ok); exact rfl)
      | with_reducible apply State.onlyIn.refl
      | with_reducible assumption
      | with_reducible apply State.onlyIn.foldl
      | dsimp only
      | split
      | with_reducible apply State.onlyIn.step (State.doCleatWait_only _ _)
      | with_reducible apply State.cmdBody_onlyStep)

theorem State.cleatWaitTimeout_only (s : State) (id : Nat) :
    State.onlyIn [.cmds] s (State.cleatWaitTimeout s id) := by
  unfold State.cleatWaitTimeout
  repeat' (first
    | intro _
    | ((with_reducible apply Comp.sub_ok); exact rfl)
    | with_reducible apply State.onlyIn.refl
    | with_reducible assumption
    | with_reducible apply State.onlyIn.foldl
    | dsimp only
    | split
    | with_reducible apply State.onlyIn.step (State.finish_only _ _ _ _))

theorem execCleatWaitTimeout_only {id : Nat} {s : State} {t1 : State} (h1 : execCleatWaitTimeout id s = .next t1) :
    State.onlyIn [.cmds] s t1 := by
  unfold execCleatWaitTimeout at h1
  repeat' (first | with_reducible apply atUnit_only h1 | with_reducible apply whenever_only h1 | with_reducible apply next_only h1 | (dsimp only at h1) | split at h1 | (simp only [reduceCtorEq] at h1; done))
  all_goals
    repeat' (first
      | intro _
      | ((with_reducible apply Comp.sub_ok); exact rfl)
      | with_reducible apply State.onlyIn.refl
      | with_reducible assumption
      | with_reducible apply State.onlyIn.foldl
      | dsimp only
      | split
      | with_reducible apply State.onlyIn.step (State.cleatWaitTimeout_only _ _))

theorem State.seqRecords_only (s : State) (r : Run) (i : Nat) (x3 : Nat) :
    State.onlyIn [.cmds] s (State.seqRecords s r i x3) := by
  induction x3 generalizing s r i with
  | zero =>
    rw [State.seqRecords]
    repeat' (first
      | intro _
      | ((with_reducible apply Comp.sub_ok); exact rfl)
      | with_reducible apply State.onlyIn.refl
      | with_reducible assumption
      | (simp only [State.onlyIn.cmds (l := [.cmds]) rfl])
      | with_reducible apply State.onlyIn.foldl
      | dsimp only
      | split
      | with_reducible apply State.onlyIn.step (State.finish_only _ _ _ _)
      | with_reducible refine .trans ?_ (ih _ _ _)
      | (refine ⟨fun c hc => ?_⟩; cases c <;> first | rfl | exact absurd (by decide) hc))
  | succ k ih =>
    rw [State.seqRecords]
    repeat' (first
      | intro _
      | ((with_reducible apply Comp.sub_ok); exact rfl)
      | with_reducible apply State.onlyIn.refl
      | with_reducible assumption
      | (simp only [State.onlyIn.cmds (l := [.cmds]) rfl])
      | with_reducible apply State.onlyIn.foldl
      | dsimp only
      | split
      | with_reducible apply State.onlyIn.step (State.finish_only _ _ _ _)
      | with_reducible refine .trans ?_ (ih _ _ _)
      | (refine ⟨fun c hc => ?_⟩; cases c <;> first | rfl | exact absurd (by decide) hc))

theorem execSeqdir_only {id : Nat} {s : State} {t1 : State} (h1 : execSeqdir id s = .next t1) :
    State.onlyIn [.cmds] s t1 := by
  unfold execSeqdir at h1
  repeat' (first | with_reducible apply atUnit_only h1 | with_reducible apply whenever_only h1 | with_reducible apply next_only h1 | (dsimp only at h1) | split at h1 | (simp only [reduceCtorEq] at h1; done))
  all_goals
    repeat' (first
      | intro _
      | ((with_reducible apply Comp.sub_ok); exact rfl)
      | with_reducible apply State.onlyIn.refl
      | with_reducible assumption
      | with_reducible apply State.onlyIn.foldl
      | dsimp only
      | split
      | with_reducible apply State.onlyIn.step (State.seqRecords_only _ _ _ _)
      | with_reducible apply State.cmdBody_onlyStep)

theorem State.applyV_only (s : State) :
    State.onlyIn [.regs, .pwr] s (State.applyV s) := by
  unfold State.applyV
  repeat' (first
    | intro _
    | ((with_reducible apply Comp.sub_ok); exact rfl)
    | with_reducible apply State.onlyIn.refl
    | with_reducible assumption
    | (simp only [State.onlyIn.regs (l := [.regs, .pwr]) rfl, State.onlyIn.pwr (l := [.regs, .pwr]) rfl])
    | with_reducible apply State.onlyIn.foldl
    | dsimp only
    | split
    | with_reducible apply State.onlyIn.step (State.showRails_only _)
    | with_reducible apply State.onlyIn.step (State.fset_only _ _ _ _ _)
    | (refine ⟨fun c hc => ?_⟩; cases c <;> first | rfl | exact absurd (by decide) hc))

theorem State.retireRun_only (s : State) (r : Run) :
    State.onlyIn [.freeCtr, .regs, .fab, .hank, .tiles, .cleats, .sites, .lan, .cmds, .xlt, .pwr, .ports, .boot, .fid, .unread, .out] s (State.retireRun s r) := by
  unfold State.retireRun
  repeat' (first
    | intro _
    | ((with_reducible apply Comp.sub_ok); exact rfl)
    | with_reducible apply State.onlyIn.refl
    | with_reducible assumption
    | (simp only [State.onlyIn.freeCtr (l := [.freeCtr, .regs, .fab, .hank, .tiles, .cleats, .sites, .lan, .cmds, .xlt, .pwr, .ports, .boot, .fid, .unread, .out]) rfl, State.onlyIn.regs (l := [.freeCtr, .regs, .fab, .hank, .tiles, .cleats, .sites, .lan, .cmds, .xlt, .pwr, .ports, .boot, .fid, .unread, .out]) rfl, State.onlyIn.fab (l := [.freeCtr, .regs, .fab, .hank, .tiles, .cleats, .sites, .lan, .cmds, .xlt, .pwr, .ports, .boot, .fid, .unread, .out]) rfl, State.onlyIn.tiles (l := [.freeCtr, .regs, .fab, .hank, .tiles, .cleats, .sites, .lan, .cmds, .xlt, .pwr, .ports, .boot, .fid, .unread, .out]) rfl, State.onlyIn.cleats (l := [.freeCtr, .regs, .fab, .hank, .tiles, .cleats, .sites, .lan, .cmds, .xlt, .pwr, .ports, .boot, .fid, .unread, .out]) rfl, State.onlyIn.sites (l := [.freeCtr, .regs, .fab, .hank, .tiles, .cleats, .sites, .lan, .cmds, .xlt, .pwr, .ports, .boot, .fid, .unread, .out]) rfl, State.onlyIn.lan (l := [.freeCtr, .regs, .fab, .hank, .tiles, .cleats, .sites, .lan, .cmds, .xlt, .pwr, .ports, .boot, .fid, .unread, .out]) rfl, State.onlyIn.cmds (l := [.freeCtr, .regs, .fab, .hank, .tiles, .cleats, .sites, .lan, .cmds, .xlt, .pwr, .ports, .boot, .fid, .unread, .out]) rfl, State.onlyIn.xlt (l := [.freeCtr, .regs, .fab, .hank, .tiles, .cleats, .sites, .lan, .cmds, .xlt, .pwr, .ports, .boot, .fid, .unread, .out]) rfl, State.onlyIn.pwr (l := [.freeCtr, .regs, .fab, .hank, .tiles, .cleats, .sites, .lan, .cmds, .xlt, .pwr, .ports, .boot, .fid, .unread, .out]) rfl, State.onlyIn.ports (l := [.freeCtr, .regs, .fab, .hank, .tiles, .cleats, .sites, .lan, .cmds, .xlt, .pwr, .ports, .boot, .fid, .unread, .out]) rfl, State.onlyIn.boot (l := [.freeCtr, .regs, .fab, .hank, .tiles, .cleats, .sites, .lan, .cmds, .xlt, .pwr, .ports, .boot, .fid, .unread, .out]) rfl, State.onlyIn.fid (l := [.freeCtr, .regs, .fab, .hank, .tiles, .cleats, .sites, .lan, .cmds, .xlt, .pwr, .ports, .boot, .fid, .unread, .out]) rfl, State.onlyIn.unread (l := [.freeCtr, .regs, .fab, .hank, .tiles, .cleats, .sites, .lan, .cmds, .xlt, .pwr, .ports, .boot, .fid, .unread, .out]) rfl, State.onlyIn.out (l := [.freeCtr, .regs, .fab, .hank, .tiles, .cleats, .sites, .lan, .cmds, .xlt, .pwr, .ports, .boot, .fid, .unread, .out]) rfl])
    | with_reducible apply State.onlyIn.foldl
    | dsimp only
    | split
    | with_reducible apply State.onlyIn.step (State.laneResets_only _ _)
    | with_reducible apply State.onlyIn.step (State.bankInc_only _ _ _ _)
    | with_reducible apply State.onlyIn.step (State.msix_only _ _ _)
    | with_reducible refine .hankRest ?_ (by rfl) ?_
    | (refine ⟨fun c hc => ?_⟩; cases c <;> first | rfl | exact absurd (by decide) hc))

theorem State.replyLost_only (s : State) (r : Run) :
    State.onlyIn [.freeCtr, .regs, .fab, .hank, .tiles, .cleats, .sites, .lan, .cmds, .xlt, .pwr, .ports, .boot, .fid, .unread, .out] s (State.replyLost s r) := by
  unfold State.replyLost
  repeat' (first
    | intro _
    | ((with_reducible apply Comp.sub_ok); exact rfl)
    | with_reducible apply State.onlyIn.refl
    | with_reducible assumption
    | with_reducible apply State.onlyIn.foldl
    | dsimp only
    | split
    | with_reducible apply State.onlyIn.step (State.retireRun_only _ _)
    | with_reducible apply State.onlyIn.step (State.evWin_only _ _ _))

theorem State.writeReply_only (s : State) (r : Run) :
    State.onlyIn [.freeCtr, .regs, .fab, .hank, .tiles, .cleats, .sites, .lan, .cmds, .xlt, .pwr, .ports, .boot, .fid, .unread, .out] s (State.writeReply s r) := by
  unfold State.writeReply
  repeat' (first
    | intro _
    | ((with_reducible apply Comp.sub_ok); exact rfl)
    | with_reducible apply State.onlyIn.refl
    | with_reducible assumption
    | with_reducible apply State.onlyIn.foldl
    | with_reducible apply State.onlyIn.foldl2
    | dsimp only
    | (split <;> first | (rename_i heq; have hx := congrArg (fun z => z.2) heq; dsimp only at hx; subst hx) | (rename_i heq; have hx := congrArg (fun z => z.2.2) heq; dsimp only at hx; subst hx) | skip)
    | split
    | with_reducible apply State.onlyIn.step (State.replyLost_only _ _)
    | with_reducible apply State.onlyIn.step (State.runSvc_only _ _)
    | with_reducible apply State.onlyIn.step (State.refuseLocal_only _ _ _ _)
    | with_reducible apply State.onlyIn.step (State.xltFaultLoose_only _ _ _ _ _ _)
    | with_reducible apply State.onlyIn.step (State.translate_only _ _ _ _ _)
    | with_reducible apply State.onlyIn.step (State.request_only _ _ _ _)
    | with_reducible apply State.onlyIn.step (State.deny_only _ _ _ _ _)
    | with_reducible apply State.onlyIn.step (State.setRun_only _ _))

theorem State.reply_only (s : State) (r : Run) :
    State.onlyIn [.freeCtr, .regs, .fab, .hank, .tiles, .cleats, .sites, .lan, .cmds, .xlt, .pwr, .ports, .boot, .fid, .unread, .out] s (State.reply s r) := by
  unfold State.reply
  repeat' (first
    | intro _
    | ((with_reducible apply Comp.sub_ok); exact rfl)
    | with_reducible apply State.onlyIn.refl
    | with_reducible assumption
    | (simp only [State.onlyIn.freeCtr (l := [.freeCtr, .regs, .fab, .hank, .tiles, .cleats, .sites, .lan, .cmds, .xlt, .pwr, .ports, .boot, .fid, .unread, .out]) rfl, State.onlyIn.regs (l := [.freeCtr, .regs, .fab, .hank, .tiles, .cleats, .sites, .lan, .cmds, .xlt, .pwr, .ports, .boot, .fid, .unread, .out]) rfl, State.onlyIn.fab (l := [.freeCtr, .regs, .fab, .hank, .tiles, .cleats, .sites, .lan, .cmds, .xlt, .pwr, .ports, .boot, .fid, .unread, .out]) rfl, State.onlyIn.tiles (l := [.freeCtr, .regs, .fab, .hank, .tiles, .cleats, .sites, .lan, .cmds, .xlt, .pwr, .ports, .boot, .fid, .unread, .out]) rfl, State.onlyIn.cleats (l := [.freeCtr, .regs, .fab, .hank, .tiles, .cleats, .sites, .lan, .cmds, .xlt, .pwr, .ports, .boot, .fid, .unread, .out]) rfl, State.onlyIn.sites (l := [.freeCtr, .regs, .fab, .hank, .tiles, .cleats, .sites, .lan, .cmds, .xlt, .pwr, .ports, .boot, .fid, .unread, .out]) rfl, State.onlyIn.lan (l := [.freeCtr, .regs, .fab, .hank, .tiles, .cleats, .sites, .lan, .cmds, .xlt, .pwr, .ports, .boot, .fid, .unread, .out]) rfl, State.onlyIn.cmds (l := [.freeCtr, .regs, .fab, .hank, .tiles, .cleats, .sites, .lan, .cmds, .xlt, .pwr, .ports, .boot, .fid, .unread, .out]) rfl, State.onlyIn.xlt (l := [.freeCtr, .regs, .fab, .hank, .tiles, .cleats, .sites, .lan, .cmds, .xlt, .pwr, .ports, .boot, .fid, .unread, .out]) rfl, State.onlyIn.pwr (l := [.freeCtr, .regs, .fab, .hank, .tiles, .cleats, .sites, .lan, .cmds, .xlt, .pwr, .ports, .boot, .fid, .unread, .out]) rfl, State.onlyIn.ports (l := [.freeCtr, .regs, .fab, .hank, .tiles, .cleats, .sites, .lan, .cmds, .xlt, .pwr, .ports, .boot, .fid, .unread, .out]) rfl, State.onlyIn.boot (l := [.freeCtr, .regs, .fab, .hank, .tiles, .cleats, .sites, .lan, .cmds, .xlt, .pwr, .ports, .boot, .fid, .unread, .out]) rfl, State.onlyIn.fid (l := [.freeCtr, .regs, .fab, .hank, .tiles, .cleats, .sites, .lan, .cmds, .xlt, .pwr, .ports, .boot, .fid, .unread, .out]) rfl, State.onlyIn.unread (l := [.freeCtr, .regs, .fab, .hank, .tiles, .cleats, .sites, .lan, .cmds, .xlt, .pwr, .ports, .boot, .fid, .unread, .out]) rfl, State.onlyIn.out (l := [.freeCtr, .regs, .fab, .hank, .tiles, .cleats, .sites, .lan, .cmds, .xlt, .pwr, .ports, .boot, .fid, .unread, .out]) rfl])
    | with_reducible apply State.onlyIn.foldl
    | dsimp only
    | split
    | with_reducible apply State.onlyIn.step (State.writeReply_only _ _)
    | with_reducible apply State.onlyIn.step (State.retireRun_only _ _)
    | with_reducible apply State.onlyIn.step (State.pushOut_only _ _)
    | with_reducible refine .hankRest ?_ (by rfl) ?_
    | (refine ⟨fun c hc => ?_⟩; cases c <;> first | rfl | exact absurd (by decide) hc))

theorem State.replyDone_only (s : State) (id : Nat) (status : BitVec 3) :
    State.onlyIn [.freeCtr, .regs, .fab, .hank, .tiles, .cleats, .sites, .lan, .cmds, .xlt, .pwr, .ports, .boot, .fid, .unread, .out] s (State.replyDone s id status) := by
  unfold State.replyDone
  repeat' (first
    | intro _
    | ((with_reducible apply Comp.sub_ok); exact rfl)
    | with_reducible apply State.onlyIn.refl
    | with_reducible assumption
    | with_reducible apply State.onlyIn.foldl
    | dsimp only
    | split
    | with_reducible apply State.onlyIn.step (State.replyLost_only _ _)
    | with_reducible apply State.onlyIn.step (State.retireRun_only _ _))

theorem State.idleTiles_only (s : State) (r : Run) :
    State.onlyIn [.tiles] s (State.idleTiles s r) := by
  unfold State.idleTiles
  repeat' (first
    | intro _
    | ((with_reducible apply Comp.sub_ok); exact rfl)
    | with_reducible apply State.onlyIn.refl
    | with_reducible assumption
    | with_reducible apply State.onlyIn.foldl
    | dsimp only
    | split
    | with_reducible apply State.onlyIn.step (State.modTile_only _ _ _))

theorem State.stepOne_only (s : State) (r : Run) :
    State.onlyIn [.freeCtr, .regs, .hank, .tiles, .sites, .cmds, .pwr, .ports, .fid, .out] s (State.stepOne s r).2 := by
  unfold State.stepOne
  repeat' (first
    | intro _
    | ((with_reducible apply Comp.sub_ok); exact rfl)
    | with_reducible apply State.onlyIn.refl
    | with_reducible assumption
    | with_reducible apply State.onlyIn.foldl
    | with_reducible apply State.onlyIn.foldl2
    | dsimp only
    | split
    | with_reducible apply State.onlyIn.step (State.idleTiles_only _ _)
    | with_reducible apply State.onlyIn.step (State.applyV_only _)
    | with_reducible apply State.onlyIn.step (State.returnLeave_only _ _)
    | with_reducible apply State.onlyIn.step (State.updGates_only _)
    | with_reducible apply State.onlyIn.step (State.trigger_only _ _ _ _ _ _)
    | with_reducible apply State.onlyIn.step (State.setRun_only _ _))

theorem State.commandEnd_only (s : State) (id : Nat) :
    State.onlyIn [.freeCtr, .regs, .fab, .hank, .tiles, .cleats, .sites, .lan, .cmds, .xlt, .pwr, .ports, .boot, .fid, .unread, .out] s (State.commandEnd s id) := by
  unfold State.commandEnd
  repeat' (first
    | intro _
    | ((with_reducible apply Comp.sub_ok); exact rfl)
    | with_reducible apply State.onlyIn.refl
    | with_reducible assumption
    | with_reducible apply State.onlyIn.foldl
    | with_reducible apply State.onlyIn.foldl2
    | dsimp only
    | (split <;> first | (rename_i heq; have hx := congrArg (fun z => z.2) heq; dsimp only at hx; subst hx) | (rename_i heq; have hx := congrArg (fun z => z.2.2) heq; dsimp only at hx; subst hx) | skip)
    | split
    | with_reducible apply State.onlyIn.step (State.stepOne_only _ _)
    | with_reducible apply State.onlyIn.step (State.reply_only _ _))

theorem execCommandEnd_only {id : Nat} {s : State} {t1 : State} (h1 : execCommandEnd id s = .next t1) :
    State.onlyIn [.freeCtr, .regs, .fab, .hank, .tiles, .cleats, .sites, .lan, .cmds, .xlt, .pwr, .ports, .boot, .fid, .unread, .out] s t1 := by
  unfold execCommandEnd at h1
  repeat' (first | with_reducible apply atUnit_only h1 | with_reducible apply whenever_only h1 | with_reducible apply next_only h1 | (dsimp only at h1) | split at h1 | (simp only [reduceCtorEq] at h1; done))
  all_goals
    repeat' (first
      | intro _
      | ((with_reducible apply Comp.sub_ok); exact rfl)
      | with_reducible apply State.onlyIn.refl
      | with_reducible assumption
      | with_reducible apply State.onlyIn.foldl
      | dsimp only
      | split
      | with_reducible apply State.onlyIn.step (State.commandEnd_only _ _))

theorem State.commandTimeout_only (s : State) (id : Nat) :
    State.onlyIn [.freeCtr, .regs, .fab, .hank, .tiles, .cleats, .sites, .lan, .cmds, .xlt, .pwr, .ports, .boot, .fid, .unread, .out] s (State.commandTimeout s id) := by
  unfold State.commandTimeout
  repeat' (first
    | intro _
    | ((with_reducible apply Comp.sub_ok); exact rfl)
    | with_reducible apply State.onlyIn.refl
    | with_reducible assumption
    | with_reducible apply State.onlyIn.foldl
    | dsimp only
    | split
    | with_reducible apply State.onlyIn.step (State.haltRun_only _ _ _ _))

theorem execCommandTimeout_only {id : Nat} {s : State} {t1 : State} (h1 : execCommandTimeout id s = .next t1) :
    State.onlyIn [.freeCtr, .regs, .fab, .hank, .tiles, .cleats, .sites, .lan, .cmds, .xlt, .pwr, .ports, .boot, .fid, .unread, .out] s t1 := by
  unfold execCommandTimeout at h1
  repeat' (first | with_reducible apply atUnit_only h1 | with_reducible apply whenever_only h1 | with_reducible apply next_only h1 | (dsimp only at h1) | split at h1 | (simp only [reduceCtorEq] at h1; done))
  all_goals
    repeat' (first
      | intro _
      | ((with_reducible apply Comp.sub_ok); exact rfl)
      | with_reducible apply State.onlyIn.refl
      | with_reducible assumption
      | with_reducible apply State.onlyIn.foldl
      | dsimp only
      | split
      | with_reducible apply State.onlyIn.step (State.commandTimeout_only _ _))

end Sys2Proof.Machine
end

