-- ==== Sys2Proof/Laws/OnlyPartition.lean ====
section
/-! SUPPORT. What each operation of Machine/Partition.lean can change: the parts of the state outside the list are as before. -/

set_option linter.all false

namespace Sys2Proof.Machine

theorem State.loadKey_only (s : State) (n : Nat) :
    State.onlyIn [.regs, .hank, .fid] s (State.loadKey s n) := by
  unfold State.loadKey
  repeat' (first
    | intro _
    | ((with_reducible apply Comp.sub_ok); exact rfl)
    | with_reducible apply State.onlyIn.refl
    | with_reducible assumption
    | (simp only [State.onlyIn.regs (l := [.regs, .hank, .fid]) rfl, State.onlyIn.fid (l := [.regs, .hank, .fid]) rfl])
    | with_reducible apply State.onlyIn.foldl
    | dsimp only
    | split
    | with_reducible apply State.onlyIn.step (State.disarm_only _)
    | with_reducible apply State.onlyIn.step (State.fsetBit_only _ _ _ _ _ _)
    | with_reducible refine .hankRest ?_ (by rfl) ?_
    | (refine ⟨fun c hc => ?_⟩; cases c <;> first | rfl | exact absurd (by decide) hc))

theorem State.unloadKey_only (s : State) (n : Nat) :
    State.onlyIn [.regs, .hank, .fid] s (State.unloadKey s n) := by
  unfold State.unloadKey
  repeat' (first
    | intro _
    | ((with_reducible apply Comp.sub_ok); exact rfl)
    | with_reducible apply State.onlyIn.refl
    | with_reducible assumption
    | (simp only [State.onlyIn.regs (l := [.regs, .hank, .fid]) rfl, State.onlyIn.fid (l := [.regs, .hank, .fid]) rfl])
    | with_reducible apply State.onlyIn.foldl
    | dsimp only
    | split
    | with_reducible apply State.onlyIn.step (State.disarm_only _)
    | with_reducible apply State.onlyIn.step (State.fsetBit_only _ _ _ _ _ _)
    | with_reducible refine .hankRest ?_ (by rfl) ?_
    | (refine ⟨fun c hc => ?_⟩; cases c <;> first | rfl | exact absurd (by decide) hc))

theorem State.leaveFill_only (s : State) (gs : List Nat) :
    State.onlyIn [.hank, .sec] s (State.leaveFill s gs) := by
  unfold State.leaveFill
  repeat' (first
    | intro _
    | ((with_reducible apply Comp.sub_ok); exact rfl)
    | with_reducible apply State.onlyIn.refl
    | with_reducible assumption
    | with_reducible apply State.onlyIn.foldl
    | dsimp only
    | split
    | with_reducible apply State.onlyIn.step (State.unqueueFill_only _ _)
    | with_reducible apply State.onlyIn.step (State.setPart_only _ _ _))

theorem State.await_only (s : State) (id : Nat) (n : Nat) :
    State.onlyIn [.cmds] s (State.await s id n) := by
  unfold State.await
  repeat' (first
    | intro _
    | ((with_reducible apply Comp.sub_ok); exact rfl)
    | with_reducible apply State.onlyIn.refl
    | with_reducible assumption
    | with_reducible apply State.onlyIn.foldl
    | dsimp only
    | split
    | with_reducible apply State.onlyIn.step (State.setRun_only _ _))

theorem State.grantGrans_only (s : State) (id : Nat) (owner : Nat) (gs : List Nat) (r : OwnRec) :
    State.onlyIn [.regs, .hank, .cmds, .sec, .fid] s (State.grantGrans s id owner gs r) := by
  unfold State.grantGrans
  repeat' (first
    | intro _
    | ((with_reducible apply Comp.sub_ok); exact rfl)
    | with_reducible apply State.onlyIn.refl
    | with_reducible assumption
    | with_reducible apply State.onlyIn.foldl
    | dsimp only
    | split
    | with_reducible apply State.onlyIn.step (State.await_only _ _ _)
    | with_reducible apply State.onlyIn.step (State.leaveFill_only _ _)
    | with_reducible apply State.onlyIn.step (State.queueFill_only _ _ _ _)
    | with_reducible apply State.onlyIn.step (State.setOwn_only _ _ _))

theorem State.freeGrans_only (s : State) (owner : Nat) (gs : List Nat) :
    State.onlyIn [.regs, .fab, .hank, .tiles, .sites, .fid] s (State.freeGrans s owner gs) := by
  unfold State.freeGrans
  repeat' (first
    | intro _
    | ((with_reducible apply Comp.sub_ok); exact rfl)
    | with_reducible apply State.onlyIn.refl
    | with_reducible assumption
    | with_reducible apply State.onlyIn.foldl
    | dsimp only
    | split
    | with_reducible apply State.onlyIn.step (State.dropLines_only _ _)
    | with_reducible apply State.onlyIn.step (State.unqueueFill_only _ _)
    | with_reducible apply State.onlyIn.step (State.queueFill_only _ _ _ _)
    | with_reducible apply State.onlyIn.step (State.setOwn_only _ _ _))

theorem State.setSset_only (s : State) (k : Nat) (x : SSet) :
    State.onlyIn [.sec] s (State.setSset s k x) := by
  unfold State.setSset
  repeat' (first
    | intro _
    | ((with_reducible apply Comp.sub_ok); exact rfl)
    | with_reducible apply State.onlyIn.refl
    | with_reducible assumption
    | (simp only [State.onlyIn.sec (l := [.sec]) rfl])
    | with_reducible apply State.onlyIn.foldl
    | dsimp only
    | split
    | (refine ⟨fun c hc => ?_⟩; cases c <;> first | rfl | exact absurd (by decide) hc))

theorem State.retireSet_only (s : State) (k : Nat) :
    State.onlyIn [.regs, .fab, .hank, .tiles, .sites, .sec, .fid] s (State.retireSet s k) := by
  unfold State.retireSet
  repeat' (first
    | intro _
    | ((with_reducible apply Comp.sub_ok); exact rfl)
    | with_reducible apply State.onlyIn.refl
    | with_reducible assumption
    | with_reducible apply State.onlyIn.foldl
    | dsimp only
    | split
    | with_reducible apply State.onlyIn.step (State.setSset_only _ _ _)
    | with_reducible apply State.onlyIn.step (State.freeGrans_only _ _ _)
    | with_reducible apply State.onlyIn.step (State.unloadKey_only _ _))

theorem State.clearShares_only (s : State) (p : Nat) :
    State.onlyIn [.regs, .hank, .fid] s (State.clearShares s p) := by
  unfold State.clearShares
  repeat' (first
    | intro _
    | ((with_reducible apply Comp.sub_ok); exact rfl)
    | with_reducible apply State.onlyIn.refl
    | with_reducible assumption
    | with_reducible apply State.onlyIn.foldl
    | dsimp only
    | split
    | with_reducible apply State.onlyIn.step (State.setOwn_only _ _ _))

theorem State.setSvcPart_only (s : State) (p : Nat) (allow : Nat) (dflt : Nat) (apert : Nat) :
    State.onlyIn [.regs] s (State.setSvcPart s p allow dflt apert) := by
  unfold State.setSvcPart
  repeat' (first
    | intro _
    | ((with_reducible apply Comp.sub_ok); exact rfl)
    | with_reducible apply State.onlyIn.refl
    | with_reducible assumption
    | with_reducible apply State.onlyIn.foldl
    | dsimp only
    | split
    | with_reducible apply State.onlyIn.step (State.fset_only _ _ _ _ _))

theorem State.create_only (s : State) (c : Create) :
    State.onlyIn [.regs, .hank, .sec, .fid] s (State.create s c) := by
  unfold State.create
  repeat' (first
    | intro _
    | ((with_reducible apply Comp.sub_ok); exact rfl)
    | with_reducible apply State.onlyIn.refl
    | with_reducible assumption
    | with_reducible apply State.onlyIn.foldl
    | dsimp only
    | split
    | with_reducible apply State.onlyIn.step (State.setSvcPart_only _ _ _ _ _)
    | with_reducible apply State.onlyIn.step (State.loadKey_only _ _)
    | with_reducible apply State.onlyIn.step (State.disarm_only _)
    | with_reducible apply State.onlyIn.step (State.setPart_only _ _ _)
    | with_reducible apply State.onlyIn.step (State.fadd_only _ _ _ _ _)
    | with_reducible apply State.onlyIn.step (State.fset_only _ _ _ _ _))

theorem execPartCreate_only {id : Nat} {s : State} {t1 : State} (h1 : execPartCreate id s = .next t1) :
    State.onlyIn [.regs, .hank, .cmds, .sec, .fid] s t1 := by
  unfold execPartCreate at h1
  repeat' (first | with_reducible apply atUnit_only h1 | with_reducible apply whenever_only h1 | with_reducible apply next_only h1 | (dsimp only at h1) | split at h1 | (simp only [reduceCtorEq] at h1; done))
  all_goals
    repeat' (first
      | intro _
      | ((with_reducible apply Comp.sub_ok); exact rfl)
      | with_reducible apply State.onlyIn.refl
      | with_reducible assumption
      | with_reducible apply State.onlyIn.foldl
      | dsimp only
      | split
      | with_reducible apply State.onlyIn.step (State.create_only _ _)
      | with_reducible apply State.cmdBody_onlyStep
      | with_reducible apply State.onlyIn.step (State.finish_only _ _ _ _))

theorem State.grantRow_only {l : List Comp} {s : State} {id : Nat} {isOp : Nat → Bool} {k : Run → Nat → State → State} (hl : Comp.sub [.cmds, .sec] l = true) (hk_k : ∀ y0 y1 y2, State.onlyIn l y2 (k y0 y1 y2)) :
    State.onlyIn l s (State.grantRow s id isOp k) := by
  unfold State.grantRow
  repeat' (first
    | intro _
    | ((with_reducible refine Comp.sub_trans ?_ hl); exact rfl)
    | ((with_reducible apply Comp.sub_ok); exact rfl)
    | with_reducible apply State.onlyIn.refl
    | with_reducible assumption
    | with_reducible apply State.onlyIn.foldl
    | dsimp only
    | split
    | with_reducible apply State.cmdBody_onlyStep
    | with_reducible apply State.onlyIn.step (State.tdiError_only _ _)
    | with_reducible apply State.onlyIn.step (State.finish_only _ _ _ _)
    | with_reducible refine .trans ?_ (hk_k _ _ _))

theorem State.grantRow_onlyStep {l : List Comp} {s0 : State} {s : State} {id : Nat} {isOp : Nat → Bool} {k : Run → Nat → State → State} (hl : Comp.sub [.cmds, .sec] l = true) (hk_k : ∀ y0 y1 y2, State.onlyIn l y2 (k y0 y1 y2)) (h0 : State.onlyIn l s0 s) :
    State.onlyIn l s0 (State.grantRow s id isOp k) := h0.trans (State.grantRow_only hl hk_k)

theorem State.badParam_only (s : State) (r : Run) :
    State.onlyIn [.cmds] s (State.badParam s r) := by
  unfold State.badParam
  repeat' (first
    | intro _
    | ((with_reducible apply Comp.sub_ok); exact rfl)
    | with_reducible apply State.onlyIn.refl
    | with_reducible assumption
    | with_reducible apply State.onlyIn.foldl
    | dsimp only
    | split
    | with_reducible apply State.onlyIn.step (State.finish_only _ _ _ _))

theorem State.grantRecs_only {l : List Comp} {s : State} {r : Run} {one : State → Nat → Option State} {i n : Nat}
    (hl : Comp.sub [.cmds] l = true) (ho : ∀ s v t, one s v = some t → State.onlyIn l s t) :
    State.onlyIn l s (State.grantRecs s r one i n) := by
  induction n generalizing s i with
  | zero => exact .refl
  | succ n ih =>
    rw [State.grantRecs]
    split
    · exact (State.finish_only _ _ _ _).mono hl
    · rename_i h; exact (ho _ _ _ h).trans ih

theorem State.grantRecs_onlyStep {l : List Comp} {s0 s : State} {r : Run} {one : State → Nat → Option State} {i n : Nat}
    (hl : Comp.sub [.cmds] l = true) (ho : ∀ s v t, one s v = some t → State.onlyIn l s t) (h0 : State.onlyIn l s0 s) :
    State.onlyIn l s0 (State.grantRecs s r one i n) := h0.trans (State.grantRecs_only hl ho)

theorem State.grantEnd_only (s : State) (id : Nat) :
    State.onlyIn [.cmds] s (State.grantEnd s id) := by
  unfold State.grantEnd
  repeat' (first
    | intro _
    | ((with_reducible apply Comp.sub_ok); exact rfl)
    | with_reducible apply State.onlyIn.refl
    | with_reducible assumption
    | with_reducible apply State.onlyIn.foldl
    | dsimp only
    | split
    | with_reducible apply State.onlyIn.step (State.finish_only _ _ _ _))

theorem State.grantGroup_only {p : Nat} {s : State} {v : Nat} {t1 : State} (h1 : State.grantGroup p s v = some t1) :
    State.onlyIn [.regs] s t1 := by
  unfold State.grantGroup at h1
  repeat' (first | (simp only [reduceCtorEq] at h1; done) | (dsimp only at h1) | split at h1)
  all_goals (first | (simp only [Option.some.injEq] at h1; subst h1) | (simp only [Option.some.injEq, Prod.mk.injEq] at h1; obtain ⟨_, hq⟩ := h1; subst hq) | skip)
  all_goals
    repeat' (first
    | intro _
    | ((with_reducible apply Comp.sub_ok); exact rfl)
    | with_reducible apply State.onlyIn.refl
    | with_reducible assumption
    | with_reducible apply State.onlyIn.foldl
    | dsimp only
    | split
    | with_reducible apply State.onlyIn.step (State.fset_only _ _ _ _ _))

theorem execPartGrantGroups_only {id : Nat} {s : State} {t1 : State} (h1 : execPartGrantGroups id s = .next t1) :
    State.onlyIn [.regs, .cmds, .sec] s t1 := by
  unfold execPartGrantGroups at h1
  repeat' (first | with_reducible apply atUnit_only h1 | with_reducible apply whenever_only h1 | with_reducible apply next_only h1 | (dsimp only at h1) | split at h1 | (simp only [reduceCtorEq] at h1; done))
  all_goals
    repeat' (first
      | (intro _ _ _ h; first | (with_reducible have hq := State.grantGroup_only h); exact hq.mono rfl | (with_reducible have hq := State.grantGran_only h); exact hq.mono rfl | (with_reducible have hq := State.grantBlock_only h); exact hq.mono rfl | (with_reducible have hq := State.grantShared_only h); exact hq.mono rfl | (with_reducible have hq := State.grantShare_only h); exact hq.mono rfl | (with_reducible have hq := State.releaseGran_only h); exact hq.mono rfl)
      | intro _
      | ((with_reducible apply Comp.sub_ok); exact rfl)
      | with_reducible apply State.onlyIn.refl
      | with_reducible assumption
      | with_reducible apply State.onlyIn.foldl
      | dsimp only
      | split
      | with_reducible apply State.onlyIn.step (State.grantGroup_only (by assumption))
      | with_reducible apply State.onlyIn.step (State.grantEnd_only _ _)
      | with_reducible apply State.grantRecs_onlyStep
      | (intro _ _ _ h; first | (with_reducible have hq := State.grantGroup_only h); exact hq.mono rfl | (with_reducible have hq := State.grantGran_only h); exact hq.mono rfl | (with_reducible have hq := State.grantBlock_only h); exact hq.mono rfl | (with_reducible have hq := State.grantShared_only h); exact hq.mono rfl | (with_reducible have hq := State.grantShare_only h); exact hq.mono rfl | (with_reducible have hq := State.releaseGran_only h); exact hq.mono rfl)
      | with_reducible apply State.grantRow_onlyStep
      | with_reducible apply State.onlyIn.step (State.finish_only _ _ _ _))

theorem State.grantGran_only {id : Nat} {p : Nat} {s : State} {v : Nat} {t1 : State} (h1 : State.grantGran id p s v = some t1) :
    State.onlyIn [.regs, .hank, .cmds, .sec, .fid] s t1 := by
  unfold State.grantGran at h1
  repeat' (first | (simp only [reduceCtorEq] at h1; done) | (dsimp only at h1) | split at h1)
  all_goals (first | (simp only [Option.some.injEq] at h1; subst h1) | (simp only [Option.some.injEq, Prod.mk.injEq] at h1; obtain ⟨_, hq⟩ := h1; subst hq) | skip)
  all_goals
    repeat' (first
    | intro _
    | ((with_reducible apply Comp.sub_ok); exact rfl)
    | with_reducible apply State.onlyIn.refl
    | with_reducible assumption
    | with_reducible apply State.onlyIn.foldl
    | dsimp only
    | split
    | with_reducible apply State.onlyIn.step (State.grantGrans_only _ _ _ _ _))

theorem execPartGrantGranules_only {id : Nat} {s : State} {t1 : State} (h1 : execPartGrantGranules id s = .next t1) :
    State.onlyIn [.regs, .hank, .cmds, .sec, .fid] s t1 := by
  unfold execPartGrantGranules at h1
  repeat' (first | with_reducible apply atUnit_only h1 | with_reducible apply whenever_only h1 | with_reducible apply next_only h1 | (dsimp only at h1) | split at h1 | (simp only [reduceCtorEq] at h1; done))
  all_goals
    repeat' (first
      | (intro _ _ _ h; first | (with_reducible have hq := State.grantGroup_only h); exact hq.mono rfl | (with_reducible have hq := State.grantGran_only h); exact hq.mono rfl | (with_reducible have hq := State.grantBlock_only h); exact hq.mono rfl | (with_reducible have hq := State.grantShared_only h); exact hq.mono rfl | (with_reducible have hq := State.grantShare_only h); exact hq.mono rfl | (with_reducible have hq := State.releaseGran_only h); exact hq.mono rfl)
      | intro _
      | ((with_reducible apply Comp.sub_ok); exact rfl)
      | with_reducible apply State.onlyIn.refl
      | with_reducible assumption
      | with_reducible apply State.onlyIn.foldl
      | dsimp only
      | split
      | with_reducible apply State.onlyIn.step (State.grantGran_only (by assumption))
      | with_reducible apply State.onlyIn.step (State.grantEnd_only _ _)
      | with_reducible apply State.grantRecs_onlyStep
      | (intro _ _ _ h; first | (with_reducible have hq := State.grantGroup_only h); exact hq.mono rfl | (with_reducible have hq := State.grantGran_only h); exact hq.mono rfl | (with_reducible have hq := State.grantBlock_only h); exact hq.mono rfl | (with_reducible have hq := State.grantShared_only h); exact hq.mono rfl | (with_reducible have hq := State.grantShare_only h); exact hq.mono rfl | (with_reducible have hq := State.releaseGran_only h); exact hq.mono rfl)
      | with_reducible apply State.grantRow_onlyStep)

theorem State.zeroBlock_only (s : State) (b : Nat) :
    State.onlyIn [.cleats] s (State.zeroBlock s b) := by
  unfold State.zeroBlock
  repeat' (first
    | intro _
    | ((with_reducible apply Comp.sub_ok); exact rfl)
    | with_reducible apply State.onlyIn.refl
    | with_reducible assumption
    | (simp only [State.onlyIn.cleats (l := [.cleats]) rfl])
    | with_reducible apply State.onlyIn.foldl
    | dsimp only
    | split
    | (refine ⟨fun c hc => ?_⟩; cases c <;> first | rfl | exact absurd (by decide) hc))

theorem State.grantBlock_only {p : Nat} {s : State} {v : Nat} {t1 : State} (h1 : State.grantBlock p s v = some t1) :
    State.onlyIn [.cleats] s t1 := by
  unfold State.grantBlock at h1
  repeat' (first | (simp only [reduceCtorEq] at h1; done) | (dsimp only at h1) | split at h1)
  all_goals (first | (simp only [Option.some.injEq] at h1; subst h1) | (simp only [Option.some.injEq, Prod.mk.injEq] at h1; obtain ⟨_, hq⟩ := h1; subst hq) | skip)
  all_goals
    repeat' (first
    | intro _
    | ((with_reducible apply Comp.sub_ok); exact rfl)
    | with_reducible apply State.onlyIn.refl
    | with_reducible assumption
    | (simp only [State.onlyIn.cleats (l := [.cleats]) rfl])
    | with_reducible apply State.onlyIn.foldl
    | dsimp only
    | split
    | with_reducible apply State.onlyIn.step (State.zeroBlock_only _ _)
    | (refine ⟨fun c hc => ?_⟩; cases c <;> first | rfl | exact absurd (by decide) hc))

theorem execPartGrantCleats_only {id : Nat} {s : State} {t1 : State} (h1 : execPartGrantCleats id s = .next t1) :
    State.onlyIn [.cleats, .cmds, .sec] s t1 := by
  unfold execPartGrantCleats at h1
  repeat' (first | with_reducible apply atUnit_only h1 | with_reducible apply whenever_only h1 | with_reducible apply next_only h1 | (dsimp only at h1) | split at h1 | (simp only [reduceCtorEq] at h1; done))
  all_goals
    repeat' (first
      | (intro _ _ _ h; first | (with_reducible have hq := State.grantGroup_only h); exact hq.mono rfl | (with_reducible have hq := State.grantGran_only h); exact hq.mono rfl | (with_reducible have hq := State.grantBlock_only h); exact hq.mono rfl | (with_reducible have hq := State.grantShared_only h); exact hq.mono rfl | (with_reducible have hq := State.grantShare_only h); exact hq.mono rfl | (with_reducible have hq := State.releaseGran_only h); exact hq.mono rfl)
      | intro _
      | ((with_reducible apply Comp.sub_ok); exact rfl)
      | with_reducible apply State.onlyIn.refl
      | with_reducible assumption
      | with_reducible apply State.onlyIn.foldl
      | dsimp only
      | split
      | with_reducible apply State.onlyIn.step (State.grantBlock_only (by assumption))
      | with_reducible apply State.onlyIn.step (State.grantEnd_only _ _)
      | with_reducible apply State.grantRecs_onlyStep
      | (intro _ _ _ h; first | (with_reducible have hq := State.grantGroup_only h); exact hq.mono rfl | (with_reducible have hq := State.grantGran_only h); exact hq.mono rfl | (with_reducible have hq := State.grantBlock_only h); exact hq.mono rfl | (with_reducible have hq := State.grantShared_only h); exact hq.mono rfl | (with_reducible have hq := State.grantShare_only h); exact hq.mono rfl | (with_reducible have hq := State.releaseGran_only h); exact hq.mono rfl)
      | with_reducible apply State.grantRow_onlyStep)

theorem State.grantShared_only {id : Nat} {p : Nat} {k : Nat} {s : State} {v : Nat} {t1 : State} (h1 : State.grantShared id p k s v = some t1) :
    State.onlyIn [.regs, .hank, .cmds, .sec, .fid] s t1 := by
  unfold State.grantShared at h1
  repeat' (first | (simp only [reduceCtorEq] at h1; done) | (dsimp only at h1) | split at h1)
  all_goals (first | (simp only [Option.some.injEq] at h1; subst h1) | (simp only [Option.some.injEq, Prod.mk.injEq] at h1; obtain ⟨_, hq⟩ := h1; subst hq) | skip)
  all_goals
    repeat' (first
    | intro _
    | ((with_reducible apply Comp.sub_ok); exact rfl)
    | with_reducible apply State.onlyIn.refl
    | with_reducible assumption
    | with_reducible apply State.onlyIn.foldl
    | dsimp only
    | split
    | with_reducible apply State.onlyIn.step (State.setSset_only _ _ _)
    | with_reducible apply State.onlyIn.step (State.grantGrans_only _ _ _ _ _)
    | with_reducible apply State.onlyIn.step (State.loadKey_only _ _))

theorem execPartGrantSharedNew_only {id : Nat} {s : State} {t1 : State} (h1 : execPartGrantSharedNew id s = .next t1) :
    State.onlyIn [.regs, .hank, .cmds, .sec, .fid] s t1 := by
  unfold execPartGrantSharedNew at h1
  repeat' (first | with_reducible apply atUnit_only h1 | with_reducible apply whenever_only h1 | with_reducible apply next_only h1 | (dsimp only at h1) | split at h1 | (simp only [reduceCtorEq] at h1; done))
  all_goals
    repeat' (first
      | (intro _ _ _ h; first | (with_reducible have hq := State.grantGroup_only h); exact hq.mono rfl | (with_reducible have hq := State.grantGran_only h); exact hq.mono rfl | (with_reducible have hq := State.grantBlock_only h); exact hq.mono rfl | (with_reducible have hq := State.grantShared_only h); exact hq.mono rfl | (with_reducible have hq := State.grantShare_only h); exact hq.mono rfl | (with_reducible have hq := State.releaseGran_only h); exact hq.mono rfl)
      | intro _
      | ((with_reducible apply Comp.sub_ok); exact rfl)
      | with_reducible apply State.onlyIn.refl
      | with_reducible assumption
      | with_reducible apply State.onlyIn.foldl
      | dsimp only
      | split
      | with_reducible apply State.onlyIn.step (State.grantShared_only (by assumption))
      | with_reducible apply State.onlyIn.step (State.grantEnd_only _ _)
      | with_reducible apply State.grantRecs_onlyStep
      | (intro _ _ _ h; first | (with_reducible have hq := State.grantGroup_only h); exact hq.mono rfl | (with_reducible have hq := State.grantGran_only h); exact hq.mono rfl | (with_reducible have hq := State.grantBlock_only h); exact hq.mono rfl | (with_reducible have hq := State.grantShared_only h); exact hq.mono rfl | (with_reducible have hq := State.grantShare_only h); exact hq.mono rfl | (with_reducible have hq := State.releaseGran_only h); exact hq.mono rfl)
      | with_reducible apply State.onlyIn.step (State.badParam_only _ _)
      | with_reducible apply State.grantRow_onlyStep)

theorem State.grantShare_only {k : Nat} {s : State} {v : Nat} {t1 : State} (h1 : State.grantShare k s v = some t1) :
    State.onlyIn [.regs, .hank, .fid] s t1 := by
  unfold State.grantShare at h1
  repeat' (first | (simp only [reduceCtorEq] at h1; done) | (dsimp only at h1) | split at h1)
  all_goals (first | (simp only [Option.some.injEq] at h1; subst h1) | (simp only [Option.some.injEq, Prod.mk.injEq] at h1; obtain ⟨_, hq⟩ := h1; subst hq) | skip)
  all_goals
    repeat' (first
    | intro _
    | ((with_reducible apply Comp.sub_ok); exact rfl)
    | with_reducible apply State.onlyIn.refl
    | with_reducible assumption
    | with_reducible apply State.onlyIn.foldl
    | dsimp only
    | split
    | with_reducible apply State.onlyIn.step (State.setOwn_only _ _ _))

theorem execPartGrantShareAdd_only {id : Nat} {s : State} {t1 : State} (h1 : execPartGrantShareAdd id s = .next t1) :
    State.onlyIn [.regs, .hank, .cmds, .sec, .fid] s t1 := by
  unfold execPartGrantShareAdd at h1
  repeat' (first | with_reducible apply atUnit_only h1 | with_reducible apply whenever_only h1 | with_reducible apply next_only h1 | (dsimp only at h1) | split at h1 | (simp only [reduceCtorEq] at h1; done))
  all_goals
    repeat' (first
      | (intro _ _ _ h; first | (with_reducible have hq := State.grantGroup_only h); exact hq.mono rfl | (with_reducible have hq := State.grantGran_only h); exact hq.mono rfl | (with_reducible have hq := State.grantBlock_only h); exact hq.mono rfl | (with_reducible have hq := State.grantShared_only h); exact hq.mono rfl | (with_reducible have hq := State.grantShare_only h); exact hq.mono rfl | (with_reducible have hq := State.releaseGran_only h); exact hq.mono rfl)
      | intro _
      | ((with_reducible apply Comp.sub_ok); exact rfl)
      | with_reducible apply State.onlyIn.refl
      | with_reducible assumption
      | with_reducible apply State.onlyIn.foldl
      | dsimp only
      | split
      | with_reducible apply State.onlyIn.step (State.grantShare_only (by assumption))
      | with_reducible apply State.onlyIn.step (State.grantEnd_only _ _)
      | with_reducible apply State.grantRecs_onlyStep
      | (intro _ _ _ h; first | (with_reducible have hq := State.grantGroup_only h); exact hq.mono rfl | (with_reducible have hq := State.grantGran_only h); exact hq.mono rfl | (with_reducible have hq := State.grantBlock_only h); exact hq.mono rfl | (with_reducible have hq := State.grantShared_only h); exact hq.mono rfl | (with_reducible have hq := State.grantShare_only h); exact hq.mono rfl | (with_reducible have hq := State.releaseGran_only h); exact hq.mono rfl)
      | with_reducible apply State.onlyIn.step (State.badParam_only _ _)
      | with_reducible apply State.grantRow_onlyStep)

theorem State.mirrorRange_only {k : Nat} {s : State} {range : Nat × Nat} {first : Nat} {t1 : State} (h1 : State.mirrorRange k s range first = some t1) :
    State.onlyIn [.regs, .mem, .hank, .sec, .fid] s t1 := by
  unfold State.mirrorRange at h1
  repeat' (first | (simp only [reduceCtorEq] at h1; done) | (dsimp only at h1) | split at h1)
  all_goals (first | (simp only [Option.some.injEq] at h1; subst h1) | (simp only [Option.some.injEq, Prod.mk.injEq] at h1; obtain ⟨_, hq⟩ := h1; subst hq) | skip)
  all_goals
    repeat' (first
    | intro _
    | ((with_reducible apply Comp.sub_ok); exact rfl)
    | with_reducible apply State.onlyIn.refl
    | with_reducible assumption
    | with_reducible apply State.onlyIn.foldl
    | dsimp only
    | split
    | with_reducible apply State.onlyIn.step (State.leaveFill_only _ _)
    | with_reducible apply State.onlyIn.step (State.copyGranule_only _ _ _)
    | with_reducible apply State.onlyIn.step (State.setOwn_only _ _ _))

theorem State.mirrorRecs_only (s : State) (r : Run) (k : Nat) (i : Nat) (x4 : List (Nat × Nat)) :
    State.onlyIn [.regs, .mem, .hank, .cmds, .sec, .fid] s (State.mirrorRecs s r k i x4) := by
  induction x4 generalizing s r k i with
  | nil =>
    rw [State.mirrorRecs]
    repeat' (first
      | intro _
      | ((with_reducible apply Comp.sub_ok); exact rfl)
      | with_reducible apply State.onlyIn.refl
      | with_reducible assumption
      | with_reducible apply State.onlyIn.foldl
      | dsimp only
      | split
      | with_reducible apply State.onlyIn.step (State.mirrorRange_only (by assumption))
      | with_reducible apply State.onlyIn.step (State.setSset_only _ _ _)
      | with_reducible apply State.onlyIn.step (State.finish_only _ _ _ _)
      | with_reducible refine .trans ?_ (ih _ _ _ _))
  | cons a r ih =>
    rw [State.mirrorRecs]
    repeat' (first
      | intro _
      | ((with_reducible apply Comp.sub_ok); exact rfl)
      | with_reducible apply State.onlyIn.refl
      | with_reducible assumption
      | with_reducible apply State.onlyIn.foldl
      | dsimp only
      | split
      | with_reducible apply State.onlyIn.step (State.mirrorRange_only (by assumption))
      | with_reducible apply State.onlyIn.step (State.setSset_only _ _ _)
      | with_reducible apply State.onlyIn.step (State.finish_only _ _ _ _)
      | with_reducible refine .trans ?_ (ih _ _ _ _))

theorem State.sealSet_only (s : State) (k : Nat) :
    State.onlyIn [.regs, .hank, .sec, .fid] s (State.sealSet s k) := by
  unfold State.sealSet
  repeat' (first
    | intro _
    | ((with_reducible apply Comp.sub_ok); exact rfl)
    | with_reducible apply State.onlyIn.refl
    | with_reducible assumption
    | with_reducible apply State.onlyIn.foldl
    | dsimp only
    | split
    | with_reducible apply State.onlyIn.step (State.setSset_only _ _ _)
    | with_reducible apply State.onlyIn.step (State.setOwn_only _ _ _))

theorem execPartGrantSeal_only {id : Nat} {s : State} {t1 : State} (h1 : execPartGrantSeal id s = .next t1) :
    State.onlyIn [.regs, .mem, .hank, .cmds, .sec, .fid] s t1 := by
  unfold execPartGrantSeal at h1
  repeat' (first | with_reducible apply atUnit_only h1 | with_reducible apply whenever_only h1 | with_reducible apply next_only h1 | (dsimp only at h1) | split at h1 | (simp only [reduceCtorEq] at h1; done))
  all_goals
    repeat' (first
      | intro _
      | ((with_reducible apply Comp.sub_ok); exact rfl)
      | with_reducible apply State.onlyIn.refl
      | with_reducible assumption
      | with_reducible apply State.onlyIn.foldl
      | dsimp only
      | split
      | with_reducible apply State.onlyIn.step (State.sealSet_only _ _)
      | with_reducible apply State.onlyIn.step (State.mirrorRecs_only _ _ _ _ _)
      | with_reducible apply State.onlyIn.step (State.grantEnd_only _ _)
      | with_reducible apply State.onlyIn.step (State.badParam_only _ _)
      | with_reducible apply State.grantRow_onlyStep
      | with_reducible apply State.onlyIn.step (State.finish_only _ _ _ _))

theorem State.releaseGran_only {id : Nat} {p : Nat} {s : State} {v : Nat} {t1 : State} (h1 : State.releaseGran id p s v = some t1) :
    State.onlyIn [.fab, .hank, .tiles, .sites, .cmds] s t1 := by
  unfold State.releaseGran at h1
  repeat' (first | (simp only [reduceCtorEq] at h1; done) | (dsimp only at h1) | split at h1)
  all_goals (first | (simp only [Option.some.injEq] at h1; subst h1) | (simp only [Option.some.injEq, Prod.mk.injEq] at h1; obtain ⟨_, hq⟩ := h1; subst hq) | skip)
  all_goals
    repeat' (first
    | intro _
    | ((with_reducible apply Comp.sub_ok); exact rfl)
    | with_reducible apply State.onlyIn.refl
    | with_reducible assumption
    | with_reducible apply State.onlyIn.foldl
    | dsimp only
    | split
    | with_reducible apply State.onlyIn.step (State.await_only _ _ _)
    | with_reducible apply State.onlyIn.step (State.dropLines_only _ _)
    | with_reducible apply State.onlyIn.step (State.queueFill_only _ _ _ _))

theorem execPartGrantRelease_only {id : Nat} {s : State} {t1 : State} (h1 : execPartGrantRelease id s = .next t1) :
    State.onlyIn [.fab, .hank, .tiles, .sites, .cmds, .sec] s t1 := by
  unfold execPartGrantRelease at h1
  repeat' (first | with_reducible apply atUnit_only h1 | with_reducible apply whenever_only h1 | with_reducible apply next_only h1 | (dsimp only at h1) | split at h1 | (simp only [reduceCtorEq] at h1; done))
  all_goals
    repeat' (first
      | (intro _ _ _ h; first | (with_reducible have hq := State.grantGroup_only h); exact hq.mono rfl | (with_reducible have hq := State.grantGran_only h); exact hq.mono rfl | (with_reducible have hq := State.grantBlock_only h); exact hq.mono rfl | (with_reducible have hq := State.grantShared_only h); exact hq.mono rfl | (with_reducible have hq := State.grantShare_only h); exact hq.mono rfl | (with_reducible have hq := State.releaseGran_only h); exact hq.mono rfl)
      | intro _
      | ((with_reducible apply Comp.sub_ok); exact rfl)
      | with_reducible apply State.onlyIn.refl
      | with_reducible assumption
      | with_reducible apply State.onlyIn.foldl
      | dsimp only
      | split
      | with_reducible apply State.onlyIn.step (State.releaseGran_only (by assumption))
      | with_reducible apply State.onlyIn.step (State.grantEnd_only _ _)
      | with_reducible apply State.grantRecs_onlyStep
      | (intro _ _ _ h; first | (with_reducible have hq := State.grantGroup_only h); exact hq.mono rfl | (with_reducible have hq := State.grantGran_only h); exact hq.mono rfl | (with_reducible have hq := State.grantBlock_only h); exact hq.mono rfl | (with_reducible have hq := State.grantShared_only h); exact hq.mono rfl | (with_reducible have hq := State.grantShare_only h); exact hq.mono rfl | (with_reducible have hq := State.releaseGran_only h); exact hq.mono rfl)
      | with_reducible apply State.grantRow_onlyStep)

theorem execPartGrantSharedRetire_only {id : Nat} {s : State} {t1 : State} (h1 : execPartGrantSharedRetire id s = .next t1) :
    State.onlyIn [.regs, .fab, .hank, .tiles, .sites, .cmds, .sec, .fid] s t1 := by
  unfold execPartGrantSharedRetire at h1
  repeat' (first | with_reducible apply atUnit_only h1 | with_reducible apply whenever_only h1 | with_reducible apply next_only h1 | (dsimp only at h1) | split at h1 | (simp only [reduceCtorEq] at h1; done))
  all_goals
    repeat' (first
      | intro _
      | ((with_reducible apply Comp.sub_ok); exact rfl)
      | with_reducible apply State.onlyIn.refl
      | with_reducible assumption
      | with_reducible apply State.onlyIn.foldl
      | dsimp only
      | split
      | with_reducible apply State.onlyIn.step (State.badParam_only _ _)
      | with_reducible apply State.grantRow_onlyStep
      | with_reducible apply State.onlyIn.step (State.retireSet_only _ _)
      | with_reducible apply State.onlyIn.step (State.finish_only _ _ _ _))

theorem State.freeFaults_only (s : State) (p : Nat) (win : Nat) :
    State.onlyIn [.regs, .sites, .xlt, .ports, .out] s (State.freeFaults s p win) := by
  unfold State.freeFaults
  repeat' (first
    | intro _
    | ((with_reducible apply Comp.sub_ok); exact rfl)
    | with_reducible apply State.onlyIn.refl
    | with_reducible assumption
    | (simp only [State.onlyIn.regs (l := [.regs, .sites, .xlt, .ports, .out]) rfl, State.onlyIn.sites (l := [.regs, .sites, .xlt, .ports, .out]) rfl, State.onlyIn.xlt (l := [.regs, .sites, .xlt, .ports, .out]) rfl, State.onlyIn.ports (l := [.regs, .sites, .xlt, .ports, .out]) rfl, State.onlyIn.out (l := [.regs, .sites, .xlt, .ports, .out]) rfl])
    | with_reducible apply State.onlyIn.foldl
    | dsimp only
    | split
    | with_reducible apply State.onlyIn.step (State.xlateRsp_only _ _ _ _ _)
    | with_reducible apply State.onlyIn.step (State.dropRecord_only _ _ _ _)
    | (refine ⟨fun c hc => ?_⟩; cases c <;> first | rfl | exact absurd (by decide) hc))

theorem State.dropHeldAt_only (s : State) (w : Win) :
    State.onlyIn [.freeCtr, .regs, .fab, .hank, .tiles, .cleats, .sites, .lan, .cmds, .xlt, .pwr, .ports, .boot, .fid, .unread, .out] s (State.dropHeldAt s w) := by
  unfold State.dropHeldAt
  repeat' (first
    | intro _
    | ((with_reducible apply Comp.sub_ok); exact rfl)
    | with_reducible apply State.onlyIn.refl
    | with_reducible assumption
    | with_reducible apply State.onlyIn.foldl
    | dsimp only
    | split
    | with_reducible apply State.onlyIn.step (State.retryPort_only _ _)
    | with_reducible apply State.onlyIn.step (State.apRefuse_only _ _ _)
    | with_reducible apply State.onlyIn.step (State.setHeldAt_only _ _ _))

theorem State.dropHandles_only (s : State) (p : Nat) :
    State.onlyIn [.lan] s (State.dropHandles s p) := by
  unfold State.dropHandles
  repeat' (first
    | intro _
    | ((with_reducible apply Comp.sub_ok); exact rfl)
    | with_reducible apply State.onlyIn.refl
    | with_reducible assumption
    | with_reducible apply State.onlyIn.foldl
    | dsimp only
    | split
    | with_reducible apply State.onlyIn.step (State.setHandle_only _ _ _))

theorem State.dropMute_only (s : State) (w : Win) :
    State.onlyIn [.freeCtr, .regs, .fab, .hank, .tiles, .cleats, .sites, .lan, .cmds, .xlt, .pwr, .ports, .boot, .fid, .unread, .out] s (State.dropMute s w) := by
  unfold State.dropMute
  repeat' (first
    | intro _
    | ((with_reducible apply Comp.sub_ok); exact rfl)
    | with_reducible apply State.onlyIn.refl
    | with_reducible assumption
    | (simp only [State.onlyIn.freeCtr (l := [.freeCtr, .regs, .fab, .hank, .tiles, .cleats, .sites, .lan, .cmds, .xlt, .pwr, .ports, .boot, .fid, .unread, .out]) rfl, State.onlyIn.regs (l := [.freeCtr, .regs, .fab, .hank, .tiles, .cleats, .sites, .lan, .cmds, .xlt, .pwr, .ports, .boot, .fid, .unread, .out]) rfl, State.onlyIn.fab (l := [.freeCtr, .regs, .fab, .hank, .tiles, .cleats, .sites, .lan, .cmds, .xlt, .pwr, .ports, .boot, .fid, .unread, .out]) rfl, State.onlyIn.tiles (l := [.freeCtr, .regs, .fab, .hank, .tiles, .cleats, .sites, .lan, .cmds, .xlt, .pwr, .ports, .boot, .fid, .unread, .out]) rfl, State.onlyIn.cleats (l := [.freeCtr, .regs, .fab, .hank, .tiles, .cleats, .sites, .lan, .cmds, .xlt, .pwr, .ports, .boot, .fid, .unread, .out]) rfl, State.onlyIn.sites (l := [.freeCtr, .regs, .fab, .hank, .tiles, .cleats, .sites, .lan, .cmds, .xlt, .pwr, .ports, .boot, .fid, .unread, .out]) rfl, State.onlyIn.lan (l := [.freeCtr, .regs, .fab, .hank, .tiles, .cleats, .sites, .lan, .cmds, .xlt, .pwr, .ports, .boot, .fid, .unread, .out]) rfl, State.onlyIn.cmds (l := [.freeCtr, .regs, .fab, .hank, .tiles, .cleats, .sites, .lan, .cmds, .xlt, .pwr, .ports, .boot, .fid, .unread, .out]) rfl, State.onlyIn.xlt (l := [.freeCtr, .regs, .fab, .hank, .tiles, .cleats, .sites, .lan, .cmds, .xlt, .pwr, .ports, .boot, .fid, .unread, .out]) rfl, State.onlyIn.pwr (l := [.freeCtr, .regs, .fab, .hank, .tiles, .cleats, .sites, .lan, .cmds, .xlt, .pwr, .ports, .boot, .fid, .unread, .out]) rfl, State.onlyIn.ports (l := [.freeCtr, .regs, .fab, .hank, .tiles, .cleats, .sites, .lan, .cmds, .xlt, .pwr, .ports, .boot, .fid, .unread, .out]) rfl, State.onlyIn.boot (l := [.freeCtr, .regs, .fab, .hank, .tiles, .cleats, .sites, .lan, .cmds, .xlt, .pwr, .ports, .boot, .fid, .unread, .out]) rfl, State.onlyIn.fid (l := [.freeCtr, .regs, .fab, .hank, .tiles, .cleats, .sites, .lan, .cmds, .xlt, .pwr, .ports, .boot, .fid, .unread, .out]) rfl, State.onlyIn.unread (l := [.freeCtr, .regs, .fab, .hank, .tiles, .cleats, .sites, .lan, .cmds, .xlt, .pwr, .ports, .boot, .fid, .unread, .out]) rfl, State.onlyIn.out (l := [.freeCtr, .regs, .fab, .hank, .tiles, .cleats, .sites, .lan, .cmds, .xlt, .pwr, .ports, .boot, .fid, .unread, .out]) rfl])
    | with_reducible apply State.onlyIn.foldl
    | dsimp only
    | split
    | with_reducible apply State.onlyIn.step (State.laneResets_only _ _)
    | with_reducible apply State.onlyIn.step (State.returnLeave_only _ _)
    | with_reducible refine .hankRest ?_ (by rfl) ?_
    | (refine ⟨fun c hc => ?_⟩; cases c <;> first | rfl | exact absurd (by decide) hc))

theorem State.dropGrants_only (s : State) (p : Nat) :
    State.onlyIn [.hank, .cmds] s (State.dropGrants s p) := by
  unfold State.dropGrants
  repeat' (first
    | intro _
    | ((with_reducible apply Comp.sub_ok); exact rfl)
    | with_reducible apply State.onlyIn.refl
    | with_reducible assumption
    | (simp only [State.onlyIn.cmds (l := [.hank, .cmds]) rfl])
    | with_reducible apply State.onlyIn.foldl
    | dsimp only
    | split
    | with_reducible apply State.onlyIn.step (State.setRun_only _ _)
    | with_reducible refine .hankRest ?_ (by rfl) ?_
    | (refine ⟨fun c hc => ?_⟩; cases c <;> first | rfl | exact absurd (by decide) hc))

theorem State.silence_only (s : State) (p : Nat) (w : Win) (mute : Bool) (cause : Nat) :
    State.onlyIn [.freeCtr, .regs, .fab, .hank, .tiles, .cleats, .sites, .lan, .cmds, .xlt, .pwr, .ports, .boot, .fid, .unread, .out] s (State.silence s p w mute cause) := by
  unfold State.silence
  repeat' (first
    | intro _
    | ((with_reducible apply Comp.sub_ok); exact rfl)
    | with_reducible apply State.onlyIn.refl
    | with_reducible assumption
    | with_reducible apply State.onlyIn.foldl
    | dsimp only
    | split
    | with_reducible apply State.onlyIn.step (State.dropGrants_only _ _)
    | with_reducible apply State.onlyIn.step (State.dropMute_only _ _)
    | with_reducible apply State.onlyIn.step (State.dropHandles_only _ _)
    | with_reducible apply State.onlyIn.step (State.dropHeldAt_only _ _)
    | with_reducible apply State.onlyIn.step (State.freeFaults_only _ _ _)
    | with_reducible apply State.onlyIn.step (State.flushLane_only _ _ _ _ _)
    | with_reducible apply State.onlyIn.step (State.flushEffect_only _ _ _ _)
    | with_reducible apply State.onlyIn.step (State.cutAccesses_only _ _ _)
    | with_reducible apply State.onlyIn.step (State.fset_only _ _ _ _ _))

theorem State.dropCaches_only (s : State) (a : Agent) :
    State.onlyIn [.xlt] s (State.dropCaches s a) := by
  unfold State.dropCaches
  repeat' (first
    | intro _
    | ((with_reducible apply Comp.sub_ok); exact rfl)
    | with_reducible apply State.onlyIn.refl
    | with_reducible assumption
    | (simp only [State.onlyIn.xlt (l := [.xlt]) rfl])
    | with_reducible apply State.onlyIn.foldl
    | dsimp only
    | split
    | (refine ⟨fun c hc => ?_⟩; cases c <;> first | rfl | exact absurd (by decide) hc))

theorem State.wipeTile_only (s : State) (t : Nat) :
    State.onlyIn [.freeCtr, .regs, .fab, .tiles, .cleats, .sites, .lan, .cmds, .xlt, .ports, .boot, .fid, .unread, .out] s (State.wipeTile s t) := by
  unfold State.wipeTile
  repeat' (first
    | intro _
    | ((with_reducible apply Comp.sub_ok); exact rfl)
    | with_reducible apply State.onlyIn.refl
    | with_reducible assumption
    | (simp only [State.onlyIn.freeCtr (l := [.freeCtr, .regs, .fab, .tiles, .cleats, .sites, .lan, .cmds, .xlt, .ports, .boot, .fid, .unread, .out]) rfl, State.onlyIn.regs (l := [.freeCtr, .regs, .fab, .tiles, .cleats, .sites, .lan, .cmds, .xlt, .ports, .boot, .fid, .unread, .out]) rfl, State.onlyIn.fab (l := [.freeCtr, .regs, .fab, .tiles, .cleats, .sites, .lan, .cmds, .xlt, .ports, .boot, .fid, .unread, .out]) rfl, State.onlyIn.tiles (l := [.freeCtr, .regs, .fab, .tiles, .cleats, .sites, .lan, .cmds, .xlt, .ports, .boot, .fid, .unread, .out]) rfl, State.onlyIn.cleats (l := [.freeCtr, .regs, .fab, .tiles, .cleats, .sites, .lan, .cmds, .xlt, .ports, .boot, .fid, .unread, .out]) rfl, State.onlyIn.sites (l := [.freeCtr, .regs, .fab, .tiles, .cleats, .sites, .lan, .cmds, .xlt, .ports, .boot, .fid, .unread, .out]) rfl, State.onlyIn.lan (l := [.freeCtr, .regs, .fab, .tiles, .cleats, .sites, .lan, .cmds, .xlt, .ports, .boot, .fid, .unread, .out]) rfl, State.onlyIn.cmds (l := [.freeCtr, .regs, .fab, .tiles, .cleats, .sites, .lan, .cmds, .xlt, .ports, .boot, .fid, .unread, .out]) rfl, State.onlyIn.xlt (l := [.freeCtr, .regs, .fab, .tiles, .cleats, .sites, .lan, .cmds, .xlt, .ports, .boot, .fid, .unread, .out]) rfl, State.onlyIn.ports (l := [.freeCtr, .regs, .fab, .tiles, .cleats, .sites, .lan, .cmds, .xlt, .ports, .boot, .fid, .unread, .out]) rfl, State.onlyIn.boot (l := [.freeCtr, .regs, .fab, .tiles, .cleats, .sites, .lan, .cmds, .xlt, .ports, .boot, .fid, .unread, .out]) rfl, State.onlyIn.fid (l := [.freeCtr, .regs, .fab, .tiles, .cleats, .sites, .lan, .cmds, .xlt, .ports, .boot, .fid, .unread, .out]) rfl, State.onlyIn.unread (l := [.freeCtr, .regs, .fab, .tiles, .cleats, .sites, .lan, .cmds, .xlt, .ports, .boot, .fid, .unread, .out]) rfl, State.onlyIn.out (l := [.freeCtr, .regs, .fab, .tiles, .cleats, .sites, .lan, .cmds, .xlt, .ports, .boot, .fid, .unread, .out]) rfl])
    | with_reducible apply State.onlyIn.foldl
    | dsimp only
    | split
    | with_reducible apply State.onlyIn.step (State.dropCaches_only _ _)
    | with_reducible apply State.onlyIn.step (State.checkTracker_only _ _)
    | with_reducible apply State.onlyIn.step (State.dropTileReqs_only _ _)
    | with_reducible apply State.onlyIn.step (State.setTracker_only _ _ _)
    | with_reducible apply State.onlyIn.step (State.pump_only _)
    | with_reducible apply State.onlyIn.step (State.setTile_only _ _ _)
    | with_reducible apply State.onlyIn.step (State.fresetAll_only _ _ _ _)
    | (refine ⟨fun c hc => ?_⟩; cases c <;> first | rfl | exact absurd (by decide) hc))

theorem State.wipeGroups_only (s : State) (gs : List Nat) :
    State.onlyIn [.freeCtr, .regs, .fab, .tiles, .cleats, .sites, .lan, .cmds, .xlt, .ports, .boot, .fid, .unread, .out] s (State.wipeGroups s gs) := by
  unfold State.wipeGroups
  repeat' (first
    | intro _
    | ((with_reducible apply Comp.sub_ok); exact rfl)
    | with_reducible apply State.onlyIn.refl
    | with_reducible assumption
    | with_reducible apply State.onlyIn.foldl
    | dsimp only
    | split
    | with_reducible apply State.onlyIn.step (State.wipeTile_only _ _))

theorem State.wipeCleats_only (s : State) (p : Nat) :
    State.onlyIn [.cleats, .sites, .out] s (State.wipeCleats s p) := by
  unfold State.wipeCleats
  repeat' (first
    | intro _
    | ((with_reducible apply Comp.sub_ok); exact rfl)
    | with_reducible apply State.onlyIn.refl
    | with_reducible assumption
    | (simp only [State.onlyIn.cleats (l := [.cleats, .sites, .out]) rfl, State.onlyIn.sites (l := [.cleats, .sites, .out]) rfl, State.onlyIn.out (l := [.cleats, .sites, .out]) rfl])
    | with_reducible apply State.onlyIn.foldl
    | dsimp only
    | split
    | with_reducible apply State.onlyIn.step (State.incDone_only _ _ _)
    | with_reducible apply State.onlyIn.step (State.siteRsp_only _ _ _ _ _ _ _ _)
    | (refine ⟨fun c hc => ?_⟩; cases c <;> first | rfl | exact absurd (by decide) hc))

theorem State.wipeDir_only (s : State) (p : Nat) :
    State.onlyIn [.cmds] s (State.wipeDir s p) := by
  unfold State.wipeDir
  repeat' (first
    | intro _
    | ((with_reducible apply Comp.sub_ok); exact rfl)
    | with_reducible apply State.onlyIn.refl
    | with_reducible assumption
    | (simp only [State.onlyIn.cmds (l := [.cmds]) rfl])
    | with_reducible apply State.onlyIn.foldl
    | dsimp only
    | split
    | (refine ⟨fun c hc => ?_⟩; cases c <;> first | rfl | exact absurd (by decide) hc))

theorem State.wipeSlots_only (s : State) (p : Nat) :
    State.onlyIn [.lan] s (State.wipeSlots s p) := by
  unfold State.wipeSlots
  repeat' (first
    | intro _
    | ((with_reducible apply Comp.sub_ok); exact rfl)
    | with_reducible apply State.onlyIn.refl
    | with_reducible assumption
    | (simp only [State.onlyIn.lan (l := [.lan]) rfl])
    | with_reducible apply State.onlyIn.foldl
    | dsimp only
    | split
    | (refine ⟨fun c hc => ?_⟩; cases c <;> first | rfl | exact absurd (by decide) hc))

theorem State.wipeCtxs_only (s : State) (p : Nat) :
    State.onlyIn [.xlt] s (State.wipeCtxs s p) := by
  unfold State.wipeCtxs
  repeat' (first
    | intro _
    | ((with_reducible apply Comp.sub_ok); exact rfl)
    | with_reducible apply State.onlyIn.refl
    | with_reducible assumption
    | (simp only [State.onlyIn.xlt (l := [.xlt]) rfl])
    | with_reducible apply State.onlyIn.foldl
    | dsimp only
    | split
    | (refine ⟨fun c hc => ?_⟩; cases c <;> first | rfl | exact absurd (by decide) hc))

theorem State.wipeTables_only (s : State) (p : Nat) :
    State.onlyIn [.lan, .cmds, .xlt] s (State.wipeTables s p) := by
  unfold State.wipeTables
  repeat' (first
    | intro _
    | ((with_reducible apply Comp.sub_ok); exact rfl)
    | with_reducible apply State.onlyIn.refl
    | with_reducible assumption
    | with_reducible apply State.onlyIn.foldl
    | dsimp only
    | split
    | with_reducible apply State.onlyIn.step (State.wipeCtxs_only _ _)
    | with_reducible apply State.onlyIn.step (State.wipeSlots_only _ _)
    | with_reducible apply State.onlyIn.step (State.wipeDir_only _ _))

theorem State.wipeFid_only (s : State) (p : Nat) :
    State.onlyIn [.regs, .fid] s (State.wipeFid s p) := by
  unfold State.wipeFid
  repeat' (first
    | intro _
    | ((with_reducible apply Comp.sub_ok); exact rfl)
    | with_reducible apply State.onlyIn.refl
    | with_reducible assumption
    | (simp only [State.onlyIn.regs (l := [.regs, .fid]) rfl, State.onlyIn.fid (l := [.regs, .fid]) rfl])
    | with_reducible apply State.onlyIn.foldl
    | dsimp only
    | split
    | with_reducible apply State.onlyIn.step (State.fresetAll_only _ _ _ _)
    | with_reducible apply State.onlyIn.step (State.fset_only _ _ _ _ _)
    | (refine ⟨fun c hc => ?_⟩; cases c <;> first | rfl | exact absurd (by decide) hc))

theorem State.retireKey_only (s : State) (p : Nat) :
    State.onlyIn [.regs, .fab, .hank, .tiles, .sites, .sec, .fid] s (State.retireKey s p) := by
  unfold State.retireKey
  repeat' (first
    | intro _
    | ((with_reducible apply Comp.sub_ok); exact rfl)
    | with_reducible apply State.onlyIn.refl
    | with_reducible assumption
    | with_reducible apply State.onlyIn.foldl
    | dsimp only
    | split
    | with_reducible apply State.onlyIn.step (State.retireSet_only _ _)
    | with_reducible apply State.onlyIn.step (State.freeGrans_only _ _ _)
    | with_reducible apply State.onlyIn.step (State.unloadKey_only _ _)
    | with_reducible apply State.onlyIn.step (State.setPart_only _ _ _))

theorem State.whipItems_only (s : State) (p : Nat) :
    State.onlyIn [.freeCtr, .regs, .fab, .hank, .tiles, .cleats, .sites, .lan, .cmds, .xlt, .sec, .ports, .boot, .fid, .unread, .out] s (State.whipItems s p) := by
  unfold State.whipItems
  repeat' (first
    | intro _
    | ((with_reducible apply Comp.sub_ok); exact rfl)
    | with_reducible apply State.onlyIn.refl
    | with_reducible assumption
    | (simp only [State.onlyIn.freeCtr (l := [.freeCtr, .regs, .fab, .hank, .tiles, .cleats, .sites, .lan, .cmds, .xlt, .sec, .ports, .boot, .fid, .unread, .out]) rfl, State.onlyIn.regs (l := [.freeCtr, .regs, .fab, .hank, .tiles, .cleats, .sites, .lan, .cmds, .xlt, .sec, .ports, .boot, .fid, .unread, .out]) rfl, State.onlyIn.fab (l := [.freeCtr, .regs, .fab, .hank, .tiles, .cleats, .sites, .lan, .cmds, .xlt, .sec, .ports, .boot, .fid, .unread, .out]) rfl, State.onlyIn.tiles (l := [.freeCtr, .regs, .fab, .hank, .tiles, .cleats, .sites, .lan, .cmds, .xlt, .sec, .ports, .boot, .fid, .unread, .out]) rfl, State.onlyIn.cleats (l := [.freeCtr, .regs, .fab, .hank, .tiles, .cleats, .sites, .lan, .cmds, .xlt, .sec, .ports, .boot, .fid, .unread, .out]) rfl, State.onlyIn.sites (l := [.freeCtr, .regs, .fab, .hank, .tiles, .cleats, .sites, .lan, .cmds, .xlt, .sec, .ports, .boot, .fid, .unread, .out]) rfl, State.onlyIn.lan (l := [.freeCtr, .regs, .fab, .hank, .tiles, .cleats, .sites, .lan, .cmds, .xlt, .sec, .ports, .boot, .fid, .unread, .out]) rfl, State.onlyIn.cmds (l := [.freeCtr, .regs, .fab, .hank, .tiles, .cleats, .sites, .lan, .cmds, .xlt, .sec, .ports, .boot, .fid, .unread, .out]) rfl, State.onlyIn.xlt (l := [.freeCtr, .regs, .fab, .hank, .tiles, .cleats, .sites, .lan, .cmds, .xlt, .sec, .ports, .boot, .fid, .unread, .out]) rfl, State.onlyIn.sec (l := [.freeCtr, .regs, .fab, .hank, .tiles, .cleats, .sites, .lan, .cmds, .xlt, .sec, .ports, .boot, .fid, .unread, .out]) rfl, State.onlyIn.ports (l := [.freeCtr, .regs, .fab, .hank, .tiles, .cleats, .sites, .lan, .cmds, .xlt, .sec, .ports, .boot, .fid, .unread, .out]) rfl, State.onlyIn.boot (l := [.freeCtr, .regs, .fab, .hank, .tiles, .cleats, .sites, .lan, .cmds, .xlt, .sec, .ports, .boot, .fid, .unread, .out]) rfl, State.onlyIn.fid (l := [.freeCtr, .regs, .fab, .hank, .tiles, .cleats, .sites, .lan, .cmds, .xlt, .sec, .ports, .boot, .fid, .unread, .out]) rfl, State.onlyIn.unread (l := [.freeCtr, .regs, .fab, .hank, .tiles, .cleats, .sites, .lan, .cmds, .xlt, .sec, .ports, .boot, .fid, .unread, .out]) rfl, State.onlyIn.out (l := [.freeCtr, .regs, .fab, .hank, .tiles, .cleats, .sites, .lan, .cmds, .xlt, .sec, .ports, .boot, .fid, .unread, .out]) rfl])
    | with_reducible apply State.onlyIn.foldl
    | dsimp only
    | split
    | with_reducible apply State.onlyIn.step (State.retireKey_only _ _)
    | with_reducible apply State.onlyIn.step (State.wipeFid_only _ _)
    | with_reducible apply State.onlyIn.step (State.wipeTables_only _ _)
    | with_reducible apply State.onlyIn.step (State.wipeCleats_only _ _)
    | with_reducible apply State.onlyIn.step (State.wipeGroups_only _ _)
    | with_reducible apply State.onlyIn.step (State.dropLines_only _ _)
    | with_reducible refine .hankRest ?_ (by rfl) ?_
    | (refine ⟨fun c hc => ?_⟩; cases c <;> first | rfl | exact absurd (by decide) hc))

theorem State.beginWhip_only (s : State) (p : Nat) (why : WhipFor) :
    State.onlyIn [.freeCtr, .regs, .fab, .hank, .tiles, .cleats, .sites, .lan, .cmds, .xlt, .pwr, .sec, .ports, .boot, .fid, .unread, .out] s (State.beginWhip s p why) := by
  unfold State.beginWhip
  repeat' (first
    | intro _
    | ((with_reducible apply Comp.sub_ok); exact rfl)
    | with_reducible apply State.onlyIn.refl
    | with_reducible assumption
    | with_reducible apply State.onlyIn.foldl
    | dsimp only
    | split
    | with_reducible apply State.onlyIn.step (State.whipItems_only _ _)
    | with_reducible apply State.onlyIn.step (State.unbindStart_only _ _ _)
    | with_reducible apply State.onlyIn.step (State.setPart_only _ _ _)
    | with_reducible apply State.onlyIn.step (State.fset_only _ _ _ _ _))

theorem State.alsoWhip_only (s : State) (p : Nat) (why : WhipFor) :
    State.onlyIn [.sec] s (State.alsoWhip s p why) := by
  unfold State.alsoWhip
  repeat' (first
    | intro _
    | ((with_reducible apply Comp.sub_ok); exact rfl)
    | with_reducible apply State.onlyIn.refl
    | with_reducible assumption
    | with_reducible apply State.onlyIn.foldl
    | dsimp only
    | split
    | with_reducible apply State.onlyIn.step (State.setPart_only _ _ _))

theorem State.dropIde_only (s : State) (w : Win) :
    State.onlyIn [.sec] s (State.dropIde s w) := by
  unfold State.dropIde
  repeat' (first
    | intro _
    | ((with_reducible apply Comp.sub_ok); exact rfl)
    | with_reducible apply State.onlyIn.refl
    | with_reducible assumption
    | (simp only [State.onlyIn.sec (l := [.sec]) rfl])
    | with_reducible apply State.onlyIn.foldl
    | dsimp only
    | split
    | (refine ⟨fun c hc => ?_⟩; cases c <;> first | rfl | exact absurd (by decide) hc))

theorem State.destroyPart_only (s : State) (p : Nat) (why : WhipFor) :
    State.onlyIn [.freeCtr, .regs, .fab, .hank, .tiles, .cleats, .sites, .lan, .cmds, .xlt, .pwr, .sec, .ports, .boot, .fid, .unread, .out] s (State.destroyPart s p why) := by
  unfold State.destroyPart
  repeat' (first
    | intro _
    | ((with_reducible apply Comp.sub_ok); exact rfl)
    | with_reducible apply State.onlyIn.refl
    | with_reducible assumption
    | with_reducible apply State.onlyIn.foldl
    | dsimp only
    | split
    | with_reducible apply State.onlyIn.step (State.dropIde_only _ _)
    | with_reducible apply State.onlyIn.step (State.alsoWhip_only _ _ _)
    | with_reducible apply State.onlyIn.step (State.beginWhip_only _ _ _)
    | with_reducible apply State.onlyIn.step (State.silence_only _ _ _ _ _)
    | with_reducible apply State.onlyIn.step (State.clearShares_only _ _)
    | with_reducible apply State.onlyIn.step (State.tdiError_only _ _))

theorem execPartDestroy_only {id : Nat} {s : State} {t1 : State} (h1 : execPartDestroy id s = .next t1) :
    State.onlyIn [.freeCtr, .regs, .fab, .hank, .tiles, .cleats, .sites, .lan, .cmds, .xlt, .pwr, .sec, .ports, .boot, .fid, .unread, .out] s t1 := by
  unfold execPartDestroy at h1
  repeat' (first | with_reducible apply atUnit_only h1 | with_reducible apply whenever_only h1 | with_reducible apply next_only h1 | (dsimp only at h1) | split at h1 | (simp only [reduceCtorEq] at h1; done))
  all_goals
    repeat' (first
      | intro _
      | ((with_reducible apply Comp.sub_ok); exact rfl)
      | with_reducible apply State.onlyIn.refl
      | with_reducible assumption
      | with_reducible apply State.onlyIn.foldl
      | dsimp only
      | split
      | with_reducible apply State.onlyIn.step (State.destroyPart_only _ _ _)
      | with_reducible apply State.cmdBody_onlyStep
      | with_reducible apply State.onlyIn.step (State.finish_only _ _ _ _))

theorem State.freePart_only (s : State) (p : Nat) :
    State.onlyIn [.freeCtr, .regs, .fab, .hank, .cleats, .sites, .cmds, .pwr, .sec, .ports, .fid, .out] s (State.freePart s p) := by
  unfold State.freePart
  repeat' (first
    | intro _
    | ((with_reducible apply Comp.sub_ok); exact rfl)
    | with_reducible apply State.onlyIn.refl
    | with_reducible assumption
    | (simp only [State.onlyIn.freeCtr (l := [.freeCtr, .regs, .fab, .hank, .cleats, .sites, .cmds, .pwr, .sec, .ports, .fid, .out]) rfl, State.onlyIn.regs (l := [.freeCtr, .regs, .fab, .hank, .cleats, .sites, .cmds, .pwr, .sec, .ports, .fid, .out]) rfl, State.onlyIn.fab (l := [.freeCtr, .regs, .fab, .hank, .cleats, .sites, .cmds, .pwr, .sec, .ports, .fid, .out]) rfl, State.onlyIn.cleats (l := [.freeCtr, .regs, .fab, .hank, .cleats, .sites, .cmds, .pwr, .sec, .ports, .fid, .out]) rfl, State.onlyIn.sites (l := [.freeCtr, .regs, .fab, .hank, .cleats, .sites, .cmds, .pwr, .sec, .ports, .fid, .out]) rfl, State.onlyIn.cmds (l := [.freeCtr, .regs, .fab, .hank, .cleats, .sites, .cmds, .pwr, .sec, .ports, .fid, .out]) rfl, State.onlyIn.pwr (l := [.freeCtr, .regs, .fab, .hank, .cleats, .sites, .cmds, .pwr, .sec, .ports, .fid, .out]) rfl, State.onlyIn.sec (l := [.freeCtr, .regs, .fab, .hank, .cleats, .sites, .cmds, .pwr, .sec, .ports, .fid, .out]) rfl, State.onlyIn.ports (l := [.freeCtr, .regs, .fab, .hank, .cleats, .sites, .cmds, .pwr, .sec, .ports, .fid, .out]) rfl, State.onlyIn.fid (l := [.freeCtr, .regs, .fab, .hank, .cleats, .sites, .cmds, .pwr, .sec, .ports, .fid, .out]) rfl, State.onlyIn.out (l := [.freeCtr, .regs, .fab, .hank, .cleats, .sites, .cmds, .pwr, .sec, .ports, .fid, .out]) rfl])
    | with_reducible apply State.onlyIn.foldl
    | dsimp only
    | split
    | with_reducible apply State.onlyIn.step (State.setSvcPart_only _ _ _ _ _)
    | with_reducible apply State.onlyIn.step (State.decideQueue_only _ _)
    | with_reducible apply State.onlyIn.step (State.updGates_only _)
    | with_reducible apply State.onlyIn.step (State.disarm_only _)
    | with_reducible apply State.onlyIn.step (State.setPart_only _ _ _)
    | with_reducible apply State.onlyIn.step (State.fset_only _ _ _ _ _)
    | with_reducible refine .hankRest ?_ (by rfl) ?_
    | (refine ⟨fun c hc => ?_⟩; cases c <;> first | rfl | exact absurd (by decide) hc))

theorem State.renewPart_only (s : State) (p : Nat) (w : Win) :
    State.onlyIn [.freeCtr, .regs, .fab, .hank, .tiles, .cleats, .sites, .lan, .cmds, .xlt, .pwr, .ports, .boot, .fid, .unread, .out] s (State.renewPart s p w) := by
  unfold State.renewPart
  repeat' (first
    | intro _
    | ((with_reducible apply Comp.sub_ok); exact rfl)
    | with_reducible apply State.onlyIn.refl
    | with_reducible assumption
    | with_reducible apply State.onlyIn.foldl
    | dsimp only
    | split
    | with_reducible apply State.onlyIn.step (State.loadKey_only _ _)
    | with_reducible apply State.onlyIn.step (State.orderReset_only _ _ _)
    | with_reducible apply State.onlyIn.step (State.fresetAll_only _ _ _ _))

theorem State.whipRecord_only (s : State) (p : Nat) (us : Nat) (alarm : Bool) :
    State.onlyIn [.regs, .sec] s (State.whipRecord s p us alarm) := by
  unfold State.whipRecord
  repeat' (first
    | intro _
    | ((with_reducible apply Comp.sub_ok); exact rfl)
    | with_reducible apply State.onlyIn.refl
    | with_reducible assumption
    | with_reducible apply State.onlyIn.foldl
    | dsimp only
    | split
    | with_reducible apply State.onlyIn.step (State.setPart_only _ _ _)
    | with_reducible apply State.onlyIn.step (State.fset_only _ _ _ _ _))

theorem State.destroyDone_only (s : State) (p : Nat) (why : Option WhipFor) :
    State.onlyIn [.cmds] s (State.destroyDone s p why) := by
  unfold State.destroyDone
  repeat' (first
    | intro _
    | ((with_reducible apply Comp.sub_ok); exact rfl)
    | with_reducible apply State.onlyIn.refl
    | with_reducible assumption
    | with_reducible apply State.onlyIn.foldl
    | dsimp only
    | split
    | with_reducible apply State.onlyIn.step (State.setRun_only _ _))

theorem State.flrDone_only (s : State) (w : Win) :
    State.onlyIn [.regs, .ports, .out] s (State.flrDone s w) := by
  unfold State.flrDone
  repeat' (first
    | intro _
    | ((with_reducible apply Comp.sub_ok); exact rfl)
    | with_reducible apply State.onlyIn.refl
    | with_reducible assumption
    | with_reducible apply State.onlyIn.foldl
    | dsimp only
    | split
    | with_reducible apply State.onlyIn.step (State.pfDone_only _ _)
    | with_reducible apply State.onlyIn.step (State.evPci_only _ _)
    | with_reducible apply State.onlyIn.step (State.fsetBit_only _ _ _ _ _ _))

theorem State.whipDone_only (s : State) (p : Nat) (us : Nat) :
    State.onlyIn [.freeCtr, .regs, .fab, .hank, .tiles, .cleats, .sites, .lan, .cmds, .xlt, .pwr, .sec, .ports, .boot, .fid, .unread, .out] s (State.whipDone s p us) := by
  unfold State.whipDone
  repeat' (first
    | intro _
    | ((with_reducible apply Comp.sub_ok); exact rfl)
    | with_reducible apply State.onlyIn.refl
    | with_reducible assumption
    | with_reducible apply State.onlyIn.foldl
    | dsimp only
    | split
    | with_reducible apply State.onlyIn.step (State.flrDone_only _ _)
    | with_reducible apply State.onlyIn.step (State.destroyDone_only _ _ _)
    | with_reducible apply State.onlyIn.step (State.whipRecord_only _ _ _ _)
    | with_reducible apply State.onlyIn.step (State.renewPart_only _ _ _)
    | with_reducible apply State.onlyIn.step (State.freePart_only _ _)
    | with_reducible apply State.onlyIn.step (State.freeFaults_only _ _ _))

theorem execWhippingComplete_only {p : Fin 8} {us : BitVec 16} {s : State} {t1 : State} (h1 : execWhippingComplete p us s = .next t1) :
    State.onlyIn [.freeCtr, .regs, .fab, .hank, .tiles, .cleats, .sites, .lan, .cmds, .xlt, .pwr, .sec, .ports, .boot, .fid, .unread, .out] s t1 := by
  unfold execWhippingComplete at h1
  repeat' (first | with_reducible apply atUnit_only h1 | with_reducible apply whenever_only h1 | with_reducible apply next_only h1 | (dsimp only at h1) | split at h1 | (simp only [reduceCtorEq] at h1; done))
  all_goals
    repeat' (first
      | intro _
      | ((with_reducible apply Comp.sub_ok); exact rfl)
      | with_reducible apply State.onlyIn.refl
      | with_reducible assumption
      | with_reducible apply State.onlyIn.foldl
      | dsimp only
      | split
      | with_reducible apply State.onlyIn.step (State.whipDone_only _ _ _))

theorem State.setTable_only (s : State) (r : Run) (t : Option Dpa) :
    State.onlyIn [.sites, .cmds, .xlt, .out] s (State.setTable s r t) := by
  unfold State.setTable
  repeat' (first
    | intro _
    | ((with_reducible apply Comp.sub_ok); exact rfl)
    | with_reducible apply State.onlyIn.refl
    | with_reducible assumption
    | (simp only [State.onlyIn.sites (l := [.sites, .cmds, .xlt, .out]) rfl, State.onlyIn.cmds (l := [.sites, .cmds, .xlt, .out]) rfl, State.onlyIn.xlt (l := [.sites, .cmds, .xlt, .out]) rfl, State.onlyIn.out (l := [.sites, .cmds, .xlt, .out]) rfl])
    | with_reducible apply State.onlyIn.foldl
    | dsimp only
    | split
    | with_reducible apply State.onlyIn.step (State.doInval_only _ _)
    | (refine ⟨fun c hc => ?_⟩; cases c <;> first | rfl | exact absurd (by decide) hc))

theorem State.doCtxSet_only (s : State) (r : Run) :
    State.onlyIn [.sites, .cmds, .xlt, .out] s (State.doCtxSet s r) := by
  unfold State.doCtxSet
  repeat' (first
    | intro _
    | ((with_reducible apply Comp.sub_ok); exact rfl)
    | with_reducible apply State.onlyIn.refl
    | with_reducible assumption
    | with_reducible apply State.onlyIn.foldl
    | dsimp only
    | split
    | with_reducible apply State.onlyIn.step (State.setTable_only _ _ _)
    | with_reducible apply State.onlyIn.step (State.finish_only _ _ _ _))

theorem execCtxSet_only {id : Nat} {s : State} {t1 : State} (h1 : execCtxSet id s = .next t1) :
    State.onlyIn [.sites, .cmds, .xlt, .out] s t1 := by
  unfold execCtxSet at h1
  repeat' (first | with_reducible apply atUnit_only h1 | with_reducible apply whenever_only h1 | with_reducible apply next_only h1 | (dsimp only at h1) | split at h1 | (simp only [reduceCtorEq] at h1; done))
  all_goals
    repeat' (first
      | intro _
      | ((with_reducible apply Comp.sub_ok); exact rfl)
      | with_reducible apply State.onlyIn.refl
      | with_reducible assumption
      | with_reducible apply State.onlyIn.foldl
      | dsimp only
      | split
      | with_reducible apply State.onlyIn.step (State.doCtxSet_only _ _)
      | with_reducible apply State.cmdBody_onlyStep)

theorem execCtxClear_only {id : Nat} {s : State} {t1 : State} (h1 : execCtxClear id s = .next t1) :
    State.onlyIn [.sites, .cmds, .xlt, .out] s t1 := by
  unfold execCtxClear at h1
  repeat' (first | with_reducible apply atUnit_only h1 | with_reducible apply whenever_only h1 | with_reducible apply next_only h1 | (dsimp only at h1) | split at h1 | (simp only [reduceCtorEq] at h1; done))
  all_goals
    repeat' (first
      | intro _
      | ((with_reducible apply Comp.sub_ok); exact rfl)
      | with_reducible apply State.onlyIn.refl
      | with_reducible assumption
      | with_reducible apply State.onlyIn.foldl
      | dsimp only
      | split
      | with_reducible apply State.onlyIn.step (State.setTable_only _ _ _)
      | with_reducible apply State.cmdBody_onlyStep
      | with_reducible apply State.onlyIn.step (State.finish_only _ _ _ _))

theorem State.bind_only (s : State) (r : Run) :
    State.onlyIn [.regs, .sec, .fid, .out] s (State.bind s r) := by
  unfold State.bind
  repeat' (first
    | intro _
    | ((with_reducible apply Comp.sub_ok); exact rfl)
    | with_reducible apply State.onlyIn.refl
    | with_reducible assumption
    | with_reducible apply State.onlyIn.foldl
    | dsimp only
    | split
    | with_reducible apply State.onlyIn.step (State.sideMsg_only _ _ _)
    | with_reducible apply State.onlyIn.step (State.tdiError_only _ _)
    | with_reducible apply State.onlyIn.step (State.setSlot_only _ _ _ _ _)
    | with_reducible apply State.onlyIn.step (State.setSiteState_only _ _ _)
    | with_reducible apply State.onlyIn.step (State.disarm_only _)
    | with_reducible apply State.onlyIn.step (State.fset_only _ _ _ _ _))

theorem execSiteBind_only {id : Nat} {s : State} {t1 : State} (h1 : execSiteBind id s = .next t1) :
    State.onlyIn [.regs, .cmds, .sec, .fid, .out] s t1 := by
  unfold execSiteBind at h1
  repeat' (first | with_reducible apply atUnit_only h1 | with_reducible apply whenever_only h1 | with_reducible apply next_only h1 | (dsimp only at h1) | split at h1 | (simp only [reduceCtorEq] at h1; done))
  all_goals
    repeat' (first
      | intro _
      | ((with_reducible apply Comp.sub_ok); exact rfl)
      | with_reducible apply State.onlyIn.refl
      | with_reducible assumption
      | with_reducible apply State.onlyIn.foldl
      | dsimp only
      | split
      | with_reducible apply State.onlyIn.step (State.bind_only _ _)
      | with_reducible apply State.cmdBody_onlyStep
      | with_reducible apply State.onlyIn.step (State.finish_only _ _ _ _))

theorem execSiteUnbind_only {id : Nat} {s : State} {t1 : State} (h1 : execSiteUnbind id s = .next t1) :
    State.onlyIn [.freeCtr, .regs, .fab, .hank, .cleats, .sites, .cmds, .pwr, .sec, .ports, .fid, .out] s t1 := by
  unfold execSiteUnbind at h1
  repeat' (first | with_reducible apply atUnit_only h1 | with_reducible apply whenever_only h1 | with_reducible apply next_only h1 | (dsimp only at h1) | split at h1 | (simp only [reduceCtorEq] at h1; done))
  all_goals
    repeat' (first
      | intro _
      | ((with_reducible apply Comp.sub_ok); exact rfl)
      | with_reducible apply State.onlyIn.refl
      | with_reducible assumption
      | with_reducible apply State.onlyIn.foldl
      | dsimp only
      | split
      | with_reducible apply State.cmdBody_onlyStep
      | with_reducible apply State.onlyIn.step (State.unbindStart_only _ _ _)
      | with_reducible apply State.onlyIn.step (State.tdiError_only _ _)
      | with_reducible apply State.onlyIn.step (State.finish_only _ _ _ _))

end Sys2Proof.Machine
end

