-- ==== Sys2Proof/Laws/OnlyAlarm.lean ====
section
/-! SUPPORT. What each operation of Machine/Alarm.lean can change: the parts of the state outside the list are as before. -/

set_option linter.all false

namespace Sys2Proof.Machine

theorem State.destroyAll_only (s : State) :
    State.onlyIn [.freeCtr, .regs, .fab, .hank, .tiles, .cleats, .sites, .lan, .cmds, .xlt, .pwr, .sec, .ports, .boot, .fid, .unread, .out] s (State.destroyAll s) := by
  unfold State.destroyAll
  repeat' (first
    | intro _
    | ((with_reducible apply Comp.sub_ok); exact rfl)
    | with_reducible apply State.onlyIn.refl
    | with_reducible assumption
    | with_reducible apply State.onlyIn.foldl
    | dsimp only
    | split
    | with_reducible apply State.onlyIn.step (State.destroyPart_only _ _ _)
    | with_reducible apply State.onlyIn.step (State.retireSet_only _ _))

theorem State.endSession_only (s : State) :
    State.onlyIn [.cmds, .sec] s (State.endSession s) := by
  unfold State.endSession
  repeat' (first
    | intro _
    | ((with_reducible apply Comp.sub_ok); exact rfl)
    | with_reducible apply State.onlyIn.refl
    | with_reducible assumption
    | (simp only [State.onlyIn.cmds (l := [.cmds, .sec]) rfl, State.onlyIn.sec (l := [.cmds, .sec]) rfl])
    | with_reducible apply State.onlyIn.foldl
    | dsimp only
    | split
    | (refine ⟨fun c hc => ?_⟩; cases c <;> first | rfl | exact absurd (by decide) hc))

theorem State.alarmTwo_only (s : State) :
    State.onlyIn [.freeCtr, .regs, .fab, .hank, .tiles, .cleats, .sites, .lan, .cmds, .xlt, .pwr, .sec, .ports, .boot, .fid, .unread, .out] s (State.alarmTwo s) := by
  unfold State.alarmTwo
  repeat' (first
    | intro _
    | ((with_reducible apply Comp.sub_ok); exact rfl)
    | with_reducible apply State.onlyIn.refl
    | with_reducible assumption
    | (simp only [State.onlyIn.freeCtr (l := [.freeCtr, .regs, .fab, .hank, .tiles, .cleats, .sites, .lan, .cmds, .xlt, .pwr, .sec, .ports, .boot, .fid, .unread, .out]) rfl, State.onlyIn.regs (l := [.freeCtr, .regs, .fab, .hank, .tiles, .cleats, .sites, .lan, .cmds, .xlt, .pwr, .sec, .ports, .boot, .fid, .unread, .out]) rfl, State.onlyIn.fab (l := [.freeCtr, .regs, .fab, .hank, .tiles, .cleats, .sites, .lan, .cmds, .xlt, .pwr, .sec, .ports, .boot, .fid, .unread, .out]) rfl, State.onlyIn.tiles (l := [.freeCtr, .regs, .fab, .hank, .tiles, .cleats, .sites, .lan, .cmds, .xlt, .pwr, .sec, .ports, .boot, .fid, .unread, .out]) rfl, State.onlyIn.cleats (l := [.freeCtr, .regs, .fab, .hank, .tiles, .cleats, .sites, .lan, .cmds, .xlt, .pwr, .sec, .ports, .boot, .fid, .unread, .out]) rfl, State.onlyIn.sites (l := [.freeCtr, .regs, .fab, .hank, .tiles, .cleats, .sites, .lan, .cmds, .xlt, .pwr, .sec, .ports, .boot, .fid, .unread, .out]) rfl, State.onlyIn.lan (l := [.freeCtr, .regs, .fab, .hank, .tiles, .cleats, .sites, .lan, .cmds, .xlt, .pwr, .sec, .ports, .boot, .fid, .unread, .out]) rfl, State.onlyIn.cmds (l := [.freeCtr, .regs, .fab, .hank, .tiles, .cleats, .sites, .lan, .cmds, .xlt, .pwr, .sec, .ports, .boot, .fid, .unread, .out]) rfl, State.onlyIn.xlt (l := [.freeCtr, .regs, .fab, .hank, .tiles, .cleats, .sites, .lan, .cmds, .xlt, .pwr, .sec, .ports, .boot, .fid, .unread, .out]) rfl, State.onlyIn.pwr (l := [.freeCtr, .regs, .fab, .hank, .tiles, .cleats, .sites, .lan, .cmds, .xlt, .pwr, .sec, .ports, .boot, .fid, .unread, .out]) rfl, State.onlyIn.sec (l := [.freeCtr, .regs, .fab, .hank, .tiles, .cleats, .sites, .lan, .cmds, .xlt, .pwr, .sec, .ports, .boot, .fid, .unread, .out]) rfl, State.onlyIn.ports (l := [.freeCtr, .regs, .fab, .hank, .tiles, .cleats, .sites, .lan, .cmds, .xlt, .pwr, .sec, .ports, .boot, .fid, .unread, .out]) rfl, State.onlyIn.boot (l := [.freeCtr, .regs, .fab, .hank, .tiles, .cleats, .sites, .lan, .cmds, .xlt, .pwr, .sec, .ports, .boot, .fid, .unread, .out]) rfl, State.onlyIn.fid (l := [.freeCtr, .regs, .fab, .hank, .tiles, .cleats, .sites, .lan, .cmds, .xlt, .pwr, .sec, .ports, .boot, .fid, .unread, .out]) rfl, State.onlyIn.unread (l := [.freeCtr, .regs, .fab, .hank, .tiles, .cleats, .sites, .lan, .cmds, .xlt, .pwr, .sec, .ports, .boot, .fid, .unread, .out]) rfl, State.onlyIn.out (l := [.freeCtr, .regs, .fab, .hank, .tiles, .cleats, .sites, .lan, .cmds, .xlt, .pwr, .sec, .ports, .boot, .fid, .unread, .out]) rfl])
    | with_reducible apply State.onlyIn.foldl
    | dsimp only
    | split
    | with_reducible apply State.onlyIn.step (State.endSession_only _)
    | with_reducible apply State.onlyIn.step (State.destroyAll_only _)
    | with_reducible apply State.onlyIn.step (State.reattest_only _ _)
    | with_reducible apply State.onlyIn.step (State.routesGo_only _)
    | with_reducible refine .hankRest ?_ (by rfl) ?_
    | (refine ⟨fun c hc => ?_⟩; cases c <;> first | rfl | exact absurd (by decide) hc))

theorem State.darkLink_only (s : State) (l : Nat) :
    State.onlyIn [.freeCtr, .regs, .fab, .tiles, .cleats, .sites, .lan, .cmds, .xlt, .ports, .boot, .fid, .unread, .out] s (State.darkLink s l) := by
  unfold State.darkLink
  repeat' (first
    | intro _
    | ((with_reducible apply Comp.sub_ok); exact rfl)
    | with_reducible apply State.onlyIn.refl
    | with_reducible assumption
    | with_reducible apply State.onlyIn.foldl
    | dsimp only
    | split
    | with_reducible apply State.onlyIn.step (State.laserOff_only _ _)
    | with_reducible apply State.onlyIn.step (State.leaveState_only _ _ _ _))

theorem State.darkFace_only (s : State) (k : Nat) :
    State.onlyIn [.freeCtr, .regs, .fab, .hank, .cleats, .sites, .lan, .cmds, .xlt, .pwr, .sec, .ports, .fid, .unread, .out] s (State.darkFace s k) := by
  unfold State.darkFace
  repeat' (first
    | intro _
    | ((with_reducible apply Comp.sub_ok); exact rfl)
    | with_reducible apply State.onlyIn.refl
    | with_reducible assumption
    | with_reducible apply State.onlyIn.foldl
    | dsimp only
    | split
    | with_reducible apply State.onlyIn.step (State.sever_only _ _ _)
    | with_reducible apply State.onlyIn.step (State.modSite_only _ _ _))

theorem State.haltCores_only (s : State) :
    State.onlyIn [.sec, .boot] s (State.haltCores s) := by
  unfold State.haltCores
  repeat' (first
    | intro _
    | ((with_reducible apply Comp.sub_ok); exact rfl)
    | with_reducible apply State.onlyIn.refl
    | with_reducible assumption
    | (simp only [State.onlyIn.sec (l := [.sec, .boot]) rfl, State.onlyIn.boot (l := [.sec, .boot]) rfl])
    | with_reducible apply State.onlyIn.foldl
    | dsimp only
    | split
    | (refine ⟨fun c hc => ?_⟩; cases c <;> first | rfl | exact absurd (by decide) hc))

theorem State.alarmThree_only (s : State) :
    State.onlyIn [.freeCtr, .regs, .fab, .hank, .tiles, .cleats, .sites, .lan, .cmds, .xlt, .pwr, .sec, .ports, .boot, .fid, .unread, .out] s (State.alarmThree s) := by
  unfold State.alarmThree
  repeat' (first
    | intro _
    | ((with_reducible apply Comp.sub_ok); exact rfl)
    | with_reducible apply State.onlyIn.refl
    | with_reducible assumption
    | with_reducible apply State.onlyIn.foldl
    | dsimp only
    | split
    | with_reducible apply State.onlyIn.step (State.haltCores_only _)
    | with_reducible apply State.onlyIn.step (State.darkFace_only _ _)
    | with_reducible apply State.onlyIn.step (State.darkLink_only _ _)
    | with_reducible apply State.onlyIn.step (State.unloadKey_only _ _))

theorem State.beginBurn_only (s : State) (target : Nat) :
    State.onlyIn [.regs, .sec] s (State.beginBurn s target) := by
  unfold State.beginBurn
  repeat' (first
    | intro _
    | ((with_reducible apply Comp.sub_ok); exact rfl)
    | with_reducible apply State.onlyIn.refl
    | with_reducible assumption
    | (simp only [State.onlyIn.regs (l := [.regs, .sec]) rfl, State.onlyIn.sec (l := [.regs, .sec]) rfl])
    | with_reducible apply State.onlyIn.foldl
    | dsimp only
    | split
    | with_reducible apply State.onlyIn.step (State.fset_only _ _ _ _ _)
    | (refine ⟨fun c hc => ?_⟩; cases c <;> first | rfl | exact absurd (by decide) hc))

theorem State.alarm_only (s : State) (row : Nat) (level : Nat) :
    State.onlyIn [.freeCtr, .regs, .fab, .hank, .tiles, .cleats, .sites, .lan, .cmds, .xlt, .pwr, .sec, .ports, .boot, .fid, .unread, .out] s (State.alarm s row level) := by
  unfold State.alarm
  repeat' (first
    | intro _
    | ((with_reducible apply Comp.sub_ok); exact rfl)
    | with_reducible apply State.onlyIn.refl
    | with_reducible assumption
    | (simp only [State.onlyIn.freeCtr (l := [.freeCtr, .regs, .fab, .hank, .tiles, .cleats, .sites, .lan, .cmds, .xlt, .pwr, .sec, .ports, .boot, .fid, .unread, .out]) rfl, State.onlyIn.regs (l := [.freeCtr, .regs, .fab, .hank, .tiles, .cleats, .sites, .lan, .cmds, .xlt, .pwr, .sec, .ports, .boot, .fid, .unread, .out]) rfl, State.onlyIn.fab (l := [.freeCtr, .regs, .fab, .hank, .tiles, .cleats, .sites, .lan, .cmds, .xlt, .pwr, .sec, .ports, .boot, .fid, .unread, .out]) rfl, State.onlyIn.tiles (l := [.freeCtr, .regs, .fab, .hank, .tiles, .cleats, .sites, .lan, .cmds, .xlt, .pwr, .sec, .ports, .boot, .fid, .unread, .out]) rfl, State.onlyIn.cleats (l := [.freeCtr, .regs, .fab, .hank, .tiles, .cleats, .sites, .lan, .cmds, .xlt, .pwr, .sec, .ports, .boot, .fid, .unread, .out]) rfl, State.onlyIn.sites (l := [.freeCtr, .regs, .fab, .hank, .tiles, .cleats, .sites, .lan, .cmds, .xlt, .pwr, .sec, .ports, .boot, .fid, .unread, .out]) rfl, State.onlyIn.lan (l := [.freeCtr, .regs, .fab, .hank, .tiles, .cleats, .sites, .lan, .cmds, .xlt, .pwr, .sec, .ports, .boot, .fid, .unread, .out]) rfl, State.onlyIn.cmds (l := [.freeCtr, .regs, .fab, .hank, .tiles, .cleats, .sites, .lan, .cmds, .xlt, .pwr, .sec, .ports, .boot, .fid, .unread, .out]) rfl, State.onlyIn.xlt (l := [.freeCtr, .regs, .fab, .hank, .tiles, .cleats, .sites, .lan, .cmds, .xlt, .pwr, .sec, .ports, .boot, .fid, .unread, .out]) rfl, State.onlyIn.pwr (l := [.freeCtr, .regs, .fab, .hank, .tiles, .cleats, .sites, .lan, .cmds, .xlt, .pwr, .sec, .ports, .boot, .fid, .unread, .out]) rfl, State.onlyIn.sec (l := [.freeCtr, .regs, .fab, .hank, .tiles, .cleats, .sites, .lan, .cmds, .xlt, .pwr, .sec, .ports, .boot, .fid, .unread, .out]) rfl, State.onlyIn.ports (l := [.freeCtr, .regs, .fab, .hank, .tiles, .cleats, .sites, .lan, .cmds, .xlt, .pwr, .sec, .ports, .boot, .fid, .unread, .out]) rfl, State.onlyIn.boot (l := [.freeCtr, .regs, .fab, .hank, .tiles, .cleats, .sites, .lan, .cmds, .xlt, .pwr, .sec, .ports, .boot, .fid, .unread, .out]) rfl, State.onlyIn.fid (l := [.freeCtr, .regs, .fab, .hank, .tiles, .cleats, .sites, .lan, .cmds, .xlt, .pwr, .sec, .ports, .boot, .fid, .unread, .out]) rfl, State.onlyIn.unread (l := [.freeCtr, .regs, .fab, .hank, .tiles, .cleats, .sites, .lan, .cmds, .xlt, .pwr, .sec, .ports, .boot, .fid, .unread, .out]) rfl, State.onlyIn.out (l := [.freeCtr, .regs, .fab, .hank, .tiles, .cleats, .sites, .lan, .cmds, .xlt, .pwr, .sec, .ports, .boot, .fid, .unread, .out]) rfl])
    | with_reducible apply State.onlyIn.foldl
    | dsimp only
    | split
    | with_reducible apply State.onlyIn.step (State.beginBurn_only _ _)
    | with_reducible apply State.onlyIn.step (State.alarmThree_only _)
    | with_reducible apply State.onlyIn.step (State.alarmTwo_only _)
    | with_reducible apply State.onlyIn.step (State.fsetBit_only _ _ _ _ _ _)
    | with_reducible apply State.onlyIn.step (State.fset_only _ _ _ _ _)
    | with_reducible refine .hankRest ?_ (by rfl) ?_
    | (refine ⟨fun c hc => ?_⟩; cases c <;> first | rfl | exact absurd (by decide) hc))

end Sys2Proof.Machine
end

