-- ==== Sys2Proof/Laws/OnlyComplete.lean ====
section
/-! SUPPORT. What each operation of Machine/Complete.lean can change: the parts of the state outside the list are as before. -/

set_option linter.all false

namespace Sys2Proof.Machine

theorem State.loadDone_only (s : State) (t : Nat) (idx : Nat) (seq : Nat) (dst : Nat) (off : Nat) (len : Nat) (dva : Nat) (p : Pkt) (d : BitVec 256) :
    State.onlyIn [.freeCtr, .regs, .fab, .tiles, .cleats, .sites, .lan, .cmds, .xlt, .ports, .boot, .fid, .unread, .out] s (State.loadDone s t idx seq dst off len dva p d) := by
  unfold State.loadDone
  repeat' (first
    | intro _
    | ((with_reducible apply Comp.sub_ok); exact rfl)
    | with_reducible apply State.onlyIn.refl
    | with_reducible assumption
    | with_reducible apply State.onlyIn.foldl
    | dsimp only
    | split
    | with_reducible apply State.onlyIn.step (State.tileGo_only _ _)
    | with_reducible apply State.onlyIn.step (State.tileFault_only _ _ _ _ _)
    | with_reducible apply State.onlyIn.step (State.setTile_only _ _ _))

theorem State.storeDone_only (s : State) (t : Nat) (idx : Nat) (dva : Nat) (p : Pkt) :
    State.onlyIn [.freeCtr, .regs, .fab, .tiles, .cleats, .sites, .lan, .cmds, .xlt, .ports, .boot, .fid, .unread, .out] s (State.storeDone s t idx dva p) := by
  unfold State.storeDone
  repeat' (first
    | intro _
    | ((with_reducible apply Comp.sub_ok); exact rfl)
    | with_reducible apply State.onlyIn.refl
    | with_reducible assumption
    | with_reducible apply State.onlyIn.foldl
    | dsimp only
    | split
    | with_reducible apply State.onlyIn.step (State.tileGo_only _ _)
    | with_reducible apply State.onlyIn.step (State.lateFault_only _ _ _ _ _)
    | with_reducible apply State.onlyIn.step (State.tileFault_only _ _ _ _ _))

theorem State.fetchDone_only (s : State) (t : Nat) (p : Pkt) :
    State.onlyIn [.freeCtr, .regs, .fab, .tiles, .cleats, .sites, .lan, .cmds, .xlt, .ports, .boot, .fid, .unread, .out] s (State.fetchDone s t p) := by
  unfold State.fetchDone
  repeat' (first
    | intro _
    | ((with_reducible apply Comp.sub_ok); exact rfl)
    | with_reducible apply State.onlyIn.refl
    | with_reducible assumption
    | with_reducible apply State.onlyIn.foldl
    | dsimp only
    | split
    | with_reducible apply State.onlyIn.step (State.tileGo_only _ _)
    | with_reducible apply State.onlyIn.step (State.tileFault_only _ _ _ _ _)
    | with_reducible apply State.onlyIn.step (State.setTile_only _ _ _))

theorem State.siteDone_only (s : State) (k : Nat) (tag : BitVec 12) (slot : Nat) (t : Tx) (p : Pkt) :
    State.onlyIn [.sites, .out] s (State.siteDone s k tag slot t p) := by
  unfold State.siteDone
  repeat' (first
    | intro _
    | ((with_reducible apply Comp.sub_ok); exact rfl)
    | with_reducible apply State.onlyIn.refl
    | with_reducible assumption
    | with_reducible apply State.onlyIn.foldl
    | dsimp only
    | split
    | with_reducible apply State.onlyIn.step (State.setSiteLine_only _ _ _ _)
    | with_reducible apply State.onlyIn.step (State.siteRspAt_only _ _ _ _ _ _ _ _ _))

theorem State.reportWritten_only (s : State) (id : Nat) (status : BitVec 3) :
    State.onlyIn [.cmds] s (State.reportWritten s id status) := by
  unfold State.reportWritten
  repeat' (first
    | intro _
    | ((with_reducible apply Comp.sub_ok); exact rfl)
    | with_reducible apply State.onlyIn.refl
    | with_reducible assumption
    | with_reducible apply State.onlyIn.foldl
    | dsimp only
    | split
    | with_reducible apply State.onlyIn.step (State.setRun_only _ _))

theorem State.respond_only (s : State) (t : Tx) (p : Pkt) :
    State.onlyIn [.freeCtr, .regs, .fab, .hank, .tiles, .cleats, .sites, .lan, .cmds, .xlt, .pwr, .ports, .boot, .fid, .unread, .out] s (State.respond s t p) := by
  unfold State.respond
  repeat' (first
    | intro _
    | ((with_reducible apply Comp.sub_ok); exact rfl)
    | with_reducible apply State.onlyIn.refl
    | with_reducible assumption
    | with_reducible apply State.onlyIn.foldl
    | dsimp only
    | split
    | with_reducible apply State.onlyIn.step (State.reportWritten_only _ _ _)
    | with_reducible apply State.onlyIn.step (State.siteDone_only _ _ _ _ _ _)
    | with_reducible apply State.onlyIn.step (State.fetchDone_only _ _ _)
    | with_reducible apply State.onlyIn.step (State.storeDone_only _ _ _ _ _)
    | with_reducible apply State.onlyIn.step (State.loadDone_only _ _ _ _ _ _ _ _ _ _)
    | with_reducible apply State.onlyIn.step (State.replyDone_only _ _ _)
    | with_reducible apply State.onlyIn.step (State.moveWritten_only _ _ _)
    | with_reducible apply State.onlyIn.step (State.moveRefused_only _ _ _)
    | with_reducible apply State.onlyIn.step (State.copyRead_only _ _ _ _ _ _)
    | with_reducible apply State.onlyIn.step (State.apSector_only _ _ _ _ _ _)
    | with_reducible apply State.onlyIn.step (State.readsGo_only _)
    | with_reducible apply State.onlyIn.step (State.postGo_only _ _)
    | with_reducible apply State.onlyIn.step (State.getRead_only _ _ _ _ _ _)
    | with_reducible apply State.onlyIn.step (State.fragWritten_only _ _ _ _)
    | with_reducible apply State.onlyIn.step (State.sourceRead_only _ _ _ _ _ _)
    | with_reducible apply State.onlyIn.step (State.sampleDrop_only _ _)
    | with_reducible apply State.onlyIn.step (State.traceDrop_only _ _)
    | with_reducible apply State.onlyIn.step (State.fset_only _ _ _ _ _))

theorem State.dropGrant_only (s : State) (n : Nat) (a : Agent) :
    State.onlyIn [.freeCtr, .regs, .fab, .ports, .unread, .out] s (State.dropGrant s n a) := by
  unfold State.dropGrant
  repeat' (first
    | intro _
    | ((with_reducible apply Comp.sub_ok); exact rfl)
    | with_reducible apply State.onlyIn.refl
    | with_reducible assumption
    | with_reducible apply State.onlyIn.foldl
    | dsimp only
    | split
    | with_reducible apply State.onlyIn.step (State.unbusy_only _ _)
    | with_reducible apply State.onlyIn.step (State.setLine_only _ _ _))

theorem State.ackGrant_only (s : State) (t : Tx) (p : Pkt) :
    State.onlyIn [.freeCtr, .regs, .fab, .ports, .unread, .out] s (State.ackGrant s t p) := by
  unfold State.ackGrant
  repeat' (first
    | intro _
    | ((with_reducible apply Comp.sub_ok); exact rfl)
    | with_reducible apply State.onlyIn.refl
    | with_reducible assumption
    | with_reducible apply State.onlyIn.foldl
    | dsimp only
    | split
    | with_reducible apply State.onlyIn.step (State.dropGrant_only _ _ _)
    | with_reducible apply State.onlyIn.step (State.proxyAck_only _ _)
    | with_reducible apply State.onlyIn.step (State.sendPkt_only _ _)
    | with_reducible apply State.onlyIn.step (State.setPline_only _ _ _))

theorem State.afterResponse_only (s : State) :
    State.onlyIn [.freeCtr, .regs, .fab, .tiles, .cleats, .sites, .lan, .cmds, .xlt, .ports, .boot, .fid, .unread, .out] s (State.afterResponse s) := by
  unfold State.afterResponse
  repeat' (first
    | intro _
    | ((with_reducible apply Comp.sub_ok); exact rfl)
    | with_reducible apply State.onlyIn.refl
    | with_reducible assumption
    | with_reducible apply State.onlyIn.foldl
    | dsimp only
    | split
    | with_reducible apply State.onlyIn.step (State.enginesGo_only _)
    | with_reducible apply State.onlyIn.step (State.sigsGo_only _)
    | with_reducible apply State.onlyIn.step (State.unbindAll_only _))

theorem State.complete_only (s : State) (t : Tx) (p : Pkt) :
    State.onlyIn [.freeCtr, .regs, .fab, .hank, .tiles, .cleats, .sites, .lan, .cmds, .xlt, .pwr, .ports, .boot, .fid, .unread, .out] s (State.complete s t p) := by
  unfold State.complete
  repeat' (first
    | intro _
    | ((with_reducible apply Comp.sub_ok); exact rfl)
    | with_reducible apply State.onlyIn.refl
    | with_reducible assumption
    | with_reducible apply State.onlyIn.foldl
    | dsimp only
    | split
    | with_reducible apply State.onlyIn.step (State.ackGrant_only _ _ _)
    | with_reducible apply State.onlyIn.step (State.respond_only _ _ _)
    | with_reducible apply State.onlyIn.step (State.tileGo_only _ _)
    | with_reducible apply State.onlyIn.step (State.releaseTag_only _ _)
    | with_reducible apply State.onlyIn.step (State.addBw_only _ _ _ _))

theorem State.nacked_only (s : State) (t : Tx) :
    State.onlyIn [.regs, .fab] s (State.nacked s t) := by
  unfold State.nacked
  repeat' (first
    | intro _
    | ((with_reducible apply Comp.sub_ok); exact rfl)
    | with_reducible apply State.onlyIn.refl
    | with_reducible assumption
    | (simp only [State.onlyIn.regs (l := [.regs, .fab]) rfl, State.onlyIn.fab (l := [.regs, .fab]) rfl])
    | with_reducible apply State.onlyIn.foldl
    | dsimp only
    | split
    | with_reducible apply State.onlyIn.step (State.releaseTag_only _ _)
    | (refine ⟨fun c hc => ?_⟩; cases c <;> first | rfl | exact absurd (by decide) hc))

theorem State.atMaster_only (s : State) (p : Pkt) :
    State.onlyIn [.freeCtr, .regs, .fab, .hank, .tiles, .cleats, .sites, .lan, .cmds, .xlt, .pwr, .ports, .boot, .fid, .unread, .out] s (State.atMaster s p) := by
  unfold State.atMaster
  repeat' (first
    | intro _
    | ((with_reducible apply Comp.sub_ok); exact rfl)
    | with_reducible apply State.onlyIn.refl
    | with_reducible assumption
    | with_reducible apply State.onlyIn.foldl
    | dsimp only
    | split
    | with_reducible apply State.onlyIn.step (State.nacked_only _ _)
    | with_reducible apply State.onlyIn.step (State.complete_only _ _ _)
    | with_reducible apply State.onlyIn.step (State.afterResponse_only _))

theorem State.atGroup_only (s : State) (p : Pkt) :
    State.onlyIn [.freeCtr, .regs, .fab, .hank, .tiles, .cleats, .sites, .lan, .cmds, .xlt, .pwr, .ports, .boot, .fid, .unread, .out] s (State.atGroup s p) := by
  unfold State.atGroup
  repeat' (first
    | intro _
    | ((with_reducible apply Comp.sub_ok); exact rfl)
    | with_reducible apply State.onlyIn.refl
    | with_reducible assumption
    | with_reducible apply State.onlyIn.foldl
    | dsimp only
    | split
    | with_reducible apply State.onlyIn.step (State.complete_only _ _ _)
    | with_reducible apply State.onlyIn.step (State.afterResponse_only _))

end Sys2Proof.Machine
end

