-- ==== Sys2Proof/Laws/OnlyCohRows.lean ====
section
/-! SUPPORT. What each operation of Machine/CohRows.lean can change: the parts of the state outside the list are as before. -/

set_option linter.all false

namespace Sys2Proof.Machine

theorem State.onArrival_only {l : List Comp} {s : State} {p : Pkt} {op : Op} {k : State → State} (hl : Comp.sub [.fab, .sites, .out] l = true) (hk_k : ∀ y0, State.onlyIn l y0 (k y0)) :
    State.onlyIn l s (State.onArrival s p op k) := by
  unfold State.onArrival
  repeat' (first
    | intro _
    | ((with_reducible refine Comp.sub_trans ?_ hl); exact rfl)
    | ((with_reducible apply Comp.sub_ok); exact rfl)
    | with_reducible apply State.onlyIn.refl
    | with_reducible assumption
    | with_reducible apply State.onlyIn.foldl
    | dsimp only
    | split
    | with_reducible apply State.onlyIn.step (State.unbindAll_only _)
    | with_reducible apply State.onlyIn.step (State.takePkt_only _ _)
    | with_reducible refine .trans ?_ (hk_k _))

theorem State.onArrival_onlyStep {l : List Comp} {s0 : State} {s : State} {p : Pkt} {op : Op} {k : State → State} (hl : Comp.sub [.fab, .sites, .out] l = true) (hk_k : ∀ y0, State.onlyIn l y0 (k y0)) (h0 : State.onlyIn l s0 s) :
    State.onlyIn l s0 (State.onArrival s p op k) := h0.trans (State.onArrival_only hl hk_k)

theorem State.atSlice_only (s : State) (p : Pkt) (ecc : BitVec 2) :
    State.onlyIn [.freeCtr, .regs, .fab, .ports, .boot, .unread, .out] s (State.atSlice s p ecc) := by
  unfold State.atSlice
  repeat' (first
    | intro _
    | ((with_reducible apply Comp.sub_ok); exact rfl)
    | with_reducible apply State.onlyIn.refl
    | with_reducible assumption
    | with_reducible apply State.onlyIn.foldl
    | dsimp only
    | split
    | with_reducible apply State.onlyIn.step (State.atProxy_only _ _ _)
    | with_reducible apply State.onlyIn.step (State.atHome_only _ _ _))

theorem execRdShared_only {p : Pkt} {ecc : BitVec 2} {s : State} {t1 : State} (h1 : execRdShared p ecc s = .next t1) :
    State.onlyIn [.freeCtr, .regs, .fab, .sites, .ports, .boot, .unread, .out] s t1 := by
  unfold execRdShared at h1
  repeat' (first | with_reducible apply atUnit_only h1 | with_reducible apply whenever_only h1 | with_reducible apply next_only h1 | (dsimp only at h1) | split at h1 | (simp only [reduceCtorEq] at h1; done))
  all_goals
    repeat' (first
      | intro _
      | ((with_reducible apply Comp.sub_ok); exact rfl)
      | with_reducible apply State.onlyIn.refl
      | with_reducible assumption
      | with_reducible apply State.onlyIn.foldl
      | dsimp only
      | split
      | with_reducible apply State.onlyIn.step (State.atSlice_only _ _ _)
      | with_reducible apply State.onArrival_onlyStep)

theorem execRdUnique_only {p : Pkt} {s : State} {t1 : State} (h1 : execRdUnique p s = .next t1) :
    State.onlyIn [.freeCtr, .regs, .fab, .sites, .ports, .boot, .unread, .out] s t1 := by
  unfold execRdUnique at h1
  repeat' (first | with_reducible apply atUnit_only h1 | with_reducible apply whenever_only h1 | with_reducible apply next_only h1 | (dsimp only at h1) | split at h1 | (simp only [reduceCtorEq] at h1; done))
  all_goals
    repeat' (first
      | intro _
      | ((with_reducible apply Comp.sub_ok); exact rfl)
      | with_reducible apply State.onlyIn.refl
      | with_reducible assumption
      | with_reducible apply State.onlyIn.foldl
      | dsimp only
      | split
      | with_reducible apply State.onlyIn.step (State.atSlice_only _ _ _)
      | with_reducible apply State.onArrival_onlyStep)

theorem execUpgrade_only {p : Pkt} {s : State} {t1 : State} (h1 : execUpgrade p s = .next t1) :
    State.onlyIn [.freeCtr, .regs, .fab, .sites, .ports, .boot, .unread, .out] s t1 := by
  unfold execUpgrade at h1
  repeat' (first | with_reducible apply atUnit_only h1 | with_reducible apply whenever_only h1 | with_reducible apply next_only h1 | (dsimp only at h1) | split at h1 | (simp only [reduceCtorEq] at h1; done))
  all_goals
    repeat' (first
      | intro _
      | ((with_reducible apply Comp.sub_ok); exact rfl)
      | with_reducible apply State.onlyIn.refl
      | with_reducible assumption
      | with_reducible apply State.onlyIn.foldl
      | dsimp only
      | split
      | with_reducible apply State.onlyIn.step (State.atSlice_only _ _ _)
      | with_reducible apply State.onArrival_onlyStep)

theorem execRdOnce_only {p : Pkt} {ecc : BitVec 2} {s : State} {t1 : State} (h1 : execRdOnce p ecc s = .next t1) :
    State.onlyIn [.freeCtr, .regs, .fab, .sites, .ports, .boot, .unread, .out] s t1 := by
  unfold execRdOnce at h1
  repeat' (first | with_reducible apply atUnit_only h1 | with_reducible apply whenever_only h1 | with_reducible apply next_only h1 | (dsimp only at h1) | split at h1 | (simp only [reduceCtorEq] at h1; done))
  all_goals
    repeat' (first
      | intro _
      | ((with_reducible apply Comp.sub_ok); exact rfl)
      | with_reducible apply State.onlyIn.refl
      | with_reducible assumption
      | with_reducible apply State.onlyIn.foldl
      | dsimp only
      | split
      | with_reducible apply State.onlyIn.step (State.atSlice_only _ _ _)
      | with_reducible apply State.onArrival_onlyStep)

theorem execWrThrough_only {p : Pkt} {s : State} {t1 : State} (h1 : execWrThrough p s = .next t1) :
    State.onlyIn [.freeCtr, .regs, .fab, .sites, .ports, .boot, .unread, .out] s t1 := by
  unfold execWrThrough at h1
  repeat' (first | with_reducible apply atUnit_only h1 | with_reducible apply whenever_only h1 | with_reducible apply next_only h1 | (dsimp only at h1) | split at h1 | (simp only [reduceCtorEq] at h1; done))
  all_goals
    repeat' (first
      | intro _
      | ((with_reducible apply Comp.sub_ok); exact rfl)
      | with_reducible apply State.onlyIn.refl
      | with_reducible assumption
      | with_reducible apply State.onlyIn.foldl
      | dsimp only
      | split
      | with_reducible apply State.onlyIn.step (State.atSlice_only _ _ _)
      | with_reducible apply State.onArrival_onlyStep)

theorem execWrBack_only {p : Pkt} {s : State} {t1 : State} (h1 : execWrBack p s = .next t1) :
    State.onlyIn [.freeCtr, .regs, .fab, .sites, .ports, .boot, .unread, .out] s t1 := by
  unfold execWrBack at h1
  repeat' (first | with_reducible apply atUnit_only h1 | with_reducible apply whenever_only h1 | with_reducible apply next_only h1 | (dsimp only at h1) | split at h1 | (simp only [reduceCtorEq] at h1; done))
  all_goals
    repeat' (first
      | intro _
      | ((with_reducible apply Comp.sub_ok); exact rfl)
      | with_reducible apply State.onlyIn.refl
      | with_reducible assumption
      | with_reducible apply State.onlyIn.foldl
      | dsimp only
      | split
      | with_reducible apply State.onlyIn.step (State.atSlice_only _ _ _)
      | with_reducible apply State.onArrival_onlyStep)

theorem execEvict_only {p : Pkt} {s : State} {t1 : State} (h1 : execEvict p s = .next t1) :
    State.onlyIn [.freeCtr, .regs, .fab, .sites, .ports, .boot, .unread, .out] s t1 := by
  unfold execEvict at h1
  repeat' (first | with_reducible apply atUnit_only h1 | with_reducible apply whenever_only h1 | with_reducible apply next_only h1 | (dsimp only at h1) | split at h1 | (simp only [reduceCtorEq] at h1; done))
  all_goals
    repeat' (first
      | intro _
      | ((with_reducible apply Comp.sub_ok); exact rfl)
      | with_reducible apply State.onlyIn.refl
      | with_reducible assumption
      | with_reducible apply State.onlyIn.foldl
      | dsimp only
      | split
      | with_reducible apply State.onlyIn.step (State.atSlice_only _ _ _)
      | with_reducible apply State.onArrival_onlyStep)

theorem execAtomH_only {p : Pkt} {s : State} {t1 : State} (h1 : execAtomH p s = .next t1) :
    State.onlyIn [.freeCtr, .regs, .fab, .sites, .ports, .boot, .unread, .out] s t1 := by
  unfold execAtomH at h1
  repeat' (first | with_reducible apply atUnit_only h1 | with_reducible apply whenever_only h1 | with_reducible apply next_only h1 | (dsimp only at h1) | split at h1 | (simp only [reduceCtorEq] at h1; done))
  all_goals
    repeat' (first
      | intro _
      | ((with_reducible apply Comp.sub_ok); exact rfl)
      | with_reducible apply State.onlyIn.refl
      | with_reducible assumption
      | with_reducible apply State.onlyIn.foldl
      | dsimp only
      | split
      | with_reducible apply State.onlyIn.step (State.atSlice_only _ _ _)
      | with_reducible apply State.onArrival_onlyStep)

theorem State.snoopArrives_only (s : State) (p : Pkt) (op : Op) :
    State.onlyIn [.freeCtr, .fab, .tiles, .sites, .out] s (State.snoopArrives s p op) := by
  unfold State.snoopArrives
  repeat' (first
    | intro _
    | ((with_reducible apply Comp.sub_ok); exact rfl)
    | with_reducible apply State.onlyIn.refl
    | with_reducible assumption
    | with_reducible apply State.onlyIn.foldl
    | dsimp only
    | split
    | with_reducible apply State.onArrival_onlyStep
    | with_reducible apply State.onlyIn.step (State.snooped_only _ _))

theorem execSnpShared_only {p : Pkt} {s : State} {t1 : State} (h1 : execSnpShared p s = .next t1) :
    State.onlyIn [.freeCtr, .fab, .tiles, .sites, .out] s t1 := by
  unfold execSnpShared at h1
  repeat' (first | with_reducible apply atUnit_only h1 | with_reducible apply whenever_only h1 | with_reducible apply next_only h1 | (dsimp only at h1) | split at h1 | (simp only [reduceCtorEq] at h1; done))
  all_goals
    repeat' (first
      | intro _
      | ((with_reducible apply Comp.sub_ok); exact rfl)
      | with_reducible apply State.onlyIn.refl
      | with_reducible assumption
      | with_reducible apply State.onlyIn.foldl
      | dsimp only
      | split
      | with_reducible apply State.onlyIn.step (State.snoopArrives_only _ _ _))

theorem execSnpInv_only {p : Pkt} {s : State} {t1 : State} (h1 : execSnpInv p s = .next t1) :
    State.onlyIn [.freeCtr, .fab, .tiles, .sites, .out] s t1 := by
  unfold execSnpInv at h1
  repeat' (first | with_reducible apply atUnit_only h1 | with_reducible apply whenever_only h1 | with_reducible apply next_only h1 | (dsimp only at h1) | split at h1 | (simp only [reduceCtorEq] at h1; done))
  all_goals
    repeat' (first
      | intro _
      | ((with_reducible apply Comp.sub_ok); exact rfl)
      | with_reducible apply State.onlyIn.refl
      | with_reducible assumption
      | with_reducible apply State.onlyIn.foldl
      | dsimp only
      | split
      | with_reducible apply State.onlyIn.step (State.snoopArrives_only _ _ _))

theorem execSnpRdNA_only {p : Pkt} {s : State} {t1 : State} (h1 : execSnpRdNA p s = .next t1) :
    State.onlyIn [.freeCtr, .fab, .tiles, .sites, .out] s t1 := by
  unfold execSnpRdNA at h1
  repeat' (first | with_reducible apply atUnit_only h1 | with_reducible apply whenever_only h1 | with_reducible apply next_only h1 | (dsimp only at h1) | split at h1 | (simp only [reduceCtorEq] at h1; done))
  all_goals
    repeat' (first
      | intro _
      | ((with_reducible apply Comp.sub_ok); exact rfl)
      | with_reducible apply State.onlyIn.refl
      | with_reducible assumption
      | with_reducible apply State.onlyIn.foldl
      | dsimp only
      | split
      | with_reducible apply State.onlyIn.step (State.snoopArrives_only _ _ _))

theorem State.snoopAnswer_only (s : State) (p : Pkt) :
    State.onlyIn [.freeCtr, .regs, .fab, .ports, .unread, .out] s (State.snoopAnswer s p) := by
  unfold State.snoopAnswer
  repeat' (first
    | intro _
    | ((with_reducible apply Comp.sub_ok); exact rfl)
    | with_reducible apply State.onlyIn.refl
    | with_reducible assumption
    | with_reducible apply State.onlyIn.foldl
    | dsimp only
    | split
    | with_reducible apply State.onlyIn.step (State.homeAnswer_only _ _)
    | with_reducible apply State.onlyIn.step (State.proxyAnswer_only _ _))

theorem execSnpResp_only {p : Pkt} {s : State} {t1 : State} (h1 : execSnpResp p s = .next t1) :
    State.onlyIn [.freeCtr, .regs, .fab, .sites, .ports, .unread, .out] s t1 := by
  unfold execSnpResp at h1
  repeat' (first | with_reducible apply atUnit_only h1 | with_reducible apply whenever_only h1 | with_reducible apply next_only h1 | (dsimp only at h1) | split at h1 | (simp only [reduceCtorEq] at h1; done))
  all_goals
    repeat' (first
      | intro _
      | ((with_reducible apply Comp.sub_ok); exact rfl)
      | with_reducible apply State.onlyIn.refl
      | with_reducible assumption
      | with_reducible apply State.onlyIn.foldl
      | dsimp only
      | split
      | with_reducible apply State.onlyIn.step (State.snoopAnswer_only _ _)
      | with_reducible apply State.onArrival_onlyStep)

theorem execSnpRespData_only {p : Pkt} {s : State} {t1 : State} (h1 : execSnpRespData p s = .next t1) :
    State.onlyIn [.freeCtr, .regs, .fab, .sites, .ports, .unread, .out] s t1 := by
  unfold execSnpRespData at h1
  repeat' (first | with_reducible apply atUnit_only h1 | with_reducible apply whenever_only h1 | with_reducible apply next_only h1 | (dsimp only at h1) | split at h1 | (simp only [reduceCtorEq] at h1; done))
  all_goals
    repeat' (first
      | intro _
      | ((with_reducible apply Comp.sub_ok); exact rfl)
      | with_reducible apply State.onlyIn.refl
      | with_reducible assumption
      | with_reducible apply State.onlyIn.foldl
      | dsimp only
      | split
      | with_reducible apply State.onlyIn.step (State.snoopAnswer_only _ _)
      | with_reducible apply State.onArrival_onlyStep)

theorem State.rspArrives_only {l : List Comp} {s : State} {p : Pkt} {k : State → State} (hl : Comp.sub [.freeCtr, .regs, .fab, .hank, .tiles, .cleats, .sites, .lan, .cmds, .xlt, .pwr, .ports, .boot, .fid, .unread, .out] l = true) (hk_k : ∀ y0, State.onlyIn l y0 (k y0)) :
    State.onlyIn l s (State.rspArrives s p k) := by
  unfold State.rspArrives
  repeat' (first
    | intro _
    | ((with_reducible refine Comp.sub_trans ?_ hl); exact rfl)
    | ((with_reducible apply Comp.sub_ok); exact rfl)
    | with_reducible apply State.onlyIn.refl
    | with_reducible assumption
    | with_reducible apply State.onlyIn.foldl
    | dsimp only
    | split
    | with_reducible apply State.onlyIn.step (State.atMaster_only _ _)
    | with_reducible apply State.onlyIn.step (State.relayBack_only _ _ _)
    | with_reducible refine .trans ?_ (hk_k _))

theorem State.rspArrives_onlyStep {l : List Comp} {s0 : State} {s : State} {p : Pkt} {k : State → State} (hl : Comp.sub [.freeCtr, .regs, .fab, .hank, .tiles, .cleats, .sites, .lan, .cmds, .xlt, .pwr, .ports, .boot, .fid, .unread, .out] l = true) (hk_k : ∀ y0, State.onlyIn l y0 (k y0)) (h0 : State.onlyIn l s0 s) :
    State.onlyIn l s0 (State.rspArrives s p k) := h0.trans (State.rspArrives_only hl hk_k)

theorem execComp_only {p : Pkt} {s : State} {t1 : State} (h1 : execComp p s = .next t1) :
    State.onlyIn [.freeCtr, .regs, .fab, .hank, .tiles, .cleats, .sites, .lan, .cmds, .xlt, .pwr, .ports, .boot, .fid, .unread, .out] s t1 := by
  unfold execComp at h1
  repeat' (first | with_reducible apply atUnit_only h1 | with_reducible apply whenever_only h1 | with_reducible apply next_only h1 | (dsimp only at h1) | split at h1 | (simp only [reduceCtorEq] at h1; done))
  all_goals
    repeat' (first
      | intro _
      | ((with_reducible apply Comp.sub_ok); exact rfl)
      | with_reducible apply State.onlyIn.refl
      | with_reducible assumption
      | with_reducible apply State.onlyIn.foldl
      | dsimp only
      | split
      | with_reducible apply State.rspArrives_onlyStep
      | with_reducible apply State.onArrival_onlyStep
      | with_reducible apply State.onlyIn.step (State.proxyFilled_only _ _))

theorem execCompData_only {p : Pkt} {s : State} {t1 : State} (h1 : execCompData p s = .next t1) :
    State.onlyIn [.freeCtr, .regs, .fab, .hank, .tiles, .cleats, .sites, .lan, .cmds, .xlt, .pwr, .ports, .boot, .fid, .unread, .out] s t1 := by
  unfold execCompData at h1
  repeat' (first | with_reducible apply atUnit_only h1 | with_reducible apply whenever_only h1 | with_reducible apply next_only h1 | (dsimp only at h1) | split at h1 | (simp only [reduceCtorEq] at h1; done))
  all_goals
    repeat' (first
      | intro _
      | ((with_reducible apply Comp.sub_ok); exact rfl)
      | with_reducible apply State.onlyIn.refl
      | with_reducible assumption
      | with_reducible apply State.onlyIn.foldl
      | dsimp only
      | split
      | with_reducible apply State.rspArrives_onlyStep
      | with_reducible apply State.onArrival_onlyStep
      | with_reducible apply State.onlyIn.step (State.proxyFilled_only _ _))

theorem execMdata_only {p : Pkt} {s : State} {t1 : State} (h1 : execMdata p s = .next t1) :
    State.onlyIn [.freeCtr, .regs, .fab, .hank, .tiles, .cleats, .sites, .lan, .cmds, .xlt, .pwr, .ports, .boot, .fid, .unread, .out] s t1 := by
  unfold execMdata at h1
  repeat' (first | with_reducible apply atUnit_only h1 | with_reducible apply whenever_only h1 | with_reducible apply next_only h1 | (dsimp only at h1) | split at h1 | (simp only [reduceCtorEq] at h1; done))
  all_goals
    repeat' (first
      | intro _
      | ((with_reducible apply Comp.sub_ok); exact rfl)
      | with_reducible apply State.onlyIn.refl
      | with_reducible assumption
      | with_reducible apply State.onlyIn.foldl
      | dsimp only
      | split
      | with_reducible apply State.onArrival_onlyStep
      | with_reducible apply State.onlyIn.step (State.atGroup_only _ _)
      | with_reducible apply State.onlyIn.step (State.atMaster_only _ _)
      | with_reducible apply State.onlyIn.step (State.homeData_only _ _))

theorem execMack_only {p : Pkt} {s : State} {t1 : State} (h1 : execMack p s = .next t1) :
    State.onlyIn [.freeCtr, .regs, .fab, .hank, .tiles, .cleats, .sites, .lan, .cmds, .xlt, .pwr, .ports, .boot, .fid, .unread, .out] s t1 := by
  unfold execMack at h1
  repeat' (first | with_reducible apply atUnit_only h1 | with_reducible apply whenever_only h1 | with_reducible apply next_only h1 | (dsimp only at h1) | split at h1 | (simp only [reduceCtorEq] at h1; done))
  all_goals
    repeat' (first
      | intro _
      | ((with_reducible apply Comp.sub_ok); exact rfl)
      | with_reducible apply State.onlyIn.refl
      | with_reducible assumption
      | with_reducible apply State.onlyIn.foldl
      | dsimp only
      | split
      | with_reducible apply State.rspArrives_onlyStep
      | with_reducible apply State.onArrival_onlyStep)

theorem execGrantAck_only {p : Pkt} {s : State} {t1 : State} (h1 : execGrantAck p s = .next t1) :
    State.onlyIn [.freeCtr, .regs, .fab, .sites, .ports, .unread, .out] s t1 := by
  unfold execGrantAck at h1
  repeat' (first | with_reducible apply atUnit_only h1 | with_reducible apply whenever_only h1 | with_reducible apply next_only h1 | (dsimp only at h1) | split at h1 | (simp only [reduceCtorEq] at h1; done))
  all_goals
    repeat' (first
      | intro _
      | ((with_reducible apply Comp.sub_ok); exact rfl)
      | with_reducible apply State.onlyIn.refl
      | with_reducible assumption
      | with_reducible apply State.onlyIn.foldl
      | dsimp only
      | split
      | with_reducible apply State.onArrival_onlyStep
      | with_reducible apply State.onlyIn.step (State.proxyAck_only _ _)
      | with_reducible apply State.onlyIn.step (State.homeAck_only _ _))

theorem State.retry_only (s : State) (half : Half) (tag : Nat) :
    State.onlyIn [.fab] s (State.retry s half tag) := by
  unfold State.retry
  repeat' (first
    | intro _
    | ((with_reducible apply Comp.sub_ok); exact rfl)
    | with_reducible apply State.onlyIn.refl
    | with_reducible assumption
    | (simp only [State.onlyIn.fab (l := [.fab]) rfl])
    | with_reducible apply State.onlyIn.foldl
    | dsimp only
    | split
    | with_reducible apply State.onlyIn.step (State.sendPkt_only _ _)
    | (refine ⟨fun c hc => ?_⟩; cases c <;> first | rfl | exact absurd (by decide) hc))

theorem execNackRetry_only {half : Half} {tag : Nat} {s : State} {t1 : State} (h1 : execNackRetry half tag s = .next t1) :
    State.onlyIn [.fab] s t1 := by
  unfold execNackRetry at h1
  repeat' (first | with_reducible apply atUnit_only h1 | with_reducible apply whenever_only h1 | with_reducible apply next_only h1 | (dsimp only at h1) | split at h1 | (simp only [reduceCtorEq] at h1; done))
  all_goals
    repeat' (first
      | intro _
      | ((with_reducible apply Comp.sub_ok); exact rfl)
      | with_reducible apply State.onlyIn.refl
      | with_reducible assumption
      | with_reducible apply State.onlyIn.foldl
      | dsimp only
      | split
      | with_reducible apply State.onlyIn.step (State.retry_only _ _ _))

theorem State.hitchOver_only (s : State) (n : Nat) :
    State.onlyIn [.freeCtr, .regs, .fab, .sites, .ports, .unread, .out] s (State.hitchOver s n) := by
  unfold State.hitchOver
  repeat' (first
    | intro _
    | ((with_reducible apply Comp.sub_ok); exact rfl)
    | with_reducible apply State.onlyIn.refl
    | with_reducible assumption
    | with_reducible apply State.onlyIn.foldl
    | dsimp only
    | split
    | with_reducible apply State.onlyIn.step (State.unbindAll_only _)
    | with_reducible apply State.onlyIn.step (State.unbusy_only _ _)
    | with_reducible apply State.onlyIn.step (State.setLine_only _ _ _))

theorem execHitchExpire_only {line : Nat} {s : State} {t1 : State} (h1 : execHitchExpire line s = .next t1) :
    State.onlyIn [.freeCtr, .regs, .fab, .sites, .ports, .unread, .out] s t1 := by
  unfold execHitchExpire at h1
  repeat' (first | with_reducible apply atUnit_only h1 | with_reducible apply whenever_only h1 | with_reducible apply next_only h1 | (dsimp only at h1) | split at h1 | (simp only [reduceCtorEq] at h1; done))
  all_goals
    repeat' (first
      | intro _
      | ((with_reducible apply Comp.sub_ok); exact rfl)
      | with_reducible apply State.onlyIn.refl
      | with_reducible assumption
      | with_reducible apply State.onlyIn.foldl
      | dsimp only
      | split
      | with_reducible apply State.onlyIn.step (State.hitchOver_only _ _))

theorem State.snoopTmo_only (s : State) (n : Nat) (a : Agent) :
    State.onlyIn [.freeCtr, .regs, .fab, .hank, .cleats, .sites, .lan, .cmds, .xlt, .pwr, .sec, .ports, .boot, .fid, .unread, .out] s (State.snoopTmo s n a) := by
  unfold State.snoopTmo
  repeat' (first
    | intro _
    | ((with_reducible apply Comp.sub_ok); exact rfl)
    | with_reducible apply State.onlyIn.refl
    | with_reducible assumption
    | with_reducible apply State.onlyIn.foldl
    | dsimp only
    | split
    | with_reducible apply State.onlyIn.step (State.unbindAll_only _)
    | with_reducible apply State.onlyIn.step (State.sever_only _ _ _)
    | with_reducible apply State.onlyIn.step (State.snoopLost_only _ _ _ _)
    | with_reducible apply State.onlyIn.step (State.cohLoc_only _ _ _ _ _)
    | with_reducible apply State.onlyIn.step (State.withdraw_only _ _)
    | with_reducible apply State.onlyIn.step (State.ev_only _ _ _))

theorem execSnoopTimeout_only {line : Nat} {a : Agent} {s : State} {t1 : State} (h1 : execSnoopTimeout line a s = .next t1) :
    State.onlyIn [.freeCtr, .regs, .fab, .hank, .cleats, .sites, .lan, .cmds, .xlt, .pwr, .sec, .ports, .boot, .fid, .unread, .out] s t1 := by
  unfold execSnoopTimeout at h1
  repeat' (first | with_reducible apply atUnit_only h1 | with_reducible apply whenever_only h1 | with_reducible apply next_only h1 | (dsimp only at h1) | split at h1 | (simp only [reduceCtorEq] at h1; done))
  all_goals
    repeat' (first
      | intro _
      | ((with_reducible apply Comp.sub_ok); exact rfl)
      | with_reducible apply State.onlyIn.refl
      | with_reducible assumption
      | with_reducible apply State.onlyIn.foldl
      | dsimp only
      | split
      | with_reducible apply State.onlyIn.step (State.snoopTmo_only _ _ _))

theorem execFillTimeout_only {line : Nat} {s : State} {t1 : State} (h1 : execFillTimeout line s = .next t1) :
    State.onlyIn [.freeCtr, .regs, .fab, .sites, .ports, .unread, .out] s t1 := by
  unfold execFillTimeout at h1
  repeat' (first | with_reducible apply atUnit_only h1 | with_reducible apply whenever_only h1 | with_reducible apply next_only h1 | (dsimp only at h1) | split at h1 | (simp only [reduceCtorEq] at h1; done))
  all_goals
    repeat' (first
      | intro _
      | ((with_reducible apply Comp.sub_ok); exact rfl)
      | with_reducible apply State.onlyIn.refl
      | with_reducible assumption
      | with_reducible apply State.onlyIn.foldl
      | dsimp only
      | split
      | with_reducible apply State.onlyIn.step (State.unbindAll_only _)
      | with_reducible apply State.onlyIn.step (State.fillLost_only _ _))

theorem State.writeFlush_only (s : State) (path : Path) (w : W32) :
    State.onlyIn [.regs, .fab, .ports, .unread, .out] s (State.writeFlush s path w) := by
  unfold State.writeFlush
  repeat' (first
    | intro _
    | ((with_reducible apply Comp.sub_ok); exact rfl)
    | with_reducible apply State.onlyIn.refl
    | with_reducible assumption
    | (simp only [State.onlyIn.regs (l := [.regs, .fab, .ports, .unread, .out]) rfl, State.onlyIn.fab (l := [.regs, .fab, .ports, .unread, .out]) rfl, State.onlyIn.ports (l := [.regs, .fab, .ports, .unread, .out]) rfl, State.onlyIn.unread (l := [.regs, .fab, .ports, .unread, .out]) rfl, State.onlyIn.out (l := [.regs, .fab, .ports, .unread, .out]) rfl])
    | with_reducible apply State.onlyIn.foldl
    | dsimp only
    | split
    | with_reducible apply State.onlyIn.step (State.evictSelected_only _)
    | with_reducible apply State.onlyIn.step (State.regRefused_only _ _ _ _)
    | with_reducible apply State.onlyIn.step (State.fset_only _ _ _ _ _)
    | (refine ⟨fun c hc => ?_⟩; cases c <;> first | rfl | exact absurd (by decide) hc))

theorem execCohFlush_only {path : Path} {w : W32} {s : State} {t1 : State} (h1 : execCohFlush path w s = .next t1) :
    State.onlyIn [.regs, .fab, .ports, .unread, .out] s t1 := by
  unfold execCohFlush at h1
  repeat' (first | with_reducible apply atUnit_only h1 | with_reducible apply whenever_only h1 | with_reducible apply next_only h1 | (dsimp only at h1) | split at h1 | (simp only [reduceCtorEq] at h1; done))
  all_goals
    repeat' (first
      | intro _
      | ((with_reducible apply Comp.sub_ok); exact rfl)
      | with_reducible apply State.onlyIn.refl
      | with_reducible assumption
      | with_reducible apply State.onlyIn.foldl
      | dsimp only
      | split
      | with_reducible apply State.onlyIn.step (State.writeFlush_only _ _ _)
      | with_reducible apply State.regWrite_onlyStep)

theorem State.applyMasks_only (s : State) :
    State.onlyIn [.regs, .fab] s (State.applyMasks s) := by
  unfold State.applyMasks
  repeat' (first
    | intro _
    | ((with_reducible apply Comp.sub_ok); exact rfl)
    | with_reducible apply State.onlyIn.refl
    | with_reducible assumption
    | (simp only [State.onlyIn.regs (l := [.regs, .fab]) rfl, State.onlyIn.fab (l := [.regs, .fab]) rfl])
    | with_reducible apply State.onlyIn.foldl
    | dsimp only
    | split
    | with_reducible apply State.onlyIn.step (State.fset_only _ _ _ _ _)
    | (refine ⟨fun c hc => ?_⟩; cases c <;> first | rfl | exact absurd (by decide) hc))

theorem State.flushDone_only (s : State) :
    State.onlyIn [.regs, .fab, .ports, .boot, .unread, .out] s (State.flushDone s) := by
  unfold State.flushDone
  repeat' (first
    | intro _
    | ((with_reducible apply Comp.sub_ok); exact rfl)
    | with_reducible apply State.onlyIn.refl
    | with_reducible assumption
    | (simp only [State.onlyIn.regs (l := [.regs, .fab, .ports, .boot, .unread, .out]) rfl, State.onlyIn.fab (l := [.regs, .fab, .ports, .boot, .unread, .out]) rfl, State.onlyIn.ports (l := [.regs, .fab, .ports, .boot, .unread, .out]) rfl, State.onlyIn.boot (l := [.regs, .fab, .ports, .boot, .unread, .out]) rfl, State.onlyIn.unread (l := [.regs, .fab, .ports, .boot, .unread, .out]) rfl, State.onlyIn.out (l := [.regs, .fab, .ports, .boot, .unread, .out]) rfl])
    | with_reducible apply State.onlyIn.foldl
    | dsimp only
    | split
    | with_reducible apply State.onlyIn.step (State.applyMasks_only _)
    | with_reducible apply State.onlyIn.step (State.uncache_only _ _)
    | with_reducible apply State.onlyIn.step (State.fset_only _ _ _ _ _)
    | (refine ⟨fun c hc => ?_⟩; cases c <;> first | rfl | exact absurd (by decide) hc))

theorem execCohFlushDone_only {s : State} {t1 : State} (h1 : execCohFlushDone s = .next t1) :
    State.onlyIn [.regs, .fab, .ports, .boot, .unread, .out] s t1 := by
  unfold execCohFlushDone at h1
  repeat' (first | with_reducible apply atUnit_only h1 | with_reducible apply whenever_only h1 | with_reducible apply next_only h1 | (dsimp only at h1) | split at h1 | (simp only [reduceCtorEq] at h1; done))
  all_goals
    repeat' (first
      | intro _
      | ((with_reducible apply Comp.sub_ok); exact rfl)
      | with_reducible apply State.onlyIn.refl
      | with_reducible assumption
      | with_reducible apply State.onlyIn.foldl
      | dsimp only
      | split
      | with_reducible apply State.onlyIn.step (State.flushDone_only _))

theorem State.writeMask_only (s : State) (n : Nat) (path : Path) (v : Nat) :
    State.onlyIn [.regs, .fab, .sec, .ports, .fid, .unread, .out] s (State.writeMask s n path v) := by
  unfold State.writeMask
  repeat' (first
    | intro _
    | ((with_reducible apply Comp.sub_ok); exact rfl)
    | with_reducible apply State.onlyIn.refl
    | with_reducible assumption
    | (simp only [State.onlyIn.regs (l := [.regs, .fab, .sec, .ports, .fid, .unread, .out]) rfl, State.onlyIn.fab (l := [.regs, .fab, .sec, .ports, .fid, .unread, .out]) rfl, State.onlyIn.sec (l := [.regs, .fab, .sec, .ports, .fid, .unread, .out]) rfl, State.onlyIn.ports (l := [.regs, .fab, .sec, .ports, .fid, .unread, .out]) rfl, State.onlyIn.fid (l := [.regs, .fab, .sec, .ports, .fid, .unread, .out]) rfl, State.onlyIn.unread (l := [.regs, .fab, .sec, .ports, .fid, .unread, .out]) rfl, State.onlyIn.out (l := [.regs, .fab, .sec, .ports, .fid, .unread, .out]) rfl])
    | with_reducible apply State.onlyIn.foldl
    | dsimp only
    | split
    | with_reducible apply State.onlyIn.step (State.tdiError_only _ _)
    | with_reducible apply State.onlyIn.step (State.evictSelected_only _)
    | with_reducible apply State.onlyIn.step (State.regRefused_only _ _ _ _)
    | with_reducible apply State.onlyIn.step (State.disarm_only _)
    | with_reducible apply State.onlyIn.step (State.ev_only _ _ _)
    | with_reducible apply State.onlyIn.step (State.fset_only _ _ _ _ _)
    | (refine ⟨fun c hc => ?_⟩; cases c <;> first | rfl | exact absurd (by decide) hc))

theorem execCohWaymaskWrite_only {n : Fin 9} {path : Path} {w : W32} {s : State} {t1 : State} (h1 : execCohWaymaskWrite n path w s = .next t1) :
    State.onlyIn [.regs, .fab, .sec, .ports, .fid, .unread, .out] s t1 := by
  unfold execCohWaymaskWrite at h1
  repeat' (first | with_reducible apply atUnit_only h1 | with_reducible apply whenever_only h1 | with_reducible apply next_only h1 | (dsimp only at h1) | split at h1 | (simp only [reduceCtorEq] at h1; done))
  all_goals
    repeat' (first
      | intro _
      | ((with_reducible apply Comp.sub_ok); exact rfl)
      | with_reducible apply State.onlyIn.refl
      | with_reducible assumption
      | with_reducible apply State.onlyIn.foldl
      | dsimp only
      | split
      | with_reducible apply State.onlyIn.step (State.writeMask_only _ _ _ _)
      | with_reducible apply State.regWrite_onlyStep)

theorem State.setIf_only (s : State) (ok : Bool) (f : Fld) (v : Nat) :
    State.onlyIn [.regs] s (State.setIf s ok f v) := by
  unfold State.setIf
  repeat' (first
    | intro _
    | ((with_reducible apply Comp.sub_ok); exact rfl)
    | with_reducible apply State.onlyIn.refl
    | with_reducible assumption
    | with_reducible apply State.onlyIn.foldl
    | dsimp only
    | split
    | with_reducible apply State.onlyIn.step (State.fset_only _ _ _ _ _))

theorem State.writeCohConf_only (s : State) (path : Path) (w : W32) :
    State.onlyIn [.regs, .ports, .out] s (State.writeCohConf s path w) := by
  unfold State.writeCohConf
  repeat' (first
    | intro _
    | ((with_reducible apply Comp.sub_ok); exact rfl)
    | with_reducible apply State.onlyIn.refl
    | with_reducible assumption
    | with_reducible apply State.onlyIn.foldl
    | dsimp only
    | split
    | with_reducible apply State.onlyIn.step (State.setIf_only _ _ _ _)
    | with_reducible apply State.onlyIn.step (State.regRefused_only _ _ _ _)
    | with_reducible apply State.onlyIn.step (State.ev_only _ _ _)
    | with_reducible apply State.onlyIn.step (State.fset_only _ _ _ _ _))

theorem execCohConfWrite_only {path : Path} {w : W32} {s : State} {t1 : State} (h1 : execCohConfWrite path w s = .next t1) :
    State.onlyIn [.regs, .ports, .out] s t1 := by
  unfold execCohConfWrite at h1
  repeat' (first | with_reducible apply atUnit_only h1 | with_reducible apply whenever_only h1 | with_reducible apply next_only h1 | (dsimp only at h1) | split at h1 | (simp only [reduceCtorEq] at h1; done))
  all_goals
    repeat' (first
      | intro _
      | ((with_reducible apply Comp.sub_ok); exact rfl)
      | with_reducible apply State.onlyIn.refl
      | with_reducible assumption
      | with_reducible apply State.onlyIn.foldl
      | dsimp only
      | split
      | with_reducible apply State.onlyIn.step (State.writeCohConf_only _ _ _)
      | with_reducible apply State.regWrite_onlyStep)

theorem State.answerCut_only (s : State) (lost : Half) :
    State.onlyIn [.fab] s (State.answerCut s lost) := by
  unfold State.answerCut
  repeat' (first
    | intro _
    | ((with_reducible apply Comp.sub_ok); exact rfl)
    | with_reducible apply State.onlyIn.refl
    | with_reducible assumption
    | with_reducible apply State.onlyIn.foldl
    | dsimp only
    | split
    | with_reducible apply State.onlyIn.step (State.sendPkt_only _ _))

theorem State.closeSplice_only (s : State) (lost : Half) :
    State.onlyIn [.freeCtr, .regs, .fab, .ports, .unread, .out] s (State.closeSplice s lost) := by
  unfold State.closeSplice
  repeat' (first
    | intro _
    | ((with_reducible apply Comp.sub_ok); exact rfl)
    | with_reducible apply State.onlyIn.refl
    | with_reducible assumption
    | (simp only [State.onlyIn.freeCtr (l := [.freeCtr, .regs, .fab, .ports, .unread, .out]) rfl, State.onlyIn.regs (l := [.freeCtr, .regs, .fab, .ports, .unread, .out]) rfl, State.onlyIn.fab (l := [.freeCtr, .regs, .fab, .ports, .unread, .out]) rfl, State.onlyIn.ports (l := [.freeCtr, .regs, .fab, .ports, .unread, .out]) rfl, State.onlyIn.unread (l := [.freeCtr, .regs, .fab, .ports, .unread, .out]) rfl, State.onlyIn.out (l := [.freeCtr, .regs, .fab, .ports, .unread, .out]) rfl])
    | with_reducible apply State.onlyIn.foldl
    | with_reducible apply State.onlyIn.foldl2
    | dsimp only
    | (split <;> first | (rename_i heq; have hx := congrArg (fun z => z.2) heq; dsimp only at hx; subst hx) | (rename_i heq; have hx := congrArg (fun z => z.2.2) heq; dsimp only at hx; subst hx) | skip)
    | split
    | with_reducible apply State.onlyIn.step (State.answerCut_only _ _)
    | with_reducible apply State.onlyIn.step (State.sweepAgents_only _ _)
    | with_reducible apply State.onlyIn.step (State.loseAgents_only _ _ _ _ _)
    | with_reducible apply State.onlyIn.step (State.answer_only _ _ _ _ _)
    | with_reducible apply State.onlyIn.step (State.sendSnoop_only _ _ _ _ _ _ _)
    | with_reducible apply State.onlyIn.step (State.cohLoc_only _ _ _ _ _)
    | with_reducible apply State.onlyIn.step (State.ev_only _ _ _)
    | with_reducible apply State.onlyIn.step (State.setPline_only _ _ _)
    | with_reducible apply State.onlyIn.step (State.fset_only _ _ _ _ _)
    | (refine ⟨fun c hc => ?_⟩; cases c <;> first | rfl | exact absurd (by decide) hc))

end Sys2Proof.Machine
end

