-- ==== Sys2Proof/Laws/OnlyControl.lean ====
section
/-! SUPPORT. What each operation of Machine/Control.lean can change: the parts of the state outside the list are as before. -/

set_option linter.all false

namespace Sys2Proof.Machine

theorem execQuery_only {id : Nat} {s : State} {t1 : State} (h1 : execQuery id s = .next t1) :
    State.onlyIn [.cmds] s t1 := by
  unfold execQuery at h1
  repeat' (first | with_reducible apply atUnit_only h1 | with_reducible apply whenever_only h1 | with_reducible apply next_only h1 | (dsimp only at h1) | split at h1 | (simp only [reduceCtorEq] at h1; done))
  all_goals
    repeat' (first
      | intro _
      | ((with_reducible apply Comp.sub_ok); exact rfl)
      | with_reducible apply State.onlyIn.refl
      | with_reducible assumption
      | with_reducible apply State.onlyIn.foldl
      | dsimp only
      | split
      | with_reducible apply State.cmdBody_onlyStep
      | with_reducible apply State.onlyIn.step (State.finish_only _ _ _ _)
      | with_reducible apply State.onlyIn.step (State.setRun_only _ _))

theorem State.doMarginCmd_only (s : State) (r : Run) :
    State.onlyIn [.freeCtr, .regs, .hank, .sites, .cmds, .pwr, .ports, .fid, .out] s (State.doMarginCmd s r) := by
  unfold State.doMarginCmd
  repeat' (first
    | intro _
    | ((with_reducible apply Comp.sub_ok); exact rfl)
    | with_reducible apply State.onlyIn.refl
    | with_reducible assumption
    | with_reducible apply State.onlyIn.foldl
    | with_reducible apply State.onlyIn.foldl2
    | dsimp only
    | (split <;> first | (rename_i heq; have hx := congrArg (fun z => z.2) heq; dsimp only at hx; subst hx) | (rename_i heq; have hx := congrArg (fun z => z.2.2) heq; dsimp only at hx; subst hx) | skip)
    | split
    | with_reducible apply State.onlyIn.step (State.tryMargin_only _ _ _ _)
    | with_reducible apply State.onlyIn.step (State.marginFields_only _ _ _)
    | with_reducible apply State.onlyIn.step (State.finish_only _ _ _ _))

theorem execMarginCmd_only {id : Nat} {s : State} {t1 : State} (h1 : execMarginCmd id s = .next t1) :
    State.onlyIn [.freeCtr, .regs, .hank, .sites, .cmds, .pwr, .ports, .fid, .out] s t1 := by
  unfold execMarginCmd at h1
  repeat' (first | with_reducible apply atUnit_only h1 | with_reducible apply whenever_only h1 | with_reducible apply next_only h1 | (dsimp only at h1) | split at h1 | (simp only [reduceCtorEq] at h1; done))
  all_goals
    repeat' (first
      | intro _
      | ((with_reducible apply Comp.sub_ok); exact rfl)
      | with_reducible apply State.onlyIn.refl
      | with_reducible assumption
      | with_reducible apply State.onlyIn.foldl
      | dsimp only
      | split
      | with_reducible apply State.onlyIn.step (State.doMarginCmd_only _ _)
      | with_reducible apply State.cmdBody_onlyStep)

theorem State.doLinkCtl_only (s : State) (r : Run) :
    State.onlyIn [.freeCtr, .regs, .fab, .tiles, .cleats, .sites, .lan, .cmds, .xlt, .ports, .boot, .fid, .unread, .out] s (State.doLinkCtl s r) := by
  unfold State.doLinkCtl
  repeat' (first
    | intro _
    | ((with_reducible apply Comp.sub_ok); exact rfl)
    | with_reducible apply State.onlyIn.refl
    | with_reducible assumption
    | with_reducible apply State.onlyIn.foldl
    | dsimp only
    | split
    | with_reducible apply State.onlyIn.step (State.retireOp_only _ _)
    | with_reducible apply State.onlyIn.step (State.retrain_only _ _)
    | with_reducible apply State.onlyIn.step (State.finish_only _ _ _ _))

theorem State.waitSeize_only (s : State) (id : Nat) :
    State.onlyIn [.fid] s (State.waitSeize s id) := by
  unfold State.waitSeize
  repeat' (first
    | intro _
    | ((with_reducible apply Comp.sub_ok); exact rfl)
    | with_reducible apply State.onlyIn.refl
    | with_reducible assumption
    | (simp only [State.onlyIn.fid (l := [.fid]) rfl])
    | with_reducible apply State.onlyIn.foldl
    | dsimp only
    | split
    | (refine ⟨fun c hc => ?_⟩; cases c <;> first | rfl | exact absurd (by decide) hc))

theorem State.unwait_only (s : State) (id : Nat) :
    State.onlyIn [.fid] s (State.unwait s id) := by
  unfold State.unwait
  repeat' (first
    | intro _
    | ((with_reducible apply Comp.sub_ok); exact rfl)
    | with_reducible apply State.onlyIn.refl
    | with_reducible assumption
    | (simp only [State.onlyIn.fid (l := [.fid]) rfl])
    | with_reducible apply State.onlyIn.foldl
    | dsimp only
    | split
    | (refine ⟨fun c hc => ?_⟩; cases c <;> first | rfl | exact absurd (by decide) hc))

theorem execLinkCtl_only {id : Nat} {s : State} {t1 : State} (h1 : execLinkCtl id s = .next t1) :
    State.onlyIn [.freeCtr, .regs, .fab, .tiles, .cleats, .sites, .lan, .cmds, .xlt, .ports, .boot, .fid, .unread, .out] s t1 := by
  unfold execLinkCtl at h1
  repeat' (first | with_reducible apply atUnit_only h1 | with_reducible apply whenever_only h1 | with_reducible apply next_only h1 | (dsimp only at h1) | split at h1 | (simp only [reduceCtorEq] at h1; done))
  all_goals
    repeat' (first
      | intro _
      | ((with_reducible apply Comp.sub_ok); exact rfl)
      | with_reducible apply State.onlyIn.refl
      | with_reducible assumption
      | with_reducible apply State.onlyIn.foldl
      | dsimp only
      | split
      | with_reducible apply State.onlyIn.step (State.unwait_only _ _)
      | with_reducible apply State.onlyIn.step (State.waitSeize_only _ _)
      | with_reducible apply State.onlyIn.step (State.doLinkCtl_only _ _)
      | with_reducible apply State.cmdBody_onlyStep)

theorem State.sendReport_only (s : State) (r : Run) (x2 : List DvaAcc) :
    State.onlyIn [.freeCtr, .regs, .fab, .sites, .cmds, .xlt, .ports, .boot, .unread, .out] s (State.sendReport s r x2) := by
  induction x2 generalizing s r with
  | nil =>
    rw [State.sendReport]
    repeat' (first
      | intro _
      | ((with_reducible apply Comp.sub_ok); exact rfl)
      | with_reducible apply State.onlyIn.refl
      | with_reducible assumption
      | with_reducible apply State.onlyIn.foldl
      | with_reducible apply State.onlyIn.foldl2
      | dsimp only
      | (split <;> first | (rename_i heq; have hx := congrArg (fun z => z.2) heq; dsimp only at hx; subst hx) | (rename_i heq; have hx := congrArg (fun z => z.2.2) heq; dsimp only at hx; subst hx) | skip)
      | split
      | with_reducible apply State.onlyIn.step (State.sendAcc_only _ _ _)
      | with_reducible apply State.onlyIn.step (State.xltFaultLoose_only _ _ _ _ _ _)
      | with_reducible apply State.onlyIn.step (State.translate_only _ _ _ _ _)
      | with_reducible apply State.onlyIn.step (State.finish_only _ _ _ _)
      | with_reducible refine .trans ?_ (ih _ _))
  | cons a r ih =>
    rw [State.sendReport]
    repeat' (first
      | intro _
      | ((with_reducible apply Comp.sub_ok); exact rfl)
      | with_reducible apply State.onlyIn.refl
      | with_reducible assumption
      | with_reducible apply State.onlyIn.foldl
      | with_reducible apply State.onlyIn.foldl2
      | dsimp only
      | (split <;> first | (rename_i heq; have hx := congrArg (fun z => z.2) heq; dsimp only at hx; subst hx) | (rename_i heq; have hx := congrArg (fun z => z.2.2) heq; dsimp only at hx; subst hx) | skip)
      | split
      | with_reducible apply State.onlyIn.step (State.sendAcc_only _ _ _)
      | with_reducible apply State.onlyIn.step (State.xltFaultLoose_only _ _ _ _ _ _)
      | with_reducible apply State.onlyIn.step (State.translate_only _ _ _ _ _)
      | with_reducible apply State.onlyIn.step (State.finish_only _ _ _ _)
      | with_reducible refine .trans ?_ (ih _ _))

theorem State.doAttest_only (s : State) (r : Run) :
    State.onlyIn [.freeCtr, .regs, .fab, .sites, .cmds, .xlt, .ports, .boot, .unread, .out] s (State.doAttest s r) := by
  unfold State.doAttest
  repeat' (first
    | intro _
    | ((with_reducible apply Comp.sub_ok); exact rfl)
    | with_reducible apply State.onlyIn.refl
    | with_reducible assumption
    | with_reducible apply State.onlyIn.foldl
    | with_reducible apply State.onlyIn.foldl2
    | dsimp only
    | (split <;> first | (rename_i heq; have hx := congrArg (fun z => z.2) heq; dsimp only at hx; subst hx) | (rename_i heq; have hx := congrArg (fun z => z.2.2) heq; dsimp only at hx; subst hx) | skip)
    | split
    | with_reducible apply State.onlyIn.step (State.sendReport_only _ _ _)
    | with_reducible apply State.onlyIn.step (State.runSvc_only _ _)
    | with_reducible apply State.onlyIn.step (State.finish_only _ _ _ _)
    | with_reducible apply State.onlyIn.step (State.bump_only _)
    | with_reducible apply State.onlyIn.step (State.setRun_only _ _))

theorem execAttest_only {id : Nat} {s : State} {t1 : State} (h1 : execAttest id s = .next t1) :
    State.onlyIn [.freeCtr, .regs, .fab, .sites, .cmds, .xlt, .ports, .boot, .unread, .out] s t1 := by
  unfold execAttest at h1
  repeat' (first | with_reducible apply atUnit_only h1 | with_reducible apply whenever_only h1 | with_reducible apply next_only h1 | (dsimp only at h1) | split at h1 | (simp only [reduceCtorEq] at h1; done))
  all_goals
    repeat' (first
      | intro _
      | ((with_reducible apply Comp.sub_ok); exact rfl)
      | with_reducible apply State.onlyIn.refl
      | with_reducible assumption
      | with_reducible apply State.onlyIn.foldl
      | dsimp only
      | split
      | with_reducible apply State.onlyIn.step (State.doAttest_only _ _)
      | with_reducible apply State.cmdBody_onlyStep)

end Sys2Proof.Machine
end

