-- ==== Sys2Proof/Laws/OnlyLinkAttest.lean ====
section
/-! SUPPORT. What each operation of Machine/LinkAttest.lean can change: the parts of the state outside the list are as before. -/

set_option linter.all false

namespace Sys2Proof.Machine

theorem State.beginAttest_only (s : State) (l : Nat) (theirs : BitVec 256) :
    State.onlyIn [.freeCtr, .lan, .out] s (State.beginAttest s l theirs) := by
  unfold State.beginAttest
  repeat' (first
    | intro _
    | ((with_reducible apply Comp.sub_ok); exact rfl)
    | with_reducible apply State.onlyIn.refl
    | with_reducible assumption
    | with_reducible apply State.onlyIn.foldl
    | dsimp only
    | split
    | with_reducible apply State.onlyIn.step (State.modLink_only _ _ _)
    | with_reducible apply State.onlyIn.step (State.bump_only _)
    | with_reducible apply State.onlyIn.step (State.pushOut_only _ _))

theorem State.reportLink_only (s : State) (l : Nat) :
    State.onlyIn [.freeCtr, .lan, .out] s (State.reportLink s l) := by
  unfold State.reportLink
  repeat' (first
    | intro _
    | ((with_reducible apply Comp.sub_ok); exact rfl)
    | with_reducible apply State.onlyIn.refl
    | with_reducible assumption
    | with_reducible apply State.onlyIn.foldl
    | dsimp only
    | split
    | with_reducible apply State.onlyIn.step (State.modLink_only _ _ _)
    | with_reducible apply State.onlyIn.step (State.bump_only _)
    | with_reducible apply State.onlyIn.step (State.pushOut_only _ _))

theorem State.reportLinks_only (s : State) :
    State.onlyIn [.freeCtr, .lan, .out] s (State.reportLinks s) := by
  unfold State.reportLinks
  repeat' (first
    | intro _
    | ((with_reducible apply Comp.sub_ok); exact rfl)
    | with_reducible apply State.onlyIn.refl
    | with_reducible assumption
    | with_reducible apply State.onlyIn.foldl
    | dsimp only
    | split
    | with_reducible apply State.onlyIn.step (State.reportLink_only _ _))

theorem State.linkTrained_only (s : State) (l : Nat) (lanes : Nat) (nonce : Option (BitVec 256)) :
    State.onlyIn [.freeCtr, .regs, .fab, .tiles, .cleats, .sites, .lan, .cmds, .xlt, .ports, .boot, .fid, .unread, .out] s (State.linkTrained s l lanes nonce) := by
  unfold State.linkTrained
  repeat' (first
    | intro _
    | ((with_reducible apply Comp.sub_ok); exact rfl)
    | with_reducible apply State.onlyIn.refl
    | with_reducible assumption
    | with_reducible apply State.onlyIn.foldl
    | dsimp only
    | split
    | with_reducible apply State.onlyIn.step (State.reportLink_only _ _)
    | with_reducible apply State.onlyIn.step (State.beginAttest_only _ _ _)
    | with_reducible apply State.onlyIn.step (State.trainFailed_only _ _)
    | with_reducible apply State.onlyIn.step (State.retireLink_only _ _ _)
    | with_reducible apply State.onlyIn.step (State.setLanes_only _ _ _)
    | with_reducible apply State.onlyIn.step (State.setLState_only _ _ _ _)
    | with_reducible apply State.onlyIn.step (State.modLink_only _ _ _))

theorem execLinkTrained_only {l : Fin 24} {lanes : BitVec 4} {nonce : Option (BitVec 256)} {s : State} {t1 : State} (h1 : execLinkTrained l lanes nonce s = .next t1) :
    State.onlyIn [.freeCtr, .regs, .fab, .tiles, .cleats, .sites, .lan, .cmds, .xlt, .ports, .boot, .fid, .unread, .out] s t1 := by
  unfold execLinkTrained at h1
  repeat' (first | with_reducible apply atUnit_only h1 | with_reducible apply whenever_only h1 | with_reducible apply next_only h1 | (dsimp only at h1) | split at h1 | (simp only [reduceCtorEq] at h1; done))
  all_goals
    repeat' (first
      | intro _
      | ((with_reducible apply Comp.sub_ok); exact rfl)
      | with_reducible apply State.onlyIn.refl
      | with_reducible assumption
      | with_reducible apply State.onlyIn.foldl
      | dsimp only
      | split
      | with_reducible apply State.onlyIn.step (State.linkTrained_only _ _ _ _))

end Sys2Proof.Machine
end

