-- ==== Sys2Proof/Laws/OnlyPower.lean ====
section
/-! SUPPORT. What each operation of Machine/Power.lean can change: the parts of the state outside the list are as before. -/

set_option linter.all false

namespace Sys2Proof.Machine

theorem State.siteLeaveReq_only (s : State) (k : Fin 8) (tag : CtlTag) (watts : Nat) (durUs : Nat) :
    State.onlyIn [.freeCtr, .regs, .hank, .sites, .cmds, .pwr, .ports, .fid, .out] s (State.siteLeaveReq s k tag watts durUs) := by
  unfold State.siteLeaveReq
  repeat' (first
    | intro _
    | ((with_reducible apply Comp.sub_ok); exact rfl)
    | with_reducible apply State.onlyIn.refl
    | with_reducible assumption
    | with_reducible apply State.onlyIn.foldl
    | dsimp only
    | split
    | with_reducible apply State.ctlGate_onlyStep
    | with_reducible apply State.onlyIn.step (State.askLeave_only _ _ _ _ _ _)
    | with_reducible apply State.onlyIn.step (State.answerMsg_only _ _ _ _))

theorem State.cmdLeaveReq_only (s : State) (id : Nat) :
    State.onlyIn [.freeCtr, .regs, .hank, .sites, .cmds, .pwr, .ports, .fid, .out] s (State.cmdLeaveReq s id) := by
  unfold State.cmdLeaveReq
  repeat' (first
    | intro _
    | ((with_reducible apply Comp.sub_ok); exact rfl)
    | with_reducible apply State.onlyIn.refl
    | with_reducible assumption
    | with_reducible apply State.onlyIn.foldl
    | dsimp only
    | split
    | with_reducible apply State.onlyIn.step (State.askLeave_only _ _ _ _ _ _))

theorem execLeaveReq_only {who : LeaveWho} {tag : CtlTag} {watts : BitVec 16} {durUs : BitVec 32} {s : State} {t1 : State} (h1 : execLeaveReq who tag watts durUs s = .next t1) :
    State.onlyIn [.freeCtr, .regs, .hank, .sites, .cmds, .pwr, .ports, .fid, .out] s t1 := by
  unfold execLeaveReq at h1
  repeat' (first | with_reducible apply atUnit_only h1 | with_reducible apply whenever_only h1 | with_reducible apply next_only h1 | (dsimp only at h1) | split at h1 | (simp only [reduceCtorEq] at h1; done))
  all_goals
    repeat' (first
      | intro _
      | ((with_reducible apply Comp.sub_ok); exact rfl)
      | with_reducible apply State.onlyIn.refl
      | with_reducible assumption
      | with_reducible apply State.onlyIn.foldl
      | dsimp only
      | split
      | with_reducible apply State.onlyIn.step (State.cmdLeaveReq_only _ _)
      | with_reducible apply State.onlyIn.step (State.siteLeaveReq_only _ _ _ _ _))

theorem State.queueTimeout_only (s : State) :
    State.onlyIn [.freeCtr, .regs, .hank, .sites, .cmds, .pwr, .ports, .fid, .out] s (State.queueTimeout s) := by
  unfold State.queueTimeout
  repeat' (first
    | intro _
    | ((with_reducible apply Comp.sub_ok); exact rfl)
    | with_reducible apply State.onlyIn.refl
    | with_reducible assumption
    | (simp only [State.onlyIn.freeCtr (l := [.freeCtr, .regs, .hank, .sites, .cmds, .pwr, .ports, .fid, .out]) rfl, State.onlyIn.regs (l := [.freeCtr, .regs, .hank, .sites, .cmds, .pwr, .ports, .fid, .out]) rfl, State.onlyIn.sites (l := [.freeCtr, .regs, .hank, .sites, .cmds, .pwr, .ports, .fid, .out]) rfl, State.onlyIn.cmds (l := [.freeCtr, .regs, .hank, .sites, .cmds, .pwr, .ports, .fid, .out]) rfl, State.onlyIn.pwr (l := [.freeCtr, .regs, .hank, .sites, .cmds, .pwr, .ports, .fid, .out]) rfl, State.onlyIn.ports (l := [.freeCtr, .regs, .hank, .sites, .cmds, .pwr, .ports, .fid, .out]) rfl, State.onlyIn.fid (l := [.freeCtr, .regs, .hank, .sites, .cmds, .pwr, .ports, .fid, .out]) rfl, State.onlyIn.out (l := [.freeCtr, .regs, .hank, .sites, .cmds, .pwr, .ports, .fid, .out]) rfl])
    | with_reducible apply State.onlyIn.foldl
    | dsimp only
    | split
    | with_reducible apply State.onlyIn.step (State.decideQueue_only _ _)
    | with_reducible apply State.onlyIn.step (State.refuseLeave_only _ _)
    | with_reducible refine .hankRest ?_ (by rfl) ?_
    | (refine ⟨fun c hc => ?_⟩; cases c <;> first | rfl | exact absurd (by decide) hc))

theorem execLeaveQueueTimeout_only {s : State} {t1 : State} (h1 : execLeaveQueueTimeout s = .next t1) :
    State.onlyIn [.freeCtr, .regs, .hank, .sites, .cmds, .pwr, .ports, .fid, .out] s t1 := by
  unfold execLeaveQueueTimeout at h1
  repeat' (first | with_reducible apply atUnit_only h1 | with_reducible apply whenever_only h1 | with_reducible apply next_only h1 | (dsimp only at h1) | split at h1 | (simp only [reduceCtorEq] at h1; done))
  all_goals
    repeat' (first
      | intro _
      | ((with_reducible apply Comp.sub_ok); exact rfl)
      | with_reducible apply State.onlyIn.refl
      | with_reducible assumption
      | with_reducible apply State.onlyIn.foldl
      | dsimp only
      | split
      | with_reducible apply State.onlyIn.step (State.queueTimeout_only _))

theorem execLeaveExpire_only {k : Fin 8} {s : State} {t1 : State} (h1 : execLeaveExpire k s = .next t1) :
    State.onlyIn [.freeCtr, .regs, .hank, .sites, .cmds, .pwr, .ports, .fid, .out] s t1 := by
  unfold execLeaveExpire at h1
  repeat' (first | with_reducible apply atUnit_only h1 | with_reducible apply whenever_only h1 | with_reducible apply next_only h1 | (dsimp only at h1) | split at h1 | (simp only [reduceCtorEq] at h1; done))
  all_goals
    repeat' (first
      | intro _
      | ((with_reducible apply Comp.sub_ok); exact rfl)
      | with_reducible apply State.onlyIn.refl
      | with_reducible assumption
      | with_reducible apply State.onlyIn.foldl
      | dsimp only
      | split
      | with_reducible apply State.onlyIn.step (State.returnLeave_only _ _))

theorem State.vdrop_only (s : State) (old : State) :
    State.onlyIn [.regs, .ports, .out] s (State.vdrop s old) := by
  unfold State.vdrop
  repeat' (first
    | intro _
    | ((with_reducible apply Comp.sub_ok); exact rfl)
    | with_reducible apply State.onlyIn.refl
    | with_reducible assumption
    | with_reducible apply State.onlyIn.foldl
    | dsimp only
    | split
    | with_reducible apply State.onlyIn.step (State.showRails_only _)
    | with_reducible apply State.onlyIn.step (State.ev_only _ _ _))

theorem State.pkgLower_only (s : State) :
    State.onlyIn [.pwr] s (State.pkgLower s) := by
  unfold State.pkgLower
  repeat' (first
    | intro _
    | ((with_reducible apply Comp.sub_ok); exact rfl)
    | with_reducible apply State.onlyIn.refl
    | with_reducible assumption
    | (simp only [State.onlyIn.pwr (l := [.pwr]) rfl])
    | with_reducible apply State.onlyIn.foldl
    | dsimp only
    | split
    | (refine ⟨fun c hc => ?_⟩; cases c <;> first | rfl | exact absurd (by decide) hc))

theorem State.drawSample_only (s : State) (watts : Nat) :
    State.onlyIn [.regs, .pwr, .ports, .out] s (State.drawSample s watts) := by
  unfold State.drawSample
  repeat' (first
    | intro _
    | ((with_reducible apply Comp.sub_ok); exact rfl)
    | with_reducible apply State.onlyIn.refl
    | with_reducible assumption
    | (simp only [State.onlyIn.regs (l := [.regs, .pwr, .ports, .out]) rfl, State.onlyIn.pwr (l := [.regs, .pwr, .ports, .out]) rfl, State.onlyIn.ports (l := [.regs, .pwr, .ports, .out]) rfl, State.onlyIn.out (l := [.regs, .pwr, .ports, .out]) rfl])
    | with_reducible apply State.onlyIn.foldl
    | dsimp only
    | split
    | with_reducible apply State.onlyIn.step (State.pkgLower_only _)
    | with_reducible apply State.onlyIn.step (State.vdrop_only _ _)
    | with_reducible apply State.onlyIn.step (State.updGates_only _)
    | with_reducible apply State.onlyIn.step (State.fset_only _ _ _ _ _)
    | (refine ⟨fun c hc => ?_⟩; cases c <;> first | rfl | exact absurd (by decide) hc))

theorem execPackageDrawSample_only {watts : BitVec 12} {s : State} {t1 : State} (h1 : execPackageDrawSample watts s = .next t1) :
    State.onlyIn [.regs, .pwr, .ports, .out] s t1 := by
  unfold execPackageDrawSample at h1
  repeat' (first | with_reducible apply atUnit_only h1 | with_reducible apply whenever_only h1 | with_reducible apply next_only h1 | (dsimp only at h1) | split at h1 | (simp only [reduceCtorEq] at h1; done))
  all_goals
    repeat' (first
      | intro _
      | ((with_reducible apply Comp.sub_ok); exact rfl)
      | with_reducible apply State.onlyIn.refl
      | with_reducible assumption
      | with_reducible apply State.onlyIn.foldl
      | dsimp only
      | split
      | with_reducible apply State.onlyIn.step (State.drawSample_only _ _))

theorem State.junctionTemp_only (s : State) (h : Half) (t : Int) :
    State.onlyIn [.regs, .pwr, .ports, .out] s (State.junctionTemp s h t) := by
  unfold State.junctionTemp
  repeat' (first
    | intro _
    | ((with_reducible apply Comp.sub_ok); exact rfl)
    | with_reducible apply State.onlyIn.refl
    | with_reducible assumption
    | (simp only [State.onlyIn.regs (l := [.regs, .pwr, .ports, .out]) rfl, State.onlyIn.pwr (l := [.regs, .pwr, .ports, .out]) rfl, State.onlyIn.ports (l := [.regs, .pwr, .ports, .out]) rfl, State.onlyIn.out (l := [.regs, .pwr, .ports, .out]) rfl])
    | with_reducible apply State.onlyIn.foldl
    | dsimp only
    | split
    | with_reducible apply State.onlyIn.step (State.vdrop_only _ _)
    | with_reducible apply State.onlyIn.step (State.updGates_only _)
    | (refine ⟨fun c hc => ?_⟩; cases c <;> first | rfl | exact absurd (by decide) hc))

theorem execJunctionTempChange_only {h : Half} {temp : Int} {s : State} {t1 : State} (h1 : execJunctionTempChange h temp s = .next t1) :
    State.onlyIn [.regs, .pwr, .ports, .out] s t1 := by
  unfold execJunctionTempChange at h1
  repeat' (first | with_reducible apply atUnit_only h1 | with_reducible apply whenever_only h1 | with_reducible apply next_only h1 | (dsimp only at h1) | split at h1 | (simp only [reduceCtorEq] at h1; done))
  all_goals
    repeat' (first
      | intro _
      | ((with_reducible apply Comp.sub_ok); exact rfl)
      | with_reducible apply State.onlyIn.refl
      | with_reducible assumption
      | with_reducible apply State.onlyIn.foldl
      | dsimp only
      | split
      | with_reducible apply State.onlyIn.step (State.junctionTemp_only _ _ _))

theorem execStackTemperatureThrottle_only {k : Fin 8} {temp : BitVec 8} {s : State} {t1 : State} (h1 : execStackTemperatureThrottle k temp s = .next t1) :
    State.onlyIn [.regs, .pwr, .ports, .out] s t1 := by
  unfold execStackTemperatureThrottle at h1
  repeat' (first | with_reducible apply atUnit_only h1 | with_reducible apply whenever_only h1 | with_reducible apply next_only h1 | (dsimp only at h1) | split at h1 | (simp only [reduceCtorEq] at h1; done))
  all_goals
    repeat' (first
      | intro _
      | ((with_reducible apply Comp.sub_ok); exact rfl)
      | with_reducible apply State.onlyIn.refl
      | with_reducible assumption
      | with_reducible apply State.onlyIn.foldl
      | dsimp only
      | split
      | with_reducible apply State.onlyIn.step (State.stackHeat_only _ _ _))

theorem State.pkgBack_only (s : State) :
    State.onlyIn [.pwr] s (State.pkgBack s) := by
  unfold State.pkgBack
  repeat' (first
    | intro _
    | ((with_reducible apply Comp.sub_ok); exact rfl)
    | with_reducible apply State.onlyIn.refl
    | with_reducible assumption
    | (simp only [State.onlyIn.pwr (l := [.pwr]) rfl])
    | with_reducible apply State.onlyIn.foldl
    | dsimp only
    | split
    | (refine ⟨fun c hc => ?_⟩; cases c <;> first | rfl | exact absurd (by decide) hc))

theorem State.junBack_only (s : State) :
    State.onlyIn [.pwr] s (State.junBack s) := by
  unfold State.junBack
  repeat' (first
    | intro _
    | ((with_reducible apply Comp.sub_ok); exact rfl)
    | with_reducible apply State.onlyIn.refl
    | with_reducible assumption
    | (simp only [State.onlyIn.pwr (l := [.pwr]) rfl])
    | with_reducible apply State.onlyIn.foldl
    | dsimp only
    | split
    | (refine ⟨fun c hc => ?_⟩; cases c <;> first | rfl | exact absurd (by decide) hc))

theorem State.stkBack_only (s : State) :
    State.onlyIn [.pwr] s (State.stkBack s) := by
  unfold State.stkBack
  repeat' (first
    | intro _
    | ((with_reducible apply Comp.sub_ok); exact rfl)
    | with_reducible apply State.onlyIn.refl
    | with_reducible assumption
    | (simp only [State.onlyIn.pwr (l := [.pwr]) rfl])
    | with_reducible apply State.onlyIn.foldl
    | dsimp only
    | split
    | (refine ⟨fun c hc => ?_⟩; cases c <;> first | rfl | exact absurd (by decide) hc))

theorem execThrottleReleaseStep_only {s : State} {t1 : State} (h1 : execThrottleReleaseStep s = .next t1) :
    State.onlyIn [.regs, .pwr, .ports, .out] s t1 := by
  unfold execThrottleReleaseStep at h1
  repeat' (first | with_reducible apply atUnit_only h1 | with_reducible apply whenever_only h1 | with_reducible apply next_only h1 | (dsimp only at h1) | split at h1 | (simp only [reduceCtorEq] at h1; done))
  all_goals
    repeat' (first
      | intro _
      | ((with_reducible apply Comp.sub_ok); exact rfl)
      | with_reducible apply State.onlyIn.refl
      | with_reducible assumption
      | with_reducible apply State.onlyIn.foldl
      | dsimp only
      | split
      | with_reducible apply State.onlyIn.step (State.stkBack_only _)
      | with_reducible apply State.onlyIn.step (State.junBack_only _)
      | with_reducible apply State.onlyIn.step (State.pkgBack_only _)
      | with_reducible apply State.onlyIn.step (State.showRails_only _)
      | with_reducible apply State.onlyIn.step (State.updGates_only _))

theorem State.writeLimit_only (s : State) (v : Nat) :
    State.onlyIn [.freeCtr, .regs, .hank, .sites, .cmds, .pwr, .ports, .fid, .out] s (State.writeLimit s v) := by
  unfold State.writeLimit
  repeat' (first
    | intro _
    | ((with_reducible apply Comp.sub_ok); exact rfl)
    | with_reducible apply State.onlyIn.refl
    | with_reducible assumption
    | with_reducible apply State.onlyIn.foldl
    | dsimp only
    | split
    | with_reducible apply State.onlyIn.step (State.decideQueue_only _ _)
    | with_reducible apply State.onlyIn.step (State.ev_only _ _ _)
    | with_reducible apply State.onlyIn.step (State.fset_only _ _ _ _ _))

theorem execPwrLimitWrite_only {path : Path} {w : W32} {s : State} {t1 : State} (h1 : execPwrLimitWrite path w s = .next t1) :
    State.onlyIn [.freeCtr, .regs, .hank, .sites, .cmds, .pwr, .ports, .fid, .out] s t1 := by
  unfold execPwrLimitWrite at h1
  repeat' (first | with_reducible apply atUnit_only h1 | with_reducible apply whenever_only h1 | with_reducible apply next_only h1 | (dsimp only at h1) | split at h1 | (simp only [reduceCtorEq] at h1; done))
  all_goals
    repeat' (first
      | intro _
      | ((with_reducible apply Comp.sub_ok); exact rfl)
      | with_reducible apply State.onlyIn.refl
      | with_reducible assumption
      | with_reducible apply State.onlyIn.foldl
      | dsimp only
      | split
      | with_reducible apply State.onlyIn.step (State.writeLimit_only _ _)
      | with_reducible apply State.regWrite_onlyStep)

theorem State.writePbase_only (s : State) (p : Nat) (v : Nat) :
    State.onlyIn [.freeCtr, .regs, .hank, .sites, .cmds, .pwr, .sec, .ports, .fid, .out] s (State.writePbase s p v) := by
  unfold State.writePbase
  repeat' (first
    | intro _
    | ((with_reducible apply Comp.sub_ok); exact rfl)
    | with_reducible apply State.onlyIn.refl
    | with_reducible assumption
    | with_reducible apply State.onlyIn.foldl
    | dsimp only
    | split
    | with_reducible apply State.onlyIn.step (State.tdiError_only _ _)
    | with_reducible apply State.onlyIn.step (State.decideQueue_only _ _)
    | with_reducible apply State.onlyIn.step (State.disarm_only _)
    | with_reducible apply State.onlyIn.step (State.ev_only _ _ _)
    | with_reducible apply State.onlyIn.step (State.fset_only _ _ _ _ _))

theorem execPwrPbaseWrite_only {p : Fin 8} {path : Path} {w : W32} {s : State} {t1 : State} (h1 : execPwrPbaseWrite p path w s = .next t1) :
    State.onlyIn [.freeCtr, .regs, .hank, .sites, .cmds, .pwr, .sec, .ports, .fid, .out] s t1 := by
  unfold execPwrPbaseWrite at h1
  repeat' (first | with_reducible apply atUnit_only h1 | with_reducible apply whenever_only h1 | with_reducible apply next_only h1 | (dsimp only at h1) | split at h1 | (simp only [reduceCtorEq] at h1; done))
  all_goals
    repeat' (first
      | intro _
      | ((with_reducible apply Comp.sub_ok); exact rfl)
      | with_reducible apply State.onlyIn.refl
      | with_reducible assumption
      | with_reducible apply State.onlyIn.foldl
      | dsimp only
      | split
      | with_reducible apply State.onlyIn.step (State.writePbase_only _ _ _)
      | with_reducible apply State.regWrite_onlyStep)

theorem State.writePwrConf_only (s : State) (v : Nat) :
    State.onlyIn [.regs, .pwr, .ports, .out] s (State.writePwrConf s v) := by
  unfold State.writePwrConf
  repeat' (first
    | intro _
    | ((with_reducible apply Comp.sub_ok); exact rfl)
    | with_reducible apply State.onlyIn.refl
    | with_reducible assumption
    | (simp only [State.onlyIn.regs (l := [.regs, .pwr, .ports, .out]) rfl, State.onlyIn.pwr (l := [.regs, .pwr, .ports, .out]) rfl, State.onlyIn.ports (l := [.regs, .pwr, .ports, .out]) rfl, State.onlyIn.out (l := [.regs, .pwr, .ports, .out]) rfl])
    | with_reducible apply State.onlyIn.foldl
    | dsimp only
    | split
    | with_reducible apply State.onlyIn.step (State.applyV_only _)
    | with_reducible apply State.onlyIn.step (State.updGates_only _)
    | with_reducible apply State.onlyIn.step (State.fset_only _ _ _ _ _)
    | (refine ⟨fun c hc => ?_⟩; cases c <;> first | rfl | exact absurd (by decide) hc))

theorem execPwrConfWrite_only {path : Path} {w : W32} {s : State} {t1 : State} (h1 : execPwrConfWrite path w s = .next t1) :
    State.onlyIn [.regs, .pwr, .ports, .out] s t1 := by
  unfold execPwrConfWrite at h1
  repeat' (first | with_reducible apply atUnit_only h1 | with_reducible apply whenever_only h1 | with_reducible apply next_only h1 | (dsimp only at h1) | split at h1 | (simp only [reduceCtorEq] at h1; done))
  all_goals
    repeat' (first
      | intro _
      | ((with_reducible apply Comp.sub_ok); exact rfl)
      | with_reducible apply State.onlyIn.refl
      | with_reducible assumption
      | with_reducible apply State.onlyIn.foldl
      | dsimp only
      | split
      | with_reducible apply State.onlyIn.step (State.writePwrConf_only _ _)
      | with_reducible apply State.regWrite_onlyStep)

theorem State.writeTagmin_only (s : State) (path : Path) (n : Nat) (v : Nat) :
    State.onlyIn [.regs, .fab, .fid] s (State.writeTagmin s path n v) := by
  unfold State.writeTagmin
  repeat' (first
    | intro _
    | ((with_reducible apply Comp.sub_ok); exact rfl)
    | with_reducible apply State.onlyIn.refl
    | with_reducible assumption
    | with_reducible apply State.onlyIn.foldl
    | dsimp only
    | split
    | with_reducible apply State.onlyIn.step (State.regRefused_only _ _ _ _)
    | with_reducible apply State.onlyIn.step (State.pump_only _)
    | with_reducible apply State.onlyIn.step (State.disarm_only _)
    | with_reducible apply State.onlyIn.step (State.fset_only _ _ _ _ _))

theorem execHubTagminWrite_only {n : Fin 3} {path : Path} {w : W32} {s : State} {t1 : State} (h1 : execHubTagminWrite n path w s = .next t1) :
    State.onlyIn [.regs, .fab, .ports, .fid, .out] s t1 := by
  unfold execHubTagminWrite at h1
  repeat' (first | with_reducible apply atUnit_only h1 | with_reducible apply whenever_only h1 | with_reducible apply next_only h1 | (dsimp only at h1) | split at h1 | (simp only [reduceCtorEq] at h1; done))
  all_goals
    repeat' (first
      | intro _
      | ((with_reducible apply Comp.sub_ok); exact rfl)
      | with_reducible apply State.onlyIn.refl
      | with_reducible assumption
      | with_reducible apply State.onlyIn.foldl
      | dsimp only
      | split
      | with_reducible apply State.onlyIn.step (State.writeTagmin_only _ _ _ _)
      | with_reducible apply State.regWrite_onlyStep)

end Sys2Proof.Machine
end

