-- ==== Sys2Proof/Laws/OnlyHalfReset.lean ====
section
/-! SUPPORT. What each operation of Machine/HalfReset.lean can change: the parts of the state outside the list are as before. -/

set_option linter.all false

namespace Sys2Proof.Machine

theorem State.fresetBlk_only (s : State) (inst : Nat) (fs : List Fld) :
    State.onlyIn [.regs] s (State.fresetBlk s inst fs) := by
  unfold State.fresetBlk
  repeat' (first
    | intro _
    | ((with_reducible apply Comp.sub_ok); exact rfl)
    | with_reducible apply State.onlyIn.refl
    | with_reducible assumption
    | with_reducible apply State.onlyIn.foldl
    | dsimp only
    | split
    | with_reducible apply State.onlyIn.step (State.fset_only _ _ _ _ _))

theorem State.showOrg_only (s : State) :
    State.onlyIn [.regs] s (State.showOrg s) := by
  unfold State.showOrg
  repeat' (first
    | intro _
    | ((with_reducible apply Comp.sub_ok); exact rfl)
    | with_reducible apply State.onlyIn.refl
    | with_reducible assumption
    | with_reducible apply State.onlyIn.foldl
    | dsimp only
    | split
    | with_reducible apply State.onlyIn.step (State.fset_only _ _ _ _ _))

theorem State.fusedRegs_only (s : State) (old : State) :
    State.onlyIn [.regs] s (State.fusedRegs s old) := by
  unfold State.fusedRegs
  repeat' (first
    | intro _
    | ((with_reducible apply Comp.sub_ok); exact rfl)
    | with_reducible apply State.onlyIn.refl
    | with_reducible assumption
    | with_reducible apply State.onlyIn.foldl
    | dsimp only
    | split
    | with_reducible apply State.onlyIn.step (State.showRails_only _)
    | with_reducible apply State.onlyIn.step (State.fset_only _ _ _ _ _))

theorem State.afresh_only (s : State) :
    State.onlyIn [.pending, .fuse, .tally, .freeCtr, .regs, .fab, .mem, .hank, .tiles, .cleats, .sites, .lan, .cmds, .xlt, .pwr, .sec, .ports, .boot, .fid, .unread, .out] s (State.afresh s) := by
  unfold State.afresh
  repeat' (first
    | intro _
    | ((with_reducible apply Comp.sub_ok); exact rfl)
    | with_reducible apply State.onlyIn.refl
    | with_reducible assumption
    | (simp only [State.onlyIn.pending (l := [.pending, .fuse, .tally, .freeCtr, .regs, .fab, .mem, .hank, .tiles, .cleats, .sites, .lan, .cmds, .xlt, .pwr, .sec, .ports, .boot, .fid, .unread, .out]) rfl, State.onlyIn.fuse (l := [.pending, .fuse, .tally, .freeCtr, .regs, .fab, .mem, .hank, .tiles, .cleats, .sites, .lan, .cmds, .xlt, .pwr, .sec, .ports, .boot, .fid, .unread, .out]) rfl, State.onlyIn.tally (l := [.pending, .fuse, .tally, .freeCtr, .regs, .fab, .mem, .hank, .tiles, .cleats, .sites, .lan, .cmds, .xlt, .pwr, .sec, .ports, .boot, .fid, .unread, .out]) rfl, State.onlyIn.freeCtr (l := [.pending, .fuse, .tally, .freeCtr, .regs, .fab, .mem, .hank, .tiles, .cleats, .sites, .lan, .cmds, .xlt, .pwr, .sec, .ports, .boot, .fid, .unread, .out]) rfl, State.onlyIn.regs (l := [.pending, .fuse, .tally, .freeCtr, .regs, .fab, .mem, .hank, .tiles, .cleats, .sites, .lan, .cmds, .xlt, .pwr, .sec, .ports, .boot, .fid, .unread, .out]) rfl, State.onlyIn.fab (l := [.pending, .fuse, .tally, .freeCtr, .regs, .fab, .mem, .hank, .tiles, .cleats, .sites, .lan, .cmds, .xlt, .pwr, .sec, .ports, .boot, .fid, .unread, .out]) rfl, State.onlyIn.tiles (l := [.pending, .fuse, .tally, .freeCtr, .regs, .fab, .mem, .hank, .tiles, .cleats, .sites, .lan, .cmds, .xlt, .pwr, .sec, .ports, .boot, .fid, .unread, .out]) rfl, State.onlyIn.cleats (l := [.pending, .fuse, .tally, .freeCtr, .regs, .fab, .mem, .hank, .tiles, .cleats, .sites, .lan, .cmds, .xlt, .pwr, .sec, .ports, .boot, .fid, .unread, .out]) rfl, State.onlyIn.sites (l := [.pending, .fuse, .tally, .freeCtr, .regs, .fab, .mem, .hank, .tiles, .cleats, .sites, .lan, .cmds, .xlt, .pwr, .sec, .ports, .boot, .fid, .unread, .out]) rfl, State.onlyIn.lan (l := [.pending, .fuse, .tally, .freeCtr, .regs, .fab, .mem, .hank, .tiles, .cleats, .sites, .lan, .cmds, .xlt, .pwr, .sec, .ports, .boot, .fid, .unread, .out]) rfl, State.onlyIn.cmds (l := [.pending, .fuse, .tally, .freeCtr, .regs, .fab, .mem, .hank, .tiles, .cleats, .sites, .lan, .cmds, .xlt, .pwr, .sec, .ports, .boot, .fid, .unread, .out]) rfl, State.onlyIn.xlt (l := [.pending, .fuse, .tally, .freeCtr, .regs, .fab, .mem, .hank, .tiles, .cleats, .sites, .lan, .cmds, .xlt, .pwr, .sec, .ports, .boot, .fid, .unread, .out]) rfl, State.onlyIn.pwr (l := [.pending, .fuse, .tally, .freeCtr, .regs, .fab, .mem, .hank, .tiles, .cleats, .sites, .lan, .cmds, .xlt, .pwr, .sec, .ports, .boot, .fid, .unread, .out]) rfl, State.onlyIn.sec (l := [.pending, .fuse, .tally, .freeCtr, .regs, .fab, .mem, .hank, .tiles, .cleats, .sites, .lan, .cmds, .xlt, .pwr, .sec, .ports, .boot, .fid, .unread, .out]) rfl, State.onlyIn.ports (l := [.pending, .fuse, .tally, .freeCtr, .regs, .fab, .mem, .hank, .tiles, .cleats, .sites, .lan, .cmds, .xlt, .pwr, .sec, .ports, .boot, .fid, .unread, .out]) rfl, State.onlyIn.boot (l := [.pending, .fuse, .tally, .freeCtr, .regs, .fab, .mem, .hank, .tiles, .cleats, .sites, .lan, .cmds, .xlt, .pwr, .sec, .ports, .boot, .fid, .unread, .out]) rfl, State.onlyIn.fid (l := [.pending, .fuse, .tally, .freeCtr, .regs, .fab, .mem, .hank, .tiles, .cleats, .sites, .lan, .cmds, .xlt, .pwr, .sec, .ports, .boot, .fid, .unread, .out]) rfl, State.onlyIn.unread (l := [.pending, .fuse, .tally, .freeCtr, .regs, .fab, .mem, .hank, .tiles, .cleats, .sites, .lan, .cmds, .xlt, .pwr, .sec, .ports, .boot, .fid, .unread, .out]) rfl, State.onlyIn.out (l := [.pending, .fuse, .tally, .freeCtr, .regs, .fab, .mem, .hank, .tiles, .cleats, .sites, .lan, .cmds, .xlt, .pwr, .sec, .ports, .boot, .fid, .unread, .out]) rfl])
    | with_reducible apply State.onlyIn.foldl
    | dsimp only
    | split
    | with_reducible apply State.onlyIn.step (State.fusedRegs_only _ _)
    | with_reducible apply State.onlyIn.step (State.fset_only _ _ _ _ _)
    | with_reducible refine .hankRest ?_ (by rfl) ?_
    | with_reducible refine .hankAll ?_ ?_
    | (refine ⟨fun c hc => ?_⟩; cases c <;> first | rfl | exact absurd (by decide) hc))

theorem State.bootStop_only (s : State) (status : Nat) :
    State.onlyIn [.regs, .boot] s (State.bootStop s status) := by
  unfold State.bootStop
  repeat' (first
    | intro _
    | ((with_reducible apply Comp.sub_ok); exact rfl)
    | with_reducible apply State.onlyIn.refl
    | with_reducible assumption
    | (simp only [State.onlyIn.regs (l := [.regs, .boot]) rfl, State.onlyIn.boot (l := [.regs, .boot]) rfl])
    | with_reducible apply State.onlyIn.foldl
    | dsimp only
    | split
    | with_reducible apply State.onlyIn.step (State.fset_only _ _ _ _ _)
    | (refine ⟨fun c hc => ?_⟩; cases c <;> first | rfl | exact absurd (by decide) hc))

theorem State.activate_only (s : State) :
    State.onlyIn [.sec] s (State.activate s) := by
  unfold State.activate
  repeat' (first
    | intro _
    | ((with_reducible apply Comp.sub_ok); exact rfl)
    | with_reducible apply State.onlyIn.refl
    | with_reducible assumption
    | (simp only [State.onlyIn.sec (l := [.sec]) rfl])
    | with_reducible apply State.onlyIn.foldl
    | dsimp only
    | split
    | (refine ⟨fun c hc => ?_⟩; cases c <;> first | rfl | exact absurd (by decide) hc))

theorem State.loadSram_only (s : State) (h : Half) :
    State.onlyIn [.freeCtr, .boot] s (State.loadSram s h) := by
  unfold State.loadSram
  repeat' (first
    | intro _
    | ((with_reducible apply Comp.sub_ok); exact rfl)
    | with_reducible apply State.onlyIn.refl
    | with_reducible assumption
    | (simp only [State.onlyIn.freeCtr (l := [.freeCtr, .boot]) rfl, State.onlyIn.boot (l := [.freeCtr, .boot]) rfl])
    | with_reducible apply State.onlyIn.foldl
    | dsimp only
    | split
    | with_reducible apply State.onlyIn.step (State.bump_only _)
    | (refine ⟨fun c hc => ?_⟩; cases c <;> first | rfl | exact absurd (by decide) hc))

theorem State.runImage_only (s : State) (slot : Nat) (svn : Nat) :
    State.onlyIn [.freeCtr, .regs, .sec, .boot] s (State.runImage s slot svn) := by
  unfold State.runImage
  repeat' (first
    | intro _
    | ((with_reducible apply Comp.sub_ok); exact rfl)
    | with_reducible apply State.onlyIn.refl
    | with_reducible assumption
    | (simp only [State.onlyIn.freeCtr (l := [.freeCtr, .regs, .sec, .boot]) rfl, State.onlyIn.regs (l := [.freeCtr, .regs, .sec, .boot]) rfl, State.onlyIn.sec (l := [.freeCtr, .regs, .sec, .boot]) rfl, State.onlyIn.boot (l := [.freeCtr, .regs, .sec, .boot]) rfl])
    | with_reducible apply State.onlyIn.foldl
    | dsimp only
    | split
    | with_reducible apply State.onlyIn.step (State.loadSram_only _ _)
    | with_reducible apply State.onlyIn.step (State.fset_only _ _ _ _ _)
    | (refine ⟨fun c hc => ?_⟩; cases c <;> first | rfl | exact absurd (by decide) hc))

theorem State.loadFw_only (s : State) (e : BootEnv) :
    State.onlyIn [.freeCtr, .regs, .sec, .boot] s (State.loadFw s e) := by
  unfold State.loadFw
  repeat' (first
    | intro _
    | ((with_reducible apply Comp.sub_ok); exact rfl)
    | with_reducible apply State.onlyIn.refl
    | with_reducible assumption
    | with_reducible apply State.onlyIn.foldl
    | dsimp only
    | split
    | with_reducible apply State.onlyIn.step (State.runImage_only _ _ _)
    | with_reducible apply State.onlyIn.step (State.activate_only _)
    | with_reducible apply State.onlyIn.step (State.bootStop_only _ _))

theorem State.senseCooling_only (s : State) (e : BootEnv) :
    State.onlyIn [.regs, .boot] s (State.senseCooling s e) := by
  unfold State.senseCooling
  repeat' (first
    | intro _
    | ((with_reducible apply Comp.sub_ok); exact rfl)
    | with_reducible apply State.onlyIn.refl
    | with_reducible assumption
    | with_reducible apply State.onlyIn.foldl
    | dsimp only
    | split
    | with_reducible apply State.onlyIn.step (State.bootStop_only _ _)
    | with_reducible apply State.onlyIn.step (State.fset_only _ _ _ _ _))

theorem State.bootBegun_only (t : State) (e : BootEnv) :
    State.onlyIn [.sec, .boot] t (State.bootBegun t e) := by
  unfold State.bootBegun
  repeat' (first
    | intro _
    | ((with_reducible apply Comp.sub_ok); exact rfl)
    | with_reducible apply State.onlyIn.refl
    | with_reducible assumption
    | (simp only [State.onlyIn.sec (l := [.sec, .boot]) rfl, State.onlyIn.boot (l := [.sec, .boot]) rfl])
    | with_reducible apply State.onlyIn.foldl
    | dsimp only
    | split
    | (refine ⟨fun c hc => ?_⟩; cases c <;> first | rfl | exact absurd (by decide) hc))

theorem State.startBoot_only (s : State) (e : BootEnv) :
    State.onlyIn [.pending, .fuse, .tally, .freeCtr, .regs, .fab, .mem, .hank, .tiles, .cleats, .sites, .lan, .cmds, .xlt, .pwr, .sec, .ports, .boot, .fid, .unread, .out] s (State.startBoot s e) := by
  unfold State.startBoot
  repeat' (first
    | intro _
    | ((with_reducible apply Comp.sub_ok); exact rfl)
    | with_reducible apply State.onlyIn.refl
    | with_reducible assumption
    | with_reducible apply State.onlyIn.foldl
    | dsimp only
    | split
    | with_reducible apply State.onlyIn.step (State.bootBegun_only _ _)
    | with_reducible apply State.onlyIn.step (State.senseCooling_only _ _)
    | with_reducible apply State.onlyIn.step (State.loadFw_only _ _)
    | with_reducible apply State.onlyIn.step (State.bootStop_only _ _)
    | with_reducible apply State.onlyIn.step (State.afresh_only _)
    | with_reducible apply State.onlyIn.step (State.drawNonce_only _))

theorem State.deviceReset_only (s : State) :
    State.onlyIn [.pending, .fuse, .tally, .freeCtr, .regs, .fab, .mem, .hank, .tiles, .cleats, .sites, .lan, .cmds, .xlt, .pwr, .sec, .ports, .boot, .fid, .unread, .out] s (State.deviceReset s) := by
  unfold State.deviceReset
  repeat' (first
    | intro _
    | ((with_reducible apply Comp.sub_ok); exact rfl)
    | with_reducible apply State.onlyIn.refl
    | with_reducible assumption
    | with_reducible apply State.onlyIn.foldl
    | dsimp only
    | split
    | with_reducible apply State.onlyIn.step (State.startBoot_only _ _))

theorem State.saveSector_only (s : State) (planned : Bool) (h : Half) (sec : Nat) (d : BitVec 256) (mask : Nat) (poison : Bool) :
    State.onlyIn [.mem, .hank] s (State.saveSector s planned h sec d mask poison) := by
  unfold State.saveSector
  repeat' (first
    | intro _
    | ((with_reducible apply Comp.sub_ok); exact rfl)
    | with_reducible apply State.onlyIn.refl
    | with_reducible assumption
    | with_reducible apply State.onlyIn.foldl
    | dsimp only
    | split
    | with_reducible apply State.onlyIn.step (State.writeSec_only _ _ _ _ _)
    | with_reducible refine .hankRest ?_ (by rfl) ?_
    | with_reducible refine .hankAll ?_ ?_
    | (refine ⟨fun c hc => ?_⟩; cases c <;> first | rfl | exact absurd (by decide) hc))

theorem State.drainWrite_only (planned : Bool) (h : Half) (s : State) (p : Pkt) :
    State.onlyIn [.freeCtr, .regs, .mem, .hank, .sites, .cmds, .pwr, .ports, .fid, .unread, .out] s (State.drainWrite planned h s p) := by
  unfold State.drainWrite
  repeat' (first
    | intro _
    | ((with_reducible apply Comp.sub_ok); exact rfl)
    | with_reducible apply State.onlyIn.refl
    | with_reducible assumption
    | with_reducible apply State.onlyIn.foldl
    | with_reducible apply State.onlyIn.foldl2
    | dsimp only
    | (split <;> first | (rename_i heq; have hx := congrArg (fun z => z.2) heq; dsimp only at hx; subst hx) | (rename_i heq; have hx := congrArg (fun z => z.2.2) heq; dsimp only at hx; subst hx) | skip)
    | split
    | with_reducible apply State.onlyIn.step (State.saveSector_only _ _ _ _ _ _ _)
    | with_reducible apply State.onlyIn.step (State.lineWrite_only _ _ _))

theorem State.drainLine_only (planned : Bool) (h : Half) (s : State) (e : Nat × Line) :
    State.onlyIn [.mem, .hank] s (State.drainLine planned h s e) := by
  unfold State.drainLine
  repeat' (first
    | intro _
    | ((with_reducible apply Comp.sub_ok); exact rfl)
    | with_reducible apply State.onlyIn.refl
    | with_reducible assumption
    | with_reducible apply State.onlyIn.foldl
    | dsimp only
    | split
    | with_reducible apply State.onlyIn.step (State.saveSector_only _ _ _ _ _ _ _))

theorem State.drainHalf_only (s : State) (h : Half) (planned : Bool) :
    State.onlyIn [.freeCtr, .regs, .mem, .hank, .sites, .cmds, .pwr, .ports, .fid, .unread, .out] s (State.drainHalf s h planned) := by
  unfold State.drainHalf
  repeat' (first
    | intro _
    | ((with_reducible apply Comp.sub_ok); exact rfl)
    | with_reducible apply State.onlyIn.refl
    | with_reducible assumption
    | with_reducible apply State.onlyIn.foldl
    | dsimp only
    | split
    | with_reducible apply State.onlyIn.step (State.drainLine_only _ _ _ _)
    | with_reducible apply State.onlyIn.step (State.drainWrite_only _ _ _ _))

theorem State.dropFabric_only (s : State) (h : Half) :
    State.onlyIn [.fab, .hank, .tiles, .sites, .lan] s (State.dropFabric s h) := by
  unfold State.dropFabric
  repeat' (first
    | intro _
    | ((with_reducible apply Comp.sub_ok); exact rfl)
    | with_reducible apply State.onlyIn.refl
    | with_reducible assumption
    | (simp only [State.onlyIn.fab (l := [.fab, .hank, .tiles, .sites, .lan]) rfl, State.onlyIn.tiles (l := [.fab, .hank, .tiles, .sites, .lan]) rfl, State.onlyIn.sites (l := [.fab, .hank, .tiles, .sites, .lan]) rfl, State.onlyIn.lan (l := [.fab, .hank, .tiles, .sites, .lan]) rfl])
    | with_reducible apply State.onlyIn.foldl
    | dsimp only
    | split
    | with_reducible refine .hankRest ?_ (by rfl) ?_
    | (refine ⟨fun c hc => ?_⟩; cases c <;> first | rfl | exact absurd (by decide) hc))

theorem State.dropCleats_only (s : State) (h : Half) :
    State.onlyIn [.regs, .fab, .tiles, .cleats, .sites, .cmds, .xlt, .ports, .fid, .out] s (State.dropCleats s h) := by
  unfold State.dropCleats
  repeat' (first
    | intro _
    | ((with_reducible apply Comp.sub_ok); exact rfl)
    | with_reducible apply State.onlyIn.refl
    | with_reducible assumption
    | (simp only [State.onlyIn.regs (l := [.regs, .fab, .tiles, .cleats, .sites, .cmds, .xlt, .ports, .fid, .out]) rfl, State.onlyIn.fab (l := [.regs, .fab, .tiles, .cleats, .sites, .cmds, .xlt, .ports, .fid, .out]) rfl, State.onlyIn.tiles (l := [.regs, .fab, .tiles, .cleats, .sites, .cmds, .xlt, .ports, .fid, .out]) rfl, State.onlyIn.cleats (l := [.regs, .fab, .tiles, .cleats, .sites, .cmds, .xlt, .ports, .fid, .out]) rfl, State.onlyIn.sites (l := [.regs, .fab, .tiles, .cleats, .sites, .cmds, .xlt, .ports, .fid, .out]) rfl, State.onlyIn.cmds (l := [.regs, .fab, .tiles, .cleats, .sites, .cmds, .xlt, .ports, .fid, .out]) rfl, State.onlyIn.xlt (l := [.regs, .fab, .tiles, .cleats, .sites, .cmds, .xlt, .ports, .fid, .out]) rfl, State.onlyIn.ports (l := [.regs, .fab, .tiles, .cleats, .sites, .cmds, .xlt, .ports, .fid, .out]) rfl, State.onlyIn.fid (l := [.regs, .fab, .tiles, .cleats, .sites, .cmds, .xlt, .ports, .fid, .out]) rfl, State.onlyIn.out (l := [.regs, .fab, .tiles, .cleats, .sites, .cmds, .xlt, .ports, .fid, .out]) rfl])
    | with_reducible apply State.onlyIn.foldl
    | dsimp only
    | split
    | with_reducible apply State.onlyIn.step (State.incDone_only _ _ _)
    | with_reducible apply State.onlyIn.step (State.tileFault_only _ _ _ _ _)
    | with_reducible apply State.onlyIn.step (State.finish_only _ _ _ _)
    | with_reducible apply State.onlyIn.step (State.siteRsp_only _ _ _ _ _ _ _ _)
    | (refine ⟨fun c hc => ?_⟩; cases c <;> first | rfl | exact absurd (by decide) hc))

theorem State.dropLinks_only (s : State) (h : Half) :
    State.onlyIn [.freeCtr, .regs, .fab, .tiles, .cleats, .sites, .lan, .cmds, .xlt, .ports, .boot, .fid, .unread, .out] s (State.dropLinks s h) := by
  unfold State.dropLinks
  repeat' (first
    | intro _
    | ((with_reducible apply Comp.sub_ok); exact rfl)
    | with_reducible apply State.onlyIn.refl
    | with_reducible assumption
    | (simp only [State.onlyIn.freeCtr (l := [.freeCtr, .regs, .fab, .tiles, .cleats, .sites, .lan, .cmds, .xlt, .ports, .boot, .fid, .unread, .out]) rfl, State.onlyIn.regs (l := [.freeCtr, .regs, .fab, .tiles, .cleats, .sites, .lan, .cmds, .xlt, .ports, .boot, .fid, .unread, .out]) rfl, State.onlyIn.fab (l := [.freeCtr, .regs, .fab, .tiles, .cleats, .sites, .lan, .cmds, .xlt, .ports, .boot, .fid, .unread, .out]) rfl, State.onlyIn.tiles (l := [.freeCtr, .regs, .fab, .tiles, .cleats, .sites, .lan, .cmds, .xlt, .ports, .boot, .fid, .unread, .out]) rfl, State.onlyIn.cleats (l := [.freeCtr, .regs, .fab, .tiles, .cleats, .sites, .lan, .cmds, .xlt, .ports, .boot, .fid, .unread, .out]) rfl, State.onlyIn.sites (l := [.freeCtr, .regs, .fab, .tiles, .cleats, .sites, .lan, .cmds, .xlt, .ports, .boot, .fid, .unread, .out]) rfl, State.onlyIn.lan (l := [.freeCtr, .regs, .fab, .tiles, .cleats, .sites, .lan, .cmds, .xlt, .ports, .boot, .fid, .unread, .out]) rfl, State.onlyIn.cmds (l := [.freeCtr, .regs, .fab, .tiles, .cleats, .sites, .lan, .cmds, .xlt, .ports, .boot, .fid, .unread, .out]) rfl, State.onlyIn.xlt (l := [.freeCtr, .regs, .fab, .tiles, .cleats, .sites, .lan, .cmds, .xlt, .ports, .boot, .fid, .unread, .out]) rfl, State.onlyIn.ports (l := [.freeCtr, .regs, .fab, .tiles, .cleats, .sites, .lan, .cmds, .xlt, .ports, .boot, .fid, .unread, .out]) rfl, State.onlyIn.boot (l := [.freeCtr, .regs, .fab, .tiles, .cleats, .sites, .lan, .cmds, .xlt, .ports, .boot, .fid, .unread, .out]) rfl, State.onlyIn.fid (l := [.freeCtr, .regs, .fab, .tiles, .cleats, .sites, .lan, .cmds, .xlt, .ports, .boot, .fid, .unread, .out]) rfl, State.onlyIn.unread (l := [.freeCtr, .regs, .fab, .tiles, .cleats, .sites, .lan, .cmds, .xlt, .ports, .boot, .fid, .unread, .out]) rfl, State.onlyIn.out (l := [.freeCtr, .regs, .fab, .tiles, .cleats, .sites, .lan, .cmds, .xlt, .ports, .boot, .fid, .unread, .out]) rfl])
    | with_reducible apply State.onlyIn.foldl
    | dsimp only
    | split
    | with_reducible apply State.onlyIn.step (State.sendHalfDown_only _ _)
    | with_reducible apply State.onlyIn.step (State.routesGo_only _)
    | with_reducible apply State.onlyIn.step (State.setLink_only _ _ _)
    | with_reducible apply State.onlyIn.step (State.fresetAll_only _ _ _ _)
    | (refine ⟨fun c hc => ?_⟩; cases c <;> first | rfl | exact absurd (by decide) hc))

theorem State.dropSite_only (s : State) (k : Nat) :
    State.onlyIn [.freeCtr, .regs, .fab, .hank, .cleats, .sites, .lan, .cmds, .xlt, .pwr, .sec, .ports, .fid, .out] s (State.dropSite s k) := by
  unfold State.dropSite
  repeat' (first
    | intro _
    | ((with_reducible apply Comp.sub_ok); exact rfl)
    | with_reducible apply State.onlyIn.refl
    | with_reducible assumption
    | with_reducible apply State.onlyIn.foldl
    | dsimp only
    | split
    | with_reducible apply State.onlyIn.step (State.fresetBlk_only _ _ _)
    | with_reducible apply State.onlyIn.step (State.failWorks_only _ _ _ _)
    | with_reducible apply State.onlyIn.step (State.dropSiteReqs_only _ _)
    | with_reducible apply State.onlyIn.step (State.dropSiteLeave_only _ _ _)
    | with_reducible apply State.onlyIn.step (State.setSiteState_only _ _ _)
    | with_reducible apply State.onlyIn.step (State.disarm_only _)
    | with_reducible apply State.onlyIn.step (State.setPart_only _ _ _)
    | with_reducible apply State.onlyIn.step (State.setSite_only _ _ _)
    | with_reducible apply State.onlyIn.step (State.fset_only _ _ _ _ _))

theorem State.haltGroups_only (s : State) (h : Half) :
    State.onlyIn [.freeCtr, .regs, .fab, .hank, .tiles, .cleats, .sites, .lan, .cmds, .xlt, .pwr, .ports, .boot, .fid, .unread, .out] s (State.haltGroups s h) := by
  unfold State.haltGroups
  repeat' (first
    | intro _
    | ((with_reducible apply Comp.sub_ok); exact rfl)
    | with_reducible apply State.onlyIn.refl
    | with_reducible assumption
    | with_reducible apply State.onlyIn.foldl
    | dsimp only
    | split
    | with_reducible apply State.onlyIn.step (State.haltRun_only _ _ _ _))

theorem State.forgetWindows_only (s : State) (p : Port) :
    State.onlyIn [.cmds, .ports] s (State.forgetWindows s p) := by
  unfold State.forgetWindows
  repeat' (first
    | intro _
    | ((with_reducible apply Comp.sub_ok); exact rfl)
    | with_reducible apply State.onlyIn.refl
    | with_reducible assumption
    | (simp only [State.onlyIn.cmds (l := [.cmds, .ports]) rfl, State.onlyIn.ports (l := [.cmds, .ports]) rfl])
    | with_reducible apply State.onlyIn.foldl
    | dsimp only
    | split
    | (refine ⟨fun c hc => ?_⟩; cases c <;> first | rfl | exact absurd (by decide) hc))

theorem State.dropWindows_only (s : State) (p : Port) :
    State.onlyIn [.freeCtr, .regs, .fab, .hank, .tiles, .cleats, .sites, .lan, .cmds, .xlt, .pwr, .ports, .boot, .fid, .unread, .out] s (State.dropWindows s p) := by
  unfold State.dropWindows
  repeat' (first
    | intro _
    | ((with_reducible apply Comp.sub_ok); exact rfl)
    | with_reducible apply State.onlyIn.refl
    | with_reducible assumption
    | with_reducible apply State.onlyIn.foldl
    | dsimp only
    | split
    | with_reducible apply State.onlyIn.step (State.forgetWindows_only _ _)
    | with_reducible apply State.onlyIn.step (State.fresetBlk_only _ _ _)
    | with_reducible apply State.onlyIn.step (State.haltRun_only _ _ _ _)
    | with_reducible apply State.onlyIn.step (State.setHeldAt_only _ _ _)
    | with_reducible apply State.onlyIn.step (State.unqueueLeave_only _ _ _)
    | with_reducible apply State.onlyIn.step (State.returnLeave_only _ _))

theorem State.clearCfg_only (s : State) (w : Win) :
    State.onlyIn [.regs, .sec, .ports] s (State.clearCfg s w) := by
  unfold State.clearCfg
  repeat' (first
    | intro _
    | ((with_reducible apply Comp.sub_ok); exact rfl)
    | with_reducible apply State.onlyIn.refl
    | with_reducible assumption
    | (simp only [State.onlyIn.regs (l := [.regs, .sec, .ports]) rfl, State.onlyIn.sec (l := [.regs, .sec, .ports]) rfl, State.onlyIn.ports (l := [.regs, .sec, .ports]) rfl])
    | with_reducible apply State.onlyIn.foldl
    | dsimp only
    | split
    | with_reducible apply State.onlyIn.step (State.resetCfg_only _ _)
    | with_reducible apply State.onlyIn.step (State.setTdi_only _ _ _)
    | with_reducible apply State.onlyIn.step (State.dropIde_only _ _)
    | (refine ⟨fun c hc => ?_⟩; cases c <;> first | rfl | exact absurd (by decide) hc))

theorem State.dropPort_only (s : State) (p : Port) :
    State.onlyIn [.freeCtr, .regs, .fab, .hank, .tiles, .cleats, .sites, .lan, .cmds, .xlt, .pwr, .sec, .ports, .boot, .fid, .unread, .out] s (State.dropPort s p) := by
  unfold State.dropPort
  repeat' (first
    | intro _
    | ((with_reducible apply Comp.sub_ok); exact rfl)
    | with_reducible apply State.onlyIn.refl
    | with_reducible assumption
    | with_reducible apply State.onlyIn.foldl
    | dsimp only
    | split
    | with_reducible apply State.onlyIn.step (State.clearCfg_only _ _)
    | with_reducible apply State.onlyIn.step (State.dropWindows_only _ _)
    | with_reducible apply State.onlyIn.step (State.linkGone_only _ _)
    | with_reducible apply State.onlyIn.step (State.freeSeizes_only _ _)
    | with_reducible apply State.onlyIn.step (State.pfDone_only _ _)
    | with_reducible apply State.onlyIn.step (State.evPci_only _ _)
    | with_reducible apply State.onlyIn.step (State.fadd_only _ _ _ _ _))

theorem State.dropRuns_only (s : State) (h : Half) :
    State.onlyIn [.freeCtr, .regs, .hank, .sites, .cmds, .pwr, .ports, .fid, .out] s (State.dropRuns s h) := by
  unfold State.dropRuns
  repeat' (first
    | intro _
    | ((with_reducible apply Comp.sub_ok); exact rfl)
    | with_reducible apply State.onlyIn.refl
    | with_reducible assumption
    | with_reducible apply State.onlyIn.foldl
    | dsimp only
    | split
    | with_reducible apply State.onlyIn.step (State.endMarch_only _ _ _)
    | with_reducible apply State.onlyIn.step (State.endMargin_only _ _))

theorem State.dropTiles_only (s : State) (h : Half) :
    State.onlyIn [.freeCtr, .regs, .fab, .tiles, .cleats, .sites, .lan, .cmds, .xlt, .ports, .boot, .fid, .unread, .out] s (State.dropTiles s h) := by
  unfold State.dropTiles
  repeat' (first
    | intro _
    | ((with_reducible apply Comp.sub_ok); exact rfl)
    | with_reducible apply State.onlyIn.refl
    | with_reducible assumption
    | with_reducible apply State.onlyIn.foldl
    | dsimp only
    | split
    | with_reducible apply State.onlyIn.step (State.wipeTile_only _ _))

theorem State.dropXlt_only (s : State) (h : Half) :
    State.onlyIn [.regs, .xlt, .ports, .out] s (State.dropXlt s h) := by
  unfold State.dropXlt
  repeat' (first
    | intro _
    | ((with_reducible apply Comp.sub_ok); exact rfl)
    | with_reducible apply State.onlyIn.refl
    | with_reducible assumption
    | (simp only [State.onlyIn.regs (l := [.regs, .xlt, .ports, .out]) rfl, State.onlyIn.xlt (l := [.regs, .xlt, .ports, .out]) rfl, State.onlyIn.ports (l := [.regs, .xlt, .ports, .out]) rfl, State.onlyIn.out (l := [.regs, .xlt, .ports, .out]) rfl])
    | with_reducible apply State.onlyIn.foldl
    | dsimp only
    | split
    | with_reducible apply State.onlyIn.step (State.dropHeld_only _ _)
    | (refine ⟨fun c hc => ?_⟩; cases c <;> first | rfl | exact absurd (by decide) hc))

theorem State.dropFid_only (s : State) (h : Half) :
    State.onlyIn [.regs, .fid] s (State.dropFid s h) := by
  unfold State.dropFid
  repeat' (first
    | intro _
    | ((with_reducible apply Comp.sub_ok); exact rfl)
    | with_reducible apply State.onlyIn.refl
    | with_reducible assumption
    | (simp only [State.onlyIn.regs (l := [.regs, .fid]) rfl, State.onlyIn.fid (l := [.regs, .fid]) rfl])
    | with_reducible apply State.onlyIn.foldl
    | dsimp only
    | split
    | with_reducible apply State.onlyIn.step (State.traceDrop_only _ _)
    | with_reducible apply State.onlyIn.step (State.fresetAll_only _ _ _ _)
    | (refine ⟨fun c hc => ?_⟩; cases c <;> first | rfl | exact absurd (by decide) hc))

theorem State.dropThrottles_only (s : State) (h : Half) :
    State.onlyIn [.pwr] s (State.dropThrottles s h) := by
  unfold State.dropThrottles
  repeat' (first
    | intro _
    | ((with_reducible apply Comp.sub_ok); exact rfl)
    | with_reducible apply State.onlyIn.refl
    | with_reducible assumption
    | (simp only [State.onlyIn.pwr (l := [.pwr]) rfl])
    | with_reducible apply State.onlyIn.foldl
    | dsimp only
    | split
    | (refine ⟨fun c hc => ?_⟩; cases c <;> first | rfl | exact absurd (by decide) hc))

theorem State.stopControl_only (s : State) :
    State.onlyIn [.hank, .cmds] s (State.stopControl s) := by
  unfold State.stopControl
  repeat' (first
    | intro _
    | ((with_reducible apply Comp.sub_ok); exact rfl)
    | with_reducible apply State.onlyIn.refl
    | with_reducible assumption
    | (simp only [State.onlyIn.cmds (l := [.hank, .cmds]) rfl])
    | with_reducible apply State.onlyIn.foldl
    | dsimp only
    | split
    | with_reducible apply State.onlyIn.step (State.setRun_only _ _)
    | with_reducible refine .hankRest ?_ (by rfl) ?_
    | (refine ⟨fun c hc => ?_⟩; cases c <;> first | rfl | exact absurd (by decide) hc))

theorem State.busyHeads_only (s : State) :
    State.onlyIn [.cmds] s (State.busyHeads s) := by
  unfold State.busyHeads
  repeat' (first
    | intro _
    | ((with_reducible apply Comp.sub_ok); exact rfl)
    | with_reducible apply State.onlyIn.refl
    | with_reducible assumption
    | with_reducible apply State.onlyIn.foldl
    | dsimp only
    | split
    | with_reducible apply State.onlyIn.step (State.completeHead_only _ _ _ _ _ _))

theorem State.coreGone_only (s : State) (h : Half) :
    State.onlyIn [.regs, .hank, .cmds, .sec, .fid] s (State.coreGone s h) := by
  unfold State.coreGone
  repeat' (first
    | intro _
    | ((with_reducible apply Comp.sub_ok); exact rfl)
    | with_reducible apply State.onlyIn.refl
    | with_reducible assumption
    | (simp only [State.onlyIn.regs (l := [.regs, .hank, .cmds, .sec, .fid]) rfl, State.onlyIn.cmds (l := [.regs, .hank, .cmds, .sec, .fid]) rfl, State.onlyIn.sec (l := [.regs, .hank, .cmds, .sec, .fid]) rfl, State.onlyIn.fid (l := [.regs, .hank, .cmds, .sec, .fid]) rfl])
    | with_reducible apply State.onlyIn.foldl
    | dsimp only
    | split
    | with_reducible apply State.onlyIn.step (State.busyHeads_only _)
    | with_reducible apply State.onlyIn.step (State.stopControl_only _)
    | with_reducible apply State.onlyIn.step (State.freeSeizes_only _ _)
    | with_reducible apply State.onlyIn.step (State.endSession_only _)
    | with_reducible refine .hankRest ?_ (by rfl) ?_
    | (refine ⟨fun c hc => ?_⟩; cases c <;> first | rfl | exact absurd (by decide) hc))

theorem State.markReset_only (s : State) (h : Half) (cause : Nat) :
    State.onlyIn [.regs] s (State.markReset s h cause) := by
  unfold State.markReset
  repeat' (first
    | intro _
    | ((with_reducible apply Comp.sub_ok); exact rfl)
    | with_reducible apply State.onlyIn.refl
    | with_reducible assumption
    | with_reducible apply State.onlyIn.foldl
    | dsimp only
    | split
    | with_reducible apply State.onlyIn.step (State.fadd_only _ _ _ _ _)
    | with_reducible apply State.onlyIn.step (State.fset_only _ _ _ _ _))

theorem State.dropGroups_only (s : State) (h : Half) :
    State.onlyIn [.boot] s (State.dropGroups s h) := by
  unfold State.dropGroups
  repeat' (first
    | intro _
    | ((with_reducible apply Comp.sub_ok); exact rfl)
    | with_reducible apply State.onlyIn.refl
    | with_reducible assumption
    | (simp only [State.onlyIn.boot (l := [.boot]) rfl])
    | with_reducible apply State.onlyIn.foldl
    | dsimp only
    | split
    | (refine ⟨fun c hc => ?_⟩; cases c <;> first | rfl | exact absurd (by decide) hc))

theorem State.takeDown_only (s : State) (h : Half) (planned : Bool) :
    State.onlyIn [.freeCtr, .regs, .fab, .mem, .hank, .tiles, .cleats, .sites, .lan, .cmds, .xlt, .pwr, .sec, .ports, .boot, .fid, .unread, .out] s (State.takeDown s h planned) := by
  unfold State.takeDown
  repeat' (first
    | intro _
    | ((with_reducible apply Comp.sub_ok); exact rfl)
    | with_reducible apply State.onlyIn.refl
    | with_reducible assumption
    | with_reducible apply State.onlyIn.foldl
    | dsimp only
    | split
    | with_reducible apply State.onlyIn.step (State.dropGroups_only _ _)
    | with_reducible apply State.onlyIn.step (State.coreGone_only _ _)
    | with_reducible apply State.onlyIn.step (State.dropThrottles_only _ _)
    | with_reducible apply State.onlyIn.step (State.dropFid_only _ _)
    | with_reducible apply State.onlyIn.step (State.dropXlt_only _ _)
    | with_reducible apply State.onlyIn.step (State.dropTiles_only _ _)
    | with_reducible apply State.onlyIn.step (State.dropRuns_only _ _)
    | with_reducible apply State.onlyIn.step (State.dropPort_only _ _)
    | with_reducible apply State.onlyIn.step (State.haltGroups_only _ _)
    | with_reducible apply State.onlyIn.step (State.dropSite_only _ _)
    | with_reducible apply State.onlyIn.step (State.dropLinks_only _ _)
    | with_reducible apply State.onlyIn.step (State.dropCleats_only _ _)
    | with_reducible apply State.onlyIn.step (State.dropFabric_only _ _)
    | with_reducible apply State.onlyIn.step (State.drainHalf_only _ _ _)
    | with_reducible apply State.onlyIn.step (State.closeSplice_only _ _))

theorem State.enterWarm_only (s : State) (h : Half) (cause : Nat) (planned : Bool) :
    State.onlyIn [.freeCtr, .regs, .fab, .mem, .hank, .tiles, .cleats, .sites, .lan, .cmds, .xlt, .pwr, .sec, .ports, .boot, .fid, .unread, .out] s (State.enterWarm s h cause planned) := by
  unfold State.enterWarm
  repeat' (first
    | intro _
    | ((with_reducible apply Comp.sub_ok); exact rfl)
    | with_reducible apply State.onlyIn.refl
    | with_reducible assumption
    | with_reducible apply State.onlyIn.foldl
    | dsimp only
    | split
    | with_reducible apply State.onlyIn.step (State.takeDown_only _ _ _)
    | with_reducible apply State.onlyIn.step (State.markReset_only _ _ _)
    | with_reducible apply State.onlyIn.step (State.showOrg_only _)
    | with_reducible apply State.onlyIn.step (State.decideQueue_only _ _)
    | with_reducible apply State.onlyIn.step (State.showRails_only _)
    | with_reducible apply State.onlyIn.step (State.updGates_only _)
    | with_reducible apply State.onlyIn.step (State.pump_only _)
    | with_reducible apply State.onlyIn.step (State.setHalf_only _ _ _))

theorem State.hold_only (s : State) (h : Half) (cause : Nat) :
    State.onlyIn [.regs, .boot] s (State.hold s h cause) := by
  unfold State.hold
  repeat' (first
    | intro _
    | ((with_reducible apply Comp.sub_ok); exact rfl)
    | with_reducible apply State.onlyIn.refl
    | with_reducible assumption
    | with_reducible apply State.onlyIn.foldl
    | dsimp only
    | split
    | with_reducible apply State.onlyIn.step (State.bootStop_only _ _)
    | with_reducible apply State.onlyIn.step (State.showOrg_only _)
    | with_reducible apply State.onlyIn.step (State.showRails_only _)
    | with_reducible apply State.onlyIn.step (State.setHalf_only _ _ _)
    | with_reducible apply State.onlyIn.step (State.fset_only _ _ _ _ _))

theorem State.resetRefused_only (s : State) :
    State.onlyIn [.regs] s (State.resetRefused s) := by
  unfold State.resetRefused
  repeat' (first
    | intro _
    | ((with_reducible apply Comp.sub_ok); exact rfl)
    | with_reducible apply State.onlyIn.refl
    | with_reducible assumption
    | with_reducible apply State.onlyIn.foldl
    | dsimp only
    | split
    | with_reducible apply State.onlyIn.step (State.fset_only _ _ _ _ _))

theorem State.startWarm_only (s : State) (h : Half) (cause : Nat) :
    State.onlyIn [.pending, .fuse, .tally, .freeCtr, .regs, .fab, .mem, .hank, .tiles, .cleats, .sites, .lan, .cmds, .xlt, .pwr, .sec, .ports, .boot, .fid, .unread, .out] s (State.startWarm s h cause) := by
  unfold State.startWarm
  repeat' (first
    | intro _
    | ((with_reducible apply Comp.sub_ok); exact rfl)
    | with_reducible apply State.onlyIn.refl
    | with_reducible assumption
    | with_reducible apply State.onlyIn.foldl
    | dsimp only
    | split
    | with_reducible apply State.onlyIn.step (State.resetRefused_only _)
    | with_reducible apply State.onlyIn.step (State.hold_only _ _ _)
    | with_reducible apply State.onlyIn.step (State.enterWarm_only _ _ _ _)
    | with_reducible apply State.onlyIn.step (State.deviceReset_only _)
    | with_reducible apply State.onlyIn.step (State.setHalf_only _ _ _))

theorem State.restartCore_only (s : State) (h : Half) :
    State.onlyIn [.pending, .fuse, .tally, .freeCtr, .regs, .fab, .mem, .hank, .tiles, .cleats, .sites, .lan, .cmds, .xlt, .pwr, .sec, .ports, .boot, .fid, .unread, .out] s (State.restartCore s h) := by
  unfold State.restartCore
  repeat' (first
    | intro _
    | ((with_reducible apply Comp.sub_ok); exact rfl)
    | with_reducible apply State.onlyIn.refl
    | with_reducible assumption
    | with_reducible apply State.onlyIn.foldl
    | dsimp only
    | split
    | with_reducible apply State.onlyIn.step (State.startWarm_only _ _ _)
    | with_reducible apply State.onlyIn.step (State.coreGone_only _ _)
    | with_reducible apply State.onlyIn.step (State.setHalf_only _ _ _)
    | with_reducible apply State.onlyIn.step (State.fadd_only _ _ _ _ _))

end Sys2Proof.Machine
end

