-- ==== Sys2Proof/Laws/OnlyBringup.lean ====
section
/-! SUPPORT. What each operation of Machine/Bringup.lean can change: the parts of the state outside the list are as before. -/

set_option linter.all false

namespace Sys2Proof.Machine

theorem State.rebuildRecord_only (s : State) :
    State.onlyIn [.regs, .boot] s (State.rebuildRecord s) := by
  unfold State.rebuildRecord
  repeat' (first
    | intro _
    | ((with_reducible apply Comp.sub_ok); exact rfl)
    | with_reducible apply State.onlyIn.refl
    | with_reducible assumption
    | (simp only [State.onlyIn.regs (l := [.regs, .boot]) rfl, State.onlyIn.boot (l := [.regs, .boot]) rfl])
    | with_reducible apply State.onlyIn.foldl
    | dsimp only
    | split
    | with_reducible apply State.onlyIn.step (State.fset_only _ _ _ _ _)
    | (refine ⟨fun c hc => ?_⟩; cases c <;> first | rfl | exact absurd (by decide) hc))

theorem State.replayRetired_only (s : State) (reserve : Nat) (chans : List Nat) :
    State.onlyIn [.regs, .hank] s (State.replayRetired s reserve chans) := by
  unfold State.replayRetired
  repeat' (first
    | intro _
    | ((with_reducible apply Comp.sub_ok); exact rfl)
    | with_reducible apply State.onlyIn.refl
    | with_reducible assumption
    | (simp only [State.onlyIn.regs (l := [.regs, .hank]) rfl])
    | with_reducible apply State.onlyIn.foldl
    | dsimp only
    | split
    | with_reducible apply State.onlyIn.step (State.retireNow_only _ _)
    | with_reducible apply State.onlyIn.step (State.fset_only _ _ _ _ _)
    | with_reducible refine .hankRest ?_ (by rfl) ?_
    | (refine ⟨fun c hc => ?_⟩; cases c <;> first | rfl | exact absurd (by decide) hc))

theorem State.startMemories_only (s : State) :
    State.onlyIn [.regs, .fab, .hank, .boot] s (State.startMemories s) := by
  unfold State.startMemories
  repeat' (first
    | intro _
    | ((with_reducible apply Comp.sub_ok); exact rfl)
    | with_reducible apply State.onlyIn.refl
    | with_reducible assumption
    | (simp only [State.onlyIn.regs (l := [.regs, .fab, .hank, .boot]) rfl, State.onlyIn.fab (l := [.regs, .fab, .hank, .boot]) rfl, State.onlyIn.boot (l := [.regs, .fab, .hank, .boot]) rfl])
    | with_reducible apply State.onlyIn.foldl
    | dsimp only
    | split
    | with_reducible apply State.onlyIn.step (State.replayRetired_only _ _ _)
    | with_reducible apply State.onlyIn.step (State.rebuildRecord_only _)
    | with_reducible refine .hankRest ?_ (by rfl) ?_
    | (refine ⟨fun c hc => ?_⟩; cases c <;> first | rfl | exact absurd (by decide) hc))

theorem State.softRepairs_only (s : State) (n : Nat) :
    State.onlyIn [.regs, .boot] s (State.softRepairs s n) := by
  unfold State.softRepairs
  repeat' (first
    | intro _
    | ((with_reducible apply Comp.sub_ok); exact rfl)
    | with_reducible apply State.onlyIn.refl
    | with_reducible assumption
    | with_reducible apply State.onlyIn.foldl
    | dsimp only
    | split
    | with_reducible apply State.onlyIn.step (State.addRepair_only _ _)
    | with_reducible apply State.onlyIn.step (State.fset_only _ _ _ _ _))

theorem State.testSplice_only (s : State) (f : StageFacts) :
    State.onlyIn [.freeCtr, .regs, .fab, .mem, .hank, .tiles, .cleats, .sites, .lan, .cmds, .xlt, .pwr, .sec, .ports, .boot, .fid, .unread, .out] s (State.testSplice s f) := by
  unfold State.testSplice
  repeat' (first
    | intro _
    | ((with_reducible apply Comp.sub_ok); exact rfl)
    | with_reducible apply State.onlyIn.refl
    | with_reducible assumption
    | with_reducible apply State.onlyIn.foldl
    | dsimp only
    | split
    | with_reducible apply State.onlyIn.step (State.hold_only _ _ _)
    | with_reducible apply State.onlyIn.step (State.takeDown_only _ _ _)
    | with_reducible apply State.onlyIn.step (State.fset_only _ _ _ _ _))

theorem State.toStage_only (s : State) (h : Half) (n : Nat) :
    State.onlyIn [.regs, .boot] s (State.toStage s h n) := by
  unfold State.toStage
  repeat' (first
    | intro _
    | ((with_reducible apply Comp.sub_ok); exact rfl)
    | with_reducible apply State.onlyIn.refl
    | with_reducible assumption
    | with_reducible apply State.onlyIn.foldl
    | dsimp only
    | split
    | with_reducible apply State.onlyIn.step (State.setHalf_only _ _ _)
    | with_reducible apply State.onlyIn.step (State.fset_only _ _ _ _ _))

theorem State.stageCore_only (s : State) (f : StageFacts) :
    State.onlyIn [.freeCtr, .regs, .sec, .boot] s (State.stageCore s f) := by
  unfold State.stageCore
  repeat' (first
    | intro _
    | ((with_reducible apply Comp.sub_ok); exact rfl)
    | with_reducible apply State.onlyIn.refl
    | with_reducible assumption
    | (simp only [State.onlyIn.freeCtr (l := [.freeCtr, .regs, .sec, .boot]) rfl, State.onlyIn.regs (l := [.freeCtr, .regs, .sec, .boot]) rfl, State.onlyIn.sec (l := [.freeCtr, .regs, .sec, .boot]) rfl, State.onlyIn.boot (l := [.freeCtr, .regs, .sec, .boot]) rfl])
    | with_reducible apply State.onlyIn.foldl
    | dsimp only
    | split
    | with_reducible apply State.onlyIn.step (State.toStage_only _ _ _)
    | with_reducible apply State.onlyIn.step (State.rebuildRecord_only _)
    | with_reducible apply State.onlyIn.step (State.hold_only _ _ _)
    | with_reducible apply State.onlyIn.step (State.loadSram_only _ _)
    | with_reducible apply State.onlyIn.step (State.bootStop_only _ _)
    | with_reducible apply State.onlyIn.step (State.setHalf_only _ _ _)
    | (refine ⟨fun c hc => ?_⟩; cases c <;> first | rfl | exact absurd (by decide) hc))

theorem State.stageFabric_only (s : State) (h : Half) (f : StageFacts) :
    State.onlyIn [.freeCtr, .regs, .fab, .mem, .hank, .tiles, .cleats, .sites, .lan, .cmds, .xlt, .pwr, .sec, .ports, .boot, .fid, .unread, .out] s (State.stageFabric s h f) := by
  unfold State.stageFabric
  repeat' (first
    | intro _
    | ((with_reducible apply Comp.sub_ok); exact rfl)
    | with_reducible apply State.onlyIn.refl
    | with_reducible assumption
    | with_reducible apply State.onlyIn.foldl
    | dsimp only
    | split
    | with_reducible apply State.onlyIn.step (State.toStage_only _ _ _)
    | with_reducible apply State.onlyIn.step (State.testSplice_only _ _)
    | with_reducible apply State.onlyIn.step (State.startMemories_only _)
    | with_reducible apply State.onlyIn.step (State.hold_only _ _ _)
    | with_reducible apply State.onlyIn.step (State.bootStop_only _ _)
    | with_reducible apply State.onlyIn.step (State.fset_only _ _ _ _ _))

theorem State.uncacheAll_only (s : State) (h : Half) (l : List Nat) :
    State.onlyIn [.regs, .fab, .ports, .boot, .unread, .out] s (State.uncacheAll s h l) := by
  unfold State.uncacheAll
  repeat' (first
    | intro _
    | ((with_reducible apply Comp.sub_ok); exact rfl)
    | with_reducible apply State.onlyIn.refl
    | with_reducible assumption
    | with_reducible apply State.onlyIn.foldl
    | dsimp only
    | split
    | with_reducible apply State.onlyIn.step (State.uncache_only _ _))

theorem State.showCap_only (s : State) :
    State.onlyIn [.regs] s (State.showCap s) := by
  unfold State.showCap
  repeat' (first
    | intro _
    | ((with_reducible apply Comp.sub_ok); exact rfl)
    | with_reducible apply State.onlyIn.refl
    | with_reducible assumption
    | with_reducible apply State.onlyIn.foldl
    | dsimp only
    | split
    | with_reducible apply State.onlyIn.step (State.fset_only _ _ _ _ _))

theorem State.startLinks_only (s : State) (h : Half) :
    State.onlyIn [.freeCtr, .regs, .fab, .tiles, .cleats, .sites, .lan, .cmds, .xlt, .ports, .boot, .fid, .unread, .out] s (State.startLinks s h) := by
  unfold State.startLinks
  repeat' (first
    | intro _
    | ((with_reducible apply Comp.sub_ok); exact rfl)
    | with_reducible apply State.onlyIn.refl
    | with_reducible assumption
    | with_reducible apply State.onlyIn.foldl
    | dsimp only
    | split
    | with_reducible apply State.onlyIn.step (State.applyTable_only _ _)
    | with_reducible apply State.onlyIn.step (State.startDomain_only _)
    | with_reducible apply State.onlyIn.step (State.fset_only _ _ _ _ _))

theorem State.stageMemories_only (s : State) (h : Half) (f : StageFacts) :
    State.onlyIn [.freeCtr, .regs, .fab, .hank, .tiles, .cleats, .sites, .lan, .cmds, .xlt, .ports, .boot, .fid, .unread, .out] s (State.stageMemories s h f) := by
  unfold State.stageMemories
  repeat' (first
    | intro _
    | ((with_reducible apply Comp.sub_ok); exact rfl)
    | with_reducible apply State.onlyIn.refl
    | with_reducible assumption
    | with_reducible apply State.onlyIn.foldl
    | dsimp only
    | split
    | with_reducible apply State.onlyIn.step (State.startLinks_only _ _)
    | with_reducible apply State.onlyIn.step (State.showCap_only _)
    | with_reducible apply State.onlyIn.step (State.uncacheAll_only _ _ _)
    | with_reducible apply State.onlyIn.step (State.toStage_only _ _ _)
    | with_reducible apply State.onlyIn.step (State.softRepairs_only _ _)
    | with_reducible apply State.onlyIn.step (State.replayRetired_only _ _ _)
    | with_reducible apply State.onlyIn.step (State.bootStop_only _ _)
    | with_reducible apply State.onlyIn.step (State.showOrg_only _)
    | with_reducible apply State.onlyIn.step (State.loadKey_only _ _)
    | with_reducible apply State.onlyIn.step (State.retireEvents_only _ _)
    | with_reducible apply State.onlyIn.step (State.addRepair_only _ _)
    | with_reducible apply State.onlyIn.step (State.fset_only _ _ _ _ _))

theorem State.stageLinks_only (s : State) (h : Half) :
    State.onlyIn [.regs, .boot] s (State.stageLinks s h) := by
  unfold State.stageLinks
  repeat' (first
    | intro _
    | ((with_reducible apply Comp.sub_ok); exact rfl)
    | with_reducible apply State.onlyIn.refl
    | with_reducible assumption
    | with_reducible apply State.onlyIn.foldl
    | dsimp only
    | split
    | with_reducible apply State.onlyIn.step (State.toStage_only _ _ _)
    | with_reducible apply State.onlyIn.step (State.fset_only _ _ _ _ _))

theorem State.testGroups_only (s : State) (h : Half) (pass : BitVec 24) :
    State.onlyIn [.regs, .boot] s (State.testGroups s h pass) := by
  unfold State.testGroups
  repeat' (first
    | intro _
    | ((with_reducible apply Comp.sub_ok); exact rfl)
    | with_reducible apply State.onlyIn.refl
    | with_reducible assumption
    | (simp only [State.onlyIn.regs (l := [.regs, .boot]) rfl, State.onlyIn.boot (l := [.regs, .boot]) rfl])
    | with_reducible apply State.onlyIn.foldl
    | dsimp only
    | split
    | with_reducible apply State.onlyIn.step (State.withdraw_only _ _)
    | (refine ⟨fun c hc => ?_⟩; cases c <;> first | rfl | exact absurd (by decide) hc))

theorem State.bootReady_only (s : State) :
    State.onlyIn [.fuse, .regs, .sec] s (State.bootReady s) := by
  unfold State.bootReady
  repeat' (first
    | intro _
    | ((with_reducible apply Comp.sub_ok); exact rfl)
    | with_reducible apply State.onlyIn.refl
    | with_reducible assumption
    | (simp only [State.onlyIn.fuse (l := [.fuse, .regs, .sec]) rfl, State.onlyIn.regs (l := [.fuse, .regs, .sec]) rfl, State.onlyIn.sec (l := [.fuse, .regs, .sec]) rfl])
    | with_reducible apply State.onlyIn.foldl
    | dsimp only
    | split
    | with_reducible apply State.onlyIn.step (State.fset_only _ _ _ _ _)
    | (refine ⟨fun c hc => ?_⟩; cases c <;> first | rfl | exact absurd (by decide) hc))

theorem State.stageTiles_only (s : State) (h : Half) (f : StageFacts) :
    State.onlyIn [.pending, .fuse, .tally, .freeCtr, .regs, .fab, .mem, .hank, .tiles, .cleats, .sites, .lan, .cmds, .xlt, .pwr, .sec, .ports, .boot, .fid, .unread, .out] s (State.stageTiles s h f) := by
  unfold State.stageTiles
  repeat' (first
    | intro _
    | ((with_reducible apply Comp.sub_ok); exact rfl)
    | with_reducible apply State.onlyIn.refl
    | with_reducible assumption
    | with_reducible apply State.onlyIn.foldl
    | dsimp only
    | split
    | with_reducible apply State.onlyIn.step (State.bootReady_only _)
    | with_reducible apply State.onlyIn.step (State.testGroups_only _ _ _)
    | with_reducible apply State.onlyIn.step (State.startWarm_only _ _ _)
    | with_reducible apply State.onlyIn.step (State.showOrg_only _)
    | with_reducible apply State.onlyIn.step (State.decideQueue_only _ _)
    | with_reducible apply State.onlyIn.step (State.showRails_only _)
    | with_reducible apply State.onlyIn.step (State.updGates_only _)
    | with_reducible apply State.onlyIn.step (State.setHalf_only _ _ _)
    | with_reducible apply State.onlyIn.step (State.fset_only _ _ _ _ _))

theorem State.coldStage_only (s : State) (h : Half) (f : StageFacts) :
    State.onlyIn [.pending, .fuse, .tally, .freeCtr, .regs, .fab, .mem, .hank, .tiles, .cleats, .sites, .lan, .cmds, .xlt, .pwr, .sec, .ports, .boot, .fid, .unread, .out] s (State.coldStage s h f) := by
  unfold State.coldStage
  repeat' (first
    | intro _
    | ((with_reducible apply Comp.sub_ok); exact rfl)
    | with_reducible apply State.onlyIn.refl
    | with_reducible assumption
    | with_reducible apply State.onlyIn.foldl
    | dsimp only
    | split
    | with_reducible apply State.onlyIn.step (State.stageTiles_only _ _ _)
    | with_reducible apply State.onlyIn.step (State.stageLinks_only _ _)
    | with_reducible apply State.onlyIn.step (State.stageMemories_only _ _ _)
    | with_reducible apply State.onlyIn.step (State.stageFabric_only _ _ _)
    | with_reducible apply State.onlyIn.step (State.stageCore_only _ _)
    | with_reducible apply State.onlyIn.step (State.fset_only _ _ _ _ _))

theorem State.poisonGranule_only (s : State) (h : Half) (g : Nat) :
    State.onlyIn [.hank] s (State.poisonGranule s h g) := by
  unfold State.poisonGranule
  repeat' (first
    | intro _
    | ((with_reducible apply Comp.sub_ok); exact rfl)
    | with_reducible apply State.onlyIn.refl
    | with_reducible assumption
    | with_reducible apply State.onlyIn.foldl
    | dsimp only
    | split
    | with_reducible refine .hankRest ?_ (by rfl) ?_
    | (refine ⟨fun c hc => ?_⟩; cases c <;> first | rfl | exact absurd (by decide) hc))

theorem State.settleMarked_only (s : State) (h : Half) :
    State.onlyIn [.regs, .mem, .hank] s (State.settleMarked s h) := by
  unfold State.settleMarked
  repeat' (first
    | intro _
    | ((with_reducible apply Comp.sub_ok); exact rfl)
    | with_reducible apply State.onlyIn.refl
    | with_reducible assumption
    | (simp only [State.onlyIn.regs (l := [.regs, .mem, .hank]) rfl])
    | with_reducible apply State.onlyIn.foldl
    | dsimp only
    | split
    | with_reducible apply State.onlyIn.step (State.poisonGranule_only _ _ _)
    | with_reducible apply State.onlyIn.step (State.queueFill_only _ _ _ _)
    | with_reducible apply State.onlyIn.step (State.fset_only _ _ _ _ _)
    | with_reducible refine .hankRest ?_ (by rfl) ?_
    | with_reducible refine .hankAll ?_ ?_
    | (refine ⟨fun c hc => ?_⟩; cases c <;> first | rfl | exact absurd (by decide) hc))

theorem State.failMoving_only (s : State) (c : Nat) (rest : List Nat) :
    State.onlyIn [.freeCtr, .regs, .hank, .sites, .cmds, .pwr, .ports, .boot, .fid, .unread, .out] s (State.failMoving s c rest) := by
  unfold State.failMoving
  repeat' (first
    | intro _
    | ((with_reducible apply Comp.sub_ok); exact rfl)
    | with_reducible apply State.onlyIn.refl
    | with_reducible assumption
    | with_reducible apply State.onlyIn.foldl
    | dsimp only
    | split
    | with_reducible apply State.onlyIn.step (State.retireDone_only _ _)
    | with_reducible apply State.onlyIn.step (State.switchChunk_only _ _ _)
    | with_reducible apply State.onlyIn.step (State.scramble_only _ _))

theorem State.failChannel_only (s : State) (c : Nat) :
    State.onlyIn [.freeCtr, .regs, .hank, .sites, .cmds, .pwr, .ports, .boot, .fid, .unread, .out] s (State.failChannel s c) := by
  unfold State.failChannel
  repeat' (first
    | intro _
    | ((with_reducible apply Comp.sub_ok); exact rfl)
    | with_reducible apply State.onlyIn.refl
    | with_reducible assumption
    | with_reducible apply State.onlyIn.foldl
    | dsimp only
    | split
    | with_reducible apply State.onlyIn.step (State.failMoving_only _ _ _)
    | with_reducible apply State.onlyIn.step (State.retireNow_only _ _)
    | with_reducible apply State.onlyIn.step (State.retireEvents_only _ _)
    | with_reducible apply State.onlyIn.step (State.addRepair_only _ _)
    | with_reducible apply State.onlyIn.step (State.scramble_only _ _)
    | with_reducible apply State.onlyIn.step (State.ev_only _ _ _)
    | with_reducible apply State.onlyIn.step (State.fset_only _ _ _ _ _))

theorem State.retrainHalf_only (s : State) (h : Half) :
    State.onlyIn [.freeCtr, .regs, .fab, .tiles, .cleats, .sites, .lan, .cmds, .xlt, .ports, .boot, .fid, .unread, .out] s (State.retrainHalf s h) := by
  unfold State.retrainHalf
  repeat' (first
    | intro _
    | ((with_reducible apply Comp.sub_ok); exact rfl)
    | with_reducible apply State.onlyIn.refl
    | with_reducible assumption
    | with_reducible apply State.onlyIn.foldl
    | dsimp only
    | split
    | with_reducible apply State.onlyIn.step (State.tryTrain_only _ _)
    | with_reducible apply State.onlyIn.step (State.fset_only _ _ _ _ _))

theorem State.warmMemories_only (s : State) (h : Half) (unplanned : Bool) (f : StageFacts) :
    State.onlyIn [.freeCtr, .regs, .fab, .mem, .hank, .tiles, .cleats, .sites, .lan, .cmds, .xlt, .pwr, .ports, .boot, .fid, .unread, .out] s (State.warmMemories s h unplanned f) := by
  unfold State.warmMemories
  repeat' (first
    | intro _
    | ((with_reducible apply Comp.sub_ok); exact rfl)
    | with_reducible apply State.onlyIn.refl
    | with_reducible assumption
    | with_reducible apply State.onlyIn.foldl
    | dsimp only
    | split
    | with_reducible apply State.onlyIn.step (State.retrainHalf_only _ _)
    | with_reducible apply State.onlyIn.step (State.failChannel_only _ _)
    | with_reducible apply State.onlyIn.step (State.settleMarked_only _ _)
    | with_reducible apply State.onlyIn.step (State.toStage_only _ _ _)
    | with_reducible apply State.onlyIn.step (State.softRepairs_only _ _)
    | with_reducible apply State.onlyIn.step (State.showOrg_only _)
    | with_reducible apply State.onlyIn.step (State.nextRetire_only _ _))

theorem State.warmStage_only (s : State) (h : Half) (unplanned : Bool) (f : StageFacts) :
    State.onlyIn [.pending, .fuse, .tally, .freeCtr, .regs, .fab, .mem, .hank, .tiles, .cleats, .sites, .lan, .cmds, .xlt, .pwr, .sec, .ports, .boot, .fid, .unread, .out] s (State.warmStage s h unplanned f) := by
  unfold State.warmStage
  repeat' (first
    | intro _
    | ((with_reducible apply Comp.sub_ok); exact rfl)
    | with_reducible apply State.onlyIn.refl
    | with_reducible assumption
    | with_reducible apply State.onlyIn.foldl
    | dsimp only
    | split
    | with_reducible apply State.onlyIn.step (State.warmMemories_only _ _ _ _)
    | with_reducible apply State.onlyIn.step (State.stageTiles_only _ _ _)
    | with_reducible apply State.onlyIn.step (State.toStage_only _ _ _)
    | with_reducible apply State.onlyIn.step (State.testSplice_only _ _)
    | with_reducible apply State.onlyIn.step (State.hold_only _ _ _)
    | with_reducible apply State.onlyIn.step (State.loadSram_only _ _)
    | with_reducible apply State.onlyIn.step (State.fset_only _ _ _ _ _))

theorem execBootStageDone_only {h : Half} {f : StageFacts} {s : State} {t1 : State} (h1 : execBootStageDone h f s = .next t1) :
    State.onlyIn [.pending, .fuse, .tally, .freeCtr, .regs, .fab, .mem, .hank, .tiles, .cleats, .sites, .lan, .cmds, .xlt, .pwr, .sec, .ports, .boot, .fid, .unread, .out] s t1 := by
  unfold execBootStageDone at h1
  repeat' (first | with_reducible apply atUnit_only h1 | with_reducible apply whenever_only h1 | with_reducible apply next_only h1 | (dsimp only at h1) | split at h1 | (simp only [reduceCtorEq] at h1; done))
  all_goals
    repeat' (first
      | intro _
      | ((with_reducible apply Comp.sub_ok); exact rfl)
      | with_reducible apply State.onlyIn.refl
      | with_reducible assumption
      | with_reducible apply State.onlyIn.foldl
      | dsimp only
      | split
      | with_reducible apply State.onlyIn.step (State.warmStage_only _ _ _ _)
      | with_reducible apply State.onlyIn.step (State.coldStage_only _ _ _))

theorem execColdBoot_only {env : BootEnv} {s : State} {t1 : State} (h1 : execColdBoot env s = .next t1) :
    State.onlyIn [.pending, .fuse, .tally, .freeCtr, .regs, .fab, .mem, .hank, .tiles, .cleats, .sites, .lan, .cmds, .xlt, .pwr, .sec, .ports, .boot, .fid, .unread, .out] s t1 := by
  unfold execColdBoot at h1
  repeat' (first | with_reducible apply atUnit_only h1 | with_reducible apply whenever_only h1 | with_reducible apply next_only h1 | (dsimp only at h1) | split at h1 | (simp only [reduceCtorEq] at h1; done))
  all_goals
    repeat' (first
      | intro _
      | ((with_reducible apply Comp.sub_ok); exact rfl)
      | with_reducible apply State.onlyIn.refl
      | with_reducible assumption
      | with_reducible apply State.onlyIn.foldl
      | dsimp only
      | split
      | with_reducible apply State.onlyIn.step (State.startBoot_only _ _))

theorem execEastLateTimeout_only {s : State} {t1 : State} (h1 : execEastLateTimeout s = .next t1) :
    State.onlyIn [.regs, .boot] s t1 := by
  unfold execEastLateTimeout at h1
  repeat' (first | with_reducible apply atUnit_only h1 | with_reducible apply whenever_only h1 | with_reducible apply next_only h1 | (dsimp only at h1) | split at h1 | (simp only [reduceCtorEq] at h1; done))
  all_goals
    repeat' (first
      | intro _
      | ((with_reducible apply Comp.sub_ok); exact rfl)
      | with_reducible apply State.onlyIn.refl
      | with_reducible assumption
      | with_reducible apply State.onlyIn.foldl
      | dsimp only
      | split
      | with_reducible apply State.onlyIn.step (State.hold_only _ _ _))

theorem execClockLockTimeout_only {h : Half} {s : State} {t1 : State} (h1 : execClockLockTimeout h s = .next t1) :
    State.onlyIn [.regs, .boot] s t1 := by
  unfold execClockLockTimeout at h1
  repeat' (first | with_reducible apply atUnit_only h1 | with_reducible apply whenever_only h1 | with_reducible apply next_only h1 | (dsimp only at h1) | split at h1 | (simp only [reduceCtorEq] at h1; done))
  all_goals
    repeat' (first
      | intro _
      | ((with_reducible apply Comp.sub_ok); exact rfl)
      | with_reducible apply State.onlyIn.refl
      | with_reducible assumption
      | with_reducible apply State.onlyIn.foldl
      | dsimp only
      | split
      | with_reducible apply State.onlyIn.step (State.hold_only _ _ _)
      | with_reducible apply State.onlyIn.step (State.bootStop_only _ _))

theorem State.startMarch_only (s : State) (k : Nat) (destructive : Bool) :
    State.onlyIn [.freeCtr, .regs, .hank, .sites, .cmds, .pwr, .ports, .fid, .out] s (State.startMarch s k destructive) := by
  unfold State.startMarch
  repeat' (first
    | intro _
    | ((with_reducible apply Comp.sub_ok); exact rfl)
    | with_reducible apply State.onlyIn.refl
    | with_reducible assumption
    | with_reducible apply State.onlyIn.foldl
    | dsimp only
    | split
    | with_reducible apply State.onlyIn.step (State.askRun_only _ _ _)
    | with_reducible apply State.onlyIn.step (State.setSrun_only _ _ _)
    | with_reducible apply State.onlyIn.step (State.fresetAll_only _ _ _ _)
    | with_reducible apply State.onlyIn.step (State.fset_only _ _ _ _ _))

theorem State.writeMarch_only (s : State) (k : Nat) (w : Nat) :
    State.onlyIn [.freeCtr, .regs, .hank, .sites, .cmds, .pwr, .ports, .fid, .out] s (State.writeMarch s k w) := by
  unfold State.writeMarch
  repeat' (first
    | intro _
    | ((with_reducible apply Comp.sub_ok); exact rfl)
    | with_reducible apply State.onlyIn.refl
    | with_reducible assumption
    | with_reducible apply State.onlyIn.foldl
    | dsimp only
    | split
    | with_reducible apply State.onlyIn.step (State.startMarch_only _ _ _)
    | with_reducible apply State.onlyIn.step (State.fset_only _ _ _ _ _))

theorem execMarchStart_only {k : Fin 8} {path : Path} {w : W32} {s : State} {t1 : State} (h1 : execMarchStart k path w s = .next t1) :
    State.onlyIn [.freeCtr, .regs, .hank, .sites, .cmds, .pwr, .ports, .fid, .out] s t1 := by
  unfold execMarchStart at h1
  repeat' (first | with_reducible apply atUnit_only h1 | with_reducible apply whenever_only h1 | with_reducible apply next_only h1 | (dsimp only at h1) | split at h1 | (simp only [reduceCtorEq] at h1; done))
  all_goals
    repeat' (first
      | intro _
      | ((with_reducible apply Comp.sub_ok); exact rfl)
      | with_reducible apply State.onlyIn.refl
      | with_reducible assumption
      | with_reducible apply State.onlyIn.foldl
      | dsimp only
      | split
      | with_reducible apply State.onlyIn.step (State.writeMarch_only _ _ _)
      | with_reducible apply State.regWrite_onlyStep)

theorem State.rowFailed_only (s : State) (k : Nat) (ch : Nat) (spare : Bool) :
    State.onlyIn [.freeCtr, .regs, .hank, .sites, .cmds, .pwr, .ports, .boot, .fid, .unread, .out] s (State.rowFailed s k ch spare) := by
  unfold State.rowFailed
  repeat' (first
    | intro _
    | ((with_reducible apply Comp.sub_ok); exact rfl)
    | with_reducible apply State.onlyIn.refl
    | with_reducible assumption
    | with_reducible apply State.onlyIn.foldl
    | dsimp only
    | split
    | with_reducible apply State.onlyIn.step (State.bucketAdd_only _ _ _)
    | with_reducible apply State.onlyIn.step (State.addRepair_only _ _)
    | with_reducible apply State.onlyIn.step (State.fadd_only _ _ _ _ _)
    | with_reducible apply State.onlyIn.step (State.fset_only _ _ _ _ _))

theorem execPreserveRowTest_only {k : Fin 8} {ch : Fin 128} {ok : Bool} {spareFree : Bool} {s : State} {t1 : State} (h1 : execPreserveRowTest k ch ok spareFree s = .next t1) :
    State.onlyIn [.freeCtr, .regs, .hank, .sites, .cmds, .pwr, .ports, .boot, .fid, .unread, .out] s t1 := by
  unfold execPreserveRowTest at h1
  repeat' (first | with_reducible apply atUnit_only h1 | with_reducible apply whenever_only h1 | with_reducible apply next_only h1 | (dsimp only at h1) | split at h1 | (simp only [reduceCtorEq] at h1; done))
  all_goals
    repeat' (first
      | intro _
      | ((with_reducible apply Comp.sub_ok); exact rfl)
      | with_reducible apply State.onlyIn.refl
      | with_reducible assumption
      | with_reducible apply State.onlyIn.foldl
      | dsimp only
      | split
      | with_reducible apply State.onlyIn.step (State.rowFailed_only _ _ _ _))

theorem State.marchRetire_only (k : Nat) (s : State) (c : Nat) :
    State.onlyIn [.freeCtr, .regs, .hank, .ports, .boot, .unread, .out] s (State.marchRetire k s c) := by
  unfold State.marchRetire
  repeat' (first
    | intro _
    | ((with_reducible apply Comp.sub_ok); exact rfl)
    | with_reducible apply State.onlyIn.refl
    | with_reducible assumption
    | with_reducible apply State.onlyIn.foldl
    | dsimp only
    | split
    | with_reducible apply State.onlyIn.step (State.retireNow_only _ _)
    | with_reducible apply State.onlyIn.step (State.retireEvents_only _ _)
    | with_reducible apply State.onlyIn.step (State.addRepair_only _ _)
    | with_reducible apply State.onlyIn.step (State.ev_only _ _ _)
    | with_reducible apply State.onlyIn.step (State.fadd_only _ _ _ _ _)
    | with_reducible apply State.onlyIn.step (State.fset_only _ _ _ _ _))

theorem State.destructiveDone_only (s : State) (k : Nat) (failRows : Nat) (failed : List Nat) :
    State.onlyIn [.freeCtr, .regs, .hank, .ports, .boot, .unread, .out] s (State.destructiveDone s k failRows failed) := by
  unfold State.destructiveDone
  repeat' (first
    | intro _
    | ((with_reducible apply Comp.sub_ok); exact rfl)
    | with_reducible apply State.onlyIn.refl
    | with_reducible assumption
    | with_reducible apply State.onlyIn.foldl
    | dsimp only
    | split
    | with_reducible apply State.onlyIn.step (State.marchRetire_only _ _ _)
    | with_reducible apply State.onlyIn.step (State.queueFill_only _ _ _ _)
    | with_reducible apply State.onlyIn.step (State.fset_only _ _ _ _ _))

theorem execMarchDone_only {k : Fin 8} {failRows : BitVec 16} {failedCh : List (Fin 128)} {s : State} {t1 : State} (h1 : execMarchDone k failRows failedCh s = .next t1) :
    State.onlyIn [.freeCtr, .regs, .hank, .sites, .cmds, .pwr, .ports, .boot, .fid, .unread, .out] s t1 := by
  unfold execMarchDone at h1
  repeat' (first | with_reducible apply atUnit_only h1 | with_reducible apply whenever_only h1 | with_reducible apply next_only h1 | (dsimp only at h1) | split at h1 | (simp only [reduceCtorEq] at h1; done))
  all_goals
    repeat' (first
      | intro _
      | ((with_reducible apply Comp.sub_ok); exact rfl)
      | with_reducible apply State.onlyIn.refl
      | with_reducible assumption
      | with_reducible apply State.onlyIn.foldl
      | dsimp only
      | split
      | with_reducible apply State.onlyIn.step (State.destructiveDone_only _ _ _ _)
      | with_reducible apply State.onlyIn.step (State.endMarch_only _ _ _)
      | with_reducible apply State.onlyIn.step (State.fset_only _ _ _ _ _))

theorem execWatchdogExpire_only {h : Half} {s : State} {t1 : State} (h1 : execWatchdogExpire h s = .next t1) :
    State.onlyIn [.pending, .fuse, .tally, .freeCtr, .regs, .fab, .mem, .hank, .tiles, .cleats, .sites, .lan, .cmds, .xlt, .pwr, .sec, .ports, .boot, .fid, .unread, .out] s t1 := by
  unfold execWatchdogExpire at h1
  repeat' (first | with_reducible apply atUnit_only h1 | with_reducible apply whenever_only h1 | with_reducible apply next_only h1 | (dsimp only at h1) | split at h1 | (simp only [reduceCtorEq] at h1; done))
  all_goals
    repeat' (first
      | intro _
      | ((with_reducible apply Comp.sub_ok); exact rfl)
      | with_reducible apply State.onlyIn.refl
      | with_reducible assumption
      | with_reducible apply State.onlyIn.foldl
      | dsimp only
      | split
      | with_reducible apply State.onlyIn.step (State.restartCore_only _ _))

theorem execMgmtSramUecc_only {h : Half} {s : State} {t1 : State} (h1 : execMgmtSramUecc h s = .next t1) :
    State.onlyIn [.pending, .fuse, .tally, .freeCtr, .regs, .fab, .mem, .hank, .tiles, .cleats, .sites, .lan, .cmds, .xlt, .pwr, .sec, .ports, .boot, .fid, .unread, .out] s t1 := by
  unfold execMgmtSramUecc at h1
  repeat' (first | with_reducible apply atUnit_only h1 | with_reducible apply whenever_only h1 | with_reducible apply next_only h1 | (dsimp only at h1) | split at h1 | (simp only [reduceCtorEq] at h1; done))
  all_goals
    repeat' (first
      | intro _
      | ((with_reducible apply Comp.sub_ok); exact rfl)
      | with_reducible apply State.onlyIn.refl
      | with_reducible assumption
      | with_reducible apply State.onlyIn.foldl
      | dsimp only
      | split
      | with_reducible apply State.onlyIn.step (State.restartCore_only _ _))

theorem State.coreBack_only (s : State) (h : Half) :
    State.onlyIn [.freeCtr, .regs, .fab, .tiles, .cleats, .sites, .lan, .cmds, .xlt, .ports, .boot, .fid, .unread, .out] s (State.coreBack s h) := by
  unfold State.coreBack
  repeat' (first
    | intro _
    | ((with_reducible apply Comp.sub_ok); exact rfl)
    | with_reducible apply State.onlyIn.refl
    | with_reducible assumption
    | with_reducible apply State.onlyIn.foldl
    | dsimp only
    | split
    | with_reducible apply State.onlyIn.step (State.loadSram_only _ _)
    | with_reducible apply State.onlyIn.step (State.reportLinks_only _)
    | with_reducible apply State.onlyIn.step (State.applyTable_only _ _)
    | with_reducible apply State.onlyIn.step (State.setHalf_only _ _ _))

theorem execCoreRestartDone_only {h : Half} {s : State} {t1 : State} (h1 : execCoreRestartDone h s = .next t1) :
    State.onlyIn [.freeCtr, .regs, .fab, .tiles, .cleats, .sites, .lan, .cmds, .xlt, .ports, .boot, .fid, .unread, .out] s t1 := by
  unfold execCoreRestartDone at h1
  repeat' (first | with_reducible apply atUnit_only h1 | with_reducible apply whenever_only h1 | with_reducible apply next_only h1 | (dsimp only at h1) | split at h1 | (simp only [reduceCtorEq] at h1; done))
  all_goals
    repeat' (first
      | intro _
      | ((with_reducible apply Comp.sub_ok); exact rfl)
      | with_reducible apply State.onlyIn.refl
      | with_reducible assumption
      | with_reducible apply State.onlyIn.foldl
      | dsimp only
      | split
      | with_reducible apply State.onlyIn.step (State.coreBack_only _ _))

theorem State.writeHalfrst_only (s : State) (w : Nat) :
    State.onlyIn [.pending, .fuse, .tally, .freeCtr, .regs, .fab, .mem, .hank, .tiles, .cleats, .sites, .lan, .cmds, .xlt, .pwr, .sec, .ports, .boot, .fid, .unread, .out] s (State.writeHalfrst s w) := by
  unfold State.writeHalfrst
  repeat' (first
    | intro _
    | ((with_reducible apply Comp.sub_ok); exact rfl)
    | with_reducible apply State.onlyIn.refl
    | with_reducible assumption
    | with_reducible apply State.onlyIn.foldl
    | dsimp only
    | split
    | with_reducible apply State.onlyIn.step (State.startWarm_only _ _ _)
    | with_reducible apply State.onlyIn.step (State.fset_only _ _ _ _ _))

theorem execHubHalfrstWrite_only {path : Path} {w : W32} {s : State} {t1 : State} (h1 : execHubHalfrstWrite path w s = .next t1) :
    State.onlyIn [.pending, .fuse, .tally, .freeCtr, .regs, .fab, .mem, .hank, .tiles, .cleats, .sites, .lan, .cmds, .xlt, .pwr, .sec, .ports, .boot, .fid, .unread, .out] s t1 := by
  unfold execHubHalfrstWrite at h1
  repeat' (first | with_reducible apply atUnit_only h1 | with_reducible apply whenever_only h1 | with_reducible apply next_only h1 | (dsimp only at h1) | split at h1 | (simp only [reduceCtorEq] at h1; done))
  all_goals
    repeat' (first
      | intro _
      | ((with_reducible apply Comp.sub_ok); exact rfl)
      | with_reducible apply State.onlyIn.refl
      | with_reducible assumption
      | with_reducible apply State.onlyIn.foldl
      | dsimp only
      | split
      | with_reducible apply State.onlyIn.step (State.writeHalfrst_only _ _)
      | with_reducible apply State.regWrite_onlyStep)

theorem execMemclkLoss_only {h : Half} {s : State} {t1 : State} (h1 : execMemclkLoss h s = .next t1) :
    State.onlyIn [.pending, .fuse, .tally, .freeCtr, .regs, .fab, .mem, .hank, .tiles, .cleats, .sites, .lan, .cmds, .xlt, .pwr, .sec, .ports, .boot, .fid, .unread, .out] s t1 := by
  unfold execMemclkLoss at h1
  repeat' (first | with_reducible apply atUnit_only h1 | with_reducible apply whenever_only h1 | with_reducible apply next_only h1 | (dsimp only at h1) | split at h1 | (simp only [reduceCtorEq] at h1; done))
  all_goals
    repeat' (first
      | intro _
      | ((with_reducible apply Comp.sub_ok); exact rfl)
      | with_reducible apply State.onlyIn.refl
      | with_reducible assumption
      | with_reducible apply State.onlyIn.foldl
      | dsimp only
      | split
      | with_reducible apply State.onlyIn.step (State.startWarm_only _ _ _))

theorem execHalfUnresponsive_only {h : Half} {s : State} {t1 : State} (h1 : execHalfUnresponsive h s = .next t1) :
    State.onlyIn [.pending, .fuse, .tally, .freeCtr, .regs, .fab, .mem, .hank, .tiles, .cleats, .sites, .lan, .cmds, .xlt, .pwr, .sec, .ports, .boot, .fid, .unread, .out] s t1 := by
  unfold execHalfUnresponsive at h1
  repeat' (first | with_reducible apply atUnit_only h1 | with_reducible apply whenever_only h1 | with_reducible apply next_only h1 | (dsimp only at h1) | split at h1 | (simp only [reduceCtorEq] at h1; done))
  all_goals
    repeat' (first
      | intro _
      | ((with_reducible apply Comp.sub_ok); exact rfl)
      | with_reducible apply State.onlyIn.refl
      | with_reducible assumption
      | with_reducible apply State.onlyIn.foldl
      | dsimp only
      | split
      | with_reducible apply State.onlyIn.step (State.startWarm_only _ _ _))

theorem execThermtrip_only {dram : Bool} {temp : Nat} {s : State} {t1 : State} (h1 : execThermtrip dram temp s = .next t1) :
    State.onlyIn [.boot] s t1 := by
  unfold execThermtrip at h1
  repeat' (first | with_reducible apply atUnit_only h1 | with_reducible apply whenever_only h1 | with_reducible apply next_only h1 | (dsimp only at h1) | split at h1 | (simp only [reduceCtorEq] at h1; done))
  all_goals
    repeat' (first
      | intro _
      | ((with_reducible apply Comp.sub_ok); exact rfl)
      | with_reducible apply State.onlyIn.refl
      | with_reducible assumption
      | (simp only [State.onlyIn.boot (l := [.boot]) rfl])
      | with_reducible apply State.onlyIn.foldl
      | dsimp only
      | split
      | (refine ⟨fun c hc => ?_⟩; cases c <;> first | rfl | exact absurd (by decide) hc))

theorem State.railsDown_only (t : State) :
    State.onlyIn [.ports, .boot] t (State.railsDown t) := by
  unfold State.railsDown
  repeat' (first
    | intro _
    | ((with_reducible apply Comp.sub_ok); exact rfl)
    | with_reducible apply State.onlyIn.refl
    | with_reducible assumption
    | (simp only [State.onlyIn.ports (l := [.ports, .boot]) rfl, State.onlyIn.boot (l := [.ports, .boot]) rfl])
    | with_reducible apply State.onlyIn.foldl
    | dsimp only
    | split
    | (refine ⟨fun c hc => ?_⟩; cases c <;> first | rfl | exact absurd (by decide) hc))

theorem execResetAssert_only {s : State} {t1 : State} (h1 : execResetAssert s = .next t1) :
    State.onlyIn [.pending, .fuse, .tally, .freeCtr, .regs, .fab, .mem, .hank, .tiles, .cleats, .sites, .lan, .cmds, .xlt, .pwr, .sec, .ports, .boot, .fid, .unread, .out] s t1 := by
  unfold execResetAssert at h1
  repeat' (first | with_reducible apply atUnit_only h1 | with_reducible apply whenever_only h1 | with_reducible apply next_only h1 | (dsimp only at h1) | split at h1 | (simp only [reduceCtorEq] at h1; done))
  all_goals
    repeat' (first
      | intro _
      | ((with_reducible apply Comp.sub_ok); exact rfl)
      | with_reducible apply State.onlyIn.refl
      | with_reducible assumption
      | with_reducible apply State.onlyIn.foldl
      | dsimp only
      | split
      | with_reducible apply State.onlyIn.step (State.railsDown_only _)
      | with_reducible apply State.onlyIn.step (State.afresh_only _))

theorem State.railFault_only (s : State) (r : Rail) :
    State.onlyIn [.pending, .fuse, .tally, .freeCtr, .regs, .fab, .mem, .hank, .tiles, .cleats, .sites, .lan, .cmds, .xlt, .pwr, .sec, .ports, .boot, .fid, .unread, .out] s (State.railFault s r) := by
  unfold State.railFault
  repeat' (first
    | intro _
    | ((with_reducible apply Comp.sub_ok); exact rfl)
    | with_reducible apply State.onlyIn.refl
    | with_reducible assumption
    | with_reducible apply State.onlyIn.foldl
    | dsimp only
    | split
    | with_reducible apply State.onlyIn.step (State.restartCore_only _ _)
    | with_reducible apply State.onlyIn.step (State.resetPort_only _ _)
    | with_reducible apply State.onlyIn.step (State.recoverLink_only _ _)
    | with_reducible apply State.onlyIn.step (State.sever_only _ _ _))

theorem execMainRailFault_only {r : Rail} {s : State} {t1 : State} (h1 : execMainRailFault r s = .next t1) :
    State.onlyIn [.pending, .fuse, .tally, .freeCtr, .regs, .fab, .mem, .hank, .tiles, .cleats, .sites, .lan, .cmds, .xlt, .pwr, .sec, .ports, .boot, .fid, .unread, .out] s t1 := by
  unfold execMainRailFault at h1
  repeat' (first | with_reducible apply atUnit_only h1 | with_reducible apply whenever_only h1 | with_reducible apply next_only h1 | (dsimp only at h1) | split at h1 | (simp only [reduceCtorEq] at h1; done))
  all_goals
    repeat' (first
      | intro _
      | ((with_reducible apply Comp.sub_ok); exact rfl)
      | with_reducible apply State.onlyIn.refl
      | with_reducible assumption
      | with_reducible apply State.onlyIn.foldl
      | dsimp only
      | split
      | with_reducible apply State.onlyIn.step (State.railFault_only _ _))

theorem execAlwaysOnRailUp_only {s : State} {t1 : State} (h1 : execAlwaysOnRailUp s = .next t1) :
    State.onlyIn [.pending, .fuse, .tally, .freeCtr, .regs, .fab, .mem, .hank, .tiles, .cleats, .sites, .lan, .cmds, .xlt, .pwr, .sec, .ports, .boot, .fid, .unread, .out] s t1 := by
  unfold execAlwaysOnRailUp at h1
  repeat' (first | with_reducible apply atUnit_only h1 | with_reducible apply whenever_only h1 | with_reducible apply next_only h1 | (dsimp only at h1) | split at h1 | (simp only [reduceCtorEq] at h1; done))
  all_goals
    repeat' (first
      | intro _
      | ((with_reducible apply Comp.sub_ok); exact rfl)
      | with_reducible apply State.onlyIn.refl
      | with_reducible assumption
      | (simp only [State.onlyIn.pending (l := [.pending, .fuse, .tally, .freeCtr, .regs, .fab, .mem, .hank, .tiles, .cleats, .sites, .lan, .cmds, .xlt, .pwr, .sec, .ports, .boot, .fid, .unread, .out]) rfl, State.onlyIn.fuse (l := [.pending, .fuse, .tally, .freeCtr, .regs, .fab, .mem, .hank, .tiles, .cleats, .sites, .lan, .cmds, .xlt, .pwr, .sec, .ports, .boot, .fid, .unread, .out]) rfl, State.onlyIn.tally (l := [.pending, .fuse, .tally, .freeCtr, .regs, .fab, .mem, .hank, .tiles, .cleats, .sites, .lan, .cmds, .xlt, .pwr, .sec, .ports, .boot, .fid, .unread, .out]) rfl, State.onlyIn.freeCtr (l := [.pending, .fuse, .tally, .freeCtr, .regs, .fab, .mem, .hank, .tiles, .cleats, .sites, .lan, .cmds, .xlt, .pwr, .sec, .ports, .boot, .fid, .unread, .out]) rfl, State.onlyIn.regs (l := [.pending, .fuse, .tally, .freeCtr, .regs, .fab, .mem, .hank, .tiles, .cleats, .sites, .lan, .cmds, .xlt, .pwr, .sec, .ports, .boot, .fid, .unread, .out]) rfl, State.onlyIn.fab (l := [.pending, .fuse, .tally, .freeCtr, .regs, .fab, .mem, .hank, .tiles, .cleats, .sites, .lan, .cmds, .xlt, .pwr, .sec, .ports, .boot, .fid, .unread, .out]) rfl, State.onlyIn.tiles (l := [.pending, .fuse, .tally, .freeCtr, .regs, .fab, .mem, .hank, .tiles, .cleats, .sites, .lan, .cmds, .xlt, .pwr, .sec, .ports, .boot, .fid, .unread, .out]) rfl, State.onlyIn.cleats (l := [.pending, .fuse, .tally, .freeCtr, .regs, .fab, .mem, .hank, .tiles, .cleats, .sites, .lan, .cmds, .xlt, .pwr, .sec, .ports, .boot, .fid, .unread, .out]) rfl, State.onlyIn.sites (l := [.pending, .fuse, .tally, .freeCtr, .regs, .fab, .mem, .hank, .tiles, .cleats, .sites, .lan, .cmds, .xlt, .pwr, .sec, .ports, .boot, .fid, .unread, .out]) rfl, State.onlyIn.lan (l := [.pending, .fuse, .tally, .freeCtr, .regs, .fab, .mem, .hank, .tiles, .cleats, .sites, .lan, .cmds, .xlt, .pwr, .sec, .ports, .boot, .fid, .unread, .out]) rfl, State.onlyIn.cmds (l := [.pending, .fuse, .tally, .freeCtr, .regs, .fab, .mem, .hank, .tiles, .cleats, .sites, .lan, .cmds, .xlt, .pwr, .sec, .ports, .boot, .fid, .unread, .out]) rfl, State.onlyIn.xlt (l := [.pending, .fuse, .tally, .freeCtr, .regs, .fab, .mem, .hank, .tiles, .cleats, .sites, .lan, .cmds, .xlt, .pwr, .sec, .ports, .boot, .fid, .unread, .out]) rfl, State.onlyIn.pwr (l := [.pending, .fuse, .tally, .freeCtr, .regs, .fab, .mem, .hank, .tiles, .cleats, .sites, .lan, .cmds, .xlt, .pwr, .sec, .ports, .boot, .fid, .unread, .out]) rfl, State.onlyIn.sec (l := [.pending, .fuse, .tally, .freeCtr, .regs, .fab, .mem, .hank, .tiles, .cleats, .sites, .lan, .cmds, .xlt, .pwr, .sec, .ports, .boot, .fid, .unread, .out]) rfl, State.onlyIn.ports (l := [.pending, .fuse, .tally, .freeCtr, .regs, .fab, .mem, .hank, .tiles, .cleats, .sites, .lan, .cmds, .xlt, .pwr, .sec, .ports, .boot, .fid, .unread, .out]) rfl, State.onlyIn.boot (l := [.pending, .fuse, .tally, .freeCtr, .regs, .fab, .mem, .hank, .tiles, .cleats, .sites, .lan, .cmds, .xlt, .pwr, .sec, .ports, .boot, .fid, .unread, .out]) rfl, State.onlyIn.fid (l := [.pending, .fuse, .tally, .freeCtr, .regs, .fab, .mem, .hank, .tiles, .cleats, .sites, .lan, .cmds, .xlt, .pwr, .sec, .ports, .boot, .fid, .unread, .out]) rfl, State.onlyIn.unread (l := [.pending, .fuse, .tally, .freeCtr, .regs, .fab, .mem, .hank, .tiles, .cleats, .sites, .lan, .cmds, .xlt, .pwr, .sec, .ports, .boot, .fid, .unread, .out]) rfl, State.onlyIn.out (l := [.pending, .fuse, .tally, .freeCtr, .regs, .fab, .mem, .hank, .tiles, .cleats, .sites, .lan, .cmds, .xlt, .pwr, .sec, .ports, .boot, .fid, .unread, .out]) rfl])
      | with_reducible apply State.onlyIn.foldl
      | dsimp only
      | split
      | with_reducible apply State.onlyIn.step (State.afresh_only _)
      | with_reducible apply State.onlyIn.step (State.fresetAll_only _ _ _ _)
      | with_reducible refine .hankRest ?_ (by rfl) ?_
      | with_reducible refine .hankAll ?_ ?_
      | (refine ⟨fun c hc => ?_⟩; cases c <;> first | rfl | exact absurd (by decide) hc))

end Sys2Proof.Machine
end

