-- ==== Sys2Proof/Laws/OnlyRegisters.lean ====
section
/-! SUPPORT. What each operation of Machine/Registers.lean can change: the parts of the state outside the list are as before. -/

set_option linter.all false

namespace Sys2Proof.Machine

theorem State.setLatch_only (s : State) (k : Nat) (v : Option Nat) :
    State.onlyIn [.fid] s (State.setLatch s k v) := by
  unfold State.setLatch
  repeat' (first
    | intro _
    | ((with_reducible apply Comp.sub_ok); exact rfl)
    | with_reducible apply State.onlyIn.refl
    | with_reducible assumption
    | (simp only [State.onlyIn.fid (l := [.fid]) rfl])
    | with_reducible apply State.onlyIn.foldl
    | dsimp only
    | split
    | (refine ⟨fun c hc => ?_⟩; cases c <;> first | rfl | exact absurd (by decide) hc))

theorem State.clearRead_only (s : State) (p : Path) (b : Blk) (inst : Nat) (off : Nat) :
    State.onlyIn [.regs, .unread] s (State.clearRead s p b inst off) := by
  unfold State.clearRead
  repeat' (first
    | intro _
    | ((with_reducible apply Comp.sub_ok); exact rfl)
    | with_reducible apply State.onlyIn.refl
    | with_reducible assumption
    | (simp only [State.onlyIn.regs (l := [.regs, .unread]) rfl, State.onlyIn.unread (l := [.regs, .unread]) rfl])
    | with_reducible apply State.onlyIn.foldl
    | dsimp only
    | split
    | with_reducible apply State.onlyIn.step (State.fset_only _ _ _ _ _)
    | (refine ⟨fun c hc => ?_⟩; cases c <;> first | rfl | exact absurd (by decide) hc))

theorem State.readHere_only (s : State) (p : Path) (b : Blk) (inst : Nat) (off : Nat) :
    State.onlyIn [.regs, .fid, .unread] s (State.readHere s p b inst off).2 := by
  unfold State.readHere
  repeat' (first
    | intro _
    | ((with_reducible apply Comp.sub_ok); exact rfl)
    | with_reducible apply State.onlyIn.refl
    | with_reducible assumption
    | with_reducible apply State.onlyIn.foldl
    | with_reducible apply State.onlyIn.foldl2
    | dsimp only
    | split
    | with_reducible apply State.onlyIn.step (State.clearRead_only _ _ _ _ _)
    | with_reducible apply State.onlyIn.step (State.setLatch_only _ _ _)
    | with_reducible apply State.onlyIn.step (State.regEvent_only _ _ _ _ _))

theorem State.readReg_only (s : State) (p : Path) (b : Blk) (inst : Nat) (off : Nat) :
    State.onlyIn [.regs, .fid, .unread] s (State.readReg s p b inst off).2 := by
  unfold State.readReg
  repeat' (first
    | intro _
    | ((with_reducible apply Comp.sub_ok); exact rfl)
    | with_reducible apply State.onlyIn.refl
    | with_reducible assumption
    | with_reducible apply State.onlyIn.foldl
    | with_reducible apply State.onlyIn.foldl2
    | dsimp only
    | (split <;> first | (rename_i heq; have hx := congrArg (fun z => z.2) heq; dsimp only at hx; subst hx) | (rename_i heq; have hx := congrArg (fun z => z.2.2) heq; dsimp only at hx; subst hx) | skip)
    | split
    | with_reducible apply State.onlyIn.step (State.readHere_only _ _ _ _ _)
    | with_reducible apply State.onlyIn.step (State.regEvent_only _ _ _ _ _))

theorem State.giveData_only (s : State) (p : Path) (v : Nat) :
    State.onlyIn [.out] s (State.giveData s p v) := by
  unfold State.giveData
  repeat' (first
    | intro _
    | ((with_reducible apply Comp.sub_ok); exact rfl)
    | with_reducible apply State.onlyIn.refl
    | with_reducible assumption
    | with_reducible apply State.onlyIn.foldl
    | dsimp only
    | split
    | with_reducible apply State.onlyIn.step (State.pushOut_only _ _))

theorem State.readWindow_only (s : State) (p : Path) (w : Win) (b : Blk) (off : Nat) :
    State.onlyIn [.regs, .ports, .fid, .unread, .out] s (State.readWindow s p w b off) := by
  unfold State.readWindow
  repeat' (first
    | intro _
    | ((with_reducible apply Comp.sub_ok); exact rfl)
    | with_reducible apply State.onlyIn.refl
    | with_reducible assumption
    | with_reducible apply State.onlyIn.foldl
    | with_reducible apply State.onlyIn.foldl2
    | dsimp only
    | (split <;> first | (rename_i heq; have hx := congrArg (fun z => z.2) heq; dsimp only at hx; subst hx) | (rename_i heq; have hx := congrArg (fun z => z.2.2) heq; dsimp only at hx; subst hx) | skip)
    | split
    | with_reducible apply State.onlyIn.step (State.giveData_only _ _ _)
    | with_reducible apply State.onlyIn.step (State.readHere_only _ _ _ _ _)
    | with_reducible apply State.barAccess_onlyStep)

theorem State.readSlot_only (s : State) (p : Path) (port : Port) (off : Nat) :
    State.onlyIn [.ports, .out] s (State.readSlot s p port off) := by
  unfold State.readSlot
  repeat' (first
    | intro _
    | ((with_reducible apply Comp.sub_ok); exact rfl)
    | with_reducible apply State.onlyIn.refl
    | with_reducible assumption
    | with_reducible apply State.onlyIn.foldl
    | dsimp only
    | split
    | with_reducible apply State.barAccess_onlyStep
    | with_reducible apply State.onlyIn.step (State.pushOut_only _ _))

theorem State.readAddr_only (s : State) (p : Path) (addr : Nat) :
    State.onlyIn [.freeCtr, .regs, .ports, .fid, .unread, .out] s (State.readAddr s p addr) := by
  unfold State.readAddr
  repeat' (first
    | intro _
    | ((with_reducible apply Comp.sub_ok); exact rfl)
    | with_reducible apply State.onlyIn.refl
    | with_reducible assumption
    | with_reducible apply State.onlyIn.foldl
    | with_reducible apply State.onlyIn.foldl2
    | dsimp only
    | (split <;> first | (rename_i heq; have hx := congrArg (fun z => z.2) heq; dsimp only at hx; subst hx) | (rename_i heq; have hx := congrArg (fun z => z.2.2) heq; dsimp only at hx; subst hx) | skip)
    | split
    | with_reducible apply State.onlyIn.step (State.readSlot_only _ _ _ _)
    | with_reducible apply State.onlyIn.step (State.readWindow_only _ _ _ _ _)
    | with_reducible apply State.onlyIn.step (State.giveData_only _ _ _)
    | with_reducible apply State.onlyIn.step (State.readReg_only _ _ _ _ _)
    | with_reducible apply State.byPath_onlyStep
    | with_reducible apply State.barAccess_onlyStep
    | with_reducible apply State.onlyIn.step (State.bump_only _))

theorem execRegisterReadClear_only {path : Path} {addr : Nat} {s : State} {t1 : State} (h1 : execRegisterReadClear path addr s = .next t1) :
    State.onlyIn [.freeCtr, .regs, .ports, .fid, .unread, .out] s t1 := by
  unfold execRegisterReadClear at h1
  repeat' (first | with_reducible apply atUnit_only h1 | with_reducible apply whenever_only h1 | with_reducible apply next_only h1 | (dsimp only at h1) | split at h1 | (simp only [reduceCtorEq] at h1; done))
  all_goals
    repeat' (first
      | intro _
      | ((with_reducible apply Comp.sub_ok); exact rfl)
      | with_reducible apply State.onlyIn.refl
      | with_reducible assumption
      | with_reducible apply State.onlyIn.foldl
      | dsimp only
      | split
      | with_reducible apply State.onlyIn.step (State.readAddr_only _ _ _))

theorem execLowWordRead_only {path : Path} {addr : Nat} {s : State} {t1 : State} (h1 : execLowWordRead path addr s = .next t1) :
    State.onlyIn [.freeCtr, .regs, .ports, .fid, .unread, .out] s t1 := by
  unfold execLowWordRead at h1
  repeat' (first | with_reducible apply atUnit_only h1 | with_reducible apply whenever_only h1 | with_reducible apply next_only h1 | (dsimp only at h1) | split at h1 | (simp only [reduceCtorEq] at h1; done))
  all_goals
    repeat' (first
      | intro _
      | ((with_reducible apply Comp.sub_ok); exact rfl)
      | with_reducible apply State.onlyIn.refl
      | with_reducible assumption
      | with_reducible apply State.onlyIn.foldl
      | dsimp only
      | split
      | with_reducible apply State.onlyIn.step (State.readAddr_only _ _ _))

end Sys2Proof.Machine
end

