-- ==== Sys2Proof/Laws/OnlyRegWrite.lean ====
section
/-! SUPPORT. What each operation of Machine/RegWrite.lean can change: the parts of the state outside the list are as before. -/

set_option linter.all false

namespace Sys2Proof.Machine

theorem State.putIf_only (s : State) (f : Fld) (inst : Nat) (n : Nat) (v : Nat) (ok : Nat → Bool) :
    State.onlyIn [.regs] s (State.putIf s f inst n v ok) := by
  unfold State.putIf
  repeat' (first
    | intro _
    | ((with_reducible apply Comp.sub_ok); exact rfl)
    | with_reducible apply State.onlyIn.refl
    | with_reducible assumption
    | with_reducible apply State.onlyIn.foldl
    | dsimp only
    | split
    | with_reducible apply State.onlyIn.step (State.fset_only _ _ _ _ _))

theorem State.putSealed_only (s : State) (f : Fld) (inst : Nat) (n : Nat) (v : Nat) (ok : Nat → Bool) :
    State.onlyIn [.regs, .fid] s (State.putSealed s f inst n v ok) := by
  unfold State.putSealed
  repeat' (first
    | intro _
    | ((with_reducible apply Comp.sub_ok); exact rfl)
    | with_reducible apply State.onlyIn.refl
    | with_reducible assumption
    | with_reducible apply State.onlyIn.foldl
    | dsimp only
    | split
    | with_reducible apply State.onlyIn.step (State.disarm_only _)
    | with_reducible apply State.onlyIn.step (State.fset_only _ _ _ _ _))

theorem State.writeSvc_only (s : State) (c : Nat) (v : Nat) :
    State.onlyIn [.regs, .fab] s (State.writeSvc s c v) := by
  unfold State.writeSvc
  repeat' (first
    | intro _
    | ((with_reducible apply Comp.sub_ok); exact rfl)
    | with_reducible apply State.onlyIn.refl
    | with_reducible assumption
    | with_reducible apply State.onlyIn.foldl
    | dsimp only
    | split
    | with_reducible apply State.onlyIn.step (State.putIf_only _ _ _ _ _ _)
    | with_reducible apply State.onlyIn.step (State.pump_only _))

theorem State.writeSvcpart_only (s : State) (p : Nat) (v : Nat) :
    State.onlyIn [.regs, .sec, .fid] s (State.writeSvcpart s p v) := by
  unfold State.writeSvcpart
  repeat' (first
    | intro _
    | ((with_reducible apply Comp.sub_ok); exact rfl)
    | with_reducible apply State.onlyIn.refl
    | with_reducible assumption
    | with_reducible apply State.onlyIn.foldl
    | dsimp only
    | split
    | with_reducible apply State.onlyIn.step (State.putSealed_only _ _ _ _ _ _)
    | with_reducible apply State.onlyIn.step (State.tdiError_only _ _))

theorem State.writeHub_only (s : State) (p : Path) (off : Nat) (v : Nat) :
    State.onlyIn [.pending, .fuse, .tally, .freeCtr, .regs, .fab, .mem, .hank, .tiles, .cleats, .sites, .lan, .cmds, .xlt, .pwr, .sec, .ports, .boot, .fid, .unread, .out] s (State.writeHub s p off v) := by
  unfold State.writeHub
  repeat' (first
    | intro _
    | ((with_reducible apply Comp.sub_ok); exact rfl)
    | with_reducible apply State.onlyIn.refl
    | with_reducible assumption
    | with_reducible apply State.onlyIn.foldl
    | dsimp only
    | split
    | with_reducible apply State.onlyIn.step (State.writeSvcpart_only _ _ _)
    | with_reducible apply State.onlyIn.step (State.writeSvc_only _ _ _)
    | with_reducible apply State.onlyIn.step (State.writeSealref_only _ _)
    | with_reducible apply State.onlyIn.step (State.sealCommit_only _)
    | with_reducible apply State.onlyIn.step (State.writeSnap_only _ _ _)
    | with_reducible apply State.onlyIn.step (State.writeSeize_only _ _ _ _)
    | with_reducible apply State.onlyIn.step (State.writeHalfrst_only _ _)
    | with_reducible apply State.onlyIn.step (State.writeTagmin_only _ _ _ _))

theorem State.writeQuad_only (s : State) (q : Nat) (v : Nat) :
    State.onlyIn [.regs, .ports, .out] s (State.writeQuad s q v) := by
  unfold State.writeQuad
  repeat' (first
    | intro _
    | ((with_reducible apply Comp.sub_ok); exact rfl)
    | with_reducible apply State.onlyIn.refl
    | with_reducible assumption
    | with_reducible apply State.onlyIn.foldl
    | dsimp only
    | split
    | with_reducible apply State.onlyIn.step (State.putIf_only _ _ _ _ _ _)
    | with_reducible apply State.onlyIn.step (State.quadChange_only _ _)
    | with_reducible apply State.onlyIn.step (State.updGates_only _))

theorem State.writePwr_only (s : State) (off : Nat) (v : Nat) :
    State.onlyIn [.freeCtr, .regs, .hank, .sites, .cmds, .pwr, .sec, .ports, .fid, .out] s (State.writePwr s off v) := by
  unfold State.writePwr
  repeat' (first
    | intro _
    | ((with_reducible apply Comp.sub_ok); exact rfl)
    | with_reducible apply State.onlyIn.refl
    | with_reducible assumption
    | with_reducible apply State.onlyIn.foldl
    | dsimp only
    | split
    | with_reducible apply State.onlyIn.step (State.writeQuad_only _ _ _)
    | with_reducible apply State.onlyIn.step (State.writePwrConf_only _ _)
    | with_reducible apply State.onlyIn.step (State.writePbase_only _ _ _)
    | with_reducible apply State.onlyIn.step (State.writeLimit_only _ _))

theorem State.writeAlarmcfg_only (s : State) (p : Path) (v : Nat) :
    State.onlyIn [.regs, .fid] s (State.writeAlarmcfg s p v) := by
  unfold State.writeAlarmcfg
  repeat' (first
    | intro _
    | ((with_reducible apply Comp.sub_ok); exact rfl)
    | with_reducible apply State.onlyIn.refl
    | with_reducible assumption
    | with_reducible apply State.onlyIn.foldl
    | dsimp only
    | split
    | with_reducible apply State.onlyIn.step (State.putSealed_only _ _ _ _ _ _)
    | with_reducible apply State.onlyIn.step (State.regRefused_only _ _ _ _))

theorem State.writeSecReg_only (s : State) (p : Path) (off : Nat) (v : Nat) :
    State.onlyIn [.regs, .sec, .ports, .fid, .out] s (State.writeSecReg s p off v) := by
  unfold State.writeSecReg
  repeat' (first
    | intro _
    | ((with_reducible apply Comp.sub_ok); exact rfl)
    | with_reducible apply State.onlyIn.refl
    | with_reducible assumption
    | with_reducible apply State.onlyIn.foldl
    | dsimp only
    | split
    | with_reducible apply State.onlyIn.step (State.writeAlarmcfg_only _ _ _)
    | with_reducible apply State.onlyIn.step (State.writeLctrans_only _ _))

theorem State.writeMgt_only (s : State) (off : Nat) (v : Nat) :
    State.onlyIn [.regs] s (State.writeMgt s off v) := by
  unfold State.writeMgt
  repeat' (first
    | intro _
    | ((with_reducible apply Comp.sub_ok); exact rfl)
    | with_reducible apply State.onlyIn.refl
    | with_reducible assumption
    | with_reducible apply State.onlyIn.foldl
    | dsimp only
    | split
    | with_reducible apply State.onlyIn.step (State.putIf_only _ _ _ _ _ _))

theorem State.writePci_only (s : State) (off : Nat) (v : Nat) :
    State.onlyIn [.regs, .ports, .out] s (State.writePci s off v) := by
  unfold State.writePci
  repeat' (first
    | intro _
    | ((with_reducible apply Comp.sub_ok); exact rfl)
    | with_reducible apply State.onlyIn.refl
    | with_reducible assumption
    | with_reducible apply State.onlyIn.foldl
    | dsimp only
    | split
    | with_reducible apply State.onlyIn.step (State.putIf_only _ _ _ _ _ _)
    | with_reducible apply State.onlyIn.step (State.writeModule_only _ _))

theorem State.writeCmdDev_only (s : State) (p : Path) (off : Nat) (v : Nat) :
    State.onlyIn [.regs, .cmds] s (State.writeCmdDev s p off v) := by
  unfold State.writeCmdDev
  repeat' (first
    | intro _
    | ((with_reducible apply Comp.sub_ok); exact rfl)
    | with_reducible apply State.onlyIn.refl
    | with_reducible assumption
    | with_reducible apply State.onlyIn.foldl
    | dsimp only
    | split
    | with_reducible apply State.onlyIn.step (State.putIf_only _ _ _ _ _ _)
    | with_reducible apply State.onlyIn.step (State.writeXflush_only _ _ _))

theorem State.writeCoh_only (s : State) (p : Path) (off : Nat) (v : Nat) :
    State.onlyIn [.regs, .fab, .sec, .ports, .fid, .unread, .out] s (State.writeCoh s p off v) := by
  unfold State.writeCoh
  repeat' (first
    | intro _
    | ((with_reducible apply Comp.sub_ok); exact rfl)
    | with_reducible apply State.onlyIn.refl
    | with_reducible assumption
    | with_reducible apply State.onlyIn.foldl
    | dsimp only
    | split
    | with_reducible apply State.onlyIn.step (State.putIf_only _ _ _ _ _ _)
    | with_reducible apply State.onlyIn.step (State.writeCohConf_only _ _ _)
    | with_reducible apply State.onlyIn.step (State.writeMask_only _ _ _ _)
    | with_reducible apply State.onlyIn.step (State.writeFlush_only _ _ _))

theorem State.writeReserve_only (s : State) (p : Path) (v : Nat) :
    State.onlyIn [.regs, .fid] s (State.writeReserve s p v) := by
  unfold State.writeReserve
  repeat' (first
    | intro _
    | ((with_reducible apply Comp.sub_ok); exact rfl)
    | with_reducible apply State.onlyIn.refl
    | with_reducible assumption
    | with_reducible apply State.onlyIn.foldl
    | dsimp only
    | split
    | with_reducible apply State.onlyIn.step (State.putSealed_only _ _ _ _ _ _)
    | with_reducible apply State.onlyIn.step (State.regRefused_only _ _ _ _)
    | with_reducible apply State.onlyIn.step (State.regEvent_only _ _ _ _ _))

theorem State.writeMemConf_only (s : State) (p : Path) (v : Nat) :
    State.onlyIn [.regs, .fid] s (State.writeMemConf s p v) := by
  unfold State.writeMemConf
  repeat' (first
    | intro _
    | ((with_reducible apply Comp.sub_ok); exact rfl)
    | with_reducible apply State.onlyIn.refl
    | with_reducible assumption
    | with_reducible apply State.onlyIn.foldl
    | dsimp only
    | split
    | with_reducible apply State.onlyIn.step (State.writeReserve_only _ _ _)
    | with_reducible apply State.onlyIn.step (State.putIf_only _ _ _ _ _ _)
    | with_reducible apply State.onlyIn.step (State.fset_only _ _ _ _ _))

theorem State.writeMem_only (s : State) (p : Path) (off : Nat) (v : Nat) :
    State.onlyIn [.regs, .ports, .fid, .out] s (State.writeMem s p off v) := by
  unfold State.writeMem
  repeat' (first
    | intro _
    | ((with_reducible apply Comp.sub_ok); exact rfl)
    | with_reducible apply State.onlyIn.refl
    | with_reducible assumption
    | with_reducible apply State.onlyIn.foldl
    | dsimp only
    | split
    | with_reducible apply State.onlyIn.step (State.writeMemConf_only _ _ _)
    | with_reducible apply State.onlyIn.step (State.putIf_only _ _ _ _ _ _)
    | with_reducible apply State.onlyIn.step (State.writeScope_only _ _ _ _))

theorem State.writeStack_only (s : State) (k : Nat) (off : Nat) (v : Nat) :
    State.onlyIn [.freeCtr, .regs, .hank, .sites, .cmds, .pwr, .ports, .fid, .out] s (State.writeStack s k off v) := by
  unfold State.writeStack
  repeat' (first
    | intro _
    | ((with_reducible apply Comp.sub_ok); exact rfl)
    | with_reducible apply State.onlyIn.refl
    | with_reducible assumption
    | with_reducible apply State.onlyIn.foldl
    | dsimp only
    | split
    | with_reducible apply State.onlyIn.step (State.writeMarch_only _ _ _)
    | with_reducible apply State.onlyIn.step (State.writeMargin_only _ _ _))

theorem State.writeLnkConf_only (s : State) (v : Nat) :
    State.onlyIn [.regs] s (State.writeLnkConf s v) := by
  unfold State.writeLnkConf
  repeat' (first
    | intro _
    | ((with_reducible apply Comp.sub_ok); exact rfl)
    | with_reducible apply State.onlyIn.refl
    | with_reducible assumption
    | with_reducible apply State.onlyIn.foldl
    | dsimp only
    | split
    | with_reducible apply State.onlyIn.step (State.putIf_only _ _ _ _ _ _))

theorem State.writeDom_only (s : State) (p : Path) (v : Nat) (fs : List (Fld × (Nat → Bool))) :
    State.onlyIn [.regs, .fid] s (State.writeDom s p v fs) := by
  unfold State.writeDom
  repeat' (first
    | intro _
    | ((with_reducible apply Comp.sub_ok); exact rfl)
    | with_reducible apply State.onlyIn.refl
    | with_reducible assumption
    | with_reducible apply State.onlyIn.foldl
    | dsimp only
    | split
    | with_reducible apply State.onlyIn.step (State.putSealed_only _ _ _ _ _ _)
    | with_reducible apply State.onlyIn.step (State.regRefused_only _ _ _ _))

theorem State.writeDom2_only (s : State) (p : Path) (v : Nat) :
    State.onlyIn [.freeCtr, .regs, .fab, .tiles, .cleats, .sites, .lan, .cmds, .xlt, .ports, .boot, .fid, .unread, .out] s (State.writeDom2 s p v) := by
  unfold State.writeDom2
  repeat' (first
    | intro _
    | ((with_reducible apply Comp.sub_ok); exact rfl)
    | with_reducible apply State.onlyIn.refl
    | with_reducible assumption
    | with_reducible apply State.onlyIn.foldl
    | dsimp only
    | split
    | with_reducible apply State.onlyIn.step (State.writeDom_only _ _ _ _)
    | with_reducible apply State.onlyIn.step (State.stopDomain_only _)
    | with_reducible apply State.onlyIn.step (State.startDomain_only _))

theorem State.writeLconf_only (s : State) (p : Path) (l : Nat) (v : Nat) :
    State.onlyIn [.regs, .fid] s (State.writeLconf s p l v) := by
  unfold State.writeLconf
  repeat' (first
    | intro _
    | ((with_reducible apply Comp.sub_ok); exact rfl)
    | with_reducible apply State.onlyIn.refl
    | with_reducible assumption
    | with_reducible apply State.onlyIn.foldl
    | dsimp only
    | split
    | with_reducible apply State.onlyIn.step (State.putSealed_only _ _ _ _ _ _)
    | with_reducible apply State.onlyIn.step (State.regRefused_only _ _ _ _))

theorem State.writeLctl_only (s : State) (l : Nat) (v : Nat) :
    State.onlyIn [.freeCtr, .regs, .fab, .tiles, .cleats, .sites, .lan, .cmds, .xlt, .ports, .boot, .fid, .unread, .out] s (State.writeLctl s l v) := by
  unfold State.writeLctl
  repeat' (first
    | intro _
    | ((with_reducible apply Comp.sub_ok); exact rfl)
    | with_reducible apply State.onlyIn.refl
    | with_reducible assumption
    | with_reducible apply State.onlyIn.foldl
    | dsimp only
    | split
    | with_reducible apply State.onlyIn.step (State.retireOp_only _ _)
    | with_reducible apply State.onlyIn.step (State.retrain_only _ _))

theorem State.writeLnk_only (s : State) (p : Path) (off : Nat) (v : Nat) :
    State.onlyIn [.freeCtr, .regs, .fab, .tiles, .cleats, .sites, .lan, .cmds, .xlt, .ports, .boot, .fid, .unread, .out] s (State.writeLnk s p off v) := by
  unfold State.writeLnk
  repeat' (first
    | intro _
    | ((with_reducible apply Comp.sub_ok); exact rfl)
    | with_reducible apply State.onlyIn.refl
    | with_reducible assumption
    | with_reducible apply State.onlyIn.foldl
    | dsimp only
    | split
    | with_reducible apply State.onlyIn.step (State.writeLctl_only _ _ _)
    | with_reducible apply State.onlyIn.step (State.writeLconf_only _ _ _ _)
    | with_reducible apply State.onlyIn.step (State.writeDom2_only _ _ _)
    | with_reducible apply State.onlyIn.step (State.writeDom_only _ _ _ _)
    | with_reducible apply State.onlyIn.step (State.writeLnkConf_only _ _))

theorem State.writeSite_only (s : State) (k : Nat) (off : Nat) (v : Nat) :
    State.onlyIn [.freeCtr, .regs, .fab, .hank, .sites, .cmds, .pwr, .ports, .fid, .out] s (State.writeSite s k off v) := by
  unfold State.writeSite
  repeat' (first
    | intro _
    | ((with_reducible apply Comp.sub_ok); exact rfl)
    | with_reducible apply State.onlyIn.refl
    | with_reducible assumption
    | with_reducible apply State.onlyIn.foldl
    | dsimp only
    | split
    | with_reducible apply State.onlyIn.step (State.writeSitePwr_only _ _ _)
    | with_reducible apply State.onlyIn.step (State.ctlRemeasure_only _ _)
    | with_reducible apply State.onlyIn.step (State.ctlReset_only _ _))

theorem State.writeTrconf_only (s : State) (p : Path) (v : Nat) :
    State.onlyIn [.regs, .fid] s (State.writeTrconf s p v) := by
  unfold State.writeTrconf
  repeat' (first
    | intro _
    | ((with_reducible apply Comp.sub_ok); exact rfl)
    | with_reducible apply State.onlyIn.refl
    | with_reducible assumption
    | (simp only [State.onlyIn.regs (l := [.regs, .fid]) rfl, State.onlyIn.fid (l := [.regs, .fid]) rfl])
    | with_reducible apply State.onlyIn.foldl
    | dsimp only
    | split
    | with_reducible apply State.onlyIn.step (State.regRefused_only _ _ _ _)
    | with_reducible apply State.onlyIn.step (State.fset_only _ _ _ _ _)
    | (refine ⟨fun c hc => ?_⟩; cases c <;> first | rfl | exact absurd (by decide) hc))

theorem State.writeTrig_only (s : State) (v : Nat) :
    State.onlyIn [.regs, .fid] s (State.writeTrig s v) := by
  unfold State.writeTrig
  repeat' (first
    | intro _
    | ((with_reducible apply Comp.sub_ok); exact rfl)
    | with_reducible apply State.onlyIn.refl
    | with_reducible assumption
    | with_reducible apply State.onlyIn.foldl
    | dsimp only
    | split
    | with_reducible apply State.onlyIn.step (State.fireWritten_only _)
    | with_reducible apply State.onlyIn.step (State.armTrigger_only _)
    | with_reducible apply State.onlyIn.step (State.fset_only _ _ _ _ _))

theorem State.writeTrigv_only (s : State) (v : Nat) :
    State.onlyIn [.regs] s (State.writeTrigv s v) := by
  unfold State.writeTrigv
  repeat' (first
    | intro _
    | ((with_reducible apply Comp.sub_ok); exact rfl)
    | with_reducible apply State.onlyIn.refl
    | with_reducible assumption
    | with_reducible apply State.onlyIn.foldl
    | dsimp only
    | split
    | with_reducible apply State.onlyIn.step (State.putIf_only _ _ _ _ _ _))

theorem State.writeFidConf_only (s : State) (v : Nat) :
    State.onlyIn [.regs] s (State.writeFidConf s v) := by
  unfold State.writeFidConf
  repeat' (first
    | intro _
    | ((with_reducible apply Comp.sub_ok); exact rfl)
    | with_reducible apply State.onlyIn.refl
    | with_reducible assumption
    | with_reducible apply State.onlyIn.foldl
    | dsimp only
    | split
    | with_reducible apply State.onlyIn.step (State.putIf_only _ _ _ _ _ _))

theorem State.writeFid_only (s : State) (p : Path) (off : Nat) (v : Nat) :
    State.onlyIn [.regs, .fid] s (State.writeFid s p off v) := by
  unfold State.writeFid
  repeat' (first
    | intro _
    | ((with_reducible apply Comp.sub_ok); exact rfl)
    | with_reducible apply State.onlyIn.refl
    | with_reducible assumption
    | with_reducible apply State.onlyIn.foldl
    | dsimp only
    | split
    | with_reducible apply State.onlyIn.step (State.writeFidConf_only _ _)
    | with_reducible apply State.onlyIn.step (State.writeTrigv_only _ _)
    | with_reducible apply State.onlyIn.step (State.writeTrig_only _ _)
    | with_reducible apply State.onlyIn.step (State.writeTrconf_only _ _ _)
    | with_reducible apply State.onlyIn.step (State.writeBuf_only _ _ _ _ _))

theorem State.writeAp_only (s : State) (w : Nat) (part : Nat) (n : Nat) (high : Bool) (v : Nat) :
    State.onlyIn [.regs] s (State.writeAp s w part n high v) := by
  unfold State.writeAp
  repeat' (first
    | intro _
    | ((with_reducible apply Comp.sub_ok); exact rfl)
    | with_reducible apply State.onlyIn.refl
    | with_reducible assumption
    | with_reducible apply State.onlyIn.foldl
    | dsimp only
    | split
    | with_reducible apply State.onlyIn.step (State.putIf_only _ _ _ _ _ _))

theorem State.writeWindow_only (s : State) (w : Win) (b : Blk) (off : Nat) (v : Nat) :
    State.onlyIn [.freeCtr, .regs, .fab, .hank, .tiles, .cleats, .sites, .lan, .cmds, .xlt, .pwr, .ports, .boot, .fid, .unread, .out] s (State.writeWindow s w b off v) := by
  unfold State.writeWindow
  repeat' (first
    | intro _
    | ((with_reducible apply Comp.sub_ok); exact rfl)
    | with_reducible apply State.onlyIn.refl
    | with_reducible assumption
    | with_reducible apply State.onlyIn.foldl
    | dsimp only
    | split
    | with_reducible apply State.onlyIn.step (State.writeAp_only _ _ _ _ _ _)
    | with_reducible apply State.onlyIn.step (State.writeWctl_only _ _ _)
    | with_reducible apply State.onlyIn.step (State.postRecords_only _ _ _ _))

theorem State.writeBlk_only (s : State) (p : Path) (b : Blk) (inst : Nat) (off : Nat) (v : Nat) :
    State.onlyIn [.pending, .fuse, .tally, .freeCtr, .regs, .fab, .mem, .hank, .tiles, .cleats, .sites, .lan, .cmds, .xlt, .pwr, .sec, .ports, .boot, .fid, .unread, .out] s (State.writeBlk s p b inst off v) := by
  unfold State.writeBlk
  repeat' (first
    | intro _
    | ((with_reducible apply Comp.sub_ok); exact rfl)
    | with_reducible apply State.onlyIn.refl
    | with_reducible assumption
    | with_reducible apply State.onlyIn.foldl
    | dsimp only
    | split
    | with_reducible apply State.onlyIn.step (State.writeFid_only _ _ _ _)
    | with_reducible apply State.onlyIn.step (State.writeSite_only _ _ _ _)
    | with_reducible apply State.onlyIn.step (State.writeLnk_only _ _ _ _)
    | with_reducible apply State.onlyIn.step (State.writeStack_only _ _ _ _)
    | with_reducible apply State.onlyIn.step (State.writeMem_only _ _ _ _)
    | with_reducible apply State.onlyIn.step (State.writeCoh_only _ _ _ _)
    | with_reducible apply State.onlyIn.step (State.writeCmdDev_only _ _ _ _)
    | with_reducible apply State.onlyIn.step (State.writePci_only _ _ _)
    | with_reducible apply State.onlyIn.step (State.writeMgt_only _ _ _)
    | with_reducible apply State.onlyIn.step (State.writeSecReg_only _ _ _ _)
    | with_reducible apply State.onlyIn.step (State.writePwr_only _ _ _)
    | with_reducible apply State.onlyIn.step (State.writeHub_only _ _ _ _)
    | with_reducible apply State.onlyIn.step (State.writeSel_only _ _ _ _ _))

theorem State.badSize_only (s : State) (p : Path) (kind : Nat) (inst : Nat) :
    State.onlyIn [.regs] s (State.badSize s p kind inst) := by
  unfold State.badSize
  repeat' (first
    | intro _
    | ((with_reducible apply Comp.sub_ok); exact rfl)
    | with_reducible apply State.onlyIn.refl
    | with_reducible assumption
    | with_reducible apply State.onlyIn.foldl
    | dsimp only
    | split
    | with_reducible apply State.onlyIn.step (State.regEvent_only _ _ _ _ _))

theorem State.writeReg_only (s : State) (p : Path) (b : Blk) (inst : Nat) (off : Nat) (v : Nat) :
    State.onlyIn [.pending, .fuse, .tally, .freeCtr, .regs, .fab, .mem, .hank, .tiles, .cleats, .sites, .lan, .cmds, .xlt, .pwr, .sec, .ports, .boot, .fid, .unread, .out] s (State.writeReg s p b inst off v) := by
  unfold State.writeReg
  repeat' (first
    | intro _
    | ((with_reducible apply Comp.sub_ok); exact rfl)
    | with_reducible apply State.onlyIn.refl
    | with_reducible assumption
    | with_reducible apply State.onlyIn.foldl
    | dsimp only
    | split
    | with_reducible apply State.onlyIn.step (State.writeBlk_only _ _ _ _ _ _)
    | with_reducible apply State.regGate_onlyStep)

theorem State.writeAddr_only (s : State) (p : Path) (addr : Nat) (v : Nat) (sized : Bool) :
    State.onlyIn [.pending, .fuse, .tally, .freeCtr, .regs, .fab, .mem, .hank, .tiles, .cleats, .sites, .lan, .cmds, .xlt, .pwr, .sec, .ports, .boot, .fid, .unread, .out] s (State.writeAddr s p addr v sized) := by
  unfold State.writeAddr
  repeat' (first
    | intro _
    | ((with_reducible apply Comp.sub_ok); exact rfl)
    | with_reducible apply State.onlyIn.refl
    | with_reducible assumption
    | with_reducible apply State.onlyIn.foldl
    | dsimp only
    | split
    | with_reducible apply State.onlyIn.step (State.writeReg_only _ _ _ _ _ _)
    | with_reducible apply State.onlyIn.step (State.badSize_only _ _ _ _)
    | with_reducible apply State.onlyIn.step (State.writeWindow_only _ _ _ _ _)
    | with_reducible apply State.wreg_onlyStep
    | with_reducible apply State.byPath_onlyStep
    | with_reducible apply State.barAccess_onlyStep)

theorem execRegisterWrite_only {path : Path} {addr : Nat} {v : W32} {wordSized : Bool} {s : State} {t1 : State} (h1 : execRegisterWrite path addr v wordSized s = .next t1) :
    State.onlyIn [.pending, .fuse, .tally, .freeCtr, .regs, .fab, .mem, .hank, .tiles, .cleats, .sites, .lan, .cmds, .xlt, .pwr, .sec, .ports, .boot, .fid, .unread, .out] s t1 := by
  unfold execRegisterWrite at h1
  repeat' (first | with_reducible apply atUnit_only h1 | with_reducible apply whenever_only h1 | with_reducible apply next_only h1 | (dsimp only at h1) | split at h1 | (simp only [reduceCtorEq] at h1; done))
  all_goals
    repeat' (first
      | intro _
      | ((with_reducible apply Comp.sub_ok); exact rfl)
      | with_reducible apply State.onlyIn.refl
      | with_reducible assumption
      | with_reducible apply State.onlyIn.foldl
      | dsimp only
      | split
      | with_reducible apply State.onlyIn.step (State.writeAddr_only _ _ _ _ _))

theorem State.regMessageWrite_only (s : State) (m : RegMsg) (b : Blk) (i : Nat) (off : Nat) (v : Nat) :
    State.onlyIn [.pending, .fuse, .tally, .freeCtr, .regs, .fab, .mem, .hank, .tiles, .cleats, .sites, .lan, .cmds, .xlt, .pwr, .sec, .ports, .boot, .fid, .unread, .out] s (State.regMessageWrite s m b i off v) := by
  unfold State.regMessageWrite
  repeat' (first
    | intro _
    | ((with_reducible apply Comp.sub_ok); exact rfl)
    | with_reducible apply State.onlyIn.refl
    | with_reducible assumption
    | (simp only [State.onlyIn.pending (l := [.pending, .fuse, .tally, .freeCtr, .regs, .fab, .mem, .hank, .tiles, .cleats, .sites, .lan, .cmds, .xlt, .pwr, .sec, .ports, .boot, .fid, .unread, .out]) rfl, State.onlyIn.fuse (l := [.pending, .fuse, .tally, .freeCtr, .regs, .fab, .mem, .hank, .tiles, .cleats, .sites, .lan, .cmds, .xlt, .pwr, .sec, .ports, .boot, .fid, .unread, .out]) rfl, State.onlyIn.tally (l := [.pending, .fuse, .tally, .freeCtr, .regs, .fab, .mem, .hank, .tiles, .cleats, .sites, .lan, .cmds, .xlt, .pwr, .sec, .ports, .boot, .fid, .unread, .out]) rfl, State.onlyIn.freeCtr (l := [.pending, .fuse, .tally, .freeCtr, .regs, .fab, .mem, .hank, .tiles, .cleats, .sites, .lan, .cmds, .xlt, .pwr, .sec, .ports, .boot, .fid, .unread, .out]) rfl, State.onlyIn.regs (l := [.pending, .fuse, .tally, .freeCtr, .regs, .fab, .mem, .hank, .tiles, .cleats, .sites, .lan, .cmds, .xlt, .pwr, .sec, .ports, .boot, .fid, .unread, .out]) rfl, State.onlyIn.fab (l := [.pending, .fuse, .tally, .freeCtr, .regs, .fab, .mem, .hank, .tiles, .cleats, .sites, .lan, .cmds, .xlt, .pwr, .sec, .ports, .boot, .fid, .unread, .out]) rfl, State.onlyIn.tiles (l := [.pending, .fuse, .tally, .freeCtr, .regs, .fab, .mem, .hank, .tiles, .cleats, .sites, .lan, .cmds, .xlt, .pwr, .sec, .ports, .boot, .fid, .unread, .out]) rfl, State.onlyIn.cleats (l := [.pending, .fuse, .tally, .freeCtr, .regs, .fab, .mem, .hank, .tiles, .cleats, .sites, .lan, .cmds, .xlt, .pwr, .sec, .ports, .boot, .fid, .unread, .out]) rfl, State.onlyIn.sites (l := [.pending, .fuse, .tally, .freeCtr, .regs, .fab, .mem, .hank, .tiles, .cleats, .sites, .lan, .cmds, .xlt, .pwr, .sec, .ports, .boot, .fid, .unread, .out]) rfl, State.onlyIn.lan (l := [.pending, .fuse, .tally, .freeCtr, .regs, .fab, .mem, .hank, .tiles, .cleats, .sites, .lan, .cmds, .xlt, .pwr, .sec, .ports, .boot, .fid, .unread, .out]) rfl, State.onlyIn.cmds (l := [.pending, .fuse, .tally, .freeCtr, .regs, .fab, .mem, .hank, .tiles, .cleats, .sites, .lan, .cmds, .xlt, .pwr, .sec, .ports, .boot, .fid, .unread, .out]) rfl, State.onlyIn.xlt (l := [.pending, .fuse, .tally, .freeCtr, .regs, .fab, .mem, .hank, .tiles, .cleats, .sites, .lan, .cmds, .xlt, .pwr, .sec, .ports, .boot, .fid, .unread, .out]) rfl, State.onlyIn.pwr (l := [.pending, .fuse, .tally, .freeCtr, .regs, .fab, .mem, .hank, .tiles, .cleats, .sites, .lan, .cmds, .xlt, .pwr, .sec, .ports, .boot, .fid, .unread, .out]) rfl, State.onlyIn.sec (l := [.pending, .fuse, .tally, .freeCtr, .regs, .fab, .mem, .hank, .tiles, .cleats, .sites, .lan, .cmds, .xlt, .pwr, .sec, .ports, .boot, .fid, .unread, .out]) rfl, State.onlyIn.ports (l := [.pending, .fuse, .tally, .freeCtr, .regs, .fab, .mem, .hank, .tiles, .cleats, .sites, .lan, .cmds, .xlt, .pwr, .sec, .ports, .boot, .fid, .unread, .out]) rfl, State.onlyIn.boot (l := [.pending, .fuse, .tally, .freeCtr, .regs, .fab, .mem, .hank, .tiles, .cleats, .sites, .lan, .cmds, .xlt, .pwr, .sec, .ports, .boot, .fid, .unread, .out]) rfl, State.onlyIn.fid (l := [.pending, .fuse, .tally, .freeCtr, .regs, .fab, .mem, .hank, .tiles, .cleats, .sites, .lan, .cmds, .xlt, .pwr, .sec, .ports, .boot, .fid, .unread, .out]) rfl, State.onlyIn.unread (l := [.pending, .fuse, .tally, .freeCtr, .regs, .fab, .mem, .hank, .tiles, .cleats, .sites, .lan, .cmds, .xlt, .pwr, .sec, .ports, .boot, .fid, .unread, .out]) rfl, State.onlyIn.out (l := [.pending, .fuse, .tally, .freeCtr, .regs, .fab, .mem, .hank, .tiles, .cleats, .sites, .lan, .cmds, .xlt, .pwr, .sec, .ports, .boot, .fid, .unread, .out]) rfl])
    | with_reducible apply State.onlyIn.foldl
    | dsimp only
    | split
    | with_reducible apply State.onlyIn.step (State.writeReg_only _ _ _ _ _ _)
    | with_reducible apply State.onlyIn.step (State.giveSeize_only _ _ _)
    | with_reducible apply State.onlyIn.step (State.setSeizer_only _ _ _)
    | with_reducible apply State.onlyIn.step (State.hAnswer_only _ _ _ _)
    | with_reducible refine .hankRest ?_ (by rfl) ?_
    | with_reducible refine .hankAll ?_ ?_
    | (refine ⟨fun c hc => ?_⟩; cases c <;> first | rfl | exact absurd (by decide) hc))

theorem State.regMessage_only (s : State) (m : RegMsg) :
    State.onlyIn [.pending, .fuse, .tally, .freeCtr, .regs, .fab, .mem, .hank, .tiles, .cleats, .sites, .lan, .cmds, .xlt, .pwr, .sec, .ports, .boot, .fid, .unread, .out] s (State.regMessage s m) := by
  unfold State.regMessage
  repeat' (first
    | intro _
    | ((with_reducible apply Comp.sub_ok); exact rfl)
    | with_reducible apply State.onlyIn.refl
    | with_reducible assumption
    | with_reducible apply State.onlyIn.foldl
    | with_reducible apply State.onlyIn.foldl2
    | dsimp only
    | (split <;> first | (rename_i heq; have hx := congrArg (fun z => z.2) heq; dsimp only at hx; subst hx) | (rename_i heq; have hx := congrArg (fun z => z.2.2) heq; dsimp only at hx; subst hx) | skip)
    | split
    | with_reducible apply State.onlyIn.step (State.regMessageWrite_only _ _ _ _ _ _)
    | with_reducible apply State.onlyIn.step (State.readReg_only _ _ _ _ _)
    | with_reducible apply State.onlyIn.step (State.hAnswer_only _ _ _ _))

theorem execHalyardReg_only {m : RegMsg} {s : State} {t1 : State} (h1 : execHalyardReg m s = .next t1) :
    State.onlyIn [.pending, .fuse, .tally, .freeCtr, .regs, .fab, .mem, .hank, .tiles, .cleats, .sites, .lan, .cmds, .xlt, .pwr, .sec, .ports, .boot, .fid, .unread, .out] s t1 := by
  unfold execHalyardReg at h1
  repeat' (first | with_reducible apply atUnit_only h1 | with_reducible apply whenever_only h1 | with_reducible apply next_only h1 | (dsimp only at h1) | split at h1 | (simp only [reduceCtorEq] at h1; done))
  all_goals
    repeat' (first
      | intro _
      | ((with_reducible apply Comp.sub_ok); exact rfl)
      | with_reducible apply State.onlyIn.refl
      | with_reducible assumption
      | with_reducible apply State.onlyIn.foldl
      | dsimp only
      | split
      | with_reducible apply State.onlyIn.step (State.regMessage_only _ _)
      | with_reducible apply State.message_onlyStep)

end Sys2Proof.Machine
end

