-- ==== Sys2Proof/Laws/State.lean ====
section
/-! SUPPORT. The small lemmas of the state: tables, memory, register fields, and what each named update leaves. -/

namespace Sys2Proof.Machine

/-! ## Tables -/

theorem tget_tkeep {α : Type} (d : Nat → α) (p : Nat → Bool) (l : List (Nat × α)) (j : Nat) :
    tget d (tkeep p l) j = if p j then tget d l j else d j := by
  induction l with
  | nil => simp [tkeep, tget]
  | cons e r ih =>
    obtain ⟨k, v⟩ := e
    unfold tkeep at ih ⊢
    rw [List.filter_cons]
    by_cases hk : k = j
    · subst hk
      cases hp : p k with
      | true => simp [tget]
      | false => simp [hp] at ih ⊢; exact ih
    · split
      · simp only [tget, if_neg hk]; exact ih
      · simp only [tget, if_neg hk]; exact ih

theorem tget_tput_other {α : Type} (d : Nat → α) (l : List (Nat × α)) (k j : Nat) (v : α) (h : j ≠ k) :
    tget d (tput l k v) j = tget d l j := by
  induction l with
  | nil => simp [tput, tget, Ne.symm h]
  | cons e r ih =>
    unfold tput
    split
    · simp [tget, Ne.symm h]
    · simp only [tget, ih]

theorem tget_tput_same {α : Type} (d : Nat → α) (l : List (Nat × α)) (k : Nat) (v : α) (h : ∀ e ∈ l, e.1 ≠ k) :
    tget d (tput l k v) k = v := by
  induction l with
  | nil => simp [tput, tget]
  | cons e r ih =>
    unfold tput
    split
    · simp [tget]
    · have he : e.1 ≠ k := h e List.mem_cons_self
      simp only [tget, if_neg he]
      exact ih fun x hx => h x (List.mem_cons_of_mem e hx)

theorem tkeep_ne {α : Type} (l : List (Nat × α)) (k : Nat) : ∀ e ∈ tkeep (fun j => j != k) l, e.1 ≠ k := by
  intro e he
  have h := (List.mem_filter.mp he).2
  simpa using h

/-- What is written is what is read. -/
@[simp] theorem tget_tset_same {α : Type} [DecidableEq α] (d : Nat → α) (l : List (Nat × α)) (k : Nat) (v : α) :
    tget d (tset d l k v) k = v := by
  unfold tset
  dsimp only
  split
  · rename_i h; rw [tget_tkeep]; simp [h]
  · exact tget_tput_same d _ k v (tkeep_ne l k)

/-- A write leaves every other key. -/
theorem tget_tset_other {α : Type} [DecidableEq α] (d e : Nat → α) (l : List (Nat × α)) (k j : Nat) (v : α) (h : j ≠ k) :
    tget e (tset d l k v) j = tget e l j := by
  have hk : tget e (tkeep (fun i => i != k) l) j = tget e l j := by rw [tget_tkeep]; simp [h]
  unfold tset
  dsimp only
  split
  · exact hk
  · rw [tget_tput_other e _ k j v h, hk]

theorem tableWf_low {α : Type} [DecidableEq α] {d : Nat → α} {lo hi : Nat} {l : List (Nat × α)} (h : tableWf d hi l = true) (hl : lo ≤ hi) :
    tableWf d lo l = true := by
  cases l with
  | nil => rfl
  | cons e r =>
    obtain ⟨k, v⟩ := e
    simp only [tableWf, Bool.and_eq_true, decide_eq_true_eq] at h ⊢
    exact ⟨⟨Nat.le_trans hl h.1.1, h.1.2⟩, h.2⟩

theorem tableWf_tkeep {α : Type} [DecidableEq α] {d : Nat → α} (p : Nat → Bool) {lo : Nat} {l : List (Nat × α)} (h : tableWf d lo l = true) :
    tableWf d lo (tkeep p l) = true := by
  induction l generalizing lo with
  | nil => rfl
  | cons e r ih =>
    obtain ⟨k, v⟩ := e
    simp only [tableWf, Bool.and_eq_true, decide_eq_true_eq] at h
    have hr := ih h.2
    unfold tkeep at hr ⊢
    rw [List.filter_cons]
    split
    · simp only [tableWf, Bool.and_eq_true, decide_eq_true_eq]; exact ⟨h.1, hr⟩
    · exact tableWf_low hr (by omega)

theorem tableWf_tput {α : Type} [DecidableEq α] {d : Nat → α} {lo k : Nat} {v : α} {l : List (Nat × α)} (h : tableWf d lo l = true)
    (hk : lo ≤ k) (hv : v ≠ d k) (hn : ∀ e ∈ l, e.1 ≠ k) : tableWf d lo (tput l k v) = true := by
  induction l generalizing lo with
  | nil => simp [tput, tableWf, hk, hv]
  | cons e r ih =>
    obtain ⟨j, w⟩ := e
    have hj : j ≠ k := hn (j, w) List.mem_cons_self
    simp only [tableWf, Bool.and_eq_true, decide_eq_true_eq] at h
    unfold tput
    split
    · rename_i hlt
      have hlt : k < j := hlt
      simp only [tableWf, Bool.and_eq_true, decide_eq_true_eq]
      exact ⟨⟨hk, hv⟩, ⟨⟨by omega, h.1.2⟩, h.2⟩⟩
    · rename_i hge
      have hge : ¬ k < j := hge
      simp only [tableWf, Bool.and_eq_true, decide_eq_true_eq]
      exact ⟨h.1, ih h.2 (by omega) fun x hx => hn x (List.mem_cons_of_mem _ hx)⟩

/-- A write keeps the canonical form. -/
theorem tableWf_tset {α : Type} [DecidableEq α] {d : Nat → α} {l : List (Nat × α)} (h : tableWf d 0 l = true) (k : Nat) (v : α) :
    tableWf d 0 (tset d l k v) = true := by
  have hr := tableWf_tkeep (fun j => j != k) h
  unfold tset
  dsimp only
  split
  · exact hr
  · rename_i hv; exact tableWf_tput hr (Nat.zero_le k) hv (tkeep_ne l k)

/-! ## Memory -/

theorem memSet_wf {m : List Host.Cell} (h : Memory.wf m = true) (a : Nat) (b : BitVec 8) : Memory.wf (memSet m a b) = true :=
  tableWf_tset h a b

theorem memWrite_wf {m : List Host.Cell} (h : Memory.wf m = true) (a v mask n : Nat) : Memory.wf (memWrite m a v mask n) = true := by
  induction n generalizing m a v mask with
  | zero => exact h
  | succ n ih =>
    unfold memWrite
    dsimp only
    split
    · exact ih (memSet_wf h _ _) _ _ _
    · exact ih h _ _ _

theorem memory_tkeep_wf {m : List Host.Cell} (h : Memory.wf m = true) (p : Nat → Bool) : Memory.wf (tkeep p m) = true := tableWf_tkeep p h

@[simp] theorem memByte_memSet_same (m : List Host.Cell) (a : Nat) (b : BitVec 8) : memByte (memSet m a b) a = b :=
  tget_tset_same (fun _ => 0) m a b

theorem memByte_memSet_other (m : List Host.Cell) (a j : Nat) (b : BitVec 8) (h : j ≠ a) : memByte (memSet m a b) j = memByte m j :=
  tget_tset_other (fun _ => 0) (fun _ => 0) m a j b h

/-- A write of n bytes leaves every byte outside them. -/
theorem memByte_memWrite_outside (m : List Host.Cell) (a v mask n j : Nat) (h : j < a ∨ a + n ≤ j) :
    memByte (memWrite m a v mask n) j = memByte m j := by
  induction n generalizing m a v mask with
  | zero => rfl
  | succ n ih =>
    unfold memWrite
    dsimp only
    split
    · rw [ih _ _ _ _ (by omega), memByte_memSet_other _ _ _ _ (by omega)]
    · exact ih _ _ _ _ (by omega)

/-- A write of n bytes leaves a byte that its mask leaves out, and puts the value's byte where the mask has it. -/
theorem memByte_memWrite_inside (m : List Host.Cell) (a v mask n i : Nat) (h : i < n) :
    memByte (memWrite m a v mask n) (a + i) = if mask.testBit i then BitVec.ofNat 8 (v / 256 ^ i) else memByte m (a + i) := by
  induction n generalizing m a v mask i with
  | zero => omega
  | succ n ih =>
    unfold memWrite
    dsimp only
    cases i with
    | zero =>
      rw [memByte_memWrite_outside _ _ _ _ _ _ (Or.inl (by omega))]
      by_cases hm : mask % 2 = 1 <;> simp [hm, Nat.testBit_zero]
    | succ i =>
      have e : a + (i + 1) = a + 1 + i := by omega
      rw [e, ih _ _ _ _ _ (by omega), Nat.testBit_succ, Nat.div_div_eq_div_mul, Nat.pow_succ, Nat.mul_comm 256]
      split
      · rfl
      · split
        · exact memByte_memSet_other _ _ _ _ (by omega)
        · rfl

/-! ## Register fields -/

/-- What is stored in a field is read from it. -/
@[simp] theorem State.fget_fset_same (s : State) (f : Fld) (i n v : Nat) : (s.fset f i n v).fget f i n = v % f.size :=
  tget_tset_same (fun _ => f.reset) s.regs (f.key i n) (v % f.size)

/-- A field of another key is as before. -/
theorem State.fget_fset_other (s : State) (f g : Fld) (i n j m v : Nat) (h : g.key j m ≠ f.key i n) :
    (s.fset f i n v).fget g j m = s.fget g j m :=
  tget_tset_other (fun _ => f.reset) (fun _ => g.reset) s.regs (f.key i n) (g.key j m) (v % f.size) h

theorem State.fget_congr {s t : State} (h : t.regs = s.regs) (f : Fld) (i n : Nat) : t.fget f i n = s.fget f i n := by
  unfold State.fget; rw [h]

/-! ## Named parts -/

@[simp] theorem State.tile_setTile_same (s : State) (t : Nat) (x : Tile) : (s.setTile t x).tile t = x := tget_tset_same (fun _ => ({} : Tile)) _ t x

theorem State.tile_setTile_other (s : State) (t : Nat) (x : Tile) (j : Nat) (h : j ≠ t) : (s.setTile t x).tile j = s.tile j :=
  tget_tset_other (fun _ => ({} : Tile)) (fun _ => ({} : Tile)) _ t j x h

@[simp] theorem State.site_setSite_same (s : State) (k : Nat) (x : Site) : (s.setSite k x).site k = x := tget_tset_same (fun _ => ({} : Site)) _ k x

theorem State.site_setSite_other (s : State) (k : Nat) (x : Site) (j : Nat) (h : j ≠ k) : (s.setSite k x).site j = s.site j :=
  tget_tset_other (fun _ => ({} : Site)) (fun _ => ({} : Site)) _ k j x h

@[simp] theorem State.link_setLink_same (s : State) (l : Nat) (x : Link) : (s.setLink l x).link l = x := tget_tset_same (fun _ => ({} : Link)) _ l x

theorem State.link_setLink_other (s : State) (l : Nat) (x : Link) (j : Nat) (h : j ≠ l) : (s.setLink l x).link j = s.link j :=
  tget_tset_other (fun _ => ({} : Link)) (fun _ => ({} : Link)) _ l j x h

@[simp] theorem State.part_setPart_same (s : State) (p : Nat) (x : Part) : (s.setPart p x).part p = x := tget_tset_same (fun _ => ({} : Part)) _ p x

theorem State.part_setPart_other (s : State) (p : Nat) (x : Part) (j : Nat) (h : j ≠ p) : (s.setPart p x).part j = s.part j :=
  tget_tset_other (fun _ => ({} : Part)) (fun _ => ({} : Part)) _ p j x h

@[simp] theorem State.lane_setLane_same (s : State) (i : Nat) (x : Lane) : (s.setLane i x).lane i = x := tget_tset_same (fun _ => ({} : Lane)) _ i x

theorem State.lane_setLane_other (s : State) (i : Nat) (x : Lane) (j : Nat) (h : j ≠ i) : (s.setLane i x).lane j = s.lane j :=
  tget_tset_other (fun _ => ({} : Lane)) (fun _ => ({} : Lane)) _ i j x h

@[simp] theorem State.line_setLine_same (s : State) (l : Nat) (x : Line) : (s.setLine l x).line l = x := tget_tset_same (fun _ => ({} : Line)) _ l x

theorem State.line_setLine_other (s : State) (l : Nat) (x : Line) (j : Nat) (h : j ≠ l) : (s.setLine l x).line j = s.line j :=
  tget_tset_other (fun _ => ({} : Line)) (fun _ => ({} : Line)) _ l j x h

@[simp] theorem State.pline_setPline_same (s : State) (l : Nat) (x : PLine) : (s.setPline l x).pline l = x := tget_tset_same (fun _ => ({} : PLine)) _ l x

theorem State.pline_setPline_other (s : State) (l : Nat) (x : PLine) (j : Nat) (h : j ≠ l) : (s.setPline l x).pline j = s.pline j :=
  tget_tset_other (fun _ => ({} : PLine)) (fun _ => ({} : PLine)) _ l j x h

@[simp] theorem State.cleat_setCleat_same (s : State) (c : Nat) (x : Cleat) : (s.setCleat c x).cleat c = x := tget_tset_same (fun _ => ({} : Cleat)) _ c x

theorem State.cleat_setCleat_other (s : State) (c : Nat) (x : Cleat) (j : Nat) (h : j ≠ c) : (s.setCleat c x).cleat j = s.cleat j :=
  tget_tset_other (fun _ => ({} : Cleat)) (fun _ => ({} : Cleat)) _ c j x h

/-! ## What each named update leaves -/

@[simp] theorem State.fset_pending (s : State) (f : Fld) (i n v : Nat) : (s.fset f i n v).pending = s.pending := rfl
@[simp] theorem State.fset_fuse (s : State) (f : Fld) (i n v : Nat) : (s.fset f i n v).fuse = s.fuse := rfl
@[simp] theorem State.fset_tally (s : State) (f : Fld) (i n v : Nat) : (s.fset f i n v).tally = s.tally := rfl
@[simp] theorem State.fset_freeCtr (s : State) (f : Fld) (i n v : Nat) : (s.fset f i n v).freeCtr = s.freeCtr := rfl
@[simp] theorem State.fset_fab (s : State) (f : Fld) (i n v : Nat) : (s.fset f i n v).fab = s.fab := rfl
@[simp] theorem State.fset_hank (s : State) (f : Fld) (i n v : Nat) : (s.fset f i n v).hank = s.hank := rfl
@[simp] theorem State.fset_tiles (s : State) (f : Fld) (i n v : Nat) : (s.fset f i n v).tiles = s.tiles := rfl
@[simp] theorem State.fset_cleats (s : State) (f : Fld) (i n v : Nat) : (s.fset f i n v).cleats = s.cleats := rfl
@[simp] theorem State.fset_sites (s : State) (f : Fld) (i n v : Nat) : (s.fset f i n v).sites = s.sites := rfl
@[simp] theorem State.fset_lan (s : State) (f : Fld) (i n v : Nat) : (s.fset f i n v).lan = s.lan := rfl
@[simp] theorem State.fset_cmds (s : State) (f : Fld) (i n v : Nat) : (s.fset f i n v).cmds = s.cmds := rfl
@[simp] theorem State.fset_xlt (s : State) (f : Fld) (i n v : Nat) : (s.fset f i n v).xlt = s.xlt := rfl
@[simp] theorem State.fset_pwr (s : State) (f : Fld) (i n v : Nat) : (s.fset f i n v).pwr = s.pwr := rfl
@[simp] theorem State.fset_sec (s : State) (f : Fld) (i n v : Nat) : (s.fset f i n v).sec = s.sec := rfl
@[simp] theorem State.fset_ports (s : State) (f : Fld) (i n v : Nat) : (s.fset f i n v).ports = s.ports := rfl
@[simp] theorem State.fset_boot (s : State) (f : Fld) (i n v : Nat) : (s.fset f i n v).boot = s.boot := rfl
@[simp] theorem State.fset_fid (s : State) (f : Fld) (i n v : Nat) : (s.fset f i n v).fid = s.fid := rfl
@[simp] theorem State.fset_unread (s : State) (f : Fld) (i n v : Nat) : (s.fset f i n v).unread = s.unread := rfl
@[simp] theorem State.fset_out (s : State) (f : Fld) (i n v : Nat) : (s.fset f i n v).out = s.out := rfl

@[simp] theorem State.setTile_pending (s : State) (t : Nat) (x : Tile) : (s.setTile t x).pending = s.pending := rfl
@[simp] theorem State.setTile_fuse (s : State) (t : Nat) (x : Tile) : (s.setTile t x).fuse = s.fuse := rfl
@[simp] theorem State.setTile_tally (s : State) (t : Nat) (x : Tile) : (s.setTile t x).tally = s.tally := rfl
@[simp] theorem State.setTile_freeCtr (s : State) (t : Nat) (x : Tile) : (s.setTile t x).freeCtr = s.freeCtr := rfl
@[simp] theorem State.setTile_regs (s : State) (t : Nat) (x : Tile) : (s.setTile t x).regs = s.regs := rfl
@[simp] theorem State.setTile_fab (s : State) (t : Nat) (x : Tile) : (s.setTile t x).fab = s.fab := rfl
@[simp] theorem State.setTile_hank (s : State) (t : Nat) (x : Tile) : (s.setTile t x).hank = s.hank := rfl
@[simp] theorem State.setTile_cleats (s : State) (t : Nat) (x : Tile) : (s.setTile t x).cleats = s.cleats := rfl
@[simp] theorem State.setTile_sites (s : State) (t : Nat) (x : Tile) : (s.setTile t x).sites = s.sites := rfl
@[simp] theorem State.setTile_lan (s : State) (t : Nat) (x : Tile) : (s.setTile t x).lan = s.lan := rfl
@[simp] theorem State.setTile_cmds (s : State) (t : Nat) (x : Tile) : (s.setTile t x).cmds = s.cmds := rfl
@[simp] theorem State.setTile_xlt (s : State) (t : Nat) (x : Tile) : (s.setTile t x).xlt = s.xlt := rfl
@[simp] theorem State.setTile_pwr (s : State) (t : Nat) (x : Tile) : (s.setTile t x).pwr = s.pwr := rfl
@[simp] theorem State.setTile_sec (s : State) (t : Nat) (x : Tile) : (s.setTile t x).sec = s.sec := rfl
@[simp] theorem State.setTile_ports (s : State) (t : Nat) (x : Tile) : (s.setTile t x).ports = s.ports := rfl
@[simp] theorem State.setTile_boot (s : State) (t : Nat) (x : Tile) : (s.setTile t x).boot = s.boot := rfl
@[simp] theorem State.setTile_fid (s : State) (t : Nat) (x : Tile) : (s.setTile t x).fid = s.fid := rfl
@[simp] theorem State.setTile_unread (s : State) (t : Nat) (x : Tile) : (s.setTile t x).unread = s.unread := rfl
@[simp] theorem State.setTile_out (s : State) (t : Nat) (x : Tile) : (s.setTile t x).out = s.out := rfl

@[simp] theorem State.setSite_pending (s : State) (k : Nat) (x : Site) : (s.setSite k x).pending = s.pending := rfl
@[simp] theorem State.setSite_fuse (s : State) (k : Nat) (x : Site) : (s.setSite k x).fuse = s.fuse := rfl
@[simp] theorem State.setSite_tally (s : State) (k : Nat) (x : Site) : (s.setSite k x).tally = s.tally := rfl
@[simp] theorem State.setSite_freeCtr (s : State) (k : Nat) (x : Site) : (s.setSite k x).freeCtr = s.freeCtr := rfl
@[simp] theorem State.setSite_regs (s : State) (k : Nat) (x : Site) : (s.setSite k x).regs = s.regs := rfl
@[simp] theorem State.setSite_fab (s : State) (k : Nat) (x : Site) : (s.setSite k x).fab = s.fab := rfl
@[simp] theorem State.setSite_hank (s : State) (k : Nat) (x : Site) : (s.setSite k x).hank = s.hank := rfl
@[simp] theorem State.setSite_tiles (s : State) (k : Nat) (x : Site) : (s.setSite k x).tiles = s.tiles := rfl
@[simp] theorem State.setSite_cleats (s : State) (k : Nat) (x : Site) : (s.setSite k x).cleats = s.cleats := rfl
@[simp] theorem State.setSite_lan (s : State) (k : Nat) (x : Site) : (s.setSite k x).lan = s.lan := rfl
@[simp] theorem State.setSite_cmds (s : State) (k : Nat) (x : Site) : (s.setSite k x).cmds = s.cmds := rfl
@[simp] theorem State.setSite_xlt (s : State) (k : Nat) (x : Site) : (s.setSite k x).xlt = s.xlt := rfl
@[simp] theorem State.setSite_pwr (s : State) (k : Nat) (x : Site) : (s.setSite k x).pwr = s.pwr := rfl
@[simp] theorem State.setSite_sec (s : State) (k : Nat) (x : Site) : (s.setSite k x).sec = s.sec := rfl
@[simp] theorem State.setSite_ports (s : State) (k : Nat) (x : Site) : (s.setSite k x).ports = s.ports := rfl
@[simp] theorem State.setSite_boot (s : State) (k : Nat) (x : Site) : (s.setSite k x).boot = s.boot := rfl
@[simp] theorem State.setSite_fid (s : State) (k : Nat) (x : Site) : (s.setSite k x).fid = s.fid := rfl
@[simp] theorem State.setSite_unread (s : State) (k : Nat) (x : Site) : (s.setSite k x).unread = s.unread := rfl
@[simp] theorem State.setSite_out (s : State) (k : Nat) (x : Site) : (s.setSite k x).out = s.out := rfl

@[simp] theorem State.setLink_pending (s : State) (l : Nat) (x : Link) : (s.setLink l x).pending = s.pending := rfl
@[simp] theorem State.setLink_fuse (s : State) (l : Nat) (x : Link) : (s.setLink l x).fuse = s.fuse := rfl
@[simp] theorem State.setLink_tally (s : State) (l : Nat) (x : Link) : (s.setLink l x).tally = s.tally := rfl
@[simp] theorem State.setLink_freeCtr (s : State) (l : Nat) (x : Link) : (s.setLink l x).freeCtr = s.freeCtr := rfl
@[simp] theorem State.setLink_regs (s : State) (l : Nat) (x : Link) : (s.setLink l x).regs = s.regs := rfl
@[simp] theorem State.setLink_fab (s : State) (l : Nat) (x : Link) : (s.setLink l x).fab = s.fab := rfl
@[simp] theorem State.setLink_hank (s : State) (l : Nat) (x : Link) : (s.setLink l x).hank = s.hank := rfl
@[simp] theorem State.setLink_tiles (s : State) (l : Nat) (x : Link) : (s.setLink l x).tiles = s.tiles := rfl
@[simp] theorem State.setLink_cleats (s : State) (l : Nat) (x : Link) : (s.setLink l x).cleats = s.cleats := rfl
@[simp] theorem State.setLink_sites (s : State) (l : Nat) (x : Link) : (s.setLink l x).sites = s.sites := rfl
@[simp] theorem State.setLink_cmds (s : State) (l : Nat) (x : Link) : (s.setLink l x).cmds = s.cmds := rfl
@[simp] theorem State.setLink_xlt (s : State) (l : Nat) (x : Link) : (s.setLink l x).xlt = s.xlt := rfl
@[simp] theorem State.setLink_pwr (s : State) (l : Nat) (x : Link) : (s.setLink l x).pwr = s.pwr := rfl
@[simp] theorem State.setLink_sec (s : State) (l : Nat) (x : Link) : (s.setLink l x).sec = s.sec := rfl
@[simp] theorem State.setLink_ports (s : State) (l : Nat) (x : Link) : (s.setLink l x).ports = s.ports := rfl
@[simp] theorem State.setLink_boot (s : State) (l : Nat) (x : Link) : (s.setLink l x).boot = s.boot := rfl
@[simp] theorem State.setLink_fid (s : State) (l : Nat) (x : Link) : (s.setLink l x).fid = s.fid := rfl
@[simp] theorem State.setLink_unread (s : State) (l : Nat) (x : Link) : (s.setLink l x).unread = s.unread := rfl
@[simp] theorem State.setLink_out (s : State) (l : Nat) (x : Link) : (s.setLink l x).out = s.out := rfl

@[simp] theorem State.setPart_pending (s : State) (p : Nat) (x : Part) : (s.setPart p x).pending = s.pending := rfl
@[simp] theorem State.setPart_fuse (s : State) (p : Nat) (x : Part) : (s.setPart p x).fuse = s.fuse := rfl
@[simp] theorem State.setPart_tally (s : State) (p : Nat) (x : Part) : (s.setPart p x).tally = s.tally := rfl
@[simp] theorem State.setPart_freeCtr (s : State) (p : Nat) (x : Part) : (s.setPart p x).freeCtr = s.freeCtr := rfl
@[simp] theorem State.setPart_regs (s : State) (p : Nat) (x : Part) : (s.setPart p x).regs = s.regs := rfl
@[simp] theorem State.setPart_fab (s : State) (p : Nat) (x : Part) : (s.setPart p x).fab = s.fab := rfl
@[simp] theorem State.setPart_hank (s : State) (p : Nat) (x : Part) : (s.setPart p x).hank = s.hank := rfl
@[simp] theorem State.setPart_tiles (s : State) (p : Nat) (x : Part) : (s.setPart p x).tiles = s.tiles := rfl
@[simp] theorem State.setPart_cleats (s : State) (p : Nat) (x : Part) : (s.setPart p x).cleats = s.cleats := rfl
@[simp] theorem State.setPart_sites (s : State) (p : Nat) (x : Part) : (s.setPart p x).sites = s.sites := rfl
@[simp] theorem State.setPart_lan (s : State) (p : Nat) (x : Part) : (s.setPart p x).lan = s.lan := rfl
@[simp] theorem State.setPart_cmds (s : State) (p : Nat) (x : Part) : (s.setPart p x).cmds = s.cmds := rfl
@[simp] theorem State.setPart_xlt (s : State) (p : Nat) (x : Part) : (s.setPart p x).xlt = s.xlt := rfl
@[simp] theorem State.setPart_pwr (s : State) (p : Nat) (x : Part) : (s.setPart p x).pwr = s.pwr := rfl
@[simp] theorem State.setPart_ports (s : State) (p : Nat) (x : Part) : (s.setPart p x).ports = s.ports := rfl
@[simp] theorem State.setPart_boot (s : State) (p : Nat) (x : Part) : (s.setPart p x).boot = s.boot := rfl
@[simp] theorem State.setPart_fid (s : State) (p : Nat) (x : Part) : (s.setPart p x).fid = s.fid := rfl
@[simp] theorem State.setPart_unread (s : State) (p : Nat) (x : Part) : (s.setPart p x).unread = s.unread := rfl
@[simp] theorem State.setPart_out (s : State) (p : Nat) (x : Part) : (s.setPart p x).out = s.out := rfl

@[simp] theorem State.setLane_pending (s : State) (i : Nat) (x : Lane) : (s.setLane i x).pending = s.pending := rfl
@[simp] theorem State.setLane_fuse (s : State) (i : Nat) (x : Lane) : (s.setLane i x).fuse = s.fuse := rfl
@[simp] theorem State.setLane_tally (s : State) (i : Nat) (x : Lane) : (s.setLane i x).tally = s.tally := rfl
@[simp] theorem State.setLane_freeCtr (s : State) (i : Nat) (x : Lane) : (s.setLane i x).freeCtr = s.freeCtr := rfl
@[simp] theorem State.setLane_regs (s : State) (i : Nat) (x : Lane) : (s.setLane i x).regs = s.regs := rfl
@[simp] theorem State.setLane_fab (s : State) (i : Nat) (x : Lane) : (s.setLane i x).fab = s.fab := rfl
@[simp] theorem State.setLane_hank (s : State) (i : Nat) (x : Lane) : (s.setLane i x).hank = s.hank := rfl
@[simp] theorem State.setLane_tiles (s : State) (i : Nat) (x : Lane) : (s.setLane i x).tiles = s.tiles := rfl
@[simp] theorem State.setLane_cleats (s : State) (i : Nat) (x : Lane) : (s.setLane i x).cleats = s.cleats := rfl
@[simp] theorem State.setLane_sites (s : State) (i : Nat) (x : Lane) : (s.setLane i x).sites = s.sites := rfl
@[simp] theorem State.setLane_lan (s : State) (i : Nat) (x : Lane) : (s.setLane i x).lan = s.lan := rfl
@[simp] theorem State.setLane_xlt (s : State) (i : Nat) (x : Lane) : (s.setLane i x).xlt = s.xlt := rfl
@[simp] theorem State.setLane_pwr (s : State) (i : Nat) (x : Lane) : (s.setLane i x).pwr = s.pwr := rfl
@[simp] theorem State.setLane_sec (s : State) (i : Nat) (x : Lane) : (s.setLane i x).sec = s.sec := rfl
@[simp] theorem State.setLane_ports (s : State) (i : Nat) (x : Lane) : (s.setLane i x).ports = s.ports := rfl
@[simp] theorem State.setLane_boot (s : State) (i : Nat) (x : Lane) : (s.setLane i x).boot = s.boot := rfl
@[simp] theorem State.setLane_fid (s : State) (i : Nat) (x : Lane) : (s.setLane i x).fid = s.fid := rfl
@[simp] theorem State.setLane_unread (s : State) (i : Nat) (x : Lane) : (s.setLane i x).unread = s.unread := rfl
@[simp] theorem State.setLane_out (s : State) (i : Nat) (x : Lane) : (s.setLane i x).out = s.out := rfl

@[simp] theorem State.setLine_pending (s : State) (l : Nat) (x : Line) : (s.setLine l x).pending = s.pending := rfl
@[simp] theorem State.setLine_fuse (s : State) (l : Nat) (x : Line) : (s.setLine l x).fuse = s.fuse := rfl
@[simp] theorem State.setLine_tally (s : State) (l : Nat) (x : Line) : (s.setLine l x).tally = s.tally := rfl
@[simp] theorem State.setLine_freeCtr (s : State) (l : Nat) (x : Line) : (s.setLine l x).freeCtr = s.freeCtr := rfl
@[simp] theorem State.setLine_regs (s : State) (l : Nat) (x : Line) : (s.setLine l x).regs = s.regs := rfl
@[simp] theorem State.setLine_hank (s : State) (l : Nat) (x : Line) : (s.setLine l x).hank = s.hank := rfl
@[simp] theorem State.setLine_tiles (s : State) (l : Nat) (x : Line) : (s.setLine l x).tiles = s.tiles := rfl
@[simp] theorem State.setLine_cleats (s : State) (l : Nat) (x : Line) : (s.setLine l x).cleats = s.cleats := rfl
@[simp] theorem State.setLine_sites (s : State) (l : Nat) (x : Line) : (s.setLine l x).sites = s.sites := rfl
@[simp] theorem State.setLine_lan (s : State) (l : Nat) (x : Line) : (s.setLine l x).lan = s.lan := rfl
@[simp] theorem State.setLine_cmds (s : State) (l : Nat) (x : Line) : (s.setLine l x).cmds = s.cmds := rfl
@[simp] theorem State.setLine_xlt (s : State) (l : Nat) (x : Line) : (s.setLine l x).xlt = s.xlt := rfl
@[simp] theorem State.setLine_pwr (s : State) (l : Nat) (x : Line) : (s.setLine l x).pwr = s.pwr := rfl
@[simp] theorem State.setLine_sec (s : State) (l : Nat) (x : Line) : (s.setLine l x).sec = s.sec := rfl
@[simp] theorem State.setLine_ports (s : State) (l : Nat) (x : Line) : (s.setLine l x).ports = s.ports := rfl
@[simp] theorem State.setLine_boot (s : State) (l : Nat) (x : Line) : (s.setLine l x).boot = s.boot := rfl
@[simp] theorem State.setLine_fid (s : State) (l : Nat) (x : Line) : (s.setLine l x).fid = s.fid := rfl
@[simp] theorem State.setLine_unread (s : State) (l : Nat) (x : Line) : (s.setLine l x).unread = s.unread := rfl
@[simp] theorem State.setLine_out (s : State) (l : Nat) (x : Line) : (s.setLine l x).out = s.out := rfl

@[simp] theorem State.setPline_pending (s : State) (l : Nat) (x : PLine) : (s.setPline l x).pending = s.pending := rfl
@[simp] theorem State.setPline_fuse (s : State) (l : Nat) (x : PLine) : (s.setPline l x).fuse = s.fuse := rfl
@[simp] theorem State.setPline_tally (s : State) (l : Nat) (x : PLine) : (s.setPline l x).tally = s.tally := rfl
@[simp] theorem State.setPline_freeCtr (s : State) (l : Nat) (x : PLine) : (s.setPline l x).freeCtr = s.freeCtr := rfl
@[simp] theorem State.setPline_regs (s : State) (l : Nat) (x : PLine) : (s.setPline l x).regs = s.regs := rfl
@[simp] theorem State.setPline_hank (s : State) (l : Nat) (x : PLine) : (s.setPline l x).hank = s.hank := rfl
@[simp] theorem State.setPline_tiles (s : State) (l : Nat) (x : PLine) : (s.setPline l x).tiles = s.tiles := rfl
@[simp] theorem State.setPline_cleats (s : State) (l : Nat) (x : PLine) : (s.setPline l x).cleats = s.cleats := rfl
@[simp] theorem State.setPline_sites (s : State) (l : Nat) (x : PLine) : (s.setPline l x).sites = s.sites := rfl
@[simp] theorem State.setPline_lan (s : State) (l : Nat) (x : PLine) : (s.setPline l x).lan = s.lan := rfl
@[simp] theorem State.setPline_cmds (s : State) (l : Nat) (x : PLine) : (s.setPline l x).cmds = s.cmds := rfl
@[simp] theorem State.setPline_xlt (s : State) (l : Nat) (x : PLine) : (s.setPline l x).xlt = s.xlt := rfl
@[simp] theorem State.setPline_pwr (s : State) (l : Nat) (x : PLine) : (s.setPline l x).pwr = s.pwr := rfl
@[simp] theorem State.setPline_sec (s : State) (l : Nat) (x : PLine) : (s.setPline l x).sec = s.sec := rfl
@[simp] theorem State.setPline_ports (s : State) (l : Nat) (x : PLine) : (s.setPline l x).ports = s.ports := rfl
@[simp] theorem State.setPline_boot (s : State) (l : Nat) (x : PLine) : (s.setPline l x).boot = s.boot := rfl
@[simp] theorem State.setPline_fid (s : State) (l : Nat) (x : PLine) : (s.setPline l x).fid = s.fid := rfl
@[simp] theorem State.setPline_unread (s : State) (l : Nat) (x : PLine) : (s.setPline l x).unread = s.unread := rfl
@[simp] theorem State.setPline_out (s : State) (l : Nat) (x : PLine) : (s.setPline l x).out = s.out := rfl

@[simp] theorem State.setCleat_pending (s : State) (c : Nat) (x : Cleat) : (s.setCleat c x).pending = s.pending := rfl
@[simp] theorem State.setCleat_fuse (s : State) (c : Nat) (x : Cleat) : (s.setCleat c x).fuse = s.fuse := rfl
@[simp] theorem State.setCleat_tally (s : State) (c : Nat) (x : Cleat) : (s.setCleat c x).tally = s.tally := rfl
@[simp] theorem State.setCleat_freeCtr (s : State) (c : Nat) (x : Cleat) : (s.setCleat c x).freeCtr = s.freeCtr := rfl
@[simp] theorem State.setCleat_regs (s : State) (c : Nat) (x : Cleat) : (s.setCleat c x).regs = s.regs := rfl
@[simp] theorem State.setCleat_fab (s : State) (c : Nat) (x : Cleat) : (s.setCleat c x).fab = s.fab := rfl
@[simp] theorem State.setCleat_hank (s : State) (c : Nat) (x : Cleat) : (s.setCleat c x).hank = s.hank := rfl
@[simp] theorem State.setCleat_tiles (s : State) (c : Nat) (x : Cleat) : (s.setCleat c x).tiles = s.tiles := rfl
@[simp] theorem State.setCleat_sites (s : State) (c : Nat) (x : Cleat) : (s.setCleat c x).sites = s.sites := rfl
@[simp] theorem State.setCleat_lan (s : State) (c : Nat) (x : Cleat) : (s.setCleat c x).lan = s.lan := rfl
@[simp] theorem State.setCleat_cmds (s : State) (c : Nat) (x : Cleat) : (s.setCleat c x).cmds = s.cmds := rfl
@[simp] theorem State.setCleat_xlt (s : State) (c : Nat) (x : Cleat) : (s.setCleat c x).xlt = s.xlt := rfl
@[simp] theorem State.setCleat_pwr (s : State) (c : Nat) (x : Cleat) : (s.setCleat c x).pwr = s.pwr := rfl
@[simp] theorem State.setCleat_sec (s : State) (c : Nat) (x : Cleat) : (s.setCleat c x).sec = s.sec := rfl
@[simp] theorem State.setCleat_ports (s : State) (c : Nat) (x : Cleat) : (s.setCleat c x).ports = s.ports := rfl
@[simp] theorem State.setCleat_boot (s : State) (c : Nat) (x : Cleat) : (s.setCleat c x).boot = s.boot := rfl
@[simp] theorem State.setCleat_fid (s : State) (c : Nat) (x : Cleat) : (s.setCleat c x).fid = s.fid := rfl
@[simp] theorem State.setCleat_unread (s : State) (c : Nat) (x : Cleat) : (s.setCleat c x).unread = s.unread := rfl
@[simp] theorem State.setCleat_out (s : State) (c : Nat) (x : Cleat) : (s.setCleat c x).out = s.out := rfl

@[simp] theorem State.setRun_pending (s : State) (r : Run) : (s.setRun r).pending = s.pending := rfl
@[simp] theorem State.setRun_fuse (s : State) (r : Run) : (s.setRun r).fuse = s.fuse := rfl
@[simp] theorem State.setRun_tally (s : State) (r : Run) : (s.setRun r).tally = s.tally := rfl
@[simp] theorem State.setRun_freeCtr (s : State) (r : Run) : (s.setRun r).freeCtr = s.freeCtr := rfl
@[simp] theorem State.setRun_regs (s : State) (r : Run) : (s.setRun r).regs = s.regs := rfl
@[simp] theorem State.setRun_fab (s : State) (r : Run) : (s.setRun r).fab = s.fab := rfl
@[simp] theorem State.setRun_hank (s : State) (r : Run) : (s.setRun r).hank = s.hank := rfl
@[simp] theorem State.setRun_tiles (s : State) (r : Run) : (s.setRun r).tiles = s.tiles := rfl
@[simp] theorem State.setRun_cleats (s : State) (r : Run) : (s.setRun r).cleats = s.cleats := rfl
@[simp] theorem State.setRun_sites (s : State) (r : Run) : (s.setRun r).sites = s.sites := rfl
@[simp] theorem State.setRun_lan (s : State) (r : Run) : (s.setRun r).lan = s.lan := rfl
@[simp] theorem State.setRun_xlt (s : State) (r : Run) : (s.setRun r).xlt = s.xlt := rfl
@[simp] theorem State.setRun_pwr (s : State) (r : Run) : (s.setRun r).pwr = s.pwr := rfl
@[simp] theorem State.setRun_sec (s : State) (r : Run) : (s.setRun r).sec = s.sec := rfl
@[simp] theorem State.setRun_ports (s : State) (r : Run) : (s.setRun r).ports = s.ports := rfl
@[simp] theorem State.setRun_boot (s : State) (r : Run) : (s.setRun r).boot = s.boot := rfl
@[simp] theorem State.setRun_fid (s : State) (r : Run) : (s.setRun r).fid = s.fid := rfl
@[simp] theorem State.setRun_unread (s : State) (r : Run) : (s.setRun r).unread = s.unread := rfl
@[simp] theorem State.setRun_out (s : State) (r : Run) : (s.setRun r).out = s.out := rfl

@[simp] theorem State.pushOut_pending (s : State) (o : Out) : (s.pushOut o).pending = s.pending := rfl
@[simp] theorem State.pushOut_fuse (s : State) (o : Out) : (s.pushOut o).fuse = s.fuse := rfl
@[simp] theorem State.pushOut_tally (s : State) (o : Out) : (s.pushOut o).tally = s.tally := rfl
@[simp] theorem State.pushOut_freeCtr (s : State) (o : Out) : (s.pushOut o).freeCtr = s.freeCtr := rfl
@[simp] theorem State.pushOut_regs (s : State) (o : Out) : (s.pushOut o).regs = s.regs := rfl
@[simp] theorem State.pushOut_fab (s : State) (o : Out) : (s.pushOut o).fab = s.fab := rfl
@[simp] theorem State.pushOut_hank (s : State) (o : Out) : (s.pushOut o).hank = s.hank := rfl
@[simp] theorem State.pushOut_tiles (s : State) (o : Out) : (s.pushOut o).tiles = s.tiles := rfl
@[simp] theorem State.pushOut_cleats (s : State) (o : Out) : (s.pushOut o).cleats = s.cleats := rfl
@[simp] theorem State.pushOut_sites (s : State) (o : Out) : (s.pushOut o).sites = s.sites := rfl
@[simp] theorem State.pushOut_lan (s : State) (o : Out) : (s.pushOut o).lan = s.lan := rfl
@[simp] theorem State.pushOut_cmds (s : State) (o : Out) : (s.pushOut o).cmds = s.cmds := rfl
@[simp] theorem State.pushOut_xlt (s : State) (o : Out) : (s.pushOut o).xlt = s.xlt := rfl
@[simp] theorem State.pushOut_pwr (s : State) (o : Out) : (s.pushOut o).pwr = s.pwr := rfl
@[simp] theorem State.pushOut_sec (s : State) (o : Out) : (s.pushOut o).sec = s.sec := rfl
@[simp] theorem State.pushOut_ports (s : State) (o : Out) : (s.pushOut o).ports = s.ports := rfl
@[simp] theorem State.pushOut_boot (s : State) (o : Out) : (s.pushOut o).boot = s.boot := rfl
@[simp] theorem State.pushOut_fid (s : State) (o : Out) : (s.pushOut o).fid = s.fid := rfl
@[simp] theorem State.pushOut_unread (s : State) (o : Out) : (s.pushOut o).unread = s.unread := rfl

@[simp] theorem State.setCfg_pending (s : State) (w n : Nat) (b : Bool) : (s.setCfg w n b).pending = s.pending := rfl
@[simp] theorem State.setCfg_fuse (s : State) (w n : Nat) (b : Bool) : (s.setCfg w n b).fuse = s.fuse := rfl
@[simp] theorem State.setCfg_tally (s : State) (w n : Nat) (b : Bool) : (s.setCfg w n b).tally = s.tally := rfl
@[simp] theorem State.setCfg_freeCtr (s : State) (w n : Nat) (b : Bool) : (s.setCfg w n b).freeCtr = s.freeCtr := rfl
@[simp] theorem State.setCfg_regs (s : State) (w n : Nat) (b : Bool) : (s.setCfg w n b).regs = s.regs := rfl
@[simp] theorem State.setCfg_fab (s : State) (w n : Nat) (b : Bool) : (s.setCfg w n b).fab = s.fab := rfl
@[simp] theorem State.setCfg_hank (s : State) (w n : Nat) (b : Bool) : (s.setCfg w n b).hank = s.hank := rfl
@[simp] theorem State.setCfg_tiles (s : State) (w n : Nat) (b : Bool) : (s.setCfg w n b).tiles = s.tiles := rfl
@[simp] theorem State.setCfg_cleats (s : State) (w n : Nat) (b : Bool) : (s.setCfg w n b).cleats = s.cleats := rfl
@[simp] theorem State.setCfg_sites (s : State) (w n : Nat) (b : Bool) : (s.setCfg w n b).sites = s.sites := rfl
@[simp] theorem State.setCfg_lan (s : State) (w n : Nat) (b : Bool) : (s.setCfg w n b).lan = s.lan := rfl
@[simp] theorem State.setCfg_cmds (s : State) (w n : Nat) (b : Bool) : (s.setCfg w n b).cmds = s.cmds := rfl
@[simp] theorem State.setCfg_xlt (s : State) (w n : Nat) (b : Bool) : (s.setCfg w n b).xlt = s.xlt := rfl
@[simp] theorem State.setCfg_pwr (s : State) (w n : Nat) (b : Bool) : (s.setCfg w n b).pwr = s.pwr := rfl
@[simp] theorem State.setCfg_sec (s : State) (w n : Nat) (b : Bool) : (s.setCfg w n b).sec = s.sec := rfl
@[simp] theorem State.setCfg_boot (s : State) (w n : Nat) (b : Bool) : (s.setCfg w n b).boot = s.boot := rfl
@[simp] theorem State.setCfg_fid (s : State) (w n : Nat) (b : Bool) : (s.setCfg w n b).fid = s.fid := rfl
@[simp] theorem State.setCfg_unread (s : State) (w n : Nat) (b : Bool) : (s.setCfg w n b).unread = s.unread := rfl
@[simp] theorem State.setCfg_out (s : State) (w n : Nat) (b : Bool) : (s.setCfg w n b).out = s.out := rfl

/-! ## Reset -/

theorem State.reset_memory_wf : Memory.wf State.reset.hank.mem = true := rfl

end Sys2Proof.Machine
end

