-- ==== Sys2Proof/Laws/Memory.lean ====
section
/-! SUPPORT. Every operation on device memory keeps its canonical form; the lemmas go up to the operations that the commands call. -/

set_option linter.all false

namespace Sys2Proof.Machine

/-- The canonical form of device memory passes from s to t. -/
structure State.keepsForm (s t : State) : Prop where
  keep : Memory.wf s.hank.mem = true → Memory.wf t.hank.mem = true

theorem State.keepsForm.refl {s : State} : State.keepsForm s s := ⟨id⟩

theorem State.keepsForm.trans {s x t : State} (h : State.keepsForm s x) (h2 : State.keepsForm x t) : State.keepsForm s t :=
  ⟨fun a => h2.keep (h.keep a)⟩

theorem State.keepsForm.step {s x t : State} (h2 : State.keepsForm x t) (h : State.keepsForm s x) : State.keepsForm s t := h.trans h2

theorem State.keepsForm.base {s x t : State} (e : t.hank.mem = x.hank.mem) (h : State.keepsForm s x) : State.keepsForm s t :=
  ⟨fun a => e ▸ h.keep a⟩

theorem Comp.lacksMem {l : List Comp} (h : l.contains .mem = false) : l.contains .mem = false := h

/-- What cannot change the bytes keeps their form. -/
theorem State.keepsForm.only {l : List Comp} {s x t : State} (h2 : State.onlyIn l x t) (hl : l.contains .mem = false)
    (h : State.keepsForm s x) : State.keepsForm s t :=
  .base (h2.eq .mem fun hm => by rw [List.contains_iff_mem.mpr hm] at hl; cases hl) h

theorem State.keepsForm.foldl {α : Type} {g : State → α → State} {s x : State} {xs : List α}
    (hg : ∀ s a, State.keepsForm s (g s a)) (h : State.keepsForm s x) : State.keepsForm s (xs.foldl g x) := by
  induction xs generalizing x with
  | nil => exact h
  | cons a r ih => exact ih (h.trans (hg x a))

theorem atUnit_form {b : Bool} {s x t : State} (h : atUnit b x = .next t) (hx : State.keepsForm s x) : State.keepsForm s t := by
  unfold atUnit at h
  split at h <;> cases h
  exact hx

theorem whenever_form {b : Bool} {s x t : State} (h : whenever s b x = .next t) (hx : State.keepsForm s x) : State.keepsForm s t := by
  unfold whenever at h
  split at h <;> cases h
  · exact hx
  · exact .refl

theorem next_form {s x t : State} (h : (Host.Outcome.next x : Res) = .next t) (hx : State.keepsForm s x) : State.keepsForm s t := by
  cases h; exact hx

theorem putSec_wf (h : Hank) (w : Memory.wf h.mem = true) (sec : Nat) (d : BitVec 256) (mask : Nat) (m : Mark) :
    Memory.wf (h.putSec sec d mask m).mem = true := memWrite_wf w _ _ _ _

theorem State.writeSec_form (s : State) (sec : Nat) (d : BitVec 256) (mask : Nat) (poison : Bool) :
    State.keepsForm s (State.writeSec s sec d mask poison) := by
  refine ⟨fun w => ?_⟩
  unfold State.writeSec
  dsimp only
  split
  · exact putSec_wf _ w _ _ _ _
  · exact putSec_wf _ (putSec_wf _ w _ _ _ _) _ _ _ _

theorem State.zeroGranule_form (s : State) (g : Nat) : State.keepsForm s (State.zeroGranule s g) :=
  ⟨fun w => by unfold State.zeroGranule; dsimp only; exact memory_tkeep_wf w _⟩

theorem foldl_memSet_wf (f : Nat → Nat) (l : List Host.Cell) {m : List Host.Cell} (w : Memory.wf m = true) :
    Memory.wf (l.foldl (fun m e => memSet m (f e.1) e.2) m) = true := by
  induction l generalizing m with
  | nil => exact w
  | cons e r ih => exact ih (memSet_wf w _ _)

theorem State.copyGranule_form (s : State) (src dst : Nat) : State.keepsForm s (State.copyGranule s src dst) :=
  ⟨fun w => by unfold State.copyGranule; dsimp only; exact foldl_memSet_wf (fun k => dst * 0x10000000 + k % 0x10000000) _ (memory_tkeep_wf w _)⟩

theorem State.afresh_form (s : State) : State.keepsForm s (State.afresh s) := by
  unfold State.afresh
  dsimp only
  with_reducible apply State.keepsForm.foldl
  · intro t f
    with_reducible apply State.keepsForm.only (State.fset_only _ _ _ _ _)
    · rfl
    · exact .refl
  · with_reducible apply State.keepsForm.only (State.fusedRegs_only _ _)
    · rfl
    · exact ⟨fun _ => rfl⟩

theorem State.barAccess_form {s : State} {w : Win} {read : Bool} {k : State → State} (hk_k : ∀ y0, State.keepsForm y0 (k y0)) :
    State.keepsForm s (State.barAccess s w read k) := by
  unfold State.barAccess
  repeat' (first
    | intro _
    | ((with_reducible apply Comp.lacksMem); exact rfl)
    | with_reducible apply State.keepsForm.refl
    | with_reducible assumption
    | with_reducible apply State.keepsForm.foldl
    | dsimp only
    | split
    | with_reducible apply State.keepsForm.only (State.barUr_only _ _ _)
    | with_reducible apply State.keepsForm.only (State.aerErr_only _ _ _ _)
    | with_reducible apply State.keepsForm.only (State.pushOut_only _ _)
    | with_reducible refine .trans ?_ (hk_k _))

theorem State.barAccess_formStep {s0 : State} {s : State} {w : Win} {read : Bool} {k : State → State} (hk_k : ∀ y0, State.keepsForm y0 (k y0)) (h0 : State.keepsForm s0 s) :
    State.keepsForm s0 (State.barAccess s w read k) := h0.trans (State.barAccess_form hk_k)

theorem State.byPath_form {s : State} {p : Path} {read : Bool} {k : State → State} (hk_k : ∀ y0, State.keepsForm y0 (k y0)) :
    State.keepsForm s (State.byPath s p read k) := by
  unfold State.byPath
  repeat' (first
    | intro _
    | ((with_reducible apply Comp.lacksMem); exact rfl)
    | with_reducible apply State.keepsForm.refl
    | with_reducible assumption
    | with_reducible apply State.keepsForm.foldl
    | dsimp only
    | split
    | with_reducible apply State.barAccess_formStep
    | with_reducible refine .trans ?_ (hk_k _))

theorem State.byPath_formStep {s0 : State} {s : State} {p : Path} {read : Bool} {k : State → State} (hk_k : ∀ y0, State.keepsForm y0 (k y0)) (h0 : State.keepsForm s0 s) :
    State.keepsForm s0 (State.byPath s p read k) := h0.trans (State.byPath_form hk_k)

theorem State.regGate_form {s : State} {p : Path} {b : Blk} {inst : Nat} {off : Nat} {k : State → State} (hk_k : ∀ y0, State.keepsForm y0 (k y0)) :
    State.keepsForm s (State.regGate s p b inst off k) := by
  unfold State.regGate
  repeat' (first
    | intro _
    | ((with_reducible apply Comp.lacksMem); exact rfl)
    | with_reducible apply State.keepsForm.refl
    | with_reducible assumption
    | with_reducible apply State.keepsForm.foldl
    | dsimp only
    | split
    | with_reducible apply State.keepsForm.only (State.regEvent_only _ _ _ _ _)
    | with_reducible refine .trans ?_ (hk_k _))

theorem State.regGate_formStep {s0 : State} {s : State} {p : Path} {b : Blk} {inst : Nat} {off : Nat} {k : State → State} (hk_k : ∀ y0, State.keepsForm y0 (k y0)) (h0 : State.keepsForm s0 s) :
    State.keepsForm s0 (State.regGate s p b inst off k) := h0.trans (State.regGate_form hk_k)

theorem State.regWrite_form {s : State} {p : Path} {b : Blk} {inst : Nat} {off : Nat} {k : State → State} (hk_k : ∀ y0, State.keepsForm y0 (k y0)) :
    State.keepsForm s (State.regWrite s p b inst off k) := by
  unfold State.regWrite
  repeat' (first
    | intro _
    | ((with_reducible apply Comp.lacksMem); exact rfl)
    | with_reducible apply State.keepsForm.refl
    | with_reducible assumption
    | with_reducible apply State.keepsForm.foldl
    | dsimp only
    | split
    | with_reducible apply State.regGate_formStep
    | with_reducible apply State.byPath_formStep
    | with_reducible refine .trans ?_ (hk_k _))

theorem State.regWrite_formStep {s0 : State} {s : State} {p : Path} {b : Blk} {inst : Nat} {off : Nat} {k : State → State} (hk_k : ∀ y0, State.keepsForm y0 (k y0)) (h0 : State.keepsForm s0 s) :
    State.keepsForm s0 (State.regWrite s p b inst off k) := h0.trans (State.regWrite_form hk_k)

theorem State.writeFound_form (s : State) (sec : Nat) (other : Option (BitVec 256)) : State.keepsForm s (State.writeFound s sec other) := by
  unfold State.writeFound
  split
  · exact .refl
  · exact ⟨fun w => putSec_wf _ w _ _ _ _⟩

theorem State.reading_form (s : State) (sec : Nat) (ch : Nat) (rcv : Bool) (l : List Dec) :
    State.keepsForm s (State.reading s sec ch rcv l).st := by
  unfold State.reading
  repeat' (first
    | intro _
    | ((with_reducible apply Comp.lacksMem); exact rfl)
    | with_reducible apply State.keepsForm.refl
    | with_reducible assumption
    | with_reducible apply State.keepsForm.foldl
    | dsimp only
    | split
    | with_reducible apply State.keepsForm.step (State.writeFound_form _ _ _)
    | with_reducible apply State.keepsForm.only (State.corrected_only _ _ _)
    | with_reducible apply State.keepsForm.only (State.bucketAdd_only _ _ _)
    | with_reducible apply State.keepsForm.only (State.fidEvent_only _ _ _ _ _ _ _)
    | with_reducible apply State.keepsForm.only (State.fadd_only _ _ _ _ _))

theorem State.mirrorRead_form (s : State) (m sec ch : Nat) (l : List Dec) :
    State.keepsForm s (State.mirrorRead s m sec ch l).st := by
  have hr : State.keepsForm s (s.reading m (s.chanOf (m * 32)) false l).st := State.reading_form _ _ _ _ _
  unfold State.mirrorRead
  dsimp only
  split
  · refine .only (State.bump_only _) rfl ?_
    refine ⟨fun w => putSec_wf _ ?_ _ _ _ _⟩
    exact (State.keepsForm.only (State.ev_only _ R.SEC_EVENT_MIRROR_SERVED 0) rfl hr).keep w
  · refine .only (State.bump_only _) rfl ?_
    refine .only (State.ev_only _ _ _) rfl ?_
    refine .only (State.lost_only _ _ _) rfl ?_
    exact .only (State.poisonSec_only _ _) rfl hr

theorem State.secReadBy_form (s : State) (twin : Option Nat) (sec : Nat) (l : List Dec) :
    State.keepsForm s (State.secReadBy s twin sec l).st := by
  unfold State.secReadBy
  repeat' (first
    | intro _
    | ((with_reducible apply Comp.lacksMem); exact rfl)
    | with_reducible apply State.keepsForm.refl
    | with_reducible assumption
    | with_reducible apply State.keepsForm.foldl
    | with_reducible apply State.keepsForm.foldl2
    | dsimp only
    | (split <;> first | (rename_i heq; have hx := congrArg (fun z => z.2) heq; dsimp only at hx; subst hx) | (rename_i heq; have hx := congrArg (fun z => z.2.2) heq; dsimp only at hx; subst hx) | skip)
    | split
    | with_reducible apply State.keepsForm.only (State.shadowRead_only _ _ _ _ _)
    | with_reducible apply State.keepsForm.step (State.mirrorRead_form _ _ _ _ _)
    | with_reducible apply State.keepsForm.only (State.lost_only _ _ _)
    | with_reducible apply State.keepsForm.step (State.reading_form _ _ _ _ _)
    | with_reducible apply State.keepsForm.only (State.poisonSec_only _ _)
    | with_reducible apply State.keepsForm.only (State.bump_only _))

theorem State.secRead_form (s : State) (sec : Nat) (l : List Dec) :
    State.keepsForm s (State.secRead s sec l).st := by
  unfold State.secRead
  repeat' (first
    | intro _
    | ((with_reducible apply Comp.lacksMem); exact rfl)
    | with_reducible apply State.keepsForm.refl
    | with_reducible assumption
    | with_reducible apply State.keepsForm.foldl
    | dsimp only
    | split
    | with_reducible apply State.keepsForm.step (State.secReadBy_form _ _ _ _))

theorem State.lineRead_form (s : State) (line : Nat) (sect : BitVec 2) (l : List Dec) :
    State.keepsForm s (State.lineRead s line sect l).2.2.2 := by
  unfold State.lineRead
  repeat' (first
    | intro _
    | ((with_reducible apply Comp.lacksMem); exact rfl)
    | with_reducible apply State.keepsForm.refl
    | with_reducible assumption
    | with_reducible apply State.keepsForm.foldl
    | with_reducible apply State.keepsForm.foldl2
    | dsimp only
    | split
    | with_reducible apply State.keepsForm.step (State.secRead_form _ _ _))

theorem State.atChannel_form {s : State} {p : Pkt} {op : Op} {k : State → State} (hk_k : ∀ y0, State.keepsForm y0 (k y0)) :
    State.keepsForm s (State.atChannel s p op k) := by
  unfold State.atChannel
  repeat' (first
    | intro _
    | ((with_reducible apply Comp.lacksMem); exact rfl)
    | with_reducible apply State.keepsForm.refl
    | with_reducible assumption
    | with_reducible apply State.keepsForm.foldl
    | dsimp only
    | split
    | with_reducible apply State.keepsForm.only (State.holdCold_only _ _)
    | with_reducible apply State.keepsForm.only (State.forward_only _ _)
    | with_reducible apply State.keepsForm.only (State.sendPkt_only _ _)
    | with_reducible apply State.keepsForm.only (State.deny_only _ _ _ _ _)
    | with_reducible refine .trans ?_ (hk_k _))

theorem State.atChannel_formStep {s0 : State} {s : State} {p : Pkt} {op : Op} {k : State → State} (hk_k : ∀ y0, State.keepsForm y0 (k y0)) (h0 : State.keepsForm s0 s) :
    State.keepsForm s0 (State.atChannel s p op k) := h0.trans (State.atChannel_form hk_k)

theorem State.fromHome_form {s : State} {p : Pkt} {op : Op} {k : State → State} (hk_k : ∀ y0, State.keepsForm y0 (k y0)) :
    State.keepsForm s (State.fromHome s p op k) := by
  unfold State.fromHome
  repeat' (first
    | intro _
    | ((with_reducible apply Comp.lacksMem); exact rfl)
    | with_reducible apply State.keepsForm.refl
    | with_reducible assumption
    | with_reducible apply State.keepsForm.foldl
    | dsimp only
    | split
    | with_reducible apply State.keepsForm.only (State.holdCold_only _ _)
    | with_reducible apply State.keepsForm.only (State.forward_only _ _)
    | with_reducible apply State.keepsForm.only (State.sendPkt_only _ _)
    | with_reducible refine .trans ?_ (hk_k _))

theorem State.fromHome_formStep {s0 : State} {s : State} {p : Pkt} {op : Op} {k : State → State} (hk_k : ∀ y0, State.keepsForm y0 (k y0)) (h0 : State.keepsForm s0 s) :
    State.keepsForm s0 (State.fromHome s p op k) := h0.trans (State.fromHome_form hk_k)

theorem State.chanRead_form (s : State) (p : Pkt) (phys : List Dec) :
    State.keepsForm s (State.chanRead s p phys) := by
  unfold State.chanRead
  repeat' (first
    | intro _
    | ((with_reducible apply Comp.lacksMem); exact rfl)
    | with_reducible apply State.keepsForm.refl
    | with_reducible assumption
    | with_reducible apply State.keepsForm.foldl
    | with_reducible apply State.keepsForm.foldl2
    | dsimp only
    | (split <;> first | (rename_i heq; have hx := congrArg (fun z => z.2) heq; dsimp only at hx; subst hx) | (rename_i heq; have hx := congrArg (fun z => z.2.2) heq; dsimp only at hx; subst hx) | skip)
    | split
    | with_reducible apply State.keepsForm.only (State.secEvent_only _ _ _ _)
    | with_reducible apply State.keepsForm.step (State.lineRead_form _ _ _ _)
    | with_reducible apply State.keepsForm.only (State.sendPkt_only _ _)
    | (refine State.keepsForm.base (x := s) rfl ?_))

theorem State.secWrite_form (s : State) (p : Pkt) (i : Nat) (l : List Dec) :
    State.keepsForm s (State.secWrite s p i l).2.2 := by
  unfold State.secWrite
  repeat' (first
    | intro _
    | ((with_reducible apply Comp.lacksMem); exact rfl)
    | with_reducible apply State.keepsForm.refl
    | with_reducible assumption
    | with_reducible apply State.keepsForm.foldl
    | with_reducible apply State.keepsForm.foldl2
    | dsimp only
    | split
    | with_reducible apply State.keepsForm.step (State.secRead_form _ _ _)
    | with_reducible apply State.keepsForm.step (State.writeSec_form _ _ _ _ _))

theorem State.lineWrite_form (s : State) (p : Pkt) (l : List Dec) :
    State.keepsForm s (State.lineWrite s p l).2 := by
  unfold State.lineWrite
  repeat' (first
    | intro _
    | ((with_reducible apply Comp.lacksMem); exact rfl)
    | with_reducible apply State.keepsForm.refl
    | with_reducible assumption
    | with_reducible apply State.keepsForm.foldl
    | with_reducible apply State.keepsForm.foldl2
    | dsimp only
    | (split <;> first | (rename_i heq; have hx := congrArg (fun z => z.2) heq; dsimp only at hx; subst hx) | (rename_i heq; have hx := congrArg (fun z => z.2.2) heq; dsimp only at hx; subst hx) | skip)
    | split
    | with_reducible apply State.keepsForm.step (State.secWrite_form _ _ _ _))

theorem State.chanWrite_form (s : State) (p : Pkt) (phys : List Dec) :
    State.keepsForm s (State.chanWrite s p phys) := by
  unfold State.chanWrite
  repeat' (first
    | intro _
    | ((with_reducible apply Comp.lacksMem); exact rfl)
    | with_reducible apply State.keepsForm.refl
    | with_reducible assumption
    | with_reducible apply State.keepsForm.foldl
    | with_reducible apply State.keepsForm.foldl2
    | dsimp only
    | (split <;> first | (rename_i heq; have hx := congrArg (fun z => z.2) heq; dsimp only at hx; subst hx) | (rename_i heq; have hx := congrArg (fun z => z.2.2) heq; dsimp only at hx; subst hx) | skip)
    | split
    | with_reducible apply State.keepsForm.step (State.lineWrite_form _ _ _)
    | with_reducible apply State.keepsForm.only (State.endJoin_only _ _)
    | with_reducible apply State.keepsForm.only (State.secEvent_only _ _ _ _)
    | with_reducible apply State.keepsForm.only (State.sendPkt_only _ _))

theorem State.chanAtomic_form (s : State) (p : Pkt) (phys : List Dec) :
    State.keepsForm s (State.chanAtomic s p phys) := by
  unfold State.chanAtomic
  repeat' (first
    | intro _
    | ((with_reducible apply Comp.lacksMem); exact rfl)
    | with_reducible apply State.keepsForm.refl
    | with_reducible assumption
    | with_reducible apply State.keepsForm.foldl
    | dsimp only
    | split
    | with_reducible apply State.keepsForm.only (State.endJoin_only _ _)
    | with_reducible apply State.keepsForm.only (State.secEvent_only _ _ _ _)
    | with_reducible apply State.keepsForm.step (State.secRead_form _ _ _)
    | with_reducible apply State.keepsForm.only (State.sendPkt_only _ _)
    | with_reducible apply State.keepsForm.step (State.writeSec_form _ _ _ _ _)
    | with_reducible apply State.keepsForm.only (State.bump_only _))

theorem State.chanFill_form (s : State) (p : Pkt) (phys : List Dec) :
    State.keepsForm s (State.chanFill s p phys) := by
  unfold State.chanFill
  repeat' (first
    | intro _
    | ((with_reducible apply Comp.lacksMem); exact rfl)
    | with_reducible apply State.keepsForm.refl
    | with_reducible assumption
    | with_reducible apply State.keepsForm.foldl
    | with_reducible apply State.keepsForm.foldl2
    | dsimp only
    | (split <;> first | (rename_i heq; have hx := congrArg (fun z => z.2) heq; dsimp only at hx; subst hx) | (rename_i heq; have hx := congrArg (fun z => z.2.2) heq; dsimp only at hx; subst hx) | skip)
    | split
    | with_reducible apply State.keepsForm.only (State.secEvent_only _ _ _ _)
    | with_reducible apply State.keepsForm.step (State.lineRead_form _ _ _ _)
    | with_reducible apply State.keepsForm.only (State.sendPkt_only _ _))

theorem State.chanPoison_form (s : State) (p : Pkt) :
    State.keepsForm s (State.chanPoison s p) := by
  unfold State.chanPoison
  repeat' (first
    | intro _
    | ((with_reducible apply Comp.lacksMem); exact rfl)
    | with_reducible apply State.keepsForm.refl
    | with_reducible assumption
    | with_reducible apply State.keepsForm.foldl
    | dsimp only
    | split
    | with_reducible apply State.keepsForm.only (State.endJoin_only _ _)
    | with_reducible apply State.keepsForm.only (State.secEvent_only _ _ _ _)
    | with_reducible apply State.keepsForm.only (State.sendPkt_only _ _)
    | with_reducible apply State.keepsForm.step (State.writeSec_form _ _ _ _ _))

theorem State.copyReads_form (s : State) (key : Nat) (ch : Nat) (reads : List (Nat × List Dec)) :
    State.keepsForm s (State.copyReads s key ch reads) := by
  unfold State.copyReads
  repeat' (first
    | intro _
    | ((with_reducible apply Comp.lacksMem); exact rfl)
    | with_reducible apply State.keepsForm.refl
    | with_reducible assumption
    | with_reducible apply State.keepsForm.foldl
    | dsimp only
    | split
    | with_reducible apply State.keepsForm.step (State.reading_form _ _ _ _ _)
    | with_reducible apply State.keepsForm.only (State.memLoc_only _ _ _ _)
    | with_reducible apply State.keepsForm.only (State.poisonSec_only _ _)
    | with_reducible apply State.keepsForm.only (State.ev_only _ _ _))

theorem State.wreg_form {s : State} {w : Win} {k : State → State} (hk_k : ∀ y0, State.keepsForm y0 (k y0)) :
    State.keepsForm s (State.wreg s w k) := by
  unfold State.wreg
  repeat' (first
    | intro _
    | ((with_reducible apply Comp.lacksMem); exact rfl)
    | with_reducible apply State.keepsForm.refl
    | with_reducible assumption
    | with_reducible apply State.keepsForm.foldl
    | dsimp only
    | split
    | with_reducible apply State.keepsForm.only (State.barUr_only _ _ _)
    | with_reducible refine .trans ?_ (hk_k _))

theorem State.wreg_formStep {s0 : State} {s : State} {w : Win} {k : State → State} (hk_k : ∀ y0, State.keepsForm y0 (k y0)) (h0 : State.keepsForm s0 s) :
    State.keepsForm s0 (State.wreg s w k) := h0.trans (State.wreg_form hk_k)

theorem State.cmdBody_form {s : State} {id : Nat} {op : Nat} {k : Run → State → State} (hk_k : ∀ y0 y1, State.keepsForm y1 (k y0 y1)) :
    State.keepsForm s (State.cmdBody s id op k) := by
  unfold State.cmdBody
  repeat' (first
    | intro _
    | ((with_reducible apply Comp.lacksMem); exact rfl)
    | with_reducible apply State.keepsForm.refl
    | with_reducible assumption
    | with_reducible apply State.keepsForm.foldl
    | dsimp only
    | split
    | with_reducible apply State.keepsForm.only (State.setRun_only _ _)
    | with_reducible refine .trans ?_ (hk_k _ _))

theorem State.cmdBody_formStep {s0 : State} {s : State} {id : Nat} {op : Nat} {k : Run → State → State} (hk_k : ∀ y0 y1, State.keepsForm y1 (k y0 y1)) (h0 : State.keepsForm s0 s) :
    State.keepsForm s0 (State.cmdBody s id op k) := h0.trans (State.cmdBody_form hk_k)

theorem State.grantRow_form {s : State} {id : Nat} {isOp : Nat → Bool} {k : Run → Nat → State → State} (hk_k : ∀ y0 y1 y2, State.keepsForm y2 (k y0 y1 y2)) :
    State.keepsForm s (State.grantRow s id isOp k) := by
  unfold State.grantRow
  repeat' (first
    | intro _
    | ((with_reducible apply Comp.lacksMem); exact rfl)
    | with_reducible apply State.keepsForm.refl
    | with_reducible assumption
    | with_reducible apply State.keepsForm.foldl
    | dsimp only
    | split
    | with_reducible apply State.cmdBody_formStep
    | with_reducible apply State.keepsForm.only (State.tdiError_only _ _)
    | with_reducible apply State.keepsForm.only (State.finish_only _ _ _ _)
    | with_reducible refine .trans ?_ (hk_k _ _ _))

theorem State.grantRow_formStep {s0 : State} {s : State} {id : Nat} {isOp : Nat → Bool} {k : Run → Nat → State → State} (hk_k : ∀ y0 y1 y2, State.keepsForm y2 (k y0 y1 y2)) (h0 : State.keepsForm s0 s) :
    State.keepsForm s0 (State.grantRow s id isOp k) := h0.trans (State.grantRow_form hk_k)

theorem State.mirrorRange_form {k : Nat} {s : State} {range : Nat × Nat} {first : Nat} {t1 : State}
    (h1 : State.mirrorRange k s range first = some t1) : State.keepsForm s t1 := by
  unfold State.mirrorRange at h1
  dsimp only at h1
  split at h1
  · cases h1
  · cases h1
    refine .foldl (fun x a => ?_) .refl
    obtain ⟨g, m⟩ := a
    refine .only (State.setOwn_only _ _ _) rfl ?_
    refine .only (State.setOwn_only _ _ _) rfl ?_
    exact (State.copyGranule_form _ _ _).step (.only (State.leaveFill_only _ _) rfl .refl)

theorem State.mirrorRecs_form (s : State) (r : Run) (k : Nat) (i : Nat) (x4 : List (Nat × Nat)) :
    State.keepsForm s (State.mirrorRecs s r k i x4) := by
  induction x4 generalizing s r k i with
  | nil =>
    rw [State.mirrorRecs]
    repeat' (first
      | intro _
      | ((with_reducible apply Comp.lacksMem); exact rfl)
      | with_reducible apply State.keepsForm.refl
      | with_reducible assumption
      | with_reducible apply State.keepsForm.foldl
      | dsimp only
      | split
      | with_reducible apply State.keepsForm.step (State.mirrorRange_form (by assumption))
      | with_reducible apply State.keepsForm.only (State.setSset_only _ _ _)
      | with_reducible apply State.keepsForm.only (State.finish_only _ _ _ _)
      | with_reducible refine .trans ?_ (ih _ _ _ _))
  | cons a r ih =>
    rw [State.mirrorRecs]
    repeat' (first
      | intro _
      | ((with_reducible apply Comp.lacksMem); exact rfl)
      | with_reducible apply State.keepsForm.refl
      | with_reducible assumption
      | with_reducible apply State.keepsForm.foldl
      | dsimp only
      | split
      | with_reducible apply State.keepsForm.step (State.mirrorRange_form (by assumption))
      | with_reducible apply State.keepsForm.only (State.setSset_only _ _ _)
      | with_reducible apply State.keepsForm.only (State.finish_only _ _ _ _)
      | with_reducible refine .trans ?_ (ih _ _ _ _))

theorem State.message_form {s : State} {k : State → State} (hk_k : ∀ y0, State.keepsForm y0 (k y0)) :
    State.keepsForm s (State.message s k) := by
  unfold State.message
  repeat' (first
    | intro _
    | ((with_reducible apply Comp.lacksMem); exact rfl)
    | with_reducible apply State.keepsForm.refl
    | with_reducible assumption
    | with_reducible apply State.keepsForm.foldl
    | dsimp only
    | split
    | with_reducible refine .trans ?_ (hk_k _))

theorem State.message_formStep {s0 : State} {s : State} {k : State → State} (hk_k : ∀ y0, State.keepsForm y0 (k y0)) (h0 : State.keepsForm s0 s) :
    State.keepsForm s0 (State.message s k) := h0.trans (State.message_form hk_k)

theorem State.inSession_form {s : State} {w : Win} {k : State → State} (hk_k : ∀ y0, State.keepsForm y0 (k y0)) :
    State.keepsForm s (State.inSession s w k) := by
  unfold State.inSession
  repeat' (first
    | intro _
    | ((with_reducible apply Comp.lacksMem); exact rfl)
    | with_reducible apply State.keepsForm.refl
    | with_reducible assumption
    | with_reducible apply State.keepsForm.foldl
    | dsimp only
    | split
    | with_reducible apply State.keepsForm.only (State.spdmFail_only _ _ _)
    | with_reducible refine .trans ?_ (hk_k _))

theorem State.inSession_formStep {s0 : State} {s : State} {w : Win} {k : State → State} (hk_k : ∀ y0, State.keepsForm y0 (k y0)) (h0 : State.keepsForm s0 s) :
    State.keepsForm s0 (State.inSession s w k) := h0.trans (State.inSession_form hk_k)

theorem State.startBoot_form (s : State) (e : BootEnv) :
    State.keepsForm s (State.startBoot s e) := by
  unfold State.startBoot
  repeat' (first
    | intro _
    | ((with_reducible apply Comp.lacksMem); exact rfl)
    | with_reducible apply State.keepsForm.refl
    | with_reducible assumption
    | with_reducible apply State.keepsForm.foldl
    | dsimp only
    | split
    | with_reducible apply State.keepsForm.only (State.bootBegun_only _ _)
    | with_reducible apply State.keepsForm.only (State.senseCooling_only _ _)
    | with_reducible apply State.keepsForm.only (State.loadFw_only _ _)
    | with_reducible apply State.keepsForm.only (State.bootStop_only _ _)
    | with_reducible apply State.keepsForm.step (State.afresh_form _)
    | with_reducible apply State.keepsForm.only (State.drawNonce_only _))

theorem State.deviceReset_form (s : State) :
    State.keepsForm s (State.deviceReset s) := by
  unfold State.deviceReset
  repeat' (first
    | intro _
    | ((with_reducible apply Comp.lacksMem); exact rfl)
    | with_reducible apply State.keepsForm.refl
    | with_reducible assumption
    | with_reducible apply State.keepsForm.foldl
    | dsimp only
    | split
    | with_reducible apply State.keepsForm.step (State.startBoot_form _ _))

theorem State.saveSector_form (s : State) (planned : Bool) (h : Half) (sec : Nat) (d : BitVec 256) (mask : Nat) (poison : Bool) :
    State.keepsForm s (State.saveSector s planned h sec d mask poison) := by
  unfold State.saveSector
  repeat' (first
    | intro _
    | ((with_reducible apply Comp.lacksMem); exact rfl)
    | with_reducible apply State.keepsForm.refl
    | with_reducible assumption
    | with_reducible apply State.keepsForm.foldl
    | dsimp only
    | split
    | with_reducible apply State.keepsForm.step (State.writeSec_form _ _ _ _ _)
    | (refine State.keepsForm.base (x := s) rfl ?_))

theorem State.drainWrite_form (planned : Bool) (h : Half) (s : State) (p : Pkt) :
    State.keepsForm s (State.drainWrite planned h s p) := by
  unfold State.drainWrite
  repeat' (first
    | intro _
    | ((with_reducible apply Comp.lacksMem); exact rfl)
    | with_reducible apply State.keepsForm.refl
    | with_reducible assumption
    | with_reducible apply State.keepsForm.foldl
    | with_reducible apply State.keepsForm.foldl2
    | dsimp only
    | (split <;> first | (rename_i heq; have hx := congrArg (fun z => z.2) heq; dsimp only at hx; subst hx) | (rename_i heq; have hx := congrArg (fun z => z.2.2) heq; dsimp only at hx; subst hx) | skip)
    | split
    | with_reducible apply State.keepsForm.step (State.saveSector_form _ _ _ _ _ _ _)
    | with_reducible apply State.keepsForm.step (State.lineWrite_form _ _ _))

theorem State.drainLine_form (planned : Bool) (h : Half) (s : State) (e : Nat × Line) :
    State.keepsForm s (State.drainLine planned h s e) := by
  unfold State.drainLine
  repeat' (first
    | intro _
    | ((with_reducible apply Comp.lacksMem); exact rfl)
    | with_reducible apply State.keepsForm.refl
    | with_reducible assumption
    | with_reducible apply State.keepsForm.foldl
    | dsimp only
    | split
    | with_reducible apply State.keepsForm.step (State.saveSector_form _ _ _ _ _ _ _))

theorem State.drainHalf_form (s : State) (h : Half) (planned : Bool) :
    State.keepsForm s (State.drainHalf s h planned) := by
  unfold State.drainHalf
  repeat' (first
    | intro _
    | ((with_reducible apply Comp.lacksMem); exact rfl)
    | with_reducible apply State.keepsForm.refl
    | with_reducible assumption
    | with_reducible apply State.keepsForm.foldl
    | dsimp only
    | split
    | with_reducible apply State.keepsForm.step (State.drainLine_form _ _ _ _)
    | with_reducible apply State.keepsForm.step (State.drainWrite_form _ _ _ _))

theorem State.takeDown_form (s : State) (h : Half) (planned : Bool) :
    State.keepsForm s (State.takeDown s h planned) := by
  unfold State.takeDown
  repeat' (first
    | intro _
    | ((with_reducible apply Comp.lacksMem); exact rfl)
    | with_reducible apply State.keepsForm.refl
    | with_reducible assumption
    | with_reducible apply State.keepsForm.foldl
    | dsimp only
    | split
    | with_reducible apply State.keepsForm.only (State.dropGroups_only _ _)
    | with_reducible apply State.keepsForm.only (State.coreGone_only _ _)
    | with_reducible apply State.keepsForm.only (State.dropThrottles_only _ _)
    | with_reducible apply State.keepsForm.only (State.dropFid_only _ _)
    | with_reducible apply State.keepsForm.only (State.dropXlt_only _ _)
    | with_reducible apply State.keepsForm.only (State.dropTiles_only _ _)
    | with_reducible apply State.keepsForm.only (State.dropRuns_only _ _)
    | with_reducible apply State.keepsForm.only (State.dropPort_only _ _)
    | with_reducible apply State.keepsForm.only (State.haltGroups_only _ _)
    | with_reducible apply State.keepsForm.only (State.dropSite_only _ _)
    | with_reducible apply State.keepsForm.only (State.dropLinks_only _ _)
    | with_reducible apply State.keepsForm.only (State.dropCleats_only _ _)
    | with_reducible apply State.keepsForm.only (State.dropFabric_only _ _)
    | with_reducible apply State.keepsForm.step (State.drainHalf_form _ _ _)
    | with_reducible apply State.keepsForm.only (State.closeSplice_only _ _))

theorem State.enterWarm_form (s : State) (h : Half) (cause : Nat) (planned : Bool) :
    State.keepsForm s (State.enterWarm s h cause planned) := by
  unfold State.enterWarm
  repeat' (first
    | intro _
    | ((with_reducible apply Comp.lacksMem); exact rfl)
    | with_reducible apply State.keepsForm.refl
    | with_reducible assumption
    | with_reducible apply State.keepsForm.foldl
    | dsimp only
    | split
    | with_reducible apply State.keepsForm.step (State.takeDown_form _ _ _)
    | with_reducible apply State.keepsForm.only (State.markReset_only _ _ _)
    | with_reducible apply State.keepsForm.only (State.showOrg_only _)
    | with_reducible apply State.keepsForm.only (State.decideQueue_only _ _)
    | with_reducible apply State.keepsForm.only (State.showRails_only _)
    | with_reducible apply State.keepsForm.only (State.updGates_only _)
    | with_reducible apply State.keepsForm.only (State.pump_only _)
    | with_reducible apply State.keepsForm.only (State.setHalf_only _ _ _))

theorem State.startWarm_form (s : State) (h : Half) (cause : Nat) :
    State.keepsForm s (State.startWarm s h cause) := by
  unfold State.startWarm
  repeat' (first
    | intro _
    | ((with_reducible apply Comp.lacksMem); exact rfl)
    | with_reducible apply State.keepsForm.refl
    | with_reducible assumption
    | with_reducible apply State.keepsForm.foldl
    | dsimp only
    | split
    | with_reducible apply State.keepsForm.only (State.resetRefused_only _)
    | with_reducible apply State.keepsForm.only (State.hold_only _ _ _)
    | with_reducible apply State.keepsForm.step (State.enterWarm_form _ _ _ _)
    | with_reducible apply State.keepsForm.step (State.deviceReset_form _)
    | with_reducible apply State.keepsForm.only (State.setHalf_only _ _ _))

theorem State.restartCore_form (s : State) (h : Half) :
    State.keepsForm s (State.restartCore s h) := by
  unfold State.restartCore
  repeat' (first
    | intro _
    | ((with_reducible apply Comp.lacksMem); exact rfl)
    | with_reducible apply State.keepsForm.refl
    | with_reducible assumption
    | with_reducible apply State.keepsForm.foldl
    | dsimp only
    | split
    | with_reducible apply State.keepsForm.step (State.startWarm_form _ _ _)
    | with_reducible apply State.keepsForm.only (State.coreGone_only _ _)
    | with_reducible apply State.keepsForm.only (State.setHalf_only _ _ _)
    | with_reducible apply State.keepsForm.only (State.fadd_only _ _ _ _ _))

theorem State.testSplice_form (s : State) (f : StageFacts) :
    State.keepsForm s (State.testSplice s f) := by
  unfold State.testSplice
  repeat' (first
    | intro _
    | ((with_reducible apply Comp.lacksMem); exact rfl)
    | with_reducible apply State.keepsForm.refl
    | with_reducible assumption
    | with_reducible apply State.keepsForm.foldl
    | dsimp only
    | split
    | with_reducible apply State.keepsForm.only (State.hold_only _ _ _)
    | with_reducible apply State.keepsForm.step (State.takeDown_form _ _ _)
    | with_reducible apply State.keepsForm.only (State.fset_only _ _ _ _ _))

theorem State.stageFabric_form (s : State) (h : Half) (f : StageFacts) :
    State.keepsForm s (State.stageFabric s h f) := by
  unfold State.stageFabric
  repeat' (first
    | intro _
    | ((with_reducible apply Comp.lacksMem); exact rfl)
    | with_reducible apply State.keepsForm.refl
    | with_reducible assumption
    | with_reducible apply State.keepsForm.foldl
    | dsimp only
    | split
    | with_reducible apply State.keepsForm.only (State.toStage_only _ _ _)
    | with_reducible apply State.keepsForm.step (State.testSplice_form _ _)
    | with_reducible apply State.keepsForm.only (State.startMemories_only _)
    | with_reducible apply State.keepsForm.only (State.hold_only _ _ _)
    | with_reducible apply State.keepsForm.only (State.bootStop_only _ _)
    | with_reducible apply State.keepsForm.only (State.fset_only _ _ _ _ _))

theorem State.stageTiles_form (s : State) (h : Half) (f : StageFacts) :
    State.keepsForm s (State.stageTiles s h f) := by
  unfold State.stageTiles
  repeat' (first
    | intro _
    | ((with_reducible apply Comp.lacksMem); exact rfl)
    | with_reducible apply State.keepsForm.refl
    | with_reducible assumption
    | with_reducible apply State.keepsForm.foldl
    | dsimp only
    | split
    | with_reducible apply State.keepsForm.only (State.bootReady_only _)
    | with_reducible apply State.keepsForm.only (State.testGroups_only _ _ _)
    | with_reducible apply State.keepsForm.step (State.startWarm_form _ _ _)
    | with_reducible apply State.keepsForm.only (State.showOrg_only _)
    | with_reducible apply State.keepsForm.only (State.decideQueue_only _ _)
    | with_reducible apply State.keepsForm.only (State.showRails_only _)
    | with_reducible apply State.keepsForm.only (State.updGates_only _)
    | with_reducible apply State.keepsForm.only (State.setHalf_only _ _ _)
    | with_reducible apply State.keepsForm.only (State.fset_only _ _ _ _ _))

theorem State.coldStage_form (s : State) (h : Half) (f : StageFacts) :
    State.keepsForm s (State.coldStage s h f) := by
  unfold State.coldStage
  repeat' (first
    | intro _
    | ((with_reducible apply Comp.lacksMem); exact rfl)
    | with_reducible apply State.keepsForm.refl
    | with_reducible assumption
    | with_reducible apply State.keepsForm.foldl
    | dsimp only
    | split
    | with_reducible apply State.keepsForm.step (State.stageTiles_form _ _ _)
    | with_reducible apply State.keepsForm.only (State.stageLinks_only _ _)
    | with_reducible apply State.keepsForm.only (State.stageMemories_only _ _ _)
    | with_reducible apply State.keepsForm.step (State.stageFabric_form _ _ _)
    | with_reducible apply State.keepsForm.only (State.stageCore_only _ _)
    | with_reducible apply State.keepsForm.only (State.fset_only _ _ _ _ _))

theorem State.settleMarked_form (s : State) (h : Half) :
    State.keepsForm s (State.settleMarked s h) := by
  unfold State.settleMarked
  repeat' (first
    | intro _
    | ((with_reducible apply Comp.lacksMem); exact rfl)
    | with_reducible apply State.keepsForm.refl
    | with_reducible assumption
    | with_reducible apply State.keepsForm.foldl
    | dsimp only
    | split
    | with_reducible apply State.keepsForm.only (State.poisonGranule_only _ _ _)
    | with_reducible apply State.keepsForm.only (State.queueFill_only _ _ _ _)
    | with_reducible apply State.keepsForm.only (State.fset_only _ _ _ _ _)
    | (refine State.keepsForm.base (x := s) rfl ?_))

theorem State.warmMemories_form (s : State) (h : Half) (unplanned : Bool) (f : StageFacts) :
    State.keepsForm s (State.warmMemories s h unplanned f) := by
  unfold State.warmMemories
  repeat' (first
    | intro _
    | ((with_reducible apply Comp.lacksMem); exact rfl)
    | with_reducible apply State.keepsForm.refl
    | with_reducible assumption
    | with_reducible apply State.keepsForm.foldl
    | dsimp only
    | split
    | with_reducible apply State.keepsForm.only (State.retrainHalf_only _ _)
    | with_reducible apply State.keepsForm.only (State.failChannel_only _ _)
    | with_reducible apply State.keepsForm.step (State.settleMarked_form _ _)
    | with_reducible apply State.keepsForm.only (State.toStage_only _ _ _)
    | with_reducible apply State.keepsForm.only (State.softRepairs_only _ _)
    | with_reducible apply State.keepsForm.only (State.showOrg_only _)
    | with_reducible apply State.keepsForm.only (State.nextRetire_only _ _))

theorem State.warmStage_form (s : State) (h : Half) (unplanned : Bool) (f : StageFacts) :
    State.keepsForm s (State.warmStage s h unplanned f) := by
  unfold State.warmStage
  repeat' (first
    | intro _
    | ((with_reducible apply Comp.lacksMem); exact rfl)
    | with_reducible apply State.keepsForm.refl
    | with_reducible assumption
    | with_reducible apply State.keepsForm.foldl
    | dsimp only
    | split
    | with_reducible apply State.keepsForm.step (State.warmMemories_form _ _ _ _)
    | with_reducible apply State.keepsForm.step (State.stageTiles_form _ _ _)
    | with_reducible apply State.keepsForm.only (State.toStage_only _ _ _)
    | with_reducible apply State.keepsForm.step (State.testSplice_form _ _)
    | with_reducible apply State.keepsForm.only (State.hold_only _ _ _)
    | with_reducible apply State.keepsForm.only (State.loadSram_only _ _)
    | with_reducible apply State.keepsForm.only (State.fset_only _ _ _ _ _))

theorem State.writeHalfrst_form (s : State) (w : Nat) :
    State.keepsForm s (State.writeHalfrst s w) := by
  unfold State.writeHalfrst
  repeat' (first
    | intro _
    | ((with_reducible apply Comp.lacksMem); exact rfl)
    | with_reducible apply State.keepsForm.refl
    | with_reducible assumption
    | with_reducible apply State.keepsForm.foldl
    | dsimp only
    | split
    | with_reducible apply State.keepsForm.step (State.startWarm_form _ _ _)
    | with_reducible apply State.keepsForm.only (State.fset_only _ _ _ _ _))

theorem State.railFault_form (s : State) (r : Rail) :
    State.keepsForm s (State.railFault s r) := by
  unfold State.railFault
  repeat' (first
    | intro _
    | ((with_reducible apply Comp.lacksMem); exact rfl)
    | with_reducible apply State.keepsForm.refl
    | with_reducible assumption
    | with_reducible apply State.keepsForm.foldl
    | dsimp only
    | split
    | with_reducible apply State.keepsForm.step (State.restartCore_form _ _)
    | with_reducible apply State.keepsForm.only (State.resetPort_only _ _)
    | with_reducible apply State.keepsForm.only (State.recoverLink_only _ _)
    | with_reducible apply State.keepsForm.only (State.sever_only _ _ _))

theorem State.writeHub_form (s : State) (p : Path) (off : Nat) (v : Nat) :
    State.keepsForm s (State.writeHub s p off v) := by
  unfold State.writeHub
  repeat' (first
    | intro _
    | ((with_reducible apply Comp.lacksMem); exact rfl)
    | with_reducible apply State.keepsForm.refl
    | with_reducible assumption
    | with_reducible apply State.keepsForm.foldl
    | dsimp only
    | split
    | with_reducible apply State.keepsForm.only (State.writeSvcpart_only _ _ _)
    | with_reducible apply State.keepsForm.only (State.writeSvc_only _ _ _)
    | with_reducible apply State.keepsForm.only (State.writeSealref_only _ _)
    | with_reducible apply State.keepsForm.only (State.sealCommit_only _)
    | with_reducible apply State.keepsForm.only (State.writeSnap_only _ _ _)
    | with_reducible apply State.keepsForm.only (State.writeSeize_only _ _ _ _)
    | with_reducible apply State.keepsForm.step (State.writeHalfrst_form _ _)
    | with_reducible apply State.keepsForm.only (State.writeTagmin_only _ _ _ _))

theorem State.writeBlk_form (s : State) (p : Path) (b : Blk) (inst : Nat) (off : Nat) (v : Nat) :
    State.keepsForm s (State.writeBlk s p b inst off v) := by
  unfold State.writeBlk
  repeat' (first
    | intro _
    | ((with_reducible apply Comp.lacksMem); exact rfl)
    | with_reducible apply State.keepsForm.refl
    | with_reducible assumption
    | with_reducible apply State.keepsForm.foldl
    | dsimp only
    | split
    | with_reducible apply State.keepsForm.only (State.writeFid_only _ _ _ _)
    | with_reducible apply State.keepsForm.only (State.writeSite_only _ _ _ _)
    | with_reducible apply State.keepsForm.only (State.writeLnk_only _ _ _ _)
    | with_reducible apply State.keepsForm.only (State.writeStack_only _ _ _ _)
    | with_reducible apply State.keepsForm.only (State.writeMem_only _ _ _ _)
    | with_reducible apply State.keepsForm.only (State.writeCoh_only _ _ _ _)
    | with_reducible apply State.keepsForm.only (State.writeCmdDev_only _ _ _ _)
    | with_reducible apply State.keepsForm.only (State.writePci_only _ _ _)
    | with_reducible apply State.keepsForm.only (State.writeMgt_only _ _ _)
    | with_reducible apply State.keepsForm.only (State.writeSecReg_only _ _ _ _)
    | with_reducible apply State.keepsForm.only (State.writePwr_only _ _ _)
    | with_reducible apply State.keepsForm.step (State.writeHub_form _ _ _ _)
    | with_reducible apply State.keepsForm.only (State.writeSel_only _ _ _ _ _))

theorem State.writeReg_form (s : State) (p : Path) (b : Blk) (inst : Nat) (off : Nat) (v : Nat) :
    State.keepsForm s (State.writeReg s p b inst off v) := by
  unfold State.writeReg
  repeat' (first
    | intro _
    | ((with_reducible apply Comp.lacksMem); exact rfl)
    | with_reducible apply State.keepsForm.refl
    | with_reducible assumption
    | with_reducible apply State.keepsForm.foldl
    | dsimp only
    | split
    | with_reducible apply State.keepsForm.step (State.writeBlk_form _ _ _ _ _ _)
    | with_reducible apply State.regGate_formStep)

theorem State.writeAddr_form (s : State) (p : Path) (addr : Nat) (v : Nat) (sized : Bool) :
    State.keepsForm s (State.writeAddr s p addr v sized) := by
  unfold State.writeAddr
  repeat' (first
    | intro _
    | ((with_reducible apply Comp.lacksMem); exact rfl)
    | with_reducible apply State.keepsForm.refl
    | with_reducible assumption
    | with_reducible apply State.keepsForm.foldl
    | dsimp only
    | split
    | with_reducible apply State.keepsForm.step (State.writeReg_form _ _ _ _ _ _)
    | with_reducible apply State.keepsForm.only (State.badSize_only _ _ _ _)
    | with_reducible apply State.keepsForm.only (State.writeWindow_only _ _ _ _ _)
    | with_reducible apply State.wreg_formStep
    | with_reducible apply State.byPath_formStep
    | with_reducible apply State.barAccess_formStep)

theorem State.regMessageWrite_form (s : State) (m : RegMsg) (b : Blk) (i : Nat) (off : Nat) (v : Nat) :
    State.keepsForm s (State.regMessageWrite s m b i off v) := by
  unfold State.regMessageWrite
  repeat' (first
    | intro _
    | ((with_reducible apply Comp.lacksMem); exact rfl)
    | with_reducible apply State.keepsForm.refl
    | with_reducible assumption
    | with_reducible apply State.keepsForm.foldl
    | dsimp only
    | split
    | with_reducible apply State.keepsForm.step (State.writeReg_form _ _ _ _ _ _)
    | with_reducible apply State.keepsForm.only (State.giveSeize_only _ _ _)
    | with_reducible apply State.keepsForm.only (State.setSeizer_only _ _ _)
    | with_reducible apply State.keepsForm.only (State.hAnswer_only _ _ _ _)
    | (refine State.keepsForm.base (x := s) rfl ?_))

theorem State.regMessage_form (s : State) (m : RegMsg) :
    State.keepsForm s (State.regMessage s m) := by
  unfold State.regMessage
  repeat' (first
    | intro _
    | ((with_reducible apply Comp.lacksMem); exact rfl)
    | with_reducible apply State.keepsForm.refl
    | with_reducible assumption
    | with_reducible apply State.keepsForm.foldl
    | with_reducible apply State.keepsForm.foldl2
    | dsimp only
    | (split <;> first | (rename_i heq; have hx := congrArg (fun z => z.2) heq; dsimp only at hx; subst hx) | (rename_i heq; have hx := congrArg (fun z => z.2.2) heq; dsimp only at hx; subst hx) | skip)
    | split
    | with_reducible apply State.keepsForm.step (State.regMessageWrite_form _ _ _ _ _ _)
    | with_reducible apply State.keepsForm.only (State.readReg_only _ _ _ _ _)
    | with_reducible apply State.keepsForm.only (State.hAnswer_only _ _ _ _))

end Sys2Proof.Machine
end

