-- ==== Sys2Proof/Tests/Slice0.lean ====
section
/-! SUPPORT. Tests of the model: well-formedness, results taken from the manual, and for each statement a witness that its hypotheses can be met together,
clause by clause. -/

-- One declaration at a time: the kernel evaluates these tests, and many at once would wait for each other, a thread each.
set_option Elab.async false

namespace Sys2Proof.Machine

/-! ## States -/

/-- A device that is up, of two halves, with partition 0 at virtual function 1 of port W, and Cleat block 0 its own. -/
def wUp : State :=
  let s : State := { State.reset with
    boot := { run := true, west := { stage := 5, live := true }, east := { stage := 5, live := true } }
    ports := { crsW := false, crsE := false, cfg := [(1, true)] }
    sec := { parts := [(0, { win := some ⟨.w, 1⟩ })] }
    cleats := { blocks := [(0, some 0)] } }
  let s := ((s.fset R.HUB_ORG_WEST_UP 0 0 1).fset R.HUB_ORG_EAST_UP 0 0 1).fset R.HUB_SPLICE_OPEN 0 0 1
  s.fset R.SEC_PART_EXISTS 0 0 1

/-- The device without a partition. -/
def wFree : State := wUp.fset R.SEC_PART_EXISTS 0 0 0

/-- The smaller part. -/
def wSmall : State := { State.reset with fuse := { small := true } }

/-- A path owns a Seizing. -/
def wSeize (s : State) (n : Nat) (p : Path) : State := s.setSeizer n (some p)

/-! ## Tiles -/

/-- An entry of an op code with a field. -/
def wEntry (op v lo : Nat) : Entry := BitVec.ofNat 256 (op + v * 2 ^ lo)
/-- A descriptor of a format. -/
def wDesc (fmt : Nat) : Entry := BitVec.ofNat 256 (fmt * 2 ^ 52)
/-- Tile 0 runs for partition 0, at an entry. -/
def wTile (e : Entry) (ds : List Entry) : Tile := { disp := some ⟨0, 0, ds.length, 0, 0, 0, 0, 0, 0⟩, descs := ds, cur := some (0, e) }
/-- The device with that tile. -/
def wT (x : Tile) : State := { wUp with tiles := [(0, x)] }
/-- An op passes its checks at tile 0, which can issue it. -/
def wIssues (op : Nat) (e : Entry) (ds : List Entry) : Bool :=
  let s := wT (wTile e ds)
  s.ready 0 op == some (0, e) && s.hasTile 0
    && opCheck ds ((s.tile 0).seg.rep && widenable e && decide ((s.tile 0).seg.quants.length < 8)) ds.length (pingOf (s.tile 0).loops e) e == 0

theorem witness_issued_ops :
    wIssues opNop (wEntry 0 0 0) [] = true ∧ wIssues opLoad (wEntry 1 0 0) [wDesc 1] = true ∧ wIssues opStore (wEntry 2 63 136) [wDesc 1] = true
    ∧ wIssues opGather (wEntry 3 0 0) [wDesc 1] = true
    ∧ wIssues opMma (wEntry 0x10 (32 + 32 * 2 ^ 16 + 64 * 2 ^ 32) 78) [wDesc 1] = true
    ∧ wIssues opVec (wEntry 0x11 0 0) [] = true ∧ wIssues opQuant (wEntry 0x12 (32 + 1 * 2 ^ 56) 57) [wDesc 1] = true
    ∧ wIssues opReduce (wEntry 0x13 0 0) [] = true ∧ wIssues opAtom (wEntry 0x14 0 0) [] = true
    ∧ wIssues opSignal (wEntry 0x21 0 0) [] = true ∧ wIssues opPut (wEntry 0x23 0 0) [] = true ∧ wIssues opFence (wEntry 0x22 0 0) [] = true
    ∧ (∀ m ∈ mates 0, ((wT (wTile (wEntry 0x13 0 0) [])).tile m).stopped = false)
    ∧ (wT (wTile (wEntry 0x21 0 0) [])).cleatOwner (eCleat (wEntry 0x21 0 0)).toNat = some (wTile (wEntry 0x21 0 0) []).part
    ∧ ((wT { wTile 0 [] with fence := some 0 }).tile 0).fence.isSome = true := by decide +kernel

/-- A LOOP of one entry, COUNT 0 and 2; the tile has an op of its segment outstanding. -/
def wLoop (count : Nat) : Entry := wEntry 0x30 (count + 1 * 2 ^ 16) 16
def wOp : IssuedOp := ⟨0, 0, 0, false, 0, 0, none, 0, 0, false, []⟩

theorem witness_list_control :
    (wT (wTile (wLoop 0) [])).ready 0 opLoop = some (0, wLoop 0) ∧ Entry.bits (wLoop 0) 41 32 = 1 ∧ Entry.bits (wLoop 0) 31 16 = 0
    ∧ (wT { wTile (wLoop 2) [] with issued := [wOp] }).ready 0 opLoop = some (0, wLoop 2) ∧ Entry.bits (wLoop 2) 41 32 = 1 ∧ Entry.bits (wLoop 2) 31 16 = 2
    ∧ ([wOp].any fun o => o.seg == (wTile (wLoop 2) []).seg.no) = true
    ∧ (wT (wTile (wEntry 0x3F 0 0) [])).ready 0 opEnd = some (0, wEntry 0x3F 0 0) ∧ (wTile (wEntry 0x3F 0 0) []).seg.again = false
    ∧ (wTile (wEntry 0x3F 0 0) []).policy = 0
    ∧ (wT (wTile (wEntry 0x20 0 0) [])).ready 0 opWait = some (0, wEntry 0x20 0 0) ∧ (wT (wTile (wEntry 0x20 0 0) [])).cleatFault 0 (eCleat (wEntry 0x20 0 0)) = 0
    ∧ (eTarget (wEntry 0x20 0 0)).toNat = 0 ∧ ((wT (wTile (wEntry 0x20 0 0) [])).cleat 0).val.toNat = 0
    ∧ (wT (wTile (wEntry 0x20 1 32) [])).ready 0 opWait = some (0, wEntry 0x20 1 32) ∧ (eTarget (wEntry 0x20 1 32)).toNat = 1
    ∧ (wT (wTile (wEntry 0x31 1 81) [])).ready 0 opSkip = some (0, wEntry 0x31 1 81) ∧ Entry.bits (wEntry 0x31 1 81) 92 81 = 1
    ∧ (wT (wTile (wEntry 0x31 1 81) [])).splits 0 2 1 4096 = false
    ∧ (wT (wTile (wEntry 0x31 1 81) [])).cleatFault 0 (eCleat (wEntry 0x31 1 81)) = 0 := by decide +kernel

/-- Cleat 1024 lies in a block that nobody owns. -/
theorem witness_foreign_cleat :
    (wT (wTile (wEntry 0x20 1024 16) [])).ready 0 opWait = some (0, wEntry 0x20 1024 16)
    ∧ (wT (wTile (wEntry 0x21 1024 16) [])).ready 0 opSignal = some (0, wEntry 0x21 1024 16)
    ∧ (wT (wTile (wEntry 0x31 (1024 + 2 ^ 65) 16) [])).ready 0 opSkip = some (0, wEntry 0x31 (1024 + 2 ^ 65) 16)
    ∧ Entry.bits (wEntry 0x31 (1024 + 2 ^ 65) 16) 92 81 = 1
    ∧ (wT (wTile (wEntry 0x20 1024 16) [])).cleatOwner (eCleat (wEntry 0x20 1024 16)).toNat ≠ some (wTile (wEntry 0x20 1024 16) []).part := by decide +kernel

/-- Tile 0 with a NOP whose work is done, and with a SP_ECC fault before. -/
def wDone : State := wT { wTile 0 [] with issued := [{ wOp with started := true }] }

theorem witness_completed_op :
    (wDone.tile 0).issued.find? (fun p => p.seq == 0) = some { wOp with started := true } ∧ (wDone.tile 0).runs = true
    ∧ wDone.opDone 0 { wOp with started := true } = true := by decide +kernel

/-- A REDUCE of the whole group at all four tiles, tile 0's source still to come; and at tile 0 alone. -/
def wRed (here : Bool) : Tile := { wTile 0 [] with issued := [{ wOp with entry := wEntry 0x13 0 0, started := true }], redHere := here }
def wRedAll : State := { wUp with tiles := [(0, wRed false), (1, wRed true), (2, wRed true), (3, wRed true)] }

theorem witness_reduce :
    reduceKey (wRedAll.tile 0) = some (0, 0) ∧ (wRedAll.tile 0).redHere = false ∧ (wRedAll.tile 0).redDone = false
    ∧ (∀ m ∈ mates 0, ((wRedAll.setTile 0 { wRedAll.tile 0 with redHere := true }).tile m).redHere = true
      ∧ reduceKey ((wRedAll.setTile 0 { wRedAll.tile 0 with redHere := true }).tile m) = some (0, 0))
    ∧ reduceKey ((wT (wRed false)).tile 0) = some (0, 0)
    ∧ ((wT (wRed false)).setTile 0 { wRed false with redHere := true }).hasTile 0 = true
    ∧ (((wT (wRed false)).setTile 0 { wRed false with redHere := true }).tile 1).redHere = false := by decide +kernel

theorem witness_tile_events :
    ((wT { inbox := some ⟨0, 0, 0, 0, 0, 0, 0, 0, 0⟩ }).tile 0).inbox = some ⟨0, 0, 0, 0, 0, 0, 0, 0, 0⟩
    ∧ ((wT { waiting := some ⟨0, 0, 0, 0, 1, 0⟩ }).tile 0).waiting = some ⟨0, 0, 0, 0, 1, 0⟩
    ∧ ((wT { stopped := true }).tile 0).stopped = true
    ∧ (wT (wTile (wEntry 2 0 0) [])).ready 0 opStore = some (0, wEntry 2 0 0)
    ∧ (wT (wTile (wEntry 0x10 0 0) [])).ready 0 opMma = some (0, wEntry 0x10 0 0)
    ∧ (wT (wTile (wEntry 0x11 0 0) [])).ready 0 opVec = some (0, wEntry 0x11 0 0)
    ∧ (wT (wTile (wEntry 0x12 0 0) [])).ready 0 opQuant = some (0, wEntry 0x12 0 0) := by decide +kernel

/-! ## Hank memory -/

/-- The device with granule 0 of partition 0 under key slot 0, whose key is 1. -/
def wMem : State := { wUp with hank := { own := [(0, { owner := 0, slot := 0 })], slots := [(0, 1)] } }
/-- A packet of tile 0's partition for line 0, at the channel of that line. -/
def wPkt (op : Op) (src : Agent) : Pkt := ⟨op, src, ⟨.channel, wMem.chanOf 0⟩, 1, 0, 0, 0, 3, 0, 0, 0, false, 1, 0xFFFFFFFF, 0, none, none, none, 0, false, false⟩
/-- The device with packets in its mesh. -/
def wNet (s : State) (l : List Pkt) : State := { s with fab := { s.fab with net := l } }
def wTile0 : Agent := ⟨.tile, 0⟩
def wHome0 : Agent := homeAgent (wMem.sliceOf 0)
/-- A packet arrives at its channel and is served. -/
def wServed (p : Pkt) (home : Bool) : Bool :=
  let s := wNet wMem [p]
  s.atCtl p && (if home then (s.takeCtl p).servesHome p else (s.takeCtl p).serves p) && s.granKey (granOf p.addr.toNat) != 0

theorem witness_served_requests :
    wServed (wPkt .memRd wTile0) false = true ∧ wServed (wPkt .memWr wTile0) false = true ∧ wServed (wPkt .atomM wTile0) false = true
    ∧ wServed (wPkt .mFill wHome0) true = true ∧ wServed (wPkt .mWb wHome0) true = true ∧ wServed (wPkt .mPoison wHome0) true = true
    ∧ wServed (wPkt .mPoison ⟨.lanyard, 0⟩) false = true
    ∧ wMem.fbit R.COH_CONF_COMBINE 0 0 = true ∧ (wMem.fset R.COH_CONF_COMBINE 0 0 0).fbit R.COH_CONF_COMBINE 0 0 = false
    ∧ (∀ q ∈ ((wNet wMem [wPkt .memRd wTile0]).takeCtl (wPkt .memRd wTile0)).fab.net, Pkt.joins (wPkt .memRd wTile0) q = false)
    ∧ bit2 (wPkt .mPoison wHome0).sect 1 = true := by decide +kernel

/-- A second read of a line whose answer is in flight joins it. -/
def wJoin : Pkt := { wPkt .mData ⟨.channel, wMem.chanOf 0⟩ with dst := ⟨.tile, 1⟩, mask := 0x80000002 }

theorem witness_combined_read :
    let s := wNet wMem [wPkt .memRd wTile0, wJoin]
    s.atCtl (wPkt .memRd wTile0) = true ∧ (s.takeCtl (wPkt .memRd wTile0)).serves (wPkt .memRd wTile0) = true
    ∧ ∃ q ∈ (s.takeCtl (wPkt .memRd wTile0)).fab.net, Pkt.joins (wPkt .memRd wTile0) q = true := by decide +kernel

theorem witness_erased_key :
    ∀ op ∈ [Op.mWb, .mPoison],
      let s := wNet { wMem with hank := { wMem.hank with slots := [] } } [wPkt op wHome0]
      s.atCtl (wPkt op wHome0) = true ∧ s.granKey 0 = 0 ∧ (s.takeCtl (wPkt op wHome0)).servesHome (wPkt op wHome0) = true := by decide +kernel

theorem witness_full_and_masked_writes :
    wMem.granKey (0 / 0x800000) ≠ 0
    ∧ ({ wMem with hank := { wMem.hank with marks := [(0, some ⟨1, 0, true⟩)] } }.markOf 0).poison = true ∧ (1 : Nat) ≠ fullMask := by decide +kernel

theorem witness_channel_frames :
    (∃ t, exec (.memRd (wPkt .memRd wTile0) []) wUp = .next t) ∧ (∃ t, exec (.patrolRead 0 0 []) wUp = .next t)
    ∧ (∃ t, exec .zfillGranuleDone { wUp with hank := { zfill := [⟨0, 15, none⟩] } } = .next t) ∧ (64 : Nat) / 64 ≠ 0 / 64
    ∧ (32 : Nat) / 32 ≠ 0 ∧ (0x10000000 : Nat) / 0x10000000 ≠ 0 := ⟨⟨_, rfl⟩, ⟨_, rfl⟩, ⟨_, rfl⟩, by decide, by decide, by decide⟩

theorem witness_hank_events :
    (0 : Nat) < wMem.nChans ∧ wMem.memUp (chanHalf 0) = true ∧ wMem.patrols 0 0 = true ∧ wMem.chanOf 0 = (wPkt .memRd wTile0).dst.num
    ∧ (wMem.srun 0).march = false ∧ wMem.fget R.MEM_STKTEMP_LIMIT 0 0 ≠ 3
    ∧ ({ wMem with hank := { wMem.hank with moving := some (0, [1, 2]) } } : State).hank.moving = some (0, 1 :: 2 :: []) ∧ wMem.memUp .west = true
    ∧ wMem.memUp .east = true ∧ wMem.fget R.MEM_STKTEMP_LIMIT 0 0 = 0 ∧ wMem.fget R.MEM_STKTEMP_REFRESH 0 0 = 0 ∧ (7 : Nat) < wMem.nStacks := by
  decide +kernel

/-- A margin word with START, of a kind. -/
def wMarg (kind : Nat) : W32 := BitVec.ofNat 32 (2 ^ 31 + 2 ^ 18 + kind * 2 ^ 7)

theorem witness_margin_and_scope :
    (wUp.pathReaches .west .stack 0 0x204 = true ∧ (wMarg 1).toNat.testBit 31 = true)
    ∧ (let s := { wUp with hank := { own := [] } }.fset R.SEC_LC_STATE 0 0 3
       (s.marginFields 0 (wMarg 1)).marginRefusal 0 (wMarg 1) ≠ 0 ∧ s.pathReaches .west .stack 0 0x204 = true)
    ∧ (let s := wFree.fset R.SEC_LC_STATE 0 0 1
       (∃ k ∈ [0, 1, 2, 3], (s.marginFields 0 (wMarg k)).marginRefusal 0 (wMarg k) = 0) ∧ (s.marginFields 0 (wMarg 4)).marginRefusal 0 (wMarg 4) = 0
         ∧ bitsOf (wMarg 4).toNat 9 7 = 4)
    ∧ (let s := wUp.fset R.MEM_MARGIN_STAT_BUSY 0 0 1
       s.fbit R.MEM_MARGIN_STAT_BUSY 0 0 = true ∧ (s.srun 0).marginWait = false)
    ∧ (((wFree.fset R.SEC_LC_STATE 0 0 1).startMargin 0 (wMarg 1) none).srun 0).margin.isSome = true
    ∧ (wUp.pathReaches .west .mem 0 0x040 = true ∧ wUp.pathReaches .west .mem 0 (0x040 + 4 * 23) = true ∧ wUp.blockOwned 0 = false ∧ wMem.blockOwned 0 = true) := by
  decide +kernel

/-! ## Fabric and coherence -/

/-- A cached request of line 0 at its home, and the device with the line and that request. -/
def wReq (op : Op) (src : Agent) : Pkt := { wPkt op src with dst := wHome0, aop := if op = .atomH then 1 else 0 }
def wL (l : Line) (p : Pkt) : State := wNet (wMem.setLine 0 l) [p]
def wSite0 : Agent := ⟨.site, 0⟩
/-- A clean line held whole, without copies, with tile group 0 and with site 0 as a sharer; and a dirty one that site 0 holds. -/
def wClean : Line := { st := .c, valid := 3 }
def wShared : Line := { wClean with groups := 1 }
def wSiteShared : Line := { wClean with sites := 1 }
def wHeld : Line := { st := .h, holder := 0 }

theorem witness_home_reads :
    (wL wClean (wReq .rdShared wTile0)).homeTakes (wReq .rdShared wTile0) = true
    ∧ (wL wShared (wReq .rdShared wSite0)).homeTakes (wReq .rdShared wSite0) = true ∧ wShared.alone = false
    ∧ (wL wClean (wReq .rdShared wSite0)).homeTakes (wReq .rdShared wSite0) = true ∧ wClean.alone = true
    ∧ (wL { wClean with st := .d } (wReq .rdOnce wTile0)).homeTakes (wReq .rdOnce wTile0) = true
    ∧ (wL wClean (wReq .rdUnique wSite0)).homeTakes (wReq .rdUnique wSite0) = true
    ∧ (wL wSiteShared (wReq .upgrade wSite0)).homeTakes (wReq .upgrade wSite0) = true
    ∧ wSiteShared.shares wSite0 = true ∧ (wSiteShared.copies (wMem.sliceOf 0)).filter (fun a => !(a == wSite0)) = []
    ∧ (wReq .rdShared wTile0).line = 0 ∧ ((wL wClean (wReq .rdShared wTile0)).line 0) = wClean := by decide +kernel

theorem witness_snooping_rows :
    let ok (l : Line) (p : Pkt) : Bool := (wL l p).homeTakes p && ((wL l p).line p.line).st != .i && (rowSnoops ((wL l p).line p.line) ((wL l p).sliceOf p.line) p).2 != []
    ok wHeld (wReq .rdShared wTile0) = true ∧ ok wShared (wReq .rdUnique wSite0) = true ∧ ok wShared (wReq .upgrade wSite0) = true
    ∧ ok wHeld (wReq .rdOnce wTile0) = true ∧ ok wShared (wReq .wrThrough wTile0) = true ∧ ok wHeld (wReq .atomH wTile0) = true := by decide +kernel

theorem witness_writes_and_write_backs :
    (wL wClean (wReq .wrThrough wTile0)).homeTakes (wReq .wrThrough wTile0) = true ∧ (wReq .wrThrough wTile0).masked = false ∧ wClean.alone = true
    ∧ (wL wClean (wReq .atomH wTile0)).homeTakes (wReq .atomH wTile0) = true ∧ bit2 wClean.poison (Pkt.atomSec (wReq .atomH wTile0)) = false
    ∧ (∀ p ∈ [wReq .wrBack wSite0, wReq .evict wSite0], ∀ l ∈ [wHeld, wSiteShared, wClean],
        (wL l p).arrives p = true ∧ p.dst.kind = .home ∧ (wL l p).backRoom p = true ∧ (wL l p).crosses p.src (homeAgent ((wL l p).sliceOf p.line)) = false ∧ p.badField = false
        ∧ (wL l p).ownCheck p.src p.ctx p.op.writes p.addr.toNat = 0 ∧ ((wL l p).line p.line).txn = none)
    ∧ wSiteShared.shares wSite0 = true ∧ wClean.shares wSite0 = false := by decide +kernel

/-- A snoop of line 0 on its way to an agent, and the device with site 0's copy in a state. -/
def wSnp (op : Op) (dst : Agent) : Pkt := { wPkt op wHome0 with dst := dst }
def wCache (op : Op) (c : CSt) (cr : Nat := 1) : State :=
  ((wNet { wMem with sites := [(0, { aps := [(0, { snpCr := cr })] })] } [wSnp op wSite0]).fset R.SITE_STAT_LIVE 0 0 1).setSiteLine 0 0 c

theorem witness_snooped_agents :
    (wNet wMem [wSnp .snpShared wTile0]).arrives (wSnp .snpShared wTile0) = true ∧ (wCache .snpInv .i).arrives (wSnp .snpInv wSite0) = true
    ∧ (wCache .snpInv .i).siteLine 0 0 = .i ∧ (wCache .snpInv (.s 0)).siteLine 0 0 = .s 0 ∧ (wCache .snpShared (.m 3)).siteLine 0 0 = .m 3
    ∧ (wCache .snpRdNA (.m 0)).arrives (wSnp .snpRdNA wSite0) = true ∧ (wCache .snpShared (.wb 7 1)).siteLine 0 0 = .wb 7 1
    ∧ (wCache .snpInv .i).apReady 0 (wSnp .snpInv wSite0).ap (.siteSnoop 0 (wSnp .snpInv wSite0)) = true
    ∧ (wCache .snpInv .i 0).apReady 0 (wSnp .snpInv wSite0).ap (.siteSnoop 0 (wSnp .snpInv wSite0)) = false
    ∧ (wCache .snpInv .i 0).arrives (wSnp .snpInv wSite0) = true := by decide +kernel

/-- Line 0 busy with request 9, which awaits two tiles; with a phase, a grant and sectors to fill. -/
def wTxn (ph : TxnPhase) (sn : List Agent) (fills g : BitVec 2) : Txn :=
  ⟨.request, ph, 9, wReq .rdUnique wSite0, sn, fills, false, false, 0, 0, false, 0, 0, false, g⟩
def wBusy (t : Txn) (p : Pkt) : State := wL { wShared with txn := some t } p
def wAns (op : Op) : Pkt := { wReq op wTile0 with tag := 9 }
def wTwo : List Agent := [wTile0, ⟨.tile, 1⟩]

theorem witness_busy_lines :
    (∀ p ∈ [wAns .snpResp, wAns .snpRespData, wAns .mData], (wBusy (wTxn .collect wTwo 1 2) p).arrives p = true ∧ p.dst.kind = .home
      ∧ ((wBusy (wTxn .collect wTwo 1 2) p).line p.line).txn = some (wTxn .collect wTwo 1 2)
      ∧ (wTxn .collect wTwo 1 2).id % 65536 = p.tag ∧ (wTxn .collect wTwo 1 2).snoops.erase p.src = [⟨.tile, 1⟩] ∧ p.src ∈ (wTxn .collect wTwo 1 2).snoops)
    ∧ (∀ g ∈ [(1 : BitVec 2), 2], (wBusy (wTxn .ack [] 0 g) (wAns .grantAck)).arrives (wAns .grantAck) = true
      ∧ ((wBusy (wTxn .ack [] 0 g) (wAns .grantAck)).line 0).txn = some (wTxn .ack [] 0 g))
    ∧ ((wBusy (wTxn .hitch [] 0 2) (wAns .grantAck)).line 0).txn = some (wTxn .hitch [] 0 2)
    ∧ (wTxn .collect [wTile0, wSite0] 1 2).snoops.erase wTile0 ≠ [] ∧ wSite0 ∈ (wTxn .collect [wTile0, wSite0] 1 2).snoops
    ∧ (wBusy (wTxn .collect wTwo 1 2) (wAns .snpResp)).fget R.MEM_STKTEMP_LIMIT (wMem.chanOf 0 / 128) 0 ≠ 3 := by decide +kernel

theorem witness_late_answers :
    ∀ p ∈ [wAns .snpResp, wAns .snpRespData, wAns .mData],
      ((wL wClean p).arrives p = true ∧ p.dst.kind = .home ∧ ((wL wClean p).line p.line).txn = none)
      ∧ (let q := { p with tag := 8 }
         (wBusy (wTxn .collect wTwo 1 2) q).arrives q = true ∧ ((wBusy (wTxn .collect wTwo 1 2) q).line 0).txn = some (wTxn .collect wTwo 1 2)
         ∧ (wTxn .collect wTwo 1 2).id % 65536 ≠ q.tag) := by decide +kernel

/-- Tile 0's request of tag 1 in flight, once NACKed where it waits, with its answer on the way. -/
def wTx (waits : Bool) (op : Op) : Tx := ⟨.west, 1, wReq op wTile0, .load 0 0 0 0 0 32 0, if waits then 1 else 0, false, 0, none, waits⟩
def wRsp (op : Op) (st : BitVec 3) : Pkt := { wPkt op wHome0 with dst := wTile0, status := st, mask := 0 }
def wAwait (waits : Bool) (p : Pkt) : State := let s := wNet wMem [p]; { s with fab := { s.fab with txs := [wTx waits .rdShared] } }

theorem witness_responses :
    (∀ p ∈ [wRsp .comp 0, wRsp .compData 0, wRsp .mData 0, wRsp .mAck 0, wRsp .comp 1],
      (wAwait false p).arrives p = true ∧ p.dst.kind ≠ .proxy ∧ p.dst.kind ≠ .home ∧ (wAwait false p).txOf p.tag = some (wTx false .rdShared)
      ∧ p.mask.toNat % 16 = 0) ∧ (wTx false .rdShared).purp ≠ .quiet
    ∧ (wL wClean (wAns .mAck)).arrives (wAns .mAck) = true
    ∧ (wAwait true (wRsp .comp 1)).fab.txs.find? (fun (y : Tx) => y.half == .west && y.tag == 1 && y.waits) = some (wTx true .rdShared) := by decide +kernel

theorem witness_coherence_settings :
    (wSeize wUp 2 .west).pathReaches .west .coh 0 0x050 = true ∧ wUp.pathReaches .west .coh 0 0x010 = true ∧ wUp.pathReaches .west .coh 0 (0x010 + 4 * 8) = true
    ∧ (wSeize wUp 2 .portW).pathReaches .portW .coh 0 0 = true
    ∧ (let w : W32 := 0x80000000; w.toNat.testBit 31 = true ∧ flushBad w = true)
    ∧ (let w : W32 := 0x80001000; w.toNat.testBit 31 = true ∧ flushBad w = false) ∧ (wSeize wUp 2 .west).fbit R.COH_FLUSH_STAT_BUSY 0 0 = false
    ∧ (let s : State := { wUp with fab := { flush := some 0x80001000, wayStaged := [(8, 3)] } }; s.fab.flush.isSome = true ∧ s.flushing = false ∧ ∀ e ∈ s.fab.wayStaged, e.1 < 9)
    ∧ (let s := wUp.fset R.COH_WAYMASK_MASK 0 8 1
       let others := (List.range 9).foldl (fun m i => if i = 0 then m else m ||| s.fget R.COH_WAYMASK_MASK 0 i ||| s.maskNext i) 0
       (1 % 65536) &&& others ≠ 0 ∧ (2 % 65536) &&& others = 0 ∧ (let old := s.fget R.COH_WAYMASK_MASK 0 0; old &&& (2 % 65536) = old))
    ∧ (wSeize wUp 2 .portW).anyPart = true := by decide +kernel

/-! ## Cleats and chiplet sites -/

/-- Site 0 in a state of R299, populated with a chiplet face of 100 W, its terms agreed, slot 0 under context 0. -/
def wSt (st : Nat) (x : Site) : State :=
  let s : State := { wMem with fuse := { sites := [{ kind := .ap, limit := 100 }] }, sites := [(0, x)] }
  let s := ((s.fset R.SITE_STAT_STATE 0 0 st).fset R.SITE_STAT_LIVE 0 0 0xFFFF).fset R.SITE_TERMS_TAGS 0 0 16
  (s.fset R.SITE_STAT_MINOR 0 0 2).fset R.SITE_CTXMAP_VALID_A 0 0 1

/-- Increments on their way to Cleat 0 from tile 0 of West and to a Cleat of the East bank; the Splice closed. -/
def wInc (c : BitVec 16) : State := { wUp with cleats := { wUp.cleats with flying := [⟨c, 1, wTile0, none⟩] } }

theorem witness_cleats_and_site_ops :
    (wInc 0).incOf 0 1 wTile0 = some ⟨0, 1, wTile0, none⟩ ∧ (wInc 0).bankCut ((wInc 0).agentHalf wTile0) 0 = false
    ∧ (let s := (wInc 0xFFFF).fset R.HUB_SPLICE_OPEN 0 0 0
       s.incOf 0xFFFF 1 wTile0 = some ⟨0xFFFF, 1, wTile0, none⟩ ∧ s.bankCut (s.agentHalf wTile0) 0xFFFF = true)
    ∧ (wSt 4 {}).siteLets 0 0 = true ∧ (wSt 4 {}).siteLets 0 15 = true ∧ (wSt 4 {}).siteLets 0 16 = false ∧ (wSt 4 {}).slotCtx 0 0 = some 0
    ∧ (wSt 4 {}).siteCleat 0 0 = 0 ∧ (wSt 4 {}).siteMinor 0 ≠ 0 ∧ ((wSt 4 {}).cleat 0).val.toNat = 0
    ∧ (wSt 4 {}).cleatOwner 1024 ≠ some ((wSt 4 {}).fget R.SITE_STAT_PART 0 0)
    ∧ (let s := { wSt 4 {} with cleats := { wMem.cleats with watches := [⟨0, 0, 1, 0, 5, 0, 9⟩] } }
       s.cleats.watches.find? (fun w => w.site == 0 && w.tag == 1 && w.tmo != 0) = some ⟨0, 0, 1, 0, 5, 0, 9⟩) := by decide +kernel

def wHello : Hello := ⟨0, 2, 1, true, 4096, 16, 64, 1400, 100, 1, 32, 4⟩

theorem witness_linkup :
    ((wSt 0 {}).siteKind 0 ≠ .cover ∧ (wSt 0 {}).linkupReady 0 = true ∧ ((wSt 0 {}).site 0).step = .idle ∧ (wSt 0 {}).siteState 0 = 0)
    ∧ (∀ y ∈ [LinkStep.sideband, .mainband, .hello, .accept, .measure, .verify], ((wSt 1 { step := y }).site 0).step = y ∧ (wSt 1 { step := y }).hasSite 0 = true)
    ∧ (wSt 1 {}).apFace 0 = true ∧ (0x00FF : BitVec 16).toNat.testBit 15 = false
    ∧ (let m : MeasRsp := { digests := [0] }; m.digests ≠ [] ∧ m.digests.length ≤ 8 ∧ m.chain.length ≤ 1024 ∧ m.sign.length = 64)
    ∧ (wSt 2 { step := .verify }).siteState 0 = 2
    ∧ (wSt 1 {}).trainable 0 0x00FF 32 = true ∧ ((List.range 16).filter fun j => (0x00FF : BitVec 16).toNat.testBit j).length = 8
    ∧ (wSt 1 {}).trainable 0 0x003F 4 = true ∧ ((List.range 16).filter fun j => (0x003F : BitVec 16).toNat.testBit j).length = 6
    ∧ (wSt 1 {}).helloCheck 0 wHello = 0 ∧ (wSt 1 {}).helloCheck 0 { wHello with scrubUs := 1401 } ≠ 0
    ∧ (wSt 1 {}).helloCheck 0 { wHello with peakW := 101 } ≠ 0 ∧ (wSt 1 {}).helloCheck 0 { wHello with identity := 1 } ≠ 0
    ∧ (wSt 3 {}).siteState 0 = 3 := by decide +kernel

/-- A frame of a number and an acknowledgement. -/
def wFr (seq ack : BitVec 12) : Frame := { crcOk := true, seq := seq, ack := ack, nak := false, kind := 0, crSnp := 0, crCtl := 0 }
def wAp (a : Attp) : State := wSt 4 { aps := [(0, a)] }

theorem witness_attach_points :
    (wAp {}).hasSite 0 = true ∧ (wAp {}).apLive 0 0 = true ∧ (wAp {}).apLive 0 15 = true ∧ ((wAp {}).ap 0 0).retrain = false ∧ ((wAp {}).ap 0 0).nakd = false
    ∧ (wFr 1 4095).link = ((wAp {}).apFace 0 && (0 : Fin 16).val % 2 == 1) ∧ ((wAp {}).ap 0 0).room = true
    ∧ (let f := { wFr 0 4095 with link := true, kind := 3, crcOk := false, nak := true }; f.link = ((wAp {}).apFace 0 && (15 : Fin 16).val % 2 == 1))
    ∧ (wFr 1 4095).seq ≠ ((wAp {}).ap 0 0).rx
    ∧ (wFr 0 4095).seq = ((wAp {}).ap 0 0).rx ∧ ((wAp {}).ap 0 0).queue = [] ∧ (wFr 0 4095).ack = ((wAp {}).ap 0 0).acked - 1
    ∧ (let a : Attp := { tx := 1, resent := 6 }; ((wAp a).ap 0 0).tx ≠ ((wAp a).ap 0 0).acked ∧ ((wAp a).ap 0 0).resent < 7)
    ∧ (let s : State := { wAp { retrain := true } with fuse := { sites := [{ kind := .d3 }] } }
       (s.ap 0 0).retrain = true ∧ s.apFace 0 = false ∧ (s.ap 0 0).queue = [] ∧ 8 < s.liveCount 0) := by decide +kernel

theorem witness_site_requests :
    (∀ st ∈ [2, 3, 4, 5], (wSt st {}).hasSite 0 = true ∧ (wSt st {}).apLive 0 0 = true ∧ (wSt st {}).siteState 0 = st)
    ∧ (wReq .rdOnce wSite0).src = siteAgent 0
    ∧ (wSt 4 { held := [.ctl 0 0x54 0, .rd 0 ⟨3, 0⟩ 0] }).siteTagUsed 0 3 = true
    ∧ (wSt 4 {}).siteTagUsed 0 16 = false ∧ (wSt 4 {}).fget R.SITE_TERMS_TAGS 0 0 ≤ (16 : BitVec 12).toNat
    ∧ (15 : BitVec 12).toNat < (wSt 4 { hold := true }).fget R.SITE_TERMS_TAGS 0 0 ∧ ((wSt 4 { hold := true }).site 0).hold = true
    ∧ (wSt 4 {}).siteLets 0 15 = true ∧ (wSt 4 {}).slotCtx 0 1 = none ∧ (wSt 4 {}).slotCtx 0 0 = some 0
    ∧ siteOps ((wSt 4 {}).fbit R.SITE_STAT_CACHING 0 0) .rdShared = false ∧ siteOps ((wSt 4 {}).fbit R.SITE_STAT_CACHING 0 0) .memWr = true := by decide +kernel

/-- A range table of one entry at DPA 0 for context 0: page 0, with all rights, at base 0. -/
def wTable (s : State) : State :=
  { s.setLine 0 { wClean with data := BitVec.ofNat 512 (1 + 2 ^ 128 * (0xF + 2 ^ 64)) } with xlt := { tables := [(0, some 0)] } }
def wWalks (r : WalkRes) : Bool := match r with | .ok _ _ => true | .fault _ _ => false
def wRun (id : Nat) (bytes : List (BitVec 8)) : Run :=
  ⟨id, ⟨.w, 1⟩, 0, bytes, 0, false, 0, false, none, 0, 0, {}, [], [], false, false, false, false, 0, false, none, []⟩

theorem witness_site_control :
    (wTable (wSt 4 {})).siteState 0 = 4 ∧ (wTable (wSt 4 {})).slotCtx 0 0 = some 0
    ∧ (wTable (wSt 4 {})).cached ((wTable (wSt 4 {})).walkerOf (siteAgent 0)) 0 0 .any = none
    ∧ wWalks ((wTable (wSt 4 {})).walk (siteAgent 0) 0 0 .any) = true
    ∧ ((wSt 4 { invals := [7] }).site 0).invals = [7]
    ∧ (let s := { wSt 4 { works := [(1, some 5)] } with cmds := { runs := [wRun 5 []] } }
       (s.site 0).works.find? (fun w => w.1 == 1) = some (1, some 5) ∧ s.run 5 = some (wRun 5 []) ∧ (wRun 5 []).status = none ∧ (wRun 5 []).id = 5)
    ∧ 2 ≤ (wSt 4 {}).siteMinor 0 ∧ (32 : BitVec 24).toNat % 32 = 0 ∧ (0xFFFFE0 : BitVec 24).toNat % 32 = 0
    ∧ (wSt 5 { scrub := true }).siteState 0 = 5 ∧ ((wSt 5 { scrub := true }).site 0).scrub = true := by decide +kernel

theorem witness_site_power :
    (wSt 4 {}).siteKind 0 ≠ .cover ∧ (wSt 4 {}).allowance 0 = 0 ∧ (wSt 4 {}).siteLimit 0 = 100 ∧ ((wSt 4 { overA := 9 }).site 0).overA = 9
    ∧ ((wSt 4 { overL := 99 }).site 0).overL = 99 ∧ (101 : BitVec 12).toNat = 101
    ∧ (∀ st ∈ [3, 4, 5], (wSeize (wSt st {}) 6 .west).pathReaches .west .site 0 0x010 = true ∧ (wSeize (wSt st {}) 6 .west).siteState 0 = st)
    ∧ (wSeize (wSt 4 {}) 6 .west).pathReaches .west .site 0 0x044 = true
    ∧ (let s := wSt 4 {}
       let t := s.fset R.PWR_LIMIT_PKG_W 0 0 (s.fset R.SITE_PWR_BASE_W 0 0 99).committed
       (t.fset R.SITE_PWR_BASE_W 0 0 99).committed ≤ t.fget R.PWR_LIMIT_PKG_W 0 0
       ∧ t.fget R.PWR_LIMIT_PKG_W 0 0 < (t.fset R.SITE_PWR_BASE_W 0 0 100).committed) := by decide +kernel

/-! ## Lanyard -/

/-- Link 0 in a state of R333, all four wavelengths lit, its peer device 1 as expected, this device being device 0; handle 0 is an open window at base 0. -/
def wLk (st : Nat) (x : Link) : State :=
  let s : State := { wTable wMem with lan := { links := [(0, x)], started := true, handles := [(0, BitVec.ofNat 256 (1 + 2 ^ 80 + 7 * 2 ^ 108 + 3 * 2 ^ 152)),
    (1, BitVec.ofNat 256 (1 + 2 ^ 80 + 15 * 2 ^ 108 + 2 * 2 ^ 115 + 3 * 2 ^ 152))] } }
  let s := ((s.fset R.LNK_LSTAT_STATE 0 0 st).fset R.LNK_LSTAT_PEER 0 0 1).fset R.LNK_LCONF_EXPECT 0 0 1
  (s.fset R.LNK_LSTAT_LANES 0 0 0xF).fset R.LNK_DOM2_SELF 0 0 0
def wLf (seq ack : BitVec 12) : LnkFrame := { crcOk := true, tagOk := true, typeOk := true, seq := seq, ack := ack, nak := false, kind := 1, crData := 0, crGet := 0, uncorr := 0, noisy := 0 }
def wMsg (t : LType) (dst : Nat) : LMsg := ⟨t, 1, dst, 0, 0, 0, [false], 0, 0, 0, 0, 0, if t = .get then 32 else 0, 0, 32, 1, 0, if t = .get then [] else [0], 0, false⟩
def wUpLk : State := wLk lsUp { keys := true, staged := [wMsg .put 1], unacked := [⟨5, some (wMsg .put 1), 6, 0, 0⟩, ⟨6, none, 0, 0, 0⟩] }

theorem witness_link_frames :
    wUpLk.hasLink 0 = true ∧ wUpLk.lstate 0 = lsUp ∧ (wLf 0 9).seq = (wUpLk.link 0).rx ∧ (∀ u ∈ (wUpLk.link 0).unacked, u.seq ≠ (wLf 0 9).ack)
    ∧ (∀ u ∈ (wUpLk.link 0).unacked, u.resent < 7) ∧ (wUpLk.link 0).knows (wLf 0 9).epoch = true ∧ (wUpLk.link 0).knows 1 = true ∧ (wUpLk.link 0).knows 2 = false
    ∧ (wLf 0 5).ack = 5 ∧ (wLf 1 9).seq ≠ (wUpLk.link 0).rx
    ∧ (∀ w, w < 4 → (wUpLk.window lnkWindow (tget (fun _ => []) (wUpLk.link 0).uncorrs w)).length < 16)
    ∧ (wLf 0 9).uncorr = 0 ∧ (wLf 0 9).noisy = 0 ∧ (wLf 0 9).kind = 1 ∧ (wUpLk.window lnkWindow (wUpLk.link 0).tags).length < 3
    ∧ ((wLk lsUp {}).link 0).unacked = [] ∧ wUpLk.halfLive (linkHalf 0) = true ∧ ((wLk lsUp {}).link 0).staged.find? ((wLk lsUp {}).maySend 0) = none
    ∧ (wUpLk.link 0).staged.find? (wUpLk.maySend 0) = some (wMsg .put 1) ∧ (wMsg .put 1).dstDev ≠ wUpLk.selfDev := by decide +kernel

theorem witness_fragments :
    let s := wLk lsUp {}
    let rf (m : LMsg) : Nat := let e := s.handle m.handle; hndRefusal e (if m.type = .putRed then Hnd.wRed e else Hnd.wPut e) m.dtag m.srcDev m.offset m.nbytes
    (wMsg .put 0).link ∈ s.upLinks ∧ (wMsg .put 0).dstDev = s.selfDev ∧ s.duplicate (wMsg .put 0) = false ∧ (s.sawMsn (wMsg .put 0)).duplicate (wMsg .put 0) = true
    ∧ rf (wMsg .put 0) = 0 ∧ rf { wMsg .put 0 with offset := 4096 - 32 } = 0 ∧ rf { wMsg .put 0 with offset := 4096 } ≠ 0
    ∧ rf { wMsg .putRed 0 with handle := 1 } = 0 ∧ Hnd.coll (s.handle 1) = true ∧ Hnd.coll (s.handle 0) = false ∧ 1 < Hnd.ncontrib (s.handle 1)
    ∧ s.lan.slots.filter (fun y => y.eng == 0 / 512 % max 1 s.engines) = [] ∧ s.engCut (wMsg .putRed 0) 0 = false
    ∧ (s.fset R.HUB_SPLICE_OPEN 0 0 0).engCut { wMsg .putRed 0 with link := 12 } 0 = true ∧ (wMsg .put 0).isGetData = false := by decide +kernel

/-- Tracker 0 of engine 0 under way with 64 bytes to cover, 32 of them covered. -/
def wTrk (x : Tracker) : State := let s := wLk lsUp {}; { s with lan := { s.lan with trackers := [(0, x)] } }

theorem witness_lanyard_messages :
    (let s := wLk lsUp {}
     (wMsg .done 0).link ∈ s.upLinks ∧ s.answers (wMsg .done 0) = false ∧ s.answers (wMsg .refuse 0) = false ∧ s.bundle 1 ≠ [] ∧ s.bundle 2 = [] ∧ (1 : Nat) ≠ s.selfDev
     ∧ (wMsg .put 2).isFrag = true ∧ (wMsg .done 2).isFrag = false ∧ (wMsg .route 0).srcDev = 1 ∧ s.hasLink 0 = true
     ∧ (let m := wMsg .get 0
        let e := s.handle m.handle
        hndRefusal e (Hnd.wGet e) m.dtag m.srcDev m.offset m.glen = 0 ∧ hndRefusal e (Hnd.wGet e) 1 m.srcDev m.offset m.glen ≠ 0
        ∧ (s.sectorDpas (engAgent 0) (Hnd.ctx e) (Hnd.base e + m.offset) .read (m.glen / 32)).1 = some [0]))
    ∧ (∀ len ∈ [64, 96], let x : Tracker := { busy := true, len := len, covered := 32 }
       (wTrk x).answers (wMsg .done 0) = true ∧ ((wTrk x).tracker 0).isGet = false)
    ∧ 32 + (wMsg .done 0).bytes < 96 ∧ 64 ≤ 32 + (wMsg .done 0).bytes ∧ (wTrk { busy := true }).answers (wMsg .refuse 0) = true
    ∧ (wTrk { busy := true }).hasEngine 0 = true ∧ (wTrk { busy := true }).hasEngine 11 = true ∧ ((wTrk { quar := true }).tracker 0).quar = true
    ∧ (let y : CollSlot := ⟨1, 0, 1, 0, 0, 1, [], [], []⟩
       ({ (wLk lsUp {}).lan with slots := [y] } : Lanyard).slots.find? (fun c => c.eng == 0 && c.handle == 1 && c.pos == 0) = some y) := by decide +kernel

def wFacts : PeerFacts := { sigOk := true, fwWest := 5, fwEast := 6, flags := 1, life := 2, ident := 0, devNum := 1, expects := 0 }

theorem witness_link_states :
    (∀ st ∈ [lsOff, lsTraining, lsAttesting, lsUp, lsRecovering, lsDown], (wLk st {}).hasLink 0 = true ∧ (wLk st {}).lstate 0 = st ∧ (wLk st {}).coreUp = true)
    ∧ (let s := (wLk lsTraining { fails := 1 }).fset R.LNK_CONF_MINW 0 0 2
       s.fget R.LNK_CONF_MINW 0 0 = 2 ∧ ((List.range 4).filter fun w => (0x9 : BitVec 4).toNat.testBit w).length = 2
       ∧ ((List.range 4).filter fun w => (0x8 : BitVec 4).toNat.testBit w).length < 2 ∧ (s.link 0).fails < 2)
    ∧ 2 ≤ ((wLk lsTraining { fails := 2 }).link 0).fails
    ∧ (let s : State := let s := wLk lsAttesting {}; { s with lan := { s.lan with table := some ⟨0, 0, 2, [1], [5, 6], false⟩ } }
       (match s.lan.table with | none => false | some y => [5, 6].all y.fwSet.contains) = true ∧ s.coreUp = true
       ∧ wFacts.ident.toNat = s.fget R.LNK_DOM0_IDENT 0 0 + 2 ^ 32 * s.fget R.LNK_DOM1_IDENT 0 0 ∧ wFacts.expects.toNat = s.selfDev)
    ∧ wFacts.devNum.toNat = (wLk lsAttesting {}).fget R.LNK_LCONF_EXPECT 0 0 ∧ (2 : BitVec 5).toNat ≠ (wLk lsAttesting {}).fget R.LNK_LCONF_EXPECT 0 0
    ∧ (wLk lsAttesting {}).fget R.LNK_LSTAT_PEER 0 0 ≠ 31
    ∧ (wLk lsUp {}).fvec R.LNK_LSTAT_LANES 0 0 3 = true ∧ ((wLk lsUp {}).window lnkWindow ((wLk lsUp { recs := [0, 0] }).link 0).recs).length < 3
    ∧ 3 ≤ ((wLk lsUp {}).window lnkWindow ((wLk lsUp { recs := [0, 0, 0] }).link 0).recs).length ∧ ((wLk lsUp {}).link 0).staged = []
    ∧ (wLk lsRecovering {}).fget R.LNK_LSTAT_LANES 0 0 = 0xF
    ∧ (wLk lsRecovering {}).fget R.LNK_CONF_MINW 0 0 ≤ ((List.range 4).filter fun w => (0xE &&& 0xF : Nat).testBit w).length
    ∧ (let s := (wLk lsDown {}).fset R.LNK_CONF_AUTO 0 0 1; s.fbit R.LNK_CONF_AUTO 0 0 = true ∧ s.sec.halted = false ∧ s.lstate 0 = lsDown ∧ s.linkUsable 0 = true) := by
  decide +kernel

theorem witness_link_control :
    (∀ st ∈ [lsOff, lsTraining, lsDown, lsUp, lsRecovering], (wSeize (wLk st {}) 5 .west).pathReaches .west .lnk 0 0x10C = true
      ∧ (wSeize (wLk st {}) 5 .west).lstate 0 = st ∧ (wSeize (wLk st {}) 5 .west).linkUsable 0 = true)
    ∧ (∀ st ∈ [lsRetired, lsRefused], (wSeize (wLk st {}) 5 .portW).pathReaches .portW .lnk 0 0x10C = true ∧ (wSeize (wLk st {}) 5 .portW).lstate 0 = st)
    ∧ (let s := wSeize ((wLk lsDown {}).fset R.LNK_LCONF_EXPECT 0 0 31) 5 .west; s.linkUsable 0 = false)
    ∧ (∀ b ∈ [true, false], let s : State := let s := wLk lsOff {}; { s with lan := { s.lan with stopping := b } }
       s.pathReaches .west .lnk 0 0x00C = true ∧ s.lan.stopping = b ∧ (∀ e ∈ s.lan.trackers, (s.tracker e.1).busy = false))
    ∧ (wLk lsOff {}).lstate 0 = lsOff ∧ ((wLk lsOff {}).setStarted true).linkUsable 0 = true ∧ (wLk lsDown {}).hasLink (4 * 0) = true
    ∧ (∀ l ∈ fauLinks 0, (wLk lsDown {}).lstate l ≠ lsUp ∧ (wLk lsDown {}).lstate l ≠ lsRecovering)
    ∧ (wLk lsOff {}).linkHalfUp (linkHalf 0) = true ∧ (wLk lsOff {}).fget R.LNK_LCONF_EXPECT 0 0 ≠ 31 ∧ (wLk lsOff {}).lan.started = true := by decide +kernel

/-! ## Command windows -/

/-- The little-endian bytes of a value, and a packet of an opcode with a length of n doublewords, SEQ 0, its sealing word and fields. -/
def wBytes (n v : Nat) : List (BitVec 8) := (List.range n).map fun i => BitVec.ofNat 8 (v / 256 ^ i)
def wPack (op n fields : Nat) : List (BitVec 8) := wBytes (8 * n) (op + n * 2 ^ 8 + fields + (n * 2 ^ 16 + 0xA5 * 2 ^ 32) * 2 ^ (64 * (n - 1)))
def wVf : Win := ⟨.w, 1⟩
def wPf : Win := ⟨.w, 0⟩
/-- The device with the command windows open, and lane 0 of the virtual function of partition 0. -/
def wOpen : State := wMem.fset R.PCI_SENTINEL_READY 0 0 1
def wLane (l : Lane) : State := { wOpen with cmds := { lanes := [(4, l)] } }
def wNopLane : Lane := { ring := memWrite [] 0 (pktNum (wPack 0x80 5 0)) (2 ^ 40 - 1) 40 }
def wHead (b : List (BitVec 8)) : Packet := ⟨b, 1, 0, 0⟩

theorem witness_lane_writes :
    laneIdx wVf 0 = 4 ∧ laneSize wVf = 0x4000 ∧ wOpen.fnThere wVf.idx = true ∧ wOpen.inD3 wVf.idx = false ∧ wOpen.winOpen wVf.idx = true ∧ wOpen.heldAt wVf.port = []
    ∧ wMem.winOpen wVf.idx = false ∧ (let s : State := { wOpen with ports := { wOpen.ports with d3 := [1] } }; s.fnThere wVf.idx = true ∧ s.inD3 wVf.idx = true)
    ∧ (0x3FF8 : BitVec 14).toNat + 8 ≤ laneSize wVf ∧ (wLane { full := 0x4000 }).laneFull wVf 0 0x3FF8 8 = true ∧ (wLane {}).laneFull wVf 0 0x3FF8 8 = false
    ∧ ((wLane {}).lane 4).shut = false ∧ ({ wOpen with cmds := { heldW := [.lane wVf 0 0 []] } } : State).heldAt wVf.port ≠ [] := by decide +kernel

theorem witness_sealing_and_reading :
    (let l := wNopLane
     let len := (l.hdr (laneSize wVf)).2
     let word := ringRead l (laneSize wVf) 32 8
     len = 5 ∧ 32 = (l.e + 8 * len + laneSize wVf - 8) % laneSize wVf ∧ l.fault = 0 ∧ (l.hdr (laneSize wVf)).1 = l.x.toNat ∧ bitsOf word 15 0 = l.x.toNat
     ∧ bitsOf word 31 16 = len ∧ bitsOf word 39 32 = 0xA5)
    ∧ (wLane { sealed := [(40, 1, 0)] }).pseqUp wVf = true ∧ (wLane { sealed := [(40, 1, 0)] }).laneGated wVf 0 = false
    ∧ ((wLane { heads := [wHead []] }).lane 4).heads ≠ [] ∧ ((wLane { sealed := [(40, 1, 0)] }).lane 4).heads = [] := by decide +kernel

theorem witness_flush_and_reset :
    ((wLane {}).lane 4).flush = none ∧ ((wLane { flush := some (true, 2, 1) }).lane 4).flush = some (true, 2, 1) ∧ ((wLane { flush := some (true, 2, 1) }).lane 4).heads = []
    ∧ ({ wOpen with cmds := { heldW := [.lane wVf 0 0 []] } } : State).heldAt wVf.port = .lane wVf 0 0 [] :: []
    ∧ bitsOf (0x1F : W32).toNat 11 8 = 0 ∧ bitsOf (0xF00 : W32).toNat 3 0 = 0 ∧ (∀ k, k < 4 → ((wLane {}).lane (laneIdx wVf k)).heads = [])
    ∧ (wLane {}).laneRuns wVf 0 = 0 ∧ ({ wLane {} with cmds := { runs := [wRun 1 []] } } : State).laneRuns wVf 0 ≠ 0
    ∧ (wSeize wOpen 9 .west).pathReaches .west .cmdDev 0 8 = true ∧ (wSeize wOpen 9 .portW).pathReaches .portW .cmdDev 0 8 = true
    ∧ (let x : W32 := 0x80000078; wVf.fn.val = bitsOf x.toNat 2 0 + 1 ∧ x.toNat.testBit 31 = true ∧ x.toNat.testBit 3 = true ∧ x.toNat.testBit 6 = true
       ∧ x.toNat.testBit 8 = false) := by decide +kernel

/-- A head of lane 0, with runs; a DISPATCH on group 0, which is partition 0's, asking for 4000 W. -/
def wStart (b : List (BitVec 8)) (runs : List Run) : State := { wLane { heads := [wHead b] } with cmds := { (wLane { heads := [wHead b] }).cmds with runs := runs } }
def wDispatch : List (BitVec 8) := wPack 1 9 ((1 + 1 * 2 ^ 24 + 4000 * 2 ^ 32) * 2 ^ 256)
def wDispatch0 : List (BitVec 8) := wPack 1 9 ((1 + 1 * 2 ^ 24) * 2 ^ 256)
def wGroups (s : State) : State := { (s.fset R.HUB_TGOWN_OWNED 0 0 1) with xlt := { tables := [(0, some 0)] } }

theorem witness_command_start :
    (let s := wStart (wPack 0x80 5 0) []
     (s.lane (laneIdx wVf 0)).heads = wHead (wPack 0x80 5 0) :: [] ∧ s.outranked wVf 0 = false ∧ s.headNext wVf 0 (wHead (wPack 0x80 5 0)) = .start)
    ∧ (let s := wStart (wPack 0x99 5 0) []; s.outranked wVf 0 = false ∧ s.headNext wVf 0 (wHead (wPack 0x99 5 0)) = .fail (stBadOpcode, 0))
    ∧ (let s := wStart (wPack 0x80 5 0) [wRun 0 (wPack 0x83 7 0)]; s.outranked wVf 0 = false ∧ s.headNext wVf 0 (wHead (wPack 0x80 5 0)) = .wait)
    ∧ (let s := wGroups (wStart wDispatch []); s.outranked wVf 0 = false ∧ s.headNext wVf 0 (wHead wDispatch) = .ask)
    ∧ (let s := { wStart (wPack 0x80 5 0) [] with cmds := { lanes := [(4, { heads := [wHead (wPack 0x80 5 0)] }), (5, { heads := [wHead (wPack 0x80 5 0)] })] } }
       s.outranked wVf 0 = true) := by decide +kernel

theorem witness_head_starts :
    (∀ e ∈ [(wPack 0x80 5 0, 0x80), (wPack 0xC8 6 0, 0xC8)],
      let s := wStart e.1 []
      let p := wHead e.1
      pktOpcode p.bytes = e.2 ∧ s.halfLive (s.portHalf wVf.port) = true ∧ s.laneGated wVf 0 = false ∧ s.roomToRun wVf = true ∧ s.orderHolds wVf 0 p = true
      ∧ s.postedDone wVf p.mark = true ∧ s.startFail wVf p.bytes = none ∧ isControl e.2 = decide (e.2 = 0xC8)
      ∧ (s.half .west).core = false ∧ s.halfLive .west = true ∧ s.coreUp = true ∧ s.coreBusy = false)
    ∧ (let s := wStart (wPack 0x02 9 0) []; (s.site (pktBits (wPack 0x02 9 0) 258 256)).works.length < 16)
    ∧ (let s := (wGroups (wStart wDispatch0 [])).fset R.PWR_PBASE_BASE_W 0 0 4000
       s.startFail wVf wDispatch0 = none ∧ pktField wDispatch0 36 4 = 0 ∧ s.charge wDispatch0 + s.charged 0 ≤ s.fget R.PWR_PBASE_BASE_W 0 0)
    ∧ (let s : State := { wGroups (wStart wDispatch []) with pwr := { grants := [(.cmd 1, 4000)] } }
       s.startFail wVf wDispatch = none ∧ pktField wDispatch 36 4 ≠ 0 ∧ (s.pwr.grants.any fun g => g.1 == LeaveWho.cmd (wHead wDispatch).order) = true
       ∧ s.charge wDispatch + s.charged 0 ≤ s.fget R.PWR_PBASE_BASE_W 0 0 + pktField wDispatch 36 4) := by decide +kernel

/-- The device with one command. -/
def wCmd (s : State) (r : Run) : State := { s with cmds := { s.cmds with runs := [r] } }
def wIsStarted (s : State) (id op : Nat) (r : Run) : Bool := s.run id == some r && pktOpcode r.bytes == op && !r.body && r.status.isNone
/-- A command of an opcode, with fields. -/
def wOpRun (op f : Nat) : Run := wRun 1 (wPack op 16 f)

theorem witness_command_end :
    (let r := { wRun 1 (wPack 0x80 5 0) with replied := true }; (wCmd wOpen r).run 1 = some r)
    ∧ (let r := { wRun 1 (wPack 0x80 5 0) with body := true }; (wCmd wOpen r).workEnd r = none ∧ r.replied = false ∧ r.tEnd = none)
    ∧ (let r := { wRun 1 (wPack 0x80 5 0) with status := some stOk }; (wCmd wOpen r).workEnd r = some r)
    ∧ (let r := { wRun 1 (wPack 0x80 5 0) with status := some stOk, tEnd := some 9, win := wPf }; (wCmd wOpen r).run 1 = some r ∧ r.tEnd ≠ none ∧ r.win.fn.val = 0)
    ∧ (let r := { wRun 1 (wPack 0x80 5 0) with status := some stOk }; (wCmd wOpen r).releaseClear r = true)
    ∧ (let r := { wRun 1 wDispatch with body := true, groups := [0] }; (wCmd wOpen r).workEnd r = some r)
    ∧ (let r := { wRun 1 (wPack 0x46 9 0) with body := true }; (wCmd wOpen r).handleBusy (pktField r.bytes 32 2) r.mark = false)
    ∧ (let r := { wRun 1 (wPack 0x47 9 0) with body := true }; (wCmd wOpen r).invalDone r = true)
    ∧ pktTmo (wPack 0x80 5 (1 * 2 ^ 157)) ≠ 0 ∧ (wRun 1 []).halyard = false := by decide +kernel

theorem witness_work_commands :
    (let r := { wOpRun 0x01 0 with groups := [0, 3] }; wIsStarted (wCmd wOpen r) 1 0x01 r = true ∧ r.groups.Nodup ∧ r.groups[1]? = some 3)
    ∧ (∀ op ∈ [0x02, 0x41, 0x42, 0x43, 0x44, 0x45, 0x46], wIsStarted (wCmd wOpen (wOpRun op 0)) 1 op (wOpRun op 0) = true)
    ∧ ((wCmd wOpen (wOpRun 2 0)).workFail 0 (wOpRun 2 0).bytes).isSome = true
    ∧ (let s := wCmd (wSt 4 {}) (wOpRun 2 0); s.workFail (s.runPart (wOpRun 2 0)) (wOpRun 2 0).bytes = none)
    ∧ wOpen.partOfWin (wOpRun 0x45 0).win = some 0 := by decide +kernel

theorem witness_context_commands :
    (∀ op ∈ [0x47, 0x80, 0x81, 0x82, 0x83, 0x84, 0xC4], wIsStarted (wCmd wOpen (wOpRun op 0)) 1 op (wOpRun op 0) = true)
    ∧ (let r := wOpRun 0xC4 (512 * 2 ^ 256); (wCmd wOpen r).ctxOurs r = false ∧ pktField r.bytes 34 1 ≠ 1)
    ∧ (let r := wOpRun 0xC4 (512 * 2 ^ 256 + 2 ^ 272); (wCmd wOpen r).ctxOurs r = false ∧ pktField r.bytes 34 1 = 1)
    ∧ (let r := wOpRun 0xC4 0; (wCmd wOpen r).ctxOurs r = true ∧ pktField r.bytes 34 1 = 0 ∧ pktField r.bytes 40 8 % 2 ^ 44 = 0)
    ∧ (let r := wOpRun 0xC4 (2 ^ 272); (wCmd wOpen r).ctxOurs r = true ∧ pktField r.bytes 34 1 = 1)
    ∧ (wCmd (wSt 4 {}) (wOpRun 0x47 0)).sitesWith 0 = [(0, 1)]
    ∧ (let r := wOpRun 0x83 (5 * 2 ^ 320); (runValue r).toNat = 5 ∧ ((wCmd wOpen r).cleat (runCleat r).toNat).val.toNat < 5)
    ∧ (runValue (wOpRun 0x83 0)).toNat = 0
    ∧ (let y := { wOpRun 0x83 (2 ^ 368) with body := true }; (wCmd wOpen y).run 1 = some y ∧ pktField y.bytes 46 2 ≠ 0)
    ∧ (2 ^ 59 + 2 ^ 56 : Nat).testBit 59 = true ∧ bitsOf (2 ^ 59 + 2 ^ 56) 58 56 ≠ 0
    ∧ (match seqRecord 0 0 0 0 with | .ok _ => true | .error _ => false) = true ∧ (match seqRecord 0 1 0 0 with | .ok _ => true | .error _ => false) = false := by
  decide +kernel

/-- A PART_CREATE of partition 0 for virtual function 1 of port W, allowed class 0; a PART_GRANT to partition 0, of an op. -/
def wCreate : Run := { wOpRun 0xC1 (1 * 2 ^ 352) with win := wPf }
def wGrant (op set : Nat) : Run := { wOpRun 0xC2 (op * 2 ^ 264 + set * 2 ^ 288) with win := wPf }
def wSets (s : State) (x : SSet) : State := { s with sec := { s.sec with sets := [(0, x)] } }

theorem witness_partitions :
    (wIsStarted (wCmd wFree wCreate) 1 0xC1 wCreate = true ∧ wFree.flrRuns (createOf wCreate.bytes).win = false
      ∧ ((wFree.fset R.PWR_LIMIT_PKG_W 0 0 4000).createFail (createOf wCreate.bytes)) = none ∧ (wUp.createFail (createOf wCreate.bytes)).isSome = true)
    ∧ (∀ op ∈ [0, 1, 2, 3, 4, 5, 6, 7, 8], wIsStarted (wCmd wUp (wGrant op 0)) 1 0xC2 (wGrant op 0) = true ∧ grantOp (wGrant op 0) = op ∧ grantPart (wGrant op 0) = 0)
    ∧ wUp.partReady 0 = true ∧ wFree.partReady 0 = false ∧ grantSet (wGrant 3 21) = 21 ∧ grantSet (wGrant 3 22) = 22 ∧ (wUp.sset 0).live = false
    ∧ ((wSets wUp { live := true, writer := 1 }).sset 0).writer ≠ 0
    ∧ (let x := (wSets wUp { live := true }).sset 0; x.live = true ∧ x.writer = 0 ∧ x.sealed = false) ∧ pktBits (wGrant 5 0).bytes 296 296 = 0 := by decide +kernel

theorem witness_grant_records :
    let s : State := { wUp with boot := { wUp.boot with groups := [0] } }
    let g : Nat := 5 + 2 ^ 12
    (State.grantGroup 0 s 0).isSome = true ∧ (s.fset R.HUB_TGOWN_OWNED 0 0 1).groupOwner 0 ≠ none
    ∧ (State.grantGran 1 0 s g).isSome = true ∧ (rangeOf g).any (fun x => !(wMem).granFree x) = false ∧ (rangeOf (2 ^ 12)).any (fun x => !(wMem).granFree x) = true
    ∧ (State.grantBlock 0 s 1).isSome = true ∧ s.blockPart 0 ≠ none ∧ (State.grantShared 1 0 21 s g).isSome = true
    ∧ (State.grantShare 0 (wSets s { live := true, sealed := true }) 0).isSome = true
    ∧ (State.releaseGran 1 0 wMem (2 ^ 12)).isSome = true ∧ (rangeOf g).any (fun x => (wMem.own x).owner.toNat != 0) = true := by decide +kernel

/-- A SITE_BIND of site 0 to partition 0, with slot 0 under context 0 of its digest list. -/
def wBind : Run := { wRun 1 (wPack 0xC5 22 (1 * 2 ^ 264)) with win := wPf }

/-- One that its checks let through: class 0 allowed and default, no digest asked for. -/
def wBindOk : Run := { wRun 1 (wPack 0xC5 22 (1 * 2 ^ 264 + 2 ^ 280 + 2 ^ 335)) with win := wPf }

theorem witness_control_commands :
    (∀ op ∈ [0xC3, 0xC5, 0xC6, 0xC7, 0xC8, 0xC9, 0xCA], wIsStarted (wCmd wUp (wOpRun op 0)) 1 op (wOpRun op 0) = true)
    ∧ wUp.partExists (grantPart (wOpRun 0xC3 0)) = true ∧ wFree.partExists (grantPart (wOpRun 0xC3 0)) = false
    ∧ ((wCmd (wSt 4 {}) wBind).bindFail wBind).isSome = true ∧ (wCmd (wSt 3 {}) wBind).bindFail wBind = none ∧ bindSite wBind < 8
    ∧ (wSt 3 {}).siteState (bindSite (wOpRun 0xC6 0)) ≠ 4 ∧ (wSt 4 {}).siteState (bindSite (wOpRun 0xC6 0)) = 4
    ∧ wUp.signs = true ∧ (wUp.fset R.SEC_LC_STATE 0 0 3).signs = false ∧ wUp.partReady (wUp.runPart (wOpRun 0xC7 0)) = true ∧ wFree.partReady (wFree.runPart (wOpRun 0xC7 0)) = false
    ∧ pktDva (wOpRun 0xC7 0).bytes 32 % 64 = 0 ∧ pktDva (wOpRun 0xC7 (2 ^ 256)).bytes 32 % 64 ≠ 0
    ∧ ((wCmd wUp (wOpRun 0xC8 0)).queryItem (wOpRun 0xC8 0) 3).isSome = true ∧ (wCmd wUp (wOpRun 0xC8 0)).queryItem (wOpRun 0xC8 0) 4 = none
    ∧ pktBits (wOpRun 0xC9 (7 * 2 ^ 256)).bytes 258 256 < wUp.nStacks ∧ wSmall.nStacks ≤ pktBits (wOpRun 0xC9 (7 * 2 ^ 256)).bytes 258 256
    ∧ (wSeize wUp 5 .portW).seizedAway 5 = true ∧ wUp.seizedAway 5 = false ∧ wUp.lstate 0 = lsOff ∧ (wLk lsUp {}).lstate 0 ≠ lsOff
    ∧ wUp.halfLive (stackHalf 7) = true ∧ wUp.halfLive (linkHalf 12) = true ∧ (wLk lsUp {}).halfLive (linkHalf 0) = true
    ∧ (let s := wUp.setHalf .east {}; s.halfLive (stackHalf 7) = false ∧ s.halfLive (linkHalf 12) = false ∧ 12 < s.nLinks ∧ s.lstate 12 = lsOff)
    ∧ pktField (wOpRun 0xCA (2 ^ 264)).bytes 33 1 = 1 ∧ pktField (wOpRun 0xCA (2 ^ 265)).bytes 33 1 = 2 := by decide +kernel

/-- A MARGIN of kind 1 of stack 0, 1 step, and one of kind 4. -/
def wMargRun (kind : Nat) : Run := wOpRun 0xC9 ((2 ^ 18 + kind * 2 ^ 7) * 2 ^ 288)

theorem witness_control_starts :
    (let s : State := { wUp with sec := { wUp.sec with parts := [(0, { win := some wVf })] } }
     s.partExists 0 = true ∧ (s.part 0).win = some wVf ∧ (s.part 0).whip = none)
    ∧ (let s := wCmd (wSt 3 {}) wBindOk
       s.partExists (bindPart wBindOk) = true ∧ (s.part (bindPart wBindOk)).whip = none ∧ s.siteState (bindSite wBindOk) = 3
       ∧ (∀ n, n < 16 → (bindSlot wBindOk n).2 = true → (bindSlot wBindOk n).1 / 512 = bindPart wBindOk) ∧ (bindSlot wBindOk 0).2 = true
       ∧ (pktField wBindOk.bytes 33 1).testBit (pktBits wBindOk.bytes 274 272) = true)
    ∧ (∀ k ∈ [1, 4], let s := wCmd (wFree.fset R.SEC_LC_STATE 0 0 1) (wMargRun k)
       let w := BitVec.ofNat 32 (pktField (wMargRun k).bytes 36 4)
       bitsOf w.toNat 9 7 = k ∧ k ≤ 4 ∧ bitsOf w.toNat 27 18 ≠ 0 ∧ (match marginMax (s.fget R.SEC_LC_STATE 0 0) k with | none => false | some l => decide (marginSteps w ≤ l)) = true
       ∧ s.anyPart = false ∧ (∀ c, c < 128 → s.chState c ≠ 1) ∧ s.fbit R.MEM_MARGIN_STAT_BUSY 0 0 = false ∧ s.fbit R.MEM_MARCH_STAT_BUSY 0 0 = false)
    ∧ ((wCmd wUp (wMargRun 1)).setRun { wMargRun 1 with body := true }).nStacks = 8 ∧ wUp.coreUp = true := by decide +kernel

theorem witness_whipping_over :
    let s : State := { wUp with sec := { wUp.sec with parts := [(0, { win := some wVf, whip := some (.destroy 1) })] } }
    s.whipOver 0 = true ∧ (s.part 0).win = some wVf := by decide +kernel

/-! ## Translation -/

def wPort : Agent := ⟨.port, 0⟩
def wDpa (r : XRes) : Bool := match r with | .dpa _ => true | .fault _ _ => false
def wOk {α β : Type} (r : Except α β) : Bool := match r with | .ok _ => true | .error _ => false
/-- Fault record 0 of virtual function 1 holds a fault of kind 5, of context 0, of every index. -/
def wRec (s : State) : State := ((s.fset R.XLT_FREC_VALID 1 0 1).fset R.XLT_FREC_KIND 1 0 5).fset R.XLT_FREC_INDEX 1 0 0x7FF
def wAllRecs (s : State) : State := (List.range 32).foldl (fun s r => s.fset R.XLT_FREC_VALID 1 r 1) s
/-- Aperture 0 of virtual function 1 enabled at DVA 0. -/
def wAper (s : State) : State := s.fset R.XLT_AP_LO_EN 1 0 1

theorem witness_translation_and_records :
    wDpa ((wTable wOpen).translate wTile0 0 0 (needOfCode 0)).1 = true ∧ (wOpen.translate wTile0 0 0 (needOfCode 0)).1 = .fault 5 0x7FF
    ∧ (wOpen.part 0).win = some wVf ∧ (wRec wOpen).sameRecord wVf.idx 0 5 0x7FF = some 0 ∧ wOpen.sameRecord wVf.idx 0 5 0x7FF = none
    ∧ wOpen.freeRecord wVf.idx = some 0 ∧ (wAllRecs wOpen).sameRecord wVf.idx 0 5 0x7FF = none ∧ (wAllRecs wOpen).freeRecord wVf.idx = none := by decide +kernel

/-- A translation in the master's cache, in its walker's, and in none, with a table and without. -/
theorem witness_range_walks :
    (let e (o : Agent) : RangeEnt := ⟨o, 0, 0, 1, 0, true, true, true, 0⟩
     let w := wOpen.walkerOf wTile0
     let c (o : Agent) : State := { wOpen with xlt := { caches := [e o] } }
     (c wTile0).cached wTile0 0 0 (needOfCode 0) = some (e wTile0) ∧ (c w).cached wTile0 0 0 (needOfCode 0) = none ∧ (c w).cached w 0 0 (needOfCode 0) = some (e w))
    ∧ (wTable wOpen).cached wTile0 0 0 (needOfCode 0) = none ∧ (wTable wOpen).cached ((wTable wOpen).walkerOf wTile0) 0 0 (needOfCode 0) = none
    ∧ wWalks ((wTable wOpen).walk wTile0 0 0 (needOfCode 0)) = true
    ∧ tget (fun _ => none) wOpen.xlt.tables 0 = none ∧ ((wOpen.walked wTile0 0 0).part 0).win = some wVf := by decide +kernel

/-- The port has a posted write in the mesh. -/
def wPosting : State := { wOpen with fab := { wOpen.fab with txs := [{ wTx false .memWr with purp := .apWr 1 0 }] } }

theorem witness_retry_and_apertures :
    wOpen.partOfWin wVf = some 0 ∧ wPosting.postOut 0 = true ∧ wOpen.postOut 0 = false ∧ wPosting.winOpen wVf.idx = true ∧ (∀ q ∈ wOpen.ports.posted, q.win / 9 ≠ 0)
    ∧ (wRec wOpen).fbit R.XLT_FREC_VALID wVf.idx 0 = true ∧ wOpen.fbit R.XLT_FREC_VALID wVf.idx 31 = false
    ∧ (let h : XHeld := ⟨0, some 0, 0, 5, 0x7FF, 0, wTile0, none, .accs []⟩
       let s := { wRec wOpen with xlt := { held := [h] } }; s.xlt.held = [h] ∧ ∀ x ∈ s.xlt.held, x.part = 0 → x.rcd ≠ none)
    ∧ wPf.fn.val = 0 ∧ wVf.fn.val ≠ 0 ∧ wFree.partOfWin wVf = none ∧ wOpen.fbit R.XLT_AP_LO_EN 1 0 = false ∧ (wAper wOpen).fbit R.XLT_AP_LO_EN 1 0 = true
    ∧ (let s := wAper (wTable wOpen)
       let ds := sectorsOf (s.apDva 1 0 0) 32
       wOk (s.apDpas wPort 0 .write ds).1 = true ∧ wOk (s.apDpas wPort 0 .read ds).1 = true)
    ∧ wOk ((wAper wOpen).apDpas wPort 0 .read (sectorsOf ((wAper wOpen).apDva 1 0 0) 32)).1 = false := by decide +kernel

/-! ## Power -/

/-- Site 0 bound, with a queue of requests, under a package limit. -/
def wGov (pkg : Nat) (q : List LeaveQ) : State := { (wSt 4 {}).fset R.PWR_LIMIT_PKG_W 0 0 pkg with pwr := { queue := q } }
def wAsk : LeaveQ := ⟨.site 1, none, 10, 1000, .west, 0⟩
/-- Site 0 with a three-dimensional face above a stack whose quadrant has no room. -/
def wQuad : State := { wGov 4000 [] with fuse := { sites := [{ kind := .d3, limit := 100 }] } }

theorem witness_leave :
    (∀ st ∈ [1, 2, 3, 4, 5], (wSt st {}).hasSite 0 = true ∧ (wSt st {}).siteState 0 = st)
    ∧ (0x54 : BitVec 8).toNat ∈ ctlOps ∧ (0xFF : BitVec 8).toNat ∉ ctlOps ∧ (wSt 4 {}).slotCtx 0 15 = none ∧ (wSt 4 {}).slotCtx 0 0 ≠ none
    ∧ (wGov 4000 []).leaveBarred (.site 0) 101 1000 = true ∧ (wGov 4000 []).leaveBarred (.site 0) 100 1000 = false ∧ (wGov 4000 []).leaveBarred (.site 0) 100 0 = true
    ∧ 100 ≤ (wGov 4000 []).freeW ∧ (wGov 4000 []).leaveOver (.site 0) 100 = false
    ∧ (let s := wQuad.fset R.PWR_QUAD_LIMIT_W 0 0 0; s.leaveBarred (.site 0) 100 1000 = false ∧ 100 ≤ s.freeW ∧ s.leaveOver (.site 0) 100 = true)
    ∧ (wGov 0 []).leaveOver (.site 0) 100 = false ∧ (wGov 4000 (List.replicate 32 wAsk)).leaveOver (.site 0) 100 = false
    ∧ (wGov 0 []).freeW < 100 ∧ (wGov 4000 [wAsk]).pwr.queue ≠ [] ∧ (wGov 4000 (List.replicate 32 wAsk)).leaveBarred (.site 0) 100 1000 = false
    ∧ 32 ≤ (wGov 4000 (List.replicate 32 wAsk)).pwr.queue.length
    ∧ (let s := wGroups (wStart wDispatch []); s.headOf 1 = some (4, wHead wDispatch) ∧ winOf (4 / 4) = wVf ∧ s.headNext (winOf (4 / 4)) (4 % 4) (wHead wDispatch) = .ask)
    ∧ (wGov 4000 []).pwr.queue = [] ∧ (wGov 4000 [wAsk]).pwr.queue = wAsk :: []
    ∧ ((wGov 4000 []).pwr.grants.any fun g => g.1 == LeaveWho.site 0) = false
    ∧ (({ queue := [], grants := [(.site 0, 10)] } : Power).grants.any fun g => g.1 == LeaveWho.site 0) = true := by decide +kernel

/-- The clauses meet at 95 per cent of the limit, at 93 and 87 degrees, and at a gate of 16. -/
theorem witness_throttles :
    (let s := wUp.fset R.PWR_LIMIT_PKG_W 0 0 1000
     s.fget R.PWR_LIMIT_PKG_W 0 0 < (1001 : BitVec 12).toNat ∧ s.pwr.pkgSteps < s.pwr.vNow ∧ (2 : Nat) ≤ ({ pkgSteps := 2 } : Power).pkgSteps
     ∧ (949 : BitVec 12).toNat ≤ s.fget R.PWR_LIMIT_PKG_W 0 0 ∧ 20 * 949 < 19 * s.fget R.PWR_LIMIT_PKG_W 0 0 ∧ 19 * s.fget R.PWR_LIMIT_PKG_W 0 0 ≤ 20 * 950)
    ∧ wUp.fuse.small = false ∧ 7 < wUp.nStacks ∧ (93 : BitVec 8).toNat < 94 ∧ tget (fun _ => 16) wUp.pwr.stkWant 7 ≠ 8
    ∧ wUp.pwr.pkgOn = false ∧ 16 ≤ wUp.pwr.pkgGate ∧ ({ pkgGate := 15 } : Power).pkgGate < 16 := by decide +kernel

theorem witness_governor_registers :
    let s := wSeize (wSeize (wUp.fset R.PWR_LIMIT_PKG_W 0 0 1000) 0 .west) 1 .west
    s.pathReaches .west .pwr 0 0x000 = true ∧ s.pathReaches .west .pwr 0 0x004 = true ∧ s.pathReaches .west .pwr 0 0x010 = true ∧ s.pathReaches .west .pwr 0 0x02C = true
    ∧ s.topPkg < s.topPkg + 1 ∧ s.topPkg < 4096 ∧ s.committed ≤ s.topPkg ∧ s.coolAir = false
    ∧ (let t := (s.fset R.PWR_PBASE_BASE_W 0 7 4095).fset R.PWR_PBASE_LEAVE_MAX 0 7 1; s.fget R.PWR_LIMIT_PKG_W 0 0 < t.committed)
    ∧ (let t := (s.fset R.PWR_PBASE_BASE_W 0 7 1).fset R.PWR_PBASE_LEAVE_MAX 0 7 1; t.committed ≤ s.fget R.PWR_LIMIT_PKG_W 0 0)
    ∧ s.cmds.runs.any Run.dispatching = false ∧ [{ wRun 1 (wPack 1 9 0) with groups := [0] }].any Run.dispatching = true
    ∧ s.pathReaches .west .hub 0 0x120 = true ∧ s.pathReaches .west .hub 0 0x128 = true ∧ s.anyPart = true ∧ wFree.anyPart = false
    ∧ (∀ k ∈ [0, 1, 2], ((tagminFields k).any fun f => decide (f.2 < bitsOf 0 f.1.hi f.1.lo)) = false)
    ∧ (tagminFields 0).any (fun f => decide (f.2 < bitsOf 0xFFFFFFFF f.1.hi f.1.lo)) = true
    ∧ ((tagminFields 0).foldl (fun t f => t.fset f.1 0 0 (bitsOf 0 f.1.hi f.1.lo)) wFree).sumMin .west ≤ 32768
    ∧ ((tagminFields 0).foldl (fun t f => t.fset f.1 0 0 (bitsOf 0 f.1.hi f.1.lo)) wFree).sumMin .east ≤ 32768 := by decide +kernel

/-! ## Security -/

/-- The device with a Halyard session. -/
def wSes (s : State) : State := { s with sec := { s.sec with session := true } }
def wClient : Client := ⟨5, true, true, true, true⟩

theorem witness_alarms_and_life_cycle :
    (wUp.fset R.SEC_LC_BUSY 0 0 1).fbit R.SEC_LC_BUSY 0 0 = true ∧ wUp.fbit R.SEC_LC_BUSY 0 0 = false
    ∧ (∀ v ∈ [0, 1, 2, 3, 4], (wUp.fset R.SEC_ALARMCFG_TAMPER0 0 0 v).fget R.SEC_ALARMCFG_TAMPER0 0 0 = v)
    ∧ wFree.pathReaches .west .sec 0 0x004 = true ∧ bitsOf (0xC1A70003 : W32).toNat 31 16 = 0xC1A7 ∧ bitsOf (0xC1A60003 : W32).toNat 31 16 ≠ 0xC1A7
    ∧ wFree.fget R.SEC_LC_STATE 0 0 = 2 ∧ (wFree.fset R.SEC_LC_STATE 0 0 1).fget R.SEC_LC_STATE 0 0 ≠ 2 ∧ (wFree.fset R.SEC_LC_STATE 0 0 1).lcMay 2 = true
    ∧ wFree.lcMay 3 = true ∧ wFree.lcMay 1 = false ∧ wUp.lcMay 3 = false
    ∧ (∀ t ∈ [1, 2, 3], ({ burning := some t } : Security).burning = some t) ∧ wUp.sec.burning = none := by decide +kernel

theorem witness_halyard_sessions :
    (wSes wUp).sec.session = true ∧ wUp.sec.session = false ∧ wUp.shut = false ∧ wUp.coreUp = true ∧ State.reset.coreUp = false
    ∧ ({ wUp with sec := { wUp.sec with hsShut := some 0 } } : State).shut = true
    ∧ wUp.sec.anchor = none ∧ ({ wUp.sec with anchor := some 5 } : Security).anchor = some 5 ∧ wClient.selfSigned = true
    ∧ (wUp.window handshakeSpan [0]).length < 2 ∧ 2 ≤ (wUp.window handshakeSpan [0, 0]).length := by decide +kernel

theorem witness_halyard_messages :
    let s := wSes wFree
    s.sec.session = true ∧ s.coreUp = true ∧ s.coreBusy = false ∧ s.headerFail ⟨.w, 0⟩ (wPack 0x80 5 0) = none
    ∧ (wPack 0x80 5 0).length = 8 * pktLen (wPack 0x80 5 0) ∧ (wPack 0x80 5 0).tail.length ≠ 8 * pktLen (wPack 0x80 5 0).tail
    ∧ isControl (pktOpcode (wPack 0x80 5 0)) = false ∧ isControl (pktOpcode (wPack 0xC8 6 0)) = true ∧ s.headerFail ⟨.w, 0⟩ (wPack 0xC8 6 0) = none
    ∧ s.signs = true ∧ (s.fset R.SEC_LC_STATE 0 0 3).signs = false ∧ s.linksOff = true ∧ s.lan.stopping = false ∧ (wSes (wLk lsUp {})).linksOff = false
    ∧ s.fbit R.SEC_LC_BUSY 0 0 = false ∧ (s.fset R.SEC_LC_BUSY 0 0 1).fbit R.SEC_LC_BUSY 0 0 = true ∧ s.resetting = false
    ∧ s.lcMay 3 = true ∧ s.lcMay 2 = false ∧ s.anyPart = false ∧ s.fget R.SEC_LC_STATE 0 0 = 2 ∧ (wSes wUp).anyPart = true
    ∧ s.fget R.SEC_DBG_FAILS 0 0 = 0 ∧ (s.fset R.SEC_DBG_FAILS 0 0 2).fget R.SEC_DBG_FAILS 0 0 = 2
    ∧ s.sec.regWait = none ∧ regAt 0x040 = some (.reg .hub 0 0x040) ∧ needsSeize .hub 0x040 1 = some 12 ∧ regAt 0xFFFFFF = none
    ∧ needsSeize .hub 0x040 0 = none ∧ Blk.hub ∈ regBlocks ∧ Blk.pci ∉ regBlocks ∧ s.seizer 12 = none ∧ (wSeize s 12 .portW).seizer 12 = some .portW := by decide +kernel

theorem witness_mailboxes :
    wUp.fnThere wVf.idx = true ∧ wUp.fnThere (Win.idx ⟨.w, 2⟩) = true ∧ wFree.fnThere (Win.idx ⟨.e, 1⟩) = false ∧ wUp.sec.halted = false ∧ wUp.coreUp = true
    ∧ (let s : State := { wUp with boot := { wUp.boot with west := { wUp.boot.west with core := true } } }; s.fnThere wVf.idx = true ∧ s.coreUp = false)
    ∧ wVf.idx ∉ wUp.sec.keyEx ∧ wVf.idx ∈ ({ keyEx := [1], spdm := [1] } : Security).keyEx ∧ wVf.fn.val ≠ 0 ∧ wPf.fn.val = 0 ∧ wUp.partOfWin wVf ≠ none
    ∧ wUp.partOfWin ⟨.w, 2⟩ = none ∧ wUp.tdi wVf = .unlocked ∧ ({ wUp with sec := { wUp.sec with tdis := [(1, .locked)] } } : State).tdi wVf = .locked
    ∧ (∀ i ∈ [1, 2, 3, 4, 5, 6], (wUp.measureBlock i).isSome = true) ∧ wUp.reqPart wVf = some 0 ∧ wUp.reqPart wPf = some 0xFF ∧ wUp.signs = true
    ∧ (8 : BitVec 8).toNat = 8 := by decide +kernel

/-! ## Host ports -/

theorem witness_resets_of_functions :
    wUp.cfgReach wVf = true ∧ wUp.flrRuns wVf = false ∧ (wUp.fset R.PCI_FLRSTAT_VFW 0 0 1).flrRuns wVf = true ∧ wUp.partOfWin wVf = some 0
    ∧ wUp.cfgReach ⟨.w, 8⟩ = true ∧ wUp.partOfWin ⟨.w, 8⟩ = none ∧ wUp.cfgReach ⟨.e, 1⟩ = false ∧ (wUp.part 0).whip = none
    ∧ ({ wUp with sec := { wUp.sec with parts := [(0, { win := some wVf, whip := some .flr })] } } : State).partOfWin wVf = some 0
    ∧ wUp.cfgReach wPf = true ∧ wUp.cfgBit wPf.idx 1 = true ∧ wUp.cfgReach ⟨.e, 0⟩ = true ∧ wUp.cfgBit (Win.idx ⟨.e, 0⟩) 1 = false
    ∧ wUp.fbit (flrPf .w) 0 0 = false ∧ (wUp.fset (flrPf .w) 0 0 1).fbit (flrPf .w) 0 0 = true := by decide +kernel

theorem witness_resets_of_ports :
    (let s := (wUp.fset R.PCI_LINK_SPEED 0 0 5); s.halfLive (s.portHalf .w) = true ∧ s.portUp .w = true ∧ wUp.portUp .w = false)
    ∧ wUp.perst .w = true ∧ (let s : State := { wUp with ports := { wUp.ports with perstW := false } }
      s.halfLive (s.portHalf .w) = true ∧ s.perst .w = false ∧ (s.portReady .w && !s.perst .w && s.portTrains 6 16) = true
      ∧ (s.portReady .w && !s.perst .w && s.portTrains 1 1) = true ∧ (s.portReady .w && !s.perst .w && s.portTrains 7 16) = false)
    ∧ State.reset.halfLive (State.reset.portHalf .w) = false := by decide +kernel

theorem witness_configuration :
    cfgHas wPf .vfEnable = true ∧ cfgHas wVf .vfEnable = false ∧ cfgHas wVf .busMaster = true ∧ cfgHas wPf (.aerSeverity 18) = true ∧ cfgHas wPf (.aerStatus 0) = true
    ∧ cfgHas wVf (.msixMask 7) = true ∧ wUp.fget (flrVf .w) 0 0 = 0 ∧ (wUp.fset (flrVf .w) 0 0 1).fget (flrVf .w) 0 0 ≠ 0
    ∧ (∀ r ∈ [CfgReg.aerStatus 0, .aerStatus 18, .aerSeverity 8, .msixMask 0, .msixMask 7, .busMaster, .vfEnable], r.num < 128)
    ∧ wUp.fnThere wVf.idx = true ∧ wUp.fnThere (Win.idx ⟨.e, 1⟩) = false ∧ wUp.aerIsFatal wVf.idx aerUr = false ∧ wUp.cfgBit wVf.idx (32 + aerUr) = false
    ∧ ({ wUp with ports := { wUp.ports with cfg := [(1, true), (128 + 32 + aerUr, true)] } } : State).cfgBit wVf.idx (32 + aerUr) = true
    ∧ wUp.aerIsFatal wPf.idx aerUc = false ∧ wUp.aerMasked wPf.idx aerUc = false ∧ (wUp.aerLog wVf.idx).length < 4
    ∧ (let s : State := { wUp with ports := { wUp.ports with cfg := [(1, true), (128 + 64 + aerUr, true)], aerLog := [(1, [13])] } }
       s.aerIsFatal wVf.idx aerUr = true ∧ s.firstError wVf.idx = some 13) := by decide +kernel

theorem witness_timeouts_and_module :
    (let r : HostRead := ⟨7, 1, 0, 0, 32, 1, [], false, false⟩
     ({ wUp.ports with reads := [r] } : Ports).reads.find? (fun r => r.win / 9 == Port.w.num) = some r)
    ∧ wUp.ports.reads.find? (fun r => r.win / 9 == Port.w.num) = none ∧ (wUp.heldAt .w).find? (fun h => h.reads.isSome) = none
    ∧ (let h : HeldAcc := .aper wVf 0 0 none 32 false
       let s : State := { wUp with cmds := { heldW := [.lane wVf 0 0 [], h] } }
       (s.heldAt .w).find? (fun h => h.reads.isSome) = some h ∧ h.reads = some 1)
    ∧ wUp.fbit R.PCI_MODULE_BUTTON 0 0 = false ∧ (wUp.fset R.PCI_MODULE_BUTTON 0 0 1).fbit R.PCI_MODULE_BUTTON 0 0 = true ∧ wUp.ports.railsOff = false
    ∧ ({ railsOff := true } : Ports).railsOff = true ∧ wUp.boot.run = true
    ∧ (let s : State := { wUp with ports := { wUp.ports with d3 := [0], cfg := [(1, true), (2, true)] } }
       Win.idx ⟨.w, 0⟩ ∈ s.ports.d3 ∧ s.cfgBit (Win.idx ⟨.w, 0⟩) 2 = true ∧ s.halfLive (s.portHalf .w) = true)
    ∧ (wSeize wUp 7 .west).pathReaches .west .pci 0 0x018 = true ∧ (wSeize wFree 7 .west).pathReaches .west .pci 0 0x018 = true
    ∧ (wSeize wFree 7 .west).anyPart = false ∧ (wSeize wFree 7 .west).fbit R.SEC_LC_BUSY 0 0 = false := by decide +kernel

/-! ## Bring-up and faults -/

def wEnv : BootEnv := ⟨true, 3, true, 2, true, true, false, none⟩
/-- A cold boot at a stage of both halves; and the same in a warm reset of one. -/
def wBoot (w e : HalfSt) : State := { State.reset with boot := { run := true, west := w, east := e } }
def wFactsOk : StageFacts := ⟨true, 0xFF, 0xFFFF, 0xFFFFFF, [], [], 0, true, true, 1⟩
def wAt (n : Nat) : HalfSt := { stage := n, live := true }
def wWarm (n : Nat) : HalfSt := { stage := n, live := true, warm := some true }

theorem witness_cold_boot :
    (let s : State := { wUp with sites := [(0, { severed := true, hold := true }), (1, {})] }
     (s.sites.filterMap fun e => if e.2.severed then some (e.1, { severed := true }) else none) = [(0, ({ severed := true } : Site))])
    ∧ State.reset.boot.run = false ∧ wUp.boot.run = true ∧ State.reset.tornNow = false
    ∧ ({ State.reset with sec := { torn := true } } : State).tornNow = true
    ∧ (wEnv.aValid && decide (State.reset.fuse.svnMin ≤ wEnv.aSvn)) = true
    ∧ (let s : State := { State.reset with fuse := { svnMin := 3 } }
       (wEnv.aValid && decide (s.fuse.svnMin ≤ wEnv.aSvn)) = true ∧ (wEnv.bValid && decide (s.fuse.svnMin ≤ wEnv.bSvn)) = false) := by decide +kernel

theorem witness_boot_stages :
    (∀ n ∈ [0, 1, 2, 3, 4], (wBoot (wAt n) {}).working .west = true ∧ ((wBoot (wAt n) {}).half .west).stage = n ∧ ((wBoot (wAt n) {}).half .west).warm = none)
    ∧ (wBoot (wAt 5) (wAt 1)).working .east = true ∧ (wBoot (wAt 5) (wAt 5)).working .west = false ∧ wSmall.hasHalf .east = false
    ∧ ((wBoot (wAt 0) {}).fset R.SEC_LC_STATE 0 0 3).working .west = true ∧ (wBoot (wAt 0) {}).fget R.SEC_LC_STATE 0 0 ≠ 3
    ∧ (let s := (wBoot (wAt 5) (wAt 1)).fset R.HUB_ORG_WEST_UP 0 0 1; s.halfUp .west = true ∧ s.working .east = true) ∧ (wBoot (wAt 1) {}).halfUp .east = false
    ∧ raiseReserve 16 16 = some 16 ∧ raiseReserve 16 17 = some 32 ∧ raiseReserve 16 56 = some 64 ∧ raiseReserve 16 57 = none
    ∧ ((wBoot (wAt 2) {}).newlyFailed .west (List.range 57)).length = 57
    ∧ ((wBoot (wAt 3) {}).fset R.LNK_LCONF_EXPECT 0 0 1).linksPartial .west = true
    ∧ (∀ n ∈ [0, 1, 2, 3, 4], (wBoot (wWarm n) (wAt 5)).working .west = true ∧ ((wBoot (wWarm n) (wAt 5)).half .west).warm = some true)
    ∧ ((wBoot (wWarm 4) (wAt 5)).half .east).heldReq = none ∧ (wBoot (wWarm 1) (wAt 5)).halfUp .east = false := by decide +kernel

theorem witness_boot_timeouts :
    (let s := wBoot (wAt 2) (wAt 1)
     s.boot.run = true ∧ s.bootStopped = false ∧ (s.half .east).live = true ∧ (s.half .east).warm = none ∧ (s.half .east).stage ≤ 1 ∧ 2 ≤ (s.half .west).stage)
    ∧ (wBoot (wAt 1) (wAt 1)).bootStopped = false ∧ ((wBoot (wAt 1) (wAt 1)).half .west).stage < 2 ∧ 1 < ((wBoot (wAt 2) (wAt 2)).half .east).stage
    ∧ ((wBoot (wAt 1) {}).half .west).stage = 1 ∧ ((wBoot (wWarm 1) (wAt 5)).half .west).warm ≠ none ∧ wUp.hasHalf .east = true := by decide +kernel

/-- Stack 0 with a run; its register owned by the West core. -/
def wMarch (r : StackRun) : State := { wSeize (wFree.fset R.MEM_MARCH_STAT_BUSY 0 0 1) 4 .west with hank := { runs := [(0, r)] } }

theorem witness_marches :
    (wSeize wFree 4 .west).pathReaches .west .stack 0 0x210 = true ∧ (wSeize wFree 4 .west).marchRefusal 0 0x80000004 = 0 ∧ (wSeize wFree 4 .west).marchRefusal 0 0x80000005 = 0
    ∧ (wSeize wFree 4 .west).marchRefusal 0 (0x80000000 + 4 * 25) = 0 ∧ (wSeize wFree 4 .west).marchRefusal 0 (0x80000000 + 4 * 26) = 6
    ∧ (wSeize wUp 4 .west).marchRefusal 0 0x80000005 = 2 ∧ (0x80000005 : Nat).testBit 31 = true
    ∧ ((wMarch { march := true }).srun 0).march = true ∧ ((wMarch { march := true }).srun 0).destr = false ∧ (wMarch {}).fbit R.MEM_MARCH_STAT_BUSY 0 0 = true
    ∧ ((wMarch { march := true, destr := true }).srun 0).destr = true ∧ wSmall.nStacks ≤ 7 ∧ 7 < wUp.nStacks
    ∧ ({ record := [] } : Boot).record.length < 8192
    ∧ wUp.chState 1023 ≠ 2 ∧ (wUp.fset R.MEM_RETIRE_REMAIN 0 0 1).fget R.MEM_RETIRE_REMAIN 0 0 ≠ 0 ∧ (wUp.fset R.MEM_RETIRE_REMAIN 0 0 0).fget R.MEM_RETIRE_REMAIN 0 0 = 0 := by
  decide +kernel

theorem witness_half_resets :
    (wSeize wUp 8 .west).pathReaches .west .hub 0 0x020 = true ∧ wUp.halfLive .west = true ∧ wUp.halfLive .east = true ∧ isPlanned 1 = true ∧ isPlanned 2 = false
    ∧ (wUp.fset R.SEC_LC_BUSY 0 0 1).fbit R.SEC_LC_BUSY 0 0 = true
    ∧ (let s := wBoot (wAt 5) {}; s.halfLive .west = true ∧ s.halfLive .east = false ∧ s.fuse.small = false)
    ∧ (let s : State := { wSmall with boot := { run := true, west := wAt 5 } }; s.halfLive .west = true ∧ s.fuse.small = true)
    ∧ (wUp.window resetSpan [0] ++ [wUp.tally]).length < 3 ∧ 3 ≤ (wUp.window resetSpan [0, 0] ++ [wUp.tally]).length
    ∧ (wUp.window restartSpan [0] ++ [wUp.tally]).length < 3 ∧ 3 ≤ (wUp.window restartSpan [0, 0] ++ [wUp.tally]).length
    ∧ (wUp.half .west).core = false ∧ wUp.sec.halted = false ∧ ((wBoot { wAt 5 with core := true } (wAt 5)).half .west).core = true := by decide +kernel

theorem witness_core_restart_and_rails :
    (let t : DomainTable := ⟨0, 0, 2, [], [], false⟩
     let s : State := { wBoot { wAt 5 with core := true } (wAt 5) with lan := { pending := some t } }
     (s.half .west).core = true ∧ s.lan.pending = some t ∧ s.linksOff = true ∧ s.lan.stopping = false
     ∧ (s.setHalf .west { s.half .west with core := false }).coreUp = true)
    ∧ (∀ r ∈ [Rail.hank 7, .vpp .east, .hphy .east, .ser .west, .opt .east, .site 7, .io], wUp.hasRail r = true) ∧ wSmall.hasRail (.hank 7) = false
    ∧ wUp.boot.run = true ∧ (wUp.setHalf .west {}).boot.run = true ∧ (∀ p ∈ [Port.w, .e], wUp.portUp p = false) := by decide +kernel

/-! ## Registers and the Fid -/

/-- The East half down. -/
def wEastDown : State := wUp.setHalf .east {}

theorem witness_register_gate :
    regAt 0x1212000 = none ∧ wUp.pathReaches .west .hub 0 0 = true ∧ wUp.pathReaches .portW .hub 0 0 = true
    ∧ ({ wUp with boot := { wUp.boot with west := { wUp.boot.west with core := true } } } : State).pathReaches .west .hub 0 0 = false
    ∧ (∃ a ∈ [0x0, 0x1000, 0x2000, 0x4000, 0x6000, 0x8000], (regAt a).isSome = true) ∧ blockIdOff ≠ 0
    ∧ wSmall.lacks .stack 7 = true ∧ wUp.lacks .stack 7 = false ∧ wEastDown.instDown .stack 7 = true ∧ wUp.instDown .stack 7 = false
    ∧ reservedReg .sec 0 = true ∧ reservedReg .coh 0 = false ∧ guardOf .coh 0 = some 2 ∧ wUp.seizer 2 ≠ some .portW
    ∧ (wSeize wUp 2 .portW).pathReaches .portW .coh 0 0 = true ∧ 1 ≤ (wUp.half .west).stage := by
  refine ⟨?_, ?_, ?_, ?_, ⟨0, ?_⟩, ?_⟩ <;> decide +kernel

theorem witness_register_reads :
    wEastDown.pathReaches .west .hub 0 0 = true ∧ wEastDown.lacks .stack 7 = false ∧ wEastDown.instDown .stack 7 = true
    ∧ (let s := wUp.fset R.FID_SEL_UNIT 0 0 1; s.hides .fidc 0 0x100 = true ∧ s.instDown .fidc 0 = false) ∧ (wFree.fset R.SEC_LC_STATE 0 0 3).hides .fidc 0 0x100 = true
    ∧ wUp.hides .hub 0 0 = false ∧ highOf .hub R.HUB_TALLY_LO.off = some R.HUB_TALLY_HI.off ∧ highOf .hub 0 = none
    ∧ (let s : State := { wUp with sec := { wUp.sec with halted := true } }
       s.fnThere (Win.idx ⟨.w, 0⟩) = true ∧ s.inD3 (Win.idx ⟨.w, 0⟩) = false ∧ s.sec.halted = true)
    ∧ (∃ e ∈ Blk.mem.at 0x010, e.1.acc = .rc) ∧ regAt 0x1300FC0 = some (.slots .w 0xFC0) ∧ pathPort .portW = some .w := by
  refine ⟨?_, ?_, ?_, ?_, ?_, ?_, ?_, ?_, ?_, ?_, ?_, ?_⟩ <;> decide +kernel

theorem witness_seizings :
    (∀ n ∈ [0, 15], wUp.pathReaches .portW .hub 0 (0x080 + 4 * n) = true ∧ wUp.seizer n = none ∧ (wSeize wUp n .portW).seizer n = some .portW)
    ∧ wUp.sec.regWait = none ∧ ({ regWait := some ⟨0, none⟩ } : Security).regWait = some ⟨0, none⟩ ∧ (7 : Nat) ∈ ({ waiting := [7] } : Fid).waiting
    ∧ wUp.pathReaches .portW .hub 0 0x040 = true ∧ wUp.seizer 12 ≠ some .portW ∧ (wSeize wUp 12 .portW).seizer 12 = some .portW := by decide +kernel

theorem witness_snapshot_and_seal :
    wUp.hasHalf .east = true ∧ Half.east ∈ ({ snapOut := [.east] } : Fid).snapOut ∧ Half.east ∉ wUp.fid.snapOut
    ∧ wUp.pathReaches .west .hub 0 0x050 = true ∧ wUp.pathReaches .west .hub 0 0x054 = true ∧ State.reset.halfLive .west = false ∧ wUp.halfLive .west = true
    ∧ wUp.fid.passOk = true ∧ ({ passOk := false } : Fid).passOk = false
    ∧ (wUp.fset R.HUB_SEALCTL_ARMED 0 0 1).fbit R.HUB_SEALCTL_ARMED 0 0 = true
    ∧ wEastDown.halfLive (wEastDown.counterHalf R.FID_VAL_LO 1 0) = false := by decide +kernel

/-- A half whose rate window has run since its start, and one where it has begun later. -/
theorem witness_rate_window :
    (let s := wUp.setHalf .west { wUp.half .west with window := true }; s.halfUp .west = true ∧ (s.half .west).window = true ∧ s.hasHalf .west = true)
    ∧ (wUp.half .east).window = false := by decide +kernel

theorem witness_fid_registers :
    (∀ h ∈ [Half.west, .east], ∀ n ∈ [0, 63], (wSeize wUp 10 .portW).pathReaches .portW .fidc h.num (4 * n) = true)
    ∧ (fidUnit 3).2 5 = some .west ∧ (fidUnit 3).2 6 = some .east ∧ (fidUnit 3).2 12 = none ∧ (fidUnit 5).1 ≤ 1 ∧ (fidUnit 0).2 24 = none ∧ (fidUnit 0).2 0 = some .west ∧ (fidUnit 0).2 23 = some .east ∧ fidClassD 6 0 = true ∧ fidClassD 0 6 = false
    ∧ (∀ q ∈ [0, 7], ∀ word ∈ [0, 1, 2, 4, 5, 6], (wSeize wUp 10 .portW).pathReaches .portW .fid 0 (0x040 + 0x20 * q + 4 * word) = true)
    ∧ wUp.tdiFixed 0 = false ∧ ({ wUp with sec := { wUp.sec with tdis := [(1, .run)] } } : State).tdiFixed 0 = true
    ∧ (let s := (wUp.fset R.FID_CONF_SAMPLE_EN 0 0 1).fset R.FID_BUF_SSIZE 0 0 1
       s.fvec R.FID_CONF_SAMPLE_EN 0 0 0 = true ∧ s.fget R.FID_BUF_SSIZE 0 0 ≠ 0 ∧ s.sampleBusy 0 = false ∧ (wAwait false (wRsp .comp 0)).sampleBusy 0 = false)
    ∧ (let s := (wSeize wUp 11 .portW).fset R.FID_TRSTAT_STATE 0 0 1
       s.pathReaches .portW .fid 0 0x014 = true ∧ s.fget R.FID_TRSTAT_STATE 0 0 = 1 ∧ (s.fset R.FID_TRIG_KIND 0 0 7).fget R.FID_TRIG_KIND 0 0 = 7
       ∧ (s.traceQ .west).length < 512 ∧ s.waitsOf (s.fget R.FID_TRIG_PART 0 0) = [])
    ∧ (let s : State := { wUp.fset R.HUB_TGOWN_OWNED 0 0 1 with tiles := [(0, { waiting := some ⟨0, 0, 1, 0, 0, 0⟩ })] }
       s.waitsOf (s.fget R.FID_TRIG_PART 0 0) = [0]) := by decide +kernel

/-! ## The whole machine, the well-formedness checks, and results that the manual gives -/

/-- A queue of commands, a step of its front, and a state in canonical form that a step leaves by a write. -/
theorem witness_step_and_frames :
    ({ State.reset with pending := [.bucketDecay, .alwaysOnRailUp] } : State).pending = .bucketDecay :: [.alwaysOnRailUp] ∧ State.reset.pending = []
    ∧ Memory.wf wMem.hank.mem = true ∧ Comp.mem ∉ touch .bucketDecay ∧ (∃ t, exec .bucketDecay wUp = .next t) ∧ (∃ t, step State.reset = .next t) ∧ State.reset.traceQ .west = [] ∧ State.reset.traceQ .east = []
    ∧ Instr.bucketDecay ≠ .lcBurnDone ∧ (∀ h f, Instr.bucketDecay ≠ .bootStageDone h f) ∧ Instr.bucketDecay ≠ .alwaysOnRailUp
    ∧ R.MEM_CONF_RESERVE.key 0 0 ∉ [R.HUB_POPCODE_CHAR0.key 0 0, R.HUB_POPCODE_CHAR1.key 0 0, R.HUB_POPCODE_CHAR2.key 0 0, R.HUB_POPCODE_CHAR3.key 0 0,
        R.SEC_LC_STATE.key 0 0] :=
  ⟨rfl, rfl, by decide +kernel, by decide, ⟨_, rfl⟩, ⟨_, rfl⟩, rfl, rfl, by decide, by intro h f; simp, by decide, by decide +kernel⟩

/-- An ill-formed operand for each check, which the check refuses. -/
theorem test_wf_refuses_packets :
    Agent.wf ⟨.tile, 96⟩ = false ∧ Agent.wf ⟨.cleatBank, 16⟩ = false ∧ Instr.wf (.memRd (wPkt .memWr wTile0) []) = false
    ∧ Instr.wf (.memWr { wPkt .memWr wTile0 with tag := 65536 } []) = false ∧ Instr.wf (.mfill (wPkt .mFill ⟨.home, 34⟩) []) = false
    ∧ Instr.wf (.atomM (wPkt .atomM wTile0) (List.replicate 9 .clean)) = false ∧ Instr.wf (.memRd (wPkt .memRd wTile0) (List.replicate 8 .clean)) = true
    ∧ Instr.wf (.nackRetry .west 32768) = false ∧ Instr.wf (.patrolRead 0 (2 ^ 39) []) = false ∧ Instr.wf (.retireChunkDone [(2 ^ 39, [])]) = false
    ∧ Instr.wf (.hitchExpire (2 ^ 38)) = false ∧ Instr.wf (.fillTimeout (2 ^ 38)) = false ∧ Instr.wf (.snoopTimeout 0 ⟨.site, 8⟩) = false
    ∧ Instr.wf (.cleatIncrement 0 1 ⟨.port, 2⟩) = false ∧ Instr.wf (.opComplete 0 0 (2 ^ 32)) = false
    ∧ Instr.wf (.siteRequest 0 0 0 0 { wReq .rdOnce wSite0 with src := ⟨.site, 1⟩ }) = false ∧ Instr.wf (.siteRequest 0 0 0 0 (wReq .rdOnce wSite0)) = true
    ∧ Instr.wf (.siteRequest 0 0 0 0 (wReq .comp wSite0)) = false := by decide +kernel

theorem test_wf_refuses_others :
    Hello.wf { wHello with tags := 8192 } = false ∧ Instr.wf (.chipHello 0 wHello) = true ∧ Instr.wf (.measureRsp 0 { digests := List.replicate 17 0 } 0) = false ∧ Instr.wf (.measureRsp 0 { digests := [0] } 0) = true
    ∧ Instr.wf (.lnkPut (wMsg .get 0)) = false ∧ Instr.wf (.lnkPut { wMsg .put 0 with poison := [] }) = false ∧ Instr.wf (.lnkPut (wMsg .put 0)) = true
    ∧ Instr.wf (.lnkRoute { wMsg .route 0 with srcDev := 32 }) = false ∧ Instr.wf (.collIdleTimeout 0 65536 0) = false
    ∧ Instr.wf (.laneWrite wVf 0 0x3FFF [0, 0] false) = false ∧ Instr.wf (.laneWrite wVf 0 0 [] false) = false ∧ Instr.wf (.laneWrite wVf 0 0x3FFE [0, 0] false) = true
    ∧ Instr.wf (.rangeWalk ⟨.mgmt, 3⟩ 0 0 0 false) = false ∧ Instr.wf (.hostApertureAccess wVf 0 0 none 0 false) = false
    ∧ Instr.wf (.hostApertureAccess wVf 0 0 (some [0]) 2 false) = false ∧ Instr.wf (.hostApertureAccess wVf 0 0 none 4097 false) = false
    ∧ Instr.wf (.halyardDomain ⟨0, 0, 26, List.replicate 24 0, [], false⟩) = false ∧ Instr.wf (.halyardDomain ⟨0, 0, 25, List.replicate 23 0, [], false⟩) = false
    ∧ Instr.wf (.halyardDomain ⟨0, 0, 25, List.replicate 24 0, [], false⟩) = true ∧ Instr.wf (.halyardCommand (List.replicate 4097 0)) = false
    ∧ Instr.wf (.halyardReg ⟨2 ^ 24, none⟩) = false ∧ Instr.wf (.registerWrite .west 0x1302000 0 true) = false
    ∧ Instr.wf (.registerReadClear .west 0x1302000) = false ∧ Instr.wf (.lowWordRead .west 0x1301FFF) = true := by decide +kernel

/-- The check value of CRC-32C: the CRC of the nine digits is E3069283 (hand value of the Castagnoli polynomial that the seal and the frames name). -/
theorem test_crc_of_check_string :
    crc32c [(0x31, 1), (0x32, 1), (0x33, 1), (0x34, 1), (0x35, 1), (0x36, 1), (0x37, 1), (0x38, 1), (0x39, 1)] = 0xE3069283 := by decide +kernel

/-- Sums of FP32: 1 + 1 is 2, 2^24 + 1 is a tie that goes to even, and 1 + -1 is +0 (IEEE 754). -/
theorem test_f32_sums :
    f32Add 0x3F800000 0x3F800000 = 0x40000000 ∧ f32Add 0x4B800000 0x3F800000 = 0x4B800000 ∧ f32Add 0x3F800000 0xBF800000 = 0 := by decide +kernel

/-- A Cleat counts modulo 2^48 (R27, R254). -/
theorem test_cleat_wraps :
    (match exec (.cleatIncrement 0 2 wTile0) { wUp with cleats := { wUp.cleats with vals := [(0, { val := 0xFFFFFFFFFFFF })], flying := [⟨0, 2, wTile0, none⟩] } } with
     | .next t => (t.cleat 0).val == 1 && t.cleats.flying.isEmpty
     | _ => false) = true := by decide +kernel

/-- A stack at 96 degrees refreshes four times as often under the first limit (R183). -/
theorem test_thermal_regime :
    (match exec (.thermalRegimeChange 7 96) wUp with
     | .next t => t.fget R.MEM_STKTEMP_REFRESH 7 0 == 2 && t.fget R.MEM_STKTEMP_LIMIT 7 0 == 1 && t.fget R.MEM_STKTEMP_LIMIT 0 0 == 0
     | _ => false) = true := by decide +kernel

/-- A Seizing has one owner: a second TAKE changes nothing (R568). -/
theorem test_seizing_is_exclusive :
    (match exec (.hubSeizeTake 3 .portE) (wSeize wUp 3 .portW) with
     | .next t => t.seizer 3 == some .portW
     | _ => false) = true := by decide +kernel

/-- The idle step counts the tally (R581). -/
theorem test_idle_counts_the_tally :
    (match step State.reset with | .next t => t.tally == 1 | _ => false) = true := by decide +kernel

/-- The hot junction of R445: at 106 degrees the half's rail is at its lowest and the gate is 8. -/
theorem test_hot_junction :
    (match exec (.junctionTempChange .west 106) wUp with
     | .next t => t.pwr.junW == 2 && t.pwr.jgateW == 8 && t.pwr.jHotW
     | _ => false) = true := by decide +kernel


/-- AES-256 of FIPS 197, appendix C.3. -/
theorem test_aes_vector :
    aesEnc (keyWords (List.range 32)) ((List.range 16).map fun i => 17 * i)
      = [0x8E, 0xA2, 0xB7, 0xCA, 0x51, 0x67, 0x45, 0xBF, 0xEA, 0xFC, 0x49, 0x90, 0x4B, 0x49, 0x60, 0x89] := by decide +kernel

/-- AES-256-GCM of nothing under the zero key and nonce (test case 13 of the GCM submission). -/
theorem test_gcm_vector :
    gcmTag (aesKey 0) (List.replicate 12 0) [] []
      = [0x53, 0x0F, 0x8A, 0xFB, 0xC7, 0x45, 0x36, 0xB9, 0xA9, 0x63, 0xB4, 0xF1, 0xC4, 0xCB, 0x73, 0x8B] := by decide +kernel

/-- A codeword whose four syndromes are zero is clean, one symbol changed is corrected, and the burst carries every bit (R154, R155). -/
theorem test_check_code_corrects :
    let c := codeword 0x123456789ABCDEF0 false
    rsDecode c = some (c, 0) ∧ rsDecode (putErr c 34 0x5A) = some (c, 1)
    ∧ ofBurst (toBurst c) = c := by decide +kernel
end Sys2Proof.Machine
end

section
/-! A tile stopped by an op fault keeps its memories, and the fault of naming a foreign Cleat (R135). -/

namespace Sys2Proof.Machine

/-! ## What an op fault does to the tiles (R149) -/

/-- An operation that leaves the tiles alone shows every tile as before. -/
theorem State.onlyIn.tile_eq {l : List Comp} {s u : State} (h : State.onlyIn l s u) (hl : Comp.tiles ∉ l) (m : Nat) :
    u.tile m = s.tile m :=
  congrArg (fun tiles => tget (fun _ => ({} : Tile)) tiles m) (h.eq .tiles hl)

/-- The record, the dropped requests, the command and the triggers of an op fault are not the tiles': these see the stop alone. -/
theorem State.tile_faultOne (s : State) (t code idx dva m : Nat) :
    (s.faultOne t code idx dva).tile m = (s.setTile t ((s.tile t).stop true)).tile m := by
  have record := (State.faultRecord_only s t code idx dva).eq .tiles (by decide)
  unfold State.faultOne
  dsimp only
  rw [(State.trigger_only _ _ _ _ _ _).tile_eq (by decide), (State.opFaultRun_only _ _ _ _ _ _).tile_eq (by decide),
    (State.dropTileReqs_only _ _).tile_eq (by decide)]
  unfold State.tile State.setTile
  exact congrArg (fun tiles => tget (fun _ => ({} : Tile)) (tset (fun _ => ({} : Tile)) tiles t _) m) record

@[simp] theorem State.tile_faultOne_same (s : State) (t code idx dva : Nat) :
    (s.faultOne t code idx dva).tile t = (s.tile t).stop true := by
  rw [State.tile_faultOne, State.tile_setTile_same]

theorem State.tile_faultOne_other (s : State) (t code idx dva m : Nat) (h : m ≠ t) :
    (s.faultOne t code idx dva).tile m = s.tile m := by
  rw [State.tile_faultOne, State.tile_setTile_other _ _ _ _ h]

/-- GROUP_ABORT goes to the other tiles of the group only (R129). -/
@[simp] theorem State.tile_abortMates_same (s : State) (t : Nat) : (s.abortMates t).tile t = s.tile t := by
  unfold State.abortMates
  refine List.foldlRecOn (mates t) _ (motive := fun u : State => u.tile t = s.tile t) rfl fun u hu m _ => ?_
  split
  · split
    · exact hu
    · next hm => rw [State.tile_faultOne_other _ _ _ _ _ _ (Ne.symm hm), hu]
  · exact hu

@[simp] theorem State.tile_tileFault_same (s : State) (t code idx dva : Nat) :
    (s.tileFault t code idx dva).tile t = (s.tile t).stop true := by
  rw [State.tileFault, State.tile_abortMates_same, State.tile_faultOne_same]

/-! ## The ops that name a Cleat, at a tile that the part has -/

theorem atUnit_present {present : Bool} (h : present = true) (u : State) : atUnit present u = .next u := if_pos h

theorem exec_wait {t : Fin 96} {s : State} (h : s.hasTile t.val = true) : exec (.wait t) s = .next (s.waitRow t.val) :=
  atUnit_present h _

theorem exec_signal {t : Fin 96} {s : State} (h : s.hasTile t.val = true) : exec (.signal t) s = .next (s.signalRow t.val) :=
  atUnit_present h _

theorem exec_skip {t : Fin 96} {s : State} (h : s.hasTile t.val = true) : exec (.skip t) s = .next (s.skipRow t.val) :=
  atUnit_present h _

section
variable {s : State} {t i : Nat} {e : Entry} (foreign : s.cleatOwner (eCleat e).toNat ≠ some (s.tile t).part)
include foreign

/-- The owner is looked at before the Splice. -/
theorem State.cleatFault_of_foreign : s.cleatFault t (eCleat e) = ofCleatOwner := if_pos foreign

theorem State.waitRow_of_foreign (ready : s.ready t opWait = some (i, e)) : s.waitRow t = s.tileFault t ofCleatOwner i 0 := by
  simp [State.waitRow, ready, State.cleatFault_of_foreign foreign, ofCleatOwner]

theorem State.signalRow_of_foreign (ready : s.ready t opSignal = some (i, e)) : s.signalRow t = s.tileFault t ofCleatOwner i 0 := by
  simp [State.signalRow, ready, foreign]

theorem State.skipRow_of_foreign (ready : s.ready t opSkip = some (i, e)) (count : Entry.bits e 92 81 ≠ 0) :
    s.skipRow t = s.tileFault t ofCleatOwner i 0 := by
  simp [State.skipRow, ready, count, State.cleatFault_of_foreign foreign, ofCleatOwner]
end

/-- Settles O11: each of the three rows looks at the Cleat's owner before it passes or issues the op, so each is the same op fault, and
that fault leaves the tile as its stop does. -/
theorem foreignCleatStopsTheTile : Obligations.ForeignCleatStopsTheTile := by
  unfold Obligations.ForeignCleatStopsTheTile
  intro s t i e present foreign faults
  have stops (r : Res) (h : r = .next (s.tileFault t.val ofCleatOwner i 0)) : faults r := by
    refine ⟨_, h, rfl, ?_⟩
    simp [State.tile_tileFault_same, Tile.stop]
  refine ⟨fun ready => stops _ ?_, fun ready => stops _ ?_, fun ready count => stops _ ?_⟩
  · rw [exec_wait present, State.waitRow_of_foreign foreign ready]
  · rw [exec_signal present, State.signalRow_of_foreign foreign ready]
  · rw [exec_skip present, State.skipRow_of_foreign foreign ready count]

end Sys2Proof.Machine
end

section
/-! A home lets an answer go whose row is over (R240). -/

namespace Sys2Proof.Machine

/-- A packet that leaves the mesh changes no home's line. -/
@[simp] theorem State.line_takePkt (s : State) (p : Pkt) (n : Nat) : (s.takePkt p).line n = s.line n := rfl

/-- A packet that arrives leaves the mesh before it acts (R200). -/
theorem State.onArrival_of_arrives {s : State} {p : Pkt} {op : Op} (arrived : s.arrives p = true) (isOp : p.op = op)
    (k : State → State) : s.onArrival p op k = (k (s.takePkt p)).unbindAll :=
  if_pos (by simp [arrived, isOp])

/-! ## Answers at a home -/

theorem exec_snpResp_at_home {s : State} {p : Pkt} (arrived : s.arrives p = true) (isOp : p.op = .snpResp) (home : p.dst.kind = .home) :
    exec (.snpResp p) s = .next ((s.takePkt p).homeAnswer p).unbindAll := by
  change execSnpResp p s = _
  simp [execSnpResp, State.onArrival_of_arrives arrived isOp, State.snoopAnswer, home]

theorem exec_snpRespData_at_home {s : State} {p : Pkt} (arrived : s.arrives p = true) (isOp : p.op = .snpRespData)
    (home : p.dst.kind = .home) : exec (.snpRespData p) s = .next ((s.takePkt p).homeAnswer p).unbindAll := by
  change execSnpRespData p s = _
  simp [execSnpRespData, State.onArrival_of_arrives arrived isOp, State.snoopAnswer, home]

theorem exec_mdata_at_home {s : State} {p : Pkt} (arrived : s.arrives p = true) (isOp : p.op = .mData) (home : p.dst.kind = .home) :
    exec (.mdata p) s = .next ((s.takePkt p).homeData p).unbindAll := by
  change execMdata p s = _
  simp [execMdata, State.onArrival_of_arrives arrived isOp, home]

section
variable {s : State} {p : Pkt} (late : ∀ t, (s.line p.line).txn = some t → t.id % 65536 ≠ p.tag)
include late

/-- A home matches a snoop's answer to the row of its tag. -/
theorem State.homeAnswer_of_late : s.homeAnswer p = s := by
  unfold State.homeAnswer
  dsimp only
  cases busy : (s.line p.line).txn with
  | none => rfl
  | some t => exact if_pos (.inr (.inl (late t busy)))

/-- A home matches MData to the row of its tag. -/
theorem State.homeData_of_late : s.homeData p = s := by
  unfold State.homeData
  dsimp only
  cases busy : (s.line p.line).txn with
  | none => rfl
  | some t => exact if_pos (.inr (.inl (late t busy)))
end

/-- Settles O25: each of the three ops is handed to the home when it has left the mesh, and the home finds no row of its tag. -/
theorem lateAnswersAreDiscarded : Obligations.LateAnswersAreDiscarded := by
  unfold Obligations.LateAnswersAreDiscarded
  intro s p c arrived home isOp late
  have answer : (s.takePkt p).homeAnswer p = s.takePkt p := State.homeAnswer_of_late (by simpa using late)
  have data : (s.takePkt p).homeData p = s.takePkt p := State.homeData_of_late (by simpa using late)
  simp only [List.mem_cons, List.not_mem_nil, Prod.mk.injEq, or_false] at isOp
  rcases isOp with ⟨rfl, op⟩ | ⟨rfl, op⟩ | ⟨rfl, op⟩
  · rw [exec_snpResp_at_home arrived op home, answer]
  · rw [exec_snpRespData_at_home arrived op home, answer]
  · rw [exec_mdata_at_home arrived op home, data]

end Sys2Proof.Machine
end
